-- ==== Sys2Proof/Word.lean ====
section
/-! DEFINITION. The smallest types of the model: the byte of a frame, the names of the three period
channels, and the names of the records of the retention domain. -/

namespace Sys2Proof

/-- A byte of a command or response frame (R181). -/
abbrev Byte := BitVec 8

/-- The two tilt channels (R55). -/
inductive Axis where
  | x | y
deriving DecidableEq, Repr

/-- The three period channels: TILTX, TILTY and TEMPF (R55). -/
inductive Channel where
  | tilt (a : Axis)
  | temperature
deriving DecidableEq, Repr

/-- The records of the retention domain that the memory check covers (R204). A station entry is
named by its way, `set * 4 + way`. -/
inductive RecordId where
  | station (way : Nat)
  | occupation (index : Nat)
  | loop (number : Nat)
  | constants
  | constituent (number : Nat)
  | site (number : Nat)
deriving DecidableEq, Repr, Inhabited

end Sys2Proof
end

