-- ==== Sys2Proof/Config.lean ====
section
/-! DEFINITION. What is fixed for the part: its capacities (00_scope, Capacities at a glance) and the
free values, which have no body, so that no proof can rest on one of them. -/

namespace Sys2Proof.Config

/-- Sets of the station table, and ways of a set (R4). -/
def sets : Nat := 64
def waysPerSet : Nat := 4
/-- Ways of the whole station table. -/
def ways : Nat := 256
/-- Occupation records of the pool (R29). -/
def poolSize : Nat := 512
/-- Occupations a station lists at most (R3). -/
def listLimit : Nat := 8
/-- Loop records (R108) and members of a loop at most (R110). -/
def loops : Nat := 16
def memberLimit : Nat := 64
/-- Waiting jobs at most (R135). -/
def queueLimit : Nat := 4
/-- Constituents (R90) and tide sites (R91). -/
def constituents : Nat := 12
def sites : Nat := 8
/-- The greatest payload length of a frame (R181). -/
def payloadLimit : Nat := 240
/-- Ticks of a second and of an hour (00_scope, Time). -/
def ticksPerSecond : Nat := 1024
def ticksPerHour : Nat := 3686400
/-- The top value of the seconds, at which the clock is held (R176). -/
def topSeconds : Nat := 4294967295
/-- The period count at which a channel abandons (R58). -/
def abandonCount : Nat := 16777215
/-- The silence count at which the gravity sample input becomes SILENT (R69). -/
def silenceLimit : Nat := 2048
/-- The magnitude bound of a stored gravity value (R74). -/
def gravityBound : Nat := 2147483647

/-- FREE VALUE (log 2): the record, if any, of which a word is upset in the n-th idle step. The spec
says that the memory check fails (R204), and not when. -/
opaque upset : Nat → Option RecordId

/-- FREE VALUE (log 2): the way, if any, whose entry is upset between the lookup and the read-out of the next
command that reads it whole, as the n-th idle step leaves it. R19 and R162 say what such a command answers. -/
opaque lateUpset : Nat → Option Nat

/-- FREE VALUE (log 12): how a presence byte that is neither 0 nor 1 is read: as present, as absent,
or as a length that does not match (`none`). R181 gives only 0 and 1 a meaning. -/
opaque oddPresence : Byte → Option Bool

/-- FREE VALUE (log 20): the corrected value taken for an endpoint that holds no results, by its
index. R119 reads a V that a loaded record need not hold. -/
opaque missingV : Nat → Int

/-- FREE VALUE (log 21): the length of a gate that begins while the constants cannot be read, by the
number of the channel. R170 states it for a gate that follows another, and not for a first gate. -/
opaque unreadGateLength : Nat → Nat

/-- FREE VALUES (log 30): the tilt correction, the temperature correction and the noise stored where loaded
sums, which no window formed, would take them out of their ranges, by the exact value of the formula. R78 to
R81 give the formulas and R75 the ranges, and for such sums not both can hold. -/
opaque wideTilt : Int → Int
opaque wideTemp : Int → Int
opaque wideNoise : Nat → Nat

/-- FREE VALUE (log 53): what stands in the four bytes of n in an occupation part, for a loaded n that they cannot
hold. R166 gives the field four bytes, and R201 gives n no upper bound. -/
opaque wideCount : Nat → Nat

/-- The ranges of the results (R75). -/
def noiseBound : Nat := 134217727
def tiltBound : Int := 39360
def tempBound : Int := 3276700

end Sys2Proof.Config
end

