-- ==== Sys2Proof/Syntax.lean ====
section
/-! DEFINITION. The commands of the JG-312: one constructor for each row of spec/opcode_table.json. A
host command carries the fields of its frame as they were sent (R181): a code, a choice or a number
out of its range is a term of this type, and the command's own rule refuses it. -/

namespace Sys2Proof

/-- The fields of OPEN STATION (R10). `role` 0 is BASE and 1 FIELD; `pinned` 1 is yes and 0 no. -/
structure OpenStationReq where
  number : Nat
  role : Nat
  site : Nat
  reference : Option Nat
  pinned : Nat
  tag : BitVec 32
deriving DecidableEq, Repr

/-- The reference action of EDIT STATION: set to a value, clear, or a code that names neither. -/
inductive RefAction where
  | set (value : Nat)
  | clear
  | unnamed (code : Nat)
deriving DecidableEq, Repr

/-- The fields of EDIT STATION (R15): each change present or absent. -/
structure EditStationReq where
  number : Nat
  role : Option Nat
  site : Option Nat
  reference : Option RefAction
  pinned : Option Nat
  tag : Option (BitVec 32)
deriving DecidableEq, Repr

/-- The fields of BEGIN READING (R34). -/
structure BeginReadingReq where
  number : Nat
  loop : Option Nat
  duration : Nat
  settle : Nat
  abortOnTilt : Nat
deriving DecidableEq, Repr

/-- The twenty numeric fields of the constants in the order of the table of R169. -/
structure ConstNums where
  gravity : Int
  scale : Int
  rangeOffset : Int
  zeroX : Int
  zeroY : Int
  scaleX : Int
  scaleY : Int
  tiltGate : Int
  zeroT : Int
  scaleT : Int
  tempGate : Int
  c1 : Int
  c2 : Int
  lagFactor : Int
  tiltLimit : Int
  driftLimit : Int
  loopHours : Int
  gradeA : Int
  gradeB : Int
  breakLimit : Int
deriving DecidableEq, Repr

/-- The fields of WRITE CONSTANTS (R171): the numbers, then the codes of the rounding mode and of the
three channel enables. -/
structure WriteConstantsReq where
  nums : ConstNums
  mode : Nat
  enableX : Nat
  enableY : Nat
  enableT : Nat
deriving DecidableEq, Repr

/-- The fields of LOAD STATION (R200). -/
structure LoadStationReq where
  number : Nat
  role : Nat
  site : Nat
  reference : Option Nat
  pinned : Nat
  tag : BitVec 32
  changed : Nat
  list : List Nat
deriving DecidableEq, Repr

/-- The sums, counts and last values of a loaded occupation (R29, R201). -/
structure LoadSums where
  sumX : Int
  sumX2 : Int
  n : Int
  sumT : Int
  overload : Nat
  clamped : Nat
  breaks : Nat
  tiltX2 : Int
  mx : Int
  tiltY2 : Int
  my : Int
  lastX : Option Int
  lastY : Option Int
  sumTemp : Int
  sumLag : Int
  k : Int
  lastT : Option Int
  lastL : Option Int
deriving DecidableEq, Repr

/-- The seventeen flags of an occupation record (R29). -/
structure Flags where
  short : Bool := false
  breaks : Bool := false
  sensorLost : Bool := false
  clamped : Bool := false
  overload : Bool := false
  tiltLimit : Bool := false
  tiltRange : Bool := false
  constantsChanged : Bool := false
  unqueued : Bool := false
  tiltHeld : Bool := false
  tiltMissing : Bool := false
  tempHeld : Bool := false
  tempMissing : Bool := false
  saturated : Bool := false
  noTide : Bool := false
  driftHigh : Bool := false
  noDrift : Bool := false
deriving DecidableEq, Repr

/-- The results group (R75). -/
structure Results where
  raw : Int
  noise : Option Nat
  ctilt : Int
  ctemp : Int
  ctide : Int
  v : Int
  revision : Nat
  site : Nat
  siteRevision : Nat
deriving DecidableEq, Repr

/-- The drift part (R126). -/
structure DriftPart where
  correction : Int
  final : Int
  vOpen : Int
  rOpen : Option Nat
  rate : Int
deriving DecidableEq, Repr

/-- The fields of LOAD OCCUPATION (R201) after the index. `state` is the code of R29's list: FREE 0,
SETTLING 1, COLLECTING 2, PENDING 3, REDUCED 4, FINAL 5. `oddFlag` tells that some flag byte was
neither 0 nor 1. -/
structure LoadOccupationReq where
  state : Nat
  number : Nat
  settle : Nat
  duration : Nat
  abortOnTilt : Nat
  memberOf : Option Nat
  opens : Option Nat
  startTick : Option Nat
  epoch : Option Nat
  openRevision : Option Nat
  sums : LoadSums
  flags : Flags
  oddFlag : Bool
  results : Option Results
  drift : Option DriftPart
deriving DecidableEq, Repr

/-- The fields of LOAD LOOP (R202). `state` is the code of R108's list: FREE 0, OPEN 1, EXPIRED 2,
CLOSING 3, CLOSED 4; `mode` 0 is DRIFT and 1 NO_DRIFT; the flags are 1 when set. -/
structure LoadLoopReq where
  loop : Nat
  state : Nat
  openEnd : Nat
  openEpoch : Nat
  deadline : Nat
  members : List Nat
  closing : Option Nat
  mode : Option Nat
  deltaV : Option Int
  rate : Option Int
  driftHigh : Nat
  interrupted : Nat
deriving DecidableEq, Repr

/-- The commands: one constructor for each row of the table, in its order. -/
inductive Instr where
  | powerOn
  | resetLineAsserted
  | resetLineReleased
  | wake
  | chipSelectOpen
  | chipSelectClose (mosi : List Byte)
  | openStation (r : OpenStationReq)
  | editStation (r : EditStationReq)
  | findStation (number : Nat)
  | readStation (number : Nat)
  | readSlot (set way : Nat)
  | retireStation (number : Nat)
  | retireSlot (set way : Nat)
  | beginReading (r : BeginReadingReq)
  | clampAsserted
  | clampReleased
  | basePeriodEnd
  | slewCountComplete
  | settleCountZero
  | elapsedCountComplete
  | endReading
  | abortReading
  | discardOccupation (index : Nat)
  | readWindow
  | readOccupation (index : Nat)
  | gateStart (ch : Channel)
  /-- `periods`: the reference periods that passed since the period count last stood (log 7). -/
  | tiltGateComplete (a : Axis) (periods : Nat)
  | temperatureGateComplete (periods : Nat)
  | abandon (ch : Channel)
  /-- The 32 bits of the frame, bit 31 received first (R65). -/
  | gsiFrame (word : BitVec 32)
  | shortFrame
  | silenceCountComplete
  | openLoop (loop occ : Nat)
  | loopExpired (loop : Nat)
  /-- `mode` 0 is DRIFT and 1 NO_DRIFT. -/
  | closeLoop (loop occ mode tag : Nat)
  | voidLoop (loop : Nat)
  | releaseLoop (loop : Nat)
  | readLoop (loop : Nat)
  | writeConstituent (number enabled speed phase : Nat)
  /-- The pairs of amplitude and site phase in constituent order. -/
  | writeSite (site : Nat) (pairs : List (Nat × Nat))
  | clearSite (site : Nat)
  | readSite (site : Nat)
  | writeConstants (r : WriteConstantsReq)
  | readConstants
  | setClock (seconds ticks : Nat)
  | trimClock (trim : Int)
  | readClock
  /-- `kind` is the code of R134's list: REDUCE 0, CLOSE 1, RETIDE 2, RECALC 3. -/
  | submitJob (kind target tag : Nat)
  | reduceStep
  | closeLoopCheck
  | inlineReduction
  | deltaVStep
  | memberStep
  | closeCompletion
  | recomputeDeltaVStep
  | recomputeMemberStep
  | retideWayStep
  | retideOccupationStep
  | recalcStep
  | jobCompletion
  | readQueue
  /-- RESTART ENGINE as sent with the action byte: 0 is RETRY; a byte that names no action arrives
  here too and is refused. Byte 1 arrives as `restartEngineDiscard` (log 32). -/
  | restartEngineRetry (action : Nat)
  | restartEngineDiscard
  | readFault
  | nextChanged (key : Option Nat)
  | exportStation (number : Nat)
  | readExportPart (part : Nat)
  | readEvents
  | clearEvents (mask : BitVec 16)
  | setEvents (mask : BitVec 16)
  | enableEvents (mask : BitVec 16)
  | identify
  | beginRestore
  | loadStation (r : LoadStationReq)
  | loadOccupation (index : Nat) (r : LoadOccupationReq)
  | loadLoop (r : LoadLoopReq)
  | endRestore
  | abortRestore
  | readScanReport
  | standby
  | reset
  /-- `steps`: how many steps of the pass this row takes; all that remain when it is at least that
  many (log 8). So too for the seven rows after it. -/
  | scanDuplicates (steps : Nat)
  | scanDamage (steps : Nat)
  | scanReferences (steps : Nat)
  | scanWindows (steps : Nat)
  | scanOrder (steps : Nat)
  | scanUnanchoredLoops (steps : Nat)
  | scanInterruptedCloses (steps : Nat)
  | scanStrayDrift (steps : Nat)
  | scanDone
  | gsiFrmAsserted
deriving DecidableEq, Repr

end Sys2Proof
end

