-- ==== Sys2Proof/Decode.lean ====
section
/-! DEFINITION. The command frames of the host link (R181, R182): the bytes of a frame read as a
command, and a command written as the bytes of its frame. The opcode table gives no row any bits, so
`decodeTableWord` reads none; the frames are the part's own encoding of its host commands. -/

namespace Sys2Proof

/-! ### Numbers as bytes, most significant first (R181) -/

/-- The `k` bytes of `n`, most significant first; higher digits are dropped. -/
def beBytes : Nat → Nat → List Byte
  | 0, _ => []
  | k + 1, n => BitVec.ofNat 8 (n / 256 ^ k) :: beBytes k n

/-- The `k` bytes of `z` in two's complement. -/
def beBytesS (k : Nat) (z : Int) : List Byte := beBytes k (z % (256 ^ k : Nat)).toNat

/-- The unsigned number that the bytes spell. -/
def beNat : List Byte → Nat := fun bs => bs.foldl (fun acc b => acc * 256 + b.toNat) 0

/-- The two's complement number that `k` bytes spell. -/
def beInt (bs : List Byte) : Int :=
  let n := beNat bs
  if n < 128 * 256 ^ (bs.length - 1) then n else (n : Int) - (256 ^ bs.length : Nat)

/-- `z` lies in the range of `k` bytes of two's complement. -/
def fitsBytes (k : Nat) (z : Int) : Bool := -(128 * 256 ^ (k - 1) : Int) ≤ z && z < 128 * 256 ^ (k - 1)

/-- The fewest bytes from `k` up, at most `k + fuel`, that hold `z` in two's complement. -/
def fewestBytes : Nat → Nat → Int → Nat
  | 0, k, _ => k
  | fuel + 1, k, z => if fitsBytes k z then k else fewestBytes fuel (k + 1) z

/-- An exact integer: a length byte from 1 to 16, then that many bytes (R181), the fewest that hold
it (DEDUCED, log 10). -/
def exactBytes (z : Int) : List Byte :=
  let k := fewestBytes 15 1 z
  BitVec.ofNat 8 k :: beBytesS k z

def u8 (n : Nat) : List Byte := beBytes 1 n
def u16 (n : Nat) : List Byte := beBytes 2 n
def u24 (n : Nat) : List Byte := beBytes 3 n
def u32 (n : Nat) : List Byte := beBytes 4 n
def u48 (n : Nat) : List Byte := beBytes 6 n
def s16 (z : Int) : List Byte := beBytesS 2 z
def s24 (z : Int) : List Byte := beBytesS 3 z
def s32 (z : Int) : List Byte := beBytesS 4 z
/-- A yes or no, on or off, set or clear choice: 1 or 0 (R181). -/
def flagByte (b : Bool) : List Byte := u8 (if b then 1 else 0)
/-- An optional field: its presence byte, then the field when present (R181). -/
def optBytes {α : Type} (f : α → List Byte) : Option α → List Byte
  | none => u8 0
  | some v => u8 1 ++ f v
/-- A list whose length can vary: a count byte, then its entries (R181). -/
def listBytes {α : Type} (f : α → List Byte) (l : List α) : List Byte := u8 l.length ++ l.flatMap f

/-! ### Reading a payload -/

/-- A reader of a payload: the field read and the bytes after it, or nothing when the payload ends
before the field does. -/
abbrev Parse (α : Type) := List Byte → Option (α × List Byte)

/-- The next `k` bytes. -/
def takeBytes (k : Nat) : Parse (List Byte) := fun b =>
  if k ≤ b.length then some (b.take k, b.drop k) else none

def pU (k : Nat) : Parse Nat := fun b => (takeBytes k b).map fun r => (beNat r.1, r.2)
def pS (k : Nat) : Parse Int := fun b => (takeBytes k b).map fun r => (beInt r.1, r.2)
def pTag : Parse (BitVec 32) := fun b => (pU 4 b).map fun r => (BitVec.ofNat 32 r.1, r.2)

/-- The presence byte: 1 present, 0 absent; any other value is a free value (log 12). -/
def presence (b : Byte) : Option Bool :=
  if b = 1 then some true else if b = 0 then some false else Config.oddPresence b

/-- An optional field (R181). -/
def pOpt {α : Type} (p : Parse α) : Parse (Option α)
  | [] => none
  | b :: rest =>
    match presence b with
    | some true => (p rest).map fun r => (some r.1, r.2)
    | some false => some (none, rest)
    | none => none

/-- An exact integer (R181): a length byte outside 1 to 16 matches no length (log 10). -/
def pExact : Parse Int := fun b =>
  match pU 1 b with
  | some (k, rest) => if 1 ≤ k ∧ k ≤ 16 then pS k rest else none
  | none => none

/-- `k` entries one after another. -/
def pMany {α : Type} (p : Parse α) : Nat → Parse (List α)
  | 0, b => some ([], b)
  | k + 1, b =>
    match p b with
    | some (v, rest) => (pMany p k rest).map fun r => (v :: r.1, r.2)
    | none => none

/-- A counted list of at most `limit` entries; a greater count matches no length (R200, R202). -/
def pList {α : Type} (limit : Nat) (p : Parse α) : Parse (List α) := fun b =>
  match pU 1 b with
  | some (k, rest) => if k ≤ limit then pMany p k rest else none
  | none => none

/-- The reference action of EDIT STATION: its code, and for a set the value. No bytes follow the code of a clear, nor a
code that names neither (DESIGN CHOICE, log 10). -/
def pRefAction : Parse RefAction := fun b =>
  match pU 1 b with
  | some (0, rest) => (pU 4 rest).map fun r => (.set r.1, r.2)
  | some (1, rest) => some (.clear, rest)
  | some (c, rest) => some (.unnamed c, rest)
  | none => none

def pPair : Parse (Nat × Nat) := fun b => do
  let (a, b) ← pU 2 b
  let (p, b) ← pU 2 b
  some ((a, p), b)

def pOpenStation : Parse Instr := fun b => do
  let (number, b) ← pU 2 b
  let (role, b) ← pU 1 b
  let (site, b) ← pU 1 b
  let (reference, b) ← pOpt (pU 4) b
  let (pinned, b) ← pU 1 b
  let (tag, b) ← pTag b
  some (.openStation { number, role, site, reference, pinned, tag }, b)

def pEditStation : Parse Instr := fun b => do
  let (number, b) ← pU 2 b
  let (role, b) ← pOpt (pU 1) b
  let (site, b) ← pOpt (pU 1) b
  let (reference, b) ← pOpt pRefAction b
  let (pinned, b) ← pOpt (pU 1) b
  let (tag, b) ← pOpt pTag b
  some (.editStation { number, role, site, reference, pinned, tag }, b)

def pBeginReading : Parse Instr := fun b => do
  let (number, b) ← pU 2 b
  let (loop, b) ← pOpt (pU 1) b
  let (duration, b) ← pU 2 b
  let (settle, b) ← pU 2 b
  let (abortOnTilt, b) ← pU 1 b
  some (.beginReading { number, loop, duration, settle, abortOnTilt }, b)

def pConstNums : Parse ConstNums := fun b => do
  let (gravity, b) ← pS 4 b
  let (scale, b) ← pS 4 b
  let (rangeOffset, b) ← pS 4 b
  let (zeroX, b) ← pS 4 b
  let (zeroY, b) ← pS 4 b
  let (scaleX, b) ← pS 4 b
  let (scaleY, b) ← pS 4 b
  let (tiltGate, b) ← pS 4 b
  let (zeroT, b) ← pS 4 b
  let (scaleT, b) ← pS 4 b
  let (tempGate, b) ← pS 4 b
  let (c1, b) ← pS 4 b
  let (c2, b) ← pS 4 b
  let (lagFactor, b) ← pS 4 b
  let (tiltLimit, b) ← pS 4 b
  let (driftLimit, b) ← pS 4 b
  let (loopHours, b) ← pS 4 b
  let (gradeA, b) ← pS 4 b
  let (gradeB, b) ← pS 4 b
  let (breakLimit, b) ← pS 4 b
  some ({ gravity, scale, rangeOffset, zeroX, zeroY, scaleX, scaleY, tiltGate, zeroT, scaleT, tempGate,
          c1, c2, lagFactor, tiltLimit, driftLimit, loopHours, gradeA, gradeB, breakLimit }, b)

def pWriteConstants : Parse Instr := fun b => do
  let (nums, b) ← pConstNums b
  let (mode, b) ← pU 1 b
  let (enableX, b) ← pU 1 b
  let (enableY, b) ← pU 1 b
  let (enableT, b) ← pU 1 b
  some (.writeConstants { nums, mode, enableX, enableY, enableT }, b)

def pLoadStation : Parse Instr := fun b => do
  let (number, b) ← pU 2 b
  let (role, b) ← pU 1 b
  let (site, b) ← pU 1 b
  let (reference, b) ← pOpt (pU 4) b
  let (pinned, b) ← pU 1 b
  let (tag, b) ← pTag b
  let (changed, b) ← pU 1 b
  let (list, b) ← pList 8 (pU 2) b
  some (.loadStation { number, role, site, reference, pinned, tag, changed, list }, b)

/-- R201 names the sums, the counts and the last values, in that order; each group is in the order of R29. The sums
are R29's exact integers, n, mx, my and k among them, and the counts its three held counts (DESIGN CHOICE, log 10). -/
def pLoadSums : Parse LoadSums := fun b => do
  let (sumX, b) ← pExact b
  let (sumX2, b) ← pExact b
  let (n, b) ← pExact b
  let (sumT, b) ← pExact b
  let (tiltX2, b) ← pExact b
  let (mx, b) ← pExact b
  let (tiltY2, b) ← pExact b
  let (my, b) ← pExact b
  let (sumTemp, b) ← pExact b
  let (sumLag, b) ← pExact b
  let (k, b) ← pExact b
  let (overload, b) ← pU 2 b
  let (clamped, b) ← pU 2 b
  let (breaks, b) ← pU 2 b
  let (lastX, b) ← pOpt (pS 2) b
  let (lastY, b) ← pOpt (pS 2) b
  let (lastT, b) ← pOpt (pS 3) b
  let (lastL, b) ← pOpt (pS 3) b
  some ({ sumX, sumX2, n, sumT, overload, clamped, breaks, tiltX2, mx, tiltY2, my, lastX, lastY,
          sumTemp, sumLag, k, lastT, lastL }, b)

/-- The flags from their seventeen bytes in the order of the table of R29. -/
def flagsOfBytes (l : List Byte) : Flags :=
  let f (i : Nat) : Bool := l.getD i 0 = 1
  { short := f 0, breaks := f 1, sensorLost := f 2, clamped := f 3, overload := f 4, tiltLimit := f 5,
    tiltRange := f 6, constantsChanged := f 7, unqueued := f 8, tiltHeld := f 9, tiltMissing := f 10,
    tempHeld := f 11, tempMissing := f 12, saturated := f 13, noTide := f 14, driftHigh := f 15,
    noDrift := f 16 }

/-- The flags as a list, in the order of the table of R29. -/
def Flags.toList (f : Flags) : List Bool :=
  [f.short, f.breaks, f.sensorLost, f.clamped, f.overload, f.tiltLimit, f.tiltRange, f.constantsChanged,
   f.unqueued, f.tiltHeld, f.tiltMissing, f.tempHeld, f.tempMissing, f.saturated, f.noTide, f.driftHigh,
   f.noDrift]

def pResults : Parse Results := fun b => do
  let (raw, b) ← pS 4 b
  let (noise, b) ← pOpt (pU 4) b
  let (ctilt, b) ← pU 2 b
  let (ctemp, b) ← pS 3 b
  let (ctide, b) ← pS 2 b
  let (v, b) ← pS 4 b
  let (revision, b) ← pU 2 b
  let (site, b) ← pU 1 b
  let (siteRevision, b) ← pU 2 b
  some ({ raw, noise, ctilt := ctilt, ctemp, ctide, v, revision, site, siteRevision }, b)

def pDrift : Parse DriftPart := fun b => do
  let (correction, b) ← pS 4 b
  let (final, b) ← pS 4 b
  let (vOpen, b) ← pS 4 b
  let (rOpen, b) ← pOpt (pU 4) b
  let (rate, b) ← pS 4 b
  some ({ correction, final, vOpen, rOpen, rate }, b)

def pLoadOccupation : Parse Instr := fun b => do
  let (index, b) ← pU 2 b
  let (state, b) ← pU 1 b
  let (number, b) ← pU 2 b
  let (settle, b) ← pU 2 b
  let (duration, b) ← pU 2 b
  let (abortOnTilt, b) ← pU 1 b
  let (memberOf, b) ← pOpt (pU 1) b
  let (opens, b) ← pOpt (pU 1) b
  let (startTick, b) ← pOpt (pU 6) b
  let (epoch, b) ← pOpt (pU 6) b
  let (openRevision, b) ← pOpt (pU 2) b
  let (sums, b) ← pLoadSums b
  let (fl, b) ← takeBytes 17 b
  let (results, b) ← pOpt pResults b
  let (drift, b) ← pOpt pDrift b
  some (.loadOccupation index
    { state, number, settle, duration, abortOnTilt, memberOf, opens, startTick, epoch, openRevision, sums,
      flags := flagsOfBytes fl, oddFlag := !fl.all (fun c => c = 0 || c = 1), results, drift }, b)

/-- R202. Its two flags are always there, one byte each without a presence byte (DESIGN CHOICE, log 10). -/
def pLoadLoop : Parse Instr := fun b => do
  let (loop, b) ← pU 1 b
  let (state, b) ← pU 1 b
  let (openEnd, b) ← pU 2 b
  let (openEpoch, b) ← pU 6 b
  let (deadline, b) ← pU 6 b
  let (members, b) ← pList 64 (pU 2) b
  let (closing, b) ← pOpt (pU 2) b
  let (mode, b) ← pOpt (pU 1) b
  let (deltaV, b) ← pOpt (pS 4) b
  let (rate, b) ← pOpt (pS 4) b
  let (driftHigh, b) ← pU 1 b
  let (interrupted, b) ← pU 1 b
  some (.loadLoop { loop, state, openEnd, openEpoch, deadline, members, closing, mode, deltaV, rate,
                    driftHigh, interrupted }, b)

/-- A command without fields. -/
def pNone (i : Instr) : Parse Instr := fun b => some (i, b)

/-- A command with one field of `k` bytes. -/
def pOne (k : Nat) (f : Nat → Instr) : Parse Instr := fun b => (pU k b).map fun r => (f r.1, r.2)

/-- A command with two fields. -/
def pTwo (k m : Nat) (f : Nat → Nat → Instr) : Parse Instr := fun b => do
  let (u, b) ← pU k b
  let (v, b) ← pU m b
  some (f u v, b)

def pCloseLoop : Parse Instr := fun b => do
  let (loop, b) ← pU 1 b
  let (occ, b) ← pU 2 b
  let (mode, b) ← pU 1 b
  let (tag, b) ← pU 1 b
  some (.closeLoop loop occ mode tag, b)

def pWriteConstituent : Parse Instr := fun b => do
  let (number, b) ← pU 1 b
  let (enabled, b) ← pU 1 b
  let (speed, b) ← pU 3 b
  let (phase, b) ← pU 2 b
  some (.writeConstituent number enabled speed phase, b)

def pWriteSite : Parse Instr := fun b => do
  let (site, b) ← pU 1 b
  let (pairs, b) ← pMany pPair 12 b
  some (.writeSite site pairs, b)

def pSubmitJob : Parse Instr := fun b => do
  let (kind, b) ← pU 1 b
  let (target, b) ← pU 2 b
  let (tag, b) ← pU 1 b
  some (.submitJob kind target tag, b)

/-- The action byte of RESTART ENGINE: 0 RETRY, 1 DISCARD (R150, R181). -/
def restartOf (action : Nat) : Instr :=
  if action = 1 then .restartEngineDiscard else .restartEngineRetry action

/-- The reader of the payload that goes with a command code (the table under Command codes). -/
def parserOf : Nat → Option (Parse Instr)
  | 0x10 => some pOpenStation
  | 0x11 => some pEditStation
  | 0x12 => some (pOne 2 .findStation)
  | 0x13 => some (pOne 2 .readStation)
  | 0x14 => some (pTwo 1 1 .readSlot)
  | 0x15 => some (pOne 2 .retireStation)
  | 0x16 => some (pTwo 1 1 .retireSlot)
  | 0x20 => some pBeginReading
  | 0x21 => some (pNone .endReading)
  | 0x22 => some (pNone .abortReading)
  | 0x23 => some (pNone .readWindow)
  | 0x24 => some (pOne 2 .readOccupation)
  | 0x25 => some (pOne 2 .discardOccupation)
  | 0x30 => some (pTwo 1 2 .openLoop)
  | 0x31 => some pCloseLoop
  | 0x32 => some (pOne 1 .voidLoop)
  | 0x33 => some (pOne 1 .releaseLoop)
  | 0x34 => some (pOne 1 .readLoop)
  | 0x40 => some pWriteConstituent
  | 0x41 => some pWriteSite
  | 0x42 => some (pOne 1 .clearSite)
  | 0x43 => some (pOne 1 .readSite)
  | 0x50 => some pWriteConstants
  | 0x51 => some (pNone .readConstants)
  | 0x52 => some (pTwo 4 2 .setClock)
  | 0x53 => some fun b => (pS 2 b).map fun r => (.trimClock r.1, r.2)
  | 0x54 => some (pNone .readClock)
  | 0x60 => some pSubmitJob
  | 0x61 => some (pNone .readQueue)
  | 0x62 => some (pOne 1 restartOf)
  | 0x63 => some (pNone .readFault)
  | 0x70 => some fun b => (pOpt (pU 2) b).map fun r => (.nextChanged r.1, r.2)
  | 0x71 => some (pOne 2 .exportStation)
  | 0x72 => some (pOne 1 .readExportPart)
  | 0x80 => some (pNone .readEvents)
  | 0x81 => some (pOne 2 fun m => .clearEvents (BitVec.ofNat 16 m))
  | 0x82 => some (pOne 2 fun m => .setEvents (BitVec.ofNat 16 m))
  | 0x83 => some (pOne 2 fun m => .enableEvents (BitVec.ofNat 16 m))
  | 0x90 => some (pNone .beginRestore)
  | 0x91 => some pLoadStation
  | 0x92 => some pLoadOccupation
  | 0x93 => some pLoadLoop
  | 0x94 => some (pNone .endRestore)
  | 0x95 => some (pNone .abortRestore)
  | 0x96 => some (pNone .readScanReport)
  | 0xA0 => some (pNone .standby)
  | 0xA1 => some (pNone .reset)
  | 0xA2 => some (pNone .identify)
  | _ => none

/-- What the link finds in a frame (R182). -/
inductive Frame where
  | unknown
  | badLength
  | command (i : Instr)
deriving DecidableEq, Repr

/-- The checks of R182 on the whole bytes of a period that carries a command frame: the code, the
declared length, and the length for the command. -/
def parseFrame (code : Byte) (rest : List Byte) : Frame :=
  match parserOf code.toNat with
  | none => .unknown
  | some p =>
    match rest with
    | [] => .badLength
    | len :: bytes =>
      if len.toNat ≤ Config.payloadLimit ∧ len.toNat ≤ bytes.length then
        match p (bytes.take len.toNat) with
        | some (i, []) => .command i
        | _ => .badLength
      else .badLength

/-! ### Writing a frame -/

def RefAction.bytes : RefAction → List Byte
  | .set v => u8 0 ++ u32 v
  | .clear => u8 1
  | .unnamed c => u8 c

def tagBytes (t : BitVec 32) : List Byte := u32 t.toNat

def ConstNums.bytes (c : ConstNums) : List Byte :=
  s32 c.gravity ++ s32 c.scale ++ s32 c.rangeOffset ++ s32 c.zeroX ++ s32 c.zeroY ++ s32 c.scaleX ++
  s32 c.scaleY ++ s32 c.tiltGate ++ s32 c.zeroT ++ s32 c.scaleT ++ s32 c.tempGate ++ s32 c.c1 ++ s32 c.c2 ++
  s32 c.lagFactor ++ s32 c.tiltLimit ++ s32 c.driftLimit ++ s32 c.loopHours ++ s32 c.gradeA ++ s32 c.gradeB ++
  s32 c.breakLimit

def Results.bytes (r : Results) : List Byte :=
  s32 r.raw ++ optBytes u32 r.noise ++ u16 r.ctilt.toNat ++ s24 r.ctemp ++ s16 r.ctide ++ s32 r.v ++
  u16 r.revision ++ u8 r.site ++ u16 r.siteRevision

def DriftPart.bytes (d : DriftPart) : List Byte :=
  s32 d.correction ++ s32 d.final ++ s32 d.vOpen ++ optBytes u32 d.rOpen ++ s32 d.rate

/-- The sums, the counts and the last values of R201, in the order in which `pLoadSums` reads them. -/
def LoadSums.bytes (s : LoadSums) : List Byte :=
  exactBytes s.sumX ++ exactBytes s.sumX2 ++ exactBytes s.n ++ exactBytes s.sumT ++ exactBytes s.tiltX2 ++
  exactBytes s.mx ++ exactBytes s.tiltY2 ++ exactBytes s.my ++ exactBytes s.sumTemp ++ exactBytes s.sumLag ++
  exactBytes s.k ++ u16 s.overload ++ u16 s.clamped ++ u16 s.breaks ++ optBytes s16 s.lastX ++
  optBytes s16 s.lastY ++ optBytes s24 s.lastT ++ optBytes s24 s.lastL

/-- The command code and the payload of a host command; a pin's or a block's own event has none. A
LOAD OCCUPATION with an odd flag byte is written with that byte 2 in the first flag (log 10). -/
def Instr.frame : Instr → Option (Nat × List Byte)
  | .openStation r => some (0x10, u16 r.number ++ u8 r.role ++ u8 r.site ++ optBytes u32 r.reference ++
      u8 r.pinned ++ tagBytes r.tag)
  | .editStation r => some (0x11, u16 r.number ++ optBytes u8 r.role ++ optBytes u8 r.site ++
      optBytes RefAction.bytes r.reference ++ optBytes u8 r.pinned ++ optBytes tagBytes r.tag)
  | .findStation n => some (0x12, u16 n)
  | .readStation n => some (0x13, u16 n)
  | .readSlot st w => some (0x14, u8 st ++ u8 w)
  | .retireStation n => some (0x15, u16 n)
  | .retireSlot st w => some (0x16, u8 st ++ u8 w)
  | .beginReading r => some (0x20, u16 r.number ++ optBytes u8 r.loop ++ u16 r.duration ++ u16 r.settle ++
      u8 r.abortOnTilt)
  | .endReading => some (0x21, [])
  | .abortReading => some (0x22, [])
  | .readWindow => some (0x23, [])
  | .readOccupation i => some (0x24, u16 i)
  | .discardOccupation i => some (0x25, u16 i)
  | .openLoop l o => some (0x30, u8 l ++ u16 o)
  | .closeLoop l o m t => some (0x31, u8 l ++ u16 o ++ u8 m ++ u8 t)
  | .voidLoop l => some (0x32, u8 l)
  | .releaseLoop l => some (0x33, u8 l)
  | .readLoop l => some (0x34, u8 l)
  | .writeConstituent k e sp ph => some (0x40, u8 k ++ u8 e ++ u24 sp ++ u16 ph)
  | .writeSite st ps => some (0x41, u8 st ++ ps.flatMap fun p => u16 p.1 ++ u16 p.2)
  | .clearSite st => some (0x42, u8 st)
  | .readSite st => some (0x43, u8 st)
  | .writeConstants r => some (0x50, r.nums.bytes ++ u8 r.mode ++ u8 r.enableX ++ u8 r.enableY ++ u8 r.enableT)
  | .readConstants => some (0x51, [])
  | .setClock sec t => some (0x52, u32 sec ++ u16 t)
  | .trimClock t => some (0x53, s16 t)
  | .readClock => some (0x54, [])
  | .submitJob k t g => some (0x60, u8 k ++ u16 t ++ u8 g)
  | .readQueue => some (0x61, [])
  | .restartEngineRetry a => some (0x62, u8 a)
  | .restartEngineDiscard => some (0x62, u8 1)
  | .readFault => some (0x63, [])
  | .nextChanged k => some (0x70, optBytes u16 k)
  | .exportStation n => some (0x71, u16 n)
  | .readExportPart k => some (0x72, u8 k)
  | .readEvents => some (0x80, [])
  | .clearEvents m => some (0x81, u16 m.toNat)
  | .setEvents m => some (0x82, u16 m.toNat)
  | .enableEvents m => some (0x83, u16 m.toNat)
  | .beginRestore => some (0x90, [])
  | .loadStation r => some (0x91, u16 r.number ++ u8 r.role ++ u8 r.site ++ optBytes u32 r.reference ++
      u8 r.pinned ++ tagBytes r.tag ++ u8 r.changed ++ listBytes u16 r.list)
  | .loadOccupation i r => some (0x92, u16 i ++ u8 r.state ++ u16 r.number ++ u16 r.settle ++ u16 r.duration ++
      u8 r.abortOnTilt ++ optBytes u8 r.memberOf ++ optBytes u8 r.opens ++ optBytes u48 r.startTick ++
      optBytes u48 r.epoch ++ optBytes u16 r.openRevision ++ r.sums.bytes ++
      (if r.oddFlag then u8 2 ++ (r.flags.toList.drop 1).flatMap flagByte else r.flags.toList.flatMap flagByte) ++
      optBytes Results.bytes r.results ++ optBytes DriftPart.bytes r.drift)
  | .loadLoop r => some (0x93, u8 r.loop ++ u8 r.state ++ u16 r.openEnd ++ u48 r.openEpoch ++ u48 r.deadline ++
      listBytes u16 r.members ++ optBytes u16 r.closing ++ optBytes u8 r.mode ++ optBytes s32 r.deltaV ++
      optBytes s32 r.rate ++ u8 r.driftHigh ++ u8 r.interrupted)
  | .endRestore => some (0x94, [])
  | .abortRestore => some (0x95, [])
  | .readScanReport => some (0x96, [])
  | .standby => some (0xA0, [])
  | .reset => some (0xA1, [])
  | .identify => some (0xA2, [])
  | .powerOn | .resetLineAsserted | .resetLineReleased | .wake | .chipSelectOpen | .chipSelectClose _
  | .clampAsserted | .clampReleased | .basePeriodEnd | .slewCountComplete | .settleCountZero
  | .elapsedCountComplete | .gateStart _ | .tiltGateComplete _ _ | .temperatureGateComplete _ | .abandon _
  | .gsiFrame _ | .shortFrame | .silenceCountComplete | .loopExpired _ | .reduceStep | .closeLoopCheck
  | .inlineReduction | .deltaVStep | .memberStep | .closeCompletion | .recomputeDeltaVStep
  | .recomputeMemberStep | .retideWayStep | .retideOccupationStep | .recalcStep | .jobCompletion
  | .scanDuplicates _ | .scanDamage _ | .scanReferences _ | .scanWindows _ | .scanOrder _
  | .scanUnanchoredLoops _ | .scanInterruptedCloses _ | .scanStrayDrift _ | .scanDone | .gsiFrmAsserted => none

/-- The whole bytes of a command frame: code, length, payload (R181). -/
def Instr.frameBytes (i : Instr) : List Byte :=
  match i.frame with
  | some (code, payload) => u8 code ++ u8 payload.length ++ payload
  | none => []

/-- The command that a table word spells. The table gives no row any bits, so no word spells one. -/
def decodeTableWord (_nbits _w : Nat) : Option Instr := none

end Sys2Proof
end

