-- ==== Sys2Proof/Machine/State.lean ====
section
/-! DEFINITION. The state of the JG-312 as plain data, and the state right after power-on. -/

namespace Sys2Proof.Machine

/-- A table whose FREE places are absent: pairs of a key and a record, keys rising (log 35). -/
abbrev Slots (α : Type) := List (Nat × α)

/-! ### Station table (spec/01) -/

/-- R1. -/
inductive Role where
  | base | field
deriving DecidableEq, Repr

/-- The state of a non-free entry (R1). A FREE way is an absent key of the table. -/
inductive EntryState where
  | active | suspect
deriving DecidableEq, Repr

/-- A station entry (R1). `sound`: the stored words agree with the check value (R204). -/
structure Station where
  number : Nat
  state : EntryState
  damaged : Bool
  sound : Bool
  role : Role
  pinned : Bool
  site : Nat
  reference : Option Nat
  tag : BitVec 32
  list : List Nat
  changed : Bool
deriving DecidableEq, Repr

/-! ### Occupation pool (spec/02) -/

/-- The state of a non-free record (R29, R30). -/
inductive OccState where
  | settling | collecting | pending | reduced | final
deriving DecidableEq, Repr

/-- The running sums, counts and last values of a window, frozen into the record at its close
(R29, R36). -/
structure Sums where
  sumX : Int := 0
  sumX2 : Nat := 0
  n : Nat := 0
  sumT : Nat := 0
  overload : Nat := 0
  clamped : Nat := 0
  breaks : Nat := 0
  tiltX2 : Nat := 0
  mx : Nat := 0
  tiltY2 : Nat := 0
  my : Nat := 0
  lastX : Option Int := none
  lastY : Option Int := none
  sumTemp : Int := 0
  sumLag : Int := 0
  k : Nat := 0
  lastT : Option Int := none
  lastL : Option Int := none
deriving DecidableEq, Repr

/-- The timing and sum groups of a record, present from window close on (R29). -/
structure Reading where
  startTick : Nat
  epoch : Nat
  openRevision : Nat
  sums : Sums
deriving DecidableEq, Repr

/-- An occupation record (R29). -/
structure Occ where
  state : OccState
  damaged : Bool
  sound : Bool
  station : Nat
  settle : Nat
  duration : Nat
  abortOnTilt : Bool
  memberOf : Option Nat
  opens : Option Nat
  reading : Option Reading
  results : Option Results
  drift : Option DriftPart
  flags : Flags
deriving DecidableEq, Repr

/-! ### Reading window (spec/02) -/

/-- The phase of an open window with the counts it holds (R36). -/
inductive Phase where
  | settling (count : Nat)
  | collecting (startTick elapsed revision : Nat)
deriving DecidableEq, Repr

/-- The open window (R36), with its copies of what BEGIN READING asked for (log 28). -/
structure Window where
  occ : Nat
  station : Nat
  memberOf : Option Nat
  settle : Nat
  duration : Nat
  abortOnTilt : Bool
  phase : Phase
  sums : Sums
  clamped : Bool
  overload : Bool
  tiltLimit : Bool
  tiltRange : Bool
  constantsChanged : Bool
  tiltRaised : Bool
  breakRaised : Bool
deriving DecidableEq, Repr

/-- How a window ended (R52). -/
inductive WindowOutcome where
  | closed | aborted
deriving DecidableEq, Repr

/-- Why a window ended (R52). -/
inductive WindowCause where
  | duration | endReading | silence | tilt | abortReading | discard
deriving DecidableEq, Repr

/-- The last-window record (R52). -/
structure LastWindow where
  occ : Nat
  station : Nat
  outcome : WindowOutcome
  cause : WindowCause
  n : Nat
  epoch : Nat
deriving DecidableEq, Repr

/-! ### Sensor front end (spec/03) -/

/-- R55. -/
inductive ChanState where
  | off | seeking | counting | fault
deriving DecidableEq, Repr

/-- A gate in progress: its length and the sensor edges seen since it began (R55). -/
structure Gate where
  length : Nat
  edges : Nat
deriving DecidableEq, Repr

/-- A period channel (R55). -/
structure Chan where
  state : ChanState
  gate : Option Gate
  periods : Nat
  abandons : Nat
deriving DecidableEq, Repr

/-- What the gravity sample input holds while LIVE (R67, R69). -/
structure GsiLive where
  silence : Nat
  expected : Nat
deriving DecidableEq, Repr

/-- The sensor front end: the channels, the four held values (R63) and the gravity sample input.
`live` absent is SILENT. -/
structure FrontEnd where
  x : Chan
  y : Chan
  t : Chan
  heldX : Option Int
  heldY : Option Int
  heldT : Option Int
  lag : Option Int
  live : Option GsiLive
  receiving : Bool
deriving DecidableEq, Repr

/-! ### Tide tables (spec/05) -/

/-- A constituent entry (R90). -/
structure Constituent where
  enabled : Bool
  speed : Nat
  phase : Nat
  damaged : Bool
  sound : Bool
deriving DecidableEq, Repr

/-- A tide site (R91): `set` is SET, otherwise EMPTY; `pairs` are amplitude and site phase in
constituent order. -/
structure Site where
  set : Bool
  revision : Nat
  pairs : List (Nat × Nat)
  damaged : Bool
  sound : Bool
deriving DecidableEq, Repr

/-! ### Loop table (spec/06) -/

/-- The state of a loop that is not FREE (R108). -/
inductive LoopState where
  | opened | expired | closing | closed
deriving DecidableEq, Repr

/-- R108. -/
inductive CloseMode where
  | drift | noDrift
deriving DecidableEq, Repr

/-- A loop record (R108). -/
structure Loop where
  state : LoopState
  damaged : Bool
  sound : Bool
  openEnd : Nat
  openEpoch : Nat
  deadline : Nat
  members : List Nat
  closing : Option Nat
  mode : Option CloseMode
  deltaV : Option Int
  rate : Option Int
  driftHigh : Bool
  interrupted : Bool
deriving DecidableEq, Repr

/-! ### Reduction engine (spec/07) -/

/-- The kind of a job with its target (R134). -/
inductive JobKind where
  | reduce (index : Nat)
  | close (loop : Nat)
  | retide (site : Nat)
  | recalc
deriving DecidableEq, Repr

/-- R134. -/
inductive Origin where
  | automatic | host
deriving DecidableEq, Repr

/-- R134. -/
structure Job where
  kind : JobKind
  origin : Origin
  tag : Nat
deriving DecidableEq, Repr

/-- R140. -/
inductive JobResult where
  | done | gone | unusable | nothing
deriving DecidableEq, Repr

/-- Where the job in flight stands: the step it takes next, recomputations apart (R138). A member step names the
members walked so far, so that the next one is the first of the list as it then stands that is not among them. -/
inductive Place where
  | reducing
  | reduced
  | loopCheck
  | inlineOpen
  | inlineClosing
  | deltaV
  | member (walked : List Nat)
  | completion
  | way (id : Nat)
  | occupation (id number : Nat) (visited : List Nat)
  | index (i : Nat)
deriving DecidableEq, Repr

/-- The figures a ΔV step fixes for the member steps (R119, R120). -/
structure DriftCalc where
  deltaV : Int
  rate : Int
  high : Bool
  tOpen : Nat
  tClose : Nat
  vOpen : Int
  rOpen : Option Nat
  mode : CloseMode
deriving DecidableEq, Repr

/-- The job in flight with its progress and written marks (R135). `recomp` lists the loops still to
be recomputed, the one in progress first; `walk` lists its members walked so far, absent before its ΔV step.
`ending` is the result the job ends with, once its last step is taken. -/
structure Flight where
  job : Job
  place : Place
  recomp : List Nat
  walk : Option (List Nat)
  drift : Option DriftCalc
  unusable : Bool
  ending : Option JobResult
  written : List Nat
deriving DecidableEq, Repr

/-- R135. -/
inductive EngineState where
  | idle | working | halted
deriving DecidableEq, Repr

/-- The last-job result (R140). -/
structure LastJob where
  job : Job
  result : JobResult
  count : Nat
  epoch : Nat
deriving DecidableEq, Repr

/-- The fault context (R148): the faulted job's progress at the failing step, and the failing record. -/
structure FaultContext where
  flight : Flight
  failed : RecordId
deriving DecidableEq, Repr

/-- R135. `flight` is the job in flight, in HALTED the faulted job. -/
structure Engine where
  state : EngineState
  flight : Option Flight
  queue : List Job
  last : Option LastJob
  fault : Option FaultContext
deriving DecidableEq, Repr

/-! ### Reporting (spec/08) -/

/-- R159. -/
inductive Grade where
  | none | a | b | c | reject
deriving DecidableEq, Repr

/-- The station part of a snapshot (R156). -/
structure StationPart where
  number : Nat
  way : Nat
  role : Role
  pinned : Bool
  site : Nat
  reference : Option Nat
  tag : BitVec 32
  indices : List Nat
  changed : Bool
  epoch : Nat
deriving DecidableEq, Repr

/-- An occupation part of a snapshot (R156, R162): the reduced form of a damaged record, and a copy of
any other with the items derived for it. -/
inductive OccPart where
  | damaged (index : Nat)
  | copy (index : Nat) (record : Occ) (network : Option Nat) (grade : Grade) (tideStale constantsStale : Bool)
deriving DecidableEq, Repr

/-- The export snapshot (R156). -/
structure Snapshot where
  station : StationPart
  parts : List OccPart
deriving DecidableEq, Repr

/-! ### Instrument constants and survey clock (spec/09) -/

/-- R158. -/
inductive RoundMode where
  | nearest | up | down | zero
deriving DecidableEq, Repr

/-- The instrument constants with their revision and marks (R169, R170, R173). -/
structure Constants where
  nums : ConstNums
  mode : RoundMode
  enableX : Bool
  enableY : Bool
  enableT : Bool
  revision : Nat
  damaged : Bool
  sound : Bool
deriving DecidableEq, Repr

/-- The survey clock (R176). `left`: the ticks that the end of a slewing base period has yet to deliver, once its
slew has been taken (R178, log 6). -/
structure Clock where
  seconds : Nat
  ticks : Nat
  isSet : Bool
  held : Bool
  trim : Int
  slew : Nat
  left : Option Nat
deriving DecidableEq, Repr

/-! ### Host link and events (spec/10) -/

/-- The status codes (R183). -/
inductive Status where
  | ok | okClamped | unknownCommand | badLength | badValue | notInService | busy
  | badKey | noStation | stationExists | setFull | duplicateKey | damaged | inUse
  | poolFull | occLimit | noOccupation | windowBusy | windowState | clockUnset
  | loopState | loopBusy | loopFull | loopExpired | notBase | noReference
  | queueFull | engineHalted | engineState
deriving DecidableEq, Repr

/-- A response: its status and its payload (R183). -/
structure Response where
  status : Status
  payload : List Byte
deriving DecidableEq, Repr

/-- A chip-select period in progress: whether the link ignores it, and the bytes it returns on MISO
before 0xFF (R181, R184). -/
structure Period where
  ignored : Bool
  miso : List Byte
deriving DecidableEq, Repr

/-- The host link (R183 to R185). `fetching`: the open period returns the held response. -/
structure Link where
  period : Option Period
  held : Option Response
  fetching : Bool
  executing : Option Instr
  waiting : Option Instr
  discard : Bool
deriving DecidableEq, Repr

/-- The event block (R188). The attention line is a function of it (R190). -/
structure Events where
  pending : BitVec 16
  enabled : BitVec 16
deriving DecidableEq, Repr

/-! ### Service control (spec/11) -/

/-- R192. -/
inductive PartState where
  | starting | ready | restore | standby
deriving DecidableEq, Repr

/-- The origin of a scan (R198). -/
inductive ScanOrigin where
  | reset | endRestore
deriving DecidableEq, Repr

/-- The counts of the scan report (R198). -/
structure ScanCounts where
  suspectWays : Nat := 0
  damagedStations : Nat := 0
  damagedOccupations : Nat := 0
  damagedLoops : Nat := 0
  references : Nat := 0
  unlisted : Nat := 0
  windows : Nat := 0
  reordered : Nat := 0
  voided : Nat := 0
  undone : Nat := 0
  drifts : Nat := 0
  stations : Nat := 0
deriving DecidableEq, Repr

/-- The scan report (R198) with the progress of its scan. `pass` is 1 to 8, and 9 when the eighth has
ended; `ended` is the epoch of the end, absent while the scan is in progress; `cursor` is the next
step of the pass (log 8); `marked` holds the ways this scan has marked changed, and `found` those it has counted as
damaged. -/
structure Scan where
  origin : ScanOrigin
  pass : Nat
  ended : Option Nat
  counts : ScanCounts
  cursor : Nat
  marked : List Nat
  found : List Nat
deriving DecidableEq, Repr

/-! ### The machine -/

/-- The whole state. `idles`, `late` and `pending` are the model's own: the idle steps taken, the way whose entry is
upset at its next read-out (log 2), and the commands that wait. -/
structure State where
  part : PartState
  resetHeld : Bool
  clamp : Bool
  stations : Slots Station
  recency : Slots (List Nat)
  occs : Slots Occ
  loops : Slots Loop
  constituents : Vector Constituent 12
  sites : Vector Site 8
  constants : Constants
  window : Option Window
  lastWindow : Option LastWindow
  front : FrontEnd
  engine : Engine
  clock : Clock
  expiryDue : List Nat
  snapshot : Option Snapshot
  link : Link
  events : Events
  scan : Option Scan
  idles : Nat
  late : Option Nat
  pending : List Instr
deriving DecidableEq, Repr

/-- No command stops the machine: the spec gives every command a status, an event or no effect, so
there is no fault to name. -/
inductive Fault where
deriving DecidableEq, Repr

/-- `notModelled`: a command whose meaning is not written, by its mnemonic; safe, since nothing can be
proved of its effect. No meaning raises it. -/
inductive Refusal where
  | notModelled (mnemonic : String)
deriving DecidableEq, Repr

/-- The constants at power-on (R169, R175). -/
def defaultNums : ConstNums :=
  { gravity := 980000, scale := 65536, rangeOffset := 0, zeroX := 8388608, zeroY := 8388608, scaleX := 0,
    scaleY := 0, tiltGate := 1024, zeroT := 8388608, scaleT := 0, tempGate := 1024, c1 := 0, c2 := 0,
    lagFactor := 16, tiltLimit := 200, driftLimit := 1000, loopHours := 12, gradeA := 30, gradeB := 100,
    breakLimit := 2 }

def defaultConstants : Constants :=
  { nums := defaultNums, mode := .nearest, enableX := true, enableY := true, enableT := true, revision := 0,
    damaged := false, sound := true }

/-- A channel that has just been enabled: SEEKING, its counts cleared (R56, R70). -/
def seekingChan : Chan := { state := .seeking, gate := none, periods := 0, abandons := 0 }

/-- A channel that is OFF (R55, R56). Its period count does not run, and stands at 0 (DESIGN CHOICE, log 56). -/
def offChan : Chan := { state := .off, gate := none, periods := 0, abandons := 0 }

/-- A constituent at power-on (R107). -/
def clearConstituent : Constituent := { enabled := false, speed := 1, phase := 0, damaged := false, sound := true }

/-- Twelve pairs of zeros (R91). -/
def zeroPairs : List (Nat × Nat) := List.replicate 12 (0, 0)

/-- A site at power-on (R107). -/
def clearSite : Site := { set := false, revision := 0, pairs := zeroPairs, damaged := false, sound := true }

/-- The engine with nothing to do (R154). -/
def idleEngine : Engine := { state := .idle, flight := none, queue := [], last := none, fault := none }

/-- The link with nothing in it (R191). -/
def clearLink : Link :=
  { period := none, held := none, fetching := false, executing := none, waiting := none, discard := false }

/-- The front end as it starts, given the channel enables (R70, R71). -/
def startedFrontEnd (x y t : Bool) : FrontEnd :=
  { x := if x then seekingChan else offChan, y := if y then seekingChan else offChan,
    t := if t then seekingChan else offChan, heldX := none, heldY := none, heldT := none, lag := none,
    live := none, receiving := false }

/-- The machine right after power-on (R193): every table FREE, the clock UNSET at zero, part state READY.
The levels of CLAMP, RESET_N and CS_N are not the part's; they are taken released (log 9). -/
def State.reset : State :=
  { part := .ready
    resetHeld := false
    clamp := false
    stations := []
    recency := []
    occs := []
    loops := []
    constituents := Vector.replicate 12 clearConstituent
    sites := Vector.replicate 8 clearSite
    constants := defaultConstants
    window := none
    lastWindow := none
    front := startedFrontEnd true true true
    engine := idleEngine
    clock := { seconds := 0, ticks := 0, isSet := false, held := false, trim := 0, slew := 0, left := none }
    expiryDue := []
    snapshot := none
    link := clearLink
    events := { pending := 0, enabled := 0 }
    scan := none
    idles := 0
    late := none
    pending := [] }

end Sys2Proof.Machine
end

