-- ==== Sys2Proof/Machine/Flags.lean ====
section
/-! DEFINITION. Events and flags: the event bits (R188), the raising of an event, the attention line
(R190), and the flags that closes and reductions write into a record (R47, R84). -/

namespace Sys2Proof.Machine

/-- The fourteen events (R188). -/
inductive Event where
  | windowClosed | windowAborted | tiltLimit | sampleBreak | sensorFault | jobDone | queueDrained
  | engineIdle | queueOverflow | engineHalted | loopExpired | driftHigh | scanDone | memoryError
deriving DecidableEq, Repr

/-- The bit of an event in the masks (R188). -/
def Event.bit : Event → Nat
  | .windowClosed => 0
  | .windowAborted => 1
  | .tiltLimit => 2
  | .sampleBreak => 3
  | .sensorFault => 4
  | .jobDone => 5
  | .queueDrained => 6
  | .engineIdle => 7
  | .queueOverflow => 8
  | .engineHalted => 9
  | .loopExpired => 10
  | .driftHigh => 11
  | .scanDone => 12
  | .memoryError => 13

/-- The mask of an event alone. -/
def Event.mask (e : Event) : BitVec 16 := BitVec.ofNat 16 (2 ^ e.bit)

/-- R188: the bits that name an event; 14 and 15 name none. -/
def eventBits : BitVec 16 := 0x3FFF

/-- R189: a mask that names an unnamed bit. -/
def badMask (m : BitVec 16) : Bool := m &&& 0xC000 ≠ 0

/-- R188, R194: raising sets the pending flag, unless RESET_N holds the block clear. -/
def Events.raise (ev : Events) (held : Bool) (e : Event) : Events :=
  if held then ev else { ev with pending := ev.pending ||| e.mask }

def State.raise (s : State) (e : Event) : State := { s with events := s.events.raise s.resetHeld e }

/-- R190: the attention line is asserted exactly when some event is both pending and enabled. -/
def Events.attention (ev : Events) : Bool := ev.pending &&& ev.enabled ≠ 0

def State.attention (s : State) : Bool := s.events.attention

/-- An event stands pending. -/
def Events.isPending (ev : Events) (e : Event) : Bool := ev.pending &&& e.mask ≠ 0

/-- R47, R46: the flags a record carries from the close of its window. -/
def closeFlags (w : Window) (silence : Bool) : Flags :=
  { short := w.sums.n < 10, breaks := w.sums.breaks > 0, sensorLost := silence, clamped := w.clamped,
    overload := w.overload, tiltLimit := w.tiltLimit, tiltRange := w.tiltRange,
    constantsChanged := w.constantsChanged }

/-- R84: the reduction flags and UNQUEUED cleared, at the start of every reduction. -/
def clearReductionFlags (f : Flags) : Flags :=
  { f with tiltHeld := false, tiltMissing := false, tempHeld := false, tempMissing := false, noTide := false,
           saturated := false, unqueued := false }

/-- R126: the flags of the drift part removed with it. -/
def clearDriftFlags (f : Flags) : Flags := { f with driftHigh := false, noDrift := false }

end Sys2Proof.Machine
end

