-- ==== Sys2Proof/Machine/Arith.lean ====
section
/-! DEFINITION. The arithmetic words of the manual: rounded, floor root, saturated, clamped
(00_scope, Arithmetic words; R73, R74). -/

namespace Sys2Proof.Machine

/-- R73: `a / b` rounded to nearest, a half going away from zero. -/
def roundDiv (a : Int) (b : Nat) : Int :=
  if 0 ≤ a then (((2 * a.toNat + b) / (2 * b) : Nat) : Int)
  else -(((2 * (-a).toNat + b) / (2 * b) : Nat) : Int)

/-- The bits `b - 1` to 0 of the floor root of `n`, below the bits already in `r`. -/
def isqrtFrom : Nat → Nat → Nat → Nat
  | 0, r, _ => r
  | b + 1, r, n => isqrtFrom b (if (r + 2 ^ b) * (r + 2 ^ b) ≤ n then r + 2 ^ b else r) n

/-- R73, R78: the largest integer whose square does not exceed `n`. -/
def isqrt (n : Nat) : Nat := isqrtFrom (n.log2 / 2 + 1) 0 n

/-- A value replaced by the nearer bound of its range. -/
def clampTo (lo hi z : Int) : Int := max lo (min hi z)

/-- R74: the exact sum held within ±2,147,483,647. -/
def saturate (z : Int) : Int := clampTo (-(Config.gravityBound : Int)) Config.gravityBound z

/-- R74: the exact sum leaves the stored range. -/
def saturates (z : Int) : Bool := saturate z ≠ z

/-- A count that holds at 65,535 (R29, R198). -/
def addHeld (n k : Nat) : Nat := min (n + k) 65535

/-- A revision advanced by one, modulo 65,536 (R96, R173). -/
def nextRevision (r : Nat) : Nat := (r + 1) % 65536

end Sys2Proof.Machine
end

