-- ==== Sys2Proof/Machine/Operands.lean ====
section
/-! DEFINITION. Operand forms: the codes and ranges of the fields that commands carry (R181 and the
rule of each command), and the clamping of a constants set (R171). -/

namespace Sys2Proof.Machine

/-- R6: a station number that a command may carry. -/
def validNumber (n : Nat) : Bool := 1 ≤ n && n ≤ 65534

/-- R1: a reference value within its range. -/
def validReference (v : Nat) : Bool := 970000000 ≤ v && v ≤ 990000000

def inRange (lo hi z : Int) : Bool := lo ≤ z && z ≤ hi

def optAll {α : Type} (f : α → Bool) : Option α → Bool
  | none => true
  | some v => f v

/-- Role codes, numbered in the order of R1. -/
def roleOf : Nat → Option Role
  | 0 => some .base
  | 1 => some .field
  | _ => none

def roleCode : Role → Nat
  | .base => 0
  | .field => 1

/-- Yes or no, on or off, set or clear: 1 and 0 (R181). -/
def yesNo : Nat → Option Bool
  | 0 => some false
  | 1 => some true
  | _ => none

/-- Close modes, numbered in the order of R108. -/
def modeOf : Nat → Option CloseMode
  | 0 => some .drift
  | 1 => some .noDrift
  | _ => none

def modeCode : CloseMode → Nat
  | .drift => 0
  | .noDrift => 1

/-- Network rounding modes, numbered in the order of R158 and R169. -/
def roundModeOf : Nat → Option RoundMode
  | 0 => some .nearest
  | 1 => some .up
  | 2 => some .down
  | 3 => some .zero
  | _ => none

def roundModeCode : RoundMode → Nat
  | .nearest => 0
  | .up => 1
  | .down => 2
  | .zero => 3

/-- Job kinds that SUBMIT JOB takes, with their targets' ranges (R136). -/
def submittedKind (kind target : Nat) : Option JobKind :=
  match kind with
  | 0 => if target < Config.poolSize then some (.reduce target) else none
  | 2 => if target < Config.sites then some (.retide target) else none
  | 3 => if target = 0 then some .recalc else none
  | _ => none

/-- Occupation states that LOAD OCCUPATION takes (R201), numbered in the order of R29. -/
def loadedOccState : Nat → Option OccState
  | 3 => some .pending
  | 4 => some .reduced
  | 5 => some .final
  | _ => none

/-- Loop states that LOAD LOOP takes (R202), numbered in the order of R108. -/
def loadedLoopState : Nat → Option LoopState
  | 1 => some .opened
  | 2 => some .expired
  | 3 => some .closing
  | 4 => some .closed
  | _ => none

/-- A tilt value within ±2,000 µrad, a temperature within ±50,000 mK (00_scope, R29). -/
def validTilt (z : Int) : Bool := inRange (-2000) 2000 z
def validTemp (z : Int) : Bool := inRange (-50000) 50000 z
/-- A stored gravity value (R74). -/
def validGravity (z : Int) : Bool := inRange (-2147483647) 2147483647 z
/-- An epoch: 48 bits. -/
def validEpoch (n : Nat) : Bool := n < 281474976710656

/-- No entry twice. -/
def distinct : List Nat → Bool
  | [] => true
  | a :: l => !l.contains a && distinct l

/-! ### The constants set (R169, R171) -/

/-- The range of each numeric field, in the order of the table of R169. -/
def constRanges : List (Int × Int) :=
  [(976000, 984000), (1, 1048575), (-2147483647, 2147483647), (0, 16777215), (0, 16777215), (-65535, 65535),
   (-65535, 65535), (16, 4096), (0, 16777215), (-65535, 65535), (16, 4096), (-32767, 32767), (-32767, 32767),
   (1, 256), (10, 2000), (1, 10000), (1, 24), (1, 65535), (1, 65535), (0, 255)]

/-- Step 1 of R171: every field at the nearer bound of its range. -/
def clampNums (c : ConstNums) : ConstNums :=
  { gravity := clampTo 976000 984000 c.gravity
    scale := clampTo 1 1048575 c.scale
    rangeOffset := clampTo (-2147483647) 2147483647 c.rangeOffset
    zeroX := clampTo 0 16777215 c.zeroX
    zeroY := clampTo 0 16777215 c.zeroY
    scaleX := clampTo (-65535) 65535 c.scaleX
    scaleY := clampTo (-65535) 65535 c.scaleY
    tiltGate := clampTo 16 4096 c.tiltGate
    zeroT := clampTo 0 16777215 c.zeroT
    scaleT := clampTo (-65535) 65535 c.scaleT
    tempGate := clampTo 16 4096 c.tempGate
    c1 := clampTo (-32767) 32767 c.c1
    c2 := clampTo (-32767) 32767 c.c2
    lagFactor := clampTo 1 256 c.lagFactor
    tiltLimit := clampTo 10 2000 c.tiltLimit
    driftLimit := clampTo 1 10000 c.driftLimit
    loopHours := clampTo 1 24 c.loopHours
    gradeA := clampTo 1 65535 c.gradeA
    gradeB := clampTo 1 65535 c.gradeB
    breakLimit := clampTo 0 255 c.breakLimit }

/-- Step 2 of R171: NB raised to NA. -/
def raiseGradeB (c : ConstNums) : ConstNums := { c with gradeB := max c.gradeA c.gradeB }

/-- The set that WRITE CONSTANTS installs (R171). -/
def installedNums (c : ConstNums) : ConstNums := raiseGradeB (clampNums c)

/-- The numeric fields in the order of the table of R169. -/
def numsList (c : ConstNums) : List Int :=
  [c.gravity, c.scale, c.rangeOffset, c.zeroX, c.zeroY, c.scaleX, c.scaleY, c.tiltGate, c.zeroT,
   c.scaleT, c.tempGate, c.c1, c.c2, c.lagFactor, c.tiltLimit, c.driftLimit, c.loopHours, c.gradeA,
   c.gradeB, c.breakLimit]

/-- The clamped fields (R171): number in table order and value installed. -/
def clampedFields (c : ConstNums) : List (Nat × Int) :=
  (((numsList c).zip (numsList (installedNums c))).zipIdx.filter fun p => p.1.1 ≠ p.1.2).map fun p => (p.2, p.1.2)

/-- The numbers a set must satisfy after an accepted write (R169). -/
def numsInRange (c : ConstNums) : Bool :=
  ((numsList c).zip constRanges).all (fun p => inRange p.2.1 p.2.2 p.1) && c.gradeA ≤ c.gradeB

end Sys2Proof.Machine
end

