-- ==== Sys2Proof/Machine/Payload.lean ====
section
/-! DEFINITION. Responses as bytes: the status codes (R183), the layouts of the export parts (R165,
R166), and the other payloads, built as R181 says payloads are built (log 11). -/

namespace Sys2Proof.Machine

/-- R183: the byte of a status. -/
def Status.code : Status → Nat
  | .ok => 0x00
  | .okClamped => 0x01
  | .unknownCommand => 0x10
  | .badLength => 0x11
  | .badValue => 0x12
  | .notInService => 0x13
  | .busy => 0x14
  | .badKey => 0x20
  | .noStation => 0x21
  | .stationExists => 0x22
  | .setFull => 0x23
  | .duplicateKey => 0x24
  | .damaged => 0x25
  | .inUse => 0x26
  | .poolFull => 0x30
  | .occLimit => 0x31
  | .noOccupation => 0x32
  | .windowBusy => 0x33
  | .windowState => 0x34
  | .clockUnset => 0x35
  | .loopState => 0x40
  | .loopBusy => 0x41
  | .loopFull => 0x42
  | .loopExpired => 0x43
  | .notBase => 0x44
  | .noReference => 0x45
  | .queueFull => 0x50
  | .engineHalted => 0x51
  | .engineState => 0x52

/-- R183: the bytes of a response frame. A payload of more than 240 bytes, which READ OCCUPATION of a loaded record with
long sums can have, is sent whole, with the last byte of its length (DESIGN CHOICE, log 55). -/
def Response.bytes (r : Response) : List Byte := u8 r.status.code ++ u8 r.payload.length ++ r.payload

/-! ### Codes of enumerations, numbered from 0 as their tables name them (R181) -/

def EntryState.code : EntryState → Nat
  | .active => 1
  | .suspect => 2

def OccState.code : OccState → Nat
  | .settling => 1
  | .collecting => 2
  | .pending => 3
  | .reduced => 4
  | .final => 5

def LoopState.code : LoopState → Nat
  | .opened => 1
  | .expired => 2
  | .closing => 3
  | .closed => 4

def WindowOutcome.code : WindowOutcome → Nat
  | .closed => 0
  | .aborted => 1

def WindowCause.code : WindowCause → Nat
  | .duration => 0
  | .endReading => 1
  | .silence => 2
  | .tilt => 3
  | .abortReading => 4
  | .discard => 5

def EngineState.code : EngineState → Nat
  | .idle => 0
  | .working => 1
  | .halted => 2

def JobKind.code : JobKind → Nat
  | .reduce _ => 0
  | .close _ => 1
  | .retide _ => 2
  | .recalc => 3

/-- R134: the target of a job as an answer sends it; 0 for a RECALC, which has none (DESIGN CHOICE, log 11). -/
def JobKind.target : JobKind → Nat
  | .reduce i => i
  | .close l => l
  | .retide s => s
  | .recalc => 0

def Origin.code : Origin → Nat
  | .automatic => 0
  | .host => 1

def JobResult.code : JobResult → Nat
  | .done => 0
  | .gone => 1
  | .unusable => 2
  | .nothing => 3

def Grade.code : Grade → Nat
  | .none => 0
  | .a => 1
  | .b => 2
  | .c => 3
  | .reject => 4

def ScanOrigin.code : ScanOrigin → Nat
  | .reset => 0
  | .endRestore => 1

/-- R187: the part state as IDENTIFY gives it; in STANDBY no command is taken. -/
def PartState.code : PartState → Nat
  | .starting => 1
  | .ready => 2
  | .restore => 3
  | .standby => 0

/-! ### Payloads -/

/-- A station entry in the form of READ STATION (R19). -/
def stationBytes (way : Nat) (e : Station) : List Byte :=
  u16 e.number ++ u8 (way / 4) ++ u8 (way % 4) ++ u8 e.state.code ++ u8 (roleCode e.role) ++
  flagByte e.pinned ++ u8 e.site ++ optBytes u32 e.reference ++ tagBytes e.tag ++ flagByte e.changed ++
  listBytes u16 e.list

def flagsBytes (f : Flags) : List Byte := f.toList.flatMap flagByte

/-- The sum groups in the order of R29. -/
def sumsBytes (m : Sums) : List Byte :=
  exactBytes m.sumX ++ exactBytes m.sumX2 ++ exactBytes m.n ++ exactBytes m.sumT ++ u16 m.overload ++
  u16 m.clamped ++ u16 m.breaks ++ exactBytes m.tiltX2 ++ exactBytes m.mx ++ exactBytes m.tiltY2 ++
  exactBytes m.my ++ optBytes s16 m.lastX ++ optBytes s16 m.lastY ++ exactBytes m.sumTemp ++
  exactBytes m.sumLag ++ exactBytes m.k ++ optBytes s24 m.lastT ++ optBytes s24 m.lastL

/-- A record in the form of READ OCCUPATION (R53): every field of R29, and the stale marks of a record
with results. One form serves the window record too, whose absent groups are shown absent; and the gravity, tilt and
temperature sums have one presence byte together, and the stale marks of a record with results have none (DESIGN CHOICE,
log 11). The long sums of a loaded record can take it past the 240
bytes of R183 (DESIGN CHOICE, log 55). -/
def occBytes (i : Nat) (o : Occ) (stale : Bool × Bool) : List Byte :=
  u16 i ++ u8 o.state.code ++ flagByte o.damaged ++ u16 o.station ++ u16 o.settle ++ u16 o.duration ++
  flagByte o.abortOnTilt ++ optBytes u8 o.memberOf ++ optBytes u8 o.opens ++
  optBytes u48 (o.reading.map (·.startTick)) ++ optBytes u48 (o.reading.map (·.epoch)) ++
  optBytes u16 (o.reading.map (·.openRevision)) ++ optBytes sumsBytes (o.reading.map (·.sums)) ++
  optBytes Results.bytes o.results ++ optBytes DriftPart.bytes o.drift ++ flagsBytes o.flags ++
  (if o.results.isSome then flagByte stale.1 ++ flagByte stale.2 else [])

/-- The running sums and counts in the order of R36 (R52). -/
def runningBytes (m : Sums) : List Byte :=
  exactBytes m.sumX ++ exactBytes m.sumX2 ++ exactBytes m.n ++ exactBytes m.sumT ++ u16 m.overload ++
  u16 m.clamped ++ u16 m.breaks ++ exactBytes m.tiltX2 ++ exactBytes m.mx ++ exactBytes m.tiltY2 ++
  exactBytes m.my ++ exactBytes m.sumTemp ++ exactBytes m.sumLag ++ exactBytes m.k

/-- The last tilt and temperature values (R52). -/
def lastBytes (m : Sums) : List Byte :=
  optBytes s16 m.lastX ++ optBytes s16 m.lastY ++ optBytes s24 m.lastT ++ optBytes s24 m.lastL

/-- R52: what READ WINDOW says of an open window. What each phase adds has no presence byte (DESIGN CHOICE, log 11). -/
def windowBytes (w : Window) (clamp : Bool) : List Byte :=
  u16 w.occ ++ u16 w.station ++ optBytes u8 w.memberOf ++
  (match w.phase with
   | .settling _ => u8 0
   | .collecting _ _ _ => u8 1) ++
  flagByte clamp ++
  (match w.phase with
   | .settling c => u24 c
   | .collecting st el rev => u48 st ++ u24 el ++ u16 rev) ++
  runningBytes w.sums ++ lastBytes w.sums ++ flagByte w.clamped ++ flagByte w.overload ++ flagByte w.tiltLimit ++
  flagByte w.tiltRange ++ flagByte w.constantsChanged ++ flagByte w.tiltRaised ++ flagByte w.breakRaised

def lastWindowBytes (w : LastWindow) : List Byte :=
  u16 w.occ ++ u16 w.station ++ u8 w.outcome.code ++ u8 w.cause.code ++ exactBytes w.n ++ u48 w.epoch

/-- R132: a loop record; `station` is the open endpoint's station number. -/
def loopBytes (r : Loop) (recomputing : Bool) (station : Nat) : List Byte :=
  u8 r.state.code ++ flagByte recomputing ++ u16 r.openEnd ++ u16 station ++ u48 r.openEpoch ++ u48 r.deadline ++
  listBytes u16 r.members ++ optBytes u16 r.closing ++ optBytes (fun m => u8 (modeCode m)) r.mode ++
  optBytes s32 r.deltaV ++ optBytes s32 r.rate ++ flagByte r.driftHigh ++ flagByte r.interrupted

/-- R134: a job. Its target takes two bytes whatever the kind, without a presence byte (DESIGN CHOICE, log 11). -/
def jobBytes (j : Job) : List Byte :=
  u8 j.kind.code ++ u16 j.kind.target ++ u8 j.origin.code ++ u8 j.tag

/-- The position in a recomputation: the loop number, and the members walked (R138). -/
def recompBytes (f : Flight) (l : Nat) : List Byte := u8 l ++ u8 (f.walk.getD []).length

/-- R138: the progress of a REDUCE: REDUCING, or RECOMPUTING with the loop and the member position. -/
def reduceProgress (f : Flight) : List Byte :=
  match f.recomp.head? with
  | none => u8 0
  | some l => u8 1 ++ recompBytes f l

/-- R138: the progress of a CLOSE: its step, numbered as the table lists the steps (R181), with the member position in
MEMBER steps. -/
def closeProgress : Place → List Byte
  | .loopCheck => u8 0
  | .inlineOpen => u8 1
  | .inlineClosing => u8 1
  | .deltaV => u8 2
  | .member walked => u8 3 ++ u8 walked.length
  | .completion => u8 4
  | _ => []

/-- R138: the progress of a walk: the set, the way and the number of indices visited at it, or the next pool index. -/
def walkProgress : Place → List Byte
  | .way id => u8 (id / 4) ++ u8 (id % 4) ++ u16 0
  | .occupation id _ visited => u8 (id / 4) ++ u8 (id % 4) ++ u16 visited.length
  | .index i => u16 i
  | _ => []

/-- The progress of a job in the form of its kind (R138). The member position that goes with a step's name has no
presence byte, and once its last step is taken a REDUCE reads REDUCING and a walk the place past its last (DESIGN
CHOICE, log 11). -/
def progressBytes (f : Flight) : List Byte :=
  match f.job.kind with
  | .reduce _ => reduceProgress f
  | .close _ => closeProgress f.place
  | .retide _ => walkProgress f.place ++ optBytes (recompBytes f) f.recomp.head?
  | .recalc => walkProgress f.place ++ optBytes (recompBytes f) f.recomp.head?

def lastJobBytes (r : LastJob) : List Byte := jobBytes r.job ++ u8 r.result.code ++ u16 r.count ++ u48 r.epoch

/-- R152. -/
def engineBytes (e : Engine) : List Byte :=
  u8 e.state.code ++ optBytes (fun f => jobBytes f.job ++ progressBytes f ++ u16 f.written.length) e.flight ++
  listBytes jobBytes e.queue ++ optBytes lastJobBytes e.last

/-- The kind and the index of a failing record (R148). The constants have no index, and none has a presence byte
(DESIGN CHOICE, log 11). -/
def recordBytes : RecordId → List Byte
  | .station w => u8 0 ++ u8 (w / 4) ++ u8 (w % 4)
  | .occupation i => u8 1 ++ u16 i
  | .loop l => u8 2 ++ u8 l
  | .constants => u8 3
  | .constituent k => u8 4 ++ u8 k
  | .site s => u8 5 ++ u8 s

/-- R153. -/
def faultBytes (f : FaultContext) : List Byte := jobBytes f.flight.job ++ progressBytes f.flight ++ recordBytes f.failed

/-- R97: one constituent after the byte 1, or the byte 0 as the mark that it is damaged (DESIGN CHOICE, log 11). -/
def constituentBytes (c : Constituent) : List Byte :=
  if c.damaged then u8 0 else u8 1 ++ flagByte c.enabled ++ u24 c.speed ++ u16 c.phase

/-- R97. -/
def siteBytes (k : Nat) (c : Site) (cs : List Constituent) : List Byte :=
  u8 k ++ flagByte c.set ++ u16 c.revision ++ c.pairs.flatMap (fun p => u16 p.1 ++ u16 p.2) ++
  cs.flatMap constituentBytes

/-- R169, R181: the fewest whole bytes that hold each number's range, in the order of the table. -/
def constWidths : List Nat := [3, 3, 4, 3, 3, 3, 3, 2, 3, 3, 2, 2, 2, 2, 2, 2, 1, 2, 2, 1]

/-- R174, R181: the fields in the order of R169, each in its width. -/
def constantsBytes (c : Constants) : List Byte :=
  ((constWidths.zip (numsList c.nums)).flatMap fun p => beBytesS p.1 p.2) ++ u8 (roundModeCode c.mode) ++
  flagByte c.enableX ++ flagByte c.enableY ++ flagByte c.enableT ++ u16 c.revision

/-- R179. -/
def clockBytes (c : Clock) : List Byte := u32 c.seconds ++ u16 c.ticks ++ flagByte c.isSet ++ flagByte c.held ++ s16 c.trim

/-- R189. -/
def eventsBytes (e : Events) : List Byte := u16 e.pending.toNat ++ u16 e.enabled.toNat ++ flagByte e.attention

/-- R198. The pass is sent as its number, and ENDED as 9 (DESIGN CHOICE, log 11). -/
def scanBytes (s : Scan) : List Byte :=
  let c := s.counts
  u8 s.origin.code ++ u8 (if s.ended.isSome then 9 else min s.pass 8) ++ optBytes u48 s.ended ++
  u16 c.suspectWays ++ u16 c.damagedStations ++ u16 c.damagedOccupations ++ u16 c.damagedLoops ++
  u16 c.references ++ u16 c.unlisted ++ u16 c.windows ++ u16 c.reordered ++ u16 c.voided ++ u16 c.undone ++
  u16 c.drifts ++ u16 c.stations

/-- R187: IDENTIFY's eight bytes. -/
def identifyBytes (p : PartState) : List Byte :=
  u8 0x4A ++ u8 0x47 ++ u8 0x33 ++ u8 0x31 ++ u8 0x32 ++ u8 0x01 ++ u8 p.code ++ u8 240

/-! ### Export parts (R165, R166) -/

def bitNat (b : Bool) (k : Nat) : Nat := if b then 2 ^ k else 0

/-- R165. -/
def stationPartBytes (p : StationPart) : List Byte :=
  u16 p.number ++ u8 (p.way / 4) ++ u8 (p.way % 4) ++
  u8 (bitNat (p.role = .base) 0 + bitNat p.pinned 1 + bitNat p.reference.isSome 2 + bitNat p.changed 3) ++
  u8 p.site ++ u32 (p.reference.getD 0) ++ tagBytes p.tag ++ u8 p.indices.length ++
  ((p.indices ++ List.replicate 8 0xFFFF).take 8).flatMap u16 ++ u48 p.epoch ++ u8 1

/-- R166: the flag bits. -/
def flagMask (f : Flags) : Nat :=
  bitNat f.short 0 + bitNat f.clamped 1 + bitNat f.sensorLost 2 + bitNat f.tiltLimit 3 + bitNat f.tiltRange 4 +
  bitNat f.tiltHeld 5 + bitNat f.tiltMissing 6 + bitNat f.tempHeld 7 + bitNat f.tempMissing 8 + bitNat f.overload 9 +
  bitNat f.breaks 10 + bitNat f.constantsChanged 12 + bitNat f.unqueued 13 + bitNat f.saturated 14 +
  bitNat f.noTide 15 + bitNat f.driftHigh 16 + bitNat f.noDrift 17

/-- R166: the state byte. -/
def OccState.exportCode : OccState → Nat := OccState.code

def loopByte (l : Option Nat) : List Byte := u8 (l.getD 0xFF)

/-- R166: results as they stand in an occupation part; zeros when absent. -/
def exportResults (r : Option Results) : List Byte :=
  match r with
  | some r => s32 r.raw ++ u32 (r.noise.getD 0) ++ u16 r.ctilt.toNat ++ s32 r.ctemp ++ s16 r.ctide ++ s32 r.v ++
      u16 r.revision ++ u8 r.site ++ u16 r.siteRevision
  | none => List.replicate 25 0

/-- R166: the drift part; zeros when absent. -/
def exportDrift (d : Option DriftPart) : List Byte :=
  match d with
  | some d => s32 d.correction ++ s32 d.final ++ s32 d.vOpen ++ u32 (d.rOpen.getD 0) ++ s32 d.rate
  | none => List.replicate 20 0

/-- R166: the part of a record in SETTLING or COLLECTING carries bytes 0 to 6 and 77 to 80 alone. -/
def windowPartBytes (i : Nat) (o : Occ) : List Byte :=
  u16 i ++ u8 o.state.exportCode ++ u8 0 ++ u8 0 ++ loopByte o.memberOf ++ loopByte o.opens ++
  List.replicate 70 0 ++ u16 o.duration ++ u16 o.settle

/-- R166: n in its four bytes; a free value where a loaded n does not fit (log 53). -/
def countField (n : Nat) : Nat := if n < 4294967296 then n else Config.wideCount n

/-- R166: the part of any other record. -/
def recordPartBytes (i : Nat) (o : Occ) (network : Option Nat) (grade : Grade) (tide constants : Bool) : List Byte :=
  let m := (o.reading.map (·.sums)).getD {}
  u16 i ++ u8 o.state.exportCode ++
  u8 (bitNat o.reading.isSome 0 + bitNat o.results.isSome 1 + bitNat ((o.results.bind (·.noise)).isSome) 2 +
      bitNat o.drift.isSome 3 + bitNat ((o.drift.bind (·.rOpen)).isSome) 4 + bitNat network.isSome 5 +
      bitNat tide 6 + bitNat constants 7) ++
  u8 grade.code ++ loopByte o.memberOf ++ loopByte o.opens ++ beBytes 3 (flagMask o.flags) ++
  u48 ((o.reading.map (·.epoch)).getD 0) ++ u32 (countField m.n) ++ u16 m.breaks ++ u16 m.overload ++ u16 m.clamped ++
  exportResults o.results ++ exportDrift o.drift ++ u32 (network.getD 0) ++
  u16 ((o.reading.map (·.openRevision)).getD 0) ++ u16 o.duration ++ u16 o.settle

/-- R166: an occupation part. A damaged one carries its index, its state and two absent loops. -/
def occPartBytes : OccPart → List Byte
  | .damaged i => u16 i ++ u8 0xFE ++ u8 0 ++ u8 0 ++ u8 0xFF ++ u8 0xFF ++ List.replicate 74 0
  | .copy i o network grade tide constants =>
    if o.state = .settling ∨ o.state = .collecting then windowPartBytes i o
    else recordPartBytes i o network grade tide constants

end Sys2Proof.Machine
end

