-- ==== Sys2Proof/Machine/Ops.lean ====
section
/-! DEFINITION. The operations that the commands share: tables, the memory check (R204), writes of
records, station lookups (R6, R8), the recency order (R5), the freeing of occupations (R31), the
answers of the host link (R183, R185, R186), and the reset of the main domain (R194). -/

namespace Sys2Proof.Machine

/-! ### Tables with absent FREE places -/

/-- The record at a key, absent when the place is FREE. -/
def slotGet {α : Type} : Slots α → Nat → Option α
  | [], _ => none
  | (k', v) :: t, k => if k' = k then some v else slotGet t k

/-- The table with a place made FREE. -/
def slotErase {α : Type} (t : Slots α) (k : Nat) : Slots α := t.filter fun p => p.1 ≠ k

/-- A pair put before the first greater key. -/
def slotInsert {α : Type} (k : Nat) (v : α) : Slots α → Slots α
  | [] => [(k, v)]
  | (k', v') :: t => if k < k' then (k, v) :: (k', v') :: t else (k', v') :: slotInsert k v t

/-- The table with a record written at a key. -/
def slotSet {α : Type} (t : Slots α) (k : Nat) (v : α) : Slots α := slotInsert k v (slotErase t k)

/-- The keys of the places that are not FREE. -/
def slotKeys {α : Type} (t : Slots α) : List Nat := t.map (·.1)

/-- Keys rise strictly and stay below the size of the table. -/
def slotWf {α : Type} (size : Nat) : Slots α → Bool
  | [] => true
  | [(k, _)] => k < size
  | (k, _) :: (k', v') :: t => k < k' && slotWf size ((k', v') :: t)

/-- The lowest FREE place among `ks`. -/
def lowestFree {α : Type} (t : Slots α) (ks : List Nat) : Option Nat :=
  ks.find? fun k => (slotGet t k).isNone

def State.station? (s : State) (way : Nat) : Option Station := slotGet s.stations way
def State.occ? (s : State) (i : Nat) : Option Occ := slotGet s.occs i
def State.loop? (s : State) (l : Nat) : Option Loop := slotGet s.loops l
def State.constituent (s : State) (k : Nat) : Constituent := s.constituents[k]?.getD clearConstituent
def State.site (s : State) (k : Nat) : Site := s.sites[k]?.getD clearSite

/-- Writes as they stand, without a new check value: the damaged mark alone is set this way. -/
def State.setStation (s : State) (way : Nat) (e : Station) : State :=
  { s with stations := slotSet s.stations way e }
def State.setOcc (s : State) (i : Nat) (o : Occ) : State := { s with occs := slotSet s.occs i o }
def State.setLoop (s : State) (l : Nat) (r : Loop) : State := { s with loops := slotSet s.loops l r }
def State.setConstituent (s : State) (k : Nat) (c : Constituent) : State :=
  { s with constituents := s.constituents.setIfInBounds k c }
def State.setSite (s : State) (k : Nat) (c : Site) : State := { s with sites := s.sites.setIfInBounds k c }
def State.setConstants (s : State) (c : Constants) : State := { s with constants := c }

/-- R204: every write of a record forms its check value anew; the mark stays as the record given has
it (log 14). -/
def State.putStation (s : State) (way : Nat) (e : Station) : State := s.setStation way { e with sound := true }
def State.putOcc (s : State) (i : Nat) (o : Occ) : State := s.setOcc i { o with sound := true }
def State.putLoop (s : State) (l : Nat) (r : Loop) : State := s.setLoop l { r with sound := true }

/-! ### The memory check (R2, R32, R92, R111, R170, R204) -/

/-- The read of a station entry: a failure sets the mark and raises MEMORY_ERROR (R2). -/
def State.checkStation (s : State) (way : Nat) : State :=
  match s.station? way with
  | some e => if e.sound then s else (s.setStation way { e with damaged := true }).raise .memoryError
  | none => s

/-- The read of an occupation record (R32). -/
def State.checkOcc (s : State) (i : Nat) : State :=
  match s.occ? i with
  | some o => if o.sound then s else (s.setOcc i { o with damaged := true }).raise .memoryError
  | none => s

/-- The read of a loop record: a mark already set raises MEMORY_ERROR again (R111). -/
def State.checkLoop (s : State) (l : Nat) : State :=
  match s.loop? l with
  | some r => if r.sound && !r.damaged then s else (s.setLoop l { r with damaged := true }).raise .memoryError
  | none => s

/-- The read of a constituent entry (R92). -/
def State.checkConstituent (s : State) (k : Nat) : State :=
  let c := s.constituent k
  if c.sound && !c.damaged then s else (s.setConstituent k { c with damaged := true }).raise .memoryError

/-- The read of a tide site (R92). -/
def State.checkSite (s : State) (k : Nat) : State :=
  let c := s.site k
  if c.sound && !c.damaged then s else (s.setSite k { c with damaged := true }).raise .memoryError

/-- The read of the constants (R170): `again` for the readers that raise MEMORY_ERROR again when they
find the mark set. -/
def State.checkConstants (s : State) (again : Bool) : State :=
  if s.constants.damaged then (if again then s.raise .memoryError else s)
  else if s.constants.sound then s
  else (s.setConstants { s.constants with damaged := true }).raise .memoryError

/-- Several reads, one after another. -/
def State.checkStations (s : State) (ways : List Nat) : State := ways.foldl State.checkStation s
def State.checkOccs (s : State) (is : List Nat) : State := is.foldl State.checkOcc s
/-- The loop table is read: every loop that is not FREE. -/
def State.checkLoops (s : State) : State := (slotKeys s.loops).foldl State.checkLoop s

/-- The mark of any record is set and MEMORY_ERROR raised. -/
def State.failRecord (s : State) : RecordId → State
  | .station w => match s.station? w with
    | some e => (s.setStation w { e with damaged := true }).raise .memoryError
    | none => s
  | .occupation i => match s.occ? i with
    | some o => (s.setOcc i { o with damaged := true }).raise .memoryError
    | none => s
  | .loop l => match s.loop? l with
    | some r => (s.setLoop l { r with damaged := true }).raise .memoryError
    | none => s
  | .constants => (s.setConstants { s.constants with damaged := true }).raise .memoryError
  | .constituent k => (s.setConstituent k { s.constituent k with damaged := true }).raise .memoryError
  | .site k => (s.setSite k { s.site k with damaged := true }).raise .memoryError

/-- R204: a stored word of a record no longer agrees with its check value. -/
def State.upsetRecord (s : State) : RecordId → State
  | .station w => match s.station? w with
    | some e => s.setStation w { e with sound := false }
    | none => s
  | .occupation i => match s.occ? i with
    | some o => s.setOcc i { o with sound := false }
    | none => s
  | .loop l => match s.loop? l with
    | some r => s.setLoop l { r with sound := false }
    | none => s
  | .constants => s.setConstants { s.constants with sound := false }
  | .constituent k => s.setConstituent k { s.constituent k with sound := false }
  | .site k => s.setSite k { s.site k with sound := false }

/-- R19, R162: the entry is read again after the lookup; a word of it may have been upset since (log 2). -/
def State.readOut (s : State) (way : Nat) : State :=
  if s.late = some way then ({ s with late := none }.upsetRecord (.station way)).checkStation way
  else s.checkStation way

/-! ### Gathers (R24, R128, R151) -/

/-- Every record of the pool is read. -/
def State.checkPool (s : State) : State := s.checkOccs (slotKeys s.occs)

/-- R111: where a loop has none of its stored fields used, the loop fields of the given records are read. -/
def State.checkNaming (s : State) (is : List Nat) : State :=
  if s.loops.any (fun q => q.2.damaged) then s.checkOccs is else s

/-! ### Sets, ways and recency (R4, R5) -/

/-- The ways of a set, way 0 first. -/
def waysOfSet (set : Nat) : List Nat := [set * 4, set * 4 + 1, set * 4 + 2, set * 4 + 3]

/-- The ways in which a station number can live (R4). -/
def waysOf (number : Nat) : List Nat := waysOfSet (number % 64)

/-- The recency order of a set, most recently touched first. -/
def State.order (s : State) (set : Nat) : List Nat := (slotGet s.recency set).getD []

def State.setOrder (s : State) (set : Nat) (l : List Nat) : State :=
  { s with recency := if l = [] then slotErase s.recency set else slotSet s.recency set l }

/-- R5: a touch moves the way to the most recent place; a new entry enters there. -/
def State.touch (s : State) (way : Nat) : State :=
  s.setOrder (way / 4) (way :: (s.order (way / 4)).filter (· ≠ way))

/-- R5: a freed entry leaves the order. -/
def State.leaveOrder (s : State) (way : Nat) : State :=
  s.setOrder (way / 4) ((s.order (way / 4)).filter (· ≠ way))

/-! ### Lookups (R6, R8) -/

/-- The non-free ways of the number's set that carry it. -/
def State.matching (s : State) (number : Nat) : List Nat :=
  (waysOf number).filter fun w =>
    match s.station? w with
    | some e => e.number = number
    | none => false

/-- The outcomes of a keyed lookup (R6). -/
inductive Lookup where
  | noStation | duplicate | damaged (way : Nat) | found (way : Nat)
deriving DecidableEq, Repr

/-- A refused keyed lookup is answered by its outcome (R6). -/
def Lookup.status : Lookup → Status
  | .noStation => .noStation
  | .duplicate => .duplicateKey
  | .damaged _ => .damaged
  | .found _ => .ok

/-- R6: a matching way that is not SUSPECT becomes SUSPECT. -/
def State.suspect (s : State) (way : Nat) : State :=
  match s.station? way with
  | some e => if e.state = .suspect then s else s.putStation way { e with state := .suspect }
  | none => s

/-- R6: a lone SUSPECT way returns to ACTIVE. -/
def State.activate (s : State) (way : Nat) : State :=
  match s.station? way with
  | some e => if e.state = .active then s else s.putStation way { e with state := .active }
  | none => s

/-- R6, R7: the keyed lookup with its effects, which stand whatever the command then does. Every
non-free way of the set is read (log 13). -/
def State.keyedLookup (s : State) (number : Nat) : State × Lookup :=
  let s := s.checkStations (waysOf number)
  match s.matching number with
  | [] => (s, .noStation)
  | [w] =>
    match s.station? w with
    | some e => if e.damaged then (s, .damaged w) else (s.activate w, .found w)
    | none => (s, .noStation)
  | ws => (ws.foldl State.suspect s, .duplicate)

/-- R8: the way of the one match, when that is ACTIVE and not damaged. -/
def State.usable (s : State) (number : Nat) : Option Nat :=
  match s.matching number with
  | [w] =>
    match s.station? w with
    | some e => if e.state = .active ∧ ¬e.damaged then some w else none
    | none => none
  | _ => none

/-- R8: the internal lookup of a block other than the engine. -/
def State.internalLookup (s : State) (number : Nat) : State × Option Nat :=
  let s := s.checkStations (waysOf number)
  (s, s.usable number)

/-! ### Changed marks and occupation lists (R3, R26) -/

/-- R198: one more way marked by this scan. -/
def Scan.mark (c : Scan) (way : Nat) : Scan :=
  if c.marked.contains way then c
  else { c with marked := way :: c.marked, counts := { c.counts with stations := addHeld c.counts.stations 1 } }

/-- In STARTING only the scan marks stations, and its report counts them (R195, R198). -/
def State.noteMark (s : State) (way : Nat) : State :=
  if s.part = .starting then { s with scan := s.scan.map fun c => c.mark way } else s

/-- A station entry is written with its changed mark set (R26). -/
def State.putChanged (s : State) (way : Nat) (e : Station) : State :=
  (s.putStation way { e with changed := true }).noteMark way

def State.markChanged (s : State) (way : Nat) : State :=
  match s.station? way with
  | some e => s.putChanged way e
  | none => s

/-- A way carries an entry that satisfies `p`. -/
def State.wayIs (s : State) (p : Station → Bool) (way : Nat) : Bool :=
  match s.station? way with
  | some e => p e
  | none => false

/-- The way that owns a record: the undamaged one of the number that lists it, else the lowest damaged one of the
number, whose list is not trusted (R24, log 16). -/
def State.ownerOf (s : State) (number i : Nat) : Option Nat :=
  match (s.matching number).find? (s.wayIs fun e => !e.damaged && e.list.contains i) with
  | some w => some w
  | none => (s.matching number).find? (s.wayIs (·.damaged))

/-- The ways of a record's number are read, and the one that owns it is marked changed (R26, log 16). An entry that newly
fails its check gains its mark, and the command goes on (DESIGN CHOICE, log 63). -/
def State.markOwner (s : State) (number i : Nat) : State :=
  let s := s.checkStations (waysOf number)
  match s.ownerOf number i with
  | some w => s.markChanged w
  | none => s

/-- R123, R128: the station of a record is marked through the internal lookup, and an unusable one is not. The scan
marks every station that it touches (R195), and so the way that owns the record. -/
def State.markRecord (s : State) (number i : Nat) : State :=
  if s.part = .starting then s.markOwner number i
  else match s.internalLookup number with
    | (s, some w) => s.markChanged w
    | (s, none) => s

/-- R3: one station list is read, whether it names the record or not, and one that does loses it, and its station is
marked changed (DESIGN CHOICE, log 15). An entry that newly fails its check gains its mark, and the command goes on (DESIGN
CHOICE, log 63). -/
def State.unlist (i : Nat) (s : State) (way : Nat) : State :=
  let s := s.checkStation way
  match s.station? way with
  | some e => if e.list.contains i then s.putChanged way { e with list := e.list.filter (· ≠ i) } else s
  | none => s

/-- R31, R111: one member list loses an index. The loop is read where its list names the record (DESIGN CHOICE, log 15),
and no damaged loop's list is written. -/
def State.unmember (i : Nat) (s : State) (l : Nat) : State :=
  match s.loop? l with
  | some r =>
    if r.members.contains i then
      let s := s.checkLoop l
      match s.loop? l with
      | some r => if r.damaged then s else s.putLoop l { r with members := r.members.filter (· ≠ i) }
      | none => s
    else s
  | none => s

/-- R31: a record becomes FREE at once and leaves the station lists of the given ways and the member lists that name
it. Which of these lists are read is the model's choice (DESIGN CHOICE, log 15). -/
def State.freeOcc (s : State) (ways : List Nat) (i : Nat) : State :=
  let s := ways.foldl (State.unlist i) s
  let s := (slotKeys s.loops).foldl (State.unmember i) s
  { s with occs := slotErase s.occs i }

/-- Every way of the table. -/
def allWays : List Nat := List.range 256

/-- R23: the entry becomes FREE, its marks are cleared, and it leaves the recency order. -/
def State.freeEntry (s : State) (way : Nat) : State :=
  { s.leaveOrder way with stations := slotErase s.stations way }

/-! ### The survey clock's epoch (R176) -/

def Clock.epoch (c : Clock) : Nat := c.seconds * 1024 + c.ticks
def State.epoch (s : State) : Nat := s.clock.epoch

/-! ### Answers of the host link (R183, R185, R186) -/

/-- A command completes: its response is held, unless its discard mark is set, and the waiting command
is taken. -/
def Link.complete (l : Link) (r : Response) : Link :=
  { l with
    held := if l.discard then l.held else some r
    fetching := if l.discard then l.fetching else false
    executing := l.waiting
    waiting := none
    discard := false }

def State.respond (s : State) (st : Status) (payload : List Byte) : State :=
  { s with link := s.link.complete { status := st, payload := payload } }

/-- R183: a status other than OK and OK_CLAMPED has an empty payload. -/
def State.refuse (s : State) (st : Status) : State := s.respond st []

/-- R182: a list longer or shorter than the command's is answered BAD_LENGTH with the command's code. The
link finds it in the frame already. -/
def State.badLength (s : State) (i : Instr) : State :=
  s.respond .badLength (match i.frame with | some f => u8 f.1 | none => [])

/-- The part states in which a command is taken (R186). -/
inductive Access where
  | ready | readyRestore | restore | always
deriving DecidableEq, Repr

def Access.taken : Access → PartState → Bool
  | .ready, .ready => true
  | .readyRestore, .ready => true
  | .readyRestore, .restore => true
  | .restore, .restore => true
  | .always, .ready => true
  | .always, .restore => true
  | .always, .starting => true
  | _, _ => false

/-- The link runs, and the command is the one in execution or stands for its own frame (log 4). -/
def State.linkTakes (s : State) (i : Instr) : Bool :=
  !s.resetHeld && s.part ≠ .standby &&
    match s.link.executing with
    | none => true
    | some c => c = i

/-- A host command, taken whole as one access: ignored while the link is stopped, answered
NOT_IN_SERVICE in a part state that does not take it, and otherwise run. -/
def hostCommand (i : Instr) (a : Access) (body : State → State) (s : State) :
    Host.Outcome State Fault Refusal :=
  .next (if s.linkTakes i then (if a.taken s.part then body s else s.refuse .notInService) else s)

/-- An event of a pin or of a block: it changes the state, or does nothing where its cause is absent
(log 3). -/
def blockEvent (body : State → State) (s : State) : Host.Outcome State Fault Refusal := .next (body s)

/-! ### Resets and scans (R71, R191, R194, R198) -/

/-- The link of a reset: a period in progress goes on being one (log 31). -/
def Link.cleared (l : Link) : Link := { clearLink with period := l.period }

/-- A period in progress is ignored to its end (R186, R191). -/
def Link.ignorePeriod (l : Link) : Link :=
  { l with period := l.period.map fun _ => { ignored := true, miso := [] } }

/-- The channel enables as they stand give the front end's start (R71). -/
def State.setStart (s : State) : State :=
  { s with front := startedFrontEnd s.constants.enableX s.constants.enableY s.constants.enableT }

/-- R71, R72, R170: the front end reads the constants and starts from the enables they hold (log 37). -/
def State.startFront (s : State) : State := (s.checkConstants false).setStart

/-- R194: the main domain is set as at power-on. -/
def State.mainReset (s : State) : State :=
  { s.setStart with
    window := none, lastWindow := none, engine := idleEngine, snapshot := none, link := s.link.cleared }

def clearEvents : Events := { pending := 0, enabled := 0 }

/-- R198: the report is cleared and its origin set as a scan begins from its first pass. -/
def State.beginScan (s : State) (origin : ScanOrigin) : State :=
  { s with
    part := .starting
    scan := some { origin := origin, pass := 1, ended := none, counts := {}, cursor := 0, marked := [], found := [] } }

/-- R194: the release of RESET_N, or an accepted RESET, as one access. The front end reads the constants as it
starts; what that read raises is cleared with every other event of the access (log 37). -/
def State.resetNow (s : State) : State :=
  { (s.checkConstants false).mainReset.beginScan .reset with events := clearEvents, resetHeld := false }

/-- The front end and the window run: neither in standby nor held in reset (R72, R194). -/
def State.mainRuns (s : State) : Bool := !s.resetHeld && s.part ≠ .standby

end Sys2Proof.Machine
end

