-- ==== Sys2Proof/Machine/Reduce.lean ====
section
/-! DEFINITION. The stages of a reduction (R77 to R83) on one record's sums, with the constants copy and
the tide answer given, and the drift arithmetic of a loop (R119 to R121). -/

namespace Sys2Proof.Machine

/-- Stage 1 (R77): the exact raw value. -/
def rawExact (c : ConstNums) (m : Sums) : Int := c.rangeOffset + roundDiv (m.sumX * c.scale) (m.n * 65536)

/-- The exact value where it lies in its range, and where it does not a free value of that range (log 30). -/
def within (lo hi : Int) (free : Int → Int) (z : Int) : Int := if inRange lo hi z then z else clampTo lo hi (free z)

/-- The same for the noise. -/
def withinNoise (k : Nat) : Nat := if k ≤ Config.noiseBound then k else min Config.noiseBound (Config.wideNoise k)

/-- R78: n × Σx² − (Σx)². -/
def spread (m : Sums) : Int := (m.n * m.sumX2 : Nat) - m.sumX * m.sumX

/-- Stage 2 (R78): the noise, absent for fewer than two samples and for sums of no set of samples. -/
def noiseOf (c : ConstNums) (m : Sums) : Option Nat :=
  if m.n < 2 ∨ spread m < 0 then none
  else
    some (withinNoise
      (isqrt ((spread m).toNat * (c.scale.toNat * c.scale.toNat) / (m.n * m.n * (m.n - 1) * 4294967296))))

/-- How a channel entered stage 3 or stage 5 (R79, R81). -/
inductive Input where
  | accumulated | held | missing
deriving DecidableEq, Repr

/-- R79: one channel's part of the mean squared tilt. -/
def tiltSquare (sum2 m : Nat) (last : Option Int) : Int × Input :=
  if m ≥ 1 then (roundDiv sum2 m, .accumulated)
  else match last with
    | some v => (v * v, .held)
    | none => (0, .missing)

/-- Stage 3 (R79): the mean squared tilt. -/
def meanSquareTilt (m : Sums) : Int := (tiltSquare m.tiltX2 m.mx m.lastX).1 + (tiltSquare m.tiltY2 m.my m.lastY).1

/-- Stage 4 (R80). -/
def tiltCorrection (c : ConstNums) (m : Sums) : Int :=
  within 0 Config.tiltBound Config.wideTilt (roundDiv (c.gravity * meanSquareTilt m) 200000000)

/-- R81: the mean temperature and lag value, where they are known. -/
def tempMeans (m : Sums) : Option (Int × Int) × Input :=
  if m.k ≥ 1 then (some (roundDiv m.sumTemp m.k, roundDiv m.sumLag m.k), .accumulated)
  else match m.lastT, m.lastL with
    | some t, some l => (some (t, l), .held)
    | _, _ => (none, .missing)

/-- Stage 5 (R81): the quotient is rounded before it is negated. -/
def tempCorrection (c : ConstNums) (m : Sums) : Int :=
  match (tempMeans m).1 with
  | some (t, l) => within (-Config.tempBound) Config.tempBound Config.wideTemp (-(roundDiv (c.c1 * t + c.c2 * l) 1000))
  | none => 0

/-- Stage 6 (R82): the negative of the tide value; 0 for an EMPTY site (`none`). -/
def tideCorrection (tide : Option Int) : Int :=
  match tide with
  | some v => -v
  | none => 0

/-- Stage 7 (R83): the exact corrected value, from the raw value as stored. -/
def correctedExact (c : ConstNums) (m : Sums) (tide : Option Int) : Int :=
  saturate (rawExact c m) + tiltCorrection c m + tempCorrection c m + tideCorrection tide

/-- The results group of a reduction with its three stamps (R75, R76). -/
def resultsOf (c : Constants) (m : Sums) (tide : Option Int) (site siteRevision : Nat) : Results :=
  { raw := saturate (rawExact c.nums m)
    noise := noiseOf c.nums m
    ctilt := tiltCorrection c.nums m
    ctemp := tempCorrection c.nums m
    ctide := tideCorrection tide
    v := saturate (correctedExact c.nums m tide)
    revision := c.revision
    site := site
    siteRevision := siteRevision }

/-- R86: the final value recomputed with the stored drift correction. -/
def redrift (v : Int) (d : DriftPart) : DriftPart := { d with final := saturate (v + d.correction) }

/-- The flags after a reduction (R84): cleared, then set as the stages and R86 call for. -/
def reducedFlags (f : Flags) (c : ConstNums) (m : Sums) (tide : Option Int) (drift : Option DriftPart) : Flags :=
  let x := (tiltSquare m.tiltX2 m.mx m.lastX).2
  let y := (tiltSquare m.tiltY2 m.my m.lastY).2
  let t := (tempMeans m).2
  let v := saturate (correctedExact c m tide)
  { clearReductionFlags f with
    tiltHeld := x = .held || y = .held
    tiltMissing := x = .missing || y = .missing
    tempHeld := t = .held
    tempMissing := t = .missing
    noTide := tide.isNone
    saturated := saturates (rawExact c m) || saturates (correctedExact c m tide) ||
      (match drift with | some d => saturates (v + d.correction) | none => false) }

/-- The record after a reduction (R84 to R86): results, flags, final value, and PENDING become REDUCED. -/
def reducedOcc (o : Occ) (c : Constants) (m : Sums) (tide : Option Int) (site siteRevision : Nat) : Occ :=
  let r := resultsOf c m tide site siteRevision
  { o with
    state := if o.state = .pending then .reduced else o.state
    results := some r
    drift := o.drift.map (redrift r.v)
    flags := reducedFlags o.flags c.nums m tide o.drift }

/-! ### Drift (R119 to R121) -/

/-- R119: ΔV, exact. The references are those of the two stations, for endpoints at different ones. -/
def deltaVExact (mode : CloseMode) (sameStation : Bool) (vOpen vClose : Int) (rOpen rClose : Int) : Int :=
  match mode with
  | .noDrift => 0
  | .drift => if sameStation then vClose - vOpen else (vClose - vOpen) - 10 * (rClose - rOpen)

/-- R120: the exact drift rate. -/
def exactRate (mode : CloseMode) (deltaV : Int) (tOpen tClose : Nat) : Int :=
  match mode with
  | .noDrift => 0
  | .drift => roundDiv (deltaV * 3686400) (tClose - tOpen)

/-- R121: the exact drift correction of a member. -/
def correctionExact (d : DriftCalc) (t : Nat) : Int :=
  match d.mode with
  | .noDrift => 0
  | .drift => -(roundDiv (d.deltaV * ((t : Int) - d.tOpen)) (d.tClose - d.tOpen))

/-- R121: the drift part that a member step writes. -/
def driftPartOf (d : DriftCalc) (v : Int) (t : Nat) : DriftPart :=
  { correction := saturate (correctionExact d t)
    final := saturate (v + saturate (correctionExact d t))
    vOpen := d.vOpen
    rOpen := d.rOpen
    rate := saturate d.rate }

/-- R121: the member with its drift part and its flags. SATURATED is set and never cleared here. -/
def driftedOcc (o : Occ) (d : DriftCalc) (v : Int) (t : Nat) : Occ :=
  let c := correctionExact d t
  { o with
    drift := some (driftPartOf d v t)
    flags := { o.flags with
      driftHigh := d.high
      noDrift := d.mode = .noDrift
      saturated := o.flags.saturated || saturates c || saturates (v + saturate c) } }

end Sys2Proof.Machine
end

