-- ==== Sys2Proof/Machine/LoopOps.lean ====
section
/-! DEFINITION. What other blocks ask of the loop table: endpoints and members (R22, R51, R111), the
voiding of a loop (R127, R128), and the undoing of a close (R123, R151). -/

namespace Sys2Proof.Machine

/-! ### Who names a record -/

/-- R111: the record's own fields name a loop of which no stored field is used. -/
def State.fieldNames (s : State) (f : Occ → Option Nat) (i : Nat) : Bool :=
  match s.occ? i with
  | some o =>
    match f o with
    | some l => (match s.loop? l with | some r => r.damaged | none => false)
    | none => false
  | none => false

/-- The record is on the member list of a sound loop in one of the given states, or counts as such a
member of a damaged one (R111). -/
def State.isMember (s : State) (p : LoopState → Bool) (i : Nat) : Bool :=
  s.loops.any (fun q => !q.2.damaged && p q.2.state && q.2.members.contains i) ||
    (p .closed && s.fieldNames (·.memberOf) i)

/-- The record is the open endpoint of a sound loop in one of the given states, or counts as that of a
damaged one (R111). -/
def State.isOpenEnd (s : State) (p : LoopState → Bool) (i : Nat) : Bool :=
  s.loops.any (fun q => !q.2.damaged && p q.2.state && q.2.openEnd = i) ||
    (p .closed && s.fieldNames (·.opens) i)

/-- The record is the closing member of a sound loop in one of the given states. -/
def State.isClosing (s : State) (p : LoopState → Bool) (i : Nat) : Bool :=
  s.loops.any fun q => !q.2.damaged && p q.2.state && q.2.closing = some i

def anyState : LoopState → Bool := fun _ => true

/-- CLOSING or CLOSED. -/
def closeState : LoopState → Bool
  | .closing => true
  | .closed => true
  | _ => false

/-- The record is that of the open window. -/
def State.isWindow (s : State) (i : Nat) : Bool :=
  match s.window with
  | some w => w.occ = i
  | none => false

/-- R22: an occupation that keeps its station from being retired. -/
def State.occInUse (s : State) (i : Nat) : Bool :=
  s.isWindow i || s.isMember anyState i || s.isOpenEnd anyState i

/-- R16: the record is an endpoint of a loop in CLOSING or CLOSED. -/
def State.isEndpoint (s : State) (i : Nat) : Bool := s.isOpenEnd closeState i || s.isClosing closeState i

/-- R88, R127: a recomputation of the loop is in flight or faulted (log 19). -/
def State.recomputing (s : State) (l : Nat) : Bool :=
  match s.engine.flight with
  | some f => f.recomp.head? = some l
  | none => false

/-- R88, R146: a recomputation walks a loop, which is CLOSED: one that is no longer so is not recomputed. -/
def State.walks (s : State) (l : Nat) (r : Loop) : Bool := r.state = .closed && s.recomputing l

/-- R128: the job in flight, a waiting job or a faulted job is a CLOSE naming the loop. -/
def State.closeNames (s : State) (l : Nat) : Bool :=
  (match s.engine.flight with | some f => f.job.kind = .close l | none => false) ||
    s.engine.queue.any fun j => j.kind = .close l

/-! ### Fields of a record that loops own -/

/-- A record without its drift part and the flags that belong to it (R126). -/
def withoutDrift (o : Occ) : Occ := { o with drift := none, flags := clearDriftFlags o.flags }

/-- The drift part goes, unless the record is FINAL and its drift frozen (R86, R127). -/
def dropDrift (o : Occ) : Occ := if o.state = .final then o else withoutDrift o

/-- The window's copy of its record's membership follows the record (R127, log 28). -/
def State.unwindow (s : State) (i : Nat) : State :=
  { s with window := s.window.map fun w => if w.occ = i then { w with memberOf := none } else w }

/-! ### Voiding (R127, R128) -/

/-- R127: a member loses its membership and, unless FINAL, its drift part; its station is marked, unless the record
fails its check. A FINAL member that fails its check keeps its drift part too (DESIGN CHOICE, log 24). A member that
carries the damaged mark already counts as one that fails (DESIGN CHOICE, log 57). -/
def State.voidMember (s : State) (i : Nat) : State :=
  let s := (s.checkOcc i).unwindow i
  match s.occ? i with
  | some o =>
    let s := s.putOcc i { dropDrift o with memberOf := none }
    if o.damaged then s else s.markOwner o.station i
  | none => s

/-- R127: the open endpoint loses its opens-loop field where that names the loop. The station of one that carries the
damaged mark, newly or already, is not marked (DESIGN CHOICE, log 57). A field that names another loop stays, and no
station is marked (DESIGN CHOICE, log 62). -/
def State.voidOpenEnd (s : State) (l i : Nat) : State :=
  let s := s.checkOcc i
  match s.occ? i with
  | some o =>
    if o.opens = some l then
      let s := s.putOcc i { o with opens := none }
      if o.damaged then s else s.markOwner o.station i
    else s
  | none => s

/-- A loop becomes FREE with all its fields cleared (R108). -/
def State.freeLoop (s : State) (l : Nat) : State :=
  { s with loops := slotErase s.loops l, expiryDue := s.expiryDue.filter (· ≠ l) }

/-- R127: the voiding of a sound loop, as one access. -/
def State.voidSound (s : State) (l : Nat) : State :=
  match s.loop? l with
  | some r => ((r.members.foldl State.voidMember s).voidOpenEnd l r.openEnd).freeLoop l
  | none => s

/-- R128: the records of the pool whose loop fields name the loop. -/
def State.naming (s : State) (l : Nat) : List Nat :=
  (slotKeys s.occs).filter fun i =>
    match s.occ? i with
    | some o => o.memberOf = some l || o.opens = some l
    | none => false

/-- R128: a record without the loop fields that name the loop. -/
def unnamed (l : Nat) (o : Occ) : Occ :=
  { o with memberOf := if o.memberOf = some l then none else o.memberOf
           opens := if o.opens = some l then none else o.opens }

/-- R128, R196: what a gathered member keeps of its drift part: a damaged record all of it, and a FINAL one too, but not
in the scan, where a gathered member loses it whatever its state. -/
def gatheredDrift (scan : Bool) (o : Occ) : Occ :=
  if o.damaged then o else if scan then withoutDrift o else dropDrift o

/-- R128: a gathered record loses the fields that name the loop, and a member its drift part; its station is marked. -/
def State.ungather (l : Nat) (s : State) (i : Nat) : State :=
  match s.occ? i with
  | some o =>
    let member := o.memberOf = some l
    let o' := if member then gatheredDrift (s.part = .starting) o else o
    let s := if member then s.unwindow i else s
    (s.putOcc i (unnamed l o')).markRecord o.station i
  | none => s

/-- R128: the voiding of a damaged loop, whose records are gathered from the whole pool. -/
def State.voidDamaged (s : State) (l : Nat) : State :=
  let s := s.checkPool
  ((s.naming l).foldl (State.ungather l) s).freeLoop l

/-! ### Undoing a close (R123, R151) -/

/-- R123, R151: what the undoing writes of a record; absent when it writes nothing. A record that fails its check loses
its drift part, unless FINAL, and its loop fields all the same (log 25). One that carries the damaged mark already counts
as one that fails, and its station is not marked (DESIGN CHOICE, log 57). -/
def undone (o : Occ) : Option Occ :=
  if o.damaged then some { dropDrift o with memberOf := none, opens := none }
  else if o.drift.isSome ∧ o.state ≠ .final then some (withoutDrift o)
  else none

/-- R123, R151: one record that has been read is undone, with the indices written so far. The station of a member that
fails its check is not marked, and the member counts as written also where its loop fields alone are cleared (DESIGN
CHOICE, log 25). -/
def undoRecord (acc : State × List Nat) (i : Nat) (o : Occ) : State × List Nat :=
  match undone o with
  | some o' =>
    let s := acc.1.putOcc i o'
    (if o.damaged then s.unwindow i else s.markRecord o.station i, i :: acc.2)
  | none => acc

/-- R110: the loop's list loses a member whose loop fields are cleared. -/
def State.dropMember (s : State) (l i : Nat) : State :=
  match s.loop? l with
  | some r => s.putLoop l { r with members := r.members.filter (· ≠ i) }
  | none => s

/-- R123, R151: one member of a sound loop during the undoing. -/
def undoMember (l : Nat) (acc : State × List Nat) (i : Nat) : State × List Nat :=
  let s := acc.1.checkOcc i
  match s.occ? i with
  | some o =>
    let p := undoRecord (s, acc.2) i o
    (if o.damaged then p.1.dropMember l i else p.1, p.2)
  | none => (s, acc.2)

/-- R151: one record of the pool, where the loop has failed its check: its member-of field says whether it counts. -/
def undoGathered (l : Nat) (acc : State × List Nat) (i : Nat) : State × List Nat :=
  match acc.1.occ? i with
  | some o => if o.memberOf = some l then undoRecord acc i o else acc
  | none => acc

/-- R123: the loop returns to OPEN, or to EXPIRED past its deadline, which raises LOOP_EXPIRED (R109). -/
def State.reopen (s : State) (l : Nat) : State :=
  match s.loop? l with
  | some r =>
    let expired := ¬(s.epoch < r.deadline)
    let s := s.putLoop l
      { r with state := if expired then .expired else .opened, closing := none, mode := none, driftHigh := false }
    if expired then s.raise .loopExpired else s
  | none => s

/-- R123: the undoing of a close as one access, and the records it wrote. -/
def State.undoClose (s : State) (l : Nat) : State × List Nat :=
  let s := s.checkLoop l
  match s.loop? l with
  | some r =>
    if r.damaged then
      let s := s.checkPool
      (slotKeys s.occs).foldl (undoGathered l) (s, [])
    else if r.state = .closing then
      let p := r.members.foldl (undoMember l) (s, [])
      (p.1.reopen l, p.2)
    else (s, [])
  | none => (s, [])

end Sys2Proof.Machine
end

