-- ==== Sys2Proof/Machine/WindowOps.lean ====
section
/-! DEFINITION. The operations of the reading window (R36 to R49) and the placing of jobs with the
reduction engine (R48, R137), which several commands share. -/

namespace Sys2Proof.Machine

/-! ### Placing jobs (R135, R137) -/

/-- R138: where a job of each kind begins. -/
def startPlace : JobKind → Place
  | .reduce _ => .reducing
  | .close _ => .loopCheck
  | .retide _ => .way 0
  | .recalc => .index 0

/-- R135: a job as it is taken, its written marks cleared. -/
def startFlight (j : Job) : Flight :=
  { job := j, place := startPlace j.kind, recomp := [], walk := none, drift := none, unusable := false,
    ending := none, written := [] }

/-- R137: an IDLE engine takes a job and becomes WORKING. -/
def Engine.take (e : Engine) (j : Job) : Engine := { e with state := .working, flight := some (startFlight j) }

/-- R137: a job is appended at the tail of the queue. -/
def Engine.enqueue (e : Engine) (j : Job) : Engine := { e with queue := e.queue ++ [j] }

/-- R137: 4 jobs already wait. -/
def Engine.full (e : Engine) : Bool := e.queue.length ≥ Config.queueLimit

/-- R137: the placing of a job that has passed its checks. -/
def Engine.place (e : Engine) (j : Job) : Engine := if e.state = .idle then e.take j else e.enqueue j

/-- What the placing of a host's job answers (R136): 0 for taken (DESIGN CHOICE, log 11), else the position in the
queue. -/
def Engine.position (e : Engine) : Nat := if e.state = .idle then 0 else e.queue.length + 1

/-- What becomes of an automatic submission (R48). -/
inductive Submission where
  | queued | taken | dropped
deriving DecidableEq, Repr

/-- R45: the submission in the answer to END READING. -/
def Submission.code : Submission → Nat
  | .queued => 0
  | .taken => 1
  | .dropped => 2

/-- R48: what an automatic submission meets. -/
def Engine.submission (e : Engine) : Submission :=
  match e.state with
  | .halted => .dropped
  | .idle => .taken
  | .working => if e.full then .dropped else .queued

/-- R48: the automatic REDUCE of a record. -/
def automaticReduce (i : Nat) : Job := { kind := .reduce i, origin := .automatic, tag := 0 }

/-- R48: the record gains UNQUEUED. -/
def State.setUnqueued (s : State) (i : Nat) : State :=
  match s.occ? i with
  | some o => s.putOcc i { o with flags := { o.flags with unqueued := true } }
  | none => s

/-- R48: the last step of a close. -/
def State.submitAutomatic (s : State) (i : Nat) : State :=
  match s.engine.submission with
  | .dropped => (s.setUnqueued i).raise .queueOverflow
  | _ => { s with engine := s.engine.place (automaticReduce i) }

/-! ### Entering COLLECTING (R38) -/

/-- R38: the window as it enters COLLECTING at an epoch, with the front end's held values. -/
def Window.collect (w : Window) (epoch revision : Nat) (f : FrontEnd) : Window :=
  { w with
    phase := .collecting epoch 0 revision
    sums := { w.sums with lastX := f.heldX, lastY := f.heldY, lastT := f.heldT, lastL := f.lag } }

/-- The record of the window takes a state, without a read of its contents. -/
def State.setOccState (s : State) (i : Nat) (st : OccState) : State :=
  match s.occ? i with
  | some o => s.putOcc i { o with state := st }
  | none => s

/-- R38, R170: the window enters COLLECTING; the revision is stored as read. -/
def State.enterCollecting (s : State) (w : Window) : State :=
  let s := s.checkConstants false
  { s.setOccState w.occ .collecting with window := some (w.collect s.epoch s.constants.revision s.front) }

/-! ### Removal of the window record (R49) -/

/-- R52: the last-window record of a window that ends now. -/
def lastWindowOf (w : Window) (outcome : WindowOutcome) (cause : WindowCause) (epoch : Nat) : LastWindow :=
  { occ := w.occ, station := w.station, outcome := outcome, cause := cause, n := w.sums.n, epoch := epoch }

/-- R49: the window ends without a close. `ways` are those whose lists lose the record. -/
def State.removeWindow (s : State) (w : Window) (ways : List Nat) (cause : WindowCause) : State :=
  { s.freeOcc ways w.occ with
    window := none
    lastWindow := some (lastWindowOf w .aborted cause s.epoch) }.raise .windowAborted

/-! ### The close (R47) -/

/-- R47, step 1: Σt is never negative, so a half rounds up. -/
def closeEpoch (startTick sumT n : Nat) : Nat := startTick + (2 * sumT + n) / (2 * n)

/-- R3, R47: a listed occupation counts as having an epoch not later than the given one. -/
def State.notLater (s : State) (epoch : Nat) (j : Nat) : Bool :=
  match s.occ? j with
  | some o => o.damaged || (match o.reading with | some r => r.epoch ≤ epoch | none => false)
  | none => false

/-- The index put after the last entry that satisfies `p`, at the head when none does. -/
def insertAfterLast (p : Nat → Bool) (i : Nat) (l : List Nat) : List Nat :=
  let tail := (l.reverse.takeWhile (fun j => !p j)).reverse
  l.take (l.length - tail.length) ++ i :: tail

/-- R3: the record's place in a list once its epoch is known. -/
def placeByEpoch (p : Nat → Bool) (i : Nat) (l : List Nat) : List Nat :=
  let before := l.takeWhile (· ≠ i)
  if before.all p then l else insertAfterLast p i before ++ (l.dropWhile (· ≠ i)).drop 1

/-- R47, step 5: the list of the record's station, with the mark; a damaged entry is not written. -/
def State.placeInList (s : State) (number i epoch : Nat) : State :=
  let s := s.checkStations (waysOf number)
  match s.ownerOf number i with
  | some way =>
    match s.station? way with
    | some e =>
      if e.damaged then s
      else
        let s := s.checkOccs (e.list.filter (· ≠ i))
        s.putChanged way { e with list := placeByEpoch (s.notLater epoch) i e.list }
    | none => s
  | none => s

/-- R47, steps 2 to 4: the record as the close writes it. -/
def closedOcc (o : Occ) (w : Window) (silence : Bool) (startTick revision : Nat) : Occ :=
  { o with
    state := .pending
    reading := some { startTick := startTick, epoch := closeEpoch startTick w.sums.sumT w.sums.n,
                      openRevision := revision, sums := w.sums }
    flags := closeFlags w silence }

/-- R47 with n ≥ 1, up to the raising of WINDOW_CLOSED. -/
def State.writeClose (s : State) (w : Window) (startTick revision : Nat) (cause : WindowCause) : State :=
  let s := match s.occ? w.occ with
    | some o => s.putOcc w.occ (closedOcc o w (cause = WindowCause.silence) startTick revision)
    | none => s
  { s.placeInList w.station w.occ (closeEpoch startTick w.sums.sumT w.sums.n) with
    window := none
    lastWindow := some (lastWindowOf w .closed cause s.epoch) }.raise .windowClosed

/-- R47: the close of a window in COLLECTING, as one access. -/
def State.closeWindow (s : State) (w : Window) (startTick revision : Nat) (cause : WindowCause) : State :=
  if w.sums.n = 0 then s.removeWindow w (waysOf w.station) cause
  else (s.writeClose w startTick revision cause).submitAutomatic w.occ

/-! ### Counts that complete (R37, R44, R69) -/

/-- R37: the settle count stands at zero. -/
def State.settleDue (s : State) : Bool :=
  match s.window with
  | some w => w.phase = .settling 0
  | none => false

/-- R37: the settle count's zero is taken. -/
def State.takeSettle (s : State) : State :=
  match s.window with
  | some w => if w.phase = .settling 0 then s.enterCollecting w else s
  | none => s

/-- R44: the elapsed count has reached D × 1,024. -/
def Window.complete (w : Window) : Bool :=
  match w.phase with
  | .collecting _ elapsed _ => elapsed ≥ w.duration * Config.ticksPerSecond
  | .settling _ => false

/-- R44: the completed elapsed count is taken. -/
def State.takeElapsed (s : State) : State :=
  match s.window with
  | some w =>
    match w.phase with
    | .collecting start elapsed rev =>
      if elapsed ≥ w.duration * Config.ticksPerSecond then s.closeWindow w start rev .duration else s
    | .settling _ => s
  | none => s

/-- R46: the change to SILENT closes a window in COLLECTING. -/
def State.silenceWindow (s : State) : State :=
  match s.window with
  | some w =>
    match w.phase with
    | .collecting start _ rev => s.closeWindow w start rev .silence
    | .settling _ => s
  | none => s

/-- R69: the completed silence count is taken. -/
def State.takeSilence (s : State) : State :=
  match s.front.live with
  | some g =>
    if s.mainRuns ∧ g.silence ≥ Config.silenceLimit then
      { s with front := { s.front with live := none } }.silenceWindow
    else s
  | none => s

end Sys2Proof.Machine
end

