-- ==== Sys2Proof/Machine/Clock.lean ====
section
/-! DEFINITION. The survey clock (spec/09, R176 to R180), the counts its ticks drive (R37, R38, R69), and
the expiry check of the loop table (R114). -/

namespace Sys2Proof.Machine

/-! ### Expiry (R114) -/

/-- R114: the clock stands at or past the deadline of a sound loop in OPEN. -/
def State.expiring (s : State) (l : Nat) : Bool :=
  match s.loop? l with
  | some r => r.state = .opened && !r.damaged && r.deadline ≤ s.epoch
  | none => false

/-- R114: the loops in OPEN. -/
def State.openLoops (s : State) : List Nat :=
  (slotKeys s.loops).filter fun l =>
    match s.loop? l with
    | some r => r.state = .opened
    | none => false

/-- R114, R111: the expiry check reads the loops in OPEN, and those at or past their deadlines are due
(log 5). -/
def State.expiryCheck (s : State) : State :=
  let s := s.openLoops.foldl State.checkLoop s
  { s with expiryDue := s.openLoops.filter s.expiring }

/-- R114, R111: a loop that is due is read, and becomes EXPIRED unless it is damaged. -/
def State.takeExpiry (s : State) (l : Nat) : State :=
  if s.expiryDue.contains l then
    let s := { s with expiryDue := s.expiryDue.filter (· ≠ l) }.checkLoop l
    match s.loop? l with
    | some r =>
      if s.expiring l then (s.putLoop l { r with state := .expired }).raise .loopExpired else s
    | none => s
  else s

/-- LOOP_EXPIRED (R114, R115). -/
def execLoopExpired (l : Nat) (s : State) : Host.Outcome State Fault Refusal :=
  blockEvent (fun s => s.takeExpiry l) s

/-- What is due and not yet taken comes before the next tick (log 5). -/
def State.takeDue (s : State) : State :=
  let s := s.takeSettle.takeElapsed.takeSilence
  s.expiryDue.foldl State.takeExpiry s

/-! ### Ticks (R176) -/

/-- R176: one tick of the time itself; the held mark is set as the seconds reach their top value. -/
def Clock.tick (c : Clock) : Clock :=
  if c.ticks < 1023 then { c with ticks := c.ticks + 1 }
  else { c with ticks := 0, seconds := c.seconds + 1, held := decide (c.seconds + 1 = Config.topSeconds) }

/-- R37, R38: one tick of the window's count; it stands still while CLAMP is asserted. -/
def Window.tick (w : Window) (clamp : Bool) : Window :=
  if clamp then w
  else match w.phase with
    | .settling c => { w with phase := .settling (c - 1) }
    | .collecting st el rev => { w with phase := .collecting st (el + 1) rev }

/-- R69: one tick of the silence count. -/
def FrontEnd.tick (f : FrontEnd) : FrontEnd :=
  { f with live := f.live.map fun g => { g with silence := g.silence + 1 } }

/-- R176: one delivered tick and all it drives; in standby the expiry check alone receives it (R180). -/
def State.tick (s : State) : State :=
  let s := s.takeDue
  let s := { s with
    clock := s.clock.tick
    window := s.window.map fun w : Window => w.tick s.clamp
    front := if s.mainRuns then s.front.tick else s.front }
  s.expiryCheck

/-- R178: a period that slews forward or back. -/
def Clock.slews (c : Clock) : Bool := c.trim ≠ 0 && c.slew + 1 ≥ 64

/-- R178: the slew count of a period that does not slew. -/
def Clock.count (c : Clock) : Clock := if c.trim = 0 then c else { c with slew := c.slew + 1 }

/-- R178: the remainder worked off by one tick; with none left the slew count stays at 0. -/
def Clock.workOff (c : Clock) : Clock := { c with trim := if c.trim > 0 then c.trim - 1 else c.trim + 1, slew := 0 }

def State.setClock (s : State) (c : Clock) : State := { s with clock := c }

/-- R178: the slew of a base period, with the first tick of a forward one. What the end of the period has yet to
deliver is left; a first tick that sets the held mark is the last (R176, log 26). -/
def State.slew (s : State) : State :=
  if s.clock.trim > 0 then
    let s := s.tick
    if s.clock.held then s else s.setClock { s.clock.workOff with left := some 1 }
  else s.setClock { s.clock.workOff with left := some 0 }

/-- R178: what the end of a slewing base period delivers, its slew taken. -/
def State.finishSlew (s : State) : State :=
  match s.clock.left with
  | some 0 => s.setClock { s.clock with left := none }
  | some _ => (s.setClock { s.clock with left := none }).tick
  | none => s

/-- R176, R178, R114: the end of a base period. A period that slews, and whose slew has not been taken, takes it here:
the second of two ticks then follows the first with nothing between them. -/
def State.basePeriod (s : State) : State :=
  if s.clock.held then s.takeDue.expiryCheck
  else if s.clock.left.isSome then s.finishSlew
  else if s.clock.slews then s.slew.finishSlew
  else (s.setClock s.clock.count).tick

/-- BASE_PERIOD_END (R176, R178). -/
def execBasePeriodEnd (s : State) : Host.Outcome State Fault Refusal :=
  blockEvent State.basePeriod s

/-- R178: the slew count reaches 64 in the base period that ends next. The rows between this one and the end of the
period come after the first of two ticks and before the second (log 6, log 47). -/
def State.slewComplete (s : State) : State :=
  if !s.clock.held && s.clock.left.isNone && s.clock.slews then s.slew else s

/-- SLEW_COUNT_COMPLETE (R178; log 6). -/
def execSlewCountComplete (s : State) : Host.Outcome State Fault Refusal :=
  blockEvent State.slewComplete s

/-! ### The clock's commands (R177 to R179) -/

/-- R177: the clock as set. What the base period in progress had yet to deliver is dropped (DESIGN CHOICE, log 6). -/
def Clock.setTo (c : Clock) (seconds ticks : Nat) : Clock :=
  { c with seconds := seconds, ticks := ticks, isSet := true, trim := 0, slew := 0, left := none,
           held := decide (seconds = Config.topSeconds) }

def setClockBody (seconds ticks : Nat) (s : State) : State :=
  if !(seconds ≤ Config.topSeconds) || !(ticks < 1024) then s.refuse .badValue
  else if s.clock.isSet && !s.occs.isEmpty then s.refuse .busy
  else
    let s := { s with clock := s.clock.setTo seconds ticks }
    s.respond .ok (u48 s.epoch)

/-- SET CLOCK (R177). -/
def execSetClock (seconds ticks : Nat) (s : State) : Host.Outcome State Fault Refusal :=
  hostCommand (.setClock seconds ticks) .readyRestore (setClockBody seconds ticks) s

/-- R178: the trim is replaced. What the base period in progress has yet to deliver stands (DESIGN CHOICE, log 6). -/
def trimClockBody (trim : Int) (s : State) : State :=
  if !inRange (-2048) 2048 trim then s.refuse .badValue
  else if !s.clock.isSet then s.refuse .clockUnset
  else { s with clock := { s.clock with trim := trim, slew := 0 } }.respond .ok (u48 s.epoch)

/-- TRIM CLOCK (R178). -/
def execTrimClock (trim : Int) (s : State) : Host.Outcome State Fault Refusal :=
  hostCommand (.trimClock trim) .ready (trimClockBody trim) s

def readClockBody (s : State) : State := s.respond .ok (clockBytes s.clock)

/-- READ CLOCK (R179). -/
def execReadClock (s : State) : Host.Outcome State Fault Refusal :=
  hostCommand .readClock .readyRestore readClockBody s

end Sys2Proof.Machine
end

