-- ==== Sys2Proof/Machine/Derive.lean ====
section
/-! DEFINITION. The stale marks that host reads and exports derive (R103 to R105). -/

namespace Sys2Proof.Machine

/-- R103: the tide mark of results, from the site that the station names. -/
def tideStaleAt (r : Results) (number : Nat) (site : Site) : Bool :=
  r.site ≠ number || site.damaged || r.siteRevision ≠ site.revision

/-- R103, R105: the tide mark at a host read; `station` is the entry, absent when it is unusable. -/
def State.tideMark (s : State) (station : Option Station) (r : Results) : State × Bool :=
  match station with
  | some e =>
    let s := s.checkSite e.site
    (s, tideStaleAt r e.site (s.site e.site))
  | none => (s, true)

/-- R104, R170: the constants mark at a host read. -/
def State.constantsMark (s : State) (r : Results) : State × Bool :=
  let s := s.checkConstants false
  (s, s.constants.damaged || r.revision ≠ s.constants.revision)

/-- R105: both marks of a record; a record without results has none. -/
def State.staleMarks (s : State) (station : Option Station) (o : Occ) : State × (Bool × Bool) :=
  match o.results with
  | some r =>
    let p := s.tideMark station r
    let q := p.1.constantsMark r
    (q.1, p.2, q.2)
  | none => (s, false, false)

/-- R105: the marks at READ OCCUPATION, through the internal lookup. -/
def State.lookupMarks (s : State) (o : Occ) : State × (Bool × Bool) :=
  if o.results.isSome then
    match s.internalLookup o.station with
    | (s, some w) => s.staleMarks (s.station? w) o
    | (s, none) => s.staleMarks none o
  else (s, false, false)

end Sys2Proof.Machine
end

