-- ==== Sys2Proof/Machine/EngineOps.lean ====
section
/-! DEFINITION. What the steps of the reduction engine share: its reads, which halt it (R148), one
reduction (R85), the drift figures (R119, R120), the progress of a job (R138) and its completion (R139). -/

namespace Sys2Proof.Machine

/-! ### Reads of the engine (R2, R8, R32, R92, R111, R148) -/

/-- R8, R148: the ways of a number's set are read, in way order. The first that newly fails halts the engine, the others unread
(DESIGN CHOICE, log 18). -/
def readWays : List Nat → State → Except RecordId State
  | [], s => .ok s
  | w :: ws, s =>
    match s.station? w with
    | some e =>
      if e.sound then readWays ws s
      else if e.damaged then readWays ws (s.raise .memoryError)
      else .error (.station w)
    | none => readWays ws s

/-- R8: the engine's internal lookup: the way of a usable station. -/
def engineLookup (s : State) (number : Nat) : Except RecordId (State × Option Nat) := do
  let s ← readWays (waysOf number) s
  .ok (s, s.usable number)

/-- R32: the read of a record without the mark. -/
def readOcc (i : Nat) (o : Occ) : Except RecordId Unit := if o.sound then .ok () else .error (.occupation i)

/-- R118, R121, R131: the read of an endpoint or a member, which halts on the mark too. -/
def needOcc (s : State) (i : Nat) : Except RecordId (Option Occ) :=
  match s.occ? i with
  | some o => if o.sound ∧ ¬o.damaged then .ok (some o) else .error (.occupation i)
  | none => .ok none

/-- R118, R131: the read of a loop by its CLOSE or its recomputation. -/
def needLoop (s : State) (l : Nat) : Except RecordId (Option Loop) :=
  match s.loop? l with
  | some r => if r.sound ∧ ¬r.damaged then .ok (some r) else .error (.loop l)
  | none => .ok none

/-- R170: the read of the constants. -/
def needConstants (s : State) : Except RecordId Constants :=
  if s.constants.sound ∧ ¬s.constants.damaged then .ok s.constants else .error .constants

/-- R99: the read of a site. -/
def needSite (s : State) (k : Nat) : Except RecordId Site :=
  let c := s.site k
  if c.sound ∧ ¬c.damaged then .ok c else .error (.site k)

/-- R99: the read of the constituent entries. They are read in number order, and the first that fails is the failing record,
the others unread (DESIGN CHOICE, log 18). -/
def needConstituents (s : State) : List Nat → Except RecordId Unit
  | [] => .ok ()
  | k :: ks =>
    let c := s.constituent k
    if c.sound ∧ ¬c.damaged then needConstituents s ks else .error (.constituent k)

/-- R99: the tide answer: absent for an EMPTY site. -/
def tideAnswer (s : State) (site : Site) (epoch : Nat) : Except RecordId (Option Int) := do
  if site.set then
    needConstituents s (List.range Config.constituents)
    .ok (some (tideValue s.constituents.toList site epoch))
  else .ok none

/-! ### One reduction (R76, R85) -/

/-- R85: the reduction of a record, with its inputs read first (log 18). The answer tells whether it was
made: not so when the station is unusable. -/
def reduceRecord (s : State) (i : Nat) (o : Occ) : Except RecordId (State × Bool) := do
  readOcc i o
  let c ← needConstants s
  let (s, way) ← engineLookup s o.station
  match way.bind fun w => (s.station? w).map fun e => (w, e), o.reading with
  | some (w, e), some m =>
    let site ← needSite s e.site
    let tide ← tideAnswer s site m.epoch
    .ok ((s.putOcc i (reducedOcc o c m.sums tide e.site site.revision)).markChanged w, true)
  | _, _ => .ok (s, false)

/-- R87, R111: the loop table is read for the CLOSED loops of which the record is an endpoint. It is read in number order, and
the first that newly fails halts the engine, the others unread (DESIGN CHOICE, log 18). -/
def closedLoopsOf (i : Nat) : List Nat → State → Except RecordId (State × List Nat)
  | [], s => .ok (s, [])
  | l :: ls, s =>
    match s.loop? l with
    | some r =>
      if r.damaged then closedLoopsOf i ls (s.raise .memoryError)
      else if r.sound then do
        let (s, found) ← closedLoopsOf i ls s
        .ok (s, if r.state = .closed ∧ (r.openEnd = i ∨ r.closing = some i) then l :: found else found)
      else .error (.loop l)
    | none => closedLoopsOf i ls s

/-- R121: the station of a member is marked through the internal lookup, and not when it is unusable. -/
def markMember (s : State) (number : Nat) : Except RecordId State := do
  let (s, way) ← engineLookup s number
  match way with
  | some w => .ok (s.markChanged w)
  | none => .ok s

/-! ### The ΔV figures (R119, R120) -/

/-- R119: a reference value through the internal lookup; absent when the station is unusable. -/
def referenceOf (s : State) (number : Nat) : Except RecordId (State × Option Nat) := do
  let (s, way) ← engineLookup s number
  .ok (s, (way.bind s.station?).bind (·.reference))

/-- The corrected value of an endpoint (log 20 where a loaded record holds none). -/
def endValue (i : Nat) (o : Occ) : Int :=
  match o.results with
  | some r => r.v
  | none => saturate (Config.missingV i)

/-- The epoch of an endpoint or a member, which every record out of its window holds (R29). -/
def endEpoch (o : Occ) : Nat :=
  match o.reading with
  | some m => m.epoch
  | none => 0

/-- R119, R120: the figures of a loop from its endpoints, references and drift limit. -/
def driftCalc (mode : CloseMode) (i j : Nat) (o p : Occ) (ro rc : Option Nat) (limit : Int) : DriftCalc :=
  let dv := deltaVExact mode (o.station = p.station) (endValue i o) (endValue j p) (ro.getD 0) (rc.getD 0)
  let rate := exactRate mode dv (endEpoch o) (endEpoch p)
  { deltaV := dv, rate := rate, high := decide (limit < (rate.natAbs : Int)), tOpen := endEpoch o, tClose := endEpoch p,
    vOpen := endValue i o, rOpen := ro, mode := mode }

/-- R119: the two stations' references must be there for endpoints at different stations in mode DRIFT. -/
def needsTie (mode : CloseMode) (o p : Occ) : Bool := mode = .drift && o.station ≠ p.station

/-- R119, R120: the ΔV step of a loop on its recorded endpoints and mode; absent when a needed station is
unusable or without a reference, or an endpoint is gone. The endpoints are read first, then the station of each that the step
needs, then the constants, which stay unread where the step is absent (DESIGN CHOICE, log 18). -/
def deltaV (s : State) (r : Loop) : Except RecordId (State × Option DriftCalc) := do
  let o ← needOcc s r.openEnd
  let p ← match r.closing with
    | some j => needOcc s j
    | none => .ok none
  match o, p, r.closing, r.mode with
  | some o, some p, some j, some mode =>
    let (s, ro) ← referenceOf s o.station
    let (s, rc) ← if needsTie mode o p then referenceOf s p.station else .ok (s, none)
    if needsTie mode o p && !(ro.isSome && rc.isSome) then .ok (s, none)
    else
      let c ← needConstants s
      .ok (s, some (driftCalc mode r.openEnd j o p ro rc c.nums.driftLimit))
  | _, _, _, _ => .ok (s, none)

/-- R120: the loop's DRIFT_HIGH flag and the event. -/
def State.noteRate (s : State) (l : Nat) (r : Loop) (d : DriftCalc) : State :=
  let s := s.putLoop l { r with driftHigh := d.high }
  if d.high then s.raise .driftHigh else s

/-- R122, R131: ΔV and the rate are stored, saturated. -/
def storeDrift (r : Loop) (d : DriftCalc) : Loop :=
  { r with deltaV := some (saturate d.deltaV), rate := some (saturate d.rate) }

/-- R121: a member's drift part is written and its station marked. -/
def writeDrift (s : State) (i : Nat) (o : Occ) (d : DriftCalc) : Except RecordId State :=
  markMember (s.putOcc i (driftedOcc o d (endValue i o) (endEpoch o))) o.station

/-! ### Progress and completion (R138 to R141) -/

/-- R121, R131: the next member in list order: the first of the list as it stands that the walk has not taken. -/
def nextMember (r : Loop) (walked : List Nat) : Option Nat := r.members.find? fun i => !walked.contains i

/-- R141: the written mark of an index. -/
def Flight.mark (f : Flight) (i : Nat) : Flight :=
  if f.written.contains i then f else { f with written := i :: f.written }

def Flight.marks (f : Flight) (is : List Nat) : Flight := is.foldl Flight.mark f

/-- R140, R147: the result of a walk that has made its last visit; one that updated no record and could not make a
recomputation ends UNUSABLE (log 52). -/
def Flight.walkResult (f : Flight) : JobResult :=
  if f.unusable then .unusable else if f.written = [] then .nothing else .done

/-- R142, R147: a job without steps left ends with its result. -/
def Flight.settle (f : Flight) : Flight :=
  if f.recomp ≠ [] then f
  else match f.place with
    | .reduced => { f with ending := some (if f.unusable then .unusable else .done) }
    | .way id => if id < Config.ways then f else { f with ending := some f.walkResult }
    | .index i => if i < Config.poolSize then f else { f with ending := some f.walkResult }
    | _ => f

/-- R131: the recomputation in progress ends, and the next one or the walk goes on. -/
def Flight.pop (f : Flight) : Flight := { f with recomp := f.recomp.drop 1, walk := none, drift := none }.settle

def Flight.goTo (f : Flight) (p : Place) : Flight := { f with place := p }.settle

def Flight.endWith (f : Flight) (r : JobResult) : Flight := { f with ending := some r }

/-- R148: what a step answers: the state and the progress after it, or the failing record with the
progress at the failing step. -/
abbrev StepResult := Except (RecordId × Flight) (State × Flight)

/-- A read that fails stops the step at the given progress. -/
def halting {α : Type} (f : Flight) (x : Except RecordId α) : Except (RecordId × Flight) α := x.mapError fun r => (r, f)

/-- R148: the halt, as one access. -/
def State.halt (s : State) (failed : RecordId) (f : Flight) : State :=
  let s := s.failRecord failed
  { s with engine := { s.engine with state := .halted, flight := some f, fault := some { flight := f, failed := failed } } }.raise
    .engineHalted

def State.setFlight (s : State) (f : Flight) : State := { s with engine := { s.engine with flight := some f } }

/-- R138, R148: one step of the job in flight, where it is the step the job takes next. -/
def State.engineStep (due : Flight → Bool) (body : State → Flight → StepResult) (s : State) : State :=
  match s.engine.state, s.engine.flight with
  | .working, some f =>
    if f.ending.isNone && due f then
      match body s f with
      | .ok (s', f') => s'.setFlight f'
      | .error (r, f') => s.halt r f'
    else s
  | _, _ => s

/-- R139: the completion of the job in flight, as one access. -/
def State.completeJob (s : State) (f : Flight) (r : JobResult) : State :=
  let last : LastJob := { job := f.job, result := r, count := f.written.length, epoch := s.epoch }
  let s := s.raise .jobDone
  match s.engine.queue with
  | j :: rest =>
    let s := { s with engine := { s.engine with flight := some (startFlight j), queue := rest, last := some last } }
    if rest = [] then s.raise .queueDrained else s
  | [] => { s with engine := { s.engine with state := .idle, flight := none, last := some last } }.raise .engineIdle

end Sys2Proof.Machine
end

