-- ==== Sys2Proof/Machine/Engine.lean ====
section
/-! DEFINITION. The reduction engine's steps and its commands (spec/06, R118 to R123 and R131; spec/07). -/

namespace Sys2Proof.Machine

/-! ### Submitting (R136, R137) -/

def submitJobBody (kind target tag : Nat) (s : State) : State :=
  match submittedKind kind target with
  | none => s.refuse .badValue
  | some k =>
    if !(tag < 256) then s.refuse .badValue
    else if s.engine.state = .halted then s.refuse .engineHalted
    else if s.engine.full then s.refuse .queueFull
    else
      let job : Job := { kind := k, origin := .host, tag := tag }
      { s with engine := s.engine.place job }.respond .ok (u8 s.engine.position)

/-- SUBMIT JOB (R136, R137). -/
def execSubmitJob (kind target tag : Nat) (s : State) : Host.Outcome State Fault Refusal :=
  hostCommand (.submitJob kind target tag) .ready (submitJobBody kind target tag) s

/-! ### REDUCE (R142) -/

/-- R85, R87: a reduction by a REDUCE or a walk: the record's written mark, and the loops to recompute. -/
def reduceAndFind (s : State) (f : Flight) (i : Nat) (o : Occ) : Except RecordId (State × Flight × Bool) := do
  let (s, made) ← reduceRecord s i o
  if made then
    let (s, ls) ← closedLoopsOf i (slotKeys s.loops) s
    .ok (s, { f.mark i with recomp := ls }, true)
  else .ok (s, f, false)

/-- R142: the first step of a REDUCE. A record found SETTLING or COLLECTING is read too, and halts the engine where it
fails its check (DESIGN CHOICE, log 58). -/
def reduceBody (s : State) (f : Flight) : StepResult :=
  match f.job.kind with
  | .reduce i =>
    match s.occ? i with
    | none => .ok (s, f.endWith .gone)
    | some o =>
      if o.damaged then .ok (s, f.endWith .unusable)
      else halting f do
        readOcc i o
        if o.state = .settling ∨ o.state = .collecting then .ok (s, f.endWith .gone)
        else
          let (s, f, made) ← reduceAndFind s f i o
          .ok (s, if made then f.goTo .reduced else f.endWith .unusable)
  | _ => .ok (s, f)

def atReduce (f : Flight) : Bool := f.recomp = [] && f.place = .reducing

/-- REDUCE_STEP (R142). -/
def execReduceStep (s : State) : Host.Outcome State Fault Refusal :=
  blockEvent (State.engineStep atReduce reduceBody) s

/-! ### CLOSE (R118 to R123) -/

/-- R123: the close is undone and the job ends UNUSABLE, its count including the records the undoing
wrote. Until its completion the job's progress is the step that undid it (DESIGN CHOICE, log 11). -/
def undoUnusable (s : State) (f : Flight) (l : Nat) : State × Flight :=
  let p := s.undoClose l
  (p.1, (f.marks p.2).endWith .unusable)

/-- R118: the endpoint to reduce inline, or the ΔV step. -/
def afterOpen (closing : Option Occ) : Place :=
  match closing with
  | some p => if p.state = .pending then .inlineClosing else .deltaV
  | none => .deltaV

/-- R118: the endpoints of a loop as the job reads them. -/
def readEndpoints (s : State) (r : Loop) : Except RecordId (Option Occ × Option Occ) := do
  let o ← needOcc s r.openEnd
  let p ← match r.closing with
    | some j => needOcc s j
    | none => .ok none
  .ok (o, p)

/-- A step of a CLOSE job on its loop, where that is CLOSING. Otherwise the job ends UNUSABLE, its progress at this step until
its completion (DESIGN CHOICE, log 11). -/
def onClosing (s : State) (f : Flight) (body : Nat → Loop → StepResult) : StepResult :=
  match f.job.kind with
  | .close l => do
    match ← halting f (needLoop s l) with
    | some r => if r.state = .closing then body l r else .ok (s, f.endWith .unusable)
    | none => .ok (s, f.endWith .unusable)
  | _ => .ok (s, f)

/-- R118: the loop check. -/
def loopCheckBody (s : State) (f : Flight) : StepResult :=
  onClosing s f fun l r => do
    match ← halting f (readEndpoints s r) with
    | (some o, some p) => .ok (s, f.goTo (if o.state = .pending then .inlineOpen else afterOpen (some p)))
    | _ => .ok (undoUnusable s f l)

def atLoopCheck (f : Flight) : Bool := f.place = .loopCheck

/-- CLOSE_LOOP_CHECK (R118). -/
def execCloseLoopCheck (s : State) : Host.Outcome State Fault Refusal :=
  blockEvent (State.engineStep atLoopCheck loopCheckBody) s

/-- R118: one endpoint is reduced inline. -/
def inlineOne (s : State) (f : Flight) (l i : Nat) (o : Occ) (next : Place) : StepResult := do
  let (s, made) ← halting f (reduceRecord s i o)
  .ok (if made then (s, (f.mark i).goTo next) else undoUnusable s f l)

/-- R118: the inline reduction due now. The step reads the loop and both endpoints again, and halts at any of them
(log 18). -/
def inlineBody (s : State) (f : Flight) : StepResult :=
  onClosing s f fun l r => do
    match ← halting f (readEndpoints s r), r.closing with
    | (some o, some p), some j =>
      if f.place = .inlineOpen then
        inlineOne s f l r.openEnd o (if r.openEnd = j then .deltaV else afterOpen (some p))
      else inlineOne s f l j p .deltaV
    | _, _ => .ok (undoUnusable s f l)

def atInline (f : Flight) : Bool := f.place = .inlineOpen || f.place = .inlineClosing

/-- INLINE_REDUCTION (R118, R85). -/
def execInlineReduction (s : State) : Host.Outcome State Fault Refusal :=
  blockEvent (State.engineStep atInline inlineBody) s

/-- R119, R120: the ΔV step of a CLOSE. -/
def deltaVBody (s : State) (f : Flight) : StepResult :=
  onClosing s f fun l r => do
    let (s, d) ← halting f (deltaV s r)
    match d with
    | some d => .ok (s.noteRate l r d, { f with drift := some d }.goTo (.member []))
    | none => .ok (undoUnusable s f l)

def atDeltaV (f : Flight) : Bool := f.place = .deltaV

/-- DELTA_V_STEP (R119, R120). -/
def execDeltaVStep (s : State) : Host.Outcome State Fault Refusal :=
  blockEvent (State.engineStep atDeltaV deltaVBody) s

/-- R121, R122: where the job stands after the members walked. -/
def afterMember (r : Loop) (walked : List Nat) : Place :=
  if (nextMember r walked).isSome then .member walked else .completion

/-- R121: a record that a member step writes nothing to. -/
def keepsDrift (o : Occ) : Bool := o.state = .final || o.state = .settling || o.state = .collecting

/-- R121: one member of a CLOSE. -/
def closeMember (s : State) (f : Flight) (l i : Nat) (o : Occ) (d : DriftCalc) (next : Place) : StepResult := do
  if keepsDrift o then .ok (s, f.goTo next)
  else
    let (s, made) ← if o.state = .pending then halting f (reduceRecord s i o) else .ok (s, true)
    if made then
      match s.occ? i with
      | some o => .ok (← halting f (writeDrift s i o d), (f.mark i).goTo next)
      | none => .ok (s, f.goTo next)
    else .ok (undoUnusable s f l)

/-- R121: the member step of a CLOSE. -/
def memberBody (s : State) (f : Flight) : StepResult :=
  onClosing s f fun l r =>
    match f.place, f.drift with
    | .member walked, some d =>
      match nextMember r walked with
      | some i => do
        let next := afterMember r (walked ++ [i])
        match ← halting f (needOcc s i) with
        | some o => closeMember s f l i o d next
        | none => .ok (s, f.goTo next)
      | none => .ok (s, f.goTo .completion)
    | _, _ => .ok (s, f)

def atMember (f : Flight) : Bool :=
  match f.place with
  | .member _ => true
  | _ => false

/-- MEMBER_STEP (R121). -/
def execMemberStep (s : State) : Host.Outcome State Fault Refusal :=
  blockEvent (State.engineStep atMember memberBody) s

/-- R122: the loop becomes CLOSED with ΔV and its rate, and the job completes, in one access. -/
def State.closeCompletion (s : State) : State :=
  match s.engine.state, s.engine.flight with
  | .working, some f =>
    match f.ending, f.place, f.job.kind, f.drift with
    | none, .completion, .close l, some d =>
      let s := match s.loop? l with
        | some r => if r.state = LoopState.closing then s.putLoop l { storeDrift r d with state := .closed } else s
        | none => s
      s.completeJob f .done
    | _, _, _, _ => s
  | _, _ => s

/-- CLOSE_COMPLETION (R122, R139). -/
def execCloseCompletion (s : State) : Host.Outcome State Fault Refusal :=
  blockEvent State.closeCompletion s

/-! ### Recomputation of a CLOSED loop (R131) -/

/-- A step of a recomputation on its loop, while that is CLOSED; a loop no longer so is not recomputed
(R146). -/
def onClosed (s : State) (f : Flight) (body : Nat → Loop → StepResult) : StepResult :=
  match f.recomp with
  | l :: _ => do
    match ← halting f (needLoop s l) with
    | some r => if r.state = .closed then body l r else .ok (s, f.pop)
    | none => .ok (s, f.pop)
  | [] => .ok (s, f)

/-- R131: the last member step, after which the loop stores the new ΔV and rate. -/
def finishRecompute (s : State) (f : Flight) (l : Nat) (d : DriftCalc) : State × Flight :=
  (match s.loop? l with
   | some r => s.putLoop l (storeDrift r d)
   | none => s, f.pop)

/-- R131: the next member step after the members walked, or the end. -/
def nextRecompute (s : State) (f : Flight) (l : Nat) (r : Loop) (d : DriftCalc) (walked : List Nat) : State × Flight :=
  if (nextMember r walked).isSome then (s, { f with walk := some walked, drift := some d }) else finishRecompute s f l d

/-- R131: the ΔV step of a recomputation. -/
def recomputeDeltaVBody (s : State) (f : Flight) : StepResult :=
  onClosed s f fun l r => do
    let (s, d) ← halting f (deltaV s r)
    match d with
    | some d => .ok (nextRecompute (s.noteRate l r d) f l r d [])
    | none => .ok (s, { f with unusable := true }.pop)

def atRecomputeDeltaV (f : Flight) : Bool := f.recomp ≠ [] && f.walk.isNone

/-- RECOMPUTE_DELTA_V_STEP (R131). -/
def execRecomputeDeltaVStep (s : State) : Host.Outcome State Fault Refusal :=
  blockEvent (State.engineStep atRecomputeDeltaV recomputeDeltaVBody) s

/-- R131: the member step of a recomputation, which reduces nothing. -/
def recomputeMemberBody (s : State) (f : Flight) : StepResult :=
  onClosed s f fun l r =>
    match f.walk, f.drift with
    | some walked, some d =>
      match nextMember r walked with
      | some i => do
        let walked := walked ++ [i]
        match ← halting f (needOcc s i) with
        | some o =>
          if keepsDrift o || o.state = .pending then .ok (nextRecompute s f l r d walked)
          else
            let s ← halting f (writeDrift s i o d)
            .ok (nextRecompute s (f.mark i) l r d walked)
        | none => .ok (nextRecompute s f l r d walked)
      | none => .ok (finishRecompute s f l d)
    | _, _ => .ok (s, f)

def atRecomputeMember (f : Flight) : Bool := f.recomp ≠ [] && f.walk.isSome

/-- RECOMPUTE_MEMBER_STEP (R131). -/
def execRecomputeMemberStep (s : State) : Host.Outcome State Fault Refusal :=
  blockEvent (State.engineStep atRecomputeMember recomputeMemberBody) s

/-! ### RETIDE (R143, R144) -/

/-- R143: the way step. The entry is read before the lookup, so it is the failing record where a lower way of its set
fails too (DEDUCED, log 18). -/
def wayBody (s : State) (f : Flight) : StepResult :=
  match f.job.kind, f.place with
  | .retide site, .way id =>
    match s.station? id with
    | none => .ok (s, f.goTo (.way (id + 1)))
    | some e =>
      if e.state = .suspect ∨ e.damaged then .ok (s, f.goTo (.way (id + 1)))
      else if !e.sound then .error (.station id, f)
      else halting f do
        let (s, way) ← engineLookup s e.number
        .ok (s, f.goTo (if way = some id ∧ e.site = site then .occupation id e.number [] else .way (id + 1)))
  | _, _ => .ok (s, f)

def atWay (f : Flight) : Bool :=
  f.recomp = [] &&
    match f.place with
    | .way _ => true
    | _ => false

/-- RETIDE_WAY_STEP (R143). -/
def execRetideWayStep (s : State) : Host.Outcome State Fault Refusal :=
  blockEvent (State.engineStep atWay wayBody) s

/-- R144, R145: the results of a record that a walk may re-reduce: one REDUCED or FINAL. -/
def visitResults (o : Occ) : Option Results := if o.state = .reduced ∨ o.state = .final then o.results else none

/-- R103 to R105: the tide-stale and the constants-stale mark as a visit of a walk derives them; absent when the station
is unusable. Whichever mark the walk goes by, the station, its site and the constants are read, in this order, and a
failure of any of them halts the engine (log 54). -/
def engineMarks (s : State) (o : Occ) (r : Results) : Except RecordId (State × Option (Bool × Bool)) := do
  let (s, way) ← engineLookup s o.station
  match way.bind s.station? with
  | some e =>
    let site ← needSite s e.site
    let c ← needConstants s
    .ok (s, some (tideStaleAt r e.site site, decide (r.revision ≠ c.revision)))
  | none => .ok (s, none)

/-- R144, steps 3 to 6: the visit of a record. One whose station is unusable is tide-stale (R103), and its reduction writes
nothing (DEDUCED, log 54). -/
def retideVisit (s : State) (f : Flight) (i : Nat) : Except RecordId (State × Flight) :=
  match s.occ? i with
  | none => .ok (s, f)
  | some o =>
    if o.damaged then .ok (s, f)
    else do
      readOcc i o
      match visitResults o with
      | some r =>
        let (s, marks) ← engineMarks s o r
        match marks with
        | some (false, _) => .ok (s, f)
        | _ =>
          let (s, f, _) ← reduceAndFind s f i o
          .ok (s, f)
      | none => .ok (s, f)

/-- R144: the occupation step. A way that has taken the damaged mark since is left for the next, and fails its check again
where it fails it (R2; DEDUCED, log 54). -/
def occupationBody (s : State) (f : Flight) : StepResult :=
  match f.job.kind, f.place with
  | .retide site, .occupation id number visited =>
    match s.station? id with
    | none => .ok (s, f.goTo (.way (id + 1)))
    | some e =>
      if e.damaged then .ok (if e.sound then s else s.raise .memoryError, f.goTo (.way (id + 1)))
      else if !e.sound then .error (.station id, f)
      else if e.state = .active ∧ e.number = number ∧ e.site = site then
        match e.list.find? fun i => !visited.contains i with
        | some i =>
          let f := f.goTo (.occupation id number (visited ++ [i]))
          halting f (retideVisit s f i)
        | none => .ok (s, f.goTo (.way (id + 1)))
      else .ok (s, f.goTo (.way (id + 1)))
  | _, _ => .ok (s, f)

def atOccupation (f : Flight) : Bool :=
  f.recomp = [] &&
    match f.place with
    | .occupation _ _ _ => true
    | _ => false

/-- RETIDE_OCCUPATION_STEP (R144). -/
def execRetideOccupationStep (s : State) : Host.Outcome State Fault Refusal :=
  blockEvent (State.engineStep atOccupation occupationBody) s

/-! ### RECALC (R145) -/

/-- R145: the visit of a pool index. The record is read when its state calls for it, and with it what R105 names. -/
def recalcVisit (s : State) (f : Flight) (i : Nat) : Except RecordId (State × Flight) :=
  match s.occ? i with
  | none => .ok (s, f)
  | some o =>
    if o.damaged then .ok (s, f)
    else match visitResults o with
      | some r => do
        readOcc i o
        let (s, marks) ← engineMarks s o r
        match marks with
        | some (_, true) =>
          let (s, f, _) ← reduceAndFind s f i o
          .ok (s, f)
        | _ => .ok (s, f)
      | none => .ok (s, f)

/-- R145: the step of a RECALC. -/
def recalcBody (s : State) (f : Flight) : StepResult :=
  match f.place with
  | .index i => do
    let (s, f) ← halting f (recalcVisit s f i)
    .ok (s, f.goTo (.index (i + 1)))
  | _ => .ok (s, f)

def atIndex (f : Flight) : Bool :=
  f.recomp = [] &&
    match f.place with
    | .index _ => true
    | _ => false

/-- RECALC_STEP (R145). -/
def execRecalcStep (s : State) : Host.Outcome State Fault Refusal :=
  blockEvent (State.engineStep atIndex recalcBody) s

/-! ### Completion, restart and reading (R139, R150 to R153) -/

def State.jobCompletion (s : State) : State :=
  match s.engine.state, s.engine.flight with
  | .working, some f =>
    match f.ending with
    | some r => s.completeJob f r
    | none => s
  | _, _ => s

/-- JOB_COMPLETION (R139). -/
def execJobCompletion (s : State) : Host.Outcome State Fault Refusal :=
  blockEvent State.jobCompletion s

def readQueueBody (s : State) : State := s.respond .ok (engineBytes s.engine)

/-- READ QUEUE (R152). -/
def execReadQueue (s : State) : Host.Outcome State Fault Refusal :=
  hostCommand .readQueue .readyRestore readQueueBody s

/-- R150: the loop whose recomputation a RETIDE or RECALC halted in, if it is still CLOSED. The command does not read the loop:
one that carries the damaged mark counts by its stored state, and the rerun halts at it again (DESIGN CHOICE, log 36). A
second loop that the same reduction owes a recomputation (R87) is not kept (DESIGN CHOICE, log 36). -/
def State.retryLoops (s : State) (f : Flight) : List Nat :=
  match f.job.kind with
  | .reduce _ => []
  | .close _ => []
  | _ =>
    match f.recomp.head?, f.recomp.head?.bind s.loop? with
    | some l, some r => if r.state = .closed then [l] else []
    | _, _ => []

/-- R150: the faulted job as it runs again. -/
def State.retried (s : State) (f : Flight) : Flight := { startFlight f.job with recomp := s.retryLoops f }

def restartRetryBody (action : Nat) (s : State) : State :=
  if action ≠ 0 then s.refuse .badValue
  else if s.engine.state ≠ .halted then s.refuse .engineState
  else match s.engine.flight with
    | some f =>
      { s with engine := { s.engine with state := .working, flight := some (s.retried f), fault := none } }.respond .ok
        (jobBytes f.job)
    | none => s.refuse .engineState

/-- RESTART ENGINE with RETRY (R150). -/
def execRestartEngineRetry (action : Nat) (s : State) : Host.Outcome State Fault Refusal :=
  hostCommand (.restartEngineRetry action) .ready (restartRetryBody action) s

/-- R151, step 2: the close of a dropped CLOSE is undone. -/
def State.dropJob (s : State) (f : Flight) : State :=
  match f.job.kind with
  | .close l => (s.undoClose l).1
  | _ => s

/-- R151, step 4: the engine takes the oldest waiting job, or becomes IDLE. -/
def Engine.afterDrop (e : Engine) : Engine :=
  match e.queue with
  | j :: rest => { e with state := .working, flight := some (startFlight j), queue := rest, fault := none }
  | [] => { e with state := .idle, flight := none, fault := none }

def restartDiscardBody (s : State) : State :=
  if s.engine.state ≠ .halted then s.refuse .engineState
  else match s.engine.flight with
    | some f =>
      let s := s.dropJob f
      { s with engine := s.engine.afterDrop }.respond .ok (optBytes jobBytes s.engine.queue.head?)
    | none => s.refuse .engineState

/-- RESTART ENGINE with DISCARD (R151). -/
def execRestartEngineDiscard (s : State) : Host.Outcome State Fault Refusal :=
  hostCommand .restartEngineDiscard .ready restartDiscardBody s

def readFaultBody (s : State) : State := s.respond .ok (optBytes faultBytes s.engine.fault)

/-- READ FAULT (R153). -/
def execReadFault (s : State) : Host.Outcome State Fault Refusal :=
  hostCommand .readFault .readyRestore readFaultBody s

end Sys2Proof.Machine
end

