-- ==== Sys2Proof/Machine/Link.lean ====
section
/-! DEFINITION. The host link's own events (spec/10, R181 to R185), the event commands (R189) and IDENTIFY
(R187). -/

namespace Sys2Proof.Machine

/-! ### Chip-select periods -/

/-- R184, R186: a period opens: the held response is on MISO, or nothing in a stopped link. -/
def Link.openPeriod (l : Link) (stopped : Bool) : Link :=
  if stopped then { l with period := some { ignored := true, miso := [] } }
  else
    { l with
      period := some { ignored := false, miso := (match l.held with | some r => r.bytes | none => []) }
      fetching := l.held.isSome }

/-- The link is stopped: in standby, or while RESET_N is low (R186, R194). -/
def State.linkStopped (s : State) : Bool := s.resetHeld || s.part = .standby

/-- R184, R186, R194: a period opens, and one that opens in standby or while RESET_N is low is ignored to its end, past the
release too, with 0xFF on MISO (DESIGN CHOICE for RESET_N, log 31). -/
def State.chipSelectOpen (s : State) : State :=
  match s.link.period with
  | some _ => s
  | none => { s with link := s.link.openPeriod s.linkStopped }

/-- R184, R186: the n-th byte that MISO returns in a period: the response's, and 0xFF past its end or without one. -/
def Period.misoByte (p : Period) (n : Nat) : Byte := p.miso.getD n 0xFF

/-- R181, R184: the n-th byte that the open period returns on MISO; absent with no period open. -/
def State.miso (s : State) (n : Nat) : Option Byte := s.link.period.map fun p => p.misoByte n

/-- CHIP_SELECT_OPEN (R184). -/
def execChipSelectOpen (s : State) : Host.Outcome State Fault Refusal :=
  blockEvent State.chipSelectOpen s

/-- R184: the period ends, and a fetched response is no longer held. -/
def Link.endPeriod (l : Link) : Link :=
  { l with period := none, held := if l.fetching then none else l.held, fetching := false }

/-- R181: the command frame that a period's bytes carry, as its code and what follows; absent when they
carry none. -/
def commandBytes : List Byte → Option (Byte × List Byte)
  | [] => none
  | c :: rest => if c = 0xFF then none else some (c, rest)

/-- R184, R185: a command frame discards the held response and marks that of the command in execution. -/
def Link.discardResponse (l : Link) : Link := { l with held := none, discard := l.executing.isSome }

/-- R182, R185: a frame is answered by the link, taken, or made to wait. -/
def Link.receive (l : Link) (code : Byte) (f : Frame) : Link :=
  match f with
  | .unknown => { l with held := some { status := .unknownCommand, payload := [code] } }
  | .badLength => { l with held := some { status := .badLength, payload := [code] } }
  | .command i => if l.executing.isSome then { l with waiting := some i } else { l with executing := some i }

/-- R182 to R185: the end of a period that was not ignored. -/
def Link.closePeriod (l : Link) (mosi : List Byte) : Link :=
  match commandBytes mosi with
  | none => l.endPeriod
  | some (code, rest) => (l.endPeriod.discardResponse).receive code (parseFrame code rest)

def State.chipSelectClose (mosi : List Byte) (s : State) : State :=
  match s.link.period with
  | none => s
  | some p => { s with link := if p.ignored then { s.link with period := none } else s.link.closePeriod mosi }

/-- CHIP_SELECT_CLOSE (R182, R184, R185). -/
def execChipSelectClose (mosi : List Byte) (s : State) : Host.Outcome State Fault Refusal :=
  blockEvent (State.chipSelectClose mosi) s

/-! ### The event commands (R189) -/

def readEventsBody (s : State) : State := s.respond .ok (eventsBytes s.events)

/-- READ EVENTS (R189). -/
def execReadEvents (s : State) : Host.Outcome State Fault Refusal :=
  hostCommand .readEvents .always readEventsBody s

/-- R189: an event command with a mask: refused for an unnamed bit, else answered with the masks and the
line as they stand after it. -/
def maskCommand (m : BitVec 16) (f : Events → Events) (s : State) : State :=
  if badMask m then s.refuse .badValue
  else { s with events := f s.events }.respond .ok (eventsBytes (f s.events))

def Events.clear (m : BitVec 16) (e : Events) : Events := { e with pending := e.pending &&& ~~~m }
def Events.set (m : BitVec 16) (e : Events) : Events := { e with pending := e.pending ||| m }
def Events.enable (m : BitVec 16) (e : Events) : Events := { e with enabled := m }

/-- CLEAR EVENTS (R189). -/
def execClearEvents (m : BitVec 16) (s : State) : Host.Outcome State Fault Refusal :=
  hostCommand (.clearEvents m) .always (maskCommand m (Events.clear m)) s

/-- SET EVENTS (R189). -/
def execSetEvents (m : BitVec 16) (s : State) : Host.Outcome State Fault Refusal :=
  hostCommand (.setEvents m) .always (maskCommand m (Events.set m)) s

/-- ENABLE EVENTS (R189). -/
def execEnableEvents (m : BitVec 16) (s : State) : Host.Outcome State Fault Refusal :=
  hostCommand (.enableEvents m) .always (maskCommand m (Events.enable m)) s

def identifyBody (s : State) : State := s.respond .ok (identifyBytes s.part)

/-- IDENTIFY (R187). -/
def execIdentify (s : State) : Host.Outcome State Fault Refusal :=
  hostCommand .identify .always identifyBody s

end Sys2Proof.Machine
end

