-- ==== Sys2Proof/Machine/Loops.lean ====
section
/-! DEFINITION. The loop commands (spec/06): OPEN, CLOSE, VOID, RELEASE and READ LOOP. -/

namespace Sys2Proof.Machine

/-- The epoch of a record; absent while its window is open (R29). -/
def epochOf (o : Occ) : Option Nat := o.reading.map (·.epoch)

/-- SETTLING or COLLECTING (R30). -/
def inWindow (o : Occ) : Bool := o.state = .settling || o.state = .collecting

/-- R8: the entry that the internal lookup returns, absent when the station is unusable. -/
def State.lookupEntry (s : State) (number : Nat) : State × Option Station :=
  match s.internalLookup number with
  | (s, some w) => (s, s.station? w)
  | (s, none) => (s, none)

/-- R112, R116: the station is usable and a BASE. -/
def isBase : Option Station → Bool
  | some e => e.role = .base
  | none => false

/-! ### Opening (R112, R113) -/

/-- R113: the loop as OPEN LOOP makes it. -/
def newLoop (occ epoch hours : Nat) : Loop :=
  { state := .opened, damaged := false, sound := true, openEnd := occ, openEpoch := epoch,
    deadline := epoch + hours * Config.ticksPerHour, members := [], closing := none, mode := none, deltaV := none,
    rate := none, driftHigh := false, interrupted := false }

/-- R113: the accepted opening, unless the constants cannot be read (R170). -/
def State.openNow (s : State) (l i : Nat) (o : Occ) : State :=
  let s := s.checkConstants true
  if s.constants.damaged then s.refuse .damaged
  else
    let r := newLoop i s.epoch s.constants.nums.loopHours.toNat
    ((s.putLoop l r).putOcc i { o with opens := some l }).respond .ok (u8 l ++ u48 r.openEpoch ++ u48 r.deadline)

/-- R112, steps 6 to 8. -/
def State.openOn (s : State) (l i : Nat) (o : Occ) : State :=
  let p := s.lookupEntry o.station
  if !isBase p.2 then p.1.refuse .notBase
  else if inWindow o then p.1.refuse .loopState
  else if o.opens.isSome then p.1.refuse .inUse
  else p.1.openNow l i o

def openLoopBody (l i : Nat) (s : State) : State :=
  if !(l < Config.loops) || !(i < Config.poolSize) then s.refuse .badValue
  else if !s.clock.isSet then s.refuse .clockUnset
  else
    let s := s.checkLoop l
    match s.loop? l with
    | some r => s.refuse (if r.damaged then .damaged else .loopState)
    | none =>
      let s := s.checkOcc i
      match s.occ? i with
      | none => s.refuse .noOccupation
      | some o => if o.damaged then s.refuse .damaged else s.openOn l i o

/-- OPEN LOOP (R112, R113). -/
def execOpenLoop (l i : Nat) (s : State) : Host.Outcome State Fault Refusal :=
  hostCommand (.openLoop l i) .ready (openLoopBody l i) s

/-! ### Closing (R116, R117) -/

/-- R116, step 3: how the loop's state refuses a close; absent when it does not. -/
def closeRefusal (mode : CloseMode) : LoopState → Option Status
  | .opened => none
  | .expired => match mode with
    | .drift => some .loopExpired
    | .noDrift => none
  | .closing => some .loopBusy
  | .closed => some .loopState

/-- R116, step 8: another member that lets the close go on. DEDUCED (log 42): a FREE one does. -/
def State.memberBefore (s : State) (epoch : Nat) (j : Nat) : Bool :=
  match s.occ? j with
  | some o => match epochOf o with
    | some e => !inWindow o && e ≤ epoch
    | none => false
  | none => true

/-- A record that carries the damaged mark. -/
def State.occDamaged (s : State) (j : Nat) : Bool :=
  match s.occ? j with
  | some o => o.damaged
  | none => false

/-- R117: the loop becomes CLOSING and its job is placed. -/
def State.closeNow (s : State) (l i : Nat) (r : Loop) (mode : CloseMode) (tag : Nat) : State :=
  let job : Job := { kind := .close l, origin := .host, tag := tag }
  let position := s.engine.position
  let s := s.putLoop l { r with state := .closing, closing := some i, mode := some mode }
  { s with engine := s.engine.place job }.respond .ok (u8 l ++ u8 position)

/-- R116, steps 11 and 12. -/
def State.closeQueue (s : State) (l i : Nat) (r : Loop) (mode : CloseMode) (tag : Nat) : State :=
  if s.engine.state = .halted then s.refuse .engineHalted
  else if s.engine.full then s.refuse .queueFull
  else s.closeNow l i r mode tag

/-- R116, step 10: the two stations of a tie between bases. -/
def State.closeTie (s : State) (o p : Occ) (station : Option Station) : State × Option Status :=
  if o.station = p.station then (s, none)
  else
    let q := s.lookupEntry p.station
    match q.2, station with
    | some e, some e' =>
      (q.1, if e.reference.isSome ∧ e'.reference.isSome then none else some .noReference)
    | _, _ => (q.1, some .notBase)

/-- R116, steps 9 and 10, in mode DRIFT. -/
def State.closeDrift (s : State) (r : Loop) (o : Occ) (epoch : Nat) (station : Option Station) : State × Option Status :=
  let s := s.checkOcc r.openEnd
  match s.occ? r.openEnd with
  | none => (s, some .loopState)
  | some p =>
    if p.damaged then (s, some .damaged)
    else match epochOf p with
      | some e => if e < epoch then s.closeTie o p station else (s, some .loopState)
      | none => (s, some .loopState)

/-- R116, steps 5 to 10: the first failure, absent when the close may be made. -/
def State.closeChecks (s : State) (i : Nat) (r : Loop) (o : Occ) (mode : CloseMode) : State × Option Status :=
  if !r.members.contains i then (s, some .loopState)
  else match epochOf o with
    | none => (s, some .loopState)
    | some epoch =>
      if inWindow o then (s, some .loopState)
      else
        let p := s.lookupEntry o.station
        if !isBase p.2 then (p.1, some .notBase)
        else
          let others := r.members.filter (· ≠ i)
          let s := p.1.checkOccs others
          if others.any s.occDamaged then (s, some .damaged)
          else if !others.all (s.memberBefore epoch) then (s, some .loopState)
          else match mode with
            | .noDrift => (s, none)
            | .drift => s.closeDrift r o epoch p.2

/-- R116, steps 4 to 12, on a loop whose state allows the close. -/
def State.closeOn (s : State) (l i : Nat) (r : Loop) (mode : CloseMode) (tag : Nat) : State :=
  let s := s.checkOcc i
  match s.occ? i with
  | none => s.refuse .noOccupation
  | some o =>
    if o.damaged then s.refuse .damaged
    else
      let p := s.closeChecks i r o mode
      match p.2 with
      | some st => p.1.refuse st
      | none => p.1.closeQueue l i r mode tag

def closeLoopBody (l i mode tag : Nat) (s : State) : State :=
  match modeOf mode with
  | none => s.refuse .badValue
  | some m =>
    if !(l < Config.loops) || !(i < Config.poolSize) || !(tag < 256) then s.refuse .badValue
    else
      let s := s.checkLoop l
      match s.loop? l with
      | none => s.refuse .loopState
      | some r =>
        if r.damaged then s.refuse .damaged
        else match closeRefusal m r.state with
          | some st => s.refuse st
          | none => s.closeOn l i r m tag

/-- CLOSE LOOP (R116, R117). -/
def execCloseLoop (l i mode tag : Nat) (s : State) : Host.Outcome State Fault Refusal :=
  hostCommand (.closeLoop l i mode tag) .ready (closeLoopBody l i mode tag) s

/-! ### Voiding (R127, R128) -/

/-- R128: the void of a damaged loop. -/
def State.voidDamagedNow (s : State) (l : Nat) : State :=
  if s.closeNames l || s.recomputing l then s.refuse .loopBusy
  else (s.voidDamaged l).respond .ok (u16 (s.naming l).length)

def voidLoopBody (l : Nat) (s : State) : State :=
  if !(l < Config.loops) then s.refuse .badValue
  else
    let s := s.checkLoop l
    match s.loop? l with
    | none => s.refuse .loopState
    | some r =>
      if r.damaged then s.voidDamagedNow l
      else if r.state = .closing || s.walks l r then s.refuse .loopBusy
      else (s.voidSound l).respond .ok (u16 r.members.length)

/-- VOID LOOP (R127, R128). The count answered takes two bytes for a sound loop too (DESIGN CHOICE, log 11). -/
def execVoidLoop (l : Nat) (s : State) : Host.Outcome State Fault Refusal :=
  hostCommand (.voidLoop l) .ready (voidLoopBody l) s

/-! ### Releasing (R129) -/

/-- R129: what a release leaves of a sound member. -/
def releasedOcc (o : Occ) : Occ := { o with memberOf := none, state := if o.drift.isSome then .final else o.state }

/-- R129: one member, with the count of those made FINAL. A member that carries the damaged mark already counts as one
that fails its check (DESIGN CHOICE, log 57). -/
def releaseMember (acc : State × Nat) (i : Nat) : State × Nat :=
  let s := acc.1.checkOcc i
  match s.occ? i with
  | some o =>
    if o.damaged then (s.putOcc i { withoutDrift o with memberOf := none }, acc.2)
    else ((s.putOcc i (releasedOcc o)).markOwner o.station i, if o.drift.isSome then acc.2 + 1 else acc.2)
  | none => (s, acc.2)

/-- R129: the accepted release as one access. -/
def State.release (s : State) (l : Nat) (r : Loop) : State :=
  let p := r.members.foldl releaseMember (s, 0)
  ((p.1.voidOpenEnd l r.openEnd).freeLoop l).respond .ok (u8 p.2)

def releaseLoopBody (l : Nat) (s : State) : State :=
  if !(l < Config.loops) then s.refuse .badValue
  else
    let s := s.checkLoop l
    match s.loop? l with
    | none => s.refuse .loopState
    | some r =>
      if r.damaged then s.refuse .damaged
      else if r.state ≠ .closed then s.refuse .loopState
      else if s.walks l r then s.refuse .loopBusy
      else s.release l r

/-- RELEASE LOOP (R129). -/
def execReleaseLoop (l : Nat) (s : State) : Host.Outcome State Fault Refusal :=
  hostCommand (.releaseLoop l) .ready (releaseLoopBody l) s

/-! ### Reading (R132) -/

def readLoopBody (l : Nat) (s : State) : State :=
  if !(l < Config.loops) then s.refuse .badValue
  else
    let s := s.checkLoop l
    match s.loop? l with
    | none => s.respond .ok (u8 0)
    | some r =>
      if r.damaged then s.refuse .damaged
      else
        let s := s.checkOcc r.openEnd
        match s.occ? r.openEnd with
        | some o => if o.damaged then s.refuse .damaged else s.respond .ok (loopBytes r (s.walks l r) o.station)
        | none => s.respond .ok (loopBytes r (s.walks l r) 0)

/-- READ LOOP (R132, R32). The open endpoint is read for its station (log 40). -/
def execReadLoop (l : Nat) (s : State) : Host.Outcome State Fault Refusal :=
  hostCommand (.readLoop l) .readyRestore (readLoopBody l) s

end Sys2Proof.Machine
end

