-- ==== Sys2Proof/Machine/Readings.lean ====
section
/-! DEFINITION. The reading commands and the window's own events (spec/02): BEGIN, END and ABORT READING,
DISCARD OCCUPATION, READ WINDOW, READ OCCUPATION, the clamp line, and the two counts. -/

namespace Sys2Proof.Machine

/-! ### Beginning a reading (R34, R35) -/

/-- R34, step 3. -/
def beginInRange (r : BeginReadingReq) : Bool :=
  10 ≤ r.duration && r.duration ≤ 600 && r.settle ≤ 300 && optAll (· < 16) r.loop && (yesNo r.abortOnTilt).isSome

/-- R34, step 7: how a loop that cannot take a member is answered; absent when it can. -/
def joinRefusal (l : Option Loop) : Option Status :=
  match l with
  | none => some .loopState
  | some r =>
    if r.damaged then some .damaged
    else match r.state with
      | .opened => if r.members.length < Config.memberLimit then none else some .loopFull
      | .expired => some .loopExpired
      | .closing => some .loopBusy
      | .closed => some .loopState

/-- R33: the head of a full list can be reclaimed; one whose own fields name a damaged loop cannot (R111). -/
def State.reclaimable (s : State) (e : Station) (head : Nat) : Bool :=
  match s.occ? head with
  | some o => o.state = .final && !o.damaged && !s.isOpenEnd anyState head && !s.fieldNames (·.memberOf) head && !e.changed
  | none => false

/-- R35, step 2: the record as BEGIN READING allocates it. -/
def newOcc (r : BeginReadingReq) (abort : Bool) : Occ :=
  { state := if r.settle = 0 then .collecting else .settling
    damaged := false
    sound := true
    station := r.number
    settle := r.settle
    duration := r.duration
    abortOnTilt := abort
    memberOf := r.loop
    opens := none
    reading := none
    results := none
    drift := none
    flags := {} }

/-- R36: the window as it opens, in SETTLING with a full settle count. -/
def newWindow (r : BeginReadingReq) (i : Nat) (abort : Bool) : Window :=
  { occ := i, station := r.number, memberOf := r.loop, settle := r.settle, duration := r.duration,
    abortOnTilt := abort, phase := .settling (r.settle * Config.ticksPerSecond), sums := {}, clamped := false,
    overload := false, tiltLimit := false, tiltRange := false, constantsChanged := false, tiltRaised := false,
    breakRaised := false }

/-- R35, steps 3 and 4: the record joins the lists of its station and of its loop. -/
def State.joinLists (s : State) (r : BeginReadingReq) (way i : Nat) : State :=
  let s := match s.station? way with
    | some e => (s.putChanged way { e with list := e.list ++ [i] }).touch way
    | none => s
  match r.loop.bind fun l => (s.loop? l).map fun x => (l, x) with
  | some (l, x) => s.putLoop l { x with members := x.members ++ [i] }
  | none => s

/-- R35, step 5: the window opens. -/
def State.openWindow (s : State) (r : BeginReadingReq) (i : Nat) (abort : Bool) : State :=
  let w := newWindow r i abort
  if r.settle = 0 then s.enterCollecting w else { s with window := some w }

/-- R35: the accepted command as one access, with the reclaim already made. -/
def State.begin (s : State) (r : BeginReadingReq) (abort : Bool) (way i : Nat) (reclaimed : Option Nat) : State :=
  let s := ((s.putOcc i (newOcc r abort)).joinLists r way i).openWindow r i abort
  s.respond .ok (u16 i ++ optBytes u16 reclaimed ++ u8 (newOcc r abort).state.code)

/-- R34, steps 8 and 9: a place for the record. At a full list the head and then the whole loop table are read before any
condition of R33 is judged (DESIGN CHOICE, log 61). -/
def State.beginAt (s : State) (r : BeginReadingReq) (abort : Bool) (way : Nat) (e : Station) : State :=
  if e.list.length < Config.listLimit then
    match lowestFree s.occs (List.range Config.poolSize) with
    | some i => s.begin r abort way i none
    | none => s.refuse .poolFull
  else match e.list with
    | [] => s.refuse .occLimit
    | head :: _ =>
      let s := (s.checkOcc head).checkLoops
      if s.reclaimable e head then
        let s := s.freeOcc (waysOf r.number) head
        match lowestFree s.occs (List.range Config.poolSize) with
        | some i => s.begin r abort way i (some head)
        | none => s.refuse .poolFull
      else s.refuse .occLimit

/-- R34, step 7: the loop named, if any, is read. -/
def State.checkNamed (s : State) : Option Nat → State
  | some l => s.checkLoop l
  | none => s

def beginReadingBody (r : BeginReadingReq) (s : State) : State :=
  if !validNumber r.number then s.refuse .badKey
  else if !beginInRange r then s.refuse .badValue
  else if !s.clock.isSet then s.refuse .clockUnset
  else if s.window.isSome then s.refuse .windowBusy
  else match s.keyedLookup r.number with
    | (s, .found w) =>
      let s := s.checkNamed r.loop
      match r.loop.bind fun l => joinRefusal (s.loop? l) with
      | some st => s.refuse st
      | none =>
        match s.station? w with
        | some e => s.beginAt r (r.abortOnTilt = 1) w e
        | none => s.refuse .noStation
    | (s, out) => s.refuse out.status

/-- BEGIN READING (R34, R35). -/
def execBeginReading (r : BeginReadingReq) (s : State) : Host.Outcome State Fault Refusal :=
  hostCommand (.beginReading r) .ready (beginReadingBody r) s

/-! ### Ending a reading (R45, R50) -/

/-- R45: what the answer says of a close. What a CLOSED outcome adds has no presence byte (DESIGN CHOICE, log 11). -/
def endReadingBytes (w : Window) (sub : Submission) : List Byte :=
  u16 w.occ ++
    if w.sums.n = 0 then u8 WindowOutcome.aborted.code
    else u8 WindowOutcome.closed.code ++ exactBytes w.sums.n ++ u8 sub.code

def endReadingBody (s : State) : State :=
  match s.window with
  | some w =>
    match w.phase with
    | .collecting start _ rev =>
      (s.closeWindow w start rev .endReading).respond .ok (endReadingBytes w s.engine.submission)
    | .settling _ => s.refuse .windowState
  | none => s.refuse .windowState

/-- END READING (R45). -/
def execEndReading (s : State) : Host.Outcome State Fault Refusal :=
  hostCommand .endReading .ready endReadingBody s

def abortReadingBody (s : State) : State :=
  match s.window with
  | some w => (s.removeWindow w (waysOf w.station) .abortReading).respond .ok (u16 w.occ)
  | none => s.refuse .windowState

/-- ABORT READING (R50). -/
def execAbortReading (s : State) : Host.Outcome State Fault Refusal :=
  hostCommand .abortReading .ready abortReadingBody s

/-! ### Discarding (R51) -/

/-- R51: the sound loops that a damaged record anchors, lowest first. -/
def State.anchored (s : State) (i : Nat) : List Nat :=
  (slotKeys s.loops).filter fun l =>
    match s.loop? l with
    | some r => !r.damaged && (r.openEnd = i || (r.closing = some i && closeState r.state))
    | none => false

/-- R51: a loop that keeps its damaged endpoint from being discarded. -/
def State.loopHolds (s : State) (l : Nat) : Bool :=
  match s.loop? l with
  | some r => r.state = .closing || s.walks l r
  | none => false

/-- R51: a damaged record is freed, with the loops it anchors voided first. -/
def State.discardDamaged (s : State) (i : Nat) : State :=
  let s := (s.anchored i).foldl State.voidSound s
  match s.window with
  | some w => if w.occ = i then s.removeWindow w allWays .discard else s.freeOcc allWays i
  | none => s.freeOcc allWays i

/-- R51: what refuses the discard of a record without the mark. -/
def State.discardInUse (s : State) (i : Nat) (o : Occ) : Bool :=
  o.state = .settling || o.state = .collecting || s.isOpenEnd anyState i || s.isMember closeState i

/-- R51. The loop table is read before the three cases of IN_USE are judged, also for a record in its window (DESIGN
CHOICE, log 61). -/
def discardOccupationBody (i : Nat) (s : State) : State :=
  if !(i < Config.poolSize) then s.refuse .badValue
  else match (s.checkOcc i).occ? i with
    | none => s.refuse .noOccupation
    | some o =>
      let s := (s.checkOcc i).checkLoops
      let answer (s : State) := s.respond .ok (u16 i ++ u16 o.station)
      if o.damaged then
        if (s.anchored i).any s.loopHolds then s.refuse .loopBusy else answer (s.discardDamaged i)
      else if s.discardInUse i o then s.refuse .inUse
      else answer (s.freeOcc (waysOf o.station) i)

/-- DISCARD OCCUPATION (R51). -/
def execDiscardOccupation (i : Nat) (s : State) : Host.Outcome State Fault Refusal :=
  hostCommand (.discardOccupation i) .ready (discardOccupationBody i) s

/-! ### Observing (R52, R53) -/

/-- R52: the answer of READ WINDOW. -/
def State.windowAnswer (s : State) : List Byte :=
  optBytes (fun w => windowBytes w s.clamp) s.window ++ optBytes lastWindowBytes s.lastWindow

def readWindowBody (s : State) : State := s.respond .ok s.windowAnswer

/-- READ WINDOW (R52). -/
def execReadWindow (s : State) : Host.Outcome State Fault Refusal :=
  hostCommand .readWindow .readyRestore readWindowBody s

def readOccupationBody (i : Nat) (s : State) : State :=
  if !(i < Config.poolSize) then s.refuse .badValue
  else
    let s := s.checkOcc i
    match s.occ? i with
    | none => s.respond .ok (u8 0)
    | some o =>
      if o.damaged then s.refuse .damaged
      else
        let p := s.lookupMarks o
        p.1.respond .ok (occBytes i o p.2)

/-- READ OCCUPATION (R53). -/
def execReadOccupation (i : Nat) (s : State) : Host.Outcome State Fault Refusal :=
  hostCommand (.readOccupation i) .readyRestore (readOccupationBody i) s

/-! ### The clamp line (R37, R38) -/

/-- R37: an assertion reloads the settle count of a window in SETTLING. -/
def Window.reload (w : Window) : Window :=
  match w.phase with
  | .settling _ => { w with phase := .settling (w.settle * Config.ticksPerSecond) }
  | .collecting _ _ _ => w

/-- CLAMP rises (R37). -/
def execClampAsserted (s : State) : Host.Outcome State Fault Refusal :=
  blockEvent (fun s => { s with clamp := true, window := s.window.map Window.reload }) s

/-- CLAMP falls (R37): counting resumes at the next tick. -/
def execClampReleased (s : State) : Host.Outcome State Fault Refusal :=
  blockEvent (fun s => { s with clamp := false }) s

/-! ### The counts of the window (R37, R44) -/

/-- SETTLE_COUNT_ZERO (R37, R38). -/
def execSettleCountZero (s : State) : Host.Outcome State Fault Refusal :=
  blockEvent State.takeSettle s

/-- ELAPSED_COUNT_COMPLETE (R44, R47). -/
def execElapsedCountComplete (s : State) : Host.Outcome State Fault Refusal :=
  blockEvent State.takeElapsed s

end Sys2Proof.Machine
end

