-- ==== Sys2Proof/Machine/Reporting.lean ====
section
/-! DEFINITION. Reporting (spec/08): network values, grades, the export snapshot, and the three commands
that read it or find what to export. -/

namespace Sys2Proof.Machine

/-! ### Network values and grades (R157 to R159) -/

/-- R158: the division by 10 under a rounding mode. -/
def roundTen (mode : RoundMode) (z : Int) : Int :=
  match mode with
  | .nearest => roundDiv z 10
  | .up => -((-z) / 10)
  | .down => z / 10
  | .zero => z.tdiv 10

/-- R157: the network value of a record, with its exact quantity in 0.1 µGal. -/
def networkExact (rOpen : Nat) (d : DriftPart) : Int := (rOpen : Int) * 10 + (d.final - d.vOpen)

def networkOf (mode : RoundMode) (o : Occ) : Option Nat :=
  o.drift.bind fun d => d.rOpen.map fun r => (roundTen mode (networkExact r d)).toNat

/-- R159: a comparison with an absent noise is false. -/
def noiseWithin (n : Option Nat) (limit : Int) : Bool :=
  match n with
  | some v => (v : Int) ≤ limit
  | none => false

/-- R159, case A, flags apart from the noise and the breaks. -/
def cleanFlags (f : Flags) : Bool :=
  !f.tiltLimit && !f.tiltRange && !f.tiltMissing && !f.tempMissing && !f.saturated

/-- R159: the grade of a record with results. -/
def gradeResults (c : ConstNums) (o : Occ) (r : Results) : Grade :=
  let breaks := match o.reading with
    | some m => m.sums.breaks
    | none => 0
  if o.flags.short || o.flags.sensorLost then .reject
  else if noiseWithin r.noise c.gradeA && decide ((breaks : Int) ≤ c.breakLimit) && cleanFlags o.flags then .a
  else if noiseWithin r.noise c.gradeB && !o.flags.tiltMissing && !o.flags.saturated then .b
  else .c

def gradeOf (c : ConstNums) (o : Occ) : Grade :=
  match o.results with
  | some r => gradeResults c o r
  | none => .none

/-! ### The snapshot (R156, R162) -/

/-- R162, step 3: the part of one listed occupation; a list names no FREE record. -/
def exportPart (e : Station) (acc : State × List OccPart) (i : Nat) : State × List OccPart :=
  let s := acc.1.checkOcc i
  match s.occ? i with
  | none => (s, acc.2)
  | some o =>
    if o.damaged then (s, acc.2 ++ [.damaged i])
    else
      let p := s.staleMarks (some e) o
      let c := p.1.constants
      (p.1, acc.2 ++ [.copy i o (networkOf c.mode o) (gradeOf c.nums o) p.2.1 p.2.2])

/-- R156: the station part. -/
def stationPart (w : Nat) (e : Station) (epoch : Nat) : StationPart :=
  { number := e.number, way := w, role := e.role, pinned := e.pinned, site := e.site, reference := e.reference,
    tag := e.tag, indices := e.list, changed := e.changed, epoch := epoch }

/-- R162, steps 3 to 6, with the answer. -/
def State.exportNow (s : State) (w : Nat) (e : Station) : State :=
  let p := e.list.foldl (exportPart e) (s, [])
  let s := { p.1 with snapshot := some { station := stationPart w e s.epoch, parts := p.2 } }
  (s.putStation w { e with changed := false }).respond .ok (u16 e.number ++ u8 p.2.length)

def exportStationBody (n : Nat) (s : State) : State :=
  if !validNumber n then s.refuse .badKey
  else match s.keyedLookup n with
    | (s, .found w) =>
      let s := (s.touch w).readOut w
      match s.station? w with
      | some e =>
        if e.damaged then s.refuse .damaged
        else
          let s := s.checkConstants true
          if s.constants.damaged then s.refuse .damaged else s.exportNow w e
      | none => s.refuse .noStation
    | (s, out) => s.refuse out.status

/-- EXPORT STATION (R162). -/
def execExportStation (n : Nat) (s : State) : Host.Outcome State Fault Refusal :=
  hostCommand (.exportStation n) .ready (exportStationBody n) s

/-! ### Finding changed stations (R161) -/

/-- R161: an entry that the search considers. -/
def considered (key : Option Nat) (e : Station) : Bool :=
  e.state = .active && !e.damaged && e.changed && optAll (· < e.number) key

/-- R161: the smallest number of a list. -/
def smallest : List Nat → Option Nat
  | [] => none
  | n :: l => match smallest l with
    | none => some n
    | some m => some (min n m)

/-- R161: the answer of the search. -/
def State.nextChanged (s : State) (key : Option Nat) : Option Nat :=
  smallest ((s.stations.filter fun p => considered key p.2).map fun p => p.2.number)

def nextChangedBody (key : Option Nat) (s : State) : State :=
  if !optAll validNumber key then s.refuse .badKey
  else
    let s := s.checkStations (slotKeys s.stations)
    s.respond .ok (optBytes u16 (s.nextChanged key))

/-- NEXT CHANGED (R161). -/
def execNextChanged (key : Option Nat) (s : State) : Host.Outcome State Fault Refusal :=
  hostCommand (.nextChanged key) .readyRestore (nextChangedBody key) s

/-! ### Reading the parts (R164) -/

/-- R164: the bytes of a part, absent where the number names none. -/
def Snapshot.part (p : Snapshot) (k : Nat) : Option (List Byte) :=
  if k = 0 then some (stationPartBytes p.station) else (p.parts[k - 1]?).map occPartBytes

def readExportPartBody (k : Nat) (s : State) : State :=
  match s.snapshot.bind fun p => p.part k with
  | some bytes => s.respond .ok bytes
  | none => s.refuse .badValue

/-- READ EXPORT PART (R164). -/
def execReadExportPart (k : Nat) (s : State) : Host.Outcome State Fault Refusal :=
  hostCommand (.readExportPart k) .readyRestore (readExportPartBody k) s

end Sys2Proof.Machine
end

