-- ==== Sys2Proof/Machine/Scan.lean ====
section
/-! DEFINITION. The consistency scan (spec/11, R195 to R198): its eight passes, each a series of steps on one
set, way, record or loop, and its end. -/

namespace Sys2Proof.Machine

/-! ### Findings (R198) -/

/-- R198: a finding raises a count of the report. -/
def State.count (f : ScanCounts → ScanCounts) (s : State) : State :=
  { s with scan := s.scan.map fun c => { c with counts := f c.counts } }

/-- R195: the occupations, loops and ways that carry the damaged mark. -/
structure Marked where
  occs : List Nat := []
  loops : List Nat := []
  ways : List Nat := []

def State.marked (s : State) : Marked :=
  { occs := slotKeys (s.occs.filter fun p => p.2.damaged), loops := slotKeys (s.loops.filter fun p => p.2.damaged),
    ways := slotKeys (s.stations.filter fun p => p.2.damaged) }

/-- R198: a station entry found damaged is counted, once in a scan. -/
def Scan.findStation (c : Scan) (way : Nat) : Scan :=
  if c.found.contains way then c
  else { c with found := way :: c.found, counts := { c.counts with damagedStations := addHeld c.counts.damagedStations 1 } }

/-- R196: a damaged station keeps its mark, its way and its number, and is counted. -/
def State.findDamagedStation (s : State) (way : Nat) : State :=
  if s.wayIs (·.damaged) way then { s with scan := s.scan.map fun c => c.findStation way } else s

/-- R196: a damaged occupation is freed. The stations whose lists lose it are touched (R195); a damaged station whose list
does not name it is not, though R24 would gather it for that station (DESIGN CHOICE, log 66). -/
def State.freeDamagedOcc (s : State) (i : Nat) : State :=
  match s.occ? i with
  | some o =>
    if o.damaged then
      (s.freeOcc allWays i).count fun c => { c with damagedOccupations := addHeld c.damagedOccupations 1 }
    else s
  | none => s

/-- R196: a damaged loop becomes FREE, its records gathered as R128 gathers them. -/
def State.freeDamagedLoop (s : State) (l : Nat) : State :=
  match s.loop? l with
  | some r =>
    if r.damaged then (s.voidDamaged l).count fun c => { c with damagedLoops := addHeld c.damagedLoops 1 } else s
  | none => s

/-- R195: damaged occupations and loops are freed at once, but for those that still wait for their own step. -/
def State.sweepOnce (wait : Marked) (s : State) : State :=
  let s := (s.marked.occs.filter fun i => !wait.occs.contains i).foldl State.freeDamagedOcc s
  (s.marked.loops.filter fun l => !wait.loops.contains l).foldl State.freeDamagedLoop s

/-- R195: what an access of the scan finds damaged is handled in that access. The gather of a freed loop reads the whole
pool, and the freeing of a record reads lists, so a second round takes what the first has found (log 29). -/
def State.sweep (wait : Marked) (s : State) : State :=
  let s := (s.sweepOnce wait).sweepOnce wait
  (s.marked.ways.filter fun w => !wait.ways.contains w).foldl State.findDamagedStation s

/-- R195: one step of the first two passes. What carries its mark already waits for its own step. -/
def earlyStep (act : Nat → State → State) (s : State) (k : Nat) : State := (act k s).sweep s.marked

/-- R195: one step of a later pass: its reads, then its findings. -/
def scanStep (reads act : Nat → State → State) (s : State) (k : Nat) : State :=
  (act k ((reads k s).sweep {})).sweep {}

/-! ### Passes (R195) -/

/-- R195: the pass in progress is the n-th, and the scan runs. -/
def State.inPass (s : State) (n : Nat) : Bool :=
  s.part = .starting && !s.resetHeld &&
    match s.scan with
    | some c => c.pass = n && c.ended.isNone
    | none => false

/-- R195: after `k` more steps of a pass of `size` steps. -/
def Scan.advance (c : Scan) (size k : Nat) : Scan :=
  if c.cursor + k < size then { c with cursor := c.cursor + k } else { c with pass := c.pass + 1, cursor := 0 }

/-- The next step of the pass in progress. -/
def State.cursor (s : State) : Nat :=
  match s.scan with
  | some c => c.cursor
  | none => 0

/-- R195: up to `steps` steps of the n-th pass, in order (log 8). -/
def scanPass (n size : Nat) (unit : State → Nat → State) (steps : Nat) (s : State) : State :=
  if s.inPass n then
    let k := min steps (size - s.cursor)
    let t := (List.range' s.cursor k).foldl unit s
    { t with scan := t.scan.map fun c => c.advance size k }
  else s

/-! ### Pass 1: duplicates -/

/-- R196: a way whose number is carried by another way of its set becomes SUSPECT. -/
def State.suspectTwin (s : State) (way : Nat) : State :=
  match s.station? way with
  | some e =>
    if (s.matching e.number).any (· ≠ way) && e.state ≠ .suspect then
      (s.putChanged way { e with state := .suspect }).count fun c => { c with suspectWays := addHeld c.suspectWays 1 }
    else s
  | none => s

/-- R196: the ways of a set are read, and its duplicates become SUSPECT. -/
def suspectTwins (set : Nat) (s : State) : State :=
  (waysOfSet set).foldl State.suspectTwin (s.checkStations (waysOfSet set))

def duplicatesUnit (s : State) (set : Nat) : State := earlyStep suspectTwins s set

/-- SCAN_DUPLICATES (R196, pass 1). -/
def execScanDuplicates (steps : Nat) (s : State) : Host.Outcome State Fault Refusal :=
  blockEvent (scanPass 1 64 duplicatesUnit steps) s

/-! ### Pass 2: damage -/

/-- R196: the occupations are read first, then the loops, then the station entries. -/
def findDamage (k : Nat) (s : State) : State :=
  if k < 512 then (s.checkOcc k).freeDamagedOcc k
  else if k < 528 then (s.checkLoop (k - 512)).freeDamagedLoop (k - 512)
  else (s.checkStation (k - 528)).findDamagedStation (k - 528)

def damageUnit (s : State) (k : Nat) : State := earlyStep findDamage s k

/-- SCAN_DAMAGE (R196, pass 2). -/
def execScanDamage (steps : Nat) (s : State) : Host.Outcome State Fault Refusal :=
  blockEvent (scanPass 2 784 damageUnit steps) s

/-! ### Pass 3: references -/

def countReferences (n : Nat) (c : ScanCounts) : ScanCounts := { c with references := addHeld c.references n }
def countUnlisted (n : Nat) (c : ScanCounts) : ScanCounts := { c with unlisted := addHeld c.unlisted n }

/-- The list of an undamaged entry of a way. -/
def State.soundList (s : State) (way : Nat) : List Nat :=
  match s.station? way with
  | some e => if e.damaged then [] else e.list
  | none => []

/-- R196: a listed index that stays: it names a record of this station, and no lower way of the set lists it. The list of a
damaged way, which R2 does not use, is no such list (DEDUCED, log 44). -/
def State.listable (s : State) (way number i : Nat) : Bool :=
  (match s.occ? i with | some o => o.station = number | none => false) &&
    (waysOfSet (way / 4)).all fun w => w ≥ way || !(s.soundList w).contains i

/-- The list of a way is read with its records, and the lists of its set, which may name them too (DESIGN CHOICE, log 61). -/
def readList (way : Nat) (s : State) : State :=
  let s := s.checkStations (waysOfSet (way / 4))
  s.checkOccs (s.soundList way)

/-- R196: an undamaged list loses what it may not name. -/
def pruneList (way : Nat) (s : State) : State :=
  match s.station? way with
  | some e =>
    let kept := e.list.filter (s.listable way e.number)
    if e.damaged ∨ kept = e.list then s
    else (s.putChanged way { e with list := kept }).count (countReferences (e.list.length - kept.length))
  | none => s

/-- The record and the ways of its set are read (DESIGN CHOICE, log 61). -/
def readOwner (i : Nat) (s : State) : State :=
  let s := s.checkOcc i
  match s.occ? i with
  | some o => s.checkStations (waysOf o.station)
  | none => s

/-- R196: a record is its station's, or a damaged station's that carries its number. -/
def State.isListed (s : State) (i number : Nat) : Bool :=
  (s.matching number).any fun w =>
    match s.station? w with
    | some e => e.damaged || e.list.contains i
    | none => false

/-- R196: a record that no station lists is freed. What it leaves of member lists counts as no reference removed
(DESIGN CHOICE, log 44). -/
def freeUnlisted (i : Nat) (s : State) : State :=
  match s.occ? i with
  | some o => if s.isListed i o.station then s else (s.freeOcc allWays i).count (countUnlisted 1)
  | none => s

/-- R24, R196: the records of a damaged way: those of its number that no undamaged way carrying it lists and
that no lower damaged way has been given. -/
def State.gatheredFor (s : State) (way number : Nat) : List Nat :=
  (slotKeys s.occs).filter fun i =>
    (match s.occ? i with | some o => o.station = number | none => false) &&
    !(s.matching number).any fun w =>
      match s.station? w with
      | some e => (!e.damaged || w < way) && e.list.contains i
      | none => false

/-- The epoch by which records are put in order; a record whose window is open comes last (log 34). -/
def State.orderKey (s : State) (i : Nat) : Nat :=
  match (s.occ? i).bind epochOf with
  | some e => e
  | none => 281474976710656

/-- A record put after those whose key is not above its own. -/
def insertByKey (key : Nat → Nat) (i : Nat) : List Nat → List Nat
  | [] => [i]
  | j :: l => if key j ≤ key i then j :: insertByKey key i l else i :: j :: l

/-- A list put in ascending order of its keys; equal keys keep their order. -/
def sortByKey (key : Nat → Nat) (l : List Nat) : List Nat := l.foldl (fun acc i => insertByKey key i acc) []

/-- The ways of a damaged way's number and the whole pool are read, to gather from (DESIGN CHOICE, log 61). -/
def readGathered (way : Nat) (s : State) : State :=
  let s := s.checkStation way
  match s.station? way with
  | some e => if e.damaged then (s.checkStations (waysOf e.number)).checkPool else s
  | none => s

/-- R195, R196, R198, R204: the list of each damaged station is rewritten, which forms its check value anew; the station is
touched where its list changes or a record is freed. An index that names none of its records counts as a
reference removed; the records after the eighth are freed and count as unlisted (log 44). -/
def rewriteList (way : Nat) (s : State) : State :=
  match s.station? way with
  | some e =>
    if e.damaged then
      let all := sortByKey s.orderKey (s.gatheredFor way e.number)
      let kept := all.take Config.listLimit
      let rest := all.drop Config.listLimit
      let s := if kept = e.list ∧ rest = [] then s.putStation way e else s.putChanged way { e with list := kept }
      let s := s.count (countReferences (e.list.filter fun i => !all.contains i).length)
      (rest.foldl (fun s i => s.freeOcc allWays i) s).count (countUnlisted rest.length)
    else s
  | none => s

/-- The loop and its members are read (DESIGN CHOICE, log 61). -/
def readMembers (l : Nat) (s : State) : State :=
  let s := s.checkLoop l
  match s.loop? l with
  | some r => if r.damaged then s else s.checkOccs r.members
  | none => s

/-- R196: a member that stays on its loop's list. -/
def State.isMemberOf (s : State) (l i : Nat) : Bool :=
  match s.occ? i with
  | some o => o.memberOf = some l
  | none => false

/-- R196: a member list loses what is not its member, and no station is marked for it (DESIGN CHOICE, log 66). -/
def pruneMembers (l : Nat) (s : State) : State :=
  match s.loop? l with
  | some r =>
    let kept := r.members.filter (s.isMemberOf l)
    if kept = r.members then s
    else (s.putLoop l { r with members := kept }).count (countReferences (r.members.length - kept.length))
  | none => s

/-- A loop named by a field is read. -/
def checkField (s : State) : Option Nat → State
  | some l => s.checkLoop l
  | none => s

/-- The record and the loops its fields name are read (DESIGN CHOICE, log 61). -/
def readFields (i : Nat) (s : State) : State :=
  let s := s.checkOcc i
  match s.occ? i with
  | some o => checkField (checkField s o.memberOf) o.opens
  | none => s

/-- R196: the member-of field names a loop that does not list the record, or a FREE loop. -/
def State.strayMember (s : State) (i : Nat) (o : Occ) : Bool :=
  match o.memberOf with
  | some l => match s.loop? l with
    | some r => !r.members.contains i
    | none => true
  | none => false

/-- R196: the opens-loop field names a loop opened on another record, or a FREE loop. -/
def State.strayOpens (s : State) (i : Nat) (o : Occ) : Bool :=
  match o.opens with
  | some l => match s.loop? l with
    | some r => r.openEnd ≠ i
    | none => true
  | none => false

/-- R196: stray loop fields of a record are cleared, and its station is marked for either (DESIGN CHOICE, log 66). -/
def clearFields (i : Nat) (s : State) : State :=
  match s.occ? i with
  | some o =>
    let m := s.strayMember i o
    let p := s.strayOpens i o
    if m || p then
      let o' := if m then { dropDrift o with memberOf := none } else o
      let o' := if p then { o' with opens := none } else o'
      ((s.putOcc i o').markOwner o.station i).count (countReferences ((if m then 1 else 0) + (if p then 1 else 0)))
    else s
  | none => s

/-- R196: the parts of the pass, in their order. -/
def referencesUnit (s : State) (k : Nat) : State :=
  if k < 256 then scanStep readList pruneList s k
  else if k < 768 then scanStep readOwner freeUnlisted s (k - 256)
  else if k < 1024 then scanStep readGathered rewriteList s (k - 768)
  else if k < 1040 then scanStep readMembers pruneMembers s (k - 1024)
  else scanStep readFields clearFields s (k - 1040)

/-- SCAN_REFERENCES (R196, pass 3). -/
def execScanReferences (steps : Nat) (s : State) : Host.Outcome State Fault Refusal :=
  blockEvent (scanPass 3 1552 referencesUnit steps) s

/-! ### Pass 4: windows -/

/-- R196: a record in SETTLING or COLLECTING is freed. -/
def freeWindow (i : Nat) (s : State) : State :=
  match s.occ? i with
  | some o =>
    if inWindow o then (s.freeOcc allWays i).count fun c => { c with windows := addHeld c.windows 1 } else s
  | none => s

def windowsUnit (s : State) (k : Nat) : State := scanStep (fun i s => s.checkOcc i) freeWindow s k

/-- SCAN_WINDOWS (R196, pass 4). -/
def execScanWindows (steps : Nat) (s : State) : Host.Outcome State Fault Refusal :=
  blockEvent (scanPass 4 512 windowsUnit steps) s

/-! ### Pass 5: order -/

/-- R197: an undamaged list is put in ascending epoch order. -/
def sortList (way : Nat) (s : State) : State :=
  match s.station? way with
  | some e =>
    let sorted := sortByKey s.orderKey e.list
    if e.damaged ∨ sorted = e.list then s
    else (s.putChanged way { e with list := sorted }).count fun c => { c with reordered := addHeld c.reordered 1 }
  | none => s

def orderUnit (s : State) (k : Nat) : State := scanStep readList sortList s k

/-- SCAN_ORDER (R197, pass 5). -/
def execScanOrder (steps : Nat) (s : State) : Host.Outcome State Fault Refusal :=
  blockEvent (scanPass 5 256 orderUnit steps) s

/-! ### Pass 6: loops without an anchor -/

/-- The loop and its endpoints are read (DESIGN CHOICE, log 61). -/
def readAnchor (l : Nat) (s : State) : State :=
  let s := s.checkLoop l
  match s.loop? l with
  | some r =>
    if r.damaged then s
    else
      let s := s.checkOcc r.openEnd
      match r.closing with
      | some j => s.checkOcc j
      | none => s
  | none => s

/-- R197: the open endpoint is there and names the loop. -/
def State.anchorStands (s : State) (l : Nat) (r : Loop) : Bool :=
  match s.occ? r.openEnd with
  | some o => o.opens = some l
  | none => false

/-- R197: the closing member of a CLOSED loop is on its list and, in mode DRIFT, later than the open endpoint. -/
def State.closingStands (s : State) (r : Loop) : Bool :=
  match r.closing with
  | some j => r.members.contains j && (r.mode ≠ some .drift || decide (s.orderKey r.openEnd < s.orderKey j))
  | none => false

def voidUnanchored (l : Nat) (s : State) : State :=
  match s.loop? l with
  | some r =>
    if s.anchorStands l r && (r.state ≠ .closed || s.closingStands r) then s
    else (s.voidSound l).count fun c => { c with voided := addHeld c.voided 1 }
  | none => s

def unanchoredUnit (s : State) (k : Nat) : State := scanStep readAnchor voidUnanchored s k

/-- SCAN_UNANCHORED_LOOPS (R197, pass 6). -/
def execScanUnanchoredLoops (steps : Nat) (s : State) : Host.Outcome State Fault Refusal :=
  blockEvent (scanPass 6 16 unanchoredUnit steps) s

/-! ### Pass 7: interrupted closes -/

/-- R197: the undone loop carries CLOSE_INTERRUPTED. -/
def State.noteInterrupted (s : State) (l : Nat) : State :=
  match s.loop? l with
  | some r => s.putLoop l { r with interrupted := true }
  | none => s

def undoInterrupted (l : Nat) (s : State) : State :=
  match s.loop? l with
  | some r =>
    if r.state = .closing then
      ((s.undoClose l).1.noteInterrupted l).count fun c => { c with undone := addHeld c.undone 1 }
    else s
  | none => s

def interruptedUnit (s : State) (k : Nat) : State := scanStep (fun l s => s.checkLoop l) undoInterrupted s k

/-- SCAN_INTERRUPTED_CLOSES (R197, pass 7). -/
def execScanInterruptedCloses (steps : Nat) (s : State) : Host.Outcome State Fault Refusal :=
  blockEvent (scanPass 7 16 interruptedUnit steps) s

/-! ### Pass 8: stray drift parts -/

/-- R197: a drift part that a CLOSED loop or the state FINAL accounts for: the record's field names the loop, whose list names
the record (DEDUCED, log 66). -/
def State.driftStands (s : State) (i : Nat) (o : Occ) : Bool :=
  o.state = .final ||
    match o.memberOf.bind s.loop? with
    | some r => r.state = .closed && r.members.contains i
    | none => false

/-- The record and its loop are read (DESIGN CHOICE, log 61). -/
def readDrift (i : Nat) (s : State) : State :=
  let s := s.checkOcc i
  match s.occ? i with
  | some o => if o.drift.isSome then checkField s o.memberOf else s
  | none => s

def removeStray (i : Nat) (s : State) : State :=
  match s.occ? i with
  | some o =>
    if o.drift.isSome && !s.driftStands i o then
      ((s.putOcc i (withoutDrift o)).markOwner o.station i).count fun c => { c with drifts := addHeld c.drifts 1 }
    else s
  | none => s

def strayUnit (s : State) (k : Nat) : State := scanStep readDrift removeStray s k

/-- SCAN_STRAY_DRIFT (R197, pass 8). -/
def execScanStrayDrift (steps : Nat) (s : State) : Host.Outcome State Fault Refusal :=
  blockEvent (scanPass 8 512 strayUnit steps) s

/-! ### The end (R195, R198) -/

/-- R195: the report is completed, the part enters READY, and SCAN_DONE is raised, in one access. -/
def State.scanDone (s : State) : State :=
  if s.inPass 9 then
    { s with part := .ready, scan := s.scan.map fun (c : Scan) => { c with ended := some s.epoch } }.raise .scanDone
  else s

/-- SCAN_DONE (R195). -/
def execScanDone (s : State) : Host.Outcome State Fault Refusal := blockEvent State.scanDone s

end Sys2Proof.Machine
end

