-- ==== Sys2Proof/Machine/Sensors.lean ====
section
/-! DEFINITION. The sensor inputs (spec/03): the gates of the period channels, their abandons, the lag
value, and the gravity sample input; and what the window does with what they deliver (R39 to R42). -/

namespace Sys2Proof.Machine

/-! ### Channels by name -/

def FrontEnd.chan (f : FrontEnd) : Channel → Chan
  | .tilt .x => f.x
  | .tilt .y => f.y
  | .temperature => f.t

def FrontEnd.setChan (f : FrontEnd) : Channel → Chan → FrontEnd
  | .tilt .x, c => { f with x := c }
  | .tilt .y, c => { f with y := c }
  | .temperature, c => { f with t := c }

def State.setFront (s : State) (f : FrontEnd) : State := { s with front := f }

def channelNumber : Channel → Nat
  | .tilt .x => 0
  | .tilt .y => 1
  | .temperature => 2

/-- R57: the gate length of a channel's group. -/
def groupLength (c : ConstNums) : Channel → Nat
  | .tilt _ => c.tiltGate.toNat
  | .temperature => c.tempGate.toNat

/-- R60, R61: the zero and the scale of a channel. -/
def zeroOf (c : ConstNums) : Channel → Int
  | .tilt .x => c.zeroX
  | .tilt .y => c.zeroY
  | .temperature => c.zeroT

def scaleOf (c : ConstNums) : Channel → Int
  | .tilt .x => c.scaleX
  | .tilt .y => c.scaleY
  | .temperature => c.scaleT

/-! ### Gates (R57 to R59) -/

/-- Log 21: the length of a gate that begins while the constants cannot be read. -/
def unreadLength (ch : Channel) : Nat := 16 + Config.unreadGateLength (channelNumber ch) % 4081

/-- R57: the length of a gate that an edge starts with none in progress. -/
def State.firstLength (s : State) (ch : Channel) : Nat :=
  if s.constants.damaged then unreadLength ch else groupLength s.constants.nums ch

/-- R57: a gate begins; a SEEKING channel becomes COUNTING. -/
def Chan.start (c : Chan) (length : Nat) : Chan :=
  { c with state := if c.state = .seeking then .counting else c.state,
           gate := some { length := length, edges := 0 }, periods := 0 }

/-- R55: an edge inside a gate. -/
def Chan.edge (c : Chan) (g : Gate) : Chan :=
  if g.edges + 1 < g.length then { c with gate := some { g with edges := g.edges + 1 } } else c

/-- A rising edge of a channel's sensor input: it starts a gate, or counts in the one in progress. -/
def State.risingEdge (ch : Channel) (s : State) : State :=
  let c := s.front.chan ch
  if !s.mainRuns || c.state = .off then s
  else match c.gate with
    | some g => s.setFront (s.front.setChan ch (c.edge g))
    | none =>
      let s := s.checkConstants false
      s.setFront (s.front.setChan ch (c.start (s.firstLength ch)))

/-- GATE_START (R57; log 22 with a gate in progress). -/
def execGateStart (ch : Channel) (s : State) : Host.Outcome State Fault Refusal :=
  blockEvent (State.risingEdge ch) s

/-- R57, R59: a gate completes and the next one begins. -/
def Chan.complete (_c : Chan) (length : Nat) : Chan :=
  { state := .counting, gate := some { length := length, edges := 0 }, periods := 0, abandons := 0 }

/-- R57, R170: the length of the gate that begins at a completing edge. -/
def State.nextLength (s : State) (ch : Channel) (g : Gate) : Nat :=
  if s.constants.damaged then g.length else groupLength s.constants.nums ch

/-- A gate that completes now, with its result: one in progress on a running channel, whose period count has not passed
the abandon count before this edge (R58, log 7). -/
def State.completing (s : State) (ch : Channel) (periods : Nat) : Option (Gate × Nat) :=
  let c := s.front.chan ch
  if s.mainRuns && c.state ≠ .off && decide (c.periods + periods ≤ Config.abandonCount) then
    c.gate.map fun g => (g, c.periods + periods)
  else none

/-- R57, R64, R170: the completing edge: the constants are read, and the next gate begins. -/
def State.completeGate (s : State) (ch : Channel) (g : Gate) : State :=
  let s := s.checkConstants false
  s.setFront (s.front.setChan ch ((s.front.chan ch).complete (s.nextLength ch g)))

/-- R60, R61: a gate's result converted, exact and rounded, before the clamp. -/
def converted (c : ConstNums) (ch : Channel) (p : Nat) : Int := roundDiv (((p : Int) - zeroOf c ch) * scaleOf c ch) 65536

/-! ### Tilt values (R60, R40, R41) -/

/-- R60: the tilt value, with its range mark. -/
def tiltValue (c : ConstNums) (a : Axis) (p : Nat) : Int × Bool :=
  let z := converted c (.tilt a) p
  (clampTo (-2000) 2000 z, !validTilt z)

/-- R63: a channel's value is held. -/
def FrontEnd.holdTilt (f : FrontEnd) : Axis → Int → FrontEnd
  | .x, v => { f with heldX := some v }
  | .y, v => { f with heldY := some v }

/-- R40: the window's last tilt is replaced. -/
def Sums.lastTilt (m : Sums) : Axis → Int → Sums
  | .x, v => { m with lastX := some v }
  | .y, v => { m with lastY := some v }

/-- R40: a tilt value is accumulated. -/
def Sums.addTilt (m : Sums) : Axis → Int → Sums
  | .x, v => { m with tiltX2 := m.tiltX2 + v.natAbs * v.natAbs, mx := m.mx + 1 }
  | .y, v => { m with tiltY2 := m.tiltY2 + v.natAbs * v.natAbs, my := m.my + 1 }

/-- R40, R41: what a tilt value does to a window in COLLECTING. -/
def State.tiltToWindow (s : State) (a : Axis) (v : Int) (range : Bool) (w : Window) : State :=
  if s.clamp then { s with window := some { w with sums := w.sums.lastTilt a v } }
  else
    let w := { w with sums := (w.sums.lastTilt a v).addTilt a v, tiltRange := w.tiltRange || range }
    if (v.natAbs : Int) ≤ s.constants.nums.tiltLimit then { s with window := some w }
    else if w.abortOnTilt then (s.raise .tiltLimit).removeWindow w (waysOf w.station) .tilt
    else
      let s := if w.tiltRaised then s else s.raise .tiltLimit
      { s with window := some { w with tiltLimit := true, tiltRaised := true } }

/-- A delivery to a window in COLLECTING. -/
def State.toCollecting (s : State) (f : Window → State) : State :=
  match s.window with
  | some w =>
    match w.phase with
    | .collecting _ _ _ => f w
    | .settling _ => s
  | none => s

/-- R60: the value is held and delivered. -/
def State.deliverTilt (s : State) (a : Axis) (p : Nat) : State :=
  let v := tiltValue s.constants.nums a p
  let s := s.setFront (s.front.holdTilt a v.1)
  s.toCollecting (s.tiltToWindow a v.1 v.2)

def State.tiltGate (a : Axis) (periods : Nat) (s : State) : State :=
  match s.completing (.tilt a) periods with
  | some (g, p) =>
    let s := s.completeGate (.tilt a) g
    if s.constants.damaged then s else s.deliverTilt a p
  | none => s

/-- TILT_GATE_COMPLETE (R57, R60, R40, R41). -/
def execTiltGateComplete (a : Axis) (periods : Nat) (s : State) : Host.Outcome State Fault Refusal :=
  blockEvent (State.tiltGate a periods) s

/-! ### Temperature values (R61, R62, R42) -/

/-- R62: the lag value after a temperature gate. -/
def nextLag (c : ConstNums) (lag : Option Int) (t : Int) : Int :=
  match lag with
  | none => t
  | some l => l + roundDiv ((t - l) * c.lagFactor) 256

/-- R61: the temperature value, clamped without a mark. -/
def tempValue (c : ConstNums) (p : Nat) : Int := clampTo (-50000) 50000 (converted c .temperature p)

/-- R42: what a temperature value and its lag value do to a window in COLLECTING. -/
def State.tempToWindow (s : State) (t l : Int) (w : Window) : State :=
  let m := { w.sums with lastT := some t, lastL := some l }
  let m := if s.clamp then m else { m with sumTemp := m.sumTemp + t, sumLag := m.sumLag + l, k := m.k + 1 }
  { s with window := some { w with sums := m } }

/-- R61: the lag is updated, the value held, and both delivered. -/
def State.deliverTemp (s : State) (p : Nat) : State :=
  let t := tempValue s.constants.nums p
  let l := nextLag s.constants.nums s.front.lag t
  let s := s.setFront { s.front with heldT := some t, lag := some l }
  s.toCollecting (s.tempToWindow t l)

def State.tempGate (periods : Nat) (s : State) : State :=
  match s.completing .temperature periods with
  | some (g, p) =>
    let s := s.completeGate .temperature g
    if s.constants.damaged then s else s.deliverTemp p
  | none => s

/-- TEMPERATURE_GATE_COMPLETE (R57, R61, R62, R42). -/
def execTemperatureGateComplete (periods : Nat) (s : State) : Host.Outcome State Fault Refusal :=
  blockEvent (State.tempGate periods) s

/-! ### Abandons (R58, R59) -/

/-- R58: the gate or the wait is dropped, and the count runs on from zero. -/
def Chan.abandon (c : Chan) : Chan :=
  { state := if c.abandons + 1 ≥ 3 ∧ c.state ≠ .off then .fault else c.state,
    gate := none, periods := 0, abandons := min (c.abandons + 1) 3 }

/-- R59: the abandon makes the channel FAULT. -/
def Chan.faults (c : Chan) : Bool := c.abandons + 1 ≥ 3 && (c.state = .seeking || c.state = .counting)

def State.abandonGate (ch : Channel) (s : State) : State :=
  let c := s.front.chan ch
  if !s.mainRuns || c.state = .off then s
  else
    let s := s.setFront (s.front.setChan ch c.abandon)
    if c.faults then s.raise .sensorFault else s

/-- ABANDON (R58, R59): the row stands for the periods that remain (log 7). -/
def execAbandon (ch : Channel) (s : State) : Host.Outcome State Fault Refusal :=
  blockEvent (State.abandonGate ch) s

/-! ### Gravity sample input (R65 to R69, R39) -/

/-- R65, R72: the start of a frame is seen. -/
def execGsiFrmAsserted (s : State) : Host.Outcome State Fault Refusal :=
  blockEvent (fun s => if s.mainRuns then s.setFront { s.front with receiving := true } else s) s

/-- SHORT_FRAME (R66): the frame is discarded. -/
def execShortFrame (s : State) : Host.Outcome State Fault Refusal :=
  blockEvent (fun s => s.setFront { s.front with receiving := false }) s

/-- R65: the fields of a frame. -/
def frameSeq (w : BitVec 32) : Nat := (w.extractLsb' 28 4).toNat
def frameOverload (w : BitVec 32) : Bool := w.getLsbD 27
def frameCount (w : BitVec 32) : Int := (w.extractLsb' 0 24).toInt

/-- R67: the break that a frame reports, 0 for none. -/
def breakOf (live : Option GsiLive) (seq : Nat) : Nat :=
  match live with
  | some g => (seq + 16 - g.expected) % 16
  | none => 0

/-- R39: a sequence break in a window in COLLECTING. -/
def State.breakToWindow (s : State) (n : Nat) (w : Window) : State :=
  let s := if w.breakRaised then s else s.raise .sampleBreak
  { s with window := some { w with sums := { w.sums with breaks := addHeld w.sums.breaks n }, breakRaised := true } }

/-- R39: a frame in a window in COLLECTING, in its order: clamped, overload, accepted. -/
def Window.addFrame (w : Window) (clamp overload : Bool) (x : Int) (offset : Nat) : Window :=
  if clamp then { w with sums := { w.sums with clamped := addHeld w.sums.clamped 1 }, clamped := true }
  else if overload then { w with sums := { w.sums with overload := addHeld w.sums.overload 1 }, overload := true }
  else { w with sums := { w.sums with sumX := w.sums.sumX + x, sumX2 := w.sums.sumX2 + x.natAbs * x.natAbs,
                                      n := w.sums.n + 1, sumT := w.sums.sumT + offset } }

/-- R39, R68: the frame is delivered with its arrival tick. -/
def State.frameToWindow (s : State) (word : BitVec 32) : State :=
  match s.window with
  | some w =>
    match w.phase with
    | .collecting start _ _ =>
      { s with window := some (w.addFrame s.clamp (frameOverload word) (frameCount word) (s.epoch - start)) }
    | .settling _ => s
  | none => s

/-- R68: one arrival: the sequence check, the silence count, the delivery. -/
def State.frame (word : BitVec 32) (s : State) : State :=
  if !(s.mainRuns && s.front.receiving) then s
  else
    let seq := frameSeq word
    let b := breakOf s.front.live seq
    let s := if b = 0 then s else s.toCollecting (s.breakToWindow b)
    let s := s.setFront { s.front with live := some { silence := 0, expected := (seq + 1) % 16 }, receiving := false }
    s.frameToWindow word

/-- GSI_FRAME (R65, R67, R68, R39). -/
def execGsiFrame (word : BitVec 32) (s : State) : Host.Outcome State Fault Refusal :=
  blockEvent (State.frame word) s

/-- SILENCE_COUNT_COMPLETE (R69, R46). -/
def execSilenceCountComplete (s : State) : Host.Outcome State Fault Refusal :=
  blockEvent State.takeSilence s

end Sys2Proof.Machine
end

