-- ==== Sys2Proof/Machine/Service.lean ====
section
/-! DEFINITION. Service control (spec/11): power, the reset line, RESET, wake and standby, and the restore
commands. -/

namespace Sys2Proof.Machine

/-! ### Power and reset (R193, R194) -/

/-- R193: power-on, with the levels of the pins and the model's own fields kept. -/
def State.powerOn (s : State) : State :=
  { State.reset with clamp := s.clamp, resetHeld := s.resetHeld, idles := s.idles, pending := s.pending }

/-- POWER_ON (R193). -/
def execPowerOn (s : State) : Host.Outcome State Fault Refusal := blockEvent State.powerOn s

/-- R194: RESET_N falls: the main domain is held in reset, and the event block clear. -/
def State.holdReset (s : State) : State :=
  let s := s.mainReset
  { s with resetHeld := true, events := clearEvents, link := s.link.ignorePeriod }

/-- RESET_LINE_ASSERTED (R194). -/
def execResetLineAsserted (s : State) : Host.Outcome State Fault Refusal := blockEvent State.holdReset s

/-- RESET_LINE_RELEASED (R194). -/
def execResetLineReleased (s : State) : Host.Outcome State Fault Refusal := blockEvent State.resetNow s

def resetBody (s : State) : State := s.resetNow

/-- RESET (R194, R186): accepted without a response. -/
def execReset (s : State) : Host.Outcome State Fault Refusal := hostCommand .reset .always resetBody s

/-! ### Standby and wake (R205, R72) -/

/-- R205: the part can stand by. -/
def State.quiet (s : State) : Bool := s.window.isNone && s.engine.state = .idle && s.engine.queue.isEmpty

/-- R72: a gate in progress is dropped. -/
def Chan.drop (c : Chan) : Chan := { c with gate := none }

/-- R72: the front end stops. -/
def FrontEnd.stop (f : FrontEnd) : FrontEnd :=
  { f with x := f.x.drop, y := f.y.drop, t := f.t.drop, receiving := false }

/-- R205: the accepted STANDBY, without a response. -/
def State.standBy (s : State) : State :=
  { s with part := .standby, front := s.front.stop, link := s.link.cleared.ignorePeriod }

def standbyBody (s : State) : State := if s.quiet then s.standBy else s.refuse .busy

/-- STANDBY (R205). -/
def execStandby (s : State) : Host.Outcome State Fault Refusal := hostCommand .standby .ready standbyBody s

/-- R205, R194: a falling edge on WAKE_N acts in standby, and not while RESET_N is low. One that comes together with the release
is taken before it with no effect, or after it in STARTING (DESIGN CHOICE, log 65). -/
def State.wake (s : State) : State :=
  if s.part = .standby ∧ ¬s.resetHeld then
    { s.startFront with part := .ready, link := s.link.cleared }
  else s

/-- WAKE (R205). -/
def execWake (s : State) : Host.Outcome State Fault Refusal := blockEvent State.wake s

/-! ### Restore (R199 to R203) -/

/-- R199: every way, record and loop FREE, the engine IDLE and no window open. -/
def State.cleared (s : State) : Bool :=
  s.stations.isEmpty && s.occs.isEmpty && s.loops.isEmpty && s.engine.state = .idle && s.window.isNone

def beginRestoreBody (s : State) : State :=
  if s.cleared then { s with part := .restore }.respond .ok [] else s.refuse .busy

/-- BEGIN RESTORE (R199). -/
def execBeginRestore (s : State) : Host.Outcome State Fault Refusal :=
  hostCommand .beginRestore .ready beginRestoreBody s

/-- R200: the fields of a loaded station within their ranges. -/
def loadStationInRange (r : LoadStationReq) : Bool :=
  (roleOf r.role).isSome && decide (r.site < 8) && optAll validReference r.reference && (yesNo r.pinned).isSome &&
  (yesNo r.changed).isSome && r.list.all (fun i => decide (i < Config.poolSize)) && distinct r.list &&
  !(roleOf r.role = some .field && r.reference.isSome)

/-- R200: the entry as loaded. -/
def loadedStation (r : LoadStationReq) : Station :=
  { number := r.number, state := .active, damaged := false, sound := true, role := (roleOf r.role).getD .base,
    pinned := r.pinned = 1, site := r.site, reference := r.reference, tag := r.tag, list := r.list,
    changed := r.changed = 1 }

def loadStationBody (r : LoadStationReq) (s : State) : State :=
  if r.list.length > Config.listLimit then s.badLength (.loadStation r)
  else if !validNumber r.number then s.refuse .badKey
  else if !loadStationInRange r then s.refuse .badValue
  else match lowestFree s.stations (waysOf r.number) with
    | some w => ((s.putStation w (loadedStation r)).touch w).respond .ok (u8 (w / 4) ++ u8 (w % 4))
    | none => s.refuse .setFull

/-- LOAD STATION (R200). -/
def execLoadStation (r : LoadStationReq) (s : State) : Host.Outcome State Fault Refusal :=
  hostCommand (.loadStation r) .restore (loadStationBody r) s

/-- R201: the ranges of results (R75). -/
def resultsInRange (r : Results) : Bool :=
  validGravity r.raw && optAll (· ≤ 134217727) r.noise && inRange 0 39360 r.ctilt && inRange (-3276700) 3276700 r.ctemp &&
  inRange (-24000) 24000 r.ctide && validGravity r.v && decide (r.revision ≤ 65535) && decide (r.site < 8) &&
  decide (r.siteRevision ≤ 65535)

/-- R201: the ranges of a drift part (R126). -/
def driftInRange (d : DriftPart) : Bool :=
  validGravity d.correction && validGravity d.final && validGravity d.vOpen && optAll validReference d.rOpen &&
  validGravity d.rate

/-- R201: the ranges of sums, counts and last values (R29; log 30). -/
def sumsInRange (m : LoadSums) : Bool :=
  decide (0 ≤ m.sumX2) && decide (1 ≤ m.n) && decide (0 ≤ m.sumT) && decide (m.overload ≤ 65535) &&
  decide (m.clamped ≤ 65535) && decide (m.breaks ≤ 65535) && decide (0 ≤ m.tiltX2) && decide (0 ≤ m.mx) &&
  decide (0 ≤ m.tiltY2) && decide (0 ≤ m.my) && decide (0 ≤ m.k) && optAll validTilt m.lastX &&
  optAll validTilt m.lastY && optAll validTemp m.lastT && optAll validTemp m.lastL

/-- R201: what each state asks of the results and the drift part. -/
def groupsAgree (st : OccState) (results drift : Bool) : Bool :=
  (match st with
   | .pending => !results && !drift
   | .reduced => results
   | .final => results && drift
   | .settling => false
   | .collecting => false) && (results || !drift)

/-- R201: the fields of a loaded occupation within their ranges. -/
def loadOccInRange (r : LoadOccupationReq) : Bool :=
  decide (r.settle ≤ 300) && decide (10 ≤ r.duration) && decide (r.duration ≤ 600) &&
  (yesNo r.abortOnTilt).isSome && optAll (· < Config.loops) r.memberOf && optAll (· < Config.loops) r.opens &&
  (match r.startTick, r.epoch, r.openRevision with
   | some a, some b, some c => validEpoch a && validEpoch b && decide (c ≤ 65535)
   | _, _, _ => false) &&
  sumsInRange r.sums && !r.oddFlag && optAll resultsInRange r.results && optAll driftInRange r.drift

/-- R201: the sums as installed. -/
def loadedSums (m : LoadSums) : Sums :=
  { sumX := m.sumX, sumX2 := m.sumX2.toNat, n := m.n.toNat, sumT := m.sumT.toNat, overload := m.overload,
    clamped := m.clamped, breaks := m.breaks, tiltX2 := m.tiltX2.toNat, mx := m.mx.toNat, tiltY2 := m.tiltY2.toNat,
    my := m.my.toNat, lastX := m.lastX, lastY := m.lastY, sumTemp := m.sumTemp, sumLag := m.sumLag, k := m.k.toNat,
    lastT := m.lastT, lastL := m.lastL }

/-- R201: the record as installed. -/
def loadedOcc (st : OccState) (r : LoadOccupationReq) : Occ :=
  { state := st, damaged := false, sound := true, station := r.number, settle := r.settle, duration := r.duration,
    abortOnTilt := r.abortOnTilt = 1, memberOf := r.memberOf, opens := r.opens,
    reading := some { startTick := r.startTick.getD 0, epoch := r.epoch.getD 0, openRevision := r.openRevision.getD 0,
                      sums := loadedSums r.sums },
    results := r.results, drift := r.drift, flags := r.flags }

def loadOccupationBody (i : Nat) (r : LoadOccupationReq) (s : State) : State :=
  if !validNumber r.number then s.refuse .badKey
  else if !(i < Config.poolSize) then s.refuse .badValue
  else if (s.occ? i).isSome then s.refuse .inUse
  else match loadedOccState r.state with
    | none => s.refuse .badValue
    | some st =>
      if !loadOccInRange r || !groupsAgree st r.results.isSome r.drift.isSome then s.refuse .badValue
      else (s.putOcc i (loadedOcc st r)).respond .ok []

/-- LOAD OCCUPATION (R201, R6). -/
def execLoadOccupation (i : Nat) (r : LoadOccupationReq) (s : State) : Host.Outcome State Fault Refusal :=
  hostCommand (.loadOccupation i r) .restore (loadOccupationBody i r) s

/-- R202: CLOSING or CLOSED, the states with a closing member and a mode. -/
def hasClosing : LoopState → Bool
  | .closing => true
  | .closed => true
  | _ => false

/-- R202: the fields of a loaded loop within their ranges, and those of its state. -/
def loadLoopInRange (st : LoopState) (r : LoadLoopReq) : Bool :=
  decide (r.openEnd < Config.poolSize) && validEpoch r.openEpoch && validEpoch r.deadline &&
  r.members.all (fun i => decide (i < Config.poolSize)) && distinct r.members && optAll (fun i => r.members.contains i) r.closing &&
  optAll (fun m => (modeOf m).isSome) r.mode && optAll validGravity r.deltaV && optAll validGravity r.rate &&
  (yesNo r.driftHigh).isSome && (yesNo r.interrupted).isSome &&
  r.closing.isSome = hasClosing st && r.mode.isSome = hasClosing st &&
  r.deltaV.isSome = decide (st = .closed) && r.rate.isSome = decide (st = .closed)

/-- R202: the loop as installed. -/
def loadedLoop (st : LoopState) (r : LoadLoopReq) : Loop :=
  { state := st, damaged := false, sound := true, openEnd := r.openEnd, openEpoch := r.openEpoch, deadline := r.deadline,
    members := r.members, closing := r.closing, mode := r.mode.bind modeOf, deltaV := r.deltaV, rate := r.rate,
    driftHigh := r.driftHigh = 1, interrupted := r.interrupted = 1 }

def loadLoopBody (r : LoadLoopReq) (s : State) : State :=
  if r.members.length > Config.memberLimit then s.badLength (.loadLoop r)
  else if !(r.loop < Config.loops) then s.refuse .badValue
  else if (s.loop? r.loop).isSome then s.refuse .loopState
  else match loadedLoopState r.state with
    | none => s.refuse .badValue
    | some st =>
      if !loadLoopInRange st r then s.refuse .badValue
      else (s.putLoop r.loop (loadedLoop st r)).respond .ok []

/-- LOAD LOOP (R202). -/
def execLoadLoop (r : LoadLoopReq) (s : State) : Host.Outcome State Fault Refusal :=
  hostCommand (.loadLoop r) .restore (loadLoopBody r) s

/-- R203: what either end of a restore makes absent. -/
def State.dropLast (s : State) : State := { s with lastWindow := none, engine := { s.engine with last := none } }

def endRestoreBody (s : State) : State := (s.dropLast.respond .ok []).beginScan .endRestore

/-- END RESTORE (R203). -/
def execEndRestore (s : State) : Host.Outcome State Fault Refusal :=
  hostCommand .endRestore .restore endRestoreBody s

def abortRestoreBody (s : State) : State :=
  { s.dropLast with stations := [], recency := [], occs := [], loops := [], expiryDue := [], part := .ready }.respond .ok []

/-- ABORT RESTORE (R203). -/
def execAbortRestore (s : State) : Host.Outcome State Fault Refusal :=
  hostCommand .abortRestore .restore abortRestoreBody s

def readScanReportBody (s : State) : State := s.respond .ok (optBytes scanBytes s.scan)

/-- READ SCAN REPORT (R198). -/
def execReadScanReport (s : State) : Host.Outcome State Fault Refusal :=
  hostCommand .readScanReport .always readScanReportBody s

end Sys2Proof.Machine
end

