-- ==== Sys2Proof/Machine/Stations.lean ====
section
/-! DEFINITION. The station commands (spec/01): OPEN, EDIT, FIND, READ, RETIRE by key, READ and RETIRE by
slot. -/

namespace Sys2Proof.Machine

/-! ### Freeing a way (R22 to R24) -/

/-- R24: the records of a damaged entry, gathered from the pool. -/
def State.gather (s : State) (way number : Nat) : List Nat :=
  (slotKeys s.occs).filter fun i =>
    (match s.occ? i with | some o => o.station = number | none => false) &&
    !(s.matching number).any fun w =>
      w ≠ way &&
        match s.station? w with
        | some e => !e.damaged && e.list.contains i
        | none => false

/-- R22, R24: the occupations of the entry on a way. -/
def State.occsOfWay (s : State) (way : Nat) (e : Station) : List Nat :=
  if e.damaged then s.gather way e.number else e.list

/-- R24, R111: what a retirement reads beyond the loop table: for a damaged entry the other ways of its number and the
whole pool, and where a loop has failed its check the loop fields of the entry's own records, which are used as stored
(DESIGN CHOICE, log 60). -/
def State.readWay (s : State) (way : Nat) (e : Station) : State :=
  if e.damaged then (s.checkStations ((waysOf e.number).filter (· ≠ way))).checkPool else s.checkNaming e.list

/-- R22: the in-use check of a retirement. -/
def State.wayInUse (s : State) (way : Nat) (e : Station) : Bool := (s.occsOfWay way e).any s.occInUse

/-- R23: the way is freed with its occupations; the count of records freed. -/
def State.freeWay (s : State) (way : Nat) (e : Station) : State × Nat :=
  let is := (s.occsOfWay way e).filter fun i => (s.occ? i).isSome
  (is.foldl (fun s i => s.freeOcc (waysOfSet (way / 4)) i) (s.freeEntry way), is.length)

/-! ### Opening (R10 to R14) -/

/-- R12: what the victim search asks of the entry itself. -/
def candidate (e : Station) : Bool := e.state = .active && !e.damaged && !e.pinned && !e.changed

/-- R12: an occupation that leaves its station settled. -/
def State.occSettled (s : State) (i : Nat) : Bool :=
  match s.occ? i with
  | some o => (o.state = .reduced || o.state = .final) && !o.damaged && !s.isMember anyState i && !s.isOpenEnd anyState i
  | none => true

/-- R12: the way is a victim. -/
def State.isVictim (s : State) (way : Nat) : Bool :=
  match s.station? way with
  | some e => candidate e && e.list.all s.occSettled
  | none => false

/-- R12: the search reads the occupations of each candidate and the loop table. A candidate is here an entry that
nothing of its own keeps from being a victim (DESIGN CHOICE, log 51). -/
def State.readCandidate (s : State) (way : Nat) : State :=
  match s.station? way with
  | some e => if candidate e then (s.checkOccs e.list).checkLoops else s
  | none => s

/-- R11: the least recently touched victim of a set. -/
def State.victim (s : State) (set : Nat) : Option Nat := (s.order set).reverse.find? s.isVictim

/-- R14: the new entry. -/
def newEntry (r : OpenStationReq) (role : Role) (pinned : Bool) : Station :=
  { number := r.number, state := .active, damaged := false, sound := true, role := role, pinned := pinned,
    site := r.site, reference := r.reference, tag := r.tag, list := [], changed := true }

/-- R14: the entry is written in its way and takes the most recent place. -/
def State.install (s : State) (way : Nat) (e : Station) (reclaimed : Option Nat) : State :=
  ((s.putStation way e).touch way).respond .ok (u8 (way / 4) ++ u8 (way % 4) ++ optBytes u16 reclaimed)

/-- R11, R13: a way for the entry, a victim's if the set has no FREE one. Another entry that lists an occupation of the victim
loses it and is marked changed, as R23 has it (DESIGN CHOICE, log 15). -/
def State.placeEntry (s : State) (e : Station) : State :=
  let set := e.number % 64
  match lowestFree s.stations (waysOfSet set) with
  | some w => s.install w e none
  | none =>
    let s := (waysOfSet set).foldl State.readCandidate s
    match s.victim set with
    | some v =>
      match s.station? v with
      | some old => (s.freeWay v old).1.install v e (some old.number)
      | none => s.refuse .setFull
    | none => s.refuse .setFull

def openStationBody (r : OpenStationReq) (s : State) : State :=
  if !validNumber r.number then s.refuse .badKey
  else match roleOf r.role, yesNo r.pinned with
    | some role, some pinned =>
      if !(r.site < 8) || !optAll validReference r.reference then s.refuse .badValue
      else if role = .field ∧ r.reference.isSome then s.refuse .notBase
      else match s.keyedLookup r.number with
        | (s, .noStation) => s.placeEntry (newEntry r role pinned)
        | (s, .found _) => s.refuse .stationExists
        | (s, out) => s.refuse out.status
    | _, _ => s.refuse .badValue

/-- OPEN STATION (R10 to R14). -/
def execOpenStation (r : OpenStationReq) (s : State) : Host.Outcome State Fault Refusal :=
  hostCommand (.openStation r) .ready (openStationBody r) s

/-! ### Editing (R15 to R17) -/

/-- The reference after a reference action. -/
def editReference (old : Option Nat) : Option RefAction → Option Nat
  | none => old
  | some (.set v) => some v
  | some .clear => none
  | some (.unnamed _) => old

/-- R15: each present field lies within its range. -/
def editInRange (r : EditStationReq) : Bool :=
  optAll (fun c => (roleOf c).isSome) r.role && optAll (· < 8) r.site && optAll (fun c => (yesNo c).isSome) r.pinned &&
    match r.reference with
    | some (.set v) => validReference v
    | some (.unnamed _) => false
    | _ => true

/-- R15: the entry as it stands after the edit. -/
def edited (r : EditStationReq) (e : Station) : Station :=
  { e with
    role := (r.role.bind roleOf).getD e.role
    site := r.site.getD e.site
    reference := editReference e.reference r.reference
    pinned := (r.pinned.bind yesNo).getD e.pinned
    tag := r.tag.getD e.tag }

/-- R15, R16. A change of role or reference reads the loop table and, where a loop is damaged, the loop fields of the
listed records. One that newly fails its check gains its mark, and the edit is still judged by its stored fields (DESIGN
CHOICE, log 60). -/
def editStationBody (r : EditStationReq) (s : State) : State :=
  if !validNumber r.number then s.refuse .badKey
  else if !editInRange r then s.refuse .badValue
  else match s.keyedLookup r.number with
    | (s, .found w) =>
      match s.station? w with
      | some e =>
        let e' := edited r e
        if e'.role = .field ∧ e'.reference.isSome then s.refuse .notBase
        else
          let restricted := e'.role ≠ e.role ∨ e'.reference ≠ e.reference
          let s := if restricted then s.checkLoops.checkNaming e.list else s
          if restricted ∧ e.list.any s.isEndpoint then s.refuse .inUse
          else
            let e' := { e' with changed := true }
            ((s.putChanged w e').touch w).respond .ok (stationBytes w e')
      | none => s.refuse .noStation
    | (s, out) => s.refuse out.status

/-- EDIT STATION (R15 to R17). -/
def execEditStation (r : EditStationReq) (s : State) : Host.Outcome State Fault Refusal :=
  hostCommand (.editStation r) .ready (editStationBody r) s

/-! ### Finding and reading (R18 to R20) -/

def findStationBody (n : Nat) (s : State) : State :=
  if !validNumber n then s.refuse .badKey
  else match s.keyedLookup n with
    | (s, .found w) => (s.touch w).respond .ok (u8 (w / 4) ++ u8 (w % 4))
    | (s, out) => s.refuse out.status

/-- FIND STATION (R18). -/
def execFindStation (n : Nat) (s : State) : Host.Outcome State Fault Refusal :=
  hostCommand (.findStation n) .readyRestore (findStationBody n) s

def readStationBody (n : Nat) (s : State) : State :=
  if !validNumber n then s.refuse .badKey
  else match s.keyedLookup n with
    | (s, .found w) =>
      let s := (s.touch w).readOut w
      match s.station? w with
      | some e => if e.damaged then s.refuse .damaged else s.respond .ok (stationBytes w e)
      | none => s.refuse .noStation
    | (s, out) => s.refuse out.status

/-- READ STATION (R19): the entry is touched, and read again as it is read out. -/
def execReadStation (n : Nat) (s : State) : Host.Outcome State Fault Refusal :=
  hostCommand (.readStation n) .readyRestore (readStationBody n) s

/-- R20: the rank of a way in its set, 0 for the most recently touched. -/
def State.rank (s : State) (way : Nat) : Nat := (s.order (way / 4)).findIdx (· = way)

def readSlotBody (set way : Nat) (s : State) : State :=
  if !(set < 64) || !(way < 4) then s.refuse .badValue
  else
    let w := set * 4 + way
    let s := s.checkStation w
    match s.station? w with
    | none => s.respond .ok (u8 0)
    | some e => if e.damaged then s.refuse .damaged else s.respond .ok (stationBytes w e ++ u8 (s.rank w))

/-- READ SLOT (R20). -/
def execReadSlot (set way : Nat) (s : State) : Host.Outcome State Fault Refusal :=
  hostCommand (.readSlot set way) .readyRestore (readSlotBody set way) s

/-! ### Retiring (R21 to R24) -/

/-- R22, R23: the in-use check of a way that is not FREE, with the whole loop table read first (DESIGN CHOICE, log 61),
then the freeing; `answer` makes the payload from the count freed, which takes two bytes for a sound entry too (DESIGN
CHOICE, log 11). -/
def State.retire (s : State) (way : Nat) (answer : Station → Nat → List Byte) : State :=
  match s.station? way with
  | some e =>
    let s := s.checkLoops.readWay way e
    if s.wayInUse way e then s.refuse .inUse
    else
      let p := s.freeWay way e
      p.1.respond .ok (answer e p.2)
  | none => s.refuse .noStation

def retireStationBody (n : Nat) (s : State) : State :=
  if !validNumber n then s.refuse .badKey
  else
    let answer (w : Nat) (_ : Station) (k : Nat) := u8 (w / 4) ++ u8 (w % 4) ++ u16 k
    match s.keyedLookup n with
    | (s, .found w) => s.retire w (answer w)
    | (s, .damaged w) => s.retire w (answer w)
    | (s, out) => s.refuse out.status

/-- RETIRE STATION (R21): a lone damaged match is accepted. -/
def execRetireStation (n : Nat) (s : State) : Host.Outcome State Fault Refusal :=
  hostCommand (.retireStation n) .ready (retireStationBody n) s

/-- R23, R24: the way is read and retired. One that newly fails its check in this read gains its mark and is retired as one
that carries it, and the command is not answered DAMAGED (DESIGN CHOICE, log 64). -/
def retireSlotBody (set way : Nat) (s : State) : State :=
  if !(set < 64) || !(way < 4) then s.refuse .badValue
  else (s.checkStation (set * 4 + way)).retire (set * 4 + way) fun e k => u16 e.number ++ u16 k

/-- RETIRE SLOT (R23): a FREE way answers NO_STATION. -/
def execRetireSlot (set way : Nat) (s : State) : Host.Outcome State Fault Refusal :=
  hostCommand (.retireSlot set way) .ready (retireSlotBody set way) s

end Sys2Proof.Machine
end

