-- ==== Sys2Proof/Machine/Tables.lean ====
section
/-! DEFINITION. The tide commands (spec/05, R93 to R97) and the constants commands (spec/09, R171 to
R174). -/

namespace Sys2Proof.Machine

/-! ### Tide tables -/

/-- R96: a site's revision advances by one; its mark and its contents stay as they stand. -/
def Site.advance (c : Site) : Site := { c with revision := nextRevision c.revision, sound := true }

/-- R93: the entry as written. -/
def writtenConstituent (enabled : Bool) (speed phase : Nat) : Constituent :=
  { enabled := enabled, speed := speed, phase := phase, damaged := false, sound := true }

def writeConstituentBody (k enabled speed phase : Nat) (s : State) : State :=
  match yesNo enabled with
  | none => s.refuse .badValue
  | some en =>
    if !(k < Config.constituents) || !(1 ≤ speed && speed ≤ 16777215) || !(phase ≤ 65535) then s.refuse .badValue
    else
      let s := { s.setConstituent k (writtenConstituent en speed phase) with sites := s.sites.map Site.advance }
      s.respond .ok (s.sites.toList.flatMap fun c => u16 c.revision)

/-- WRITE CONSTITUENT (R93). -/
def execWriteConstituent (k enabled speed phase : Nat) (s : State) : Host.Outcome State Fault Refusal :=
  hostCommand (.writeConstituent k enabled speed phase) .readyRestore (writeConstituentBody k enabled speed phase) s

/-- R94: the pairs within their ranges. -/
def pairsInRange (ps : List (Nat × Nat)) : Bool := ps.all fun p => p.1 ≤ 2000 && p.2 ≤ 65535

/-- R94: the site as written. -/
def writtenSite (pairs : List (Nat × Nat)) (old : Site) : Site :=
  { set := true, revision := nextRevision old.revision, pairs := pairs, damaged := false, sound := true }

def writeSiteBody (k : Nat) (pairs : List (Nat × Nat)) (s : State) : State :=
  if pairs.length ≠ 12 then s.badLength (.writeSite k pairs)
  else if !(k < Config.sites) || !pairsInRange pairs then s.refuse .badValue
  else
    let c := writtenSite pairs (s.site k)
    (s.setSite k c).respond .ok (u8 k ++ u16 c.revision)

/-- WRITE SITE (R94). -/
def execWriteSite (k : Nat) (pairs : List (Nat × Nat)) (s : State) : Host.Outcome State Fault Refusal :=
  hostCommand (.writeSite k pairs) .readyRestore (writeSiteBody k pairs) s

/-- R95: the site as cleared. -/
def clearedSite (old : Site) : Site := { clearSite with revision := nextRevision old.revision }

def clearSiteBody (k : Nat) (s : State) : State :=
  if !(k < Config.sites) then s.refuse .badValue
  else
    let c := clearedSite (s.site k)
    (s.setSite k c).respond .ok (u16 c.revision)

/-- CLEAR SITE (R95). -/
def execClearSite (k : Nat) (s : State) : Host.Outcome State Fault Refusal :=
  hostCommand (.clearSite k) .ready (clearSiteBody k) s

/-- R97: every constituent entry is read. -/
def State.checkConstituents (s : State) : State :=
  (List.range Config.constituents).foldl State.checkConstituent s

def readSiteBody (k : Nat) (s : State) : State :=
  if !(k < Config.sites) then s.refuse .badValue
  else
    let s := s.checkSite k
    if (s.site k).damaged then s.refuse .damaged
    else
      let s := s.checkConstituents
      s.respond .ok (siteBytes k (s.site k) s.constituents.toList)

/-- READ SITE (R97). -/
def execReadSite (k : Nat) (s : State) : Host.Outcome State Fault Refusal :=
  hostCommand (.readSite k) .readyRestore (readSiteBody k) s

/-! ### Instrument constants -/

/-- R172: the record as installed. -/
def installedConstants (r : WriteConstantsReq) (mode : RoundMode) (x y t : Bool) (old : Constants) : Constants :=
  { nums := installedNums r.nums, mode := mode, enableX := x, enableY := y, enableT := t,
    revision := nextRevision old.revision, damaged := false, sound := true }

/-- R56: a channel when its enable goes from `old` to `new`. -/
def Chan.enable (c : Chan) (old new : Bool) : Chan :=
  if old = new then c else if new then seekingChan else offChan

/-- R56: the front end acts on a write. -/
def FrontEnd.enables (f : FrontEnd) (old new : Constants) : FrontEnd :=
  { f with
    x := f.x.enable old.enableX new.enableX
    y := f.y.enable old.enableY new.enableY
    t := f.t.enable old.enableT new.enableT }

/-- R43: a window in COLLECTING gains CONSTANTS_CHANGED. -/
def Window.constantsWritten (w : Window) : Window :=
  match w.phase with
  | .collecting _ _ _ => { w with constantsChanged := true }
  | .settling _ => w

/-- R172: the answer's payload: the revision and, in OK_CLAMPED, the clamped fields, each value in its field's width
(R181, log 11). -/
def writeConstantsBytes (r : WriteConstantsReq) (revision : Nat) : List Byte :=
  u16 revision ++
    (if clampedFields r.nums = [] then [] else listBytes (fun p => u8 p.1 ++ beBytesS (constWidths.getD p.1 4) p.2) (clampedFields r.nums))

/-- R172: the accepted write as one access. The old record, whose revision and enables it uses, is taken as it stands,
without the memory check (DESIGN CHOICE, log 59). -/
def State.writeConstants (s : State) (r : WriteConstantsReq) (c : Constants) : State :=
  let s := { s with
    constants := c
    front := s.front.enables s.constants c
    window := s.window.map Window.constantsWritten }
  s.respond (if clampedFields r.nums = [] then .ok else .okClamped) (writeConstantsBytes r c.revision)

def writeConstantsBody (r : WriteConstantsReq) (s : State) : State :=
  match roundModeOf r.mode, yesNo r.enableX, yesNo r.enableY, yesNo r.enableT with
  | some mode, some x, some y, some t => s.writeConstants r (installedConstants r mode x y t s.constants)
  | _, _, _, _ => s.refuse .badValue

/-- WRITE CONSTANTS (R171, R172). -/
def execWriteConstants (r : WriteConstantsReq) (s : State) : Host.Outcome State Fault Refusal :=
  hostCommand (.writeConstants r) .readyRestore (writeConstantsBody r) s

def readConstantsBody (s : State) : State :=
  let s := s.checkConstants true
  if s.constants.damaged then s.refuse .damaged else s.respond .ok (constantsBytes s.constants)

/-- READ CONSTANTS (R174). -/
def execReadConstants (s : State) : Host.Outcome State Fault Refusal :=
  hostCommand .readConstants .readyRestore readConstantsBody s

end Sys2Proof.Machine
end

