-- ==== Sys2Proof/Machine/Dispatch.lean ====
section
/-! DEFINITION. The dispatch: one arm for each command, one direct call of its meaning. -/

namespace Sys2Proof.Machine

/-- The effect of a command on everything but the queue. -/
def exec (i : Instr) (s : State) : Host.Outcome State Fault Refusal :=
  match i with
  | .powerOn => Sys2Proof.Machine.execPowerOn s
  | .resetLineAsserted => Sys2Proof.Machine.execResetLineAsserted s
  | .resetLineReleased => Sys2Proof.Machine.execResetLineReleased s
  | .wake => Sys2Proof.Machine.execWake s
  | .chipSelectOpen => Sys2Proof.Machine.execChipSelectOpen s
  | .chipSelectClose mosi => Sys2Proof.Machine.execChipSelectClose mosi s
  | .openStation r => Sys2Proof.Machine.execOpenStation r s
  | .editStation r => Sys2Proof.Machine.execEditStation r s
  | .findStation number => Sys2Proof.Machine.execFindStation number s
  | .readStation number => Sys2Proof.Machine.execReadStation number s
  | .readSlot set way => Sys2Proof.Machine.execReadSlot set way s
  | .retireStation number => Sys2Proof.Machine.execRetireStation number s
  | .retireSlot set way => Sys2Proof.Machine.execRetireSlot set way s
  | .beginReading r => Sys2Proof.Machine.execBeginReading r s
  | .clampAsserted => Sys2Proof.Machine.execClampAsserted s
  | .clampReleased => Sys2Proof.Machine.execClampReleased s
  | .basePeriodEnd => Sys2Proof.Machine.execBasePeriodEnd s
  | .slewCountComplete => Sys2Proof.Machine.execSlewCountComplete s
  | .settleCountZero => Sys2Proof.Machine.execSettleCountZero s
  | .elapsedCountComplete => Sys2Proof.Machine.execElapsedCountComplete s
  | .endReading => Sys2Proof.Machine.execEndReading s
  | .abortReading => Sys2Proof.Machine.execAbortReading s
  | .discardOccupation index => Sys2Proof.Machine.execDiscardOccupation index s
  | .readWindow => Sys2Proof.Machine.execReadWindow s
  | .readOccupation index => Sys2Proof.Machine.execReadOccupation index s
  | .gateStart ch => Sys2Proof.Machine.execGateStart ch s
  | .tiltGateComplete a periods => Sys2Proof.Machine.execTiltGateComplete a periods s
  | .temperatureGateComplete periods => Sys2Proof.Machine.execTemperatureGateComplete periods s
  | .abandon ch => Sys2Proof.Machine.execAbandon ch s
  | .gsiFrame word => Sys2Proof.Machine.execGsiFrame word s
  | .shortFrame => Sys2Proof.Machine.execShortFrame s
  | .silenceCountComplete => Sys2Proof.Machine.execSilenceCountComplete s
  | .openLoop loop occ => Sys2Proof.Machine.execOpenLoop loop occ s
  | .loopExpired loop => Sys2Proof.Machine.execLoopExpired loop s
  | .closeLoop loop occ mode tag => Sys2Proof.Machine.execCloseLoop loop occ mode tag s
  | .voidLoop loop => Sys2Proof.Machine.execVoidLoop loop s
  | .releaseLoop loop => Sys2Proof.Machine.execReleaseLoop loop s
  | .readLoop loop => Sys2Proof.Machine.execReadLoop loop s
  | .writeConstituent number enabled speed phase => Sys2Proof.Machine.execWriteConstituent number enabled speed phase s
  | .writeSite site pairs => Sys2Proof.Machine.execWriteSite site pairs s
  | .clearSite site => Sys2Proof.Machine.execClearSite site s
  | .readSite site => Sys2Proof.Machine.execReadSite site s
  | .writeConstants r => Sys2Proof.Machine.execWriteConstants r s
  | .readConstants => Sys2Proof.Machine.execReadConstants s
  | .setClock seconds ticks => Sys2Proof.Machine.execSetClock seconds ticks s
  | .trimClock trim => Sys2Proof.Machine.execTrimClock trim s
  | .readClock => Sys2Proof.Machine.execReadClock s
  | .submitJob kind target tag => Sys2Proof.Machine.execSubmitJob kind target tag s
  | .reduceStep => Sys2Proof.Machine.execReduceStep s
  | .closeLoopCheck => Sys2Proof.Machine.execCloseLoopCheck s
  | .inlineReduction => Sys2Proof.Machine.execInlineReduction s
  | .deltaVStep => Sys2Proof.Machine.execDeltaVStep s
  | .memberStep => Sys2Proof.Machine.execMemberStep s
  | .closeCompletion => Sys2Proof.Machine.execCloseCompletion s
  | .recomputeDeltaVStep => Sys2Proof.Machine.execRecomputeDeltaVStep s
  | .recomputeMemberStep => Sys2Proof.Machine.execRecomputeMemberStep s
  | .retideWayStep => Sys2Proof.Machine.execRetideWayStep s
  | .retideOccupationStep => Sys2Proof.Machine.execRetideOccupationStep s
  | .recalcStep => Sys2Proof.Machine.execRecalcStep s
  | .jobCompletion => Sys2Proof.Machine.execJobCompletion s
  | .readQueue => Sys2Proof.Machine.execReadQueue s
  | .restartEngineRetry action => Sys2Proof.Machine.execRestartEngineRetry action s
  | .restartEngineDiscard => Sys2Proof.Machine.execRestartEngineDiscard s
  | .readFault => Sys2Proof.Machine.execReadFault s
  | .nextChanged key => Sys2Proof.Machine.execNextChanged key s
  | .exportStation number => Sys2Proof.Machine.execExportStation number s
  | .readExportPart part => Sys2Proof.Machine.execReadExportPart part s
  | .readEvents => Sys2Proof.Machine.execReadEvents s
  | .clearEvents mask => Sys2Proof.Machine.execClearEvents mask s
  | .setEvents mask => Sys2Proof.Machine.execSetEvents mask s
  | .enableEvents mask => Sys2Proof.Machine.execEnableEvents mask s
  | .identify => Sys2Proof.Machine.execIdentify s
  | .beginRestore => Sys2Proof.Machine.execBeginRestore s
  | .loadStation r => Sys2Proof.Machine.execLoadStation r s
  | .loadOccupation index r => Sys2Proof.Machine.execLoadOccupation index r s
  | .loadLoop r => Sys2Proof.Machine.execLoadLoop r s
  | .endRestore => Sys2Proof.Machine.execEndRestore s
  | .abortRestore => Sys2Proof.Machine.execAbortRestore s
  | .readScanReport => Sys2Proof.Machine.execReadScanReport s
  | .standby => Sys2Proof.Machine.execStandby s
  | .reset => Sys2Proof.Machine.execReset s
  | .scanDuplicates steps => Sys2Proof.Machine.execScanDuplicates steps s
  | .scanDamage steps => Sys2Proof.Machine.execScanDamage steps s
  | .scanReferences steps => Sys2Proof.Machine.execScanReferences steps s
  | .scanWindows steps => Sys2Proof.Machine.execScanWindows steps s
  | .scanOrder steps => Sys2Proof.Machine.execScanOrder steps s
  | .scanUnanchoredLoops steps => Sys2Proof.Machine.execScanUnanchoredLoops steps s
  | .scanInterruptedCloses steps => Sys2Proof.Machine.execScanInterruptedCloses steps s
  | .scanStrayDrift steps => Sys2Proof.Machine.execScanStrayDrift steps s
  | .scanDone => Sys2Proof.Machine.execScanDone s
  | .gsiFrmAsserted => Sys2Proof.Machine.execGsiFrmAsserted s

end Sys2Proof.Machine
end

