-- ==== Sys2Proof/Machine/Idle.lean ====
section
/-! DEFINITION. What a step does when no command waits: one period of the reference clock passes (log 1), and a
word of the retention memory may be upset (log 2). -/

namespace Sys2Proof.Machine

/-- R55, R58: one reference period of a running channel: its count rises, and at 16,777,215 the channel abandons. -/
def State.period (s : State) (ch : Channel) : State :=
  let c := s.front.chan ch
  if !s.mainRuns || c.state = .off then s
  else if c.periods + 1 < Config.abandonCount then s.setFront (s.front.setChan ch { c with periods := c.periods + 1 })
  else s.abandonGate ch

/-- One reference period of the three channels. -/
def State.periods (s : State) : State := ((s.period (.tilt .x)).period (.tilt .y)).period .temperature

/-- Log 2: the upsets of this idle step, if there are any. -/
def State.upsetNow (s : State) : State :=
  let s := { s with late := Config.lateUpset s.idles }
  match Config.upset s.idles with
  | some r => s.upsetRecord r
  | none => s

/-- The step on an empty queue (log 1, log 2). -/
def State.idle (s : State) : State :=
  let s := s.periods
  { s.upsetNow with idles := s.idles + 1 }

end Sys2Proof.Machine
end

