-- ==== Sys2Proof/WellFormed.lean ====
section
/-! DEFINITION. Well-formed commands: those whose operands fit the fields that a frame carries
(R181), so that the command could have been sent. Whether a value lies in its stated range is not
asked here: the command's own rule asks it and answers. -/

namespace Sys2Proof

/-- `n` fits an unsigned field of `k` bytes. -/
def fitsU (k n : Nat) : Bool := n < 256 ^ k

/-- `z` fits a two's complement field of `k` bytes. -/
def fitsS (k : Nat) (z : Int) : Bool := -(128 * 256 ^ (k - 1) : Int) ≤ z && z < 128 * 256 ^ (k - 1)

/-- An optional field fits when it is absent or its value does. -/
def fitsOpt {α : Type} (f : α → Bool) : Option α → Bool
  | none => true
  | some v => f v

def ConstNums.toList (c : ConstNums) : List Int :=
  [c.gravity, c.scale, c.rangeOffset, c.zeroX, c.zeroY, c.scaleX, c.scaleY, c.tiltGate, c.zeroT,
   c.scaleT, c.tempGate, c.c1, c.c2, c.lagFactor, c.tiltLimit, c.driftLimit, c.loopHours, c.gradeA,
   c.gradeB, c.breakLimit]

def RefAction.fits : RefAction → Bool
  | .set v => fitsU 4 v
  | .clear => true
  | .unnamed c => fitsU 1 c && c ≥ 2

def OpenStationReq.fits (r : OpenStationReq) : Bool :=
  fitsU 2 r.number && fitsU 1 r.role && fitsU 1 r.site && fitsOpt (fitsU 4) r.reference && fitsU 1 r.pinned

def EditStationReq.fits (r : EditStationReq) : Bool :=
  fitsU 2 r.number && fitsOpt (fitsU 1) r.role && fitsOpt (fitsU 1) r.site &&
    fitsOpt RefAction.fits r.reference && fitsOpt (fitsU 1) r.pinned

def BeginReadingReq.fits (r : BeginReadingReq) : Bool :=
  fitsU 2 r.number && fitsOpt (fitsU 1) r.loop && fitsU 2 r.duration && fitsU 2 r.settle && fitsU 1 r.abortOnTilt

def WriteConstantsReq.fits (r : WriteConstantsReq) : Bool :=
  r.nums.toList.all (fitsS 4) && fitsU 1 r.mode && fitsU 1 r.enableX && fitsU 1 r.enableY && fitsU 1 r.enableT

def LoadStationReq.fits (r : LoadStationReq) : Bool :=
  fitsU 2 r.number && fitsU 1 r.role && fitsU 1 r.site && fitsOpt (fitsU 4) r.reference && fitsU 1 r.pinned &&
    fitsU 1 r.changed && r.list.length ≤ 8 && r.list.all (fitsU 2)

def LoadSums.fits (r : LoadSums) : Bool :=
  [r.sumX, r.sumX2, r.n, r.sumT, r.tiltX2, r.mx, r.tiltY2, r.my, r.sumTemp, r.sumLag, r.k].all (fitsS 16) &&
    fitsU 2 r.overload && fitsU 2 r.clamped && fitsU 2 r.breaks && fitsOpt (fitsS 2) r.lastX &&
    fitsOpt (fitsS 2) r.lastY && fitsOpt (fitsS 3) r.lastT && fitsOpt (fitsS 3) r.lastL

def Results.fits (r : Results) : Bool :=
  fitsS 4 r.raw && fitsOpt (fitsU 4) r.noise && (0 ≤ r.ctilt && r.ctilt < 65536) && fitsS 3 r.ctemp &&
    fitsS 2 r.ctide && fitsS 4 r.v && fitsU 2 r.revision && fitsU 1 r.site && fitsU 2 r.siteRevision

def DriftPart.fits (r : DriftPart) : Bool :=
  fitsS 4 r.correction && fitsS 4 r.final && fitsS 4 r.vOpen && fitsOpt (fitsU 4) r.rOpen && fitsS 4 r.rate

def LoadOccupationReq.fits (r : LoadOccupationReq) : Bool :=
  fitsU 1 r.state && fitsU 2 r.number && fitsU 2 r.settle && fitsU 2 r.duration && fitsU 1 r.abortOnTilt &&
    fitsOpt (fitsU 1) r.memberOf && fitsOpt (fitsU 1) r.opens && fitsOpt (fitsU 6) r.startTick &&
    fitsOpt (fitsU 6) r.epoch && fitsOpt (fitsU 2) r.openRevision && r.sums.fits &&
    fitsOpt Results.fits r.results && fitsOpt DriftPart.fits r.drift

def LoadLoopReq.fits (r : LoadLoopReq) : Bool :=
  fitsU 1 r.loop && fitsU 1 r.state && fitsU 2 r.openEnd && fitsU 6 r.openEpoch && fitsU 6 r.deadline &&
    r.members.length ≤ 64 && r.members.all (fitsU 2) && fitsOpt (fitsU 2) r.closing && fitsOpt (fitsU 1) r.mode &&
    fitsOpt (fitsS 4) r.deltaV && fitsOpt (fitsS 4) r.rate && fitsU 1 r.driftHigh && fitsU 1 r.interrupted

/-- The operands of the command fit their fields. -/
def Instr.wellFormed : Instr → Bool
  | .openStation r => r.fits
  | .editStation r => r.fits
  | .findStation n => fitsU 2 n
  | .readStation n => fitsU 2 n
  | .readSlot set way => fitsU 1 set && fitsU 1 way
  | .retireStation n => fitsU 2 n
  | .retireSlot set way => fitsU 1 set && fitsU 1 way
  | .beginReading r => r.fits
  | .discardOccupation i => fitsU 2 i
  | .readOccupation i => fitsU 2 i
  | .tiltGateComplete _ p => p < 16777215
  | .temperatureGateComplete p => p < 16777215
  | .openLoop l o => fitsU 1 l && fitsU 2 o
  | .loopExpired l => l < 16
  | .closeLoop l o m t => fitsU 1 l && fitsU 2 o && fitsU 1 m && fitsU 1 t
  | .voidLoop l => fitsU 1 l
  | .releaseLoop l => fitsU 1 l
  | .readLoop l => fitsU 1 l
  | .writeConstituent k e sp ph => fitsU 1 k && fitsU 1 e && fitsU 3 sp && fitsU 2 ph
  | .writeSite st ps => fitsU 1 st && ps.length = 12 && ps.all (fun p => fitsU 2 p.1 && fitsU 2 p.2)
  | .clearSite st => fitsU 1 st
  | .readSite st => fitsU 1 st
  | .writeConstants r => r.fits
  | .setClock sec t => fitsU 4 sec && fitsU 2 t
  | .trimClock t => fitsS 2 t
  | .submitJob k t g => fitsU 1 k && fitsU 2 t && fitsU 1 g
  | .restartEngineRetry a => fitsU 1 a && a ≠ 1
  | .nextChanged k => fitsOpt (fitsU 2) k
  | .exportStation n => fitsU 2 n
  | .readExportPart k => fitsU 1 k
  | .loadStation r => r.fits
  | .loadOccupation i r => fitsU 2 i && r.fits
  | .loadLoop r => r.fits
  | .powerOn | .resetLineAsserted | .resetLineReleased | .wake | .chipSelectOpen | .chipSelectClose _
  | .clampAsserted | .clampReleased | .basePeriodEnd | .slewCountComplete | .settleCountZero
  | .elapsedCountComplete | .endReading | .abortReading | .readWindow | .gateStart _ | .abandon _
  | .gsiFrame _ | .shortFrame | .silenceCountComplete | .readConstants | .readClock | .reduceStep
  | .closeLoopCheck | .inlineReduction | .deltaVStep | .memberStep | .closeCompletion | .recomputeDeltaVStep
  | .recomputeMemberStep | .retideWayStep | .retideOccupationStep | .recalcStep | .jobCompletion | .readQueue
  | .restartEngineDiscard | .readFault | .readEvents | .clearEvents _ | .setEvents _ | .enableEvents _
  | .identify | .beginRestore | .endRestore | .abortRestore | .readScanReport | .standby | .reset
  | .scanDuplicates _ | .scanDamage _ | .scanReferences _ | .scanWindows _ | .scanOrder _
  | .scanUnanchoredLoops _ | .scanInterruptedCloses _ | .scanStrayDrift _ | .scanDone | .gsiFrmAsserted => true

end Sys2Proof
end

