-- ==== Sys2Proof/Safety.lean ====
section
/-! DEFINITION. What counts as a safe run: every step answers a next state. The states that claims speak of: those
in which every stored record agrees with its check value and none carries the damaged mark. And the invariants:
what every step keeps of each block. -/

namespace Sys2Proof.Machine

/-- A step that goes on. -/
def goesOn (s : State) : Prop := ∃ t, step s = .next t

/-- The states that a run can pass through. -/
inductive Reaches : State → State → Prop where
  | refl (s : State) : Reaches s s
  | step {s t u : State} (h : Reaches s t) (k : step t = .next u) : Reaches s u

/-- A state from which no run stops. -/
def safe (s : State) : Prop := ∀ t, Reaches s t → goesOn t

/-! ### Intact memory (R204) -/

/-- No record of the retention domain is damaged, and none would fail its check, at once or at its read-out. -/
def State.intact (s : State) : Bool :=
  s.stations.all (fun p => p.2.sound && !p.2.damaged) && s.occs.all (fun p => p.2.sound && !p.2.damaged) &&
  s.loops.all (fun p => p.2.sound && !p.2.damaged) && s.constants.sound && !s.constants.damaged &&
  s.constituents.toList.all (fun c => c.sound && !c.damaged) && s.sites.toList.all (fun c => c.sound && !c.damaged) &&
  s.late.isNone

/-! ### Invariants -/

/-- R188: bits 14 and 15 name no event, and stand clear in both masks. -/
def State.eventsWf (s : State) : Bool := s.events.pending &&& 0xC000 = 0 && s.events.enabled &&& 0xC000 = 0

/-- R135, R141, R148: the engine's parts agree. -/
def Engine.wf (e : Engine) : Bool :=
  decide (e.queue.length ≤ Config.queueLimit) &&
  (match e.state, e.flight with
   | .idle, f => f.isNone && e.queue.isEmpty && e.fault.isNone
   | .working, some f => e.fault.isNone && distinct f.written
   | .halted, some f => e.fault.any (fun c => c.flight = f) && distinct f.written
   | _, none => false)

def State.engineWf (s : State) : Bool := s.engine.wf

/-- R176, R178: the clock's fields within their ranges, and the held mark exactly at the top value. -/
def Clock.wf (c : Clock) : Bool :=
  decide (c.seconds ≤ Config.topSeconds) && decide (c.ticks < 1024) && c.held = decide (c.seconds = Config.topSeconds) &&
  inRange (-2048) 2048 c.trim && decide (c.slew < 64) && (c.trim ≠ 0 || c.slew = 0) && optAll (· ≤ 1) c.left

def State.clockWf (s : State) : Bool := s.clock.wf

/-- R169, R173: every field within its range, NA not above NB, and the revision a 16-bit number. -/
def State.constantsWf (s : State) : Bool := numsInRange s.constants.nums && decide (s.constants.revision < 65536)

/-- R1, R3, R4: an entry on the way of its own set, its fields within their ranges, its list of at most 8. -/
def stationWf (w : Nat) (e : Station) : Bool :=
  validNumber e.number && decide (e.number % 64 = w / 4) && decide (e.site < 8) && optAll validReference e.reference &&
  !(e.role = .field && e.reference.isSome) && decide (e.list.length ≤ Config.listLimit)

/-- R4, R5: the table in its canonical form, and each set's recency order exactly its non-free ways. -/
def State.stationsWf (s : State) : Bool :=
  slotWf Config.ways s.stations && s.stations.all (fun p => stationWf p.1 p.2) &&
  slotWf Config.sets s.recency &&
  s.recency.all (fun p => distinct p.2 && p.2.all fun w => w / 4 = p.1 && (s.station? w).isSome) &&
  s.stations.all (fun p => (s.order (p.1 / 4)).contains p.1)

/-- R108, R110: the fields of a loop that its state has, and those alone. -/
def loopWf (r : Loop) : Bool :=
  decide (r.members.length ≤ Config.memberLimit) && r.closing.isSome = closeState r.state && r.mode.isSome = closeState r.state &&
  r.deltaV.isSome = decide (r.state = .closed) && r.rate.isSome = decide (r.state = .closed) &&
  optAll validGravity r.deltaV && optAll validGravity r.rate

def State.loopsWf (s : State) : Bool := slotWf Config.loops s.loops && s.loops.all (fun p => loopWf p.2)

/-- R55, R57: a channel's gate and counts within their ranges. -/
def Chan.wf (c : Chan) : Bool :=
  decide (c.periods < Config.abandonCount) && decide (c.abandons ≤ 3) &&
  (match c.gate with
   | some g => decide (16 ≤ g.length) && decide (g.length ≤ 4096) && decide (g.edges < g.length)
   | none => true) &&
  (match c.state with
   | .off => c.gate.isNone && c.abandons = 0
   | .seeking => c.gate.isNone && decide (c.abandons < 3)
   | .counting => decide (c.abandons < 3)
   | .fault => c.abandons = 3)

/-- R62, R63, R67, R69: the channels, the held values and the gravity sample input, with the constants they read. -/
def State.frontWf (s : State) : Bool :=
  s.constantsWf && s.front.x.wf && s.front.y.wf && s.front.t.wf && optAll validTilt s.front.heldX &&
  optAll validTilt s.front.heldY && optAll validTemp s.front.heldT && optAll validTemp s.front.lag &&
  optAll (fun g => decide (g.silence ≤ Config.silenceLimit) && decide (g.expected < 16)) s.front.live

/-- R36, R37, R44: an open window's request and counts. -/
def Window.wf (w : Window) : Bool :=
  decide (w.settle ≤ 300) && decide (10 ≤ w.duration) && decide (w.duration ≤ 600) &&
  match w.phase with
  | .settling c => decide (c ≤ w.settle * Config.ticksPerSecond)
  | .collecting _ elapsed _ => decide (elapsed ≤ w.duration * Config.ticksPerSecond)

/-- The part runs in READY: neither in another part state nor held in reset. -/
def State.inService (s : State) : Bool := s.part = .ready && !s.resetHeld

/-- R192, R199, R205, R154, R195: a window is open and the engine has work in READY alone, and a scan is in progress
exactly in STARTING. -/
def State.controlWf (s : State) : Bool :=
  optAll Window.wf s.window && (s.window.isNone || s.inService) && (s.engine.state = .idle || s.inService) &&
  decide (s.part = .starting) = (match s.scan with | some c => c.ended.isNone | none => false)

/-- R29, R75, R126: the groups a record's state has. -/
def occWf (o : Occ) : Bool :=
  (if inWindow o then o.reading.isNone && o.results.isNone else o.reading.isSome) &&
  (o.state ≠ .pending || o.results.isNone) && (!(o.state = .reduced || o.state = .final) || o.results.isSome) &&
  (o.drift.isNone || o.results.isSome)

/-- The record of an open window is there, and is SETTLING or COLLECTING. -/
def State.windowLinked (s : State) : Bool :=
  match s.window with
  | some w => (match s.occ? w.occ with | some o => inWindow o | none => false)
  | none => true

/-- R195, R196: the scan has freed the window records of every index it has passed. -/
def State.scanClears (s : State) (i : Nat) : Bool :=
  match s.scan with
  | some c => decide (5 ≤ c.pass) || (c.pass = 4 && decide (i < c.cursor))
  | none => false

/-- R36, R196: where a record may be SETTLING or COLLECTING: in READY and STANDBY only as the record of the open
window, in RESTORE not at all, in STARTING where the scan has not been. -/
def State.mayBeOpen (s : State) (i : Nat) : Bool :=
  match s.part with
  | .ready => s.resetHeld || s.isWindow i
  | .standby => s.resetHeld || s.isWindow i
  | .restore => s.resetHeld
  | .starting => s.resetHeld || !s.scanClears i

/-- R29, R36: the pool in its canonical form, each record with the groups of its state, and at most one window
record while the laws hold. -/
def State.recordsWf (s : State) : Bool :=
  s.controlWf && slotWf Config.poolSize s.occs && s.occs.all (fun p => occWf p.2) && s.windowLinked &&
  s.occs.all (fun p => !inWindow p.2 || s.mayBeOpen p.1)

/-- R90, R91: the tide tables' fields within their ranges, and twelve pairs to a site. -/
def constituentWf (c : Constituent) : Bool :=
  decide (1 ≤ c.speed) && decide (c.speed ≤ 16777215) && decide (c.phase ≤ 65535)

def siteWf (c : Site) : Bool := decide (c.revision < 65536) && decide (c.pairs.length = 12) && pairsInRange c.pairs

def State.sitesWf (s : State) : Bool := s.constituents.toList.all constituentWf && s.sites.toList.all siteWf

/-- R119: the figures that a job in flight holds for its member steps. -/
def calcWf (d : DriftCalc) : Bool := validGravity d.vOpen && optAll validReference d.rOpen

/-- R74, R75, R80: every results group and every drift part within its ranges, with what they come from. -/
def State.resultsWf (s : State) : Bool :=
  s.constantsWf && s.sitesWf && s.stationsWf && optAll (fun f : Flight => optAll calcWf f.drift) s.engine.flight &&
  s.occs.all fun p => optAll resultsInRange p.2.results && optAll driftInRange p.2.drift

/-- A host command that the link hands on, in a part state that takes it. -/
def State.serves (s : State) (i : Instr) (a : Access) : Bool := s.linkTakes i && a.taken s.part

/-! ### The link's table of commands (R186) -/

/-- R186, R198, R199 to R203, R205: the part states in which each host command is taken. -/
def access : Instr → Option Access
  | .findStation _ | .readStation _ | .readSlot _ _ | .readWindow | .readOccupation _ | .readLoop _ | .readSite _
  | .writeConstituent _ _ _ _ | .writeSite _ _ | .writeConstants _ | .readConstants | .setClock _ _ | .readClock
  | .readQueue | .readFault | .nextChanged _ | .readExportPart _ => some .readyRestore
  | .openStation _ | .editStation _ | .retireStation _ | .retireSlot _ _ | .beginReading _ | .endReading
  | .abortReading | .discardOccupation _ | .openLoop _ _ | .closeLoop _ _ _ _ | .voidLoop _ | .releaseLoop _
  | .clearSite _ | .trimClock _ | .submitJob _ _ _ | .restartEngineRetry _ | .restartEngineDiscard
  | .exportStation _ | .beginRestore | .standby => some .ready
  | .readEvents | .clearEvents _ | .setEvents _ | .enableEvents _ | .identify | .reset | .readScanReport => some .always
  | .loadStation _ | .loadOccupation _ _ | .loadLoop _ | .endRestore | .abortRestore => some .restore
  | .powerOn | .resetLineAsserted | .resetLineReleased | .wake | .chipSelectOpen | .chipSelectClose _
  | .clampAsserted | .clampReleased | .basePeriodEnd | .slewCountComplete | .settleCountZero
  | .elapsedCountComplete | .gateStart _ | .tiltGateComplete _ _ | .temperatureGateComplete _ | .abandon _
  | .gsiFrame _ | .shortFrame | .silenceCountComplete | .loopExpired _ | .reduceStep | .closeLoopCheck
  | .inlineReduction | .deltaVStep | .memberStep | .closeCompletion | .recomputeDeltaVStep
  | .recomputeMemberStep | .retideWayStep | .retideOccupationStep | .recalcStep | .jobCompletion
  | .scanDuplicates _ | .scanDamage _ | .scanReferences _ | .scanWindows _ | .scanOrder _
  | .scanUnanchoredLoops _ | .scanInterruptedCloses _ | .scanStrayDrift _ | .scanDone | .gsiFrmAsserted => none

end Sys2Proof.Machine
end

