-- ==== Sys2Proof/Certificates/Slice0/Obligations.lean ====
section
/-! DEFINITION. The statements for the provers: what the commands and the machine do, by the numbered rules of the
manual. A statement that rests on a choice of the model says so and names its log entry. -/

open Sys2Proof Sys2Proof.Machine

/-! ### The machine -/

/-- A step takes the command at the front of the queue: it is exec of that command on the state with the rest of
the queue. -/
def Obligations.StepTakesFront : Prop :=
  ∀ (c : Instr) (rest : List Instr) (s : State), s.pending = c :: rest → step s = exec c { s with pending := rest }

/-- With no command waiting the block idles. The model's choice (log 1, log 2): a period of the reference clock
passes, and a word of the retention memory may be upset. A running channel counts the period, and abandons at
16,777,215 (R58, R59), which raises SENSOR_FAULT where it makes the channel FAULT. Neither touches the clock, the link,
the engine, the window or the part state. -/
def Obligations.StepIdles : Prop :=
  ∀ s : State, s.pending = [] → ∃ t, step s = .next t ∧ t.pending = [] ∧ t.part = s.part ∧ t.clock = s.clock ∧
    t.link = s.link ∧ t.engine = s.engine ∧ t.window = s.window ∧ t.scan = s.scan ∧ t.snapshot = s.snapshot ∧
    t.front = { s.front with x := t.front.x, y := t.front.y, t := t.front.t } ∧
    (∀ ch, t.front.chan ch =
      if s.mainRuns = false ∨ (s.front.chan ch).state = .off then s.front.chan ch
      else if (s.front.chan ch).periods + 1 < 16777215 then
        { s.front.chan ch with periods := (s.front.chan ch).periods + 1 }
      else
        { state := if 2 ≤ (s.front.chan ch).abandons then .fault else (s.front.chan ch).state, gate := none, periods := 0,
          abandons := min ((s.front.chan ch).abandons + 1) 3 }) ∧
    (let faults := s.mainRuns = true ∧ ∃ ch, ((s.front.chan ch).state = .seeking ∨ (s.front.chan ch).state = .counting) ∧
       16777215 ≤ (s.front.chan ch).periods + 1 ∧ 2 ≤ (s.front.chan ch).abandons
     (faults → t.events = { s.events with pending := s.events.pending ||| 0x0010 }) ∧ (¬faults → t.events = s.events))

/-- No command writes the queue of the commands that wait behind it. -/
def Obligations.QueueKept : Prop := ∀ (c : Instr) (s t : State), exec c s = .next t → t.pending = s.pending

/-- R27, R54, R70, R91, R107, R133, R154, R168, R169, R175, R180, R191, R193: what power-on leaves, from any state. The
tables' defaults are those of R91, R107 and R169. That it clears the clock's field left, what the base period in progress has
yet to deliver, is the model's choice (DESIGN CHOICE, log 6). -/
def Obligations.PowerOn : Prop :=
  ∀ s : State, ∃ t, exec .powerOn s = .next t ∧
    t.stations = [] ∧ t.recency = [] ∧ t.occs = [] ∧ t.loops = [] ∧
    (∀ k < 12, t.constituent k = { enabled := false, speed := 1, phase := 0, damaged := false, sound := true }) ∧
    (∀ k < 8, t.site k = { set := false, revision := 0, pairs := List.replicate 12 (0, 0), damaged := false, sound := true }) ∧
    t.constants = { nums := defaultNums, mode := .nearest, enableX := true, enableY := true, enableT := true,
                    revision := 0, damaged := false, sound := true } ∧
    t.clock = { seconds := 0, ticks := 0, isSet := false, held := false, trim := 0, slew := 0, left := none } ∧
    t.events = { pending := 0, enabled := 0 } ∧ t.attention = false ∧
    t.engine = { state := .idle, flight := none, queue := [], last := none, fault := none } ∧
    t.front.x = { state := .seeking, gate := none, periods := 0, abandons := 0 } ∧ t.front.y = t.front.x ∧
    t.front.t = t.front.x ∧ t.front.heldX = none ∧ t.front.heldY = none ∧ t.front.heldT = none ∧ t.front.lag = none ∧
    t.front.live = none ∧ t.front.receiving = false ∧
    t.window = none ∧ t.lastWindow = none ∧ t.snapshot = none ∧ t.scan = none ∧ t.part = .ready

/-! ### What every step keeps -/

/-- The invariants hold right after reset. -/
def Obligations.InvariantsAtReset : Prop :=
  State.reset.eventsWf = true ∧ State.reset.engineWf = true ∧ State.reset.clockWf = true ∧
  State.reset.constantsWf = true ∧ State.reset.frontWf = true ∧ State.reset.stationsWf = true ∧
  State.reset.loopsWf = true ∧ State.reset.recordsWf = true ∧ State.reset.resultsWf = true

/-- R188: bits 14 and 15 of the pending and enable masks stay clear. -/
def Obligations.EventsKept : Prop := ∀ s t : State, s.eventsWf = true → step s = .next t → t.eventsWf = true

/-- R135, R141, R148: at most 4 jobs wait; a job is in flight exactly in WORKING and HALTED; none waits in IDLE; a
fault context stands exactly in HALTED, for the job in flight; and no index is marked written twice. -/
def Obligations.EngineKept : Prop := ∀ s t : State, s.engineWf = true → step s = .next t → t.engineWf = true

/-- R176, R178: the clock's fields stay within their ranges, and its held mark is set exactly while the seconds
stand at their top value. -/
def Obligations.ClockKept : Prop := ∀ s t : State, s.clockWf = true → step s = .next t → t.clockWf = true

/-- R55, R57, R62, R63: the channels' gates and counts, the held values and the lag value stay within their
ranges. -/
def Obligations.FrontKept : Prop := ∀ s t : State, s.frontWf = true → step s = .next t → t.frontWf = true

/-- R1, R3, R4, R5: every entry stands in its number's set with its fields in range and at most 8 on its list, and
each set's recency order names exactly its non-free ways. -/
def Obligations.StationsKept : Prop := ∀ s t : State, s.stationsWf = true → step s = .next t → t.stationsWf = true

/-- R108, R110: a loop has a closing member and a mode in CLOSING and CLOSED alone, ΔV and a rate in CLOSED alone,
within their ranges, and at most 64 members. -/
def Obligations.LoopsKept : Prop := ∀ s t : State, s.loopsWf = true → step s = .next t → t.loopsWf = true

/-- R29, R36, R195, R205: each record has the groups of its state; in READY at most the open window's record is
SETTLING or COLLECTING; and a window or an engine's job is there in READY alone. -/
def Obligations.RecordsKept : Prop := ∀ s t : State, s.recordsWf = true → step s = .next t → t.recordsWf = true

/-- R74, R75, R80, R102, R126: every stored result, correction and drift part stays within its range. -/
def Obligations.ResultsKept : Prop := ∀ s t : State, s.resultsWf = true → step s = .next t → t.resultsWf = true

/-- R173: no command but WRITE CONSTANTS and power-on changes the constants or their revision. -/
def Claims.ConstantsWrittenOnlyByWrite : Prop :=
  ∀ (c : Instr) (s t : State), exec c s = .next t → (∀ r, c ≠ .writeConstants r) → c ≠ .powerOn →
    t.constants.nums = s.constants.nums ∧ t.constants.mode = s.constants.mode ∧
    t.constants.enableX = s.constants.enableX ∧ t.constants.enableY = s.constants.enableY ∧
    t.constants.enableT = s.constants.enableT ∧ t.constants.revision = s.constants.revision

/-- R96, R107: no command but the three tide writes and power-on changes a site or a constituent, apart from their
damaged marks. -/
def Claims.TideWrittenOnlyByWrites : Prop :=
  ∀ (c : Instr) (s t : State), exec c s = .next t → (∀ k e v p, c ≠ .writeConstituent k e v p) →
    (∀ k ps, c ≠ .writeSite k ps) → (∀ k, c ≠ .clearSite k) → c ≠ .powerOn →
    ∀ k, (t.site k).revision = (s.site k).revision ∧ (t.site k).set = (s.site k).set ∧
      (t.site k).pairs = (s.site k).pairs ∧ (t.constituent k).enabled = (s.constituent k).enabled ∧
      (t.constituent k).speed = (s.constituent k).speed ∧ (t.constituent k).phase = (s.constituent k).phase

/-- R173, R96, R107: no command but the ones that write them, and power-on, changes the constants, the tide sites or the
constituents, apart from their damaged marks. -/
def Obligations.WrittenOnlyByWrites : Prop := Claims.ConstantsWrittenOnlyByWrite ∧ Claims.TideWrittenOnlyByWrites

/-! ### The host link -/

/-- R181, R182: the bytes of a command's frame, with any bytes after them, are read as that command. The layouts of
the requests are read from R181 by inference (log 10). -/
def Obligations.FrameReadsBack : Prop :=
  ∀ (i : Instr) (code : Nat) (payload extra : List Byte), i.frame = some (code, payload) → i.wellFormed = true →
    payload.length ≤ 240 → (∀ k r, i = .loadOccupation k r → r.oddFlag = false) →
    ∃ c rest, commandBytes (i.frameBytes ++ extra) = some (c, rest) ∧ parseFrame c rest = .command i

/-- R184, R185: a period that ends with a command's frame discards the response the link holds. The command is taken
when none is in execution. Otherwise it waits, in place of any other, and the response of the one in execution is
marked for discard. The layouts of the requests are read from R181 by inference (log 10). -/
def Obligations.CommandTaken : Prop :=
  ∀ (s : State) (i : Instr) (code : Nat) (payload extra : List Byte) (p : Period),
    i.frame = some (code, payload) → i.wellFormed = true → payload.length ≤ 240 →
    (∀ k r, i = .loadOccupation k r → r.oddFlag = false) → s.link.period = some p → p.ignored = false →
    exec (.chipSelectClose (i.frameBytes ++ extra)) s = .next { s with link :=
      if s.link.executing.isSome then
        { period := none, held := none, fetching := false, executing := s.link.executing, waiting := some i, discard := true }
      else
        { period := none, held := none, fetching := false, executing := some i, waiting := s.link.waiting,
          discard := false } }

/-- R182: the answer of the link itself to a frame of a code, in a period that is not ignored: a payload of the code
alone, which is held in place of any other response. Nothing outside the link changes. -/
def Claims.FrameAnswered (s : State) (code : Byte) (rest : List Byte) (st : Status) : Prop :=
  exec (.chipSelectClose (code :: rest)) s = .next { s with link :=
    { period := none, held := some { status := st, payload := [code] }, fetching := false, executing := s.link.executing,
      waiting := s.link.waiting, discard := s.link.executing.isSome } }

/-- R182: a frame whose code names no command is answered UNKNOWN_COMMAND, and one whose period has not its length
byte, a length above 240, or fewer bytes than its length says, is answered BAD_LENGTH, each with the code; no block
takes it. -/
def Claims.BadFrames : Prop :=
  ∀ (s : State) (p : Period) (code : Byte) (rest : List Byte), s.link.period = some p → p.ignored = false → code ≠ 0xFF →
    (parserOf code.toNat = none → Claims.FrameAnswered s code rest .unknownCommand) ∧
    ((parserOf code.toNat).isSome = true →
      (rest = [] ∨ ∃ n bytes, rest = n :: bytes ∧ (240 < n.toNat ∨ bytes.length < n.toNat)) →
      Claims.FrameAnswered s code rest .badLength)

/-- R182, step 3: each command's least and greatest payload length, from its fields; the greatest of LOAD OCCUPATION is
the 240 of a frame. The fields of the requests are read from R181 by inference (log 10). -/
def Claims.lengths : List (Nat × Nat × Nat) :=
  [(0x10, 10, 14), (0x11, 7, 19), (0x12, 2, 2), (0x13, 2, 2), (0x14, 2, 2), (0x15, 2, 2), (0x16, 2, 2), (0x20, 8, 9),
   (0x21, 0, 0), (0x22, 0, 0), (0x23, 0, 0), (0x24, 2, 2), (0x25, 2, 2), (0x30, 3, 3), (0x31, 5, 5), (0x32, 1, 1),
   (0x33, 1, 1), (0x34, 1, 1), (0x40, 7, 7), (0x41, 49, 49), (0x42, 1, 1), (0x43, 1, 1), (0x50, 84, 84), (0x51, 0, 0),
   (0x52, 6, 6), (0x53, 2, 2), (0x54, 0, 0), (0x60, 4, 4), (0x61, 0, 0), (0x62, 1, 1), (0x63, 0, 0), (0x70, 1, 3),
   (0x71, 2, 2), (0x72, 1, 1), (0x80, 0, 0), (0x81, 2, 2), (0x82, 2, 2), (0x83, 2, 2), (0x90, 0, 0), (0x91, 12, 32),
   (0x92, 66, 240), (0x93, 23, 162), (0x94, 0, 0), (0x95, 0, 0), (0x96, 0, 0), (0xA0, 0, 0), (0xA1, 0, 0), (0xA2, 0, 0)]

/-- R182, step 3: a frame delivered whole whose declared length is no length of its command is answered BAD_LENGTH: one
outside the command's bounds; one that does not match a presence byte of OPEN STATION, BEGIN READING or NEXT CHANGED,
or the list count of LOAD STATION without a reference value; and, for any command, one whose fields end before the
payload does or go on after it. The fields of the requests are read from R181 by inference (log 10). -/
def Claims.WrongLengths : Prop :=
  ∀ (s : State) (p : Period) (code n : Byte) (bytes : List Byte), s.link.period = some p → p.ignored = false →
    code ≠ 0xFF → n.toNat ≤ 240 → n.toNat ≤ bytes.length →
    (∀ lo hi, (code.toNat, lo, hi) ∈ Claims.lengths → (n.toNat < lo ∨ hi < n.toNat) →
      Claims.FrameAnswered s code (n :: bytes) .badLength) ∧
    (∀ k absent present, (code.toNat, k, absent, present) ∈ [(0x10, 4, 10, 14), (0x20, 2, 8, 9), (0x70, 0, 1, 3)] →
      (bytes[k]? = some 0 ∧ n.toNat ≠ absent ∨ bytes[k]? = some 1 ∧ n.toNat ≠ present) →
      Claims.FrameAnswered s code (n :: bytes) .badLength) ∧
    (∀ c, code = 0x91 → bytes[4]? = some 0 → bytes[11]? = some c → (8 < c.toNat ∨ n.toNat ≠ 12 + 2 * c.toNat) →
      Claims.FrameAnswered s code (n :: bytes) .badLength) ∧
    ∀ q, parserOf code.toNat = some q → (∀ i, q (bytes.take n.toNat) ≠ some (i, [])) →
      Claims.FrameAnswered s code (n :: bytes) .badLength

/-- R184: a period opens on the held response, and fetches it; a period without a command discards nothing else;
a stopped link ignores the whole period (log 31 for one that opens while RESET_N is low). -/
def Claims.Fetch : Prop :=
  ∀ s : State, s.link.period = none →
    (s.linkStopped = false → ∀ r, s.link.held = some r → ∃ t, exec .chipSelectOpen s = .next t ∧
      t = { s with link := { s.link with period := some { ignored := false, miso := r.bytes }, fetching := true } } ∧
      exec (.chipSelectClose []) t = .next { t with link := { t.link with period := none, held := none, fetching := false } }) ∧
    (s.linkStopped = false → s.link.held = none → ∃ t, exec .chipSelectOpen s = .next t ∧
      t = { s with link := { s.link with period := some { ignored := false, miso := [] }, fetching := false } } ∧
      ∀ bytes, exec (.chipSelectClose (0xFF :: bytes)) t = .next { t with link := { t.link with period := none } }) ∧
    (s.linkStopped = true → ∃ t, exec .chipSelectOpen s = .next t ∧
      t = { s with link := { s.link with period := some { ignored := true, miso := [] } } } ∧
      ∀ bytes, exec (.chipSelectClose bytes) t = .next s)

/-- R184, R186: what a period returns on MISO: the held response's status, length and payload, and 0xFF past its end;
0xFF in every byte where no response is held and where the link is stopped (log 31 for RESET_N low). A response of more than 240 bytes is
returned whole, with the last byte of its length (log 55). -/
def Claims.Miso : Prop :=
  ∀ s : State, s.link.period = none → ∃ t, exec .chipSelectOpen s = .next t ∧
    (∀ r, s.linkStopped = false → s.link.held = some r → ∀ n, t.miso n = some
      (((u8 r.status.code ++ u8 r.payload.length ++ r.payload)[n]?).getD 0xFF)) ∧
    (s.linkStopped = true ∨ s.link.held = none → ∀ n, t.miso n = some 0xFF)

/-- R182, R184, R186: the periods of the link: a frame that is no command, or of a length that is not its command's, the
fetch of the held response, and the bytes on MISO (log 55 where the response is longer than 240 bytes, log 31 for a period
that opens while RESET_N is low). -/
def Obligations.LinkPeriods : Prop := Claims.BadFrames ∧ Claims.WrongLengths ∧ Claims.Fetch ∧ Claims.Miso

/-- R186, R194: while RESET_N is low, and in STANDBY, the link takes no command. -/
def Claims.StoppedLinkIgnores : Prop :=
  ∀ (i : Instr) (s : State), i.frame.isSome = true → s.linkStopped = true → exec i s = .next s

/-- R186: a command that the part state does not take is answered NOT_IN_SERVICE, before any check of its fields,
and changes nothing else. -/
def Claims.NotInService : Prop :=
  ∀ (i : Instr) (a : Access) (s : State), access i = some a → s.linkTakes i = true → a.taken s.part = false →
    exec i s = .next (s.refuse .notInService)

/-- R183, R185: a command that completes leaves its response held, unless that was marked for discard, and the
waiting command is taken. -/
def Claims.ResponseHeld : Prop :=
  ∀ (s : State) (st : Status) (p : List Byte),
    (s.link.discard = false → s.respond st p = { s with link :=
      { period := s.link.period, held := some { status := st, payload := p }, fetching := false,
        executing := s.link.waiting, waiting := none, discard := false } }) ∧
    (s.link.discard = true → s.respond st p = { s with link :=
      { s.link with executing := s.link.waiting, waiting := none, discard := false } })

/-- R183, R185, R186: when the link takes no command, what it refuses by the part state, and what it does with a
response. A row of a host command stands for its own frame where no command is in execution (log 4). -/
def Obligations.LinkAnswers : Prop := Claims.StoppedLinkIgnores ∧ Claims.NotInService ∧ Claims.ResponseHeld

/-! ### Events -/

/-- R190: the attention line is asserted exactly when some event is both pending and enabled. -/
def Claims.Attention : Prop :=
  ∀ s : State, s.eventsWf = true →
    (s.attention = true ↔ ∃ e : Event, s.events.pending.getLsbD e.bit = true ∧ s.events.enabled.getLsbD e.bit = true)

/-- R189: the four event commands. -/
def Claims.EventCommands : Prop :=
  ∀ (s : State) (m : BitVec 16),
    (s.serves .readEvents .always = true → exec .readEvents s = .next (s.respond .ok
      (u16 s.events.pending.toNat ++ u16 s.events.enabled.toNat ++ flagByte s.attention))) ∧
    (m.getLsbD 14 = false → m.getLsbD 15 = false →
      (s.serves (.clearEvents m) .always = true → ∃ t : State, exec (.clearEvents m) s = .next (t.respond .ok
        (u16 t.events.pending.toNat ++ u16 t.events.enabled.toNat ++ flagByte t.attention)) ∧
        t = { s with events := { pending := s.events.pending &&& ~~~m, enabled := s.events.enabled } }) ∧
      (s.serves (.setEvents m) .always = true → ∃ t : State, exec (.setEvents m) s = .next (t.respond .ok
        (u16 t.events.pending.toNat ++ u16 t.events.enabled.toNat ++ flagByte t.attention)) ∧
        t = { s with events := { pending := s.events.pending ||| m, enabled := s.events.enabled } }) ∧
      (s.serves (.enableEvents m) .always = true → ∃ t : State, exec (.enableEvents m) s = .next (t.respond .ok
        (u16 t.events.pending.toNat ++ u16 t.events.enabled.toNat ++ flagByte t.attention)) ∧
        t = { s with events := { pending := s.events.pending, enabled := m } })) ∧
    (m.getLsbD 14 = true ∨ m.getLsbD 15 = true →
      (s.serves (.clearEvents m) .always = true → exec (.clearEvents m) s = .next (s.refuse .badValue)) ∧
      (s.serves (.setEvents m) .always = true → exec (.setEvents m) s = .next (s.refuse .badValue)) ∧
      (s.serves (.enableEvents m) .always = true → exec (.enableEvents m) s = .next (s.refuse .badValue)))

/-- R189, R190: the event commands, and the attention line. -/
def Obligations.Events : Prop := Claims.EventCommands ∧ Claims.Attention

/-! ### Reads that change nothing -/

/-- R187: IDENTIFY carries an empty payload. It answers its eight bytes in the three part states in which it is taken, and
changes nothing but the link that carries the answer. -/
def Obligations.Identify : Prop :=
  (Instr.identify.frame.map fun f => f.2) = some [] ∧
  ∀ (s : State) (k : Byte), s.linkTakes .identify = true →
    (s.part = .starting ∧ k = 1 ∨ s.part = .ready ∧ k = 2 ∨ s.part = .restore ∧ k = 3) →
    exec .identify s = .next (s.respond .ok [0x4A, 0x47, 0x33, 0x31, 0x32, 0x01, k, 240])

/-- R138, R181: the bytes of a job's progress: REDUCING and RECOMPUTING, and the steps of a CLOSE, numbered from 0 as the
table names them; the set, the way and the indices visited of a RETIDE and the next index of a RECALC, each followed by
any recomputation's loop and member position. That no presence byte stands before a member position that goes with a
step's name is the model's choice (log 11). -/
def Claims.ProgressLayout : Prop :=
  ∀ f : Flight,
    let position (l : Nat) : List Byte := u8 l ++ u8 (match f.walk with | none => 0 | some walked => walked.length)
    let recomputation : List Byte := match f.recomp with | [] => [0] | l :: _ => 1 :: position l
    (∀ i, f.job.kind = .reduce i →
      (f.recomp = [] → progressBytes f = [0]) ∧ ∀ l ls, f.recomp = l :: ls → progressBytes f = 1 :: position l) ∧
    (∀ l, f.job.kind = .close l →
      (f.place = .loopCheck → progressBytes f = [0]) ∧
      (f.place = .inlineOpen ∨ f.place = .inlineClosing → progressBytes f = [1]) ∧
      (f.place = .deltaV → progressBytes f = [2]) ∧
      (∀ walked, f.place = .member walked → progressBytes f = 3 :: u8 walked.length) ∧
      (f.place = .completion → progressBytes f = [4])) ∧
    (∀ k, f.job.kind = .retide k →
      (∀ v, f.place = .way v → progressBytes f = u8 (v / 4) ++ u8 (v % 4) ++ u16 0 ++ recomputation) ∧
      ∀ v n visited, f.place = .occupation v n visited →
        progressBytes f = u8 (v / 4) ++ u8 (v % 4) ++ u16 visited.length ++ recomputation) ∧
    (f.job.kind = .recalc → ∀ i, f.place = .index i → progressBytes f = u16 i ++ recomputation)

/-- R152, R153: READ QUEUE answers with the engine's state, its job in flight, the waiting jobs and the last-job
result, and READ FAULT with the fault context or a mark that none is held. Neither changes anything but the link.
The layouts are the model's (log 11). -/
def Claims.ReadEngine : Prop :=
  ∀ s : State,
    (s.serves .readQueue .readyRestore = true → exec .readQueue s = .next (s.respond .ok
      (u8 s.engine.state.code ++ optBytes (fun f => jobBytes f.job ++ progressBytes f ++ u16 f.written.length) s.engine.flight ++
        listBytes jobBytes s.engine.queue ++ optBytes lastJobBytes s.engine.last))) ∧
    (s.serves .readFault .readyRestore = true →
      (s.engine.fault = none → exec .readFault s = .next (s.respond .ok [0])) ∧
      (∀ c, s.engine.fault = some c → exec .readFault s = .next (s.respond .ok
        (1 :: (jobBytes c.flight.job ++ progressBytes c.flight ++ recordBytes c.failed)))))

/-- R52, R198: READ WINDOW answers with the open window and the last-window record, each present or absent, and
READ SCAN REPORT with the report, present or absent; neither changes anything but the link. The layouts are the
model's (log 11). -/
def Claims.ReadWindowAndReport : Prop :=
  ∀ s : State,
    (s.serves .readWindow .readyRestore = true → exec .readWindow s = .next (s.respond .ok
      ((match s.window with | some w => 1 :: windowBytes w s.clamp | none => [0]) ++
       (match s.lastWindow with | some w => 1 :: lastWindowBytes w | none => [0])))) ∧
    (s.serves .readScanReport .always = true → exec .readScanReport s = .next (s.respond .ok
      (match s.scan with | some c => 1 :: scanBytes c | none => [0])))

/-- R152, R153, R138, R52, R198: the reads of the engine, the window and the scan report. The layouts are the model's
(log 11). -/
def Obligations.StatusReads : Prop := Claims.ProgressLayout ∧ Claims.ReadEngine ∧ Claims.ReadWindowAndReport

/-! ### The survey clock -/

/-- R177: SET CLOCK. That it clears the field left, what the base period in progress has yet to deliver, is the model's
choice (log 6). The bytes of the answer are read from R181 by inference (log 11). -/
def Claims.SetClock : Prop :=
  ∀ (s : State) (sec tick : Nat), s.serves (.setClock sec tick) .readyRestore = true →
    (sec ≤ 4294967295 → tick ≤ 1023 → (s.clock.isSet = false ∨ s.occs = []) →
      exec (.setClock sec tick) s = .next ({ s with clock :=
        { seconds := sec, ticks := tick, isSet := true, held := decide (sec = 4294967295), trim := 0, slew := 0,
          left := none } }.respond .ok (u48 (sec * 1024 + tick)))) ∧
    (4294967295 < sec ∨ 1023 < tick → exec (.setClock sec tick) s = .next (s.refuse .badValue)) ∧
    (sec ≤ 4294967295 → tick ≤ 1023 → s.clock.isSet = true → s.occs ≠ [] →
      exec (.setClock sec tick) s = .next (s.refuse .busy))

/-- R178: TRIM CLOCK. That it keeps the field left, what the base period in progress has yet to deliver, is the model's
choice (log 6). The bytes of the answer are read from R181 by inference (log 11). -/
def Claims.TrimClock : Prop :=
  ∀ (s : State) (k : Int), s.serves (.trimClock k) .ready = true →
    (-2048 ≤ k → k ≤ 2048 → s.clock.isSet = true → exec (.trimClock k) s = .next
      ({ s with clock := { s.clock with trim := k, slew := 0 } }.respond .ok (u48 (s.clock.seconds * 1024 + s.clock.ticks)))) ∧
    (k < -2048 ∨ 2048 < k → exec (.trimClock k) s = .next (s.refuse .badValue)) ∧
    (-2048 ≤ k → k ≤ 2048 → s.clock.isSet = false → exec (.trimClock k) s = .next (s.refuse .clockUnset))

/-- R179: READ CLOCK is taken in READY and RESTORE and answered NOT_IN_SERVICE in STARTING. It answers the time,
the state, the held mark and the trim remainder, and changes nothing but the link that carries the answer. The bytes of
the answer are read from R181 by inference (log 11). -/
def Claims.ReadClock : Prop :=
  ∀ s : State, s.linkTakes .readClock = true →
    (s.part = .ready ∨ s.part = .restore → exec .readClock s = .next (s.respond .ok
      (u32 s.clock.seconds ++ u16 s.clock.ticks ++ flagByte s.clock.isSet ++ flagByte s.clock.held ++ s16 s.clock.trim))) ∧
    (s.part = .starting → exec .readClock s = .next (s.refuse .notInService))

/-- R177 to R179: SET CLOCK, TRIM CLOCK and READ CLOCK. What the first two do to the rest of the base period in progress is
log 6, and the bytes of the answers are read from R181 by inference (log 11). -/
def Obligations.ClockCommands : Prop := Claims.SetClock ∧ Claims.TrimClock ∧ Claims.ReadClock

/-- R176, R178: what the end of a base period does to the clock, whatever else its ticks drive: one tick as a rule,
two or none where the slew count reaches 64, and none while the held mark is set. Where the slew has been taken before
(log 6, log 47) the end delivers what is left of it: the second tick of a forward slew, and nothing of a backward one. -/
def Claims.BasePeriodTime : Prop :=
  ∀ s : State, s.clockWf = true → ∃ t, exec .basePeriodEnd s = .next t ∧
    (s.clock.held = true → t.clock = s.clock) ∧
    (s.clock.held = false → s.clock.left = none →
      t.clock.left = none ∧
      (s.clock.trim = 0 → t.epoch = s.epoch + 1 ∧ t.clock.trim = 0 ∧ t.clock.slew = 0) ∧
      (s.clock.trim ≠ 0 → s.clock.slew < 63 →
        t.epoch = s.epoch + 1 ∧ t.clock.trim = s.clock.trim ∧ t.clock.slew = s.clock.slew + 1) ∧
      (s.clock.slew = 63 → 0 < s.clock.trim → s.epoch + 1 < 4294967295 * 1024 →
        t.epoch = s.epoch + 2 ∧ t.clock.trim = s.clock.trim - 1 ∧ t.clock.slew = 0) ∧
      (s.clock.slew = 63 → s.clock.trim < 0 →
        t.epoch = s.epoch ∧ t.clock.trim = s.clock.trim + 1 ∧ t.clock.slew = 0)) ∧
    (∀ k, s.clock.held = false → s.clock.left = some k → t.clock.left = none ∧ t.epoch = s.epoch + k ∧
      t.clock.trim = s.clock.trim ∧ t.clock.slew = s.clock.slew) ∧
    t.clock.isSet = s.clock.isSet ∧ t.clock.held = decide (t.clock.seconds = 4294967295)

/-- R178, in the model's reading of the row SLEW_COUNT_COMPLETE (log 6, log 47): within the base period at whose end the
slew count reaches 64, it takes the slew with the first of two ticks, and leaves the second to the period's end; a
backward slew leaves nothing. In any other base period it does nothing. -/
def Claims.SlewCountComplete : Prop :=
  ∀ s : State,
    (s.clock.held = false → s.clock.left = none → s.clock.trim < 0 → 63 ≤ s.clock.slew → exec .slewCountComplete s = .next
      { s with clock := { s.clock with trim := s.clock.trim + 1, slew := 0, left := some 0 } }) ∧
    (s.clockWf = true → s.clock.held = false → s.clock.left = none → 0 < s.clock.trim → s.clock.slew = 63 →
      s.epoch + 1 < 4294967295 * 1024 → ∃ t, exec .slewCountComplete s = .next t ∧ t.epoch = s.epoch + 1 ∧
        t.clock.trim = s.clock.trim - 1 ∧ t.clock.slew = 0 ∧ t.clock.left = some 1 ∧ t.clock.held = false ∧
        t.clock.isSet = s.clock.isSet) ∧
    (s.clock.held = true ∨ s.clock.left.isSome = true ∨ s.clock.trim = 0 ∨ s.clock.slew < 63 →
      exec .slewCountComplete s = .next s)

/-- R176, R178: the time of a base period, and the row of the period that slews (log 6, log 47). -/
def Obligations.BasePeriods : Prop := Claims.BasePeriodTime ∧ Claims.SlewCountComplete

/-- R37, R38, R69, R114, R176, R178: a base period of one tick, with nothing due and no loop damaged, moves the clock by
one tick, and the slew count while a trim stands, the window's count and the silence count by one. The OPEN loops whose
deadline it reaches are then due (log 5). Nothing else changes. CLAMP holds the window's count still. -/
def Obligations.TickCounts : Prop :=
  ∀ s : State, s.clockWf = true → s.clock.held = false → s.clock.left = none → (s.clock.trim = 0 ∨ s.clock.slew < 63) →
    s.mainRuns = true → s.settleDue = false → (∀ w, s.window = some w → w.complete = false) →
    (∀ g, s.front.live = some g → g.silence < 2048) → s.expiryDue = [] →
    (∀ q ∈ s.loops, q.2.sound = true ∧ q.2.damaged = false) → ∃ t, exec .basePeriodEnd s = .next t ∧
      t = { s with clock := t.clock, window := t.window, front := { s.front with live := t.front.live },
                   expiryDue := t.expiryDue } ∧
      (∀ l, l ∈ t.expiryDue ↔ ∃ r, s.loop? l = some r ∧ r.state = .opened ∧ r.deadline ≤ s.epoch + 1) ∧
      t.epoch = s.epoch + 1 ∧
      t.clock = { seconds := (s.epoch + 1) / 1024, ticks := (s.epoch + 1) % 1024, isSet := s.clock.isSet,
                  held := decide ((s.epoch + 1) / 1024 = 4294967295), trim := s.clock.trim,
                  slew := if s.clock.trim = 0 then 0 else s.clock.slew + 1, left := none } ∧
      (∀ g, s.front.live = some g → t.front.live = some { g with silence := g.silence + 1 }) ∧
      (s.front.live = none → t.front.live = none) ∧
      (s.clamp = true ∨ s.window = none → t.window = s.window) ∧
      (∀ w k, s.clamp = false → s.window = some w → w.phase = .settling (k + 1) →
        t.window = some { w with phase := .settling k }) ∧
      (∀ w start k rev, s.clamp = false → s.window = some w → w.phase = .collecting start k rev →
        t.window = some { w with phase := .collecting start (k + 1) rev })

/-- R114: after a tick, on intact memory with nothing due before it, the loops due to expire (log 5) are exactly
those in OPEN whose deadline the clock has reached; no loop has changed yet. -/
def Claims.ExpiryAtTick : Prop :=
  ∀ s : State, s.intact = true → s.clockWf = true → s.clock.held = false → s.clock.left = none →
    (s.clock.trim = 0 ∨ s.clock.slew < 63) → s.settleDue = false → (∀ w, s.window = some w → w.complete = false) →
    (∀ g, s.front.live = some g → g.silence < 2048) → s.expiryDue = [] → ∃ t, exec .basePeriodEnd s = .next t ∧
      t.loops = s.loops ∧
      ∀ l, l ∈ t.expiryDue ↔ ∃ r, s.loop? l = some r ∧ r.state = .opened ∧ r.deadline ≤ s.epoch + 1

/-- R109, R114: an OPEN loop that is due becomes EXPIRED and LOOP_EXPIRED is raised; nothing else changes. -/
def Claims.LoopExpires : Prop :=
  ∀ (s : State) (l : Nat) (r : Loop), l ∈ s.expiryDue → s.loop? l = some r → r.state = .opened → r.damaged = false →
    r.sound = true → r.deadline ≤ s.epoch → s.resetHeld = false → ∃ t, exec (.loopExpired l) s = .next t ∧
      t = { s with loops := t.loops, expiryDue := s.expiryDue.filter (· ≠ l),
                   events := { s.events with pending := s.events.pending ||| 0x0400 } } ∧
      t.loop? l = some { r with state := .expired } ∧ ∀ k, k ≠ l → t.loop? k = s.loop? k

/-- R111, R114: a loop that is due and fails its check as it is read does not expire: it gains its mark, or keeps it,
and MEMORY_ERROR is raised. -/
def Claims.DamagedDoesNotExpire : Prop :=
  ∀ (s : State) (l : Nat) (r : Loop), l ∈ s.expiryDue → s.loop? l = some r → (r.damaged = true ∨ r.sound = false) →
    s.resetHeld = false → ∃ t, exec (.loopExpired l) s = .next t ∧
      t = { s with loops := t.loops, expiryDue := s.expiryDue.filter (· ≠ l),
                   events := { s.events with pending := s.events.pending ||| 0x2000 } } ∧
      t.loop? l = some { r with damaged := true } ∧ ∀ k, k ≠ l → t.loop? k = s.loop? k

/-- R109, R111, R114: the expiry check at a tick, and the expiry (log 5). -/
def Obligations.LoopExpiry : Prop := Claims.ExpiryAtTick ∧ Claims.LoopExpires ∧ Claims.DamagedDoesNotExpire

/-! ### The tide tables -/

/-- R93: WRITE CONSTITUENT replaces the entry whole, clears its mark and advances all eight revisions; nothing else
changes but the link, which holds the new revisions. A site or constituent that fails its check is not read with it: no
MEMORY_ERROR, and its revision counts on from the stored value (log 59). The bytes of the answer are read from R181 by
inference (log 11). -/
def Claims.WriteConstituent : Prop :=
  ∀ (s : State) (k e speed phase : Nat), s.serves (.writeConstituent k e speed phase) .readyRestore = true →
    (k < 12 → e < 2 → 1 ≤ speed → speed ≤ 16777215 → phase ≤ 65535 → ∃ t,
      exec (.writeConstituent k e speed phase) s = .next t ∧
      t = { s with constituents := t.constituents, sites := t.sites, link := t.link } ∧
      t.link = (s.respond .ok ((List.range 8).flatMap fun m => u16 (((s.site m).revision + 1) % 65536))).link ∧
      t.constituent k = { enabled := decide (e = 1), speed := speed, phase := phase, damaged := false, sound := true } ∧
      (∀ j, j ≠ k → t.constituent j = s.constituent j) ∧
      ∀ m < 8, t.site m = { s.site m with revision := ((s.site m).revision + 1) % 65536, sound := true }) ∧
    (12 ≤ k ∨ 2 ≤ e ∨ speed = 0 ∨ 16777215 < speed ∨ 65535 < phase →
      exec (.writeConstituent k e speed phase) s = .next (s.refuse .badValue))

/-- R94, R95: WRITE SITE and CLEAR SITE replace one site and advance its revision; nothing else changes but the
link. The site that is replaced is not read with the memory check (log 59). The bytes of the answer are read from R181
by inference (log 11). -/
def Claims.SiteWrites : Prop :=
  ∀ (s : State) (k : Nat) (ps : List (Nat × Nat)),
    (s.serves (.writeSite k ps) .readyRestore = true → ps.length = 12 →
      (k < 8 → (∀ p ∈ ps, p.1 ≤ 2000 ∧ p.2 ≤ 65535) → ∃ t, exec (.writeSite k ps) s = .next t ∧
        t = { s with sites := t.sites, link := t.link } ∧
        t.link = (s.respond .ok (u8 k ++ u16 (((s.site k).revision + 1) % 65536))).link ∧
        t.site k = { set := true, revision := ((s.site k).revision + 1) % 65536, pairs := ps, damaged := false,
                     sound := true } ∧ ∀ j, j ≠ k → t.site j = s.site j) ∧
      (8 ≤ k ∨ (∃ p ∈ ps, 2000 < p.1 ∨ 65535 < p.2) → exec (.writeSite k ps) s = .next (s.refuse .badValue))) ∧
    (s.serves (.clearSite k) .ready = true →
      (k < 8 → ∃ t, exec (.clearSite k) s = .next t ∧ t = { s with sites := t.sites, link := t.link } ∧
        t.link = (s.respond .ok (u16 (((s.site k).revision + 1) % 65536))).link ∧
        t.site k = { set := false, revision := ((s.site k).revision + 1) % 65536, pairs := List.replicate 12 (0, 0),
                     damaged := false, sound := true } ∧ ∀ j, j ≠ k → t.site j = s.site j) ∧
      (8 ≤ k → exec (.clearSite k) s = .next (s.refuse .badValue)))

/-- R93 to R95: the writes of the tide tables, over records sound or not (log 59). A site that WRITE CONSTITUENT advances
has its check value formed anew and keeps its mark (log 14). -/
def Obligations.TideWrites : Prop := Claims.WriteConstituent ∧ Claims.SiteWrites

/-- R92, R97: READ SITE on intact memory answers the site, its pairs and the twelve constituents, and changes nothing
but the link. A site that carries the damaged mark, or newly fails its check, raises MEMORY_ERROR and is answered
DAMAGED, with its mark. Of a sound site, a constituent that carries the mark, or newly fails, is reported damaged in the
answer, and raises MEMORY_ERROR too. The layout is the model's (log 11). -/
def Claims.ReadSite : Prop :=
  ∀ (s : State) (k : Nat), s.serves (.readSite k) .readyRestore = true →
    (k < 8 → s.intact = true → exec (.readSite k) s = .next (s.respond .ok
      (u8 k ++ flagByte (s.site k).set ++ u16 (s.site k).revision ++ (s.site k).pairs.flatMap (fun p => u16 p.1 ++ u16 p.2) ++
        s.constituents.toList.flatMap fun c => [1] ++ flagByte c.enabled ++ u24 c.speed ++ u16 c.phase))) ∧
    (k < 8 → ((s.site k).damaged = true ∨ (s.site k).sound = false) → exec (.readSite k) s = .next
      (((s.setSite k { s.site k with damaged := true }).raise .memoryError).refuse .damaged)) ∧
    (k < 8 → (s.site k).damaged = false → (s.site k).sound = true → ∃ t, exec (.readSite k) s = .next t ∧
      t = { s with constituents := t.constituents, events := t.events, link := t.link } ∧
      (∀ j, j < 12 → t.constituent j =
        { s.constituent j with damaged := (s.constituent j).damaged || !(s.constituent j).sound }) ∧
      (let fails := ∃ j, j < 12 ∧ ((s.constituent j).damaged = true ∨ (s.constituent j).sound = false)
       (fails → t.events = { s.events with pending := s.events.pending ||| 0x2000 }) ∧ (¬fails → t.events = s.events)) ∧
      t.link = (s.respond .ok
        (u8 k ++ flagByte (s.site k).set ++ u16 (s.site k).revision ++ (s.site k).pairs.flatMap (fun p => u16 p.1 ++ u16 p.2) ++
          s.constituents.toList.flatMap fun c =>
            if c.damaged || !c.sound then [0] else [1] ++ flagByte c.enabled ++ u24 c.speed ++ u16 c.phase)).link) ∧
    (8 ≤ k → exec (.readSite k) s = .next (s.refuse .badValue))

/-- R100: the phase of a constituent: the advance modulo 2^48, its coarse part, and the sum of the three phases
modulo 65,536. -/
def Claims.TidePhase : Prop :=
  ∀ speed epochPhase sitePhase epoch : Nat,
    tidePhase speed epochPhase sitePhase epoch = (epochPhase + sitePhase + (speed * epoch % 2 ^ 48) / 2 ^ 32) % 65536

/-- R101, R102: the table is symmetric and its ends are as given; an interpolated cosine lies between the two
entries it is taken from, both included; and a tide value never exceeds the site's amplitude sum. -/
def Claims.TideBounds : Prop :=
  (cosEntry 0 = 32767 ∧ cosEntry 1024 = 0 ∧ cosEntry 2048 = -32767 ∧ cosEntry 3072 = 0) ∧
  (∀ i, 1 ≤ i → i ≤ 4095 → cosEntry i = cosEntry (4096 - i)) ∧
  (∀ p, p < 65536 → min (cosEntry (p / 16)) (cosEntry ((p / 16 + 1) % 4096)) ≤ cosine p ∧
    cosine p ≤ max (cosEntry (p / 16)) (cosEntry ((p / 16 + 1) % 4096))) ∧
  ∀ (cs : List Constituent) (site : Site) (epoch : Nat), amplitudeSum site ≤ 24000 →
    (tideValue cs site epoch).natAbs ≤ amplitudeSum site

/-- R73, R101: the interpolated cosine of a phase is the table's entry of its index plus the step to the next entry taken
f sixteenths of the way, which is rounded to the nearest integer, and away from zero where two are as near. -/
def Claims.Interpolation : Prop :=
  ∀ i f : Nat, i < 4096 → f < 16 →
    let step := (cosEntry ((i + 1) % 4096) - cosEntry i) * f
    let q := cosine (16 * i + f) - cosEntry i
    2 * (16 * q - step).natAbs ≤ 16 ∧ (2 * (16 * q - step).natAbs = 16 → step.natAbs < (16 * q).natAbs)

/-- R73, R100, R102: the tide value is the exact sum, over the enabled ones of the twelve constituents, of the site's
amplitude times the cosine of the phase, divided by 32,768 and rounded to the nearest integer, away from zero where two
are as near. -/
def Claims.TideSum : Prop :=
  ∀ (cs : List Constituent) (site : Site) (epoch : Nat), cs.length = 12 → site.pairs.length = 12 →
    let term (k : Nat) : Int :=
      match cs[k]?, site.pairs[k]? with
      | some c, some (amplitude, phase) =>
        if c.enabled then (amplitude : Int) * cosine ((c.phase + phase + (c.speed * epoch % 2 ^ 48) / 2 ^ 32) % 65536) else 0
      | _, _ => 0
    let sum : Int := ((List.range 12).map term).sum
    let v := tideValue cs site epoch
    2 * (32768 * v - sum).natAbs ≤ 32768 ∧ (2 * (32768 * v - sum).natAbs = 32768 → sum.natAbs < (32768 * v).natAbs)

/-- R100 to R102: the phase, the cosine and the tide value. -/
def Obligations.TideArithmetic : Prop :=
  Claims.TidePhase ∧ Claims.TideBounds ∧ Claims.Interpolation ∧ Claims.TideSum

/-! ### The constants -/

/-- R169, R181: the fewest whole bytes that hold the range of each of the twenty numbers, in the order of the table. -/
def Claims.constantWidths : List Nat := [3, 3, 4, 3, 3, 3, 3, 2, 3, 3, 2, 2, 2, 2, 2, 2, 1, 2, 2, 1]

/-- R171 to R173, R43, R56: WRITE CONSTANTS installs every field at the nearer bound of its range, with NB raised to
NA, and the mode and enables its codes name; clears the mark, advances the revision, marks a collecting window, and
starts or stops the channels whose enables change. The answer lists the clamped fields, in table order, each with the
value installed, in its field's width. It is refused only for a code that names no value. The record that is replaced is
not read with the memory check: no MEMORY_ERROR, and its old enables and revision are taken as stored (log 59). The period
count of an OFF channel is log 56. The bytes of the answer are read from R181 by inference (log 11), and the codes of the
request too (log 10). -/
def Obligations.WriteConstants : Prop :=
  ∀ (s : State) (r : WriteConstantsReq), s.serves (.writeConstants r) .readyRestore = true →
    (r.mode < 4 → r.enableX < 2 → r.enableY < 2 → r.enableT < 2 → ∃ t, exec (.writeConstants r) s = .next t ∧
      t = { s with constants := t.constants, front := t.front, window := t.window, link := t.link } ∧
      t.constants.nums = { clampNums r.nums with gradeB := max (clampNums r.nums).gradeA (clampNums r.nums).gradeB } ∧
      t.constants.revision = (s.constants.revision + 1) % 65536 ∧ t.constants.damaged = false ∧ t.constants.sound = true ∧
      [RoundMode.nearest, .up, .down, .zero][r.mode]? = some t.constants.mode ∧
      numsInRange t.constants.nums = true ∧ (numsInRange r.nums = true → t.constants.nums = r.nums) ∧
      (t.constants.enableX = decide (r.enableX = 1) ∧ t.constants.enableY = decide (r.enableY = 1) ∧
        t.constants.enableT = decide (r.enableT = 1)) ∧
      t.front = { s.front with x := t.front.x, y := t.front.y, t := t.front.t } ∧
      t.front.x = (if t.constants.enableX = s.constants.enableX then s.front.x else
        { state := if r.enableX = 1 then .seeking else .off, gate := none, periods := 0, abandons := 0 }) ∧
      t.front.y = (if t.constants.enableY = s.constants.enableY then s.front.y else
        { state := if r.enableY = 1 then .seeking else .off, gate := none, periods := 0, abandons := 0 }) ∧
      t.front.t = (if t.constants.enableT = s.constants.enableT then s.front.t else
        { state := if r.enableT = 1 then .seeking else .off, gate := none, periods := 0, abandons := 0 }) ∧
      t.window = s.window.map (fun w => match w.phase with
        | .collecting _ _ _ => { w with constantsChanged := true }
        | .settling _ => w) ∧
      ∃ fields : List (Nat × Int),
        fields.Pairwise (fun a b => a.1 < b.1) ∧
        (∀ k v, (k, v) ∈ fields ↔ t.constants.nums.toList[k]? = some v ∧ r.nums.toList[k]? ≠ some v) ∧
        t.link = (s.respond (if numsInRange r.nums then .ok else .okClamped) (u16 t.constants.revision ++
          if numsInRange r.nums then [] else u8 fields.length ++ fields.flatMap fun p => u8 p.1 ++
            beBytesS (Claims.constantWidths.getD p.1 0) p.2)).link) ∧
    (4 ≤ r.mode ∨ 2 ≤ r.enableX ∨ 2 ≤ r.enableY ∨ 2 ≤ r.enableT → exec (.writeConstants r) s = .next (s.refuse .badValue))

/-- R174: READ CONSTANTS, taken in READY and RESTORE and answered NOT_IN_SERVICE in STARTING. A damaged record, and
one that fails its check in this read, is answered DAMAGED. Otherwise it answers every field and the revision, and
changes nothing but the link that carries the answer. The fields stand in the order of R169, each in its width by R181
(the codes of the answer are log 11). -/
def Obligations.ReadConstants : Prop :=
  ∀ s : State, s.linkTakes .readConstants = true →
    (s.part = .ready ∨ s.part = .restore →
      (s.constants.damaged = true → exec .readConstants s = .next ((s.raise .memoryError).refuse .damaged)) ∧
      (s.constants.damaged = false → s.constants.sound = false → exec .readConstants s = .next
        (({ s with constants := { s.constants with damaged := true } }.raise .memoryError).refuse .damaged)) ∧
      (s.constants.damaged = false → s.constants.sound = true → exec .readConstants s = .next (s.respond .ok
        (((Claims.constantWidths.zip s.constants.nums.toList).flatMap fun p => beBytesS p.1 p.2) ++ u8 (roundModeCode s.constants.mode) ++ flagByte s.constants.enableX ++
          flagByte s.constants.enableY ++ flagByte s.constants.enableT ++ u16 s.constants.revision)))) ∧
    (s.part = .starting → exec .readConstants s = .next (s.refuse .notInService))

/-! ### The station table -/

/-- R2, R8: no entry of a number's set newly fails its check, or fails it again; some may carry the damaged mark. -/
def Claims.SetReads (s : State) (n : Nat) : Prop := ∀ u x, u / 4 = n % 64 → s.station? u = some x → x.sound = true

/-- R6, R7: the keyed lookup in a set whose entries agree with their check values. None matches; a lone ACTIVE way is found
and nothing changes; a lone SUSPECT way is found and returns to ACTIVE; a lone damaged way is answered so, and nothing
changes; and two or more, damaged or not, become SUSPECT. No other way changes. -/
def Claims.KeyedLookup : Prop :=
  ∀ (s : State) (n : Nat), Claims.SetReads s n →
    (s.matching n = [] → s.keyedLookup n = (s, .noStation)) ∧
    (∀ w e, s.matching n = [w] → s.station? w = some e → e.damaged = true → s.keyedLookup n = (s, .damaged w)) ∧
    (∀ w e, s.matching n = [w] → s.station? w = some e → e.damaged = false → e.state = .active →
      s.keyedLookup n = (s, .found w)) ∧
    (∀ w e, s.matching n = [w] → s.station? w = some e → e.damaged = false → e.state = .suspect → ∃ t, s.keyedLookup n = (t, .found w) ∧
      t = { s with stations := t.stations } ∧ t.station? w = some { e with state := .active } ∧
      ∀ v, v ≠ w → t.station? v = s.station? v) ∧
    (2 ≤ (s.matching n).length → ∃ t, s.keyedLookup n = (t, .duplicate) ∧ t = { s with stations := t.stations } ∧
      (∀ w e, w ∈ s.matching n → s.station? w = some e → t.station? w = some { e with state := .suspect }) ∧
      ∀ w, w ∉ s.matching n → t.station? w = s.station? w)

/-- R8: the internal lookup in such a set changes nothing, and gives the way of the one match when that is ACTIVE and not
damaged; with no match, more than one, a SUSPECT one or a damaged one the station is unusable. -/
def Claims.InternalLookup : Prop :=
  ∀ (s : State) (n : Nat), Claims.SetReads s n → s.internalLookup n = (s, s.usable n) ∧
    (∀ w e, s.matching n = [w] → s.station? w = some e → e.damaged = false → e.state = .active → s.usable n = some w) ∧
    (∀ w e, s.matching n = [w] → s.station? w = some e → (e.damaged = true ∨ e.state = .suspect) → s.usable n = none) ∧
    ((s.matching n).length ≠ 1 → s.usable n = none)

/-- R2, R32: a read of a station entry or an occupation record that does not agree with its check value sets its mark
and raises MEMORY_ERROR; any other read changes nothing. A keyed lookup whose one match newly fails its check answers
it as damaged (R7). -/
def Claims.MemoryCheck : Prop :=
  ∀ (s : State) (k : Nat),
    (∀ e, s.station? k = some e → e.sound = true → s.checkStation k = s) ∧
    (∀ e, s.station? k = some e → e.sound = false →
      s.checkStation k = (s.setStation k { e with damaged := true }).raise .memoryError) ∧
    (∀ o, s.occ? k = some o → o.sound = true → s.checkOcc k = s) ∧
    (∀ o, s.occ? k = some o → o.sound = false → s.checkOcc k = (s.setOcc k { o with damaged := true }).raise .memoryError) ∧
    (s.station? k = none → s.checkStation k = s) ∧ (s.occ? k = none → s.checkOcc k = s) ∧
    (∀ n w e, s.matching n = [w] → s.station? w = some e → e.damaged = false → e.sound = false →
      (∀ v f, v ≠ w → v / 4 = n % 64 → s.station? v = some f → f.sound = true) →
      s.keyedLookup n = ((s.setStation w { e with damaged := true }).raise .memoryError, .damaged w))

/-- R6: what a keyed command answers before it finds its station: BAD_KEY for a number outside its range, and the
outcomes of its lookup, whose effects stand (R7). -/
def Claims.KeyRefusals (c : Instr) (a : Access) (s : State) (n : Nat) : Prop :=
  s.serves c a = true →
    (n = 0 ∨ 65535 ≤ n → exec c s = .next (s.refuse .badKey)) ∧
    (1 ≤ n → n ≤ 65534 → ∀ u out, s.keyedLookup n = (u, out) →
      (out = .noStation → exec c s = .next (u.refuse .noStation)) ∧
      (out = .duplicate → exec c s = .next (u.refuse .duplicateKey)) ∧
      ∀ w, out = .damaged w → exec c s = .next (u.refuse .damaged))

/-- R6: the entry of a lone match as the lookup leaves it: ACTIVE, where it was SUSPECT before. -/
def Claims.looked (e : Station) : Station := { e with state := .active }

/-- R5: one way takes the most recent place of its set, and the order of no other set changes. -/
def Claims.Touched (s t : State) (w : Nat) : Prop :=
  t.order (w / 4) = w :: (s.order (w / 4)).filter (· ≠ w) ∧ ∀ k, k ≠ w / 4 → t.order k = s.order k

/-- R23, R31: every entry but one loses the freed indices where it is of the same set, and is marked changed where it loses
one; any other stays, and so does a FREE way (log 15). -/
def Claims.OthersUnlist (s t : State) (w : Nat) (is : List Nat) : Prop :=
  ∀ v, v ≠ w → t.station? v = (s.station? v).map fun f =>
    if v / 4 = w / 4 ∧ ∃ i ∈ is, i ∈ f.list then { f with list := f.list.filter (· ∉ is), changed := true } else f

/-- R18: FIND STATION: the key check, then the keyed lookup. A station found is answered OK with its set and way and
touched; the other outcomes are answered as they are named, without a touch; and a lone SUSPECT way returns to
ACTIVE. -/
def Claims.FindStation : Prop :=
  ∀ (s : State) (n : Nat), s.linkTakes (.findStation n) = true →
    (s.part = .ready ∨ s.part = .restore →
      (n = 0 ∨ 65535 ≤ n → exec (.findStation n) s = .next (s.refuse .badKey)) ∧
      (1 ≤ n → n ≤ 65534 → ∀ t out, s.keyedLookup n = (t, out) →
        (∀ w, out = .found w → exec (.findStation n) s = .next ((t.touch w).respond .ok (u8 (w / 4) ++ u8 (w % 4)))) ∧
        (out = .noStation → exec (.findStation n) s = .next (t.refuse .noStation)) ∧
        (out = .duplicate → exec (.findStation n) s = .next (t.refuse .duplicateKey)) ∧
        (∀ w, out = .damaged w → exec (.findStation n) s = .next (t.refuse .damaged)) ∧
        (∀ w e, Claims.SetReads s n → s.matching n = [w] → s.station? w = some e → e.damaged = false →
          e.state = .suspect → out = .found w ∧ t.station? w = some { e with state := .active }))) ∧
    (s.part = .starting → exec (.findStation n) s = .next (s.refuse .notInService))

/-- R18: FIND STATION, whatever its lookup finds, and what the lookups find in a set that reads sound (R6 to R8), and in one
whose one match newly fails (R7). The bytes of the answer are read from R181 by inference (log 11). -/
def Obligations.FindStation : Prop :=
  Claims.FindStation ∧ Claims.KeyedLookup ∧ Claims.InternalLookup ∧ Claims.MemoryCheck

/-- R5 to R7, R19, R20: on intact memory, READ STATION of a lone way, which a SUSPECT one is ACTIVE after, answers the
entry and touches it, and READ SLOT of a way answers the entry with its recency rank, or FREE, and changes nothing but the
link. READ STATION is refused by its number and by the other outcomes of its lookup. The layout is the model's (log 11). -/
def Claims.ReadStation : Prop :=
  ∀ (s : State) (n set way : Nat), s.intact = true →
    (∀ w e, s.serves (.readStation n) .readyRestore = true → 1 ≤ n → n ≤ 65534 → s.matching n = [w] →
      s.station? w = some e → ∃ t, exec (.readStation n) s = .next t ∧
        t = { s with stations := t.stations, recency := t.recency, link := t.link } ∧
        t.link = (s.respond .ok (stationBytes w (Claims.looked e))).link ∧ t.station? w = some (Claims.looked e) ∧
        (∀ v, v ≠ w → t.station? v = s.station? v) ∧ Claims.Touched s t w) ∧
    (s.serves (.readSlot set way) .readyRestore = true → set < 64 → way < 4 →
      (∀ e, s.station? (set * 4 + way) = some e → exec (.readSlot set way) s = .next
        (s.respond .ok (stationBytes (set * 4 + way) e ++ u8 ((s.order set).findIdx (· = set * 4 + way))))) ∧
      (s.station? (set * 4 + way) = none → exec (.readSlot set way) s = .next (s.respond .ok [0]))) ∧
    (s.serves (.readSlot set way) .readyRestore = true → 64 ≤ set ∨ 4 ≤ way →
      exec (.readSlot set way) s = .next (s.refuse .badValue))

/-- R6: READ STATION by its number and by what its lookup finds, on any memory. -/
def Claims.ReadStationRefusals : Prop :=
  ∀ (s : State) (n : Nat), Claims.KeyRefusals (.readStation n) .readyRestore s n

/-- R5, R19: READ STATION of a lone way whose entry fails its check as it is read out, by a late upset of the
model's (log 2): the entry has been touched, it gains its mark, MEMORY_ERROR is raised, and the answer is DAMAGED. -/
def Claims.ReadOutFails : Prop :=
  ∀ (s : State) (n w : Nat) (e : Station), s.serves (.readStation n) .readyRestore = true →
    { s with late := none }.intact = true → s.late = some w → 1 ≤ n → n ≤ 65534 → s.matching n = [w] →
    s.station? w = some e → ∃ t, exec (.readStation n) s = .next t ∧
      t = { s with stations := t.stations, recency := t.recency, late := none, link := t.link,
                   events := { s.events with pending := s.events.pending ||| 0x2000 } } ∧
      t.link = (s.refuse .damaged).link ∧ t.station? w = some { Claims.looked e with sound := false, damaged := true } ∧
      (∀ v, v ≠ w → t.station? v = s.station? v) ∧ Claims.Touched s t w

/-- R10 to R14: the fields of an OPEN STATION that passes its first four checks. -/
def Claims.OpenFields (r : OpenStationReq) : Prop :=
  1 ≤ r.number ∧ r.number ≤ 65534 ∧ r.role < 2 ∧ r.site < 8 ∧ r.pinned < 2 ∧
    ∀ v, r.reference = some v → r.role = 0 ∧ 970000000 ≤ v ∧ v ≤ 990000000

/-- R14: the new entry. -/
def Claims.opened (r : OpenStationReq) : Station :=
  { number := r.number, state := .active, damaged := false, sound := true, role := if r.role = 0 then .base else .field,
    pinned := decide (r.pinned = 1), site := r.site, reference := r.reference, tag := r.tag, list := [], changed := true }

/-- R11, R14: OPEN STATION of a number that no way of its set carries, where the set has a FREE way: the entry is
written in the lowest FREE way and takes the most recent place. Nothing else changes but the link. The bytes of the
answer are read from R181 by inference (log 11). -/
def Claims.OpenStationAccepted : Prop :=
  ∀ (s : State) (r : OpenStationReq) (w : Nat), s.serves (.openStation r) .ready = true → s.intact = true →
    Claims.OpenFields r → s.matching r.number = [] → r.number % 64 = w / 4 → s.station? w = none →
    (∀ v, v / 4 = w / 4 → v < w → (s.station? v).isSome = true) → ∃ t, exec (.openStation r) s = .next t ∧
      t = { s with stations := t.stations, recency := t.recency, link := t.link } ∧
      t.link = (s.respond .ok (u8 (w / 4) ++ u8 (w % 4) ++ [0])).link ∧ t.station? w = some (Claims.opened r) ∧
      (∀ v, v ≠ w → t.station? v = s.station? v) ∧ Claims.Touched s t w

/-- R12: on intact memory, an entry that is a victim: ACTIVE, not pinned, unchanged and settled. -/
def Claims.Victim (s : State) (w : Nat) (e : Station) : Prop :=
  s.station? w = some e ∧ e.state = .active ∧ e.pinned = false ∧ e.changed = false ∧
    ∀ i ∈ e.list, ∀ o, s.occ? i = some o → (o.state = .reduced ∨ o.state = .final) ∧
      ∀ l x, (l, x) ∈ s.loops → i ∉ x.members ∧ x.openEnd ≠ i

/-- R11 to R14: OPEN STATION of a number that no way of its full set carries, on intact memory: the least recently
touched victim is retired with its occupations and the new entry takes its way; with no victim the command is refused
SET_FULL. Another entry that lists an occupation of the victim loses it and is marked (R23, log 15). The bytes of the answer
are read from R181 by inference (log 11). -/
def Claims.OpenStationFull : Prop :=
  ∀ (s : State) (r : OpenStationReq), s.serves (.openStation r) .ready = true → s.intact = true → s.stationsWf = true →
    Claims.OpenFields r → s.matching r.number = [] → (∀ v, v / 4 = r.number % 64 → (s.station? v).isSome = true) →
    ((∀ v e, v / 4 = r.number % 64 → ¬Claims.Victim s v e) → exec (.openStation r) s = .next (s.refuse .setFull)) ∧
    ∀ w e pre post, s.order (r.number % 64) = pre ++ w :: post → Claims.Victim s w e →
      (∀ v ∈ post, ∀ f, ¬Claims.Victim s v f) → ∃ t, exec (.openStation r) s = .next t ∧
        t = { s with stations := t.stations, recency := t.recency, occs := t.occs, link := t.link } ∧
        t.link = (s.respond .ok (u8 (w / 4) ++ u8 (w % 4) ++ 1 :: u16 e.number)).link ∧
        t.station? w = some (Claims.opened r) ∧ (∀ i, t.occ? i = if i ∈ e.list then none else s.occ? i) ∧
        Claims.OthersUnlist s t w (e.list.filter fun i => (s.occ? i).isSome) ∧ Claims.Touched s t w

/-- R10: the refusals of OPEN STATION, each in its place in the order: by its fields, and by what its lookup finds. -/
def Claims.OpenStationRefusals : Prop :=
  ∀ (s : State) (r : OpenStationReq), s.serves (.openStation r) .ready = true →
    (r.number = 0 ∨ 65535 ≤ r.number → exec (.openStation r) s = .next (s.refuse .badKey)) ∧
    (1 ≤ r.number → r.number ≤ 65534 →
      ((2 ≤ r.role ∨ 8 ≤ r.site ∨ 2 ≤ r.pinned ∨ ∃ v, r.reference = some v ∧ (v < 970000000 ∨ 990000000 < v)) →
        exec (.openStation r) s = .next (s.refuse .badValue)) ∧
      (∀ v, r.role = 1 → r.site < 8 → r.pinned < 2 → r.reference = some v → 970000000 ≤ v → v ≤ 990000000 →
        exec (.openStation r) s = .next (s.refuse .notBase))) ∧
    (Claims.OpenFields r → ∀ t out, s.keyedLookup r.number = (t, out) →
      (∀ w, out = .found w → exec (.openStation r) s = .next (t.refuse .stationExists)) ∧
      (out = .duplicate → exec (.openStation r) s = .next (t.refuse .duplicateKey)) ∧
      ∀ w, out = .damaged w → exec (.openStation r) s = .next (t.refuse .damaged))

/-- R10 to R14: OPEN STATION in a FREE way and in a full set, and its refusals. -/
def Obligations.OpenStation : Prop :=
  Claims.OpenStationAccepted ∧ Claims.OpenStationFull ∧ Claims.OpenStationRefusals

/-- R6, R15 to R17: EDIT STATION of site, pinned and tag, with the role and the reference left as they are, of a lone way,
ACTIVE or SUSPECT: the entry is written with those changes, marked changed and touched. Nothing else changes but the
link. -/
def Claims.EditStationFields : Prop :=
  ∀ (s : State) (n w : Nat) (e : Station) (site pinned : Option Nat) (tag : Option (BitVec 32)),
    let r : EditStationReq := { number := n, role := none, site := site, reference := none, pinned := pinned, tag := tag }
    s.serves (.editStation r) .ready = true → s.intact = true → s.stationsWf = true → 1 ≤ n → n ≤ 65534 →
    (∀ k, site = some k → k < 8) → (∀ k, pinned = some k → k < 2) → s.matching n = [w] → s.station? w = some e →
    ∃ t, exec (.editStation r) s = .next t ∧
      t = { s with stations := t.stations, recency := t.recency, link := t.link } ∧
      t.station? w = some { Claims.looked e with
        site := site.getD e.site, pinned := (pinned.map (fun k => decide (k = 1))).getD e.pinned, tag := tag.getD e.tag,
        changed := true } ∧
      (∀ v, v ≠ w → t.station? v = s.station? v) ∧ Claims.Touched s t w

/-- R6, R16: EDIT STATION of the reference of a base, a lone way, ACTIVE or SUSPECT, is refused IN_USE while an occupation
of the station is an endpoint of a loop in CLOSING or CLOSED, and accepted otherwise. -/
def Claims.EditReference : Prop :=
  ∀ (s : State) (n w v : Nat) (e : Station),
    let r : EditStationReq :=
      { number := n, role := none, site := none, reference := some (.set v), pinned := none, tag := none }
    s.serves (.editStation r) .ready = true → s.intact = true → 1 ≤ n → n ≤ 65534 → 970000000 ≤ v → v ≤ 990000000 →
    s.matching n = [w] → s.station? w = some e → e.role = .base → e.reference ≠ some v →
    ((∃ i ∈ e.list, ∃ l x, (l, x) ∈ s.loops ∧ (x.state = .closing ∨ x.state = .closed) ∧
        (x.openEnd = i ∨ x.closing = some i)) →
      ∀ u out, s.keyedLookup n = (u, out) → exec (.editStation r) s = .next (u.refuse .inUse)) ∧
    ((∀ i ∈ e.list, ∀ l x, (l, x) ∈ s.loops → (x.state = .closing ∨ x.state = .closed) →
        x.openEnd ≠ i ∧ x.closing ≠ some i) → ∃ t, exec (.editStation r) s = .next t ∧
      t = { s with stations := t.stations, recency := t.recency, link := t.link } ∧
      t.link = (s.respond .ok (stationBytes w { Claims.looked e with reference := some v, changed := true })).link ∧
      t.station? w = some { Claims.looked e with reference := some v, changed := true } ∧
      (∀ u, u ≠ w → t.station? u = s.station? u) ∧ Claims.Touched s t w)

/-- R15, step 3: every field that an EDIT STATION carries is within its range, and its reference action has a name. -/
def Claims.EditFields (r : EditStationReq) : Prop :=
  (∀ c, r.role = some c → c < 2) ∧ (∀ k, r.site = some k → k < 8) ∧ (∀ k, r.pinned = some k → k < 2) ∧
    (∀ v, r.reference = some (.set v) → 970000000 ≤ v ∧ v ≤ 990000000) ∧ ∀ c, r.reference ≠ some (.unnamed c)

/-- R15, R17: the entry as it stands after an edit: each field that the command carries, and the others as they were. -/
def Claims.editedEntry (r : EditStationReq) (e : Station) : Station :=
  { e with
    role := match r.role with
      | none => e.role
      | some c => if c = 0 then .base else .field
    site := r.site.getD e.site
    reference := match r.reference with
      | some (.set v) => some v
      | some .clear => none
      | _ => e.reference
    pinned := match r.pinned with
      | none => e.pinned
      | some k => decide (k = 1)
    tag := r.tag.getD e.tag
    changed := true }

/-- R16: an occupation of the station is the open endpoint or the closing member of a loop in CLOSING or CLOSED. -/
def Claims.OwnsEndpoint (s : State) (e : Station) : Prop :=
  ∃ i ∈ e.list, ∃ l x, (l, x) ∈ s.loops ∧ (x.state = .closing ∨ x.state = .closed) ∧ (x.openEnd = i ∨ x.closing = some i)

/-- R15 to R17: EDIT STATION with any of its fields: the refusals in their order, by the number, by a field and by what
its lookup finds; and on intact memory, at a lone way, which a SUSPECT one is ACTIVE after (R7), NOT_BASE where the result is a FIELD with a reference,
and IN_USE where the role or the reference would change while the station owns an endpoint. Any other edit is written,
marked changed and touched, and answered with the entry as it then stands. Nothing else changes. The bytes of the answer
are read from R181 by inference (log 11). -/
def Claims.EditStationWhole : Prop :=
  ∀ (s : State) (r : EditStationReq), s.serves (.editStation r) .ready = true →
    let refused (u : State) (st : Status) := exec (.editStation r) s = .next (u.refuse st)
    (r.number = 0 ∨ 65535 ≤ r.number → refused s .badKey) ∧
    (1 ≤ r.number → r.number ≤ 65534 → ¬Claims.EditFields r → refused s .badValue) ∧
    (1 ≤ r.number → r.number ≤ 65534 → Claims.EditFields r →
      (∀ t out, s.keyedLookup r.number = (t, out) →
        (out = .noStation → refused t .noStation) ∧ (out = .duplicate → refused t .duplicateKey) ∧
        ∀ w, out = .damaged w → refused t .damaged) ∧
      ∀ u out w e, s.keyedLookup r.number = (u, out) → s.intact = true → s.matching r.number = [w] →
        s.station? w = some e →
        let x := Claims.editedEntry r (Claims.looked e)
        (x.role = .field → x.reference.isSome = true → refused u .notBase) ∧
        (x.role = .base ∨ x.reference = none →
          let restricted := x.role ≠ e.role ∨ x.reference ≠ e.reference
          (restricted → Claims.OwnsEndpoint s e → refused u .inUse) ∧
          (¬(restricted ∧ Claims.OwnsEndpoint s e) → ∃ t, exec (.editStation r) s = .next t ∧
            t = { s with stations := t.stations, recency := t.recency, link := t.link } ∧
            t.link = (s.respond .ok (stationBytes w x)).link ∧ t.station? w = some x ∧
            (∀ v, v ≠ w → t.station? v = s.station? v) ∧ Claims.Touched s t w)))

/-- R15 to R17: EDIT STATION. -/
def Obligations.EditStation : Prop := Claims.EditStationFields ∧ Claims.EditReference ∧ Claims.EditStationWhole

/-- R22: an occupation in use: that of the open window, a member of a loop that is not FREE, or its open endpoint. -/
def Claims.InUse (s : State) (i : Nat) : Prop :=
  (∃ w, s.window = some w ∧ w.occ = i) ∨ ∃ l x, (l, x) ∈ s.loops ∧ (i ∈ x.members ∨ x.openEnd = i)

/-- R21 to R23: RETIRE STATION and RETIRE SLOT on intact memory, of a way, ACTIVE or SUSPECT, none of whose occupations is
in use: the entry and every occupation on its list become FREE, the way leaves the recency order, another entry that lists
one loses it and is marked (log 15), and no other record of the pool changes. An occupation in use refuses both, with a
SUSPECT way of RETIRE STATION ACTIVE again (R7). The bytes of the answer are read from R181 by inference (log 11). -/
def Claims.RetireSound : Prop :=
  ∀ (s : State) (w : Nat) (e : Station), s.intact = true → s.stationsWf = true → s.station? w = some e →
    ((∀ i ∈ e.list, ¬Claims.InUse s i) → ∀ c,
      (c = .retireStation e.number ∧ s.matching e.number = [w] ∨ c = .retireSlot (w / 4) (w % 4)) →
      s.serves c .ready = true → ∃ t, exec c s = .next t ∧
        t = { s with stations := t.stations, recency := t.recency, occs := t.occs, link := t.link } ∧
        (let k := (e.list.filter fun i => (s.occ? i).isSome).length
         t.link = (s.respond .ok (if c = .retireStation e.number then u8 (w / 4) ++ u8 (w % 4) ++ u16 k
           else u16 e.number ++ u16 k)).link) ∧
        t.station? w = none ∧
        (∀ i, t.occ? i = if i ∈ e.list then none else s.occ? i) ∧
        t.order (w / 4) = (s.order (w / 4)).filter (· ≠ w) ∧ (∀ k, k ≠ w / 4 → t.order k = s.order k) ∧
        Claims.OthersUnlist s t w (e.list.filter fun i => (s.occ? i).isSome)) ∧
    ((∃ i ∈ e.list, Claims.InUse s i) →
      (s.matching e.number = [w] → s.serves (.retireStation e.number) .ready = true →
        ∀ u out, s.keyedLookup e.number = (u, out) → exec (.retireStation e.number) s = .next (u.refuse .inUse)) ∧
      (s.serves (.retireSlot (w / 4) (w % 4)) .ready = true →
        exec (.retireSlot (w / 4) (w % 4)) s = .next (s.refuse .inUse)))

/-- R24: the records gathered for a damaged entry: those of its number that no other way of that number lists. -/
def Claims.Gathered (s : State) (w : Nat) (e : Station) (i : Nat) : Prop :=
  (∃ o, s.occ? i = some o ∧ o.station = e.number) ∧
    ∀ v f, v ≠ w → v ∈ s.matching e.number → s.station? v = some f → i ∉ f.list

/-- R7, R21, R23, R24: the retirement of an entry that carries the damaged mark or gains it in this read, where nothing else
fails its check: its own list is not used. The gathered records are freed, damaged ones among them, and counted in the
answer, unless one is in use. That RETIRE SLOT goes on with an entry that newly fails is the model's choice (log 64). The
bytes of the answer are read from R181 by inference (log 11), and another entry that lists a freed record is log 15. -/
def Claims.RetireDamaged : Prop :=
  ∀ (s : State) (w : Nat) (e : Station), s.stationsWf = true → s.station? w = some e →
    (e.damaged = true ∨ e.sound = false) → (∀ v f, v ≠ w → s.station? v = some f → f.sound = true ∧ f.damaged = false) →
    (∀ q ∈ s.occs, q.2.sound = true) → s.recordsWf = true → (∀ q ∈ s.loops, q.2.sound = true ∧ q.2.damaged = false) → ∀ c,
    (c = .retireStation e.number ∧ s.matching e.number = [w] ∨ c = .retireSlot (w / 4) (w % 4)) →
    s.serves c .ready = true →
      ((∃ i, Claims.Gathered s w e i ∧ Claims.InUse s i) → exec c s = .next ((s.checkStation w).refuse .inUse)) ∧
      ((∀ i, Claims.Gathered s w e i → ¬Claims.InUse s i) → ∃ t ids, exec c s = .next t ∧
        t = { s with stations := t.stations, recency := t.recency, occs := t.occs, link := t.link,
                     events := { s.events with pending := s.events.pending ||| (if e.sound then 0 else 0x2000) } } ∧
        (ids : List Nat).Nodup ∧ (∀ i, i ∈ ids ↔ Claims.Gathered s w e i) ∧
        t.link = (s.respond .ok ((if c = .retireStation e.number then u8 (w / 4) ++ u8 (w % 4) else u16 e.number) ++
          u16 ids.length)).link ∧
        t.station? w = none ∧ (∀ i, t.occ? i = if i ∈ ids then none else s.occ? i) ∧
        t.order (w / 4) = (s.order (w / 4)).filter (· ≠ w) ∧ (∀ k, k ≠ w / 4 → t.order k = s.order k) ∧
        Claims.OthersUnlist s t w ids)

/-- R6, R21, R23: what the retirements refuse before the in-use check: RETIRE STATION by its number and by a lookup that finds
no way or several, and RETIRE SLOT of a way out of range, BAD_VALUE, or a FREE one, NO_STATION. -/
def Claims.RetireRefusals : Prop :=
  ∀ (s : State) (n set way : Nat),
    (s.serves (.retireStation n) .ready = true →
      (n = 0 ∨ 65535 ≤ n → exec (.retireStation n) s = .next (s.refuse .badKey)) ∧
      (1 ≤ n → n ≤ 65534 → ∀ u out, s.keyedLookup n = (u, out) →
        (out = .noStation → exec (.retireStation n) s = .next (u.refuse .noStation)) ∧
        (out = .duplicate → exec (.retireStation n) s = .next (u.refuse .duplicateKey)))) ∧
    (s.serves (.retireSlot set way) .ready = true →
      (64 ≤ set ∨ 4 ≤ way → exec (.retireSlot set way) s = .next (s.refuse .badValue)) ∧
      (set < 64 → way < 4 → s.station? (set * 4 + way) = none →
        exec (.retireSlot set way) s = .next (s.refuse .noStation)))

/-- R21 to R24: the retirements, of a sound entry and of a damaged one (log 64 where RETIRE SLOT finds it failing), and what
they refuse. -/
def Obligations.Retire : Prop := Claims.RetireSound ∧ Claims.RetireDamaged ∧ Claims.RetireRefusals

/-- R33: the record that a reading at a full list reclaims: the head of an unchanged station's list, FINAL and the open
endpoint of no loop. -/
def Claims.Reclaims (s : State) (e : Station) (h : Nat) : Prop :=
  e.changed = false ∧ (∃ rest, e.list = h :: rest) ∧ (∃ o, s.occ? h = some o ∧ o.state = .final) ∧
    ∀ l x, (l, x) ∈ s.loops → x.openEnd ≠ h

/-! ### Reading windows -/

/-- R6, R33 to R36, R38: BEGIN READING at a lone station, ACTIVE or SUSPECT, on intact memory, with no loop or an OPEN loop
with room. A full list first loses its reclaimed head, and so does any other list of the set, whose station is marked (log
15). The lowest FREE record becomes the window record, the station lists it and
is marked changed and touched, the loop lists it, and the window opens: in SETTLING with a full settle count, or with
a settle time of 0 in COLLECTING at once. The bytes of the answer are read from R181 by inference (log 11). -/
def Claims.BeginReadingAccepted : Prop :=
  ∀ (s : State) (r : BeginReadingReq) (w i : Nat) (e : Station) (old : Option Nat),
    s.serves (.beginReading r) .ready = true → s.intact = true → 1 ≤ r.number → r.number ≤ 65534 → 10 ≤ r.duration →
    r.duration ≤ 600 → r.settle ≤ 300 → r.abortOnTilt < 2 → s.clock.isSet = true → s.window = none →
    s.matching r.number = [w] → s.station? w = some e →
    (e.list.length < 8 ∧ old = none ∨ 8 ≤ e.list.length ∧ ∃ h, old = some h ∧ Claims.Reclaims s e h) →
    i < 512 → (s.occ? i = none ∨ old = some i) → (∀ j, j < i → (s.occ? j).isSome = true ∧ old ≠ some j) →
    (∀ l, r.loop = some l → l < 16 ∧ ∃ x, s.loop? l = some x ∧ x.state = .opened ∧ x.members.length < 64) →
    ∃ t, exec (.beginReading r) s = .next t ∧
      t = { s with stations := t.stations, recency := t.recency, occs := t.occs, loops := t.loops, window := t.window,
                   link := t.link } ∧
      t.link = (s.respond .ok (u16 i ++ (match old with | none => [0] | some h => 1 :: u16 h) ++
        [if r.settle = 0 then 2 else 1])).link ∧
      t.occ? i = some { state := if r.settle = 0 then .collecting else .settling, damaged := false, sound := true,
                        station := r.number, settle := r.settle, duration := r.duration,
                        abortOnTilt := decide (r.abortOnTilt = 1), memberOf := r.loop, opens := none, reading := none,
                        results := none, drift := none, flags := {} } ∧
      (∀ j, j ≠ i → t.occ? j = if old = some j then none else s.occ? j) ∧
      t.station? w = some
        { Claims.looked e with list := (e.list.filter fun j => old ≠ some j) ++ [i], changed := true } ∧
      Claims.OthersUnlist s t w old.toList ∧ Claims.Touched s t w ∧
      (∀ l x, s.loop? l = some x → t.loop? l = some { x with
        members := (x.members.filter fun j => old ≠ some j) ++ if r.loop = some l then [i] else [] }) ∧
      (∀ l, s.loop? l = none → t.loop? l = none) ∧
      t.window = some
        { occ := i, station := r.number, memberOf := r.loop, settle := r.settle, duration := r.duration,
          abortOnTilt := decide (r.abortOnTilt = 1),
          phase := if r.settle = 0 then .collecting s.epoch 0 s.constants.revision else .settling (r.settle * 1024),
          sums := if r.settle = 0 then
              { lastX := s.front.heldX, lastY := s.front.heldY, lastT := s.front.heldT, lastL := s.front.lag }
            else {},
          clamped := false, overload := false, tiltLimit := false, tiltRange := false, constantsChanged := false,
          tiltRaised := false, breakRaised := false }

/-- R34: the refusals of BEGIN READING in their order: by its fields, the clock and the window; by what its lookup
finds; and on intact memory, at a lone station, which a SUSPECT one is ACTIVE after (R7), by the loop named, by a full list
whose head is not to be reclaimed, and by a full pool. -/
def Claims.BeginReadingRefusals : Prop :=
  ∀ (s : State) (r : BeginReadingReq), s.serves (.beginReading r) .ready = true →
    let ranges := 10 ≤ r.duration ∧ r.duration ≤ 600 ∧ r.settle ≤ 300 ∧ r.abortOnTilt < 2 ∧ ∀ l, r.loop = some l → l < 16
    (r.number = 0 ∨ 65535 ≤ r.number → exec (.beginReading r) s = .next (s.refuse .badKey)) ∧
    (1 ≤ r.number → r.number ≤ 65534 → ¬ranges → exec (.beginReading r) s = .next (s.refuse .badValue)) ∧
    (1 ≤ r.number → r.number ≤ 65534 → ranges → s.clock.isSet = false →
      exec (.beginReading r) s = .next (s.refuse .clockUnset)) ∧
    (1 ≤ r.number → r.number ≤ 65534 → ranges → s.clock.isSet = true → s.window.isSome = true →
      exec (.beginReading r) s = .next (s.refuse .windowBusy)) ∧
    (1 ≤ r.number → r.number ≤ 65534 → ranges → s.clock.isSet = true → s.window = none →
      (∀ t out, s.keyedLookup r.number = (t, out) →
        (out = .noStation → exec (.beginReading r) s = .next (t.refuse .noStation)) ∧
        (out = .duplicate → exec (.beginReading r) s = .next (t.refuse .duplicateKey)) ∧
        ∀ w, out = .damaged w → exec (.beginReading r) s = .next (t.refuse .damaged)) ∧
      (∀ u out w e, s.keyedLookup r.number = (u, out) → s.intact = true → s.matching r.number = [w] → s.station? w = some e →
        (∀ l, r.loop = some l →
          (s.loop? l = none → exec (.beginReading r) s = .next (u.refuse .loopState)) ∧
          ∀ x, s.loop? l = some x →
            (x.state = .closed → exec (.beginReading r) s = .next (u.refuse .loopState)) ∧
            (x.state = .expired → exec (.beginReading r) s = .next (u.refuse .loopExpired)) ∧
            (x.state = .closing → exec (.beginReading r) s = .next (u.refuse .loopBusy)) ∧
            (x.state = .opened → 64 ≤ x.members.length → exec (.beginReading r) s = .next (u.refuse .loopFull))) ∧
        ((∀ l, r.loop = some l → ∃ x, s.loop? l = some x ∧ x.state = .opened ∧ x.members.length < 64) →
          (8 ≤ e.list.length → (∀ h, ¬Claims.Reclaims s e h) → exec (.beginReading r) s = .next (u.refuse .occLimit)) ∧
          (e.list.length < 8 → (∀ j, j < 512 → (s.occ? j).isSome = true) →
            exec (.beginReading r) s = .next (u.refuse .poolFull)))))

/-- R33 to R36, R38: BEGIN READING, and its refusals. The window's copies of what the command asks for are log 28, and
the bytes of the answer log 11. -/
def Obligations.BeginReading : Prop := Claims.BeginReadingAccepted ∧ Claims.BeginReadingRefusals

/-- R37: CLAMP. An assertion reloads the settle count of a window in SETTLING and leaves one in COLLECTING as it is;
a release changes the line alone. -/
def Claims.ClampLine : Prop :=
  ∀ s : State,
    (∃ t, exec .clampAsserted s = .next t ∧ t = { s with clamp := true, window := t.window } ∧
      (∀ w k, s.window = some w → w.phase = .settling k → t.window = some { w with phase := .settling (w.settle * 1024) }) ∧
      (∀ w a b c, s.window = some w → w.phase = .collecting a b c → t.window = some w) ∧
      (s.window = none → t.window = none)) ∧
    exec .clampReleased s = .next { s with clamp := false }

/-- R37, R38: at the settle count's zero the window enters COLLECTING: its start tick is the clock's epoch, its
elapsed count 0, its revision the constants', and its last values those the front end holds. -/
def Claims.SettleZero : Prop :=
  ∀ (s : State) (w : Window) (o : Occ), s.intact = true → s.window = some w → w.phase = .settling 0 →
    s.occ? w.occ = some o → ∃ t, exec .settleCountZero s = .next t ∧
      t = { s with occs := t.occs, window := t.window } ∧
      t.window = some { w with
        phase := .collecting (s.clock.seconds * 1024 + s.clock.ticks) 0 s.constants.revision
        sums := { w.sums with lastX := s.front.heldX, lastY := s.front.heldY, lastT := s.front.heldT, lastL := s.front.lag } } ∧
      t.occ? w.occ = some { o with state := .collecting } ∧ ∀ j, j ≠ w.occ → t.occ? j = s.occ? j

/-- R37, R38: the CLAMP line, and the settle count's zero. The row of the settle count takes a count that stands at
zero (log 5). -/
def Obligations.SettlePhase : Prop := Claims.ClampLine ∧ Claims.SettleZero

/-- R3: an occupation of a list counts as not later than an epoch. -/
def Claims.NotLater (s : State) (epoch j : Nat) : Prop :=
  ∃ o m, s.occ? j = some o ∧ o.reading = some m ∧ m.epoch ≤ epoch

/-- R3, R47: the place of a record in its station's list by its epoch: where it stands, when no earlier entry is later,
and else after the last earlier entry that is not later than it. -/
def Claims.Placed (s : State) (epoch i : Nat) (old new : List Nat) : Prop :=
  ∀ pre post, old = pre ++ i :: post → i ∉ pre →
    ((∀ j ∈ pre, Claims.NotLater s epoch j) → new = old) ∧
    ∀ a b, pre = a ++ b → b ≠ [] → (∀ j ∈ b, ¬Claims.NotLater s epoch j) →
      (a = [] ∨ ∃ c x, a = c ++ [x] ∧ Claims.NotLater s epoch x) → new = a ++ i :: b ++ post

/-- R138, R139: a job as the engine takes it: at its first step, with nothing to recompute, no figures, no result, and no
record marked written. -/
def Claims.begun (j : Job) : Flight :=
  { job := j
    place := (match j.kind with
      | .reduce _ => .reducing
      | .close _ => .loopCheck
      | .retide _ => .way 0
      | .recalc => .index 0)
    recomp := [], walk := none, drift := none, unusable := false, ending := none, written := [] }

/-- R44 to R48, R3: the three ways to close a window with at least one accepted sample: its elapsed count is complete,
END READING, or the sample input falls SILENT. On intact memory the record becomes PENDING with the epoch, the sums
and the flags of the close; the list of the entry that holds it places it by its epoch and that entry is marked changed;
no other record and no other list changes; the window ends with its cause; and WINDOW_CLOSED is raised. The record's
REDUCE is taken by an IDLE engine and queued by a WORKING one with a place free. Otherwise it is dropped, and the
record gains UNQUEUED and QUEUE_OVERFLOW is raised. Of several entries of the number that list the record, the lowest
is taken (log 16). The rows of the counts take what is due (log 5), and the station and the duration are the window's own
copies (log 28). The bytes of the answer are read from R181 by inference (log 11). -/
def Obligations.WindowCloses : Prop :=
  ∀ (s : State) (c : Instr) (cause : WindowCause) (w : Window) (o : Occ) (start elapsed rev : Nat), s.intact = true →
    s.window = some w → w.phase = .collecting start elapsed rev → s.occ? w.occ = some o → 1 ≤ w.sums.n →
    s.resetHeld = false →
    (c = .elapsedCountComplete ∧ cause = .duration ∧ w.duration * 1024 ≤ elapsed ∨
      c = .endReading ∧ cause = .endReading ∧ s.serves .endReading .ready = true ∨
      c = .silenceCountComplete ∧ cause = .silence ∧ s.part ≠ .standby ∧ ∃ g, s.front.live = some g ∧ 2048 ≤ g.silence) →
    let epoch := start + (2 * w.sums.sumT + w.sums.n) / (2 * w.sums.n)
    let job : Job := { kind := .reduce w.occ, origin := .automatic, tag := 0 }
    let dropped := s.engine.state = .halted ∨ s.engine.state = .working ∧ 4 ≤ s.engine.queue.length
    ∃ t, exec c s = .next t ∧
      t = { s with occs := t.occs, stations := t.stations, window := none, lastWindow := t.lastWindow, engine := t.engine,
                   events := t.events, front := t.front, link := t.link, scan := t.scan } ∧
      (s.part ≠ .starting → t.scan = s.scan) ∧
      t.front = (if cause = .silence then { s.front with live := none } else s.front) ∧
      (cause ≠ .endReading → t.link = s.link) ∧
      (cause = .endReading → t.link = (s.respond .ok (u16 w.occ ++ [0] ++ exactBytes w.sums.n ++
        [if s.engine.state = .idle then 1 else if s.engine.state = .working ∧ s.engine.queue.length < 4 then 0 else 2])).link) ∧
      (∀ v f, s.station? v = some f →
        (v ∈ s.matching w.station ∧ w.occ ∈ f.list ∧
            (∀ u g, u ∈ s.matching w.station → u < v → s.station? u = some g → w.occ ∉ g.list) →
          ∃ l, t.station? v = some { f with list := l, changed := true } ∧ Claims.Placed s epoch w.occ f.list l) ∧
        (v ∉ s.matching w.station ∨ w.occ ∉ f.list ∨
            (∃ u g, u ∈ s.matching w.station ∧ u < v ∧ s.station? u = some g ∧ w.occ ∈ g.list) →
          t.station? v = some f)) ∧
      (∀ v, s.station? v = none → t.station? v = none) ∧
      t.occ? w.occ = some { o with
        state := .pending
        reading := some { startTick := start, epoch := epoch, openRevision := rev, sums := w.sums }
        flags := { short := decide (w.sums.n < 10), breaks := decide (0 < w.sums.breaks),
                   sensorLost := decide (cause = .silence), clamped := w.clamped, overload := w.overload,
                   tiltLimit := w.tiltLimit, tiltRange := w.tiltRange, constantsChanged := w.constantsChanged,
                   unqueued := decide dropped } } ∧
      (∀ j, j ≠ w.occ → t.occ? j = s.occ? j) ∧
      t.lastWindow = some { occ := w.occ, station := w.station, outcome := .closed, cause := cause, n := w.sums.n,
                            epoch := s.epoch } ∧
      t.events = { s.events with pending := s.events.pending ||| (if dropped then 0x0101 else 0x0001) } ∧
      (s.engine.state = .idle → t.engine = { s.engine with state := .working, flight := some (Claims.begun job) }) ∧
      (s.engine.state = .working → s.engine.queue.length < 4 →
        t.engine = { s.engine with queue := s.engine.queue ++ [job] }) ∧
      (dropped → t.engine = s.engine)

/-- R31, R45 to R47, R49, R50: the ways to lose a window on intact memory: ABORT READING in either phase, and END READING,
the complete elapsed count or the change to SILENT with no sample accepted. The record is freed; it leaves the list of
each entry of its station's set that lists it, which is marked changed, and the member lists; the window ends ABORTED
with its cause; and WINDOW_ABORTED is raised. No job is submitted, and nothing else changes but the answer of a command.
Its bytes are read from R181 by inference (log 11). -/
def Claims.WindowRemoved : Prop :=
  ∀ (s : State) (c : Instr) (cause : WindowCause) (w : Window), s.intact = true → s.window = some w → s.resetHeld = false →
    (c = .abortReading ∧ cause = .abortReading ∧ s.serves .abortReading .ready = true ∨
      w.sums.n = 0 ∧ ∃ start elapsed rev, w.phase = .collecting start elapsed rev ∧
        (c = .elapsedCountComplete ∧ cause = .duration ∧ w.duration * 1024 ≤ elapsed ∨
          c = .endReading ∧ cause = .endReading ∧ s.serves .endReading .ready = true ∨
          c = .silenceCountComplete ∧ cause = .silence ∧ s.part ≠ .standby ∧ ∃ g, s.front.live = some g ∧ 2048 ≤ g.silence)) →
    ∃ t, exec c s = .next t ∧
      t = { s with occs := t.occs, stations := t.stations, loops := t.loops, window := none, lastWindow := t.lastWindow,
                   events := t.events, front := t.front, link := t.link, scan := t.scan } ∧
      (s.part ≠ .starting → t.scan = s.scan) ∧
      t.front = (if cause = .silence then { s.front with live := none } else s.front) ∧
      (cause = .duration ∨ cause = .silence → t.link = s.link) ∧
      (cause = .abortReading → t.link = (s.respond .ok (u16 w.occ)).link) ∧
      (cause = .endReading → t.link = (s.respond .ok (u16 w.occ ++ [1])).link) ∧
      (∀ v, t.station? v = (s.station? v).map fun f =>
        if v / 4 = w.station % 64 ∧ w.occ ∈ f.list then { f with list := f.list.filter (· ≠ w.occ), changed := true } else f) ∧
      (∀ j, t.occ? j = if j = w.occ then none else s.occ? j) ∧
      (∀ l, t.loop? l = (s.loop? l).map fun x => { x with members := x.members.filter (· ≠ w.occ) }) ∧
      t.lastWindow = some { occ := w.occ, station := w.station, outcome := .aborted, cause := cause, n := w.sums.n,
                            epoch := s.epoch } ∧
      t.events = { s.events with pending := s.events.pending ||| 0x0002 }

/-- R45, R50: with no window open, and END READING with one in SETTLING, the two commands are refused WINDOW_STATE. -/
def Claims.NoWindowToEnd : Prop :=
  ∀ s : State,
    (s.serves .endReading .ready = true → (s.window = none ∨ ∃ w k, s.window = some w ∧ w.phase = .settling k) →
      exec .endReading s = .next (s.refuse .windowState)) ∧
    (s.serves .abortReading .ready = true → s.window = none → exec .abortReading s = .next (s.refuse .windowState))

/-- R45 to R47, R49, R50: a window that ends without a close. The rows of the counts take what is due (log 5), and the
station is the window's own copy (log 28). The bytes of the answers are log 11. -/
def Obligations.WindowLost : Prop := Claims.WindowRemoved ∧ Claims.NoWindowToEnd

/-- R51, R31, R26: DISCARD OCCUPATION on intact memory. A record out of its window, no open endpoint of a loop and no
member of one in CLOSING or CLOSED, becomes FREE, and leaves the lists of the entries of its station's set, which are
marked changed, and the member lists; any other is refused IN_USE; and a FREE one is answered NO_OCCUPATION. The bytes
of the answer are read from R181 by inference (log 11). -/
def Claims.DiscardSound : Prop :=
  ∀ (s : State) (i : Nat), s.serves (.discardOccupation i) .ready = true → s.intact = true → i < 512 →
    (s.occ? i = none → exec (.discardOccupation i) s = .next (s.refuse .noOccupation)) ∧
    (∀ o, s.occ? i = some o →
      let busy := o.state = .settling ∨ o.state = .collecting ∨ (∃ l x, (l, x) ∈ s.loops ∧ x.openEnd = i) ∨
        ∃ l x, (l, x) ∈ s.loops ∧ (x.state = .closing ∨ x.state = .closed) ∧ i ∈ x.members
      (busy → exec (.discardOccupation i) s = .next (s.refuse .inUse)) ∧
      (¬busy → ∃ t, exec (.discardOccupation i) s = .next t ∧
        t = { s with stations := t.stations, occs := t.occs, loops := t.loops, link := t.link } ∧
        t.link = (s.respond .ok (u16 i ++ u16 o.station)).link ∧
        (∀ j, t.occ? j = if j = i then none else s.occ? j) ∧
        (∀ v, t.station? v = (s.station? v).map fun f =>
          if v / 4 = o.station % 64 ∧ i ∈ f.list then { f with list := f.list.filter (· ≠ i), changed := true } else f) ∧
        (∀ l x, s.loop? l = some x → t.loop? l = some { x with members := x.members.filter (· ≠ i) }) ∧
        ∀ l, s.loop? l = none → t.loop? l = none))

/-- R26: the way whose entry is a record's station: of the entries of its number that list it, the lowest (log 16). -/
def Claims.Owns (s : State) (v i : Nat) : Prop :=
  ∃ o f, s.occ? i = some o ∧ v ∈ s.matching o.station ∧ s.station? v = some f ∧ i ∈ f.list ∧
    ∀ u g, u ∈ s.matching o.station → u < v → s.station? u = some g → i ∉ g.list

/-- R51: a loop that a damaged record anchors: it is the open endpoint, or the closing member in CLOSING or CLOSED. -/
def Claims.Anchors (i : Nat) (x : Loop) : Prop :=
  x.openEnd = i ∨ x.closing = some i ∧ (x.state = .closing ∨ x.state = .closed)

/-- R51, R127: a record is a member of a loop that the discard of a damaged record voids. -/
def Claims.VoidedMember (s : State) (i j : Nat) : Prop :=
  ∃ l x, s.loop? l = some x ∧ Claims.Anchors i x ∧ j ∈ x.members

/-- R51, R127: a record is the open endpoint of such a loop, and its opens-loop field names it; one that names another loop
keeps the field, and its station is not marked (DESIGN CHOICE, log 62). -/
def Claims.VoidedEnd (s : State) (i j : Nat) (p : Occ) : Prop :=
  ∃ l x, s.loop? l = some x ∧ Claims.Anchors i x ∧ j = x.openEnd ∧ p.opens = some l

/-- R127: what is left of another record: the fields that the voids clear, and no other. The opens-loop field of an open
endpoint that names another loop is not cleared (DESIGN CHOICE, log 62). -/
def Claims.AfterVoids (s : State) (i j : Nat) (p q : Occ) : Prop :=
  q = { p with memberOf := q.memberOf, opens := q.opens, drift := q.drift, flags := q.flags } ∧
  (Claims.VoidedMember s i j → q.memberOf = none) ∧ (¬Claims.VoidedMember s i j → q.memberOf = p.memberOf) ∧
  (Claims.VoidedEnd s i j p → q.opens = none) ∧ (¬Claims.VoidedEnd s i j p → q.opens = p.opens) ∧
  (Claims.VoidedMember s i j → p.state ≠ .final →
    q.drift = none ∧ q.flags = { p.flags with driftHigh := false, noDrift := false }) ∧
  (¬Claims.VoidedMember s i j ∨ p.state = .final → q.drift = p.drift ∧ q.flags = p.flags)

/-- R51, R49: DISCARD OCCUPATION of a record that carries the damaged mark or gains it in this read, where nothing else
fails its check. It is refused LOOP_BUSY while a loop it anchors is CLOSING or, being CLOSED, recomputed (log 19).
Otherwise those loops are voided as R127 says and the record becomes FREE; every entry of the table that lists it loses it
and is marked changed, every member list loses it, and no other entry is marked but the stations of the voided loops'
records, each the way that owns the record (log 16), but for an open endpoint whose opens-loop field names another loop,
which keeps it (log 62); the window whose record it is ends by removal, with cause DISCARD,
and one whose record is a member of a voided loop loses its copy of the loop (log 28). The answer has the record's station
number as stored (log 27). An index out of range is refused BAD_VALUE. The bytes of the answer are read from R181 by
inference (log 11), and that the whole table is searched is log 15. -/
def Claims.DiscardDamaged : Prop :=
  (∀ (s : State) (i : Nat), s.serves (.discardOccupation i) .ready = true → 512 ≤ i →
    exec (.discardOccupation i) s = .next (s.refuse .badValue)) ∧
  ∀ (s : State) (i : Nat) (o : Occ), s.serves (.discardOccupation i) .ready = true → i < 512 → s.occ? i = some o →
    (o.damaged = true ∨ o.sound = false) → (∀ j p, j ≠ i → s.occ? j = some p → p.sound = true ∧ p.damaged = false) →
    (∀ v f, s.station? v = some f → f.sound = true ∧ f.damaged = false) →
    (∀ q ∈ s.loops, q.2.sound = true ∧ q.2.damaged = false) → s.loopsWf = true → s.stationsWf = true →
    let u := s.checkOcc i
    let busy (l : Nat) (x : Loop) : Prop := x.state = .closing ∨ x.state = .closed ∧ s.recomputing l = true
    ((∃ l x, s.loop? l = some x ∧ Claims.Anchors i x ∧ busy l x) →
      exec (.discardOccupation i) s = .next (u.refuse .loopBusy)) ∧
    ((∀ l x, s.loop? l = some x → Claims.Anchors i x → ¬busy l x) → ∃ t,
      exec (.discardOccupation i) s = .next t ∧
      t = { s with stations := t.stations, occs := t.occs, loops := t.loops, expiryDue := t.expiryDue, window := t.window,
                   lastWindow := t.lastWindow, events := t.events, link := t.link } ∧
      t.link = (s.respond .ok (u16 i ++ u16 o.station)).link ∧ t.occ? i = none ∧
      (∀ l x, s.loop? l = some x →
        (Claims.Anchors i x → t.loop? l = none) ∧
        (¬Claims.Anchors i x → t.loop? l = some { x with members := x.members.filter (· ≠ i) })) ∧
      (∀ l, s.loop? l = none → t.loop? l = none) ∧
      t.expiryDue = s.expiryDue.filter (fun l => (s.loop? l).isNone || (t.loop? l).isSome) ∧
      (∀ j, s.occ? j = none → t.occ? j = none) ∧
      (∀ j p, j ≠ i → s.occ? j = some p → ∃ q, t.occ? j = some q ∧ Claims.AfterVoids s i j p q) ∧
      (∀ v f, s.station? v = some f →
        let touched := i ∈ f.list ∨ ∃ j p, j ≠ i ∧ s.occ? j = some p ∧
          (Claims.VoidedMember s i j ∨ Claims.VoidedEnd s i j p) ∧ Claims.Owns s v j
        (touched → t.station? v = some { f with list := f.list.filter (· ≠ i), changed := true }) ∧
        (¬touched → t.station? v = some f)) ∧
      (∀ v, s.station? v = none → t.station? v = none) ∧
      (s.window = none → t.window = none) ∧
      (∀ w, s.window = some w →
        (w.occ = i → t.window = none ∧ t.lastWindow = some
          { occ := w.occ, station := w.station, outcome := .aborted, cause := .discard, n := w.sums.n, epoch := s.epoch }) ∧
        (w.occ ≠ i → (Claims.VoidedMember s i w.occ → t.window = some { w with memberOf := none }) ∧
          (¬Claims.VoidedMember s i w.occ → t.window = some w))) ∧
      ((∀ w, s.window = some w → w.occ ≠ i) → t.lastWindow = s.lastWindow) ∧
      t.events = { s.events with pending := s.events.pending ||| (if o.sound then 0 else 0x2000) |||
        (if ∃ w, s.window = some w ∧ w.occ = i then 0x0002 else 0) })

/-- R51: DISCARD OCCUPATION, of a sound record and of a damaged one (its station number log 27, the window's copy of its
loop log 28, an open endpoint that names another loop log 62). -/
def Obligations.DiscardOccupation : Prop := Claims.DiscardSound ∧ Claims.DiscardDamaged

/-- R53, R103, R104: READ OCCUPATION on intact memory: FREE, or every field with, for a record with results, its two
stale marks. The station here is usable. It changes nothing but the link. The layout is the model's (log 11), and an answer
of more than 240 bytes is sent whole (log 55). -/
def Claims.ReadOccupation : Prop :=
  ∀ (s : State) (i : Nat), s.serves (.readOccupation i) .readyRestore = true → s.intact = true →
    (i < 512 → s.occ? i = none → exec (.readOccupation i) s = .next (s.respond .ok [0])) ∧
    (∀ o, i < 512 → s.occ? i = some o → o.results = none →
      exec (.readOccupation i) s = .next (s.respond .ok (occBytes i o (false, false)))) ∧
    (∀ o r w e, i < 512 → s.occ? i = some o → o.results = some r → s.matching o.station = [w] → s.station? w = some e →
      e.state = .active → exec (.readOccupation i) s = .next (s.respond .ok (occBytes i o
        (decide (r.site ≠ e.site ∨ r.siteRevision ≠ (s.site e.site).revision),
         decide (r.revision ≠ s.constants.revision))))) ∧
    (512 ≤ i → exec (.readOccupation i) s = .next (s.refuse .badValue))

/-- R8, R32, R92, R103 to R105, R170: the two stale marks that READ OCCUPATION answers of a sound record with results, on any
memory whose entries of the record's set do not newly fail. The tide mark is set where the station is unusable, where its
site differs or has another revision, and where the site carries the damaged mark or gains it in this read; the constants
mark where the revision differs and where the constants are damaged. A failing site and failing constants gain their mark
and raise MEMORY_ERROR, and a site that has it raises it again. Nothing else changes but the link (its bytes log 11). -/
def Claims.ReadOccupationMarks : Prop :=
  ∀ (s : State) (i : Nat) (o : Occ) (r : Results), s.serves (.readOccupation i) .readyRestore = true → i < 512 →
    s.occ? i = some o → o.sound = true → o.damaged = false → o.results = some r →
    Claims.SetReads s o.station →
    let bad (k : Nat) : Prop := (s.site k).damaged = true ∨ (s.site k).sound = false
    let names (k : Nat) : Prop := ∃ w x, s.usable o.station = some w ∧ s.station? w = some x ∧ x.site = k
    let fails : Prop := (∃ k, names k ∧ bad k) ∨ s.constants.damaged = false ∧ s.constants.sound = false
    ∃ t tide consts, exec (.readOccupation i) s = .next t ∧
      t = { s with sites := t.sites, constants := t.constants, events := t.events, link := t.link } ∧
      t.link = (s.respond .ok (occBytes i o (tide, consts))).link ∧
      (tide = false ↔ names r.site ∧ ¬bad r.site ∧ r.siteRevision = (s.site r.site).revision) ∧
      (consts = false ↔
        s.constants.damaged = false ∧ s.constants.sound = true ∧ r.revision = s.constants.revision) ∧
      (∀ k, names k → bad k → t.site k = { s.site k with damaged := true }) ∧
      (∀ k, ¬(names k ∧ bad k) → t.site k = s.site k) ∧
      t.constants = { s.constants with damaged := s.constants.damaged || !s.constants.sound } ∧
      (fails → t.events = { s.events with pending := s.events.pending ||| 0x2000 }) ∧ (¬fails → t.events = s.events)

/-! ### Sensor inputs -/

/-- R57: a rising edge with no gate in progress starts one of the group's length, on a running channel with sound
constants; a SEEKING channel becomes COUNTING and a FAULT channel stays FAULT. An OFF channel does nothing. -/
def Claims.GateStarts : Prop :=
  ∀ (s : State) (ch : Channel), s.mainRuns = true → s.constants.sound = true → s.constants.damaged = false →
    ((s.front.chan ch).state ≠ .off → (s.front.chan ch).gate = none → ∃ t, exec (.gateStart ch) s = .next t ∧
      t = { s with front := t.front } ∧ (∀ c, c ≠ ch → t.front.chan c = s.front.chan c) ∧
      t.front.chan ch =
        { state := if (s.front.chan ch).state = .seeking then .counting else (s.front.chan ch).state,
          gate := some { length := (if ch = .temperature then s.constants.nums.tempGate else s.constants.nums.tiltGate).toNat,
                         edges := 0 },
          periods := 0, abandons := (s.front.chan ch).abandons }) ∧
    ((s.front.chan ch).state = .off → exec (.gateStart ch) s = .next s)

/-- R60: a tilt value as rounded from a gate's count, before its clamp. -/
def Claims.rawTilt (s : State) (a : Axis) (p : Nat) : Int :=
  roundDiv (((((s.front.chan (.tilt a)).periods + p : Nat) : Int) - zeroOf s.constants.nums (.tilt a)) *
    scaleOf s.constants.nums (.tilt a)) 65536

/-- R57, R59, R60, R63: a tilt gate completes, with sound constants: the next gate begins, the channel is COUNTING with
its abandon count clear, and its value, rounded and clamped, is held. The other channels and held values stay, and so
does a window in SETTLING. -/
def Claims.TiltHeld : Prop :=
  ∀ (s : State) (a : Axis) (p : Nat) (g : Gate), s.mainRuns = true → s.constants.sound = true → s.constants.damaged = false →
    (s.front.chan (.tilt a)).state ≠ .off → (s.front.chan (.tilt a)).gate = some g →
    (s.front.chan (.tilt a)).periods + p ≤ 16777215 →
    let v := max (-2000) (min 2000 (Claims.rawTilt s a p))
    ∃ t, exec (.tiltGateComplete a p) s = .next t ∧
      t.front = { s.front with x := t.front.x, y := t.front.y, heldX := t.front.heldX, heldY := t.front.heldY } ∧
      t.front.chan (.tilt a) = { state := .counting, gate := some { length := s.constants.nums.tiltGate.toNat, edges := 0 },
                                 periods := 0, abandons := 0 } ∧
      (∀ c, c ≠ .tilt a → t.front.chan c = s.front.chan c) ∧
      (if a = .x then t.front.heldX = some v ∧ t.front.heldY = s.front.heldY
       else t.front.heldY = some v ∧ t.front.heldX = s.front.heldX) ∧
      ((s.window = none ∨ ∃ w k, s.window = some w ∧ w.phase = .settling k) → t = { s with front := t.front })

/-- R40, R41: what a tilt value does to a window in COLLECTING, with sound constants. With CLAMP asserted it is kept as
the last value and nothing more. Otherwise it is accumulated and its range marked. Above the limit the window takes the
flag and raises the event once. -/
def Claims.TiltCollected : Prop :=
  ∀ (s : State) (a : Axis) (p : Nat) (g : Gate) (w : Window) (b c d : Nat), s.mainRuns = true → s.constants.sound = true →
    s.constants.damaged = false → (s.front.chan (.tilt a)).state ≠ .off → (s.front.chan (.tilt a)).gate = some g →
    (s.front.chan (.tilt a)).periods + p ≤ 16777215 → s.window = some w → w.phase = .collecting b c d →
    let q := Claims.rawTilt s a p
    let v := max (-2000) (min 2000 q)
    let last : Sums := if a = .x then { w.sums with lastX := some v } else { w.sums with lastY := some v }
    let sums : Sums := if a = .x then { last with tiltX2 := w.sums.tiltX2 + v.natAbs ^ 2, mx := w.sums.mx + 1 }
      else { last with tiltY2 := w.sums.tiltY2 + v.natAbs ^ 2, my := w.sums.my + 1 }
    let above := s.constants.nums.tiltLimit < (v.natAbs : Int)
    (s.clamp = true → ∃ t, exec (.tiltGateComplete a p) s = .next t ∧
      t = { s with front := t.front, window := some { w with sums := last } }) ∧
    (s.clamp = false → (w.abortOnTilt = false ∨ ¬above) → ∃ t, exec (.tiltGateComplete a p) s = .next t ∧
      t = { s with front := t.front, window := t.window, events := t.events } ∧
      t.window = some { w with
        sums := sums, tiltRange := w.tiltRange || decide (q ≠ v), tiltLimit := w.tiltLimit || decide above
        tiltRaised := w.tiltRaised || decide above } ∧
      t.events = (if above ∧ w.tiltRaised = false then { s.events with pending := s.events.pending ||| 0x0004 } else s.events))

/-- R41, R49, R26: with the abort-on-tilt choice, an accumulated value above the limit removes the window on intact memory:
the record is freed; it leaves the list of each entry of its station's set that lists it, which is marked changed, and
the member lists; the window ends ABORTED with cause TILT; and TILT_LIMIT and WINDOW_ABORTED are raised. -/
def Claims.TiltAborts : Prop :=
  ∀ (s : State) (a : Axis) (p : Nat) (g : Gate) (w : Window) (b c d : Nat), s.mainRuns = true → s.intact = true →
    (s.front.chan (.tilt a)).state ≠ .off → (s.front.chan (.tilt a)).gate = some g →
    (s.front.chan (.tilt a)).periods + p ≤ 16777215 → s.window = some w → w.phase = .collecting b c d → s.clamp = false →
    w.abortOnTilt = true →
    s.constants.nums.tiltLimit < ((max (-2000) (min 2000 (Claims.rawTilt s a p))).natAbs : Int) → ∃ t,
      exec (.tiltGateComplete a p) s = .next t ∧
      t = { s with front := t.front, window := none, lastWindow := t.lastWindow, occs := t.occs, stations := t.stations,
                   loops := t.loops, events := t.events, scan := t.scan } ∧
      (s.part ≠ .starting → t.scan = s.scan) ∧
      t.front = { s.front with x := t.front.x, y := t.front.y, heldX := t.front.heldX, heldY := t.front.heldY } ∧
      t.front.chan (.tilt a) = { state := .counting, gate := some { length := s.constants.nums.tiltGate.toNat, edges := 0 },
                                 periods := 0, abandons := 0 } ∧
      (∀ k, k ≠ .tilt a → t.front.chan k = s.front.chan k) ∧
      (let v := max (-2000) (min 2000 (Claims.rawTilt s a p))
       if a = .x then t.front.heldX = some v ∧ t.front.heldY = s.front.heldY
       else t.front.heldY = some v ∧ t.front.heldX = s.front.heldX) ∧
      (∀ j, t.occ? j = if j = w.occ then none else s.occ? j) ∧
      (∀ v, t.station? v = (s.station? v).map fun f =>
        if v / 4 = w.station % 64 ∧ w.occ ∈ f.list then { f with list := f.list.filter (· ≠ w.occ), changed := true } else f) ∧
      (∀ l, t.loop? l = (s.loop? l).map fun x => { x with members := x.members.filter (· ≠ w.occ) }) ∧
      t.lastWindow = some { occ := w.occ, station := w.station, outcome := .aborted, cause := .tilt, n := w.sums.n,
                            epoch := s.epoch } ∧
      t.events = { s.events with pending := s.events.pending ||| 0x0006 }

/-- R170: a gate of any channel that completes while the constants are damaged, or fail their check in this read, which
alone raises MEMORY_ERROR: the next gate begins with the same length, the channel is COUNTING with its abandon count
clear, and no value is converted: held values, lag and window stay. -/
def Claims.GateOnDamagedConstants : Prop :=
  ∀ (s : State) (ch : Channel) (c : Instr) (p : Nat) (g : Gate), s.mainRuns = true →
    ((∃ a, ch = .tilt a ∧ c = .tiltGateComplete a p) ∨ ch = .temperature ∧ c = .temperatureGateComplete p) →
    (s.front.chan ch).state ≠ .off → (s.front.chan ch).gate = some g → (s.front.chan ch).periods + p ≤ 16777215 →
    (s.constants.damaged = true ∨ s.constants.sound = false) → ∃ t, exec c s = .next t ∧
      t = { s with front := t.front, constants := { s.constants with damaged := true }, events := t.events } ∧
      t.events = (if s.constants.damaged then s.events else { s.events with pending := s.events.pending ||| 0x2000 }) ∧
      t.front = { s.front with x := t.front.x, y := t.front.y, t := t.front.t } ∧
      t.front.chan ch = { state := .counting, gate := some { length := g.length, edges := 0 }, periods := 0, abandons := 0 } ∧
      ∀ k, k ≠ ch → t.front.chan k = s.front.chan k

/-- R40, R41, R57, R59, R60, R63, R170: a tilt gate that completes, and what any gate does on damaged constants. The
row carries the reference periods that passed since the count's last value (log 7), and the window's own copies stand
for its record's fields (log 28). -/
def Obligations.TiltGate : Prop :=
  Claims.TiltHeld ∧ Claims.TiltCollected ∧ Claims.TiltAborts ∧ Claims.GateOnDamagedConstants

/-- R61, R62, R42: a temperature gate completes, with sound constants: the value, rounded and clamped, is held, the
lag value follows it, and a window in COLLECTING takes both. -/
def Claims.TemperatureGate : Prop :=
  ∀ (s : State) (p : Nat) (g : Gate), s.mainRuns = true → s.constants.sound = true → s.constants.damaged = false →
    s.front.t.state ≠ .off → s.front.t.gate = some g → s.front.t.periods + p ≤ 16777215 →
    let v := max (-50000) (min 50000
      (roundDiv (((s.front.t.periods + p : Nat) - s.constants.nums.zeroT) * s.constants.nums.scaleT) 65536))
    ∃ (t : State) (l : Int), exec (.temperatureGateComplete p) s = .next t ∧
      l = (match s.front.lag with
        | none => v
        | some old => old + roundDiv ((v - old) * s.constants.nums.lagFactor) 256) ∧
      t = { s with front := t.front, window := t.window } ∧
      t.front = { s.front with t := t.front.t, heldT := some v, lag := some l } ∧
      t.front.t = { state := .counting, gate := some { length := s.constants.nums.tempGate.toNat, edges := 0 },
                    periods := 0, abandons := 0 } ∧
      (∀ w b c d, s.window = some w → w.phase = .collecting b c d → t.window = some { w with sums :=
        if s.clamp then { w.sums with lastT := some v, lastL := some l }
        else { w.sums with lastT := some v, lastL := some l, sumTemp := w.sums.sumTemp + v, sumLag := w.sums.sumLag + l,
                           k := w.sums.k + 1 } }) ∧
      (∀ w k, s.window = some w → w.phase = .settling k → t.window = s.window) ∧ (s.window = none → t.window = none)

/-- R62: the lag value lies between its previous value and the temperature, both included; and no command but the
completion of a temperature gate changes it, unless the front end starts again, which unprimes it. -/
def Claims.LagValue : Prop :=
  (∀ (c : ConstNums) (old v : Int), 1 ≤ c.lagFactor → c.lagFactor ≤ 256 →
    min old v ≤ nextLag c (some old) v ∧ nextLag c (some old) v ≤ max old v) ∧
  ∀ (c : Instr) (s t : State), exec c s = .next t → (∀ p, c ≠ .temperatureGateComplete p) →
    t.front.lag = s.front.lag ∨ t.front.lag = none ∧
      (c = .powerOn ∨ c = .resetLineAsserted ∨ c = .resetLineReleased ∨ c = .reset ∨ c = .wake)

/-- R42, R61, R62: a temperature value, and the lag value that follows it. The row carries the reference periods that
passed since the count's last value (log 7). -/
def Obligations.TemperatureAndLag : Prop := Claims.TemperatureGate ∧ Claims.LagValue

/-- R58, R59: an abandon drops the gate or the wait, clears the period count and raises the abandon count, up to 3; a
SEEKING or COUNTING channel whose count comes to 3 becomes FAULT and raises SENSOR_FAULT. -/
def Claims.Abandons : Prop :=
  ∀ (s : State) (ch : Channel), s.mainRuns = true → (s.front.chan ch).state ≠ .off → (s.front.chan ch).abandons ≤ 3 →
    ∃ t, exec (.abandon ch) s = .next t ∧ t = { s with front := t.front, events := t.events } ∧
      (∀ c, c ≠ ch → t.front.chan c = s.front.chan c) ∧
      t.front.chan ch =
        { state := if 2 ≤ (s.front.chan ch).abandons then .fault else (s.front.chan ch).state, gate := none, periods := 0,
          abandons := min ((s.front.chan ch).abandons + 1) 3 } ∧
      t.events = (if 2 ≤ (s.front.chan ch).abandons ∧ (s.front.chan ch).state ≠ .fault then
        { s.events with pending := s.events.pending ||| 0x0010 } else s.events)

/-- R57 to R59: the gates of a channel: their start and their abandon. The row of an abandon stands for the reference
periods that remain (log 7). -/
def Obligations.ChannelGates : Prop := Claims.GateStarts ∧ Claims.Abandons

/-- R65, R67, R68, R39: a whole frame that follows an assertion of GSI_FRM. The input is LIVE and expects the next
number. A window in COLLECTING adds the frames missed to its break count, raises SAMPLE_BREAK for the first break of the
window alone, and takes the frame as clamped, as overloaded, or into its sums with its arrival offset. -/
def Claims.GravityFrame : Prop :=
  ∀ (s : State) (word : BitVec 32), s.mainRuns = true → ∃ u t, exec .gsiFrmAsserted s = .next u ∧
    u = { s with front := { s.front with receiving := true } } ∧ exec (.gsiFrame word) u = .next t ∧
    t = { s with front := t.front, window := t.window, events := t.events } ∧
    t.front = { s.front with live := some { silence := 0, expected := ((word.toNat / 2 ^ 28) + 1) % 16 }, receiving := false } ∧
    (s.window = none → t.window = none ∧ t.events = s.events) ∧
    (∀ w start b c n, s.window = some w → w.phase = .collecting start b c →
      n = (match s.front.live with
        | some g => (word.toNat / 2 ^ 28 + 16 - g.expected) % 16
        | none => 0) →
      t.window = some { w with
        sums :=
          let m := { w.sums with breaks := if n = 0 then w.sums.breaks else min (w.sums.breaks + n) 65535 }
          if s.clamp then { m with clamped := min (w.sums.clamped + 1) 65535 }
          else if word.getLsbD 27 then { m with overload := min (w.sums.overload + 1) 65535 }
          else { m with sumX := w.sums.sumX + (word.extractLsb' 0 24).toInt,
                        sumX2 := w.sums.sumX2 + (word.extractLsb' 0 24).toInt.natAbs ^ 2, n := w.sums.n + 1,
                        sumT := w.sums.sumT + (s.epoch - start) }
        clamped := w.clamped || s.clamp
        overload := w.overload || (!s.clamp && word.getLsbD 27)
        breakRaised := w.breakRaised || decide (n ≠ 0) } ∧
      t.events = if n ≠ 0 ∧ w.breakRaised = false then { s.events with pending := s.events.pending ||| 0x0008 }
        else s.events) ∧
    ((∃ w k, s.window = some w ∧ w.phase = .settling k) → t.window = s.window ∧ t.events = s.events)

/-- R66: a short frame is discarded: it changes nothing but the frame in reception. -/
def Claims.ShortFrame : Prop :=
  ∀ s : State, exec .shortFrame s = .next { s with front := { s.front with receiving := false } }

/-- R69: the silence count completes with no window to close: the input is SILENT, without an expected number, and
nothing else changes. -/
def Claims.Silence : Prop :=
  ∀ (s : State) (g : GsiLive), s.mainRuns = true → s.front.live = some g → 2048 ≤ g.silence →
    (s.window = none ∨ ∃ w k, s.window = some w ∧ w.phase = .settling k) →
    exec .silenceCountComplete s = .next { s with front := { s.front with live := none } }

/-- R39, R65 to R69: the gravity sample input. The row of the silence count takes a count that has come to 2,048 (log
5). -/
def Obligations.GravityFrames : Prop := Claims.GravityFrame ∧ Claims.ShortFrame ∧ Claims.Silence

/-! ### Loops -/

/-- R112, R113: OPEN LOOP of a FREE loop on a record out of its window, at a usable BASE, that opens no other loop,
on intact memory: the loop's every field, the record's opens-loop field and the answer are as given, and nothing
else changes. The bytes of the answer are read from R181 by inference (log 11). -/
def Claims.OpenLoopAccepted : Prop :=
  ∀ (s : State) (l i w : Nat) (o : Occ) (e : Station), s.serves (.openLoop l i) .ready = true → s.intact = true → l < 16 →
    i < 512 → s.clock.isSet = true → s.loop? l = none → s.occ? i = some o → o.state ≠ .settling → o.state ≠ .collecting →
    o.opens = none → s.matching o.station = [w] → s.station? w = some e → e.state = .active → e.role = .base →
    ∃ t, exec (.openLoop l i) s = .next t ∧ t = { s with occs := t.occs, loops := t.loops, link := t.link } ∧
      t.link = (s.respond .ok (u8 l ++ u48 s.epoch ++ u48 (s.epoch + s.constants.nums.loopHours.toNat * 3686400))).link ∧
      t.loop? l = some
        { state := .opened, damaged := false, sound := true, openEnd := i, openEpoch := s.epoch,
          deadline := s.epoch + s.constants.nums.loopHours.toNat * 3686400, members := [], closing := none, mode := none,
          deltaV := none, rate := none, driftHigh := false, interrupted := false } ∧
      (∀ k, k ≠ l → t.loop? k = s.loop? k) ∧ t.occ? i = some { o with opens := some l } ∧
      ∀ j, j ≠ i → t.occ? j = s.occ? j

/-- R112, R113, R170: the refusals of OPEN LOOP in their order, each leaving only the marks of its own reads: by its fields
and the clock; by the loop; by the record; by the record's station, where the entries are sound; by the record's state
and its opens-loop field; and by constants that cannot be read. -/
def Claims.OpenLoopRefusals : Prop :=
  ∀ (s : State) (l i : Nat), s.serves (.openLoop l i) .ready = true →
    let refused (u : State) (st : Status) := exec (.openLoop l i) s = .next (u.refuse st)
    (16 ≤ l ∨ 512 ≤ i → refused s .badValue) ∧
    (l < 16 → i < 512 → s.clock.isSet = false → refused s .clockUnset) ∧
    (l < 16 → i < 512 → s.clock.isSet = true →
      (∀ r, s.loop? l = some r →
        (r.damaged = true ∨ r.sound = false →
          refused ((s.setLoop l { r with damaged := true }).raise .memoryError) .damaged) ∧
        (r.damaged = false → r.sound = true → refused s .loopState)) ∧
      (s.loop? l = none →
        (s.occ? i = none → refused s .noOccupation) ∧
        ∀ o, s.occ? i = some o →
          (o.sound = false → refused ((s.setOcc i { o with damaged := true }).raise .memoryError) .damaged) ∧
          (o.sound = true → o.damaged = true → refused s .damaged) ∧
          (o.sound = true → o.damaged = false → (∀ q ∈ s.stations, q.2.sound = true) →
            (s.usable o.station = none → refused s .notBase) ∧
            ∀ w e, s.usable o.station = some w → s.station? w = some e →
              (e.role = .field → refused s .notBase) ∧
              (e.role = .base →
                (o.state = .settling ∨ o.state = .collecting → refused s .loopState) ∧
                (o.state ≠ .settling → o.state ≠ .collecting →
                  (o.opens.isSome = true → refused s .inUse) ∧
                  (o.opens = none → (s.constants.damaged = true ∨ s.constants.sound = false) → refused
                    ({ s with constants := { s.constants with damaged := true } }.raise .memoryError) .damaged))))))

/-- R112, R113: OPEN LOOP, and its refusals. -/
def Obligations.OpenLoop : Prop := Claims.OpenLoopAccepted ∧ Claims.OpenLoopRefusals

/-- R119: the reference value of a usable station. -/
def Claims.reference (s : State) (number : Nat) : Option Nat := (s.usable number).bind fun w => (s.station? w).bind (·.reference)

/-- R116, step 3: the states of a loop that a mode may close; 0 is DRIFT and 1 NO_DRIFT (log 10). -/
def Claims.Closable (mode : Nat) (r : Loop) : Prop :=
  mode = 0 ∧ r.state = .opened ∨ mode = 1 ∧ (r.state = .opened ∨ r.state = .expired)

/-- R116, steps 4 to 6: the closing member: on the loop's list, out of its window, with its epoch. -/
def Claims.CloseMember (s : State) (r : Loop) (i : Nat) (o : Occ) (m : Reading) : Prop :=
  i ∈ r.members ∧ s.occ? i = some o ∧ o.state ≠ .settling ∧ o.state ≠ .collecting ∧ o.reading = some m

/-- R116, step 8: every other member is out of its window, with an epoch not later than the closing member's. -/
def Claims.OthersBefore (s : State) (r : Loop) (i : Nat) (m : Reading) : Prop :=
  ∀ j ∈ r.members, j ≠ i → ∃ p q, s.occ? j = some p ∧ p.state ≠ .settling ∧ p.state ≠ .collecting ∧
    p.reading = some q ∧ q.epoch ≤ m.epoch

/-- R116, steps 9 and 10: in mode DRIFT the open endpoint has an earlier epoch, and at different stations both carry a
reference value. -/
def Claims.DriftCloses (s : State) (r : Loop) (o : Occ) (m : Reading) (e : Station) : Prop :=
  ∃ p q, s.occ? r.openEnd = some p ∧ p.reading = some q ∧ q.epoch < m.epoch ∧
    (p.station ≠ o.station → (Claims.reference s p.station).isSome = true ∧ e.reference.isSome = true)

/-- R116, R117: CLOSE LOOP that passes every check, in either mode, on intact memory: the loop becomes CLOSING with its
closing member and mode, an IDLE engine takes its CLOSE and a WORKING one puts it at the tail, and nothing else changes
but the link. The bytes of the answer are read from R181 by inference (log 11). -/
def Claims.CloseLoopAccepted : Prop :=
  ∀ (s : State) (l i mode tag w : Nat) (r : Loop) (o : Occ) (m : Reading) (e : Station),
    s.serves (.closeLoop l i mode tag) .ready = true → s.intact = true → l < 16 → i < 512 → tag < 256 →
    s.loop? l = some r → Claims.Closable mode r → Claims.CloseMember s r i o m → s.usable o.station = some w →
    s.station? w = some e → e.role = .base → Claims.OthersBefore s r i m → (mode = 0 → Claims.DriftCloses s r o m e) →
    s.engine.state ≠ .halted → s.engine.queue.length < 4 → ∃ t, exec (.closeLoop l i mode tag) s = .next t ∧
      t = { s with loops := t.loops, engine := t.engine, link := t.link } ∧
      t.loop? l = some { r with state := .closing, closing := some i, mode := some (if mode = 0 then .drift else .noDrift) } ∧
      (∀ k, k ≠ l → t.loop? k = s.loop? k) ∧
      let job : Job := { kind := .close l, origin := .host, tag := tag }
      (s.engine.state = .idle →
        t.link = (s.respond .ok (u8 l ++ u8 0)).link ∧
        t.engine = { s.engine with state := .working, flight := some (Claims.begun job) }) ∧
      (s.engine.state = .working →
        t.link = (s.respond .ok (u8 l ++ u8 (s.engine.queue.length + 1))).link ∧
        t.engine = { s.engine with queue := s.engine.queue ++ [job] })

/-- R115, R116: the refusals of CLOSE LOOP in their order, on intact memory: by the loop's state, the closing member,
its station, the other members, in mode DRIFT the open endpoint and the two references, and the engine. -/
def Claims.CloseLoopRefusals : Prop :=
  ∀ (s : State) (l i mode tag : Nat), s.serves (.closeLoop l i mode tag) .ready = true → s.intact = true → l < 16 →
    i < 512 → mode < 2 → tag < 256 →
    let refused (st : Status) := exec (.closeLoop l i mode tag) s = .next (s.refuse st)
    (s.loop? l = none → refused .loopState) ∧
    ∀ r, s.loop? l = some r →
      (r.state = .closed → refused .loopState) ∧ (r.state = .closing → refused .loopBusy) ∧
      (r.state = .expired → mode = 0 → refused .loopExpired) ∧
      (Claims.Closable mode r →
        (s.occ? i = none → refused .noOccupation) ∧
        (∀ o, s.occ? i = some o → (i ∉ r.members ∨ o.state = .settling ∨ o.state = .collecting) → refused .loopState) ∧
        ∀ o m, Claims.CloseMember s r i o m →
          (s.usable o.station = none → refused .notBase) ∧
          ∀ w e, s.usable o.station = some w → s.station? w = some e →
            (e.role = .field → refused .notBase) ∧
            (e.role = .base →
              ((∃ j p, j ∈ r.members ∧ j ≠ i ∧ s.occ? j = some p ∧
                  (p.state = .settling ∨ p.state = .collecting ∨ ∃ q, p.reading = some q ∧ m.epoch < q.epoch)) →
                refused .loopState) ∧
              (Claims.OthersBefore s r i m →
                (∀ p q, mode = 0 → s.occ? r.openEnd = some p → p.reading = some q →
                  (m.epoch ≤ q.epoch → refused .loopState) ∧
                  (q.epoch < m.epoch → p.station ≠ o.station →
                    (s.usable p.station = none → refused .notBase) ∧
                    ((s.usable p.station).isSome = true →
                      (Claims.reference s p.station = none ∨ e.reference = none) → refused .noReference))) ∧
                ((mode = 1 ∨ Claims.DriftCloses s r o m e) →
                  (s.engine.state = .halted → refused .engineHalted) ∧
                  (s.engine.state ≠ .halted → 4 ≤ s.engine.queue.length → refused .queueFull)))))

/-- R116: the refusals of CLOSE LOOP by a field out of range, BAD_VALUE, and by a record that carries the damaged mark or
gains it in this read, DAMAGED: the loop; the closing member; where the entries are sound, another member; and in mode
DRIFT the open endpoint. Each leaves only the marks of its own reads. An open endpoint that is FREE or has no epoch is
refused LOOP_STATE (log 42). -/
def Claims.CloseLoopDamaged : Prop :=
  ∀ (s : State) (l i mode tag : Nat), s.serves (.closeLoop l i mode tag) .ready = true →
    let refused (u : State) (st : Status) := exec (.closeLoop l i mode tag) s = .next (u.refuse st)
    let failing (j : Nat) (p : Occ) := (s.setOcc j { p with damaged := true }).raise .memoryError
    (16 ≤ l ∨ 512 ≤ i ∨ 2 ≤ mode ∨ 256 ≤ tag → refused s .badValue) ∧
    (l < 16 → i < 512 → mode < 2 → tag < 256 → ∀ r, s.loop? l = some r →
      (r.damaged = true ∨ r.sound = false →
        refused ((s.setLoop l { r with damaged := true }).raise .memoryError) .damaged) ∧
      (r.damaged = false → r.sound = true → Claims.Closable mode r → ∀ o, s.occ? i = some o →
        (o.sound = false → refused (failing i o) .damaged) ∧ (o.sound = true → o.damaged = true → refused s .damaged) ∧
        ∀ m w e, o.sound = true → o.damaged = false → Claims.CloseMember s r i o m → (∀ q ∈ s.stations, q.2.sound = true) →
          s.usable o.station = some w → s.station? w = some e → e.role = .base →
          ((∀ j p, j ∈ r.members → j ≠ i → s.occ? j = some p → p.sound = true) →
            (∃ j p, j ∈ r.members ∧ j ≠ i ∧ s.occ? j = some p ∧ p.damaged = true) → refused s .damaged) ∧
          (∀ j p, j ∈ r.members → j ≠ i → s.occ? j = some p → p.sound = false →
            (∀ k q, k ∈ r.members → k ≠ i → k ≠ j → s.occ? k = some q → q.sound = true) → refused (failing j p) .damaged) ∧
          (mode = 0 → Claims.OthersBefore s r i m →
            (∀ j p, j ∈ r.members → j ≠ i → s.occ? j = some p → p.sound = true ∧ p.damaged = false) →
            (s.occ? r.openEnd = none → refused s .loopState) ∧
            ∀ p, s.occ? r.openEnd = some p →
              (p.sound = false → refused (failing r.openEnd p) .damaged) ∧
              (p.sound = true → p.damaged = true → refused s .damaged) ∧
              (p.sound = true → p.damaged = false → p.reading = none → refused s .loopState))))

/-- R115 to R117: CLOSE LOOP, and its refusals. -/
def Obligations.CloseLoop : Prop := Claims.CloseLoopAccepted ∧ Claims.CloseLoopRefusals ∧ Claims.CloseLoopDamaged

/-- R127, R129: the stations of a loop's members, and of its open endpoint where that names it (DESIGN CHOICE, log 62: not
where it names another loop), are marked changed, and no entry changes otherwise. -/
def Claims.LoopMarks (s t : State) (l : Nat) (r : Loop) : Prop :=
  (∀ v f, s.station? v = some f →
    let touched := ∃ i o, s.occ? i = some o ∧ (i ∈ r.members ∨ i = r.openEnd ∧ o.opens = some l) ∧ Claims.Owns s v i
    (touched → t.station? v = some { f with changed := true }) ∧ (¬touched → t.station? v = some f)) ∧
  ∀ v, s.station? v = none → t.station? v = none

/-- R127: VOID LOOP of a sound loop on intact memory: refused LOOP_BUSY while it is CLOSING or, being CLOSED, recomputed
(log 19). Otherwise the loop becomes FREE; each member loses its membership and, unless FINAL, its drift part with DRIFT_HIGH and
NO_DRIFT; the open endpoint loses its opens-loop field; the station of each is marked changed; the window of a member
follows its record (log 28); and nothing else changes. An open endpoint whose field names another loop keeps the field, and
its station is not marked for it (log 62). The bytes of the answer are read from R181 by inference (log 11). -/
def Claims.VoidLoop : Prop :=
  ∀ (s : State) (l : Nat) (r : Loop), s.serves (.voidLoop l) .ready = true → s.intact = true → l < 16 →
    s.loop? l = some r →
    (r.state = .closing ∨ r.state = .closed ∧ s.recomputing l = true →
      exec (.voidLoop l) s = .next (s.refuse .loopBusy)) ∧
    (¬(r.state = .closing ∨ r.state = .closed ∧ s.recomputing l = true) → ∃ t, exec (.voidLoop l) s = .next t ∧
      t = { s with stations := t.stations, occs := t.occs, loops := t.loops, expiryDue := s.expiryDue.filter (· ≠ l),
                   window := s.window.map fun w => if w.occ ∈ r.members then { w with memberOf := none } else w,
                   link := t.link } ∧
      Claims.LoopMarks s t l r ∧
      t.link = (s.respond .ok (u16 r.members.length)).link ∧ t.loop? l = none ∧ (∀ k, k ≠ l → t.loop? k = s.loop? k) ∧
      (∀ i o, s.occ? i = some o →
        let clears := i ∈ r.members ∧ o.state ≠ .final
        t.occ? i = some { o with
          memberOf := if i ∈ r.members then none else o.memberOf
          opens := if i = r.openEnd ∧ o.opens = some l then none else o.opens
          drift := if clears then none else o.drift
          flags := if clears then { o.flags with driftHigh := false, noDrift := false } else o.flags }) ∧
      ∀ i, s.occ? i = none → t.occ? i = none)

/-- R129: RELEASE LOOP of a sound CLOSED loop, refused LOOP_BUSY while that is recomputed (log 19), on intact memory: the
loop becomes FREE, each member with a drift part becomes FINAL and keeps it, every member leaves the loop, the open endpoint loses its
opens-loop field, and the station of each is marked changed. An open endpoint whose field names another loop keeps the
field, and its station is not marked for it (log 62). The answer counts the members made FINAL (log 39). In any other state the command is refused LOOP_STATE. The bytes of the answer are read from R181 by inference (log 11). -/
def Claims.ReleaseLoop : Prop :=
  ∀ (s : State) (l : Nat) (r : Loop), s.serves (.releaseLoop l) .ready = true → s.intact = true → l < 16 →
    s.loop? l = some r →
    (r.state ≠ .closed → exec (.releaseLoop l) s = .next (s.refuse .loopState)) ∧
    (r.state = .closed → s.recomputing l = true → exec (.releaseLoop l) s = .next (s.refuse .loopBusy)) ∧
    (r.state = .closed → s.recomputing l = false → ∃ t, exec (.releaseLoop l) s = .next t ∧
      t = { s with stations := t.stations, occs := t.occs, loops := t.loops, expiryDue := s.expiryDue.filter (· ≠ l),
                   link := t.link } ∧
      t.link = (s.respond .ok (u8 (r.members.filter fun i => (s.occ? i).any (·.drift.isSome)).length)).link ∧
      Claims.LoopMarks s t l r ∧ t.loop? l = none ∧
      (∀ k, k ≠ l → t.loop? k = s.loop? k) ∧
      (∀ i o, s.occ? i = some o → t.occ? i = some { o with
        memberOf := if i ∈ r.members then none else o.memberOf
        opens := if i = r.openEnd ∧ o.opens = some l then none else o.opens
        state := if i ∈ r.members ∧ o.drift.isSome = true then .final else o.state }) ∧
      ∀ i, s.occ? i = none → t.occ? i = none)

/-- R128: VOID LOOP of a loop that carries the damaged mark or gains it in this read, where the entries and the check
values of the pool are sound. It is refused LOOP_BUSY while a CLOSE that names it is in flight, faulted or waiting, and
while it is recomputed (log 46). Otherwise every record whose loop fields name it is gathered from the pool and loses them; a
gathered member that is neither FINAL nor damaged loses its drift part; the usable station of each is marked changed;
and the loop becomes FREE. The bytes of the answer are read from R181 by inference (log 11). -/
def Claims.VoidDamaged : Prop :=
  ∀ (s : State) (l : Nat) (r : Loop), s.serves (.voidLoop l) .ready = true → l < 16 → s.loop? l = some r →
    (r.damaged = true ∨ r.sound = false) → (∀ q ∈ s.occs, q.2.sound = true) → s.recordsWf = true →
    (∀ q ∈ s.stations, q.2.sound = true ∧ q.2.damaged = false) →
    let busy := (∃ f, s.engine.flight = some f ∧ (f.job.kind = .close l ∨ f.recomp.head? = some l)) ∨
      ∃ j ∈ s.engine.queue, j.kind = .close l
    (busy → exec (.voidLoop l) s = .next ((s.checkLoop l).refuse .loopBusy)) ∧
    (¬busy → ∃ t ids, exec (.voidLoop l) s = .next t ∧
      t = { s with stations := t.stations, occs := t.occs, loops := t.loops, expiryDue := s.expiryDue.filter (· ≠ l),
                   window := t.window, link := t.link,
                   events := { s.events with pending := s.events.pending ||| 0x2000 } } ∧
      (ids : List Nat).Nodup ∧
      (∀ i, i ∈ ids ↔ ∃ o, s.occ? i = some o ∧ (o.memberOf = some l ∨ o.opens = some l)) ∧
      t.link = (s.respond .ok (u16 ids.length)).link ∧ t.loop? l = none ∧ (∀ k, k ≠ l → t.loop? k = s.loop? k) ∧
      (∀ i, s.occ? i = none → t.occ? i = none) ∧
      (∀ i o, s.occ? i = some o →
        let clears := o.memberOf = some l ∧ o.damaged = false ∧ o.state ≠ .final
        t.occ? i = some { o with
          memberOf := if o.memberOf = some l then none else o.memberOf
          opens := if o.opens = some l then none else o.opens
          drift := if clears then none else o.drift
          flags := if clears then { o.flags with driftHigh := false, noDrift := false } else o.flags }) ∧
      (∀ v e, s.station? v = some e →
        ((∃ i o, i ∈ ids ∧ s.occ? i = some o ∧ s.usable o.station = some v) → t.station? v = some { e with changed := true }) ∧
        ((¬∃ i o, i ∈ ids ∧ s.occ? i = some o ∧ s.usable o.station = some v) → t.station? v = some e)) ∧
      (∀ v, s.station? v = none → t.station? v = none) ∧
      (∀ w, s.window = some w →
        ((∃ o, s.occ? w.occ = some o ∧ o.memberOf = some l) → t.window = some { w with memberOf := none }) ∧
        ((∀ o, s.occ? w.occ = some o → o.memberOf ≠ some l) → t.window = some w)) ∧
      (s.window = none → t.window = none))

/-- R127, R129: what VOID LOOP and RELEASE LOOP refuse before they look at a sound loop: a number out of range, BAD_VALUE,
and a FREE loop, LOOP_STATE; and RELEASE LOOP answers DAMAGED for a loop that carries the damaged mark or gains it in this
read. -/
def Claims.LoopEndRefusals : Prop :=
  ∀ (s : State) (l : Nat),
    (∀ c, (c = .voidLoop l ∨ c = .releaseLoop l) → s.serves c .ready = true →
      (16 ≤ l → exec c s = .next (s.refuse .badValue)) ∧
      (l < 16 → s.loop? l = none → exec c s = .next (s.refuse .loopState))) ∧
    ∀ r, s.serves (.releaseLoop l) .ready = true → l < 16 → s.loop? l = some r → (r.damaged = true ∨ r.sound = false) →
      exec (.releaseLoop l) s = .next (((s.setLoop l { r with damaged := true }).raise .memoryError).refuse .damaged)

/-- R127 to R129: VOID LOOP, of a sound loop and of a damaged one, and RELEASE LOOP, with their refusals. An open endpoint
that names another loop is log 62. -/
def Obligations.LoopEnds : Prop :=
  Claims.VoidLoop ∧ Claims.VoidDamaged ∧ Claims.ReleaseLoop ∧ Claims.LoopEndRefusals

/-- R132: READ LOOP on intact memory answers a FREE loop with its state alone, and any other with its fields, whether a
recomputation walks it (log 19: a CLOSED loop at the head of the job's list), and the station of its open endpoint, 0
where that is FREE (log 40); it changes nothing but the link. A number out of range is refused BAD_VALUE. The layout is
the model's (log 11). -/
def Claims.ReadLoop : Prop :=
  ∀ (s : State) (l : Nat), s.serves (.readLoop l) .readyRestore = true →
    (16 ≤ l → exec (.readLoop l) s = .next (s.refuse .badValue)) ∧
    (l < 16 → s.intact = true →
      (s.loop? l = none → exec (.readLoop l) s = .next (s.respond .ok [0])) ∧
      ∀ r, s.loop? l = some r →
        let walked := decide (r.state = .closed) && s.recomputing l
        (∀ o, s.occ? r.openEnd = some o →
          exec (.readLoop l) s = .next (s.respond .ok (loopBytes r walked o.station))) ∧
        (s.occ? r.openEnd = none → exec (.readLoop l) s = .next (s.respond .ok (loopBytes r walked 0))))

/-- R20, R53, R129, R132: a read of a record or a loop that carries the damaged mark or gains it in this read is answered
DAMAGED, with MEMORY_ERROR where the check that it makes raises it; so are RELEASE LOOP of a damaged loop, and READ LOOP of
a sound one whose open endpoint is such a record (log 40). -/
def Claims.ReadsOfDamaged : Prop :=
  ∀ s : State,
    (∀ i o, s.serves (.readOccupation i) .readyRestore = true → i < 512 → s.occ? i = some o →
      (o.damaged = true ∨ o.sound = false) →
      exec (.readOccupation i) s = .next ((s.checkOcc i).refuse .damaged)) ∧
    (∀ set way e, s.serves (.readSlot set way) .readyRestore = true → set < 64 → way < 4 →
      s.station? (set * 4 + way) = some e → (e.damaged = true ∨ e.sound = false) →
      exec (.readSlot set way) s = .next ((s.checkStation (set * 4 + way)).refuse .damaged)) ∧
    (∀ l r, l < 16 → s.loop? l = some r → (r.damaged = true ∨ r.sound = false) →
      ∃ t : State, t = { s with loops := t.loops, events := { s.events with pending := s.events.pending ||| 0x2000 } } ∧
        t.loop? l = some { r with damaged := true } ∧ (∀ k, k ≠ l → t.loop? k = s.loop? k) ∧
        (s.serves (.readLoop l) .readyRestore = true → exec (.readLoop l) s = .next (t.refuse .damaged)) ∧
        (s.serves (.releaseLoop l) .ready = true → exec (.releaseLoop l) s = .next (t.refuse .damaged))) ∧
    (∀ l r o, s.serves (.readLoop l) .readyRestore = true → l < 16 → s.loop? l = some r → r.sound = true →
      r.damaged = false → s.occ? r.openEnd = some o → (o.damaged = true ∨ o.sound = false) →
      exec (.readLoop l) s = .next ((s.checkOcc r.openEnd).refuse .damaged))

/-- R5, R19, R20, R53, R97, R103 to R105, R129, R132: the reads of stations, occupations, sites and loops, and what they
answer of a damaged one. The layouts are the model's (log 11), and so are an answer of more than 240 bytes (log 55) and the
late upset of an entry (log 2); what READ LOOP says of the open endpoint's station is log 40. -/
def Obligations.RecordReads : Prop :=
  Claims.ReadStation ∧ Claims.ReadStationRefusals ∧ Claims.ReadOutFails ∧ Claims.ReadOccupation ∧
    Claims.ReadOccupationMarks ∧ Claims.ReadSite ∧ Claims.ReadLoop ∧ Claims.ReadsOfDamaged

/-! ### Reduction arithmetic -/

/-- R73: a rounded quotient is the nearest integer to the exact one, and the one farther from zero where two are as
near. -/
def Claims.Rounding : Prop :=
  ∀ (a : Int) (b : Nat), 0 < b →
    2 * (roundDiv a b * b - a).natAbs ≤ b ∧ (2 * (roundDiv a b * b - a).natAbs = b → a.natAbs < (roundDiv a b * b).natAbs) ∧
    roundDiv (-a) b = -roundDiv a b

/-- R73, R78: the square root of the noise is the largest integer whose square does not exceed the radicand. -/
def Claims.SquareRoot : Prop := ∀ n : Nat, isqrt n * isqrt n ≤ n ∧ n < (isqrt n + 1) * (isqrt n + 1)

/-- R78: the noise: absent for fewer than two samples and for sums that no samples have, and else the square root of its
radicand, where that lies in its range (outside it the model's value is free, log 30). -/
def Claims.Noise : Prop :=
  ∀ (o : Occ) (c : Constants) (m : Sums) (tide : Option Int) (site rev : Nat), ∃ r,
    (reducedOcc o c m tide site rev).results = some r ∧
    let d : Int := m.n * m.sumX2 - m.sumX * m.sumX
    let k := isqrt (d.toNat * c.nums.scale.toNat ^ 2 / (m.n ^ 2 * (m.n - 1) * 4294967296))
    (m.n < 2 ∨ d < 0 → r.noise = none) ∧ (2 ≤ m.n → 0 ≤ d → k ≤ 134217727 → r.noise = some k)

/-- R79, R80, R84: the tilt correction from the two channels' mean squares, each accumulated, held or missing, with the
flags of a held and of a missing one. A correction outside its range is free (log 30). -/
def Claims.TiltCorrection : Prop :=
  ∀ (o : Occ) (c : Constants) (m : Sums) (tide : Option Int) (site rev : Nat), ∃ r,
    (reducedOcc o c m tide site rev).results = some r ∧
    let x := if 1 ≤ m.mx then roundDiv m.tiltX2 m.mx else match m.lastX with | some v => v * v | none => 0
    let y := if 1 ≤ m.my then roundDiv m.tiltY2 m.my else match m.lastY with | some v => v * v | none => 0
    let z := roundDiv (c.nums.gravity * (x + y)) 200000000
    (0 ≤ z → z ≤ 39360 → r.ctilt = z) ∧
    ((reducedOcc o c m tide site rev).flags.tiltHeld = true ↔
      m.mx = 0 ∧ m.lastX.isSome = true ∨ m.my = 0 ∧ m.lastY.isSome = true) ∧
    ((reducedOcc o c m tide site rev).flags.tiltMissing = true ↔ m.mx = 0 ∧ m.lastX = none ∨ m.my = 0 ∧ m.lastY = none)

/-- R81, R84: the temperature correction from the mean temperature and lag value, accumulated, held or missing, with their
flags. A correction outside its range is free (log 30). -/
def Claims.TemperatureCorrection : Prop :=
  ∀ (o : Occ) (c : Constants) (m : Sums) (tide : Option Int) (site rev : Nat), ∃ r,
    (reducedOcc o c m tide site rev).results = some r ∧
    let f := (reducedOcc o c m tide site rev).flags
    (∀ t l, (1 ≤ m.k ∧ t = roundDiv m.sumTemp m.k ∧ l = roundDiv m.sumLag m.k ∨
        m.k = 0 ∧ m.lastT = some t ∧ m.lastL = some l) →
      let z := -(roundDiv (c.nums.c1 * t + c.nums.c2 * l) 1000)
      (-3276700 ≤ z → z ≤ 3276700 → r.ctemp = z) ∧ f.tempHeld = decide (m.k = 0) ∧ f.tempMissing = false) ∧
    (m.k = 0 → (m.lastT = none ∨ m.lastL = none) → r.ctemp = 0 ∧ f.tempHeld = false ∧ f.tempMissing = true)

/-- R74, R77, R83, R84, R86: a reduction leaves SATURATED set where it held the raw value, V, or the final value of a drift
part at a bound of the stored range, and clear where it held none of them. -/
def Claims.SaturatedBy (o : Occ) (c : Constants) (m : Sums) (r : Results) : Prop :=
  r.raw ≠ c.nums.rangeOffset + roundDiv (m.sumX * c.nums.scale) (m.n * 65536) ∨
  r.v ≠ r.raw + r.ctilt + r.ctemp + r.ctide ∨
  ∃ d, o.drift = some d ∧ 2147483647 < (r.v + d.correction).natAbs

/-- R74, R76, R82, R84, R86: the tide correction and its flag, the stamps, SATURATED, which is set or cleared by this
reduction alone, and what else a reduction leaves of the record: its
reduction flags but those, and UNQUEUED, are cleared, its other flags and fields stay, PENDING becomes REDUCED, and a
drift part keeps all but its final value, which is the new V plus the stored correction, saturated. -/
def Claims.TideAndRecord : Prop :=
  ∀ (o : Occ) (c : Constants) (m : Sums) (tide : Option Int) (site rev : Nat), ∃ r,
    let q := reducedOcc o c m tide site rev
    q.results = some r ∧ r.ctide = (match tide with | some v => -v | none => 0) ∧ r.revision = c.revision ∧ r.site = site ∧
    r.siteRevision = rev ∧
    q = { o with state := if o.state = .pending then .reduced else o.state, results := some r, drift := q.drift, flags := q.flags } ∧
    q.drift = o.drift.map (fun d =>
      { d with final := max (-2147483647) (min 2147483647 (r.v + d.correction)) }) ∧
    q.flags = { o.flags with tiltHeld := q.flags.tiltHeld, tiltMissing := q.flags.tiltMissing, tempHeld := q.flags.tempHeld,
                             tempMissing := q.flags.tempMissing, noTide := decide (tide = none),
                             saturated := q.flags.saturated, unqueued := false } ∧
    (q.flags.saturated = true ↔ Claims.SaturatedBy o c m r)

/-- R73, R74, R76, R78 to R82, R84, R86: the roundings of the reduction, its stages but the first and the last, and when it
leaves SATURATED set. -/
def Obligations.RoundingAndRoots : Prop :=
  Claims.Rounding ∧ Claims.SquareRoot ∧ Claims.Noise ∧ Claims.TiltCorrection ∧ Claims.TemperatureCorrection ∧
    Claims.TideAndRecord

/-- R83, R74: the corrected value is the stored raw value plus the three corrections, saturated. R77, R74: the stored raw
value is the range offset plus the rounded mean count in gravity, saturated; for a count of 0, which no record out of its
window has (R77), the quotient by 0 is the model's 0 (log 49). R74, R84, R86: SATURATED is left set exactly where the raw
value, V or the final value of a drift part is held at a bound. -/
def Obligations.CorrectedValue : Prop :=
  ∀ (o : Occ) (c : Constants) (m : Sums) (tide : Option Int) (site rev : Nat), ∃ r,
    (reducedOcc o c m tide site rev).results = some r ∧
    r.v = max (-2147483647) (min 2147483647 (r.raw + r.ctilt + r.ctemp + r.ctide)) ∧
    r.raw = max (-2147483647) (min 2147483647 (c.nums.rangeOffset + roundDiv (m.sumX * c.nums.scale) (m.n * 65536))) ∧
    ((reducedOcc o c m tide site rev).flags.saturated = true ↔ Claims.SaturatedBy o c m r)

/-- R121: in mode DRIFT the closing member's drift correction is −ΔV within the stored range, so at one station its
final value is the open endpoint's. -/
def Claims.DriftAtClosing : Prop :=
  ∀ (d : DriftCalc) (vClose : Int), d.mode = .drift → d.tOpen < d.tClose → d.deltaV = vClose - d.vOpen →
    d.deltaV.natAbs ≤ 2147483647 → d.vOpen.natAbs ≤ 2147483647 →
    (driftPartOf d vClose d.tClose).correction = -d.deltaV ∧ (driftPartOf d vClose d.tClose).final = d.vOpen

/-! ### The engine -/

/-- R136 to R139: SUBMIT JOB: the codes and targets it takes, its refusals in their order, and the placing of the job:
taken by an IDLE engine, at its first step and with nothing written, else at the tail of the queue, with its position in the
answer. The bytes of the answer are
read from R181 by inference (log 11). -/
def Obligations.SubmitJob : Prop :=
  ∀ (s : State) (kind target tag : Nat), s.serves (.submitJob kind target tag) .ready = true → tag < 256 →
    (∀ k, (kind = 0 ∧ target < 512 ∧ k = .reduce target ∨ kind = 2 ∧ target < 8 ∧ k = .retide target ∨
        kind = 3 ∧ target = 0 ∧ k = .recalc) →
      (s.engine.state = .halted → exec (.submitJob kind target tag) s = .next (s.refuse .engineHalted)) ∧
      (s.engine.state ≠ .halted → 4 ≤ s.engine.queue.length →
        exec (.submitJob kind target tag) s = .next (s.refuse .queueFull)) ∧
      (s.engine.state = .working → s.engine.queue.length < 4 → exec (.submitJob kind target tag) s = .next
        ({ s with engine := { s.engine with queue := s.engine.queue ++ [Job.mk k .host tag] } }.respond
          .ok (u8 (s.engine.queue.length + 1)))) ∧
      (s.engine.state = .idle → s.engine.queue.length < 4 → exec (.submitJob kind target tag) s = .next
        ({ s with engine := { s.engine with
            state := .working, flight := some (Claims.begun { kind := k, origin := .host, tag := tag }) } }.respond
          .ok (u8 0)))) ∧
    (kind = 1 ∨ 4 ≤ kind ∨ kind = 0 ∧ 512 ≤ target ∨ kind = 2 ∧ 8 ≤ target ∨ kind = 3 ∧ target ≠ 0 →
      exec (.submitJob kind target tag) s = .next (s.refuse .badValue))

/-- R138: the engine works on a job that has not ended, and that stands at a place with no recomputation before it. -/
def Claims.At (s : State) (f : Flight) (p : Place) : Prop :=
  s.engine.state = .working ∧ s.engine.flight = some f ∧ f.place = p ∧ f.recomp = [] ∧ f.ending = none

/-- R141: the written marks with one more index, which counts once. -/
def Claims.noted (f : Flight) (i : Nat) : List Nat := if i ∈ f.written then f.written else i :: f.written

/-- R26: the entry of one way, where one is given, has its changed mark set, and no entry changes otherwise. -/
def Claims.Marks (s t : State) (way : Option Nat) : Prop :=
  ∀ v, t.station? v = (s.station? v).map fun e => if way = some v then { e with changed := true } else e

/-- R82, R98, R99: the tide answer for a station and an epoch. -/
def Claims.tideFor (s : State) (e : Station) (epoch : Nat) : Option Int :=
  if (s.site e.site).set then some (tideValue s.constituents.toList (s.site e.site) epoch) else none

/-- R85: the record as one reduction writes it; CorrectedValue and RoundingAndRoots give its figures. -/
def Claims.reduced (s : State) (o : Occ) (m : Reading) (e : Station) : Occ :=
  reducedOcc o s.constants m.sums (Claims.tideFor s e m.epoch) e.site (s.site e.site).revision

/-- R87: the CLOSED loops of which a record is an endpoint, the lower-numbered first. -/
def Claims.ToRecompute (s : State) (i : Nat) (ls : List Nat) : Prop :=
  ls.Pairwise (· < ·) ∧
    ∀ l, l ∈ ls ↔ ∃ r, s.loop? l = some r ∧ r.state = .closed ∧ (r.openEnd = i ∨ r.closing = some i)

/-- R85, R87, R142: the first step of a REDUCE on a PENDING, REDUCED or FINAL record of a usable station, on intact
memory: the record takes the results, its station is marked changed, the job marks the record written and has the
loops of R87 to recompute, and no other record changes. With none to recompute it has its result (log 17). A station
that is not usable ends the job UNUSABLE, and a FREE or window record ends it GONE; neither writes anything. -/
def Claims.ReduceRecord : Prop :=
  ∀ (s : State) (f : Flight) (i : Nat), s.intact = true → s.part ≠ .starting → s.loopsWf = true →
    Claims.At s f .reducing → f.job.kind = .reduce i →
    (∀ o m w e, s.occ? i = some o → (o.state = .pending ∨ o.state = .reduced ∨ o.state = .final) → o.reading = some m →
      s.usable o.station = some w → s.station? w = some e → ∃ t ls, exec .reduceStep s = .next t ∧
        t = { s with stations := t.stations, occs := t.occs, engine := t.engine } ∧
        t.occ? i = some (Claims.reduced s o m e) ∧ (∀ j, j ≠ i → t.occ? j = s.occ? j) ∧ Claims.Marks s t (some w) ∧
        Claims.ToRecompute s i ls ∧
        t.engine = { s.engine with flight := some { f with
          place := .reduced, written := Claims.noted f i, recomp := ls
          ending := if ls = [] then some (if f.unusable then .unusable else .done) else none } }) ∧
    (∀ o, s.occ? i = some o → (o.state = .pending ∨ o.state = .reduced ∨ o.state = .final) →
      s.usable o.station = none →
      exec .reduceStep s = .next { s with engine := { s.engine with flight := some { f with ending := some .unusable } } }) ∧
    ((s.occ? i = none ∨ ∃ o, s.occ? i = some o ∧ (o.state = .settling ∨ o.state = .collecting)) →
      exec .reduceStep s = .next { s with engine := { s.engine with flight := some { f with ending := some .gone } } })

/-- R142: a REDUCE of a record that carries the damaged mark does not read it, and ends UNUSABLE (log 17). -/
def Claims.ReduceDamaged : Prop :=
  ∀ (s : State) (f : Flight) (i : Nat) (o : Occ), Claims.At s f .reducing → f.job.kind = .reduce i →
    s.occ? i = some o → o.damaged = true →
    exec .reduceStep s = .next { s with engine := { s.engine with flight := some { f with ending := some .unusable } } }

/-- R123: the members that lose their drift part when a close is undone. -/
def Claims.Loses (s : State) (r : Loop) (i : Nat) : Prop :=
  i ∈ r.members ∧ ∃ o, s.occ? i = some o ∧ o.drift.isSome = true ∧ o.state ≠ .final

/-- R123: the undoing of the close of a loop, on intact memory: the members lose their drift parts and their usable
stations are marked changed; the loop returns to OPEN, or past its deadline to EXPIRED, which raises LOOP_EXPIRED; and
no other record, entry or loop changes. -/
def Claims.Undone (s t : State) (l : Nat) (r : Loop) : Prop :=
  (∀ i o, s.occ? i = some o →
    (Claims.Loses s r i → t.occ? i = some { o with drift := none, flags := { o.flags with driftHigh := false, noDrift := false } }) ∧
    (¬Claims.Loses s r i → t.occ? i = some o)) ∧
  (∀ i, s.occ? i = none → t.occ? i = none) ∧
  (∀ v e, s.station? v = some e →
    ((∃ i o, Claims.Loses s r i ∧ s.occ? i = some o ∧ s.usable o.station = some v) →
      t.station? v = some { e with changed := true }) ∧
    ((¬∃ i o, Claims.Loses s r i ∧ s.occ? i = some o ∧ s.usable o.station = some v) → t.station? v = some e)) ∧
  (∀ v, s.station? v = none → t.station? v = none) ∧
  t.loop? l = some { r with state := if s.epoch < r.deadline then .opened else .expired, closing := none, mode := none,
                            driftHigh := false } ∧
  (∀ k, k ≠ l → t.loop? k = s.loop? k) ∧
  t.events = (if s.epoch < r.deadline then s.events else { s.events with pending := s.events.pending ||| 0x0400 })

/-- R123, R141: a close that is undone ends its job UNUSABLE (log 17), with the undone members among those written. -/
def Claims.ClosedUnusable (s t : State) (f : Flight) (l : Nat) (r : Loop) : Prop :=
  t = { s with stations := t.stations, occs := t.occs, loops := t.loops, engine := t.engine, events := t.events } ∧
  Claims.Undone s t l r ∧
  ∃ is, t.engine = { s.engine with flight := some { f with written := is, ending := some .unusable } } ∧
    ∀ i, i ∈ is ↔ i ∈ f.written ∨ Claims.Loses s r i

/-- R118: the loop check of a CLOSE on a CLOSING loop with both endpoints there, on intact memory: the job goes on to
the inline reduction of the first PENDING endpoint, or to its ΔV step. It writes nothing else. -/
def Claims.CloseLoopCheck : Prop :=
  ∀ (s : State) (f : Flight) (l j : Nat) (r : Loop) (o p : Occ), s.intact = true → Claims.At s f .loopCheck →
    f.job.kind = .close l → s.loop? l = some r → r.state = .closing → r.closing = some j → s.occ? r.openEnd = some o →
    s.occ? j = some p →
    exec .closeLoopCheck s = .next { s with engine := { s.engine with flight := some { f with place :=
      if o.state = .pending then .inlineOpen else if p.state = .pending then .inlineClosing else .deltaV } } }

/-- R118, R85: the inline reduction of a PENDING endpoint, on intact memory: of a usable station it is reduced, starts
no recomputation, and the job goes on to the other endpoint, where that is PENDING, or to its ΔV step. Of a station
that is not usable it writes nothing, and the close is undone. -/
def Claims.InlineReduction : Prop :=
  ∀ (s : State) (f : Flight) (l i j : Nat) (r : Loop) (o p q : Occ) (next : Place), s.intact = true →
    s.part ≠ .starting → s.resetHeld = false → f.job.kind = .close l → s.loop? l = some r → r.state = .closing →
    r.closing = some j → s.occ? r.openEnd = some o → s.occ? j = some p → q.state = .pending →
    (Claims.At s f .inlineOpen ∧ i = r.openEnd ∧ q = o ∧
        next = (if r.openEnd ≠ j ∧ p.state = .pending then .inlineClosing else .deltaV) ∨
      Claims.At s f .inlineClosing ∧ i = j ∧ q = p ∧ next = .deltaV) →
    (∀ m w e, q.reading = some m → s.usable q.station = some w → s.station? w = some e → ∃ t,
      exec .inlineReduction s = .next t ∧ t = { s with stations := t.stations, occs := t.occs, engine := t.engine } ∧
      t.occ? i = some (Claims.reduced s q m e) ∧ (∀ k, k ≠ i → t.occ? k = s.occ? k) ∧ Claims.Marks s t (some w) ∧
      t.engine = { s.engine with flight := some { f with place := next, written := Claims.noted f i } }) ∧
    (s.usable q.station = none → ∃ t, exec .inlineReduction s = .next t ∧ Claims.ClosedUnusable s t f l r)

/-- R119: what the ΔV step needs of the two stations: in mode DRIFT at different ones, a reference value of each. -/
def Claims.Tied (s : State) (mode : CloseMode) (o p : Occ) : Prop :=
  mode = .drift → o.station ≠ p.station →
    (Claims.reference s o.station).isSome = true ∧ (Claims.reference s p.station).isSome = true

/-- R119, R120: the figures of a ΔV step: ΔV exact by the mode and the stations, the rate rounded, and the limit check,
which takes the rate as rounded (log 23). -/
def Claims.Figures (s : State) (mode : CloseMode) (o p : Occ) (ro rp : Results) (mo mp : Reading) (d : DriftCalc) : Prop :=
  d.mode = mode ∧ d.tOpen = mo.epoch ∧ d.tClose = mp.epoch ∧ d.vOpen = ro.v ∧ d.rOpen = Claims.reference s o.station ∧
  (mode = .noDrift → d.deltaV = 0 ∧ d.rate = 0) ∧
  (mode = .drift → o.station = p.station → d.deltaV = rp.v - ro.v) ∧
  (mode = .drift → o.station ≠ p.station → ∀ a b, Claims.reference s o.station = some a →
    Claims.reference s p.station = some b → d.deltaV = (rp.v - ro.v) - 10 * ((b : Int) - a)) ∧
  (mode = .drift → d.rate = roundDiv (d.deltaV * 3686400) (mp.epoch - mo.epoch)) ∧
  d.high = decide (s.constants.nums.driftLimit < (d.rate.natAbs : Int))

/-- R119, R120: the ΔV step of a CLOSE between two endpoints with results, on intact memory, in either mode: the figures
are fixed for the member steps, DRIFT_HIGH is set on the loop or cleared, and raised when it is set. Where a reference
is missing the close is undone. -/
def Claims.DeltaVStep : Prop :=
  ∀ (s : State) (f : Flight) (l j : Nat) (r : Loop) (o p : Occ) (ro rp : Results) (mo mp : Reading) (mode : CloseMode),
    s.intact = true → s.part ≠ .starting → s.resetHeld = false → Claims.At s f .deltaV → f.job.kind = .close l →
    s.loop? l = some r → r.state = .closing → r.closing = some j → r.mode = some mode → s.occ? r.openEnd = some o →
    s.occ? j = some p → o.results = some ro → p.results = some rp → o.reading = some mo → p.reading = some mp →
    mo.epoch < mp.epoch →
    (Claims.Tied s mode o p → ∃ t d, exec .deltaVStep s = .next t ∧
      t = { s with loops := t.loops, engine := t.engine, events := t.events } ∧ Claims.Figures s mode o p ro rp mo mp d ∧
      t.engine = { s.engine with flight := some { f with place := .member [], drift := some d } } ∧
      t.loop? l = some { r with driftHigh := d.high } ∧ (∀ k, k ≠ l → t.loop? k = s.loop? k) ∧
      t.events = (if d.high then { s.events with pending := s.events.pending ||| 0x0800 } else s.events)) ∧
    (¬Claims.Tied s mode o p → ∃ t, exec .deltaVStep s = .next t ∧ Claims.ClosedUnusable s t f l r)

/-- R121: the member step of a CLOSE takes the first member of the list that it has not walked, on intact memory. A
REDUCED member's drift part is written whole, with its flags, and a PENDING one's after its inline reduction; the
station is marked changed where it is usable, and the index is marked written. A PENDING member whose station is not
usable undoes the close. A FINAL member is left as it stands, and the job goes on. -/
def Claims.MemberStep : Prop :=
  ∀ (s : State) (f : Flight) (l : Nat) (walked : List Nat) (r : Loop) (d : DriftCalc), s.intact = true →
    s.part ≠ .starting → s.resetHeld = false → Claims.At s f (.member walked) → f.job.kind = .close l → f.drift = some d →
    s.loop? l = some r → r.state = .closing →
    ((∀ x ∈ r.members, x ∈ walked) → exec .memberStep s = .next
      { s with engine := { s.engine with flight := some { f with place := .completion } } }) ∧
    ∀ pre i post o, r.members = pre ++ i :: post → (∀ x ∈ pre, x ∈ walked) → i ∉ walked → s.occ? i = some o →
      let next : Place := if ∀ x ∈ post, x ∈ walked ++ [i] then .completion else .member (walked ++ [i])
      (∀ v m, o.state = .reduced → o.results = some v → o.reading = some m → ∃ t, exec .memberStep s = .next t ∧
        t = { s with stations := t.stations, occs := t.occs, engine := t.engine } ∧
        t.occ? i = some (driftedOcc o d v.v m.epoch) ∧ (∀ j, j ≠ i → t.occ? j = s.occ? j) ∧
        Claims.Marks s t (s.usable o.station) ∧
        t.engine = { s.engine with flight := some { f with place := next, written := Claims.noted f i } }) ∧
      (∀ m w e, o.state = .pending → o.reading = some m → s.usable o.station = some w → s.station? w = some e →
        ∃ t v, exec .memberStep s = .next t ∧
          t = { s with stations := t.stations, occs := t.occs, engine := t.engine } ∧
          (Claims.reduced s o m e).results = some v ∧
          t.occ? i = some (driftedOcc (Claims.reduced s o m e) d v.v m.epoch) ∧ (∀ j, j ≠ i → t.occ? j = s.occ? j) ∧
          Claims.Marks s t (some w) ∧
          t.engine = { s.engine with flight := some { f with place := next, written := Claims.noted f i } }) ∧
      (o.state = .pending → s.usable o.station = none →
        ∃ t, exec .memberStep s = .next t ∧ Claims.ClosedUnusable s t f l r) ∧
      (o.state = .final → exec .memberStep s = .next
        { s with engine := { s.engine with flight := some { f with place := next } } })

/-- R118, R119, R121, R123, in the model's reading (log 43): on intact memory the loop check, an inline reduction and the ΔV
step of a CLOSE that find either endpoint FREE undo the close, and a member step passes over a FREE member. -/
def Claims.CloseFindsFree : Prop :=
  ∀ (s : State) (f : Flight) (l : Nat) (r : Loop), s.intact = true → s.part ≠ .starting → s.resetHeld = false →
    f.job.kind = .close l → s.loop? l = some r → r.state = .closing →
    (∀ c, (c = .closeLoopCheck ∧ Claims.At s f .loopCheck ∨
        c = .inlineReduction ∧ (Claims.At s f .inlineOpen ∨ Claims.At s f .inlineClosing) ∨
        c = .deltaVStep ∧ Claims.At s f .deltaV) →
      (s.occ? r.openEnd = none ∨ ∃ j, r.closing = some j ∧ s.occ? j = none) →
      ∃ t, exec c s = .next t ∧ Claims.ClosedUnusable s t f l r) ∧
    ∀ walked d pre i post, Claims.At s f (.member walked) → f.drift = some d → r.members = pre ++ i :: post →
      (∀ x ∈ pre, x ∈ walked) → i ∉ walked → s.occ? i = none →
      exec .memberStep s = .next { s with engine := { s.engine with flight := some { f with
        place := if ∀ x ∈ post, x ∈ walked ++ [i] then .completion else .member (walked ++ [i]) } } }

/-- R121: the drift part that a member step writes, with its flags: the correction is the negated rounded quotient, held
within the stored range, the final value is V plus it, and SATURATED is set where either is held, and never cleared. -/
def Claims.DriftWritten : Prop :=
  ∀ (o : Occ) (d : DriftCalc) (v : Int) (t : Nat),
    let exact := if d.mode = .noDrift then 0 else -(roundDiv (d.deltaV * ((t : Int) - d.tOpen)) (d.tClose - d.tOpen))
    let c := max (-2147483647) (min 2147483647 exact)
    let v' := max (-2147483647) (min 2147483647 (v + c))
    driftedOcc o d v t = { o with
      drift := some { correction := c, final := v', vOpen := d.vOpen, rOpen := d.rOpen,
                      rate := max (-2147483647) (min 2147483647 d.rate) }
      flags := { o.flags with driftHigh := d.high, noDrift := decide (d.mode = .noDrift),
                              saturated := o.flags.saturated || decide (c ≠ exact) || decide (v' ≠ v + c) } }

/-- R118 to R121, R123: the steps of a CLOSE, with the undoing of one that cannot finish (log 17), and what they do at a
FREE endpoint or member (log 43). The division by an interval of 0 in DriftWritten is log 49. -/
def Obligations.CloseSteps : Prop :=
  Claims.CloseLoopCheck ∧ Claims.InlineReduction ∧ Claims.DeltaVStep ∧ Claims.MemberStep ∧ Claims.CloseFindsFree ∧
    Claims.DriftWritten ∧ Claims.DriftAtClosing

/-- R142, R147: the result of a job whose last step is taken (log 17, log 52); absent while steps are left. -/
def Claims.ended (f : Flight) : Option JobResult :=
  match f.place with
  | .reduced => some (if f.unusable then .unusable else .done)
  | .way k => if k < 256 then none else some (if f.unusable then .unusable else if f.written = [] then .nothing else .done)
  | .index k => if k < 512 then none else some (if f.unusable then .unusable else if f.written = [] then .nothing else .done)
  | _ => none

/-- R131: a job whose recomputation in progress ends, with the loops still to recompute. -/
def Claims.Popped (f g : Flight) (ls : List Nat) : Prop :=
  g = { f with recomp := ls, walk := none, drift := none, ending := if ls = [] then Claims.ended f else none }

/-- R131, R146: the ΔV step of a recomputation of a CLOSED loop on intact memory, in the mode it was closed in: the figures
are fixed, DRIFT_HIGH is set or cleared and raised when set. Where a reference is missing it writes nothing, the loop
keeps its drift, and the job will end UNUSABLE. A loop no longer CLOSED is not recomputed. -/
def Claims.RecomputeDeltaV : Prop :=
  ∀ (s : State) (f : Flight) (l : Nat) (ls : List Nat), s.intact = true → s.resetHeld = false →
    s.engine.state = .working → s.engine.flight = some f → f.recomp = l :: ls → f.ending = none → f.walk = none →
    ((s.loop? l = none ∨ ∃ r, s.loop? l = some r ∧ r.state ≠ .closed) → ∃ g, Claims.Popped f g ls ∧
      exec .recomputeDeltaVStep s = .next { s with engine := { s.engine with flight := some g } }) ∧
    ∀ r j o p ro rp mo mp mode, s.loop? l = some r → r.state = .closed → r.closing = some j → r.mode = some mode →
      r.members ≠ [] → s.occ? r.openEnd = some o → s.occ? j = some p → o.results = some ro → p.results = some rp →
      o.reading = some mo → p.reading = some mp → mo.epoch < mp.epoch →
      (Claims.Tied s mode o p → ∃ t d, exec .recomputeDeltaVStep s = .next t ∧
        t = { s with loops := t.loops, engine := t.engine, events := t.events } ∧ Claims.Figures s mode o p ro rp mo mp d ∧
        t.engine = { s.engine with flight := some { f with walk := some [], drift := some d } } ∧
        t.loop? l = some { r with driftHigh := d.high } ∧ (∀ k, k ≠ l → t.loop? k = s.loop? k) ∧
        t.events = (if d.high then { s.events with pending := s.events.pending ||| 0x0800 } else s.events)) ∧
      (¬Claims.Tied s mode o p → ∃ g, Claims.Popped { f with unusable := true } g ls ∧
        exec .recomputeDeltaVStep s = .next { s with engine := { s.engine with flight := some g } })

/-- R131: the member step of a recomputation, on intact memory: a REDUCED member's drift part is rewritten whole and its
usable station marked; a PENDING and a FINAL member are passed over. After the last member the loop stores ΔV and the
rate and stays CLOSED, and the job goes on or ends. -/
def Claims.RecomputeMember : Prop :=
  ∀ (s : State) (f : Flight) (l : Nat) (ls walked : List Nat) (r : Loop) (d : DriftCalc), s.intact = true →
    s.part ≠ .starting → s.engine.state = .working → s.engine.flight = some f → f.recomp = l :: ls → f.ending = none →
    f.walk = some walked → f.drift = some d → s.loop? l = some r → r.state = .closed →
    ∀ pre i post o, r.members = pre ++ i :: post → (∀ x ∈ pre, x ∈ walked) → i ∉ walked → s.occ? i = some o →
      ∃ t g is, exec .recomputeMemberStep s = .next t ∧
        t = { s with stations := t.stations, occs := t.occs, loops := t.loops, engine := t.engine } ∧
        t.engine = { s.engine with flight := some g } ∧ (∀ k, k ≠ i → t.occ? k = s.occ? k) ∧
        (∀ v m, o.state = .reduced → o.results = some v → o.reading = some m →
          t.occ? i = some (driftedOcc o d v.v m.epoch) ∧ Claims.Marks s t (s.usable o.station) ∧ is = Claims.noted f i) ∧
        (o.state = .pending ∨ o.state = .final → t.occs = s.occs ∧ t.stations = s.stations ∧ is = f.written) ∧
        (∀ k, k ≠ l → t.loop? k = s.loop? k) ∧
        (if ∀ x ∈ post, x ∈ walked ++ [i] then
          Claims.Popped { f with written := is } g ls ∧ t.loop? l = some { r with
            deltaV := some (max (-2147483647) (min 2147483647 d.deltaV)),
            rate := some (max (-2147483647) (min 2147483647 d.rate)) }
         else g = { f with walk := some (walked ++ [i]), written := is } ∧ t.loops = s.loops)

/-- R122, R139: the completion of a CLOSE: the loop becomes CLOSED with ΔV and the rate in their saturated form, the
last-job result is DONE with the count of the records written, and JOB_DONE is raised; the oldest waiting job is
taken at its first step, or the engine becomes IDLE. -/
def Claims.CloseCompletion : Prop :=
  ∀ (s : State) (f : Flight) (l : Nat) (r : Loop) (d : DriftCalc), s.engine.state = .working →
    s.engine.flight = some f → f.job.kind = .close l → f.place = .completion → f.ending = none → f.drift = some d →
    s.loop? l = some r → r.state = .closing → s.resetHeld = false → ∃ t, exec .closeCompletion s = .next t ∧
      t = { s with loops := t.loops, engine := t.engine, events := t.events } ∧
      t.loop? l = some { r with state := .closed, sound := true,
                                deltaV := some (max (-2147483647) (min 2147483647 d.deltaV)),
                                rate := some (max (-2147483647) (min 2147483647 d.rate)) } ∧
      (∀ k, k ≠ l → t.loop? k = s.loop? k) ∧
      t.engine.last = some { job := f.job, result := .done, count := f.written.length, epoch := s.epoch } ∧
      (s.engine.queue = [] → t.engine = { s.engine with state := .idle, flight := none, last := t.engine.last } ∧
        t.events = { s.events with pending := s.events.pending ||| 0x00A0 }) ∧
      (∀ j rest, s.engine.queue = j :: rest →
        t.engine = { s.engine with flight := some (Claims.begun j), queue := rest, last := t.engine.last } ∧
        t.events = { s.events with pending := s.events.pending ||| (if rest = [] then 0x0060 else 0x0020) })

/-- R138 to R141: the completion of a job that has its result, the events that it raises, and the oldest waiting job, taken
at its first step with no record marked written. -/
def Claims.JobCompletion : Prop :=
  ∀ (s : State) (f : Flight) (res : JobResult), s.engine.state = .working → s.engine.flight = some f →
    f.ending = some res → s.resetHeld = false → ∃ t, exec .jobCompletion s = .next t ∧
      t = { s with engine := t.engine, events := t.events } ∧
      t.engine.last = some { job := f.job, result := res, count := f.written.length, epoch := s.epoch } ∧
      (s.engine.queue = [] → t.engine = { s.engine with state := .idle, flight := none, last := t.engine.last } ∧
        t.events = { s.events with pending := s.events.pending ||| 0x00A0 }) ∧
      (∀ j rest, s.engine.queue = j :: rest →
        t.engine = { s.engine with flight := some (Claims.begun j), queue := rest, last := t.engine.last } ∧
        t.events = { s.events with pending := s.events.pending ||| (if rest = [] then 0x0060 else 0x0020) })

/-- R122, R139 to R141: the completions of jobs. Each completion is a row of its own (log 17). -/
def Obligations.Completions : Prop := Claims.CloseCompletion ∧ Claims.JobCompletion

/-- R131, in the model's reading (log 43): on intact memory the ΔV step of a recomputation that finds either endpoint FREE
ends it as one that could not be made, and its member step passes over a FREE member. -/
def Claims.RecomputationFindsFree : Prop :=
  ∀ (s : State) (f : Flight) (l : Nat) (ls : List Nat) (r : Loop), s.intact = true → s.engine.state = .working →
    s.engine.flight = some f → f.recomp = l :: ls → f.ending = none → s.loop? l = some r → r.state = .closed →
    (f.walk = none → (s.occ? r.openEnd = none ∨ ∃ j, r.closing = some j ∧ s.occ? j = none) →
      ∃ g, Claims.Popped { f with unusable := true } g ls ∧
        exec .recomputeDeltaVStep s = .next { s with engine := { s.engine with flight := some g } }) ∧
    ∀ walked d pre i post, f.walk = some walked → f.drift = some d → r.members = pre ++ i :: post →
      (∀ x ∈ pre, x ∈ walked) → i ∉ walked → s.occ? i = none → ∃ t g, exec .recomputeMemberStep s = .next t ∧
        t = { s with loops := t.loops, engine := { s.engine with flight := some g } } ∧
        (∀ k, k ≠ l → t.loop? k = s.loop? k) ∧
        (if ∀ x ∈ post, x ∈ walked ++ [i] then
          Claims.Popped f g ls ∧ t.loop? l = some { r with
            deltaV := some (max (-2147483647) (min 2147483647 d.deltaV)),
            rate := some (max (-2147483647) (min 2147483647 d.rate)) }
         else g = { f with walk := some (walked ++ [i]) } ∧ t.loops = s.loops)

/-- R131: the two steps of a recomputation, and what they do at a FREE endpoint or member (log 43). -/
def Obligations.Recomputation : Prop := Claims.RecomputeDeltaV ∧ Claims.RecomputeMember ∧ Claims.RecomputationFindsFree

/-- R143, R147: the walk of a RETIDE at the next way, with its result after the last one (log 17, log 52). -/
def Claims.toWay (f : Flight) (id : Nat) : Flight :=
  { f with place := .way (id + 1), ending := Claims.ended { f with place := .way (id + 1) } }

/-- R145, R147: the walk of a RECALC at the next index, with its result after the last one (log 17, log 52). -/
def Claims.toIndex (f : Flight) (i : Nat) : Flight :=
  { f with place := .index (i + 1), ending := Claims.ended { f with place := .index (i + 1) } }

/-- R143: the way step of a RETIDE: the walk goes on to the occupations of an ACTIVE way that is the only one of its
number and names the site. It passes over any other, and over a SUSPECT or damaged one unread. It writes nothing
else. -/
def Claims.RetideWay : Prop :=
  ∀ (s : State) (f : Flight) (k id : Nat), Claims.At s f (.way id) → f.job.kind = .retide k → id < 256 →
    ((s.station? id = none ∨ ∃ e, s.station? id = some e ∧ (e.state = .suspect ∨ e.damaged = true)) →
      exec .retideWayStep s = .next { s with engine := { s.engine with flight := some (Claims.toWay f id) } }) ∧
    ∀ e, s.intact = true → s.station? id = some e → e.state = .active →
      (s.matching e.number = [id] → e.site = k → exec .retideWayStep s = .next
        { s with engine := { s.engine with flight := some { f with place := .occupation id e.number [] } } }) ∧
      (s.matching e.number ≠ [id] ∨ e.site ≠ k →
        exec .retideWayStep s = .next { s with engine := { s.engine with flight := some (Claims.toWay f id) } })

/-- R103, R144: the results of a record are current for the station and its site. -/
def Claims.TideCurrent (s : State) (r : Results) (e : Station) : Prop :=
  r.site = e.site ∧ r.siteRevision = (s.site e.site).revision

/-- R144: the occupation step of a RETIDE on intact memory. A way that no longer qualifies, and one with every index
visited, is left for the next. Otherwise the first index not visited is: a record not REDUCED or FINAL, one that is
current, and one whose station is not usable, which R85 leaves unwritten, are passed over, and a tide-stale one is reduced,
with the loops of R87 to recompute. -/
def Claims.RetideOccupation : Prop :=
  ∀ (s : State) (f : Flight) (k id n : Nat) (vis : List Nat), s.intact = true → s.part ≠ .starting → s.loopsWf = true →
    Claims.At s f (.occupation id n vis) → f.job.kind = .retide k → id < 256 →
    ((s.station? id = none ∨ ∃ e, s.station? id = some e ∧
        (e.state ≠ .active ∨ e.number ≠ n ∨ e.site ≠ k ∨ ∀ i ∈ e.list, i ∈ vis)) →
      exec .retideOccupationStep s = .next { s with engine := { s.engine with flight := some (Claims.toWay f id) } }) ∧
    ∀ e pre i post, s.station? id = some e → e.state = .active → e.number = n → e.site = k → e.list = pre ++ i :: post →
      (∀ x ∈ pre, x ∈ vis) → i ∉ vis →
      let g : Flight := { f with place := .occupation id n (vis ++ [i]) }
      ((s.occ? i = none ∨ (∃ o, s.occ? i = some o ∧ o.state ≠ .reduced ∧ o.state ≠ .final) ∨
          (∃ o, s.occ? i = some o ∧ s.usable o.station = none) ∨
          ∃ o r w x, s.occ? i = some o ∧ o.results = some r ∧ s.usable o.station = some w ∧ s.station? w = some x ∧
            Claims.TideCurrent s r x) →
        exec .retideOccupationStep s = .next { s with engine := { s.engine with flight := some g } }) ∧
      ∀ o r m w x, s.occ? i = some o → (o.state = .reduced ∨ o.state = .final) → o.results = some r → o.reading = some m →
        s.usable o.station = some w → s.station? w = some x → ¬Claims.TideCurrent s r x → ∃ t ls,
          exec .retideOccupationStep s = .next t ∧
          t = { s with stations := t.stations, occs := t.occs, engine := t.engine } ∧
          t.occ? i = some (Claims.reduced s o m x) ∧ (∀ j, j ≠ i → t.occ? j = s.occ? j) ∧ Claims.Marks s t (some w) ∧
          Claims.ToRecompute s i ls ∧
          t.engine = { s.engine with flight := some { g with written := Claims.noted f i, recomp := ls } }

/-- R145: the step of a RECALC on intact memory: it passes over a FREE index, a record not REDUCED or FINAL, one whose
station is not usable, and one whose constants revision is current. A constants-stale one is reduced, with the loops
of R87 to recompute. -/
def Claims.RecalcStep : Prop :=
  ∀ (s : State) (f : Flight) (i : Nat), s.intact = true → s.part ≠ .starting → s.loopsWf = true →
    Claims.At s f (.index i) → f.job.kind = .recalc → i < 512 →
    ((s.occ? i = none ∨ (∃ o, s.occ? i = some o ∧ o.state ≠ .reduced ∧ o.state ≠ .final) ∨
        (∃ o, s.occ? i = some o ∧ s.usable o.station = none) ∨
        ∃ o r, s.occ? i = some o ∧ o.results = some r ∧ r.revision = s.constants.revision) →
      exec .recalcStep s = .next { s with engine := { s.engine with flight := some (Claims.toIndex f i) } }) ∧
    ∀ o r m w e, s.occ? i = some o → (o.state = .reduced ∨ o.state = .final) → o.results = some r → o.reading = some m →
      r.revision ≠ s.constants.revision → s.usable o.station = some w → s.station? w = some e → ∃ t ls,
        exec .recalcStep s = .next t ∧ t = { s with stations := t.stations, occs := t.occs, engine := t.engine } ∧
        t.occ? i = some (Claims.reduced s o m e) ∧ (∀ j, j ≠ i → t.occ? j = s.occ? j) ∧ Claims.Marks s t (some w) ∧
        Claims.ToRecompute s i ls ∧
        t.engine = { s.engine with flight := some { f with
          place := .index (i + 1), written := Claims.noted f i, recomp := ls
          ending := if ls = [] then Claims.ended { f with place := .index (i + 1), written := Claims.noted f i } else none } }

/-- R144, R145: a walk reads no record that carries the damaged mark: the occupation step of a RETIDE and the step of a
RECALC go on from it to the next index, and write nothing else, whatever else of the memory fails its check. R144 does not
name a way that carries the mark by its occupation step: that it is left for the next, as R143 passes over such a way, is
read by inference (DEDUCED, log 54). -/
def Claims.WalksPassMarked : Prop :=
  (∀ (s : State) (f : Flight) (k id n : Nat) (vis : List Nat) (e : Station), Claims.At s f (.occupation id n vis) →
    f.job.kind = .retide k → id < 256 → s.station? id = some e → e.sound = true →
    (e.damaged = true → exec .retideOccupationStep s = .next
      { s with engine := { s.engine with flight := some (Claims.toWay f id) } }) ∧
    ∀ pre i post o, e.damaged = false → e.state = .active → e.number = n → e.site = k → e.list = pre ++ i :: post →
      (∀ x ∈ pre, x ∈ vis) → i ∉ vis → s.occ? i = some o → o.damaged = true → exec .retideOccupationStep s = .next
        { s with engine := { s.engine with flight := some { f with place := .occupation id n (vis ++ [i]) } } }) ∧
  ∀ (s : State) (f : Flight) (i : Nat) (o : Occ), Claims.At s f (.index i) → f.job.kind = .recalc → i < 512 →
    s.occ? i = some o → o.damaged = true →
    exec .recalcStep s = .next { s with engine := { s.engine with flight := some (Claims.toIndex f i) } }

/-- R143 to R145, R147: the steps of RETIDE and of RECALC, with the walk's result after the last one (log 17, log 52). That a
way which carries the damaged mark by its occupation step is left for the next is log 54 (DEDUCED). -/
def Obligations.Walks : Prop :=
  Claims.RetideWay ∧ Claims.RetideOccupation ∧ Claims.RecalcStep ∧ Claims.WalksPassMarked

/-- R148: the engine HALTED at a record that failed its check: the job stays as the faulted one, the fault context holds
it and the record, and MEMORY_ERROR and ENGINE_HALTED are raised. -/
def Claims.Halted (s t : State) (f : Flight) (failed : RecordId) : Prop :=
  t.engine = { s.engine with state := .halted, flight := some f, fault := some { flight := f, failed := failed } } ∧
  t.events = { s.events with pending := s.events.pending ||| 0x2200 }

/-- R148: the engine halts at an occupation: that record gains its mark, and nothing else is written. -/
def Claims.HaltedAtOcc (s t : State) (f : Flight) (i : Nat) (o : Occ) : Prop :=
  t = { s with occs := t.occs, engine := t.engine, events := t.events } ∧ Claims.Halted s t f (.occupation i) ∧
  t.occ? i = some { o with damaged := true } ∧ ∀ j, j ≠ i → t.occ? j = s.occ? j

/-- R148: the engine halts at a loop. -/
def Claims.HaltedAtLoop (s t : State) (f : Flight) (l : Nat) (r : Loop) : Prop :=
  t = { s with loops := t.loops, engine := t.engine, events := t.events } ∧ Claims.Halted s t f (.loop l) ∧
  t.loop? l = some { r with damaged := true } ∧ ∀ k, k ≠ l → t.loop? k = s.loop? k

/-- R148: the engine halts at a station entry. -/
def Claims.HaltedAtStation (s t : State) (f : Flight) (v : Nat) (e : Station) : Prop :=
  t = { s with stations := t.stations, engine := t.engine, events := t.events } ∧ Claims.Halted s t f (.station v) ∧
  t.station? v = some { e with damaged := true } ∧ ∀ u, u ≠ v → t.station? u = s.station? u

/-- R148: the engine halts at a constituent entry. -/
def Claims.HaltedAtConstituent (s t : State) (f : Flight) (k : Nat) : Prop :=
  t = { s with constituents := t.constituents, engine := t.engine, events := t.events } ∧
  Claims.Halted s t f (.constituent k) ∧ t.constituent k = { s.constituent k with damaged := true } ∧
  ∀ j, j ≠ k → t.constituent j = s.constituent j

/-- R148: the engine halts at a site. -/
def Claims.HaltedAtSite (s t : State) (f : Flight) (k : Nat) : Prop :=
  t = { s with sites := t.sites, engine := t.engine, events := t.events } ∧ Claims.Halted s t f (.site k) ∧
  t.site k = { s.site k with damaged := true } ∧ ∀ j, j ≠ k → t.site j = s.site j

/-- R148: the engine halts at the constants. -/
def Claims.HaltedAtConstants (s t : State) (f : Flight) : Prop :=
  t = { s with constants := { s.constants with damaged := true }, engine := t.engine, events := t.events } ∧
  Claims.Halted s t f .constants

/-- R8: of the entries of a number's set, the first in way order to newly fail its check (DESIGN CHOICE, log 18). -/
def Claims.FirstToFail (s : State) (n v : Nat) (e : Station) : Prop :=
  v / 4 = n % 64 ∧ s.station? v = some e ∧ e.sound = false ∧ e.damaged = false ∧
  ∀ u x, u / 4 = v / 4 → u < v → s.station? u = some x → x.sound = true

/-- R99: the first constituent in number order to fail, newly or with its mark, of those that a SET site's tide answer reads
(DESIGN CHOICE, log 18). -/
def Claims.FirstConstituent (s : State) (site k : Nat) : Prop :=
  (s.site site).set = true ∧ k < 12 ∧ (∀ j, j < k → (s.constituent j).sound = true ∧ (s.constituent j).damaged = false) ∧
  ((s.constituent k).sound = false ∨ (s.constituent k).damaged = true)

/-- R85: the inputs of a reduction of a record of a station do not fail. -/
def Claims.InputsRead (s : State) (n : Nat) (e : Station) : Prop :=
  s.constants.sound = true ∧ s.constants.damaged = false ∧ Claims.SetReads s n ∧ (s.site e.site).sound = true ∧
  (s.site e.site).damaged = false ∧ ∀ k, ¬Claims.FirstConstituent s e.site k

/-- R111: of the loops, the lowest to newly fail its check (DESIGN CHOICE, log 18). -/
def Claims.FirstLoop (s : State) (l : Nat) (r : Loop) : Prop :=
  s.loop? l = some r ∧ r.sound = false ∧ r.damaged = false ∧ ∀ k x, k < l → s.loop? k = some x → x.sound = true

/-- R118, R121, R142: the engine's next step reduces a record: the step of a REDUCE, the inline reduction of a PENDING
endpoint, and the member step of a CLOSE at a PENDING member. -/
def Claims.AtReduction (s : State) (f : Flight) (i : Nat) (o : Occ) (c : Instr) : Prop :=
  c = .reduceStep ∧ Claims.At s f .reducing ∧ f.job.kind = .reduce i ∨
  o.state = .pending ∧ ∃ l r, f.job.kind = .close l ∧ s.loop? l = some r ∧ r.sound = true ∧ r.damaged = false ∧
    r.state = .closing ∧
    (c = .inlineReduction ∧ (∃ j, r.closing = some j ∧ (Claims.At s f .inlineOpen ∧ i = r.openEnd ∨
        Claims.At s f .inlineClosing ∧ i = j) ∧ ∀ k, (k = r.openEnd ∨ k = j) →
          ∃ q, s.occ? k = some q ∧ q.sound = true ∧ q.damaged = false) ∨
      c = .memberStep ∧ ∃ walked pre post, Claims.At s f (.member walked) ∧ f.drift.isSome = true ∧
        r.members = pre ++ i :: post ∧ (∀ x ∈ pre, x ∈ walked) ∧ i ∉ walked)

/-- R85, R87, R92, R99, R111, R148: what halts a reduction, of a REDUCE or inline in a CLOSE, in the order of its reads (log 18):
the record, the constants, the first entry of the station's set that newly fails, the site, and the first constituent that
fails; and, of a REDUCE, the lowest loop that newly fails where the table is read for the loops to recompute. Each gains its
mark, and nothing of the step is written. That a record in SETTLING or COLLECTING is read too, and halts the engine where
it fails its check, is the model's choice (log 58): R142 ends such a job GONE and does not say that the record is
read. -/
def Claims.ReductionHalts : Prop :=
  ∀ (s : State) (f : Flight) (i : Nat) (o : Occ) (c : Instr), Claims.AtReduction s f i o c → s.occ? i = some o →
    o.damaged = false → s.resetHeld = false →
    (o.sound = false → ∃ t, exec c s = .next t ∧ Claims.HaltedAtOcc s t f i o) ∧
    (o.sound = true → (o.state = .pending ∨ o.state = .reduced ∨ o.state = .final) →
      (s.constants.sound = false ∨ s.constants.damaged = true → ∃ t, exec c s = .next t ∧ Claims.HaltedAtConstants s t f) ∧
      (s.constants.sound = true → s.constants.damaged = false →
        (∀ v e, Claims.FirstToFail s o.station v e → ∃ t, exec c s = .next t ∧ Claims.HaltedAtStation s t f v e) ∧
        (Claims.SetReads s o.station → ∀ w e m, s.usable o.station = some w → s.station? w = some e → o.reading = some m →
          ((s.site e.site).sound = false ∨ (s.site e.site).damaged = true →
            ∃ t, exec c s = .next t ∧ Claims.HaltedAtSite s t f e.site) ∧
          ((s.site e.site).sound = true → (s.site e.site).damaged = false → ∀ k, Claims.FirstConstituent s e.site k →
            ∃ t, exec c s = .next t ∧ Claims.HaltedAtConstituent s t f k))) ∧
      (∀ w e m l r, c = .reduceStep → s.usable o.station = some w → s.station? w = some e → o.reading = some m →
        Claims.InputsRead s o.station e → s.loopsWf = true → Claims.FirstLoop s l r →
        ∃ t, exec c s = .next t ∧ Claims.HaltedAtLoop s t f l r))

/-- R118, R121, R125, R148: what halts the steps of a CLOSE, newly failed or marked before: its loop, an endpoint, the
open one first (log 18), the closing one too where the open one is FREE (log 43), and the member that a member step
takes. -/
def Claims.CloseHalts : Prop :=
  ∀ (s : State) (f : Flight) (l : Nat) (r : Loop) (c : Instr), f.job.kind = .close l → s.loop? l = some r →
    s.resetHeld = false →
    (c = .closeLoopCheck ∧ Claims.At s f .loopCheck ∨ c = .inlineReduction ∧ Claims.At s f .inlineOpen ∨
      c = .inlineReduction ∧ Claims.At s f .inlineClosing ∨ c = .deltaVStep ∧ Claims.At s f .deltaV ∨
      c = .memberStep ∧ ∃ walked, Claims.At s f (.member walked)) →
    (r.sound = false ∨ r.damaged = true → ∃ t, exec c s = .next t ∧ Claims.HaltedAtLoop s t f l r) ∧
    (r.sound = true → r.damaged = false → r.state = .closing →
      (∀ o, c ≠ .memberStep → s.occ? r.openEnd = some o → (o.sound = false ∨ o.damaged = true) →
        ∃ t, exec c s = .next t ∧ Claims.HaltedAtOcc s t f r.openEnd o) ∧
      (∀ j p, c ≠ .memberStep → r.closing = some j →
        (∀ o, s.occ? r.openEnd = some o → o.sound = true ∧ o.damaged = false) →
        s.occ? j = some p → (p.sound = false ∨ p.damaged = true) →
        ∃ t, exec c s = .next t ∧ Claims.HaltedAtOcc s t f j p) ∧
      (∀ walked d pre i post o, c = .memberStep → f.place = .member walked → f.drift = some d → r.members = pre ++ i :: post →
        (∀ x ∈ pre, x ∈ walked) → i ∉ walked → s.occ? i = some o → (o.sound = false ∨ o.damaged = true) →
        ∃ t, exec c s = .next t ∧ Claims.HaltedAtOcc s t f i o))

/-- R119, R120, R131: a ΔV step, of a CLOSE or of a recomputation, is the engine's next step on a loop. -/
def Claims.AtDeltaV (s : State) (f : Flight) (l : Nat) (r : Loop) (c : Instr) : Prop :=
  c = .deltaVStep ∧ Claims.At s f .deltaV ∧ f.job.kind = .close l ∧ r.state = .closing ∨
  c = .recomputeDeltaVStep ∧ s.engine.state = .working ∧ s.engine.flight = some f ∧ (∃ ls, f.recomp = l :: ls) ∧
    f.ending = none ∧ f.walk = none ∧ r.state = .closed

/-- R8, R119, R120, R148: what halts a ΔV step after its loop and its endpoints, in the order of its reads (DESIGN CHOICE,
log 18): the first entry of the open endpoint's set that newly fails; in mode DRIFT between two stations, the first one of
the closing member's set; and the constants, which are read only where the stations and the references that the step needs
are there. Where they are not, damaged constants do not halt it. -/
def Claims.DeltaVHalts : Prop :=
  ∀ (s : State) (f : Flight) (l j : Nat) (r : Loop) (o p : Occ) (mode : CloseMode) (c : Instr), s.resetHeld = false →
    Claims.AtDeltaV s f l r c → s.loop? l = some r → r.sound = true → r.damaged = false → r.closing = some j →
    r.mode = some mode → s.occ? r.openEnd = some o → o.sound = true → o.damaged = false → s.occ? j = some p →
    p.sound = true → p.damaged = false →
    let tied := mode = .drift ∧ o.station ≠ p.station
    (∀ n v e, (n = o.station ∨ tied ∧ n = p.station ∧ Claims.SetReads s o.station) → Claims.FirstToFail s n v e →
      ∃ t, exec c s = .next t ∧ Claims.HaltedAtStation s t f v e) ∧
    (Claims.SetReads s o.station → (tied → Claims.SetReads s p.station) →
      (s.constants.sound = false ∨ s.constants.damaged = true) →
      (Claims.Tied s mode o p → ∃ t, exec c s = .next t ∧ Claims.HaltedAtConstants s t f) ∧
      (¬Claims.Tied s mode o p → ∃ t, exec c s = .next t ∧ t.constants = s.constants ∧ t.engine.state = .working ∧
        t.engine.fault = s.engine.fault))

/-- R131, R148: what halts the steps of a recomputation: its loop, an endpoint at its ΔV step, the open one first (log 18)
and the closing one too where the open one is FREE (log 43), and the member that a member step takes. -/
def Claims.RecomputationHalts : Prop :=
  ∀ (s : State) (f : Flight) (l : Nat) (ls : List Nat) (r : Loop), s.engine.state = .working → s.engine.flight = some f →
    f.recomp = l :: ls → f.ending = none → s.loop? l = some r → s.resetHeld = false →
    (r.sound = false ∨ r.damaged = true →
      (f.walk = none → ∃ t, exec .recomputeDeltaVStep s = .next t ∧ Claims.HaltedAtLoop s t f l r) ∧
      (∀ walked, f.walk = some walked → ∃ t, exec .recomputeMemberStep s = .next t ∧ Claims.HaltedAtLoop s t f l r)) ∧
    (r.sound = true → r.damaged = false → r.state = .closed →
      (∀ o, f.walk = none → s.occ? r.openEnd = some o → (o.sound = false ∨ o.damaged = true) →
        ∃ t, exec .recomputeDeltaVStep s = .next t ∧ Claims.HaltedAtOcc s t f r.openEnd o) ∧
      (∀ j p, f.walk = none → r.closing = some j →
        (∀ o, s.occ? r.openEnd = some o → o.sound = true ∧ o.damaged = false) →
        s.occ? j = some p → (p.sound = false ∨ p.damaged = true) →
        ∃ t, exec .recomputeDeltaVStep s = .next t ∧ Claims.HaltedAtOcc s t f j p) ∧
      (∀ walked d pre i post o, f.walk = some walked → f.drift = some d → r.members = pre ++ i :: post →
        (∀ x ∈ pre, x ∈ walked) → i ∉ walked → s.occ? i = some o → (o.sound = false ∨ o.damaged = true) →
        ∃ t, exec .recomputeMemberStep s = .next t ∧ Claims.HaltedAtOcc s t f i o))

/-- R8, R121, R131, R148: what halts a member step, of a CLOSE or of a recomputation, at a REDUCED member that reads sound: the
first entry of its station's set that newly fails. -/
def Claims.MemberHalts : Prop :=
  ∀ (s : State) (f : Flight) (c : Instr) (l i v : Nat) (walked pre post : List Nat) (r : Loop) (o : Occ) (e : Station),
    s.resetHeld = false → s.loop? l = some r → r.sound = true → r.damaged = false → f.drift.isSome = true →
    (c = .memberStep ∧ Claims.At s f (.member walked) ∧ f.job.kind = .close l ∧ r.state = .closing ∨
      c = .recomputeMemberStep ∧ s.engine.state = .working ∧ s.engine.flight = some f ∧ (∃ ls, f.recomp = l :: ls) ∧
        f.ending = none ∧ f.walk = some walked ∧ r.state = .closed) →
    r.members = pre ++ i :: post → (∀ x ∈ pre, x ∈ walked) → i ∉ walked → s.occ? i = some o → o.sound = true →
    o.damaged = false → o.state = .reduced → Claims.FirstToFail s o.station v e →
    ∃ t, exec c s = .next t ∧ Claims.HaltedAtStation s t f v e

/-- R143: what halts the steps of a RETIDE at a way: an ACTIVE entry that newly fails, read before its number is looked up
(log 18), the first entry of the number's set that does so in the lookup, and the entry that the occupation step reads
again. -/
def Claims.WayHalts : Prop :=
  ∀ (s : State) (f : Flight) (k id : Nat) (e : Station), f.job.kind = .retide k → id < 256 → s.resetHeld = false →
    s.station? id = some e → e.damaged = false →
    (Claims.At s f (.way id) → e.state = .active →
      (e.sound = false → ∃ t, exec .retideWayStep s = .next t ∧ Claims.HaltedAtStation s t f id e) ∧
      ∀ v x, e.sound = true → Claims.FirstToFail s e.number v x →
        ∃ t, exec .retideWayStep s = .next t ∧ Claims.HaltedAtStation s t f v x) ∧
    ∀ n vis, Claims.At s f (.occupation id n vis) → e.sound = false →
      ∃ t, exec .retideOccupationStep s = .next t ∧ Claims.HaltedAtStation s t f id e

/-- R144, R145: the engine's next step visits a record, with the job as it stands at that visit: the index that a RETIDE visits
counts as visited (log 48). -/
def Claims.Visits (s : State) (f g : Flight) (i : Nat) (c : Instr) : Prop :=
  c = .recalcStep ∧ Claims.At s f (.index i) ∧ f.job.kind = .recalc ∧ i < 512 ∧ g = f ∨
  c = .retideOccupationStep ∧ ∃ k id n vis x pre post, Claims.At s f (.occupation id n vis) ∧ f.job.kind = .retide k ∧
    s.station? id = some x ∧ x.sound = true ∧ x.damaged = false ∧ x.state = .active ∧ x.number = n ∧ x.site = k ∧
    x.list = pre ++ i :: post ∧ (∀ y ∈ pre, y ∈ vis) ∧ i ∉ vis ∧ g = { f with place := .occupation id n (vis ++ [i]) }

/-- R32, R87, R105, R111, R144, R145, R148: what halts a visit of RETIDE or of RECALC: the record, which a RECALC reads where it
is REDUCED or FINAL; then, of such a record, the first entry of its station's set that newly fails, the site, and the
constants, whatever the marks would then say (log 54); and, of one that the walk reduces again, the first constituent that
fails, and the lowest loop that newly fails where the table is read for the loops to recompute (log 18). -/
def Claims.VisitHalts : Prop :=
  ∀ (s : State) (c : Instr) (f g : Flight) (i : Nat) (o : Occ), s.resetHeld = false → Claims.Visits s f g i c →
    s.occ? i = some o → o.damaged = false →
    let ready := (o.state = .reduced ∨ o.state = .final) ∧ o.results.isSome = true
    (o.sound = false → (c = .recalcStep → ready) → ∃ t, exec c s = .next t ∧ Claims.HaltedAtOcc s t g i o) ∧
    (o.sound = true → ready →
      (∀ v e, Claims.FirstToFail s o.station v e → ∃ t, exec c s = .next t ∧ Claims.HaltedAtStation s t g v e) ∧
      ∀ w e, Claims.SetReads s o.station → s.usable o.station = some w → s.station? w = some e →
        ((s.site e.site).sound = false ∨ (s.site e.site).damaged = true →
          ∃ t, exec c s = .next t ∧ Claims.HaltedAtSite s t g e.site) ∧
        ((s.site e.site).sound = true → (s.site e.site).damaged = false →
          (s.constants.sound = false ∨ s.constants.damaged = true → ∃ t, exec c s = .next t ∧ Claims.HaltedAtConstants s t g) ∧
          (s.constants.sound = true → s.constants.damaged = false → ∀ r m, o.results = some r → o.reading = some m →
            (c = .retideOccupationStep ∧ ¬Claims.TideCurrent s r e ∨
              c = .recalcStep ∧ r.revision ≠ s.constants.revision) →
            (∀ k, Claims.FirstConstituent s e.site k → ∃ t, exec c s = .next t ∧ Claims.HaltedAtConstituent s t g k) ∧
            ∀ l x, (∀ k, ¬Claims.FirstConstituent s e.site k) → s.loopsWf = true → Claims.FirstLoop s l x →
              ∃ t, exec c s = .next t ∧ Claims.HaltedAtLoop s t g l x)))

/-- R8, R32, R85 to R87, R92, R99, R105, R111, R118 to R121, R125, R131, R142 to R145, R148: the step of a REDUCE, and the
records that halt the engine.
The halt at a target in SETTLING or COLLECTING is the model's choice (log 58), and so is the order of the reads of a ΔV step
(log 18). A FREE open endpoint is log 43, the reads of a visit are log 54, and that the index at which a RETIDE halts counts
as visited is log 48. -/
def Obligations.ReduceStep : Prop :=
  Claims.ReduceRecord ∧ Claims.ReduceDamaged ∧ Claims.ReductionHalts ∧ Claims.CloseHalts ∧ Claims.DeltaVHalts ∧
    Claims.RecomputationHalts ∧ Claims.MemberHalts ∧ Claims.WayHalts ∧ Claims.VisitHalts

/-- R150, R151: RESTART ENGINE: refused unless the engine is HALTED, and an action byte of neither command is refused
BAD_VALUE first (log 32). RETRY runs the faulted job again from its first step with its marks cleared, and for a walk
that halted in the recomputation of a loop still CLOSED, by its stored state whether it is damaged or not, that recomputation
first, and no other that was owed (DESIGN CHOICE, log 36). DISCARD of a job that is no CLOSE drops it, and the engine takes
the oldest waiting job, at its first step, or becomes IDLE; it raises nothing and leaves the last-job result. The answers'
layouts are the model's (log 11). -/
def Claims.RestartCommands : Prop :=
  ∀ s : State,
    (s.engine.state ≠ .halted →
      (s.serves (.restartEngineRetry 0) .ready = true →
        exec (.restartEngineRetry 0) s = .next (s.refuse .engineState)) ∧
      (s.serves .restartEngineDiscard .ready = true →
        exec .restartEngineDiscard s = .next (s.refuse .engineState))) ∧
    (∀ f, s.engine.state = .halted → s.engine.flight = some f →
      (s.serves (.restartEngineRetry 0) .ready = true → ∃ ls, exec (.restartEngineRetry 0) s = .next
        ({ s with engine := { s.engine with
            state := .working
            flight := some { Claims.begun f.job with recomp := ls }
            fault := none } }.respond .ok (jobBytes f.job)) ∧
        (f.recomp = [] ∨ (∃ i, f.job.kind = .reduce i) ∨ (∃ l, f.job.kind = .close l) → ls = []) ∧
        (∀ l rest, f.recomp = l :: rest → (∀ i, f.job.kind ≠ .reduce i) → (∀ k, f.job.kind ≠ .close k) →
          (∀ r, s.loop? l = some r → r.state = .closed → ls = [l]) ∧
          ((s.loop? l = none ∨ ∃ r, s.loop? l = some r ∧ r.state ≠ .closed) → ls = []))) ∧
      (s.serves .restartEngineDiscard .ready = true → (∀ l, f.job.kind ≠ .close l) →
        (s.engine.queue = [] → exec .restartEngineDiscard s = .next
          ({ s with engine := { s.engine with state := .idle, flight := none, fault := none } }.respond .ok [0])) ∧
        (∀ j rest, s.engine.queue = j :: rest → exec .restartEngineDiscard s = .next
          ({ s with engine := { s.engine with
              state := .working, flight := some (Claims.begun j), queue := rest, fault := none } }.respond
            .ok (1 :: jobBytes j))))) ∧
    ∀ a, a ≠ 0 → s.serves (.restartEngineRetry a) .ready = true →
      exec (.restartEngineRetry a) s = .next (s.refuse .badValue)

/-- R123, R151: RESTART ENGINE with DISCARD of a CLOSE whose loop is CLOSING, on intact memory: the close is undone, and
the engine takes the oldest waiting job or becomes IDLE. The answer's layout is the model's (log 11). -/
def Claims.DiscardClose : Prop :=
  ∀ (s : State) (f : Flight) (l : Nat) (r : Loop), s.serves .restartEngineDiscard .ready = true → s.intact = true →
    s.engine.state = .halted → s.engine.flight = some f → f.job.kind = .close l → s.loop? l = some r → r.state = .closing →
    ∃ t, exec .restartEngineDiscard s = .next t ∧
      t = { s with stations := t.stations, occs := t.occs, loops := t.loops, engine := t.engine, events := t.events,
                   link := t.link } ∧
      Claims.Undone s t l r ∧
      (s.engine.queue = [] → t.link = (s.respond .ok [0]).link ∧
        t.engine = { s.engine with state := .idle, flight := none, fault := none }) ∧
      ∀ j rest, s.engine.queue = j :: rest → t.link = (s.respond .ok (1 :: jobBytes j)).link ∧
        t.engine = { s.engine with state := .working, flight := some (Claims.begun j), queue := rest, fault := none }

/-- R151, step 2: the same where the loop carries the damaged mark and every record and entry is sound: the drift part
goes from the records that are not FINAL and whose member-of field names the loop, the usable station of each is marked
changed, and the loop stays as it stands. The engine takes the oldest waiting job or becomes IDLE. -/
def Claims.DiscardDamagedClose : Prop :=
  ∀ (s : State) (f : Flight) (l : Nat) (r : Loop), s.serves .restartEngineDiscard .ready = true →
    s.engine.state = .halted → s.engine.flight = some f → f.job.kind = .close l → s.loop? l = some r → r.damaged = true →
    (∀ q ∈ s.occs, q.2.sound = true ∧ q.2.damaged = false) → (∀ q ∈ s.stations, q.2.sound = true ∧ q.2.damaged = false) →
    s.loopsWf = true → s.recordsWf = true → ∃ t, exec .restartEngineDiscard s = .next t ∧
      t = { s with stations := t.stations, occs := t.occs, loops := t.loops, engine := t.engine, events := t.events,
                   link := t.link } ∧
      (∀ k, t.loop? k = s.loop? k) ∧ t.events = { s.events with pending := s.events.pending ||| 0x2000 } ∧
      (∀ i, s.occ? i = none → t.occ? i = none) ∧
      (let loses (o : Occ) := o.memberOf = some l ∧ o.drift.isSome = true ∧ o.state ≠ .final
       (∀ i o, s.occ? i = some o → t.occ? i = some
         (if loses o then { o with drift := none, flags := { o.flags with driftHigh := false, noDrift := false } } else o)) ∧
       (∀ v e, s.station? v = some e →
         let touched := ∃ i o, s.occ? i = some o ∧ loses o ∧ s.usable o.station = some v
         (touched → t.station? v = some { e with changed := true }) ∧ (¬touched → t.station? v = some e)) ∧
       ∀ v, s.station? v = none → t.station? v = none) ∧
      (s.engine.queue = [] → t.link = (s.respond .ok [0]).link ∧
        t.engine = { s.engine with state := .idle, flight := none, fault := none }) ∧
      ∀ j rest, s.engine.queue = j :: rest → t.link = (s.respond .ok (1 :: jobBytes j)).link ∧
        t.engine = { s.engine with state := .working, flight := some (Claims.begun j), queue := rest, fault := none }

/-- R123, R150, R151: RESTART ENGINE, in both its actions. What a RETRY recomputes first is log 36. -/
def Obligations.RestartEngine : Prop := Claims.RestartCommands ∧ Claims.DiscardClose ∧ Claims.DiscardDamagedClose

/-! ### Reporting -/

/-- R92, R105, R160: the derivation of the stale marks reads a site: a record of the export that is neither damaged nor
failing holds results. -/
def Claims.Derives (s : State) (e : Station) : Prop :=
  ∃ i ∈ e.list, ∃ o, s.occ? i = some o ∧ o.damaged = false ∧ o.sound = true ∧ o.results.isSome = true

/-- R6, R92, R156, R157, R159, R160, R162: EXPORT STATION of a lone way, ACTIVE or SUSPECT, of sound entries and constants,
whose listed records are all there. The snapshot holds the station as it stood and a part for each record: of one that
carries the damaged mark or gains it in this read, its index and the state DAMAGED; of any other, a copy with its network
value, its grade and its stale marks, which a record without results has not. A listed record that fails its check gains its
mark; the station's site is read where a record has results, and one that carries the mark or gains it makes every such part
tide-stale; MEMORY_ERROR is raised for either, and the export goes on. The changed mark is cleared, the way touched, and no
other entry, record, site or order changes. The bytes of the answer are read from R181 by inference (log 11). -/
def Claims.ExportStation : Prop :=
  ∀ (s : State) (n w : Nat) (e : Station), s.serves (.exportStation n) .ready = true → 1 ≤ n → n ≤ 65534 →
    s.matching n = [w] → s.station? w = some e → (∀ q ∈ s.stations, q.2.sound = true ∧ q.2.damaged = false) →
    s.late = none → s.constants.sound = true → s.constants.damaged = false → (∀ i ∈ e.list, (s.occ? i).isSome = true) →
    let badSite := (s.site e.site).damaged = true ∨ (s.site e.site).sound = false
    ∃ t p, exec (.exportStation n) s = .next t ∧
      t = { s with stations := t.stations, recency := t.recency, occs := t.occs, sites := t.sites, events := t.events,
                   snapshot := some p, link := t.link } ∧
      t.link = (s.respond .ok (u16 e.number ++ u8 e.list.length)).link ∧
      p.station = { number := e.number, way := w, role := e.role, pinned := e.pinned, site := e.site,
                    reference := e.reference, tag := e.tag, indices := e.list, changed := e.changed, epoch := s.epoch } ∧
      p.parts.length = e.list.length ∧
      (∀ (k i : Nat) (o : Occ), e.list[k]? = some i → s.occ? i = some o →
        (o.damaged = true ∨ o.sound = false → p.parts[k]? = some (.damaged i)) ∧
        (o.damaged = false → o.sound = true → ∃ tide consts, p.parts[k]? = some
          (OccPart.copy i o (networkOf s.constants.mode o) (gradeOf s.constants.nums o) tide consts) ∧
          (o.results = none → tide = false ∧ consts = false) ∧
          ∀ r, o.results = some r →
            (tide = true ↔ badSite ∨ r.site ≠ e.site ∨ r.siteRevision ≠ (s.site e.site).revision) ∧
            (consts = true ↔ r.revision ≠ s.constants.revision))) ∧
      (∀ i, t.occ? i = (s.occ? i).map fun o =>
        if i ∈ e.list ∧ o.sound = false then { o with damaged := true } else o) ∧
      (Claims.Derives s e → badSite → t.site e.site = { s.site e.site with damaged := true }) ∧
      (¬(Claims.Derives s e ∧ badSite) → t.site e.site = s.site e.site) ∧ (∀ k, k ≠ e.site → t.site k = s.site k) ∧
      ((∃ i ∈ e.list, ∃ o, s.occ? i = some o ∧ o.sound = false) ∨ Claims.Derives s e ∧ badSite →
        t.events = { s.events with pending := s.events.pending ||| 0x2000 }) ∧
      (¬((∃ i ∈ e.list, ∃ o, s.occ? i = some o ∧ o.sound = false) ∨ Claims.Derives s e ∧ badSite) →
        t.events = s.events) ∧
      t.station? w = some { Claims.looked e with changed := false } ∧ (∀ v, v ≠ w → t.station? v = s.station? v) ∧
      Claims.Touched s t w

/-- R161: NEXT CHANGED on intact memory answers the smallest number, above the key where one is given, of an ACTIVE
changed entry, or that there is none; it changes nothing but the link. A key out of range is refused BAD_KEY. The bytes of the answer are read from R181 by
inference (log 11). -/
def Claims.NextChanged : Prop :=
  ∀ (s : State) (key : Option Nat), s.serves (.nextChanged key) .readyRestore = true →
    (∀ n, key = some n → (n = 0 ∨ 65535 ≤ n) → exec (.nextChanged key) s = .next (s.refuse .badKey)) ∧
    (s.intact = true → (∀ n, key = some n → 1 ≤ n ∧ n ≤ 65534) →
    let hit (w : Nat) (e : Station) : Prop :=
      (w, e) ∈ s.stations ∧ e.state = .active ∧ e.changed = true ∧ ∀ n, key = some n → n < e.number
    ((∀ w e, ¬hit w e) → exec (.nextChanged key) s = .next (s.respond .ok [0])) ∧
    (∀ w e, hit w e → (∀ v f, hit v f → e.number ≤ f.number) →
      exec (.nextChanged key) s = .next (s.respond .ok (1 :: u16 e.number))))

/-- R181: the unsigned number that `k` bytes from a place spell, most significant first. -/
def Claims.field (b : List Byte) (place k : Nat) : Nat :=
  ((b.drop place).take k).foldl (fun a x => 256 * a + x.toNat) 0

/-- R181: the two's complement number that `k` bytes from a place spell. -/
def Claims.signed (b : List Byte) (place k : Nat) : Int :=
  let n := Claims.field b place k
  if n < 2 ^ (8 * k - 1) then n else (n : Int) - 2 ^ (8 * k)

/-- R165: the bytes of the station part, read back field by field at the places of its table, for a station whose fields
are in their ranges. -/
def Claims.StationPartLayout : Prop :=
  ∀ p : StationPart, p.number < 65536 → p.way < 256 → p.site < 8 → (∀ v, p.reference = some v → v < 4294967296) →
    p.indices.length ≤ 8 → (∀ i ∈ p.indices, i < 512) → p.epoch < 281474976710656 →
    let b := stationPartBytes p
    b.length = 38 ∧ Claims.field b 0 2 = p.number ∧ Claims.field b 2 1 = p.way / 4 ∧ Claims.field b 3 1 = p.way % 4 ∧
    (∀ k, k < 8 → (Claims.field b 4 1).testBit k =
      ([decide (p.role = .base), p.pinned, p.reference.isSome, p.changed][k]?).getD false) ∧
    Claims.field b 5 1 = p.site ∧ Claims.field b 6 4 = p.reference.getD 0 ∧ Claims.field b 10 4 = p.tag.toNat ∧
    Claims.field b 14 1 = p.indices.length ∧
    (∀ k, k < 8 → Claims.field b (15 + 2 * k) 2 = (p.indices[k]?).getD 0xFFFF) ∧
    Claims.field b 31 6 = p.epoch ∧ Claims.field b 37 1 = 1

/-- R166: the flags of a record at their bits. -/
def Claims.flagBits (f : Flags) : List Bool :=
  [f.short, f.clamped, f.sensorLost, f.tiltLimit, f.tiltRange, f.tiltHeld, f.tiltMissing, f.tempHeld, f.tempMissing,
   f.overload, f.breaks, false, f.constantsChanged, f.unqueued, f.saturated, f.noTide, f.driftHigh, f.noDrift]

/-- R166: the code of a state in an occupation part. -/
def Claims.stateCode : OccState → Nat
  | .settling => 1
  | .collecting => 2
  | .pending => 3
  | .reduced => 4
  | .final => 5

/-- R166: the code of a grade in an occupation part. -/
def Claims.gradeCode : Grade → Nat
  | .none => 0
  | .a => 1
  | .b => 2
  | .c => 3
  | .reject => 4

/-- R166: the bytes of an occupation part, read back field by field at the places of its table, for a record whose fields
are in their ranges: the part of a record out of its window, that of the window record, and that of a damaged one. -/
def Claims.RecordPartLayout : Prop :=
  (∀ (i : Nat) (o : Occ) (network : Option Nat) (grade : Grade) (tide consts : Bool), i < 512 →
    (∀ l, (o.memberOf = some l ∨ o.opens = some l) → l < 16) → o.settle ≤ 300 → o.duration ≤ 600 →
    (∀ m, o.reading = some m → m.epoch < 281474976710656 ∧ m.openRevision < 65536 ∧ m.sums.n < 4294967296 ∧
      m.sums.breaks < 65536 ∧ m.sums.overload < 65536 ∧ m.sums.clamped < 65536) →
    (∀ r, o.results = some r → resultsInRange r = true) → (∀ d, o.drift = some d → driftInRange d = true) →
    (∀ v, network = some v → v < 4294967296) →
    let b := occPartBytes (.copy i o network grade tide consts)
    b.length = 81 ∧ Claims.field b 0 2 = i ∧ Claims.field b 2 1 = Claims.stateCode o.state ∧
    Claims.field b 5 1 = o.memberOf.getD 0xFF ∧ Claims.field b 6 1 = o.opens.getD 0xFF ∧
    Claims.field b 77 2 = o.duration ∧ Claims.field b 79 2 = o.settle ∧
    ((o.state = .settling ∨ o.state = .collecting) → Claims.field b 3 2 = 0 ∧ Claims.field b 7 70 = 0) ∧
    (o.state ≠ .settling → o.state ≠ .collecting →
      (∀ k, k < 8 → (Claims.field b 3 1).testBit k =
        ([o.reading.isSome, o.results.isSome, (o.results.bind (·.noise)).isSome, o.drift.isSome,
          (o.drift.bind (·.rOpen)).isSome, network.isSome, tide, consts][k]?).getD false) ∧
      Claims.field b 4 1 = Claims.gradeCode grade ∧
      (∀ k, k < 24 → (Claims.field b 7 3).testBit k = ((Claims.flagBits o.flags)[k]?).getD false) ∧
      (∀ m, o.reading = some m → Claims.field b 10 6 = m.epoch ∧ Claims.field b 16 4 = m.sums.n ∧
        Claims.field b 20 2 = m.sums.breaks ∧ Claims.field b 22 2 = m.sums.overload ∧ Claims.field b 24 2 = m.sums.clamped ∧
        Claims.field b 75 2 = m.openRevision) ∧
      (o.reading = none → Claims.field b 10 16 = 0 ∧ Claims.field b 75 2 = 0) ∧
      (∀ r, o.results = some r → Claims.signed b 26 4 = r.raw ∧ Claims.field b 30 4 = r.noise.getD 0 ∧
        (Claims.field b 34 2 : Int) = r.ctilt ∧ Claims.signed b 36 4 = r.ctemp ∧ Claims.signed b 40 2 = r.ctide ∧
        Claims.signed b 42 4 = r.v ∧ Claims.field b 46 2 = r.revision ∧ Claims.field b 48 1 = r.site ∧
        Claims.field b 49 2 = r.siteRevision) ∧
      (o.results = none → Claims.field b 26 25 = 0) ∧
      (∀ d, o.drift = some d → Claims.signed b 51 4 = d.correction ∧ Claims.signed b 55 4 = d.final ∧
        Claims.signed b 59 4 = d.vOpen ∧ Claims.field b 63 4 = d.rOpen.getD 0 ∧ Claims.signed b 67 4 = d.rate) ∧
      (o.drift = none → Claims.field b 51 20 = 0) ∧ Claims.field b 71 4 = network.getD 0)) ∧
  ∀ i, i < 512 →
    let b := occPartBytes (.damaged i)
    b.length = 81 ∧ Claims.field b 0 2 = i ∧ Claims.field b 2 1 = 0xFE ∧ Claims.field b 3 2 = 0 ∧
    Claims.field b 5 2 = 0xFFFF ∧ Claims.field b 7 74 = 0

/-- R164 to R166: READ EXPORT PART answers part 0 with the station and part k with the k-th record, in the layouts of
StationPartLayout and RecordPartLayout, the latter always of 81 bytes, and refuses a number that names no part; it
changes nothing but the link. -/
def Claims.ReadExportPart : Prop :=
  (∀ (s : State) (p : Snapshot), s.snapshot = some p →
    (s.serves (.readExportPart 0) .readyRestore = true →
      exec (.readExportPart 0) s = .next (s.respond .ok (stationPartBytes p.station))) ∧
    ∀ k, s.serves (.readExportPart (k + 1)) .readyRestore = true →
      (∀ q, p.parts[k]? = some q → exec (.readExportPart (k + 1)) s = .next (s.respond .ok (occPartBytes q))) ∧
      (p.parts.length ≤ k → exec (.readExportPart (k + 1)) s = .next (s.refuse .badValue))) ∧
  (∀ (s : State) (k : Nat), s.snapshot = none → s.serves (.readExportPart k) .readyRestore = true →
    exec (.readExportPart k) s = .next (s.refuse .badValue)) ∧
  ∀ q : OccPart, (occPartBytes q).length = 81

/-- R158: the division of a network value by 10 under each rounding mode; NEAREST takes an exact half away from zero. -/
def Claims.NetworkRounding : Prop :=
  ∀ z : Int,
    (roundTen .down z * 10 ≤ z ∧ z < roundTen .down z * 10 + 10) ∧
    (z ≤ roundTen .up z * 10 ∧ roundTen .up z * 10 < z + 10) ∧
    (roundTen .zero z = if 0 ≤ z then roundTen .down z else roundTen .up z) ∧
    2 * (roundTen .nearest z * 10 - z).natAbs ≤ 10 ∧
    (2 * (roundTen .nearest z * 10 - z).natAbs = 10 → z.natAbs < (roundTen .nearest z * 10).natAbs)

/-- R157: the network value: R_open × 10 plus the final value less V_open, divided by 10 under the mode; absent without a
drift part and without R_open. -/
def Claims.NetworkValue : Prop :=
  ∀ (mode : RoundMode) (o : Occ),
    (o.drift = none → networkOf mode o = none) ∧
    (∀ d, o.drift = some d → d.rOpen = none → networkOf mode o = none) ∧
    ∀ d ro, o.drift = some d → d.rOpen = some ro → validReference ro = true → validGravity d.final = true →
      validGravity d.vOpen = true → ∃ n, networkOf mode o = some n ∧
        (n : Int) = roundTen mode ((ro : Int) * 10 + (d.final - d.vOpen)) ∧ 540503270 ≤ n ∧ n ≤ 1419496730

/-- R159: the grade, by the first of its cases that holds. A comparison with an absent noise is false. -/
def Claims.Grades : Prop :=
  ∀ (c : ConstNums) (o : Occ) (m : Reading), o.reading = some m →
    (o.results = none → gradeOf c o = .none) ∧
    ∀ r, o.results = some r →
      let within (limit : Int) := ∃ v, r.noise = some v ∧ (v : Int) ≤ limit
      let reject := o.flags.short = true ∨ o.flags.sensorLost = true
      let a := within c.gradeA ∧ (m.sums.breaks : Int) ≤ c.breakLimit ∧ o.flags.tiltLimit = false ∧
        o.flags.tiltRange = false ∧ o.flags.tiltMissing = false ∧ o.flags.tempMissing = false ∧ o.flags.saturated = false
      let b := within c.gradeB ∧ o.flags.tiltMissing = false ∧ o.flags.saturated = false
      (reject → gradeOf c o = .reject) ∧ (¬reject → a → gradeOf c o = .a) ∧ (¬reject → ¬a → b → gradeOf c o = .b) ∧
      (¬reject → ¬a → ¬b → gradeOf c o = .c)

/-- R6, R162: EXPORT STATION that cannot be made. It is refused by its number and by what its lookup finds, without a touch.
R5, R162: an entry that fails its check as it is read out, by a late upset of the model's (log 2), gains its mark and raises
MEMORY_ERROR. R170: so do constants that fail their check in this read, and constants that carry the mark raise MEMORY_ERROR
again. Each is answered DAMAGED: the entry has been touched, and the snapshot and the changed mark stay. -/
def Claims.ExportFails : Prop :=
  (∀ (s : State) (n : Nat), Claims.KeyRefusals (.exportStation n) .ready s n) ∧
  ∀ (s : State) (n w : Nat) (e : Station), s.serves (.exportStation n) .ready = true → 1 ≤ n → n ≤ 65534 →
    s.matching n = [w] → s.station? w = some e →
    (∀ q ∈ s.stations, q.2.sound = true ∧ q.2.damaged = false) → ∀ c,
    (s.late = some w ∧ c = s.constants ∨
      s.late = none ∧ (s.constants.damaged = true ∨ s.constants.sound = false) ∧ c = { s.constants with damaged := true }) →
    ∃ t, exec (.exportStation n) s = .next t ∧
      t = { s with stations := t.stations, recency := t.recency, constants := c, late := none, link := t.link,
                   events := { s.events with pending := s.events.pending ||| 0x2000 } } ∧
      t.link = (s.refuse .damaged).link ∧
      t.station? w = some
        (if s.late = some w then { Claims.looked e with sound := false, damaged := true } else Claims.looked e) ∧
      (∀ v, v ≠ w → t.station? v = s.station? v) ∧ Claims.Touched s t w

/-- R156 to R162, R164 to R166: the snapshot with its network values and grades, the search for changed
stations, and the parts with their layouts. R170: an export while the constants carry the damaged mark or fail their
check. When an entry fails at its read-out is log 2, and the bytes of the answers but the parts' are log 11. -/
def Obligations.Exports : Prop :=
  Claims.ExportStation ∧ Claims.ExportFails ∧ Claims.NextChanged ∧ Claims.ReadExportPart ∧ Claims.StationPartLayout ∧
    Claims.RecordPartLayout ∧ Claims.NetworkRounding ∧ Claims.NetworkValue ∧ Claims.Grades

/-! ### Service control -/

/-- R71: the front end as the channel enables start it: an enabled channel SEEKING, another OFF, no value held, and the
gravity sample input SILENT. -/
def Claims.started (c : Constants) : FrontEnd :=
  let chan (on : Bool) : Chan := { state := if on then .seeking else .off, gate := none, periods := 0, abandons := 0 }
  { x := chan c.enableX, y := chan c.enableY, t := chan c.enableT, heldX := none, heldY := none, heldT := none,
    lag := none, live := none, receiving := false }

/-- R170: the constants after a read: the mark is set where the check fails. -/
def Claims.checked (c : Constants) : Constants := { c with damaged := c.damaged || !c.sound }

/-- R194, R71: the release of RESET_N, and an accepted RESET: the retention domain and the clock stay, the main domain
is set as at power-on with the front end started, the events are cleared, and the scan begins from its first pass. The
release acts in any state, held or not (log 45); the start reads the constants, which gain their mark where they fail
their check (log 37); and a chip-select period in progress goes on (log 31). -/
def Claims.Reset : Prop :=
  ∀ (s : State) (c : Instr), (c = .resetLineReleased ∨ c = .reset ∧ s.serves .reset .always = true) →
    exec c s = .next { s with
      part := .starting, resetHeld := false, window := none, lastWindow := none
      constants := Claims.checked s.constants, front := Claims.started s.constants
      engine := { state := .idle, flight := none, queue := [], last := none, fault := none }
      snapshot := none
      link := { period := s.link.period, held := none, fetching := false, executing := none, waiting := none, discard := false }
      events := { pending := 0, enabled := 0 }
      scan := some { origin := .reset, pass := 1, ended := none, counts := {}, cursor := 0, marked := [], found := [] } }

/-- R194: RESET_N falls: the main domain is held in reset with the events clear, a period in progress is ignored to its
end (log 31), and the part state, the retention domain and the clock stay. -/
def Claims.ResetHeld : Prop :=
  ∀ s : State, ∃ t, exec .resetLineAsserted s = .next t ∧
    t = { s with resetHeld := true, window := none, lastWindow := none, front := Claims.started s.constants,
                 engine := { state := .idle, flight := none, queue := [], last := none, fault := none },
                 snapshot := none, link := t.link, events := { pending := 0, enabled := 0 } } ∧
    t.link = { period := s.link.period.map fun _ => { ignored := true, miso := [] }, held := none, fetching := false,
               executing := none, waiting := none, discard := false } ∧ t.attention = false

/-- R205, R72: STANDBY is accepted with no window, an IDLE engine and an empty queue, without a response, and refused
BUSY otherwise; a falling edge on WAKE_N in STANDBY returns the part to READY with the front end started again, which
reads the constants and raises MEMORY_ERROR where they newly fail their check (log 37), and has no effect in any other
part state or while RESET_N is low, the instant of its release included (log 65). -/
def Claims.StandbyAndWake : Prop :=
  ∀ s : State,
    (s.serves .standby .ready = true →
      (s.window = none → s.engine.state = .idle → s.engine.queue = [] → ∃ t, exec .standby s = .next t ∧
        t = { s with part := .standby, front := t.front, link := t.link } ∧ t.link.held = none ∧ t.link.waiting = none ∧
        t.link.executing = none ∧ t.front = { s.front with
          x := { s.front.x with gate := none }, y := { s.front.y with gate := none }
          t := { s.front.t with gate := none }, receiving := false }) ∧
      (s.window.isSome = true ∨ s.engine.state ≠ .idle ∨ s.engine.queue ≠ [] →
        exec .standby s = .next (s.refuse .busy))) ∧
    (s.part = .standby → s.resetHeld = false → ∃ t, exec .wake s = .next t ∧
      t = { s with part := .ready, front := Claims.started s.constants, constants := Claims.checked s.constants,
                   link := t.link, events := t.events } ∧ t.link.held = none ∧ t.link.executing = none ∧
      t.events = (if s.constants.damaged = true ∨ s.constants.sound = true then s.events
        else { s.events with pending := s.events.pending ||| 0x2000 })) ∧
    (s.part ≠ .standby ∨ s.resetHeld = true → exec .wake s = .next s)

/-- R71, R72, R170, R194, R205: the resets, standby and wake. The release in any state is log 45, the read of the
constants at the start log 37, the period across a reset log 31, and a wake that comes with the release log 65. -/
def Obligations.ServiceResets : Prop := Claims.Reset ∧ Claims.ResetHeld ∧ Claims.StandbyAndWake

/-- R199, R203: BEGIN RESTORE is accepted with every table FREE, the engine IDLE and no window open, and refused BUSY
otherwise. END RESTORE begins the scan with its origin; ABORT RESTORE frees the tables and returns to READY. Both make
the last-window record and the last-job result absent. -/
def Claims.RestoreEnds : Prop :=
  ∀ s : State,
    (s.serves .beginRestore .ready = true →
      (s.stations = [] ∧ s.occs = [] ∧ s.loops = [] ∧ s.engine.state = .idle ∧ s.window = none →
        exec .beginRestore s = .next ({ s with part := .restore }.respond .ok [])) ∧
      (s.stations ≠ [] ∨ s.occs ≠ [] ∨ s.loops ≠ [] ∨ s.engine.state ≠ .idle ∨ s.window.isSome = true →
        exec .beginRestore s = .next (s.refuse .busy))) ∧
    (s.serves .endRestore .restore = true → exec .endRestore s = .next
      ({ s with part := .starting, lastWindow := none, engine := { s.engine with last := none },
                scan := some { origin := .endRestore, pass := 1, ended := none, counts := {}, cursor := 0, marked := [], found := [] } }.respond
        .ok [])) ∧
    (s.serves .abortRestore .restore = true → ∃ t, exec .abortRestore s = .next t ∧
      t = { s with part := .ready, stations := [], recency := [], occs := [], loops := [], expiryDue := [], lastWindow := none,
                   engine := { s.engine with last := none }, link := t.link } ∧ t.link = (s.respond .ok []).link)

/-- R200: the fields of a station that LOAD STATION refuses with BAD_VALUE: a role, a site, a reference value, a pinned or
changed byte or a list index outside its range, an index twice, and a reference value in a FIELD station. -/
def Claims.StationFieldsBad (r : LoadStationReq) : Prop :=
  2 ≤ r.role ∨ 8 ≤ r.site ∨ 2 ≤ r.pinned ∨ 2 ≤ r.changed ∨
    (∃ v, r.reference = some v ∧ (v < 970000000 ∨ 990000000 < v ∨ r.role = 1)) ∨ (∃ i ∈ r.list, 512 ≤ i) ∨ ¬r.list.Nodup

/-- R200, R6, R5: LOAD STATION of fields in range takes the lowest FREE way of the station's set, whatever other way
carries the number, and the entry enters the recency order at the most recent place. A list of more than 8 is
answered BAD_LENGTH with the command's code, then a number outside its range BAD_KEY, then a field BAD_VALUE, and a
set without a FREE way SET_FULL; a refusal changes nothing else. The bytes of the answer are read from R181 by
inference (log 11). -/
def Claims.LoadStation : Prop :=
  ∀ (s : State) (r : LoadStationReq), s.serves (.loadStation r) .restore = true →
    (8 < r.list.length → exec (.loadStation r) s = .next (s.respond .badLength (u8 0x91))) ∧
    (r.list.length ≤ 8 →
      (r.number = 0 ∨ 65535 ≤ r.number → exec (.loadStation r) s = .next (s.refuse .badKey)) ∧
      (1 ≤ r.number → r.number ≤ 65534 →
        (Claims.StationFieldsBad r → exec (.loadStation r) s = .next (s.refuse .badValue)) ∧
        (¬Claims.StationFieldsBad r →
          ((∀ v, v / 4 = r.number % 64 → (s.station? v).isSome = true) →
            exec (.loadStation r) s = .next (s.refuse .setFull)) ∧
          ∀ w, w / 4 = r.number % 64 → s.station? w = none →
            (∀ v, v / 4 = w / 4 → v < w → (s.station? v).isSome = true) → ∃ t, exec (.loadStation r) s = .next t ∧
            t = { s with stations := t.stations, recency := t.recency, link := t.link } ∧
            t.link = (s.respond .ok (u8 (w / 4) ++ u8 (w % 4))).link ∧
            t.station? w = some
              { number := r.number, state := .active, damaged := false, sound := true,
                role := if r.role = 0 then .base else .field, pinned := decide (r.pinned = 1), site := r.site,
                reference := r.reference, tag := r.tag, list := r.list, changed := decide (r.changed = 1) } ∧
            (∀ v, v ≠ w → t.station? v = s.station? v) ∧ Claims.Touched s t w)))

/-- R29, R201: sums, counts and last values outside their ranges: a held count above 65,535, and a last value outside its
range. That a negative sum of squares, sum of offsets or count, and a sample count of 0, are refused too is the model's
choice (log 30). -/
def Claims.SumsBad (m : LoadSums) : Prop :=
  m.n < 1 ∨ m.sumX2 < 0 ∨ m.sumT < 0 ∨ m.tiltX2 < 0 ∨ m.mx < 0 ∨ m.tiltY2 < 0 ∨ m.my < 0 ∨ m.k < 0 ∨ 65535 < m.overload ∨
    65535 < m.clamped ∨ 65535 < m.breaks ∨ (∃ v, (m.lastX = some v ∨ m.lastY = some v) ∧ (v < -2000 ∨ 2000 < v)) ∨
    ∃ v, (m.lastT = some v ∨ m.lastL = some v) ∧ (v < -50000 ∨ 50000 < v)

/-- R74, R75, R201: results outside their ranges. -/
def Claims.ResultsBad (r : Results) : Prop :=
  2147483647 < r.raw.natAbs ∨ 2147483647 < r.v.natAbs ∨ (∃ k, r.noise = some k ∧ 134217727 < k) ∨ r.ctilt < 0 ∨
    39360 < r.ctilt ∨ 3276700 < r.ctemp.natAbs ∨ 24000 < r.ctide.natAbs ∨ 65535 < r.revision ∨ 8 ≤ r.site ∨
    65535 < r.siteRevision

/-- R126, R201: a drift part outside its ranges. -/
def Claims.DriftBad (d : DriftPart) : Prop :=
  2147483647 < d.correction.natAbs ∨ 2147483647 < d.final.natAbs ∨ 2147483647 < d.vOpen.natAbs ∨
    2147483647 < d.rate.natAbs ∨ ∃ v, d.rOpen = some v ∧ (v < 970000000 ∨ 990000000 < v)

/-- R201: the fields of an occupation that LOAD OCCUPATION refuses with BAD_VALUE, its groups and its state among
them. That an absent start tick, epoch or revision is refused is the model's choice (log 30), and so is a flag byte that
is neither 0 nor 1 (log 10). -/
def Claims.OccFieldsBad (r : LoadOccupationReq) : Prop :=
  300 < r.settle ∨ r.duration < 10 ∨ 600 < r.duration ∨ 2 ≤ r.abortOnTilt ∨
    (∃ l, (r.memberOf = some l ∨ r.opens = some l) ∧ 16 ≤ l) ∨ r.startTick = none ∨ r.epoch = none ∨ r.openRevision = none ∨
    (∃ v, (r.startTick = some v ∨ r.epoch = some v) ∧ 281474976710656 ≤ v) ∨ (∃ v, r.openRevision = some v ∧ 65535 < v) ∨
    r.oddFlag = true ∨ Claims.SumsBad r.sums ∨ (∃ x, r.results = some x ∧ Claims.ResultsBad x) ∨
    (∃ d, r.drift = some d ∧ Claims.DriftBad d) ∨ r.state < 3 ∨ 5 < r.state ∨
    r.state = 3 ∧ (r.results.isSome = true ∨ r.drift.isSome = true) ∨ (r.state = 4 ∨ r.state = 5) ∧ r.results = none ∨
    r.state = 5 ∧ r.drift = none

/-- R201, R6: LOAD OCCUPATION. A station number outside its range is answered BAD_KEY, then an index outside its range
BAD_VALUE, an index that is not FREE IN_USE, and fields out of range, or not those of the state, BAD_VALUE: the order
of these checks is log 38. A record without these is installed with every field as the command carries it. -/
def Claims.LoadOccupation : Prop :=
  ∀ (s : State) (i : Nat) (r : LoadOccupationReq), s.serves (.loadOccupation i r) .restore = true →
    let refused (st : Status) := exec (.loadOccupation i r) s = .next (s.refuse st)
    (r.number = 0 ∨ 65535 ≤ r.number → refused .badKey) ∧
    (1 ≤ r.number → r.number ≤ 65534 →
      (512 ≤ i → refused .badValue) ∧ (i < 512 → (s.occ? i).isSome = true → refused .inUse) ∧
      (i < 512 → s.occ? i = none → Claims.OccFieldsBad r → refused .badValue) ∧
      (i < 512 → s.occ? i = none → ¬Claims.OccFieldsBad r → ∃ t o m, exec (.loadOccupation i r) s = .next t ∧
        t = { s with occs := t.occs, link := t.link } ∧ t.link = (s.respond .ok []).link ∧
        (∀ j, j ≠ i → t.occ? j = s.occ? j) ∧ t.occ? i = some o ∧
        o = { state := if r.state = 3 then .pending else if r.state = 4 then .reduced else .final, damaged := false,
              sound := true, station := r.number, settle := r.settle, duration := r.duration,
              abortOnTilt := decide (r.abortOnTilt = 1), memberOf := r.memberOf, opens := r.opens, reading := some m,
              results := r.results, drift := r.drift, flags := r.flags } ∧
        r.startTick = some m.startTick ∧ r.epoch = some m.epoch ∧ r.openRevision = some m.openRevision ∧
        r.sums = { sumX := m.sums.sumX, sumX2 := m.sums.sumX2, n := m.sums.n, sumT := m.sums.sumT,
                   overload := m.sums.overload, clamped := m.sums.clamped, breaks := m.sums.breaks,
                   tiltX2 := m.sums.tiltX2, mx := m.sums.mx, tiltY2 := m.sums.tiltY2, my := m.sums.my,
                   lastX := m.sums.lastX, lastY := m.sums.lastY, sumTemp := m.sums.sumTemp, sumLag := m.sums.sumLag,
                   k := m.sums.k, lastT := m.sums.lastT, lastL := m.sums.lastL }))

/-- R202, R108: the fields of a loop that LOAD LOOP refuses with BAD_VALUE, with those that its state has not or
asks for. -/
def Claims.LoopFieldsBad (r : LoadLoopReq) : Prop :=
  512 ≤ r.openEnd ∨ 281474976710656 ≤ r.openEpoch ∨ 281474976710656 ≤ r.deadline ∨ (∃ i ∈ r.members, 512 ≤ i) ∨
    ¬r.members.Nodup ∨ (∃ i, r.closing = some i ∧ i ∉ r.members) ∨ (∃ m, r.mode = some m ∧ 2 ≤ m) ∨
    (∃ v : Int, (r.deltaV = some v ∨ r.rate = some v) ∧ 2147483647 < v.natAbs) ∨ 2 ≤ r.driftHigh ∨ 2 ≤ r.interrupted ∨
    r.state = 0 ∨ 5 ≤ r.state ∨ (r.state = 1 ∨ r.state = 2) ∧ (r.closing.isSome = true ∨ r.mode.isSome = true) ∨
    (r.state = 3 ∨ r.state = 4) ∧ (r.closing = none ∨ r.mode = none) ∨
    r.state ≠ 4 ∧ (r.deltaV.isSome = true ∨ r.rate.isSome = true) ∨ r.state = 4 ∧ (r.deltaV = none ∨ r.rate = none)

/-- R202: LOAD LOOP. More than 64 members are answered BAD_LENGTH with the command's code, then a loop number outside its
range BAD_VALUE, a loop that is not FREE LOOP_STATE, and fields out of range, or not those of the state, BAD_VALUE: the
order of these checks is log 38. A loop without these is installed with every field as the command carries it. -/
def Claims.LoadLoop : Prop :=
  ∀ (s : State) (r : LoadLoopReq), s.serves (.loadLoop r) .restore = true →
    let refused (st : Status) := exec (.loadLoop r) s = .next (s.refuse st)
    (64 < r.members.length → exec (.loadLoop r) s = .next (s.respond .badLength (u8 0x93))) ∧
    (r.members.length ≤ 64 →
      (16 ≤ r.loop → refused .badValue) ∧
      (r.loop < 16 → (s.loop? r.loop).isSome = true → refused .loopState) ∧
      (r.loop < 16 → s.loop? r.loop = none → Claims.LoopFieldsBad r → refused .badValue) ∧
      (r.loop < 16 → s.loop? r.loop = none → ¬Claims.LoopFieldsBad r → ∃ t x, exec (.loadLoop r) s = .next t ∧
        t = { s with loops := t.loops, link := t.link } ∧ t.link = (s.respond .ok []).link ∧ t.loop? r.loop = some x ∧
        (∀ k, k ≠ r.loop → t.loop? k = s.loop? k) ∧
        x = { state := if r.state = 1 then .opened else if r.state = 2 then .expired else if r.state = 3 then .closing
                else .closed,
              damaged := false, sound := true, openEnd := r.openEnd, openEpoch := r.openEpoch, deadline := r.deadline,
              members := r.members, closing := r.closing,
              mode := r.mode.map (fun m => if m = 0 then .drift else .noDrift),
              deltaV := r.deltaV, rate := r.rate, driftHigh := decide (r.driftHigh = 1),
              interrupted := decide (r.interrupted = 1) }))

/-- R199 to R203, R6: the restore commands. The order of the checks of a loaded record or loop is log 38, the refusal of
negative sums and counts and of absent timing log 30, and that of an odd flag byte log 10. -/
def Obligations.Restore : Prop := Claims.RestoreEnds ∧ Claims.LoadStation ∧ Claims.LoadOccupation ∧ Claims.LoadLoop

/-- R195: each of the eight passes takes the steps asked of it from where it stands, and the next pass follows when
its last step is taken. The steps' division is the model's (log 8). -/
def Claims.ScanAdvances : Prop :=
  ∀ (s : State) (c : Scan) (k n size : Nat) (row : Instr), s.part = .starting → s.resetHeld = false → s.scan = some c →
    c.pass = n → c.ended = none → s.window = none →
    (n, size, row) ∈ [(1, 64, Instr.scanDuplicates k), (2, 784, .scanDamage k), (3, 1552, .scanReferences k),
      (4, 512, .scanWindows k), (5, 256, .scanOrder k), (6, 16, .scanUnanchoredLoops k), (7, 16, .scanInterruptedCloses k),
      (8, 512, .scanStrayDrift k)] →
    ∃ t d, exec row s = .next t ∧ t.scan = some d ∧ t.part = .starting ∧ d.origin = c.origin ∧ d.ended = none ∧
      t.clock = s.clock ∧ t.recency = s.recency ∧ t.engine = s.engine ∧ t.window = none ∧ t.constants = s.constants ∧
      t.link = s.link ∧ t.front = s.front ∧
      (if c.cursor + k < size then d.pass = n ∧ d.cursor = c.cursor + k else d.pass = n + 1 ∧ d.cursor = 0)

/-- R195: the scan is in a pass and takes its next step there. -/
def Claims.Scans (s : State) (c : Scan) (n k : Nat) : Prop :=
  s.part = .starting ∧ s.resetHeld = false ∧ s.scan = some c ∧ c.ended = none ∧ c.pass = n ∧ c.cursor = k

/-- R204: no record of the three tables would fail its check; some may carry the damaged mark. -/
def Claims.Readable (s : State) : Prop :=
  (∀ q ∈ s.stations, q.2.sound = true) ∧ (∀ q ∈ s.occs, q.2.sound = true) ∧ ∀ q ∈ s.loops, q.2.sound = true

/-- R195: passes 1 and 2 have left no damaged occupation and no damaged loop. -/
def Claims.Swept (s : State) : Prop :=
  Claims.Readable s ∧ (∀ q ∈ s.occs, q.2.damaged = false) ∧ ∀ q ∈ s.loops, q.2.damaged = false

/-- R198: a count of the report holds at 65,535. -/
def Claims.counted (c n : Nat) : Nat := min (c + n) 65535

/-- R31, R196: records become FREE and leave every station list, which marks the station changed, and every member list but a
damaged loop's. R196 has a freed record leave every member list; that a damaged loop's is not written, and that a damaged station's
list loses the index as any other does, are the model's choices (DESIGN CHOICE, log 15). -/
def Claims.Freed (s t : State) (is : List Nat) : Prop :=
  (∀ i, t.occ? i = if i ∈ is then none else s.occ? i) ∧
  (∀ w e, w < 256 → s.station? w = some e → t.station? w = some
    (if ∃ i ∈ is, i ∈ e.list then { e with list := e.list.filter (· ∉ is), changed := true } else e)) ∧
  (∀ w, s.station? w = none → t.station? w = none) ∧
  (∀ l r, s.loop? l = some r → t.loop? l = some
    (if r.damaged then r else { r with members := r.members.filter (· ∉ is) })) ∧
  ∀ l, s.loop? l = none → t.loop? l = none

/-- Nothing of the three tables has changed. -/
def Claims.TablesKept (s t : State) : Prop := t.stations = s.stations ∧ t.occs = s.occs ∧ t.loops = s.loops

/-- R24, R26: the way that owns a record in the scan: of the undamaged ways of its number that list it, the lowest, and where
there is none, the lowest damaged way of the number (log 16). -/
def Claims.ScanOwner (s : State) (v i : Nat) : Prop :=
  ∃ o f, s.occ? i = some o ∧ v ∈ s.matching o.station ∧ s.station? v = some f ∧
    let lists (g : Station) := g.damaged = false ∧ i ∈ g.list
    ((lists f ∧ ∀ u g, u ∈ s.matching o.station → u < v → s.station? u = some g → ¬lists g) ∨
      f.damaged = true ∧ ∀ u g, u ∈ s.matching o.station → s.station? u = some g → ¬lists g ∧ (u < v → g.damaged = false))

/-- R195, R26: the owners of the touched records are marked changed (log 16), and no entry changes otherwise. -/
def Claims.OwnersMarked (s t : State) (touched : Nat → Prop) : Prop :=
  (∀ v e, s.station? v = some e →
    ((∃ i, touched i ∧ Claims.ScanOwner s v i) → t.station? v = some { e with changed := true }) ∧
    ((¬∃ i, touched i ∧ Claims.ScanOwner s v i) → t.station? v = some e)) ∧
  ∀ v, s.station? v = none → t.station? v = none

/-- R196, pass 1: an ACTIVE way of the set whose number another way of it carries becomes SUSPECT, damaged or not, and is
counted; a damaged way is such another way too. -/
def Claims.ScanSuspects : Prop :=
  ∀ (s : State) (c : Scan) (k : Nat), Claims.Scans s c 1 k → Claims.Readable s → k < 64 → c.counts.suspectWays ≤ 65535 →
    ∃ t d ws, exec (.scanDuplicates 1) s = .next t ∧ t.scan = some d ∧ t.occs = s.occs ∧ t.loops = s.loops ∧
      (ws : List Nat).Nodup ∧
      (∀ w, w ∈ ws ↔ w / 4 = k ∧ ∃ e, s.station? w = some e ∧ e.state = .active ∧ ∃ v ∈ s.matching e.number, v ≠ w) ∧
      d.counts.suspectWays = Claims.counted c.counts.suspectWays ws.length ∧
      (∀ w e, s.station? w = some e → t.station? w = some
        (if w ∈ ws then { e with state := .suspect, changed := true } else e)) ∧
      ∀ w, s.station? w = none → t.station? w = none

/-- R196, pass 2: a damaged occupation, or one that fails its check in this step, is freed and counted; a sound one stays.
The lists that it leaves are the model's choice where a station or a loop is damaged (DESIGN CHOICE, log 15).
No other record fails its check; what carries its mark waits for its own step (log 8). -/
def Claims.ScanFreesOccupation : Prop :=
  ∀ (s : State) (c : Scan) (k : Nat) (o : Occ), Claims.Scans s c 2 k → k < 512 → s.occ? k = some o →
    (∀ q ∈ s.stations, q.2.sound = true) → (∀ q ∈ s.occs, q.1 ≠ k → q.2.sound = true) → (∀ q ∈ s.loops, q.2.sound = true) →
    ∃ t d, exec (.scanDamage 1) s = .next t ∧ t.scan = some d ∧
      (o.damaged = true ∨ o.sound = false → Claims.Freed s t [k] ∧
        d.counts.damagedOccupations = Claims.counted c.counts.damagedOccupations 1) ∧
      (o.damaged = false → o.sound = true → Claims.TablesKept s t ∧ d.counts = c.counts)

/-- R196, R128, pass 2: a damaged loop, or one that fails its check in this step, becomes FREE and is counted; the records
whose fields name it lose them, a member that is not damaged its drift part, FINAL or not, and their stations are
marked, and no other (log 16). R196 has a gathered member lose its drift part, gathered as in R128: that one that carries the
damaged mark keeps its drift part and flags, as R128 leaves it, is log 24. -/
def Claims.ScanFreesLoop : Prop :=
  ∀ (s : State) (c : Scan) (l : Nat) (r : Loop), Claims.Scans s c 2 (512 + l) → l < 16 → s.loop? l = some r →
    (∀ q ∈ s.stations, q.2.sound = true) → (∀ q ∈ s.occs, q.2.sound = true) → (∀ q ∈ s.loops, q.1 ≠ l → q.2.sound = true) →
    s.recordsWf = true → ∃ t d, exec (.scanDamage 1) s = .next t ∧ t.scan = some d ∧
      (r.damaged = false → r.sound = true → Claims.TablesKept s t ∧ d.counts = c.counts) ∧
      (r.damaged = true ∨ r.sound = false → t.loop? l = none ∧ (∀ k, k ≠ l → t.loop? k = s.loop? k) ∧
        d.counts.damagedLoops = Claims.counted c.counts.damagedLoops 1 ∧
        Claims.OwnersMarked s t (fun i => ∃ o, s.occ? i = some o ∧ (o.memberOf = some l ∨ o.opens = some l)) ∧
        (∀ i, s.occ? i = none → t.occ? i = none) ∧
        ∀ i o, s.occ? i = some o → ∃ p, t.occ? i = some p ∧
          p = { o with memberOf := if o.memberOf = some l then none else o.memberOf
                       opens := if o.opens = some l then none else o.opens, drift := p.drift, flags := p.flags } ∧
          (o.memberOf = some l → o.damaged = false →
            p.drift = none ∧ p.flags = { o.flags with driftHigh := false, noDrift := false }) ∧
          (o.memberOf ≠ some l ∨ o.damaged = true → p.drift = o.drift ∧ p.flags = o.flags))

/-- R196, R198, pass 2: a station entry that is damaged, or fails its check in this step, keeps or gains its mark, and is
counted, once in a scan. -/
def Claims.ScanCountsStation : Prop :=
  ∀ (s : State) (c : Scan) (w : Nat) (e : Station), Claims.Scans s c 2 (528 + w) → w < 256 → s.station? w = some e →
    ∃ t d, exec (.scanDamage 1) s = .next t ∧ t.scan = some d ∧ t.occs = s.occs ∧ t.loops = s.loops ∧
      t.station? w = some { e with damaged := e.damaged || !e.sound } ∧ (∀ v, v ≠ w → t.station? v = s.station? v) ∧
      d.counts = (if (e.damaged = true ∨ e.sound = false) ∧ w ∉ c.found then
        { c.counts with damagedStations := Claims.counted c.counts.damagedStations 1 } else c.counts)

/-- R196, pass 3, station lists: an undamaged list keeps what names a record of its station and is on no undamaged list
of a lower way of its set; what it loses is counted. That the list of a damaged lower way, which R2 does not use, keeps
no index from this one is read by inference (log 44). -/
def Claims.ScanPrunesList : Prop :=
  ∀ (s : State) (c : Scan) (w : Nat) (e : Station), Claims.Scans s c 3 w → Claims.Swept s → w < 256 →
    s.station? w = some e → c.counts.references ≤ 65535 →
    ∃ t d f, exec (.scanReferences 1) s = .next t ∧ t.scan = some d ∧ t.occs = s.occs ∧ t.loops = s.loops ∧
      t.station? w = some f ∧ (∀ v, v ≠ w → t.station? v = s.station? v) ∧
      f = { e with list := f.list, changed := if f.list = e.list then e.changed else true } ∧ f.list.Sublist e.list ∧
      d.counts.references = Claims.counted c.counts.references (e.list.length - f.list.length) ∧
      (∀ i ∈ e.list, e.damaged = false → (i ∈ f.list ↔ (∃ o, s.occ? i = some o ∧ o.station = e.number) ∧
        ∀ v g, v < w → v / 4 = w / 4 → s.station? v = some g → g.damaged = false → i ∉ g.list)) ∧
      (e.damaged = true → f = e)

/-- R196, pass 3, unlisted records: a record that no way of its number lists, and of whose number no way is damaged, is
freed and counted. The member lists that it leaves count no reference removed (log 44), and a damaged station's list loses
it too (log 15). -/
def Claims.ScanFreesUnlisted : Prop :=
  ∀ (s : State) (c : Scan) (i : Nat) (o : Occ), Claims.Scans s c 3 (256 + i) → Claims.Swept s → i < 512 →
    s.occ? i = some o →
    let listed := ∃ w ∈ s.matching o.station, ∃ e, s.station? w = some e ∧ (e.damaged = true ∨ i ∈ e.list)
    ∃ t d, exec (.scanReferences 1) s = .next t ∧ t.scan = some d ∧
      (¬listed → Claims.Freed s t [i] ∧ d.counts.unlisted = Claims.counted c.counts.unlisted 1 ∧
        d.counts.references = c.counts.references) ∧
      (listed → Claims.TablesKept s t ∧ d.counts.unlisted = c.counts.unlisted ∧ d.counts.references = c.counts.references)

/-- R195, R196, R204, R24, pass 3, damaged stations: the list of an entry that carries the mark, or fails its check in this step
(log 29), is rewritten from the records of the number that no undamaged way of it lists and no lower damaged way has been
given, in ascending order of epoch (log 34) and of index where epochs are equal, up to eight, and the entry's check value is
formed anew; it is marked changed where its list changes or a record is freed. The others are freed, leave every list, and count as unlisted; and an index that names
none of them counts as a reference (log 44). A list of another damaged station loses a freed record as any other does
(log 15). -/
def Claims.ScanRewritesList : Prop :=
  ∀ (s : State) (c : Scan) (w : Nat) (e : Station), Claims.Scans s c 3 (768 + w) →
    (∀ q ∈ s.stations, q.1 ≠ w → q.2.sound = true) → (∀ q ∈ s.occs, q.2.sound = true ∧ q.2.damaged = false) →
    (∀ q ∈ s.loops, q.2.sound = true ∧ q.2.damaged = false) → s.recordsWf = true →
    w < 256 → s.station? w = some e → c.counts.references ≤ 65535 → c.counts.unlisted ≤ 65535 →
    ∃ t d, exec (.scanReferences 1) s = .next t ∧ t.scan = some d ∧
      (e.damaged = false → e.sound = true → Claims.TablesKept s t ∧ d.counts.references = c.counts.references ∧
        d.counts.unlisted = c.counts.unlisted) ∧
      (e.damaged = true ∨ e.sound = false → ∃ all : List Nat, all.Nodup ∧
        (∀ i, i ∈ all ↔ ∃ o, s.occ? i = some o ∧ o.station = e.number ∧ ∀ v ∈ s.matching e.number, v ≠ w → ∀ g,
          s.station? v = some g → (g.damaged = false ∨ v < w) → i ∉ g.list) ∧
        all.Pairwise (fun i j => s.orderKey i < s.orderKey j ∨ s.orderKey i = s.orderKey j ∧ i < j) ∧
        t.station? w = some { e with
          damaged := true, sound := true
          list := all.take 8, changed := if all.take 8 = e.list ∧ all.length ≤ 8 then e.changed else true } ∧
        d.counts.references = Claims.counted c.counts.references (e.list.filter (· ∉ all)).length ∧
        d.counts.unlisted = Claims.counted c.counts.unlisted (all.length - 8) ∧
        (∀ i, t.occ? i = if i ∈ all.drop 8 then none else s.occ? i) ∧
        (∀ l r, s.loop? l = some r → t.loop? l = some { r with members := r.members.filter (· ∉ all.drop 8) }) ∧
        (∀ l, s.loop? l = none → t.loop? l = none) ∧
        (∀ v g, v ≠ w → v < 256 → s.station? v = some g → t.station? v = some (if ∃ i ∈ all.drop 8, i ∈ g.list then
          { g with list := g.list.filter (· ∉ all.drop 8), changed := true } else g)) ∧
        ∀ v, s.station? v = none → t.station? v = none)

/-- R196, pass 3, member lists: a list keeps the records whose member-of field names its loop; what it loses is
counted, and no station is marked for it (log 66). -/
def Claims.ScanPrunesMembers : Prop :=
  ∀ (s : State) (c : Scan) (l : Nat) (r : Loop), Claims.Scans s c 3 (1024 + l) → Claims.Swept s → l < 16 →
    s.loop? l = some r → c.counts.references ≤ 65535 →
    ∃ t d ms, exec (.scanReferences 1) s = .next t ∧ t.scan = some d ∧ t.stations = s.stations ∧ t.occs = s.occs ∧
      t.loop? l = some { r with members := ms } ∧ (∀ k, k ≠ l → t.loop? k = s.loop? k) ∧ ms.Sublist r.members ∧
      (∀ i ∈ r.members, (i ∈ ms ↔ ∃ o, s.occ? i = some o ∧ o.memberOf = some l)) ∧
      d.counts.references = Claims.counted c.counts.references (r.members.length - ms.length)

/-- R196, pass 3, loop fields: a member-of field that names a FREE loop, or one that does not list the record, is cleared
with the drift part of a record that is not FINAL; an opens-loop field that names a FREE loop, or one opened on another
record, is cleared; each is counted, and the station marked (logs 16, 66). -/
def Claims.ScanClearsFields : Prop :=
  ∀ (s : State) (c : Scan) (i : Nat) (o : Occ), Claims.Scans s c 3 (1040 + i) → Claims.Swept s → i < 512 →
    s.occ? i = some o → c.counts.references ≤ 65535 →
    let m := ∃ l, o.memberOf = some l ∧ ∀ r, s.loop? l = some r → i ∉ r.members
    let p := ∃ l, o.opens = some l ∧ ∀ r, s.loop? l = some r → r.openEnd ≠ i
    ∃ t d q, exec (.scanReferences 1) s = .next t ∧ t.scan = some d ∧ t.loops = s.loops ∧
      Claims.OwnersMarked s t (fun j => j = i ∧ (m ∨ p)) ∧ (∀ j, j ≠ i → t.occ? j = s.occ? j) ∧ t.occ? i = some q ∧
      q = { o with memberOf := q.memberOf, opens := q.opens, drift := q.drift, flags := q.flags } ∧
      (m → q.memberOf = none) ∧ (¬m → q.memberOf = o.memberOf) ∧ (p → q.opens = none) ∧ (¬p → q.opens = o.opens) ∧
      (m → o.state ≠ .final → q.drift = none ∧ q.flags = { o.flags with driftHigh := false, noDrift := false }) ∧
      (¬m ∨ o.state = .final → q.drift = o.drift ∧ q.flags = o.flags) ∧
      (¬m → ¬p → t.stations = s.stations) ∧
      (m → p → d.counts.references = Claims.counted c.counts.references 2) ∧
      ((m ∧ ¬p ∨ ¬m ∧ p) → d.counts.references = Claims.counted c.counts.references 1) ∧
      (¬m → ¬p → d.counts.references = c.counts.references)

/-- R196, pass 4: a record in SETTLING or COLLECTING is freed and counted; any other stays. A damaged station's list loses
it too (log 15). -/
def Claims.ScanFreesWindow : Prop :=
  ∀ (s : State) (c : Scan) (k : Nat), Claims.Scans s c 4 k → Claims.Swept s → k < 512 →
    ∃ t d, exec (.scanWindows 1) s = .next t ∧ t.scan = some d ∧
      ((∃ o, s.occ? k = some o ∧ (o.state = .settling ∨ o.state = .collecting)) →
        Claims.Freed s t [k] ∧ d.counts.windows = Claims.counted c.counts.windows 1) ∧
      ((∀ o, s.occ? k = some o → o.state ≠ .settling ∧ o.state ≠ .collecting) →
        Claims.TablesKept s t ∧ d.counts.windows = c.counts.windows)

/-- R196, R198: what one step of each of the first four passes does and counts, part by part (the steps are the model's,
log 8). -/
def Claims.ScanRemoves : Prop :=
  Claims.ScanSuspects ∧ Claims.ScanFreesOccupation ∧ Claims.ScanFreesLoop ∧ Claims.ScanCountsStation ∧
    Claims.ScanPrunesList ∧ Claims.ScanFreesUnlisted ∧ Claims.ScanRewritesList ∧ Claims.ScanPrunesMembers ∧
    Claims.ScanClearsFields ∧ Claims.ScanFreesWindow

/-- R197, pass 5: an undamaged list is put in ascending epoch order (a record without an epoch last, log 34), in which the
records of each epoch keep their relative order; it is counted where it changes the list; the entry's other fields stay but
the changed mark. -/
def Claims.ScanOrders : Prop :=
  ∀ (s : State) (c : Scan) (w : Nat) (e : Station), Claims.Scans s c 5 w → Claims.Swept s → w < 256 →
    s.station? w = some e →
    let ordered := e.list.Pairwise fun i j => s.orderKey i ≤ s.orderKey j
    ∃ t d f, exec (.scanOrder 1) s = .next t ∧ t.scan = some d ∧ t.occs = s.occs ∧ t.loops = s.loops ∧
      t.station? w = some f ∧ (∀ v, v ≠ w → t.station? v = s.station? v) ∧
      (e.damaged = true ∨ ordered → f = e ∧ d.counts.reordered = c.counts.reordered) ∧
      (e.damaged = false → ¬ordered → f = { e with list := f.list, changed := true } ∧ f.list.Perm e.list ∧
        f.list.Pairwise (fun i j => s.orderKey i ≤ s.orderKey j) ∧
        (∀ k, f.list.filter (fun i => s.orderKey i = k) = e.list.filter (fun i => s.orderKey i = k)) ∧
        d.counts.reordered = Claims.counted c.counts.reordered 1)

/-- R197, pass 6: a loop stands whose open endpoint is there and names it and, where it is CLOSED, whose closing member is
on its list and, in mode DRIFT, has a later epoch (log 34). Any other is voided as R127 voids it, and counted; an open
endpoint whose opens-loop field names another loop keeps the field, and its station is not marked for it (log 62). The
stations marked are the owners of the records (log 16). -/
def Claims.ScanVoids : Prop :=
  ∀ (s : State) (c : Scan) (l : Nat) (r : Loop), Claims.Scans s c 6 l → Claims.Swept s → l < 16 → s.loop? l = some r →
    let stands := (∃ o, s.occ? r.openEnd = some o ∧ o.opens = some l) ∧
      (r.state = .closed → ∃ j, r.closing = some j ∧ j ∈ r.members ∧
        (r.mode = some .drift → s.orderKey r.openEnd < s.orderKey j))
    ∃ t d, exec (.scanUnanchoredLoops 1) s = .next t ∧ t.scan = some d ∧
      (stands → Claims.TablesKept s t ∧ d.counts.voided = c.counts.voided) ∧
      (¬stands → t.loop? l = none ∧ (∀ k, k ≠ l → t.loop? k = s.loop? k) ∧
        d.counts.voided = Claims.counted c.counts.voided 1 ∧
        Claims.OwnersMarked s t (fun i => i ∈ r.members ∨ i = r.openEnd ∧ ∃ o, s.occ? i = some o ∧ o.opens = some l) ∧
        (∀ i, s.occ? i = none → t.occ? i = none) ∧
        ∀ i o, s.occ? i = some o → ∃ p, t.occ? i = some p ∧
          p = { o with memberOf := if i ∈ r.members then none else o.memberOf
                       opens := if i = r.openEnd ∧ o.opens = some l then none else o.opens
                       drift := p.drift, flags := p.flags } ∧
          (i ∈ r.members → o.state ≠ .final → p.drift = none ∧ p.flags = { o.flags with driftHigh := false, noDrift := false }) ∧
          (i ∉ r.members ∨ o.state = .final → p.drift = o.drift ∧ p.flags = o.flags))

/-- R197, R123, pass 7: a CLOSING loop has its close undone, gains CLOSE_INTERRUPTED and is counted; past its deadline it
is EXPIRED, which raises LOOP_EXPIRED. The owners of the members that lose a drift part are marked changed (log 16). -/
def Claims.ScanUndoes : Prop :=
  ∀ (s : State) (c : Scan) (l : Nat) (r : Loop), Claims.Scans s c 7 l → Claims.Swept s → l < 16 → s.loop? l = some r →
    ∃ t d, exec (.scanInterruptedCloses 1) s = .next t ∧ t.scan = some d ∧
      (r.state ≠ .closing → Claims.TablesKept s t ∧ d.counts.undone = c.counts.undone) ∧
      (r.state = .closing → t.loop? l = some { r with
          state := if s.epoch < r.deadline then .opened else .expired, closing := none, mode := none, driftHigh := false,
          interrupted := true } ∧ (∀ k, k ≠ l → t.loop? k = s.loop? k) ∧
        d.counts.undone = Claims.counted c.counts.undone 1 ∧ Claims.OwnersMarked s t (Claims.Loses s r) ∧
        t.events.pending = (if s.epoch < r.deadline then s.events.pending else s.events.pending ||| 0x0400) ∧
        (∀ i, s.occ? i = none → t.occ? i = none) ∧
        ∀ i o, s.occ? i = some o →
          (Claims.Loses s r i →
            t.occ? i = some { o with drift := none, flags := { o.flags with driftHigh := false, noDrift := false } }) ∧
          (¬Claims.Loses s r i → t.occ? i = some o))

/-- R197, pass 8: a drift part that neither the state FINAL nor a CLOSED loop, named by the record and listing it, accounts
for is removed and counted, and the station marked (log 16). That a member is a record that both its own field and the
loop's list name is read by inference (log 66). -/
def Claims.ScanRemovesDrift : Prop :=
  ∀ (s : State) (c : Scan) (i : Nat) (o : Occ), Claims.Scans s c 8 i → Claims.Swept s → i < 512 → s.occ? i = some o →
    let stray := o.drift.isSome = true ∧ o.state ≠ .final ∧
      ¬∃ l r, o.memberOf = some l ∧ s.loop? l = some r ∧ r.state = .closed ∧ i ∈ r.members
    ∃ t d, exec (.scanStrayDrift 1) s = .next t ∧ t.scan = some d ∧ t.loops = s.loops ∧
      (∀ j, j ≠ i → t.occ? j = s.occ? j) ∧ Claims.OwnersMarked s t (fun j => j = i ∧ stray) ∧
      (stray →
        t.occ? i = some { o with drift := none, flags := { o.flags with driftHigh := false, noDrift := false } } ∧
        d.counts.drifts = Claims.counted c.counts.drifts 1) ∧
      (¬stray → Claims.TablesKept s t ∧ d.counts.drifts = c.counts.drifts)

/-- R197, R198: what one step of each of the last four passes does and counts. -/
def Claims.ScanRestores : Prop :=
  Claims.ScanOrders ∧ Claims.ScanVoids ∧ Claims.ScanUndoes ∧ Claims.ScanRemovesDrift

/-- R195 to R198: what one step of each of the eight passes does and counts. The division into steps is log 8, the order of
records without an epoch log 34, the references of a rewritten list and of a freed unlisted record log 44, the open endpoint
of a voided loop that names another log 62, and the stations that the scan marks logs 16 and 66. Which lists a freed record
leaves, a damaged loop's and a damaged station's among them, is log 15 (DESIGN CHOICE), and that a gathered member with the
damaged mark keeps its drift part log 24; what a step newly finds is log 29. -/
def Obligations.ScanFindings : Prop := Claims.ScanRemoves ∧ Claims.ScanRestores

/-- R195, R198: after the eighth pass the report is completed with the epoch, the part enters READY, and SCAN_DONE is
raised, in one access; nothing else changes. -/
def Claims.ScanDone : Prop :=
  ∀ (s : State) (c : Scan), s.part = .starting → s.resetHeld = false → s.scan = some c → c.pass = 9 → c.ended = none →
    exec .scanDone s = .next { s with
      part := .ready
      scan := some { c with ended := some s.epoch }
      events := { s.events with pending := s.events.pending ||| 0x1000 } }

/-- R195, R198: the progress and the end of the scan (log 8). -/
def Obligations.ScanRuns : Prop := Claims.ScanAdvances ∧ Claims.ScanDone
end

