-- ==== Sys2Proof/Laws/State.lean ====
section
/-! SUPPORT. One lemma for each field under each update of the state: what the update writes, and that it leaves
every other field as it was. -/

namespace Sys2Proof.Machine

variable (s : State)

/-! ### setStation -/

@[simp] theorem State.setStation_part (w : Nat) (e : Station) : (s.setStation w e).part = s.part := rfl
@[simp] theorem State.setStation_resetHeld (w : Nat) (e : Station) : (s.setStation w e).resetHeld = s.resetHeld := rfl
@[simp] theorem State.setStation_clamp (w : Nat) (e : Station) : (s.setStation w e).clamp = s.clamp := rfl
@[simp] theorem State.setStation_stations (w : Nat) (e : Station) : (s.setStation w e).stations = slotSet s.stations w e := rfl
@[simp] theorem State.setStation_recency (w : Nat) (e : Station) : (s.setStation w e).recency = s.recency := rfl
@[simp] theorem State.setStation_occs (w : Nat) (e : Station) : (s.setStation w e).occs = s.occs := rfl
@[simp] theorem State.setStation_loops (w : Nat) (e : Station) : (s.setStation w e).loops = s.loops := rfl
@[simp] theorem State.setStation_constituents (w : Nat) (e : Station) : (s.setStation w e).constituents = s.constituents := rfl
@[simp] theorem State.setStation_sites (w : Nat) (e : Station) : (s.setStation w e).sites = s.sites := rfl
@[simp] theorem State.setStation_constants (w : Nat) (e : Station) : (s.setStation w e).constants = s.constants := rfl
@[simp] theorem State.setStation_window (w : Nat) (e : Station) : (s.setStation w e).window = s.window := rfl
@[simp] theorem State.setStation_lastWindow (w : Nat) (e : Station) : (s.setStation w e).lastWindow = s.lastWindow := rfl
@[simp] theorem State.setStation_front (w : Nat) (e : Station) : (s.setStation w e).front = s.front := rfl
@[simp] theorem State.setStation_engine (w : Nat) (e : Station) : (s.setStation w e).engine = s.engine := rfl
@[simp] theorem State.setStation_clock (w : Nat) (e : Station) : (s.setStation w e).clock = s.clock := rfl
@[simp] theorem State.setStation_expiryDue (w : Nat) (e : Station) : (s.setStation w e).expiryDue = s.expiryDue := rfl
@[simp] theorem State.setStation_snapshot (w : Nat) (e : Station) : (s.setStation w e).snapshot = s.snapshot := rfl
@[simp] theorem State.setStation_link (w : Nat) (e : Station) : (s.setStation w e).link = s.link := rfl
@[simp] theorem State.setStation_events (w : Nat) (e : Station) : (s.setStation w e).events = s.events := rfl
@[simp] theorem State.setStation_scan (w : Nat) (e : Station) : (s.setStation w e).scan = s.scan := rfl
@[simp] theorem State.setStation_idles (w : Nat) (e : Station) : (s.setStation w e).idles = s.idles := rfl
@[simp] theorem State.setStation_late (w : Nat) (e : Station) : (s.setStation w e).late = s.late := rfl
@[simp] theorem State.setStation_pending (w : Nat) (e : Station) : (s.setStation w e).pending = s.pending := rfl

/-! ### setOcc -/

@[simp] theorem State.setOcc_part (i : Nat) (o : Occ) : (s.setOcc i o).part = s.part := rfl
@[simp] theorem State.setOcc_resetHeld (i : Nat) (o : Occ) : (s.setOcc i o).resetHeld = s.resetHeld := rfl
@[simp] theorem State.setOcc_clamp (i : Nat) (o : Occ) : (s.setOcc i o).clamp = s.clamp := rfl
@[simp] theorem State.setOcc_stations (i : Nat) (o : Occ) : (s.setOcc i o).stations = s.stations := rfl
@[simp] theorem State.setOcc_recency (i : Nat) (o : Occ) : (s.setOcc i o).recency = s.recency := rfl
@[simp] theorem State.setOcc_occs (i : Nat) (o : Occ) : (s.setOcc i o).occs = slotSet s.occs i o := rfl
@[simp] theorem State.setOcc_loops (i : Nat) (o : Occ) : (s.setOcc i o).loops = s.loops := rfl
@[simp] theorem State.setOcc_constituents (i : Nat) (o : Occ) : (s.setOcc i o).constituents = s.constituents := rfl
@[simp] theorem State.setOcc_sites (i : Nat) (o : Occ) : (s.setOcc i o).sites = s.sites := rfl
@[simp] theorem State.setOcc_constants (i : Nat) (o : Occ) : (s.setOcc i o).constants = s.constants := rfl
@[simp] theorem State.setOcc_window (i : Nat) (o : Occ) : (s.setOcc i o).window = s.window := rfl
@[simp] theorem State.setOcc_lastWindow (i : Nat) (o : Occ) : (s.setOcc i o).lastWindow = s.lastWindow := rfl
@[simp] theorem State.setOcc_front (i : Nat) (o : Occ) : (s.setOcc i o).front = s.front := rfl
@[simp] theorem State.setOcc_engine (i : Nat) (o : Occ) : (s.setOcc i o).engine = s.engine := rfl
@[simp] theorem State.setOcc_clock (i : Nat) (o : Occ) : (s.setOcc i o).clock = s.clock := rfl
@[simp] theorem State.setOcc_expiryDue (i : Nat) (o : Occ) : (s.setOcc i o).expiryDue = s.expiryDue := rfl
@[simp] theorem State.setOcc_snapshot (i : Nat) (o : Occ) : (s.setOcc i o).snapshot = s.snapshot := rfl
@[simp] theorem State.setOcc_link (i : Nat) (o : Occ) : (s.setOcc i o).link = s.link := rfl
@[simp] theorem State.setOcc_events (i : Nat) (o : Occ) : (s.setOcc i o).events = s.events := rfl
@[simp] theorem State.setOcc_scan (i : Nat) (o : Occ) : (s.setOcc i o).scan = s.scan := rfl
@[simp] theorem State.setOcc_idles (i : Nat) (o : Occ) : (s.setOcc i o).idles = s.idles := rfl
@[simp] theorem State.setOcc_late (i : Nat) (o : Occ) : (s.setOcc i o).late = s.late := rfl
@[simp] theorem State.setOcc_pending (i : Nat) (o : Occ) : (s.setOcc i o).pending = s.pending := rfl

/-! ### setLoop -/

@[simp] theorem State.setLoop_part (l : Nat) (r : Loop) : (s.setLoop l r).part = s.part := rfl
@[simp] theorem State.setLoop_resetHeld (l : Nat) (r : Loop) : (s.setLoop l r).resetHeld = s.resetHeld := rfl
@[simp] theorem State.setLoop_clamp (l : Nat) (r : Loop) : (s.setLoop l r).clamp = s.clamp := rfl
@[simp] theorem State.setLoop_stations (l : Nat) (r : Loop) : (s.setLoop l r).stations = s.stations := rfl
@[simp] theorem State.setLoop_recency (l : Nat) (r : Loop) : (s.setLoop l r).recency = s.recency := rfl
@[simp] theorem State.setLoop_occs (l : Nat) (r : Loop) : (s.setLoop l r).occs = s.occs := rfl
@[simp] theorem State.setLoop_loops (l : Nat) (r : Loop) : (s.setLoop l r).loops = slotSet s.loops l r := rfl
@[simp] theorem State.setLoop_constituents (l : Nat) (r : Loop) : (s.setLoop l r).constituents = s.constituents := rfl
@[simp] theorem State.setLoop_sites (l : Nat) (r : Loop) : (s.setLoop l r).sites = s.sites := rfl
@[simp] theorem State.setLoop_constants (l : Nat) (r : Loop) : (s.setLoop l r).constants = s.constants := rfl
@[simp] theorem State.setLoop_window (l : Nat) (r : Loop) : (s.setLoop l r).window = s.window := rfl
@[simp] theorem State.setLoop_lastWindow (l : Nat) (r : Loop) : (s.setLoop l r).lastWindow = s.lastWindow := rfl
@[simp] theorem State.setLoop_front (l : Nat) (r : Loop) : (s.setLoop l r).front = s.front := rfl
@[simp] theorem State.setLoop_engine (l : Nat) (r : Loop) : (s.setLoop l r).engine = s.engine := rfl
@[simp] theorem State.setLoop_clock (l : Nat) (r : Loop) : (s.setLoop l r).clock = s.clock := rfl
@[simp] theorem State.setLoop_expiryDue (l : Nat) (r : Loop) : (s.setLoop l r).expiryDue = s.expiryDue := rfl
@[simp] theorem State.setLoop_snapshot (l : Nat) (r : Loop) : (s.setLoop l r).snapshot = s.snapshot := rfl
@[simp] theorem State.setLoop_link (l : Nat) (r : Loop) : (s.setLoop l r).link = s.link := rfl
@[simp] theorem State.setLoop_events (l : Nat) (r : Loop) : (s.setLoop l r).events = s.events := rfl
@[simp] theorem State.setLoop_scan (l : Nat) (r : Loop) : (s.setLoop l r).scan = s.scan := rfl
@[simp] theorem State.setLoop_idles (l : Nat) (r : Loop) : (s.setLoop l r).idles = s.idles := rfl
@[simp] theorem State.setLoop_late (l : Nat) (r : Loop) : (s.setLoop l r).late = s.late := rfl
@[simp] theorem State.setLoop_pending (l : Nat) (r : Loop) : (s.setLoop l r).pending = s.pending := rfl

/-! ### setConstituent -/

@[simp] theorem State.setConstituent_part (k : Nat) (c : Constituent) : (s.setConstituent k c).part = s.part := rfl
@[simp] theorem State.setConstituent_resetHeld (k : Nat) (c : Constituent) : (s.setConstituent k c).resetHeld = s.resetHeld := rfl
@[simp] theorem State.setConstituent_clamp (k : Nat) (c : Constituent) : (s.setConstituent k c).clamp = s.clamp := rfl
@[simp] theorem State.setConstituent_stations (k : Nat) (c : Constituent) : (s.setConstituent k c).stations = s.stations := rfl
@[simp] theorem State.setConstituent_recency (k : Nat) (c : Constituent) : (s.setConstituent k c).recency = s.recency := rfl
@[simp] theorem State.setConstituent_occs (k : Nat) (c : Constituent) : (s.setConstituent k c).occs = s.occs := rfl
@[simp] theorem State.setConstituent_loops (k : Nat) (c : Constituent) : (s.setConstituent k c).loops = s.loops := rfl
@[simp] theorem State.setConstituent_constituents (k : Nat) (c : Constituent) : (s.setConstituent k c).constituents = s.constituents.setIfInBounds k c := rfl
@[simp] theorem State.setConstituent_sites (k : Nat) (c : Constituent) : (s.setConstituent k c).sites = s.sites := rfl
@[simp] theorem State.setConstituent_constants (k : Nat) (c : Constituent) : (s.setConstituent k c).constants = s.constants := rfl
@[simp] theorem State.setConstituent_window (k : Nat) (c : Constituent) : (s.setConstituent k c).window = s.window := rfl
@[simp] theorem State.setConstituent_lastWindow (k : Nat) (c : Constituent) : (s.setConstituent k c).lastWindow = s.lastWindow := rfl
@[simp] theorem State.setConstituent_front (k : Nat) (c : Constituent) : (s.setConstituent k c).front = s.front := rfl
@[simp] theorem State.setConstituent_engine (k : Nat) (c : Constituent) : (s.setConstituent k c).engine = s.engine := rfl
@[simp] theorem State.setConstituent_clock (k : Nat) (c : Constituent) : (s.setConstituent k c).clock = s.clock := rfl
@[simp] theorem State.setConstituent_expiryDue (k : Nat) (c : Constituent) : (s.setConstituent k c).expiryDue = s.expiryDue := rfl
@[simp] theorem State.setConstituent_snapshot (k : Nat) (c : Constituent) : (s.setConstituent k c).snapshot = s.snapshot := rfl
@[simp] theorem State.setConstituent_link (k : Nat) (c : Constituent) : (s.setConstituent k c).link = s.link := rfl
@[simp] theorem State.setConstituent_events (k : Nat) (c : Constituent) : (s.setConstituent k c).events = s.events := rfl
@[simp] theorem State.setConstituent_scan (k : Nat) (c : Constituent) : (s.setConstituent k c).scan = s.scan := rfl
@[simp] theorem State.setConstituent_idles (k : Nat) (c : Constituent) : (s.setConstituent k c).idles = s.idles := rfl
@[simp] theorem State.setConstituent_late (k : Nat) (c : Constituent) : (s.setConstituent k c).late = s.late := rfl
@[simp] theorem State.setConstituent_pending (k : Nat) (c : Constituent) : (s.setConstituent k c).pending = s.pending := rfl

/-! ### setSite -/

@[simp] theorem State.setSite_part (k : Nat) (c : Site) : (s.setSite k c).part = s.part := rfl
@[simp] theorem State.setSite_resetHeld (k : Nat) (c : Site) : (s.setSite k c).resetHeld = s.resetHeld := rfl
@[simp] theorem State.setSite_clamp (k : Nat) (c : Site) : (s.setSite k c).clamp = s.clamp := rfl
@[simp] theorem State.setSite_stations (k : Nat) (c : Site) : (s.setSite k c).stations = s.stations := rfl
@[simp] theorem State.setSite_recency (k : Nat) (c : Site) : (s.setSite k c).recency = s.recency := rfl
@[simp] theorem State.setSite_occs (k : Nat) (c : Site) : (s.setSite k c).occs = s.occs := rfl
@[simp] theorem State.setSite_loops (k : Nat) (c : Site) : (s.setSite k c).loops = s.loops := rfl
@[simp] theorem State.setSite_constituents (k : Nat) (c : Site) : (s.setSite k c).constituents = s.constituents := rfl
@[simp] theorem State.setSite_sites (k : Nat) (c : Site) : (s.setSite k c).sites = s.sites.setIfInBounds k c := rfl
@[simp] theorem State.setSite_constants (k : Nat) (c : Site) : (s.setSite k c).constants = s.constants := rfl
@[simp] theorem State.setSite_window (k : Nat) (c : Site) : (s.setSite k c).window = s.window := rfl
@[simp] theorem State.setSite_lastWindow (k : Nat) (c : Site) : (s.setSite k c).lastWindow = s.lastWindow := rfl
@[simp] theorem State.setSite_front (k : Nat) (c : Site) : (s.setSite k c).front = s.front := rfl
@[simp] theorem State.setSite_engine (k : Nat) (c : Site) : (s.setSite k c).engine = s.engine := rfl
@[simp] theorem State.setSite_clock (k : Nat) (c : Site) : (s.setSite k c).clock = s.clock := rfl
@[simp] theorem State.setSite_expiryDue (k : Nat) (c : Site) : (s.setSite k c).expiryDue = s.expiryDue := rfl
@[simp] theorem State.setSite_snapshot (k : Nat) (c : Site) : (s.setSite k c).snapshot = s.snapshot := rfl
@[simp] theorem State.setSite_link (k : Nat) (c : Site) : (s.setSite k c).link = s.link := rfl
@[simp] theorem State.setSite_events (k : Nat) (c : Site) : (s.setSite k c).events = s.events := rfl
@[simp] theorem State.setSite_scan (k : Nat) (c : Site) : (s.setSite k c).scan = s.scan := rfl
@[simp] theorem State.setSite_idles (k : Nat) (c : Site) : (s.setSite k c).idles = s.idles := rfl
@[simp] theorem State.setSite_late (k : Nat) (c : Site) : (s.setSite k c).late = s.late := rfl
@[simp] theorem State.setSite_pending (k : Nat) (c : Site) : (s.setSite k c).pending = s.pending := rfl

/-! ### setConstants -/

@[simp] theorem State.setConstants_part (c : Constants) : (s.setConstants c).part = s.part := rfl
@[simp] theorem State.setConstants_resetHeld (c : Constants) : (s.setConstants c).resetHeld = s.resetHeld := rfl
@[simp] theorem State.setConstants_clamp (c : Constants) : (s.setConstants c).clamp = s.clamp := rfl
@[simp] theorem State.setConstants_stations (c : Constants) : (s.setConstants c).stations = s.stations := rfl
@[simp] theorem State.setConstants_recency (c : Constants) : (s.setConstants c).recency = s.recency := rfl
@[simp] theorem State.setConstants_occs (c : Constants) : (s.setConstants c).occs = s.occs := rfl
@[simp] theorem State.setConstants_loops (c : Constants) : (s.setConstants c).loops = s.loops := rfl
@[simp] theorem State.setConstants_constituents (c : Constants) : (s.setConstants c).constituents = s.constituents := rfl
@[simp] theorem State.setConstants_sites (c : Constants) : (s.setConstants c).sites = s.sites := rfl
@[simp] theorem State.setConstants_constants (c : Constants) : (s.setConstants c).constants = c := rfl
@[simp] theorem State.setConstants_window (c : Constants) : (s.setConstants c).window = s.window := rfl
@[simp] theorem State.setConstants_lastWindow (c : Constants) : (s.setConstants c).lastWindow = s.lastWindow := rfl
@[simp] theorem State.setConstants_front (c : Constants) : (s.setConstants c).front = s.front := rfl
@[simp] theorem State.setConstants_engine (c : Constants) : (s.setConstants c).engine = s.engine := rfl
@[simp] theorem State.setConstants_clock (c : Constants) : (s.setConstants c).clock = s.clock := rfl
@[simp] theorem State.setConstants_expiryDue (c : Constants) : (s.setConstants c).expiryDue = s.expiryDue := rfl
@[simp] theorem State.setConstants_snapshot (c : Constants) : (s.setConstants c).snapshot = s.snapshot := rfl
@[simp] theorem State.setConstants_link (c : Constants) : (s.setConstants c).link = s.link := rfl
@[simp] theorem State.setConstants_events (c : Constants) : (s.setConstants c).events = s.events := rfl
@[simp] theorem State.setConstants_scan (c : Constants) : (s.setConstants c).scan = s.scan := rfl
@[simp] theorem State.setConstants_idles (c : Constants) : (s.setConstants c).idles = s.idles := rfl
@[simp] theorem State.setConstants_late (c : Constants) : (s.setConstants c).late = s.late := rfl
@[simp] theorem State.setConstants_pending (c : Constants) : (s.setConstants c).pending = s.pending := rfl

/-! ### putStation -/

@[simp] theorem State.putStation_part (w : Nat) (e : Station) : (s.putStation w e).part = s.part := rfl
@[simp] theorem State.putStation_resetHeld (w : Nat) (e : Station) : (s.putStation w e).resetHeld = s.resetHeld := rfl
@[simp] theorem State.putStation_clamp (w : Nat) (e : Station) : (s.putStation w e).clamp = s.clamp := rfl
@[simp] theorem State.putStation_stations (w : Nat) (e : Station) : (s.putStation w e).stations = slotSet s.stations w { e with sound := true } := rfl
@[simp] theorem State.putStation_recency (w : Nat) (e : Station) : (s.putStation w e).recency = s.recency := rfl
@[simp] theorem State.putStation_occs (w : Nat) (e : Station) : (s.putStation w e).occs = s.occs := rfl
@[simp] theorem State.putStation_loops (w : Nat) (e : Station) : (s.putStation w e).loops = s.loops := rfl
@[simp] theorem State.putStation_constituents (w : Nat) (e : Station) : (s.putStation w e).constituents = s.constituents := rfl
@[simp] theorem State.putStation_sites (w : Nat) (e : Station) : (s.putStation w e).sites = s.sites := rfl
@[simp] theorem State.putStation_constants (w : Nat) (e : Station) : (s.putStation w e).constants = s.constants := rfl
@[simp] theorem State.putStation_window (w : Nat) (e : Station) : (s.putStation w e).window = s.window := rfl
@[simp] theorem State.putStation_lastWindow (w : Nat) (e : Station) : (s.putStation w e).lastWindow = s.lastWindow := rfl
@[simp] theorem State.putStation_front (w : Nat) (e : Station) : (s.putStation w e).front = s.front := rfl
@[simp] theorem State.putStation_engine (w : Nat) (e : Station) : (s.putStation w e).engine = s.engine := rfl
@[simp] theorem State.putStation_clock (w : Nat) (e : Station) : (s.putStation w e).clock = s.clock := rfl
@[simp] theorem State.putStation_expiryDue (w : Nat) (e : Station) : (s.putStation w e).expiryDue = s.expiryDue := rfl
@[simp] theorem State.putStation_snapshot (w : Nat) (e : Station) : (s.putStation w e).snapshot = s.snapshot := rfl
@[simp] theorem State.putStation_link (w : Nat) (e : Station) : (s.putStation w e).link = s.link := rfl
@[simp] theorem State.putStation_events (w : Nat) (e : Station) : (s.putStation w e).events = s.events := rfl
@[simp] theorem State.putStation_scan (w : Nat) (e : Station) : (s.putStation w e).scan = s.scan := rfl
@[simp] theorem State.putStation_idles (w : Nat) (e : Station) : (s.putStation w e).idles = s.idles := rfl
@[simp] theorem State.putStation_late (w : Nat) (e : Station) : (s.putStation w e).late = s.late := rfl
@[simp] theorem State.putStation_pending (w : Nat) (e : Station) : (s.putStation w e).pending = s.pending := rfl

/-! ### putOcc -/

@[simp] theorem State.putOcc_part (i : Nat) (o : Occ) : (s.putOcc i o).part = s.part := rfl
@[simp] theorem State.putOcc_resetHeld (i : Nat) (o : Occ) : (s.putOcc i o).resetHeld = s.resetHeld := rfl
@[simp] theorem State.putOcc_clamp (i : Nat) (o : Occ) : (s.putOcc i o).clamp = s.clamp := rfl
@[simp] theorem State.putOcc_stations (i : Nat) (o : Occ) : (s.putOcc i o).stations = s.stations := rfl
@[simp] theorem State.putOcc_recency (i : Nat) (o : Occ) : (s.putOcc i o).recency = s.recency := rfl
@[simp] theorem State.putOcc_occs (i : Nat) (o : Occ) : (s.putOcc i o).occs = slotSet s.occs i { o with sound := true } := rfl
@[simp] theorem State.putOcc_loops (i : Nat) (o : Occ) : (s.putOcc i o).loops = s.loops := rfl
@[simp] theorem State.putOcc_constituents (i : Nat) (o : Occ) : (s.putOcc i o).constituents = s.constituents := rfl
@[simp] theorem State.putOcc_sites (i : Nat) (o : Occ) : (s.putOcc i o).sites = s.sites := rfl
@[simp] theorem State.putOcc_constants (i : Nat) (o : Occ) : (s.putOcc i o).constants = s.constants := rfl
@[simp] theorem State.putOcc_window (i : Nat) (o : Occ) : (s.putOcc i o).window = s.window := rfl
@[simp] theorem State.putOcc_lastWindow (i : Nat) (o : Occ) : (s.putOcc i o).lastWindow = s.lastWindow := rfl
@[simp] theorem State.putOcc_front (i : Nat) (o : Occ) : (s.putOcc i o).front = s.front := rfl
@[simp] theorem State.putOcc_engine (i : Nat) (o : Occ) : (s.putOcc i o).engine = s.engine := rfl
@[simp] theorem State.putOcc_clock (i : Nat) (o : Occ) : (s.putOcc i o).clock = s.clock := rfl
@[simp] theorem State.putOcc_expiryDue (i : Nat) (o : Occ) : (s.putOcc i o).expiryDue = s.expiryDue := rfl
@[simp] theorem State.putOcc_snapshot (i : Nat) (o : Occ) : (s.putOcc i o).snapshot = s.snapshot := rfl
@[simp] theorem State.putOcc_link (i : Nat) (o : Occ) : (s.putOcc i o).link = s.link := rfl
@[simp] theorem State.putOcc_events (i : Nat) (o : Occ) : (s.putOcc i o).events = s.events := rfl
@[simp] theorem State.putOcc_scan (i : Nat) (o : Occ) : (s.putOcc i o).scan = s.scan := rfl
@[simp] theorem State.putOcc_idles (i : Nat) (o : Occ) : (s.putOcc i o).idles = s.idles := rfl
@[simp] theorem State.putOcc_late (i : Nat) (o : Occ) : (s.putOcc i o).late = s.late := rfl
@[simp] theorem State.putOcc_pending (i : Nat) (o : Occ) : (s.putOcc i o).pending = s.pending := rfl

/-! ### putLoop -/

@[simp] theorem State.putLoop_part (l : Nat) (r : Loop) : (s.putLoop l r).part = s.part := rfl
@[simp] theorem State.putLoop_resetHeld (l : Nat) (r : Loop) : (s.putLoop l r).resetHeld = s.resetHeld := rfl
@[simp] theorem State.putLoop_clamp (l : Nat) (r : Loop) : (s.putLoop l r).clamp = s.clamp := rfl
@[simp] theorem State.putLoop_stations (l : Nat) (r : Loop) : (s.putLoop l r).stations = s.stations := rfl
@[simp] theorem State.putLoop_recency (l : Nat) (r : Loop) : (s.putLoop l r).recency = s.recency := rfl
@[simp] theorem State.putLoop_occs (l : Nat) (r : Loop) : (s.putLoop l r).occs = s.occs := rfl
@[simp] theorem State.putLoop_loops (l : Nat) (r : Loop) : (s.putLoop l r).loops = slotSet s.loops l { r with sound := true } := rfl
@[simp] theorem State.putLoop_constituents (l : Nat) (r : Loop) : (s.putLoop l r).constituents = s.constituents := rfl
@[simp] theorem State.putLoop_sites (l : Nat) (r : Loop) : (s.putLoop l r).sites = s.sites := rfl
@[simp] theorem State.putLoop_constants (l : Nat) (r : Loop) : (s.putLoop l r).constants = s.constants := rfl
@[simp] theorem State.putLoop_window (l : Nat) (r : Loop) : (s.putLoop l r).window = s.window := rfl
@[simp] theorem State.putLoop_lastWindow (l : Nat) (r : Loop) : (s.putLoop l r).lastWindow = s.lastWindow := rfl
@[simp] theorem State.putLoop_front (l : Nat) (r : Loop) : (s.putLoop l r).front = s.front := rfl
@[simp] theorem State.putLoop_engine (l : Nat) (r : Loop) : (s.putLoop l r).engine = s.engine := rfl
@[simp] theorem State.putLoop_clock (l : Nat) (r : Loop) : (s.putLoop l r).clock = s.clock := rfl
@[simp] theorem State.putLoop_expiryDue (l : Nat) (r : Loop) : (s.putLoop l r).expiryDue = s.expiryDue := rfl
@[simp] theorem State.putLoop_snapshot (l : Nat) (r : Loop) : (s.putLoop l r).snapshot = s.snapshot := rfl
@[simp] theorem State.putLoop_link (l : Nat) (r : Loop) : (s.putLoop l r).link = s.link := rfl
@[simp] theorem State.putLoop_events (l : Nat) (r : Loop) : (s.putLoop l r).events = s.events := rfl
@[simp] theorem State.putLoop_scan (l : Nat) (r : Loop) : (s.putLoop l r).scan = s.scan := rfl
@[simp] theorem State.putLoop_idles (l : Nat) (r : Loop) : (s.putLoop l r).idles = s.idles := rfl
@[simp] theorem State.putLoop_late (l : Nat) (r : Loop) : (s.putLoop l r).late = s.late := rfl
@[simp] theorem State.putLoop_pending (l : Nat) (r : Loop) : (s.putLoop l r).pending = s.pending := rfl

/-! ### raise -/

@[simp] theorem State.raise_part (e : Event) : (s.raise e).part = s.part := rfl
@[simp] theorem State.raise_resetHeld (e : Event) : (s.raise e).resetHeld = s.resetHeld := rfl
@[simp] theorem State.raise_clamp (e : Event) : (s.raise e).clamp = s.clamp := rfl
@[simp] theorem State.raise_stations (e : Event) : (s.raise e).stations = s.stations := rfl
@[simp] theorem State.raise_recency (e : Event) : (s.raise e).recency = s.recency := rfl
@[simp] theorem State.raise_occs (e : Event) : (s.raise e).occs = s.occs := rfl
@[simp] theorem State.raise_loops (e : Event) : (s.raise e).loops = s.loops := rfl
@[simp] theorem State.raise_constituents (e : Event) : (s.raise e).constituents = s.constituents := rfl
@[simp] theorem State.raise_sites (e : Event) : (s.raise e).sites = s.sites := rfl
@[simp] theorem State.raise_constants (e : Event) : (s.raise e).constants = s.constants := rfl
@[simp] theorem State.raise_window (e : Event) : (s.raise e).window = s.window := rfl
@[simp] theorem State.raise_lastWindow (e : Event) : (s.raise e).lastWindow = s.lastWindow := rfl
@[simp] theorem State.raise_front (e : Event) : (s.raise e).front = s.front := rfl
@[simp] theorem State.raise_engine (e : Event) : (s.raise e).engine = s.engine := rfl
@[simp] theorem State.raise_clock (e : Event) : (s.raise e).clock = s.clock := rfl
@[simp] theorem State.raise_expiryDue (e : Event) : (s.raise e).expiryDue = s.expiryDue := rfl
@[simp] theorem State.raise_snapshot (e : Event) : (s.raise e).snapshot = s.snapshot := rfl
@[simp] theorem State.raise_link (e : Event) : (s.raise e).link = s.link := rfl
@[simp] theorem State.raise_events (e : Event) : (s.raise e).events = s.events.raise s.resetHeld e := rfl
@[simp] theorem State.raise_scan (e : Event) : (s.raise e).scan = s.scan := rfl
@[simp] theorem State.raise_idles (e : Event) : (s.raise e).idles = s.idles := rfl
@[simp] theorem State.raise_late (e : Event) : (s.raise e).late = s.late := rfl
@[simp] theorem State.raise_pending (e : Event) : (s.raise e).pending = s.pending := rfl

/-! ### respond -/

@[simp] theorem State.respond_part (st : Status) (b : List Byte) : (s.respond st b).part = s.part := rfl
@[simp] theorem State.respond_resetHeld (st : Status) (b : List Byte) : (s.respond st b).resetHeld = s.resetHeld := rfl
@[simp] theorem State.respond_clamp (st : Status) (b : List Byte) : (s.respond st b).clamp = s.clamp := rfl
@[simp] theorem State.respond_stations (st : Status) (b : List Byte) : (s.respond st b).stations = s.stations := rfl
@[simp] theorem State.respond_recency (st : Status) (b : List Byte) : (s.respond st b).recency = s.recency := rfl
@[simp] theorem State.respond_occs (st : Status) (b : List Byte) : (s.respond st b).occs = s.occs := rfl
@[simp] theorem State.respond_loops (st : Status) (b : List Byte) : (s.respond st b).loops = s.loops := rfl
@[simp] theorem State.respond_constituents (st : Status) (b : List Byte) : (s.respond st b).constituents = s.constituents := rfl
@[simp] theorem State.respond_sites (st : Status) (b : List Byte) : (s.respond st b).sites = s.sites := rfl
@[simp] theorem State.respond_constants (st : Status) (b : List Byte) : (s.respond st b).constants = s.constants := rfl
@[simp] theorem State.respond_window (st : Status) (b : List Byte) : (s.respond st b).window = s.window := rfl
@[simp] theorem State.respond_lastWindow (st : Status) (b : List Byte) : (s.respond st b).lastWindow = s.lastWindow := rfl
@[simp] theorem State.respond_front (st : Status) (b : List Byte) : (s.respond st b).front = s.front := rfl
@[simp] theorem State.respond_engine (st : Status) (b : List Byte) : (s.respond st b).engine = s.engine := rfl
@[simp] theorem State.respond_clock (st : Status) (b : List Byte) : (s.respond st b).clock = s.clock := rfl
@[simp] theorem State.respond_expiryDue (st : Status) (b : List Byte) : (s.respond st b).expiryDue = s.expiryDue := rfl
@[simp] theorem State.respond_snapshot (st : Status) (b : List Byte) : (s.respond st b).snapshot = s.snapshot := rfl
@[simp] theorem State.respond_link (st : Status) (b : List Byte) : (s.respond st b).link = s.link.complete { status := st, payload := b } := rfl
@[simp] theorem State.respond_events (st : Status) (b : List Byte) : (s.respond st b).events = s.events := rfl
@[simp] theorem State.respond_scan (st : Status) (b : List Byte) : (s.respond st b).scan = s.scan := rfl
@[simp] theorem State.respond_idles (st : Status) (b : List Byte) : (s.respond st b).idles = s.idles := rfl
@[simp] theorem State.respond_late (st : Status) (b : List Byte) : (s.respond st b).late = s.late := rfl
@[simp] theorem State.respond_pending (st : Status) (b : List Byte) : (s.respond st b).pending = s.pending := rfl

/-! ### refuse -/

@[simp] theorem State.refuse_part (st : Status) : (s.refuse st).part = s.part := rfl
@[simp] theorem State.refuse_resetHeld (st : Status) : (s.refuse st).resetHeld = s.resetHeld := rfl
@[simp] theorem State.refuse_clamp (st : Status) : (s.refuse st).clamp = s.clamp := rfl
@[simp] theorem State.refuse_stations (st : Status) : (s.refuse st).stations = s.stations := rfl
@[simp] theorem State.refuse_recency (st : Status) : (s.refuse st).recency = s.recency := rfl
@[simp] theorem State.refuse_occs (st : Status) : (s.refuse st).occs = s.occs := rfl
@[simp] theorem State.refuse_loops (st : Status) : (s.refuse st).loops = s.loops := rfl
@[simp] theorem State.refuse_constituents (st : Status) : (s.refuse st).constituents = s.constituents := rfl
@[simp] theorem State.refuse_sites (st : Status) : (s.refuse st).sites = s.sites := rfl
@[simp] theorem State.refuse_constants (st : Status) : (s.refuse st).constants = s.constants := rfl
@[simp] theorem State.refuse_window (st : Status) : (s.refuse st).window = s.window := rfl
@[simp] theorem State.refuse_lastWindow (st : Status) : (s.refuse st).lastWindow = s.lastWindow := rfl
@[simp] theorem State.refuse_front (st : Status) : (s.refuse st).front = s.front := rfl
@[simp] theorem State.refuse_engine (st : Status) : (s.refuse st).engine = s.engine := rfl
@[simp] theorem State.refuse_clock (st : Status) : (s.refuse st).clock = s.clock := rfl
@[simp] theorem State.refuse_expiryDue (st : Status) : (s.refuse st).expiryDue = s.expiryDue := rfl
@[simp] theorem State.refuse_snapshot (st : Status) : (s.refuse st).snapshot = s.snapshot := rfl
@[simp] theorem State.refuse_link (st : Status) : (s.refuse st).link = s.link.complete { status := st, payload := [] } := rfl
@[simp] theorem State.refuse_events (st : Status) : (s.refuse st).events = s.events := rfl
@[simp] theorem State.refuse_scan (st : Status) : (s.refuse st).scan = s.scan := rfl
@[simp] theorem State.refuse_idles (st : Status) : (s.refuse st).idles = s.idles := rfl
@[simp] theorem State.refuse_late (st : Status) : (s.refuse st).late = s.late := rfl
@[simp] theorem State.refuse_pending (st : Status) : (s.refuse st).pending = s.pending := rfl

/-! ### setFront -/

@[simp] theorem State.setFront_part (f : FrontEnd) : (s.setFront f).part = s.part := rfl
@[simp] theorem State.setFront_resetHeld (f : FrontEnd) : (s.setFront f).resetHeld = s.resetHeld := rfl
@[simp] theorem State.setFront_clamp (f : FrontEnd) : (s.setFront f).clamp = s.clamp := rfl
@[simp] theorem State.setFront_stations (f : FrontEnd) : (s.setFront f).stations = s.stations := rfl
@[simp] theorem State.setFront_recency (f : FrontEnd) : (s.setFront f).recency = s.recency := rfl
@[simp] theorem State.setFront_occs (f : FrontEnd) : (s.setFront f).occs = s.occs := rfl
@[simp] theorem State.setFront_loops (f : FrontEnd) : (s.setFront f).loops = s.loops := rfl
@[simp] theorem State.setFront_constituents (f : FrontEnd) : (s.setFront f).constituents = s.constituents := rfl
@[simp] theorem State.setFront_sites (f : FrontEnd) : (s.setFront f).sites = s.sites := rfl
@[simp] theorem State.setFront_constants (f : FrontEnd) : (s.setFront f).constants = s.constants := rfl
@[simp] theorem State.setFront_window (f : FrontEnd) : (s.setFront f).window = s.window := rfl
@[simp] theorem State.setFront_lastWindow (f : FrontEnd) : (s.setFront f).lastWindow = s.lastWindow := rfl
@[simp] theorem State.setFront_front (f : FrontEnd) : (s.setFront f).front = f := rfl
@[simp] theorem State.setFront_engine (f : FrontEnd) : (s.setFront f).engine = s.engine := rfl
@[simp] theorem State.setFront_clock (f : FrontEnd) : (s.setFront f).clock = s.clock := rfl
@[simp] theorem State.setFront_expiryDue (f : FrontEnd) : (s.setFront f).expiryDue = s.expiryDue := rfl
@[simp] theorem State.setFront_snapshot (f : FrontEnd) : (s.setFront f).snapshot = s.snapshot := rfl
@[simp] theorem State.setFront_link (f : FrontEnd) : (s.setFront f).link = s.link := rfl
@[simp] theorem State.setFront_events (f : FrontEnd) : (s.setFront f).events = s.events := rfl
@[simp] theorem State.setFront_scan (f : FrontEnd) : (s.setFront f).scan = s.scan := rfl
@[simp] theorem State.setFront_idles (f : FrontEnd) : (s.setFront f).idles = s.idles := rfl
@[simp] theorem State.setFront_late (f : FrontEnd) : (s.setFront f).late = s.late := rfl
@[simp] theorem State.setFront_pending (f : FrontEnd) : (s.setFront f).pending = s.pending := rfl

/-! ### setFlight -/

@[simp] theorem State.setFlight_part (f : Flight) : (s.setFlight f).part = s.part := rfl
@[simp] theorem State.setFlight_resetHeld (f : Flight) : (s.setFlight f).resetHeld = s.resetHeld := rfl
@[simp] theorem State.setFlight_clamp (f : Flight) : (s.setFlight f).clamp = s.clamp := rfl
@[simp] theorem State.setFlight_stations (f : Flight) : (s.setFlight f).stations = s.stations := rfl
@[simp] theorem State.setFlight_recency (f : Flight) : (s.setFlight f).recency = s.recency := rfl
@[simp] theorem State.setFlight_occs (f : Flight) : (s.setFlight f).occs = s.occs := rfl
@[simp] theorem State.setFlight_loops (f : Flight) : (s.setFlight f).loops = s.loops := rfl
@[simp] theorem State.setFlight_constituents (f : Flight) : (s.setFlight f).constituents = s.constituents := rfl
@[simp] theorem State.setFlight_sites (f : Flight) : (s.setFlight f).sites = s.sites := rfl
@[simp] theorem State.setFlight_constants (f : Flight) : (s.setFlight f).constants = s.constants := rfl
@[simp] theorem State.setFlight_window (f : Flight) : (s.setFlight f).window = s.window := rfl
@[simp] theorem State.setFlight_lastWindow (f : Flight) : (s.setFlight f).lastWindow = s.lastWindow := rfl
@[simp] theorem State.setFlight_front (f : Flight) : (s.setFlight f).front = s.front := rfl
@[simp] theorem State.setFlight_engine (f : Flight) : (s.setFlight f).engine = { s.engine with flight := some f } := rfl
@[simp] theorem State.setFlight_clock (f : Flight) : (s.setFlight f).clock = s.clock := rfl
@[simp] theorem State.setFlight_expiryDue (f : Flight) : (s.setFlight f).expiryDue = s.expiryDue := rfl
@[simp] theorem State.setFlight_snapshot (f : Flight) : (s.setFlight f).snapshot = s.snapshot := rfl
@[simp] theorem State.setFlight_link (f : Flight) : (s.setFlight f).link = s.link := rfl
@[simp] theorem State.setFlight_events (f : Flight) : (s.setFlight f).events = s.events := rfl
@[simp] theorem State.setFlight_scan (f : Flight) : (s.setFlight f).scan = s.scan := rfl
@[simp] theorem State.setFlight_idles (f : Flight) : (s.setFlight f).idles = s.idles := rfl
@[simp] theorem State.setFlight_late (f : Flight) : (s.setFlight f).late = s.late := rfl
@[simp] theorem State.setFlight_pending (f : Flight) : (s.setFlight f).pending = s.pending := rfl

/-! ### count -/

@[simp] theorem State.count_part (f : ScanCounts → ScanCounts) : (s.count f).part = s.part := rfl
@[simp] theorem State.count_resetHeld (f : ScanCounts → ScanCounts) : (s.count f).resetHeld = s.resetHeld := rfl
@[simp] theorem State.count_clamp (f : ScanCounts → ScanCounts) : (s.count f).clamp = s.clamp := rfl
@[simp] theorem State.count_stations (f : ScanCounts → ScanCounts) : (s.count f).stations = s.stations := rfl
@[simp] theorem State.count_recency (f : ScanCounts → ScanCounts) : (s.count f).recency = s.recency := rfl
@[simp] theorem State.count_occs (f : ScanCounts → ScanCounts) : (s.count f).occs = s.occs := rfl
@[simp] theorem State.count_loops (f : ScanCounts → ScanCounts) : (s.count f).loops = s.loops := rfl
@[simp] theorem State.count_constituents (f : ScanCounts → ScanCounts) : (s.count f).constituents = s.constituents := rfl
@[simp] theorem State.count_sites (f : ScanCounts → ScanCounts) : (s.count f).sites = s.sites := rfl
@[simp] theorem State.count_constants (f : ScanCounts → ScanCounts) : (s.count f).constants = s.constants := rfl
@[simp] theorem State.count_window (f : ScanCounts → ScanCounts) : (s.count f).window = s.window := rfl
@[simp] theorem State.count_lastWindow (f : ScanCounts → ScanCounts) : (s.count f).lastWindow = s.lastWindow := rfl
@[simp] theorem State.count_front (f : ScanCounts → ScanCounts) : (s.count f).front = s.front := rfl
@[simp] theorem State.count_engine (f : ScanCounts → ScanCounts) : (s.count f).engine = s.engine := rfl
@[simp] theorem State.count_clock (f : ScanCounts → ScanCounts) : (s.count f).clock = s.clock := rfl
@[simp] theorem State.count_expiryDue (f : ScanCounts → ScanCounts) : (s.count f).expiryDue = s.expiryDue := rfl
@[simp] theorem State.count_snapshot (f : ScanCounts → ScanCounts) : (s.count f).snapshot = s.snapshot := rfl
@[simp] theorem State.count_link (f : ScanCounts → ScanCounts) : (s.count f).link = s.link := rfl
@[simp] theorem State.count_events (f : ScanCounts → ScanCounts) : (s.count f).events = s.events := rfl
@[simp] theorem State.count_scan (f : ScanCounts → ScanCounts) : (s.count f).scan = s.scan.map fun c => { c with counts := f c.counts } := rfl
@[simp] theorem State.count_idles (f : ScanCounts → ScanCounts) : (s.count f).idles = s.idles := rfl
@[simp] theorem State.count_late (f : ScanCounts → ScanCounts) : (s.count f).late = s.late := rfl
@[simp] theorem State.count_pending (f : ScanCounts → ScanCounts) : (s.count f).pending = s.pending := rfl

/-! ### unwindow -/

@[simp] theorem State.unwindow_part (i : Nat) : (s.unwindow i).part = s.part := rfl
@[simp] theorem State.unwindow_resetHeld (i : Nat) : (s.unwindow i).resetHeld = s.resetHeld := rfl
@[simp] theorem State.unwindow_clamp (i : Nat) : (s.unwindow i).clamp = s.clamp := rfl
@[simp] theorem State.unwindow_stations (i : Nat) : (s.unwindow i).stations = s.stations := rfl
@[simp] theorem State.unwindow_recency (i : Nat) : (s.unwindow i).recency = s.recency := rfl
@[simp] theorem State.unwindow_occs (i : Nat) : (s.unwindow i).occs = s.occs := rfl
@[simp] theorem State.unwindow_loops (i : Nat) : (s.unwindow i).loops = s.loops := rfl
@[simp] theorem State.unwindow_constituents (i : Nat) : (s.unwindow i).constituents = s.constituents := rfl
@[simp] theorem State.unwindow_sites (i : Nat) : (s.unwindow i).sites = s.sites := rfl
@[simp] theorem State.unwindow_constants (i : Nat) : (s.unwindow i).constants = s.constants := rfl
@[simp] theorem State.unwindow_lastWindow (i : Nat) : (s.unwindow i).lastWindow = s.lastWindow := rfl
@[simp] theorem State.unwindow_front (i : Nat) : (s.unwindow i).front = s.front := rfl
@[simp] theorem State.unwindow_engine (i : Nat) : (s.unwindow i).engine = s.engine := rfl
@[simp] theorem State.unwindow_clock (i : Nat) : (s.unwindow i).clock = s.clock := rfl
@[simp] theorem State.unwindow_expiryDue (i : Nat) : (s.unwindow i).expiryDue = s.expiryDue := rfl
@[simp] theorem State.unwindow_snapshot (i : Nat) : (s.unwindow i).snapshot = s.snapshot := rfl
@[simp] theorem State.unwindow_link (i : Nat) : (s.unwindow i).link = s.link := rfl
@[simp] theorem State.unwindow_events (i : Nat) : (s.unwindow i).events = s.events := rfl
@[simp] theorem State.unwindow_scan (i : Nat) : (s.unwindow i).scan = s.scan := rfl
@[simp] theorem State.unwindow_idles (i : Nat) : (s.unwindow i).idles = s.idles := rfl
@[simp] theorem State.unwindow_late (i : Nat) : (s.unwindow i).late = s.late := rfl
@[simp] theorem State.unwindow_pending (i : Nat) : (s.unwindow i).pending = s.pending := rfl

/-! ### freeLoop -/

@[simp] theorem State.freeLoop_part (l : Nat) : (s.freeLoop l).part = s.part := rfl
@[simp] theorem State.freeLoop_resetHeld (l : Nat) : (s.freeLoop l).resetHeld = s.resetHeld := rfl
@[simp] theorem State.freeLoop_clamp (l : Nat) : (s.freeLoop l).clamp = s.clamp := rfl
@[simp] theorem State.freeLoop_stations (l : Nat) : (s.freeLoop l).stations = s.stations := rfl
@[simp] theorem State.freeLoop_recency (l : Nat) : (s.freeLoop l).recency = s.recency := rfl
@[simp] theorem State.freeLoop_occs (l : Nat) : (s.freeLoop l).occs = s.occs := rfl
@[simp] theorem State.freeLoop_loops (l : Nat) : (s.freeLoop l).loops = slotErase s.loops l := rfl
@[simp] theorem State.freeLoop_constituents (l : Nat) : (s.freeLoop l).constituents = s.constituents := rfl
@[simp] theorem State.freeLoop_sites (l : Nat) : (s.freeLoop l).sites = s.sites := rfl
@[simp] theorem State.freeLoop_constants (l : Nat) : (s.freeLoop l).constants = s.constants := rfl
@[simp] theorem State.freeLoop_window (l : Nat) : (s.freeLoop l).window = s.window := rfl
@[simp] theorem State.freeLoop_lastWindow (l : Nat) : (s.freeLoop l).lastWindow = s.lastWindow := rfl
@[simp] theorem State.freeLoop_front (l : Nat) : (s.freeLoop l).front = s.front := rfl
@[simp] theorem State.freeLoop_engine (l : Nat) : (s.freeLoop l).engine = s.engine := rfl
@[simp] theorem State.freeLoop_clock (l : Nat) : (s.freeLoop l).clock = s.clock := rfl
@[simp] theorem State.freeLoop_expiryDue (l : Nat) : (s.freeLoop l).expiryDue = s.expiryDue.filter (· ≠ l) := rfl
@[simp] theorem State.freeLoop_snapshot (l : Nat) : (s.freeLoop l).snapshot = s.snapshot := rfl
@[simp] theorem State.freeLoop_link (l : Nat) : (s.freeLoop l).link = s.link := rfl
@[simp] theorem State.freeLoop_events (l : Nat) : (s.freeLoop l).events = s.events := rfl
@[simp] theorem State.freeLoop_scan (l : Nat) : (s.freeLoop l).scan = s.scan := rfl
@[simp] theorem State.freeLoop_idles (l : Nat) : (s.freeLoop l).idles = s.idles := rfl
@[simp] theorem State.freeLoop_late (l : Nat) : (s.freeLoop l).late = s.late := rfl
@[simp] theorem State.freeLoop_pending (l : Nat) : (s.freeLoop l).pending = s.pending := rfl

/-! ### setOrder -/

@[simp] theorem State.setOrder_part (k : Nat) (l : List Nat) : (s.setOrder k l).part = s.part := rfl
@[simp] theorem State.setOrder_resetHeld (k : Nat) (l : List Nat) : (s.setOrder k l).resetHeld = s.resetHeld := rfl
@[simp] theorem State.setOrder_clamp (k : Nat) (l : List Nat) : (s.setOrder k l).clamp = s.clamp := rfl
@[simp] theorem State.setOrder_stations (k : Nat) (l : List Nat) : (s.setOrder k l).stations = s.stations := rfl
@[simp] theorem State.setOrder_occs (k : Nat) (l : List Nat) : (s.setOrder k l).occs = s.occs := rfl
@[simp] theorem State.setOrder_loops (k : Nat) (l : List Nat) : (s.setOrder k l).loops = s.loops := rfl
@[simp] theorem State.setOrder_constituents (k : Nat) (l : List Nat) : (s.setOrder k l).constituents = s.constituents := rfl
@[simp] theorem State.setOrder_sites (k : Nat) (l : List Nat) : (s.setOrder k l).sites = s.sites := rfl
@[simp] theorem State.setOrder_constants (k : Nat) (l : List Nat) : (s.setOrder k l).constants = s.constants := rfl
@[simp] theorem State.setOrder_window (k : Nat) (l : List Nat) : (s.setOrder k l).window = s.window := rfl
@[simp] theorem State.setOrder_lastWindow (k : Nat) (l : List Nat) : (s.setOrder k l).lastWindow = s.lastWindow := rfl
@[simp] theorem State.setOrder_front (k : Nat) (l : List Nat) : (s.setOrder k l).front = s.front := rfl
@[simp] theorem State.setOrder_engine (k : Nat) (l : List Nat) : (s.setOrder k l).engine = s.engine := rfl
@[simp] theorem State.setOrder_clock (k : Nat) (l : List Nat) : (s.setOrder k l).clock = s.clock := rfl
@[simp] theorem State.setOrder_expiryDue (k : Nat) (l : List Nat) : (s.setOrder k l).expiryDue = s.expiryDue := rfl
@[simp] theorem State.setOrder_snapshot (k : Nat) (l : List Nat) : (s.setOrder k l).snapshot = s.snapshot := rfl
@[simp] theorem State.setOrder_link (k : Nat) (l : List Nat) : (s.setOrder k l).link = s.link := rfl
@[simp] theorem State.setOrder_events (k : Nat) (l : List Nat) : (s.setOrder k l).events = s.events := rfl
@[simp] theorem State.setOrder_scan (k : Nat) (l : List Nat) : (s.setOrder k l).scan = s.scan := rfl
@[simp] theorem State.setOrder_idles (k : Nat) (l : List Nat) : (s.setOrder k l).idles = s.idles := rfl
@[simp] theorem State.setOrder_late (k : Nat) (l : List Nat) : (s.setOrder k l).late = s.late := rfl
@[simp] theorem State.setOrder_pending (k : Nat) (l : List Nat) : (s.setOrder k l).pending = s.pending := rfl

/-! ### touch -/

@[simp] theorem State.touch_part (w : Nat) : (s.touch w).part = s.part := rfl
@[simp] theorem State.touch_resetHeld (w : Nat) : (s.touch w).resetHeld = s.resetHeld := rfl
@[simp] theorem State.touch_clamp (w : Nat) : (s.touch w).clamp = s.clamp := rfl
@[simp] theorem State.touch_stations (w : Nat) : (s.touch w).stations = s.stations := rfl
@[simp] theorem State.touch_occs (w : Nat) : (s.touch w).occs = s.occs := rfl
@[simp] theorem State.touch_loops (w : Nat) : (s.touch w).loops = s.loops := rfl
@[simp] theorem State.touch_constituents (w : Nat) : (s.touch w).constituents = s.constituents := rfl
@[simp] theorem State.touch_sites (w : Nat) : (s.touch w).sites = s.sites := rfl
@[simp] theorem State.touch_constants (w : Nat) : (s.touch w).constants = s.constants := rfl
@[simp] theorem State.touch_window (w : Nat) : (s.touch w).window = s.window := rfl
@[simp] theorem State.touch_lastWindow (w : Nat) : (s.touch w).lastWindow = s.lastWindow := rfl
@[simp] theorem State.touch_front (w : Nat) : (s.touch w).front = s.front := rfl
@[simp] theorem State.touch_engine (w : Nat) : (s.touch w).engine = s.engine := rfl
@[simp] theorem State.touch_clock (w : Nat) : (s.touch w).clock = s.clock := rfl
@[simp] theorem State.touch_expiryDue (w : Nat) : (s.touch w).expiryDue = s.expiryDue := rfl
@[simp] theorem State.touch_snapshot (w : Nat) : (s.touch w).snapshot = s.snapshot := rfl
@[simp] theorem State.touch_link (w : Nat) : (s.touch w).link = s.link := rfl
@[simp] theorem State.touch_events (w : Nat) : (s.touch w).events = s.events := rfl
@[simp] theorem State.touch_scan (w : Nat) : (s.touch w).scan = s.scan := rfl
@[simp] theorem State.touch_idles (w : Nat) : (s.touch w).idles = s.idles := rfl
@[simp] theorem State.touch_late (w : Nat) : (s.touch w).late = s.late := rfl
@[simp] theorem State.touch_pending (w : Nat) : (s.touch w).pending = s.pending := rfl

/-! ### leaveOrder -/

@[simp] theorem State.leaveOrder_part (w : Nat) : (s.leaveOrder w).part = s.part := rfl
@[simp] theorem State.leaveOrder_resetHeld (w : Nat) : (s.leaveOrder w).resetHeld = s.resetHeld := rfl
@[simp] theorem State.leaveOrder_clamp (w : Nat) : (s.leaveOrder w).clamp = s.clamp := rfl
@[simp] theorem State.leaveOrder_stations (w : Nat) : (s.leaveOrder w).stations = s.stations := rfl
@[simp] theorem State.leaveOrder_occs (w : Nat) : (s.leaveOrder w).occs = s.occs := rfl
@[simp] theorem State.leaveOrder_loops (w : Nat) : (s.leaveOrder w).loops = s.loops := rfl
@[simp] theorem State.leaveOrder_constituents (w : Nat) : (s.leaveOrder w).constituents = s.constituents := rfl
@[simp] theorem State.leaveOrder_sites (w : Nat) : (s.leaveOrder w).sites = s.sites := rfl
@[simp] theorem State.leaveOrder_constants (w : Nat) : (s.leaveOrder w).constants = s.constants := rfl
@[simp] theorem State.leaveOrder_window (w : Nat) : (s.leaveOrder w).window = s.window := rfl
@[simp] theorem State.leaveOrder_lastWindow (w : Nat) : (s.leaveOrder w).lastWindow = s.lastWindow := rfl
@[simp] theorem State.leaveOrder_front (w : Nat) : (s.leaveOrder w).front = s.front := rfl
@[simp] theorem State.leaveOrder_engine (w : Nat) : (s.leaveOrder w).engine = s.engine := rfl
@[simp] theorem State.leaveOrder_clock (w : Nat) : (s.leaveOrder w).clock = s.clock := rfl
@[simp] theorem State.leaveOrder_expiryDue (w : Nat) : (s.leaveOrder w).expiryDue = s.expiryDue := rfl
@[simp] theorem State.leaveOrder_snapshot (w : Nat) : (s.leaveOrder w).snapshot = s.snapshot := rfl
@[simp] theorem State.leaveOrder_link (w : Nat) : (s.leaveOrder w).link = s.link := rfl
@[simp] theorem State.leaveOrder_events (w : Nat) : (s.leaveOrder w).events = s.events := rfl
@[simp] theorem State.leaveOrder_scan (w : Nat) : (s.leaveOrder w).scan = s.scan := rfl
@[simp] theorem State.leaveOrder_idles (w : Nat) : (s.leaveOrder w).idles = s.idles := rfl
@[simp] theorem State.leaveOrder_late (w : Nat) : (s.leaveOrder w).late = s.late := rfl
@[simp] theorem State.leaveOrder_pending (w : Nat) : (s.leaveOrder w).pending = s.pending := rfl

/-! ### freeEntry -/

@[simp] theorem State.freeEntry_part (w : Nat) : (s.freeEntry w).part = s.part := rfl
@[simp] theorem State.freeEntry_resetHeld (w : Nat) : (s.freeEntry w).resetHeld = s.resetHeld := rfl
@[simp] theorem State.freeEntry_clamp (w : Nat) : (s.freeEntry w).clamp = s.clamp := rfl
@[simp] theorem State.freeEntry_stations (w : Nat) : (s.freeEntry w).stations = slotErase s.stations w := rfl
@[simp] theorem State.freeEntry_occs (w : Nat) : (s.freeEntry w).occs = s.occs := rfl
@[simp] theorem State.freeEntry_loops (w : Nat) : (s.freeEntry w).loops = s.loops := rfl
@[simp] theorem State.freeEntry_constituents (w : Nat) : (s.freeEntry w).constituents = s.constituents := rfl
@[simp] theorem State.freeEntry_sites (w : Nat) : (s.freeEntry w).sites = s.sites := rfl
@[simp] theorem State.freeEntry_constants (w : Nat) : (s.freeEntry w).constants = s.constants := rfl
@[simp] theorem State.freeEntry_window (w : Nat) : (s.freeEntry w).window = s.window := rfl
@[simp] theorem State.freeEntry_lastWindow (w : Nat) : (s.freeEntry w).lastWindow = s.lastWindow := rfl
@[simp] theorem State.freeEntry_front (w : Nat) : (s.freeEntry w).front = s.front := rfl
@[simp] theorem State.freeEntry_engine (w : Nat) : (s.freeEntry w).engine = s.engine := rfl
@[simp] theorem State.freeEntry_clock (w : Nat) : (s.freeEntry w).clock = s.clock := rfl
@[simp] theorem State.freeEntry_expiryDue (w : Nat) : (s.freeEntry w).expiryDue = s.expiryDue := rfl
@[simp] theorem State.freeEntry_snapshot (w : Nat) : (s.freeEntry w).snapshot = s.snapshot := rfl
@[simp] theorem State.freeEntry_link (w : Nat) : (s.freeEntry w).link = s.link := rfl
@[simp] theorem State.freeEntry_events (w : Nat) : (s.freeEntry w).events = s.events := rfl
@[simp] theorem State.freeEntry_scan (w : Nat) : (s.freeEntry w).scan = s.scan := rfl
@[simp] theorem State.freeEntry_idles (w : Nat) : (s.freeEntry w).idles = s.idles := rfl
@[simp] theorem State.freeEntry_late (w : Nat) : (s.freeEntry w).late = s.late := rfl
@[simp] theorem State.freeEntry_pending (w : Nat) : (s.freeEntry w).pending = s.pending := rfl

/-! ### mainReset -/

@[simp] theorem State.mainReset_part : (s.mainReset).part = s.part := rfl
@[simp] theorem State.mainReset_resetHeld : (s.mainReset).resetHeld = s.resetHeld := rfl
@[simp] theorem State.mainReset_clamp : (s.mainReset).clamp = s.clamp := rfl
@[simp] theorem State.mainReset_stations : (s.mainReset).stations = s.stations := rfl
@[simp] theorem State.mainReset_recency : (s.mainReset).recency = s.recency := rfl
@[simp] theorem State.mainReset_occs : (s.mainReset).occs = s.occs := rfl
@[simp] theorem State.mainReset_loops : (s.mainReset).loops = s.loops := rfl
@[simp] theorem State.mainReset_constituents : (s.mainReset).constituents = s.constituents := rfl
@[simp] theorem State.mainReset_sites : (s.mainReset).sites = s.sites := rfl
@[simp] theorem State.mainReset_constants : (s.mainReset).constants = s.constants := rfl
@[simp] theorem State.mainReset_window : (s.mainReset).window = none := rfl
@[simp] theorem State.mainReset_lastWindow : (s.mainReset).lastWindow = none := rfl
@[simp] theorem State.mainReset_front : (s.mainReset).front = startedFrontEnd s.constants.enableX s.constants.enableY s.constants.enableT := rfl
@[simp] theorem State.mainReset_engine : (s.mainReset).engine = idleEngine := rfl
@[simp] theorem State.mainReset_clock : (s.mainReset).clock = s.clock := rfl
@[simp] theorem State.mainReset_expiryDue : (s.mainReset).expiryDue = s.expiryDue := rfl
@[simp] theorem State.mainReset_snapshot : (s.mainReset).snapshot = none := rfl
@[simp] theorem State.mainReset_link : (s.mainReset).link = s.link.cleared := rfl
@[simp] theorem State.mainReset_events : (s.mainReset).events = s.events := rfl
@[simp] theorem State.mainReset_scan : (s.mainReset).scan = s.scan := rfl
@[simp] theorem State.mainReset_idles : (s.mainReset).idles = s.idles := rfl
@[simp] theorem State.mainReset_late : (s.mainReset).late = s.late := rfl
@[simp] theorem State.mainReset_pending : (s.mainReset).pending = s.pending := rfl

/-! ### beginScan -/

@[simp] theorem State.beginScan_part (o : ScanOrigin) : (s.beginScan o).part = .starting := rfl
@[simp] theorem State.beginScan_resetHeld (o : ScanOrigin) : (s.beginScan o).resetHeld = s.resetHeld := rfl
@[simp] theorem State.beginScan_clamp (o : ScanOrigin) : (s.beginScan o).clamp = s.clamp := rfl
@[simp] theorem State.beginScan_stations (o : ScanOrigin) : (s.beginScan o).stations = s.stations := rfl
@[simp] theorem State.beginScan_recency (o : ScanOrigin) : (s.beginScan o).recency = s.recency := rfl
@[simp] theorem State.beginScan_occs (o : ScanOrigin) : (s.beginScan o).occs = s.occs := rfl
@[simp] theorem State.beginScan_loops (o : ScanOrigin) : (s.beginScan o).loops = s.loops := rfl
@[simp] theorem State.beginScan_constituents (o : ScanOrigin) : (s.beginScan o).constituents = s.constituents := rfl
@[simp] theorem State.beginScan_sites (o : ScanOrigin) : (s.beginScan o).sites = s.sites := rfl
@[simp] theorem State.beginScan_constants (o : ScanOrigin) : (s.beginScan o).constants = s.constants := rfl
@[simp] theorem State.beginScan_window (o : ScanOrigin) : (s.beginScan o).window = s.window := rfl
@[simp] theorem State.beginScan_lastWindow (o : ScanOrigin) : (s.beginScan o).lastWindow = s.lastWindow := rfl
@[simp] theorem State.beginScan_front (o : ScanOrigin) : (s.beginScan o).front = s.front := rfl
@[simp] theorem State.beginScan_engine (o : ScanOrigin) : (s.beginScan o).engine = s.engine := rfl
@[simp] theorem State.beginScan_clock (o : ScanOrigin) : (s.beginScan o).clock = s.clock := rfl
@[simp] theorem State.beginScan_expiryDue (o : ScanOrigin) : (s.beginScan o).expiryDue = s.expiryDue := rfl
@[simp] theorem State.beginScan_snapshot (o : ScanOrigin) : (s.beginScan o).snapshot = s.snapshot := rfl
@[simp] theorem State.beginScan_link (o : ScanOrigin) : (s.beginScan o).link = s.link := rfl
@[simp] theorem State.beginScan_events (o : ScanOrigin) : (s.beginScan o).events = s.events := rfl
@[simp] theorem State.beginScan_scan (o : ScanOrigin) : (s.beginScan o).scan = some { origin := o, pass := 1, ended := none, counts := {}, cursor := 0, marked := [], found := [] } := rfl
@[simp] theorem State.beginScan_idles (o : ScanOrigin) : (s.beginScan o).idles = s.idles := rfl
@[simp] theorem State.beginScan_late (o : ScanOrigin) : (s.beginScan o).late = s.late := rfl
@[simp] theorem State.beginScan_pending (o : ScanOrigin) : (s.beginScan o).pending = s.pending := rfl

/-! ### resetNow -/

@[simp] theorem State.resetNow_part : (s.resetNow).part = .starting := rfl
@[simp] theorem State.resetNow_resetHeld : (s.resetNow).resetHeld = false := rfl
@[simp] theorem State.resetNow_window : (s.resetNow).window = none := rfl
@[simp] theorem State.resetNow_lastWindow : (s.resetNow).lastWindow = none := rfl
@[simp] theorem State.resetNow_engine : (s.resetNow).engine = idleEngine := rfl
@[simp] theorem State.resetNow_snapshot : (s.resetNow).snapshot = none := rfl
@[simp] theorem State.resetNow_events : (s.resetNow).events = clearEvents := rfl
@[simp] theorem State.resetNow_scan : (s.resetNow).scan = some { origin := .reset, pass := 1, ended := none, counts := {}, cursor := 0, marked := [], found := [] } := rfl

/-! ### dropLast -/

@[simp] theorem State.dropLast_part : (s.dropLast).part = s.part := rfl
@[simp] theorem State.dropLast_resetHeld : (s.dropLast).resetHeld = s.resetHeld := rfl
@[simp] theorem State.dropLast_clamp : (s.dropLast).clamp = s.clamp := rfl
@[simp] theorem State.dropLast_stations : (s.dropLast).stations = s.stations := rfl
@[simp] theorem State.dropLast_recency : (s.dropLast).recency = s.recency := rfl
@[simp] theorem State.dropLast_occs : (s.dropLast).occs = s.occs := rfl
@[simp] theorem State.dropLast_loops : (s.dropLast).loops = s.loops := rfl
@[simp] theorem State.dropLast_constituents : (s.dropLast).constituents = s.constituents := rfl
@[simp] theorem State.dropLast_sites : (s.dropLast).sites = s.sites := rfl
@[simp] theorem State.dropLast_constants : (s.dropLast).constants = s.constants := rfl
@[simp] theorem State.dropLast_window : (s.dropLast).window = s.window := rfl
@[simp] theorem State.dropLast_lastWindow : (s.dropLast).lastWindow = none := rfl
@[simp] theorem State.dropLast_front : (s.dropLast).front = s.front := rfl
@[simp] theorem State.dropLast_engine : (s.dropLast).engine = { s.engine with last := none } := rfl
@[simp] theorem State.dropLast_clock : (s.dropLast).clock = s.clock := rfl
@[simp] theorem State.dropLast_expiryDue : (s.dropLast).expiryDue = s.expiryDue := rfl
@[simp] theorem State.dropLast_snapshot : (s.dropLast).snapshot = s.snapshot := rfl
@[simp] theorem State.dropLast_link : (s.dropLast).link = s.link := rfl
@[simp] theorem State.dropLast_events : (s.dropLast).events = s.events := rfl
@[simp] theorem State.dropLast_scan : (s.dropLast).scan = s.scan := rfl
@[simp] theorem State.dropLast_idles : (s.dropLast).idles = s.idles := rfl
@[simp] theorem State.dropLast_late : (s.dropLast).late = s.late := rfl
@[simp] theorem State.dropLast_pending : (s.dropLast).pending = s.pending := rfl

/-! ### setStart -/

@[simp] theorem State.setStart_part : (s.setStart).part = s.part := rfl
@[simp] theorem State.setStart_resetHeld : (s.setStart).resetHeld = s.resetHeld := rfl
@[simp] theorem State.setStart_clamp : (s.setStart).clamp = s.clamp := rfl
@[simp] theorem State.setStart_stations : (s.setStart).stations = s.stations := rfl
@[simp] theorem State.setStart_recency : (s.setStart).recency = s.recency := rfl
@[simp] theorem State.setStart_occs : (s.setStart).occs = s.occs := rfl
@[simp] theorem State.setStart_loops : (s.setStart).loops = s.loops := rfl
@[simp] theorem State.setStart_constituents : (s.setStart).constituents = s.constituents := rfl
@[simp] theorem State.setStart_sites : (s.setStart).sites = s.sites := rfl
@[simp] theorem State.setStart_constants : (s.setStart).constants = s.constants := rfl
@[simp] theorem State.setStart_window : (s.setStart).window = s.window := rfl
@[simp] theorem State.setStart_lastWindow : (s.setStart).lastWindow = s.lastWindow := rfl
@[simp] theorem State.setStart_front : (s.setStart).front = startedFrontEnd s.constants.enableX s.constants.enableY s.constants.enableT := rfl
@[simp] theorem State.setStart_engine : (s.setStart).engine = s.engine := rfl
@[simp] theorem State.setStart_clock : (s.setStart).clock = s.clock := rfl
@[simp] theorem State.setStart_expiryDue : (s.setStart).expiryDue = s.expiryDue := rfl
@[simp] theorem State.setStart_snapshot : (s.setStart).snapshot = s.snapshot := rfl
@[simp] theorem State.setStart_link : (s.setStart).link = s.link := rfl
@[simp] theorem State.setStart_events : (s.setStart).events = s.events := rfl
@[simp] theorem State.setStart_scan : (s.setStart).scan = s.scan := rfl
@[simp] theorem State.setStart_idles : (s.setStart).idles = s.idles := rfl
@[simp] theorem State.setStart_late : (s.setStart).late = s.late := rfl
@[simp] theorem State.setStart_pending : (s.setStart).pending = s.pending := rfl

/-! ### setClock -/

@[simp] theorem State.setClock_part (c : Clock) : (s.setClock c).part = s.part := rfl
@[simp] theorem State.setClock_resetHeld (c : Clock) : (s.setClock c).resetHeld = s.resetHeld := rfl
@[simp] theorem State.setClock_clamp (c : Clock) : (s.setClock c).clamp = s.clamp := rfl
@[simp] theorem State.setClock_stations (c : Clock) : (s.setClock c).stations = s.stations := rfl
@[simp] theorem State.setClock_recency (c : Clock) : (s.setClock c).recency = s.recency := rfl
@[simp] theorem State.setClock_occs (c : Clock) : (s.setClock c).occs = s.occs := rfl
@[simp] theorem State.setClock_loops (c : Clock) : (s.setClock c).loops = s.loops := rfl
@[simp] theorem State.setClock_constituents (c : Clock) : (s.setClock c).constituents = s.constituents := rfl
@[simp] theorem State.setClock_sites (c : Clock) : (s.setClock c).sites = s.sites := rfl
@[simp] theorem State.setClock_constants (c : Clock) : (s.setClock c).constants = s.constants := rfl
@[simp] theorem State.setClock_window (c : Clock) : (s.setClock c).window = s.window := rfl
@[simp] theorem State.setClock_lastWindow (c : Clock) : (s.setClock c).lastWindow = s.lastWindow := rfl
@[simp] theorem State.setClock_front (c : Clock) : (s.setClock c).front = s.front := rfl
@[simp] theorem State.setClock_engine (c : Clock) : (s.setClock c).engine = s.engine := rfl
@[simp] theorem State.setClock_clock (c : Clock) : (s.setClock c).clock = c := rfl
@[simp] theorem State.setClock_expiryDue (c : Clock) : (s.setClock c).expiryDue = s.expiryDue := rfl
@[simp] theorem State.setClock_snapshot (c : Clock) : (s.setClock c).snapshot = s.snapshot := rfl
@[simp] theorem State.setClock_link (c : Clock) : (s.setClock c).link = s.link := rfl
@[simp] theorem State.setClock_events (c : Clock) : (s.setClock c).events = s.events := rfl
@[simp] theorem State.setClock_scan (c : Clock) : (s.setClock c).scan = s.scan := rfl
@[simp] theorem State.setClock_idles (c : Clock) : (s.setClock c).idles = s.idles := rfl
@[simp] theorem State.setClock_late (c : Clock) : (s.setClock c).late = s.late := rfl
@[simp] theorem State.setClock_pending (c : Clock) : (s.setClock c).pending = s.pending := rfl

end Sys2Proof.Machine
end

