-- ==== Sys2Proof/Laws/Frame.lean ====
section
/-! SUPPORT. What the shared operations on the tables leave alone: the part state, the pins, the front end, the
engine, the clock, the link, the snapshot, the queue of commands and the contents of the constants. -/

namespace Sys2Proof.Machine

/-- `t` is `s` with nothing changed but tables, damaged marks, the window's membership, pending events, the due
loops and the scan report. -/
structure TableStep (s t : State) : Prop where
  part : t.part = s.part
  resetHeld : t.resetHeld = s.resetHeld
  clamp : t.clamp = s.clamp
  lastWindow : t.lastWindow = s.lastWindow
  front : t.front = s.front
  engine : t.engine = s.engine
  clock : t.clock = s.clock
  snapshot : t.snapshot = s.snapshot
  link : t.link = s.link
  idles : t.idles = s.idles
  late : t.late = s.late
  pending : t.pending = s.pending
  enabled : t.events.enabled = s.events.enabled
  constants : t.constants = { s.constants with damaged := t.constants.damaged }
  window : t.window.map (fun w => { w with memberOf := none }) = s.window.map (fun w => { w with memberOf := none })

namespace TableStep

variable {s t u : State}

theorem refl (s : State) : TableStep s s := by constructor <;> rfl

theorem trans (h : TableStep s t) (k : TableStep t u) : TableStep s u where
  part := k.part.trans h.part
  resetHeld := k.resetHeld.trans h.resetHeld
  clamp := k.clamp.trans h.clamp
  lastWindow := k.lastWindow.trans h.lastWindow
  front := k.front.trans h.front
  engine := k.engine.trans h.engine
  clock := k.clock.trans h.clock
  snapshot := k.snapshot.trans h.snapshot
  link := k.link.trans h.link
  idles := k.idles.trans h.idles
  late := k.late.trans h.late
  pending := k.pending.trans h.pending
  enabled := k.enabled.trans h.enabled
  constants := by rw [k.constants, h.constants]
  window := k.window.trans h.window

/-- Several operations, one after another. -/
theorem foldl {β : Type} {f : State → β → State} (hf : ∀ s b, TableStep s (f s b)) (l : List β) (s : State) :
    TableStep s (l.foldl f s) := by
  induction l generalizing s with
  | nil => exact refl s
  | cons b l ih => exact (hf s b).trans (ih _)

/-- The same with a value carried beside the state. -/
theorem foldl_fst {β γ : Type} {f : State × γ → β → State × γ} (hf : ∀ a b, TableStep a.1 (f a b).1) (l : List β)
    (a : State × γ) : TableStep a.1 (l.foldl f a).1 := by
  induction l generalizing a with
  | nil => exact refl _
  | cons b l ih => exact (hf a b).trans (ih _)

theorem window_isSome (h : TableStep s t) : t.window.isSome = s.window.isSome := by
  have := congrArg Option.isSome h.window
  simpa using this

end TableStep

open TableStep

variable (s : State)

/-! ### Plain updates -/

theorem setStation_tableStep (w : Nat) (e : Station) : TableStep s (s.setStation w e) := by constructor <;> rfl
theorem setOcc_tableStep (i : Nat) (o : Occ) : TableStep s (s.setOcc i o) := by constructor <;> rfl
theorem setLoop_tableStep (l : Nat) (r : Loop) : TableStep s (s.setLoop l r) := by constructor <;> rfl
theorem setConstituent_tableStep (k : Nat) (c : Constituent) : TableStep s (s.setConstituent k c) := by
  constructor <;> rfl
theorem setSite_tableStep (k : Nat) (c : Site) : TableStep s (s.setSite k c) := by constructor <;> rfl
theorem putStation_tableStep (w : Nat) (e : Station) : TableStep s (s.putStation w e) := by constructor <;> rfl
theorem putOcc_tableStep (i : Nat) (o : Occ) : TableStep s (s.putOcc i o) := by constructor <;> rfl
theorem putLoop_tableStep (l : Nat) (r : Loop) : TableStep s (s.putLoop l r) := by constructor <;> rfl
theorem touch_tableStep (w : Nat) : TableStep s (s.touch w) := by constructor <;> rfl
theorem leaveOrder_tableStep (w : Nat) : TableStep s (s.leaveOrder w) := by constructor <;> rfl
theorem freeEntry_tableStep (w : Nat) : TableStep s (s.freeEntry w) := by constructor <;> rfl
theorem freeLoop_tableStep (l : Nat) : TableStep s (s.freeLoop l) := by constructor <;> rfl
theorem count_tableStep (f : ScanCounts → ScanCounts) : TableStep s (s.count f) := by constructor <;> rfl

theorem raise_enabled (ev : Events) (held : Bool) (e : Event) : (ev.raise held e).enabled = ev.enabled := by
  unfold Events.raise
  split <;> rfl

theorem raise_tableStep (e : Event) : TableStep s (s.raise e) := by
  constructor <;> first | rfl | exact raise_enabled _ _ _

theorem damage_tableStep (b : Bool) : TableStep s (s.setConstants { s.constants with damaged := b }) := by
  constructor <;> rfl

theorem unwindow_tableStep (i : Nat) : TableStep s (s.unwindow i) := by
  constructor <;> try rfl
  simp only [State.unwindow]
  cases s.window with
  | none => rfl
  | some w =>
    simp only [Option.map_some]
    by_cases h : w.occ = i <;> simp [h]

/-! ### The memory check -/

theorem checkStation_tableStep (w : Nat) : TableStep s (s.checkStation w) := by
  unfold State.checkStation
  split
  · split
    · exact refl s
    · exact (setStation_tableStep s _ _).trans (raise_tableStep _ _)
  · exact refl s

theorem checkOcc_tableStep (i : Nat) : TableStep s (s.checkOcc i) := by
  unfold State.checkOcc
  split
  · split
    · exact refl s
    · exact (setOcc_tableStep s _ _).trans (raise_tableStep _ _)
  · exact refl s

theorem checkLoop_tableStep (l : Nat) : TableStep s (s.checkLoop l) := by
  unfold State.checkLoop
  split
  · split
    · exact refl s
    · exact (setLoop_tableStep s _ _).trans (raise_tableStep _ _)
  · exact refl s

theorem checkConstituent_tableStep (k : Nat) : TableStep s (s.checkConstituent k) := by
  unfold State.checkConstituent
  dsimp only
  split
  · exact refl s
  · exact (setConstituent_tableStep s _ _).trans (raise_tableStep _ _)

theorem checkSite_tableStep (k : Nat) : TableStep s (s.checkSite k) := by
  unfold State.checkSite
  dsimp only
  split
  · exact refl s
  · exact (setSite_tableStep s _ _).trans (raise_tableStep _ _)

theorem checkConstants_tableStep (again : Bool) : TableStep s (s.checkConstants again) := by
  unfold State.checkConstants
  split
  · split
    · exact raise_tableStep _ _
    · exact refl s
  · split
    · exact refl s
    · exact (damage_tableStep s true).trans (raise_tableStep _ _)

theorem checkStations_tableStep (ws : List Nat) : TableStep s (s.checkStations ws) :=
  TableStep.foldl checkStation_tableStep ws s

theorem checkOccs_tableStep (is : List Nat) : TableStep s (s.checkOccs is) := TableStep.foldl checkOcc_tableStep is s

theorem checkPool_tableStep : TableStep s s.checkPool := checkOccs_tableStep s _

theorem checkNaming_tableStep (is : List Nat) : TableStep s (s.checkNaming is) := by
  unfold State.checkNaming
  split
  · exact checkOccs_tableStep s is
  · exact refl s

theorem checkLoops_tableStep : TableStep s s.checkLoops := TableStep.foldl checkLoop_tableStep _ s

theorem failRecord_tableStep (r : RecordId) : TableStep s (s.failRecord r) := by
  cases r with
  | station w =>
    simp only [State.failRecord]
    split
    · exact (setStation_tableStep s _ _).trans (raise_tableStep _ _)
    · exact refl s
  | occupation i =>
    simp only [State.failRecord]
    split
    · exact (setOcc_tableStep s _ _).trans (raise_tableStep _ _)
    · exact refl s
  | loop l =>
    simp only [State.failRecord]
    split
    · exact (setLoop_tableStep s _ _).trans (raise_tableStep _ _)
    · exact refl s
  | constants => exact (damage_tableStep s true).trans (raise_tableStep _ _)
  | constituent k => exact (setConstituent_tableStep s _ _).trans (raise_tableStep _ _)
  | site k => exact (setSite_tableStep s _ _).trans (raise_tableStep _ _)

/-! ### Lookups and marks -/

theorem suspect_tableStep (w : Nat) : TableStep s (s.suspect w) := by
  unfold State.suspect
  split
  · split
    · exact refl s
    · exact putStation_tableStep s _ _
  · exact refl s

theorem activate_tableStep (w : Nat) : TableStep s (s.activate w) := by
  unfold State.activate
  split
  · split
    · exact refl s
    · exact putStation_tableStep s _ _
  · exact refl s

theorem keyedLookup_tableStep (n : Nat) : TableStep s (s.keyedLookup n).1 := by
  have h := checkStations_tableStep s (waysOf n)
  unfold State.keyedLookup
  dsimp only
  split
  · exact h
  · split
    · split
      · exact h
      · exact h.trans (activate_tableStep _ _)
    · exact h
  · exact h.trans (TableStep.foldl suspect_tableStep _ _)

theorem internalLookup_tableStep (n : Nat) : TableStep s (s.internalLookup n).1 :=
  checkStations_tableStep s (waysOf n)

theorem noteMark_tableStep (w : Nat) : TableStep s (s.noteMark w) := by
  unfold State.noteMark
  split
  · constructor <;> rfl
  · exact refl s

theorem putChanged_tableStep (w : Nat) (e : Station) : TableStep s (s.putChanged w e) :=
  (putStation_tableStep s _ _).trans (noteMark_tableStep _ _)

theorem markChanged_tableStep (w : Nat) : TableStep s (s.markChanged w) := by
  unfold State.markChanged
  split
  · exact putChanged_tableStep s _ _
  · exact refl s

theorem markOwner_tableStep (n i : Nat) : TableStep s (s.markOwner n i) := by
  have h := checkStations_tableStep s (waysOf n)
  unfold State.markOwner
  dsimp only
  split
  · exact h.trans (markChanged_tableStep _ _)
  · exact h

theorem markRecord_tableStep (n i : Nat) : TableStep s (s.markRecord n i) := by
  have h := internalLookup_tableStep s n
  unfold State.markRecord
  split
  · exact markOwner_tableStep s n i
  · split
    · rename_i e
      rw [e] at h
      exact h.trans (markChanged_tableStep _ _)
    · rename_i e
      rw [e] at h
      exact h

/-! ### Freeing -/

theorem unlist_tableStep (i w : Nat) : TableStep s (State.unlist i s w) := by
  have h := checkStation_tableStep s w
  unfold State.unlist
  dsimp only
  split
  · split
    · exact h.trans (putChanged_tableStep _ _ _)
    · exact h
  · exact h

theorem unmember_tableStep (i l : Nat) : TableStep s (State.unmember i s l) := by
  unfold State.unmember
  split
  · split
    · have h := checkLoop_tableStep s l
      dsimp only
      split
      · split
        · exact h
        · exact h.trans (putLoop_tableStep _ _ _)
      · exact h
    · exact refl s
  · exact refl s

theorem freeOcc_tableStep (ws : List Nat) (i : Nat) : TableStep s (s.freeOcc ws i) := by
  have h1 := TableStep.foldl (f := State.unlist i) (fun s w => unlist_tableStep s i w) ws s
  have h2 := TableStep.foldl (f := State.unmember i) (fun s l => unmember_tableStep s i l)
    (slotKeys (ws.foldl (State.unlist i) s).loops) (ws.foldl (State.unlist i) s)
  refine (h1.trans h2).trans ?_
  constructor <;> rfl

theorem freeWay_tableStep (w : Nat) (e : Station) : TableStep s (s.freeWay w e).1 :=
  (freeEntry_tableStep s w).trans (TableStep.foldl (fun s i => freeOcc_tableStep s _ i) _ _)

theorem readWay_tableStep (w : Nat) (e : Station) : TableStep s (s.readWay w e) := by
  unfold State.readWay
  split
  · exact (checkStations_tableStep s _).trans (checkPool_tableStep _)
  · exact checkNaming_tableStep s _

theorem readCandidate_tableStep (w : Nat) : TableStep s (s.readCandidate w) := by
  unfold State.readCandidate
  split
  · split
    · exact (checkOccs_tableStep s _).trans (checkLoops_tableStep _)
    · exact refl s
  · exact refl s

/-! ### Voiding and undoing -/

theorem voidMember_tableStep (i : Nat) : TableStep s (s.voidMember i) := by
  have h := (checkOcc_tableStep s i).trans (unwindow_tableStep _ i)
  unfold State.voidMember
  dsimp only
  split
  · split
    · exact h.trans (putOcc_tableStep _ _ _)
    · exact (h.trans (putOcc_tableStep _ _ _)).trans (markOwner_tableStep _ _ _)
  · exact h

theorem voidOpenEnd_tableStep (l i : Nat) : TableStep s (s.voidOpenEnd l i) := by
  have h := checkOcc_tableStep s i
  unfold State.voidOpenEnd
  dsimp only
  split
  · split
    · split
      · exact h.trans (putOcc_tableStep _ _ _)
      · exact (h.trans (putOcc_tableStep _ _ _)).trans (markOwner_tableStep _ _ _)
    · exact h
  · exact h

theorem voidSound_tableStep (l : Nat) : TableStep s (s.voidSound l) := by
  unfold State.voidSound
  split
  · exact ((TableStep.foldl voidMember_tableStep _ _).trans (voidOpenEnd_tableStep _ _ _)).trans (freeLoop_tableStep _ _)
  · exact refl s

theorem ungather_tableStep (l i : Nat) : TableStep s (State.ungather l s i) := by
  unfold State.ungather
  split
  · dsimp only
    refine TableStep.trans ?_ (markRecord_tableStep _ _ _)
    refine TableStep.trans ?_ (putOcc_tableStep _ _ _)
    split
    · exact unwindow_tableStep s i
    · exact refl s
  · exact refl s

theorem voidDamaged_tableStep (l : Nat) : TableStep s (s.voidDamaged l) :=
  ((checkPool_tableStep s).trans (TableStep.foldl (fun s i => ungather_tableStep s l i) _ _)).trans
    (freeLoop_tableStep _ _)

theorem undoRecord_tableStep (a : State × List Nat) (i : Nat) (o : Occ) : TableStep a.1 (undoRecord a i o).1 := by
  unfold undoRecord
  split
  · dsimp only
    split
    · exact (putOcc_tableStep _ _ _).trans (unwindow_tableStep _ _)
    · exact (putOcc_tableStep _ _ _).trans (markRecord_tableStep _ _ _)
  · exact refl _

theorem dropMember_tableStep (l i : Nat) : TableStep s (s.dropMember l i) := by
  unfold State.dropMember
  split
  · exact putLoop_tableStep s _ _
  · exact refl s

theorem undoMember_tableStep (l : Nat) (a : State × List Nat) (i : Nat) : TableStep a.1 (undoMember l a i).1 := by
  have h := checkOcc_tableStep a.1 i
  unfold undoMember
  dsimp only
  split
  · rename_i o _
    have k := h.trans (undoRecord_tableStep (a.1.checkOcc i, a.2) i o)
    split
    · exact k.trans (dropMember_tableStep _ _ _)
    · exact k
  · exact h

theorem undoGathered_tableStep (l : Nat) (a : State × List Nat) (i : Nat) :
    TableStep a.1 (undoGathered l a i).1 := by
  unfold undoGathered
  split
  · split
    · exact undoRecord_tableStep a i _
    · exact refl _
  · exact refl _

theorem reopen_tableStep (l : Nat) : TableStep s (s.reopen l) := by
  unfold State.reopen
  split
  · dsimp only
    split
    · exact (putLoop_tableStep s _ _).trans (raise_tableStep _ _)
    · exact putLoop_tableStep s _ _
  · exact refl s

theorem undoClose_tableStep (l : Nat) : TableStep s (s.undoClose l).1 := by
  have h := checkLoop_tableStep s l
  unfold State.undoClose
  dsimp only
  split
  · split
    · exact (h.trans (checkPool_tableStep _)).trans (TableStep.foldl_fst (undoGathered_tableStep l) _ (_, _))
    · split
      · exact (h.trans (TableStep.foldl_fst (undoMember_tableStep l) _ (_, _))).trans (reopen_tableStep _ _)
      · exact h
  · exact h

/-! ### Windows and expiry -/

theorem setUnqueued_tableStep (i : Nat) : TableStep s (s.setUnqueued i) := by
  unfold State.setUnqueued
  split
  · exact putOcc_tableStep s _ _
  · exact refl s

theorem setOccState_tableStep (i : Nat) (st : OccState) : TableStep s (s.setOccState i st) := by
  unfold State.setOccState
  split
  · exact putOcc_tableStep s _ _
  · exact refl s

theorem placeInList_tableStep (n i epoch : Nat) : TableStep s (s.placeInList n i epoch) := by
  have h := checkStations_tableStep s (waysOf n)
  unfold State.placeInList
  dsimp only
  split
  · split
    · split
      · exact h
      · exact (h.trans (checkOccs_tableStep _ _)).trans (putChanged_tableStep _ _ _)
    · exact h
  · exact h

theorem takeExpiry_tableStep (l : Nat) : TableStep s (s.takeExpiry l) := by
  have h : TableStep s { s with expiryDue := s.expiryDue.filter (· ≠ l) } := by constructor <;> rfl
  have k := h.trans (checkLoop_tableStep _ l)
  unfold State.takeExpiry
  split
  · dsimp only
    split
    · split
      · exact (k.trans (putLoop_tableStep _ _ _)).trans (raise_tableStep _ _)
      · exact k
    · exact k
  · exact refl s

theorem expiryCheck_tableStep : TableStep s s.expiryCheck := by
  refine (TableStep.foldl checkLoop_tableStep s.openLoops s).trans ?_
  constructor <;> rfl

theorem releaseMember_tableStep (a : State × Nat) (i : Nat) : TableStep a.1 (releaseMember a i).1 := by
  have h := checkOcc_tableStep a.1 i
  unfold releaseMember
  dsimp only
  split
  · split
    · exact h.trans (putOcc_tableStep _ _ _)
    · exact (h.trans (putOcc_tableStep _ _ _)).trans (markOwner_tableStep _ _ _)
  · exact h

/-! ### The engine's reads and writes -/

theorem noteRate_tableStep (l : Nat) (r : Loop) (d : DriftCalc) : TableStep s (s.noteRate l r d) := by
  unfold State.noteRate
  dsimp only
  split
  · exact (putLoop_tableStep s _ _).trans (raise_tableStep _ _)
  · exact putLoop_tableStep s _ _

theorem readWays_tableStep {ws : List Nat} {s t : State} (h : readWays ws s = .ok t) : TableStep s t := by
  induction ws generalizing s with
  | nil =>
    simp only [readWays, Except.ok.injEq] at h
    exact h ▸ refl s
  | cons w ws ih =>
    unfold readWays at h
    split at h
    · split at h
      · exact ih h
      · split at h
        · exact (raise_tableStep s _).trans (ih h)
        · simp at h
    · exact ih h

theorem engineLookup_tableStep {n : Nat} {s : State} {r : State × Option Nat} (h : engineLookup s n = .ok r) :
    TableStep s r.1 := by
  unfold engineLookup at h
  simp only [bind, Except.bind] at h
  split at h
  · simp at h
  · rename_i hr
    simp only [Except.ok.injEq] at h
    exact h ▸ readWays_tableStep hr

theorem closedLoopsOf_tableStep {i : Nat} {ls : List Nat} {s : State} {r : State × List Nat}
    (h : closedLoopsOf i ls s = .ok r) : TableStep s r.1 := by
  induction ls generalizing s r with
  | nil =>
    simp only [closedLoopsOf, Except.ok.injEq] at h
    exact h ▸ refl s
  | cons l ls ih =>
    unfold closedLoopsOf at h
    split at h
    · split at h
      · exact (raise_tableStep s _).trans (ih h)
      · split at h
        · simp only [bind, Except.bind] at h
          split at h
          · simp at h
          · rename_i hr
            simp only [Except.ok.injEq] at h
            subst h
            have hk := ih hr
            exact hk
        · simp at h
    · exact ih h

theorem markMember_tableStep {n : Nat} {s t : State} (h : markMember s n = .ok t) : TableStep s t := by
  unfold markMember at h
  simp only [bind, Except.bind] at h
  split at h
  · simp at h
  · rename_i r hr
    have h1 := engineLookup_tableStep hr
    split at h
    · simp only [Except.ok.injEq] at h
      exact h ▸ h1.trans (markChanged_tableStep _ _)
    · simp only [Except.ok.injEq] at h
      exact h ▸ h1

theorem writeDrift_tableStep {i : Nat} {o : Occ} {d : DriftCalc} {s t : State} (h : writeDrift s i o d = .ok t) :
    TableStep s t := (putOcc_tableStep s _ _).trans (markMember_tableStep h)

end Sys2Proof.Machine
end

