-- ==== Sys2Proof/Laws/Slots.lean ====
section
/-! SUPPORT. The tables with absent FREE places: a read after a write, the canonical form, and what a write
keeps. -/

namespace Sys2Proof.Machine

variable {α : Type}

@[simp] theorem slotGet_nil (k : Nat) : slotGet ([] : Slots α) k = none := rfl

theorem slotGet_cons (j k : Nat) (v : α) (t : Slots α) :
    slotGet ((j, v) :: t) k = if j = k then some v else slotGet t k := rfl

@[simp] theorem slotGet_slotErase_self (t : Slots α) (k : Nat) : slotGet (slotErase t k) k = none := by
  induction t with
  | nil => rfl
  | cons p t ih =>
    obtain ⟨j, v⟩ := p
    by_cases h : j = k
    · simpa [slotErase, h] using ih
    · simpa [slotErase, h, slotGet_cons] using ih

theorem slotGet_slotErase_of_ne (t : Slots α) {j k : Nat} (h : j ≠ k) :
    slotGet (slotErase t k) j = slotGet t j := by
  induction t with
  | nil => rfl
  | cons p t ih =>
    obtain ⟨i, v⟩ := p
    by_cases hi : i = k
    · subst hi
      have : slotErase ((i, v) :: t) i = slotErase t i := by simp [slotErase]
      rw [this, ih, slotGet_cons, if_neg (fun e => h e.symm)]
    · have : slotErase ((i, v) :: t) k = (i, v) :: slotErase t k := by simp [slotErase, hi]
      rw [this, slotGet_cons, slotGet_cons, ih]

theorem slotGet_slotInsert_self (t : Slots α) (k : Nat) (v : α) (h : slotGet t k = none) :
    slotGet (slotInsert k v t) k = some v := by
  induction t with
  | nil => simp [slotInsert, slotGet_cons]
  | cons p t ih =>
    obtain ⟨j, u⟩ := p
    rw [slotGet_cons] at h
    by_cases hj : j = k
    · simp [hj] at h
    · rw [if_neg hj] at h
      by_cases hk : k < j
      · simp [slotInsert, hk, slotGet_cons]
      · simp [slotInsert, hk, slotGet_cons, hj, ih h]

theorem slotGet_slotInsert_of_ne (t : Slots α) {j k : Nat} (v : α) (h : j ≠ k) :
    slotGet (slotInsert k v t) j = slotGet t j := by
  induction t with
  | nil => simp [slotInsert, slotGet_cons, h.symm]
  | cons p t ih =>
    obtain ⟨i, u⟩ := p
    by_cases hk : k < i
    · simp [slotInsert, hk, slotGet_cons, h.symm]
    · simp [slotInsert, hk, slotGet_cons, ih]

@[simp] theorem slotGet_slotSet_self (t : Slots α) (k : Nat) (v : α) : slotGet (slotSet t k v) k = some v :=
  slotGet_slotInsert_self _ _ _ (slotGet_slotErase_self t k)

theorem slotGet_slotSet_of_ne (t : Slots α) {j k : Nat} (v : α) (h : j ≠ k) :
    slotGet (slotSet t k v) j = slotGet t j := by
  rw [slotSet, slotGet_slotInsert_of_ne _ _ h, slotGet_slotErase_of_ne _ h]

theorem slotGet_slotSet (t : Slots α) (j k : Nat) (v : α) :
    slotGet (slotSet t k v) j = if j = k then some v else slotGet t j := by
  by_cases h : j = k
  · simp [h]
  · simp [h, slotGet_slotSet_of_ne]

theorem slotGet_slotErase (t : Slots α) (j k : Nat) :
    slotGet (slotErase t k) j = if j = k then none else slotGet t j := by
  by_cases h : j = k
  · simp [h]
  · simp [h, slotGet_slotErase_of_ne]

theorem mem_of_slotGet {t : Slots α} {k : Nat} {v : α} (h : slotGet t k = some v) : (k, v) ∈ t := by
  induction t with
  | nil => simp at h
  | cons p t ih =>
    obtain ⟨j, u⟩ := p
    rw [slotGet_cons] at h
    split at h
    · rename_i e
      simp_all
    · exact List.mem_cons_of_mem _ (ih h)

theorem mem_slotKeys_of_slotGet {t : Slots α} {k : Nat} {v : α} (h : slotGet t k = some v) : k ∈ slotKeys t :=
  List.mem_map.2 ⟨(k, v), mem_of_slotGet h, rfl⟩

theorem slotGet_isSome_of_mem_slotKeys {t : Slots α} {k : Nat} (h : k ∈ slotKeys t) : (slotGet t k).isSome := by
  induction t with
  | nil => simp [slotKeys] at h
  | cons p t ih =>
    obtain ⟨j, u⟩ := p
    rw [slotGet_cons]
    split
    · rfl
    · rename_i e
      refine ih ?_
      simp only [slotKeys, List.map_cons, List.mem_cons] at h
      rcases h with h | h
      · exact absurd h.symm e
      · exact h

theorem slotGet_eq_none {t : Slots α} {k : Nat} (h : k ∉ slotKeys t) : slotGet t k = none := by
  by_contra hn
  obtain ⟨v, hv⟩ := Option.ne_none_iff_exists'.1 hn
  exact h (mem_slotKeys_of_slotGet hv)

/-- The canonical form: keys rise strictly, and all lie below the size of the table. -/
theorem slotWf_iff (size : Nat) (t : Slots α) :
    slotWf size t = true ↔ (slotKeys t).Pairwise (· < ·) ∧ ∀ k ∈ slotKeys t, k < size := by
  induction t with
  | nil => simp [slotWf, slotKeys]
  | cons p t ih =>
    obtain ⟨j, u⟩ := p
    cases t with
    | nil => simp [slotWf, slotKeys]
    | cons q t =>
      obtain ⟨i, v⟩ := q
      have hk : slotKeys ((j, u) :: (i, v) :: t) = j :: slotKeys ((i, v) :: t) := rfl
      have hi : i ∈ slotKeys ((i, v) :: t) := by simp [slotKeys]
      rw [slotWf, Bool.and_eq_true, ih, hk, List.pairwise_cons]
      constructor
      · rintro ⟨h, hp, hs⟩
        have h : j < i := of_decide_eq_true h
        refine ⟨⟨fun a ha => ?_, hp⟩, fun a ha => ?_⟩
        · rcases List.mem_cons.1 (show a ∈ i :: slotKeys t from ha) with rfl | ha'
          · exact h
          · exact h.trans ((List.pairwise_cons.1 (show (i :: slotKeys t).Pairwise (· < ·) from hp)).1 a ha')
        · rcases List.mem_cons.1 ha with rfl | ha
          · exact h.trans (hs i hi)
          · exact hs a ha
      · rintro ⟨⟨h, hp⟩, hs⟩
        exact ⟨decide_eq_true (h i hi), hp, fun a ha => hs a (List.mem_cons_of_mem _ ha)⟩

theorem slotKeys_slotErase (t : Slots α) (k : Nat) : slotKeys (slotErase t k) = (slotKeys t).filter (· ≠ k) := by
  induction t with
  | nil => rfl
  | cons p t ih =>
    obtain ⟨j, u⟩ := p
    by_cases h : j = k
    · have h1 : slotErase ((j, u) :: t) k = slotErase t k := by simp [slotErase, h]
      have h2 : (slotKeys ((j, u) :: t)).filter (· ≠ k) = (slotKeys t).filter (· ≠ k) := by simp [slotKeys, h]
      rw [h1, h2, ih]
    · have h1 : slotErase ((j, u) :: t) k = (j, u) :: slotErase t k := by simp [slotErase, h]
      have h2 : (slotKeys ((j, u) :: t)).filter (· ≠ k) = j :: (slotKeys t).filter (· ≠ k) := by
        simp [slotKeys, h]
      rw [h1, h2, ← ih]
      rfl

theorem mem_slotKeys_slotInsert (t : Slots α) (k : Nat) (v : α) (a : Nat) :
    a ∈ slotKeys (slotInsert k v t) ↔ a = k ∨ a ∈ slotKeys t := by
  induction t with
  | nil => simp [slotInsert, slotKeys]
  | cons p t ih =>
    obtain ⟨j, u⟩ := p
    by_cases h : k < j
    · simp [slotInsert, h, slotKeys]
    · have : slotKeys (slotInsert k v ((j, u) :: t)) = j :: slotKeys (slotInsert k v t) := by
        simp [slotInsert, h, slotKeys]
      rw [this, List.mem_cons, ih]
      simp only [slotKeys, List.map_cons, List.mem_cons]
      tauto

theorem slotWf_slotErase {size : Nat} {t : Slots α} (h : slotWf size t = true) (k : Nat) :
    slotWf size (slotErase t k) = true := by
  rw [slotWf_iff] at *
  rw [slotKeys_slotErase]
  exact ⟨h.1.filter _, fun a ha => h.2 a (List.mem_of_mem_filter ha)⟩

theorem slotWf_slotInsert {size : Nat} {t : Slots α} (h : slotWf size t = true) {k : Nat} (hk : k < size)
    (hn : k ∉ slotKeys t) (v : α) : slotWf size (slotInsert k v t) = true := by
  rw [slotWf_iff] at *
  refine ⟨?_, fun a ha => ?_⟩
  · induction t with
    | nil => simp [slotInsert, slotKeys]
    | cons p t ih =>
      obtain ⟨j, u⟩ := p
      have hc : slotKeys ((j, u) :: t) = j :: slotKeys t := rfl
      rw [hc] at h hn
      obtain ⟨hp, hs⟩ := h
      rw [List.pairwise_cons] at hp
      simp only [List.mem_cons, not_or] at hn
      by_cases hkj : k < j
      · have : slotKeys (slotInsert k v ((j, u) :: t)) = k :: j :: slotKeys t := by simp [slotInsert, hkj, slotKeys]
        rw [this, List.pairwise_cons, List.pairwise_cons]
        refine ⟨fun a ha => ?_, hp⟩
        rcases List.mem_cons.1 ha with rfl | ha
        · exact hkj
        · exact hkj.trans (hp.1 a ha)
      · have : slotKeys (slotInsert k v ((j, u) :: t)) = j :: slotKeys (slotInsert k v t) := by
          simp [slotInsert, hkj, slotKeys]
        rw [this, List.pairwise_cons]
        refine ⟨fun a ha => ?_, ih ⟨hp.2, fun a ha => hs a (List.mem_cons_of_mem _ ha)⟩ hn.2⟩
        rcases (mem_slotKeys_slotInsert _ _ _ _).1 ha with rfl | ha
        · omega
        · exact hp.1 a ha
  · rcases (mem_slotKeys_slotInsert _ _ _ _).1 ha with rfl | ha
    · exact hk
    · exact h.2 a ha

/-- A write keeps the canonical form. -/
theorem slotWf_slotSet {size : Nat} {t : Slots α} (h : slotWf size t = true) {k : Nat} (hk : k < size) (v : α) :
    slotWf size (slotSet t k v) = true := by
  refine slotWf_slotInsert (slotWf_slotErase h k) hk ?_ v
  rw [slotKeys_slotErase]
  simp

theorem lowestFree_spec {t : Slots α} {ks : List Nat} {k : Nat} (h : lowestFree t ks = some k) :
    k ∈ ks ∧ slotGet t k = none := by
  refine ⟨List.mem_of_find?_eq_some h, ?_⟩
  have := List.find?_some h
  simpa using this

end Sys2Proof.Machine
end

