-- ==== Sys2Proof/Laws/Ops.lean ====
section
/-! SUPPORT. What the shared operations answer: host commands, the memory check on intact memory, reads after
writes of the tables, and the keyed lookup. -/

namespace Sys2Proof.Machine

variable {s : State}

/-! ### Host commands -/

/-- All that a host command can do. -/
theorem hostCommand_cases (i : Instr) (a : Access) (body : State → State) (s : State) :
    hostCommand i a body s = .next (body s) ∨ hostCommand i a body s = .next (s.refuse .notInService) ∨
      hostCommand i a body s = .next s := by
  unfold hostCommand
  split
  · split <;> simp
  · simp

theorem hostCommand_of_serves {i : Instr} {a : Access} (body : State → State) (h : s.serves i a = true) :
    hostCommand i a body s = .next (body s) := by
  simp only [State.serves, Bool.and_eq_true] at h
  simp [hostCommand, h.1, h.2]

theorem hostCommand_of_not_taken {i : Instr} {a : Access} (body : State → State) (h : s.linkTakes i = true)
    (h' : a.taken s.part = false) : hostCommand i a body s = .next (s.refuse .notInService) := by
  simp [hostCommand, h, h']

theorem hostCommand_of_ignored {i : Instr} (a : Access) (body : State → State) (h : s.linkTakes i = false) :
    hostCommand i a body s = .next s := by
  simp [hostCommand, h]

/-! ### Reads after writes -/

@[simp] theorem station?_putStation (w w' : Nat) (e : Station) :
    (s.putStation w e).station? w' = if w' = w then some { e with sound := true } else s.station? w' :=
  slotGet_slotSet _ _ _ _

@[simp] theorem station?_setStation (w w' : Nat) (e : Station) :
    (s.setStation w e).station? w' = if w' = w then some e else s.station? w' := slotGet_slotSet _ _ _ _

@[simp] theorem occ?_putOcc (i j : Nat) (o : Occ) :
    (s.putOcc i o).occ? j = if j = i then some { o with sound := true } else s.occ? j := slotGet_slotSet _ _ _ _

@[simp] theorem occ?_setOcc (i j : Nat) (o : Occ) :
    (s.setOcc i o).occ? j = if j = i then some o else s.occ? j := slotGet_slotSet _ _ _ _

@[simp] theorem loop?_putLoop (l l' : Nat) (r : Loop) :
    (s.putLoop l r).loop? l' = if l' = l then some { r with sound := true } else s.loop? l' := slotGet_slotSet _ _ _ _

@[simp] theorem loop?_setLoop (l l' : Nat) (r : Loop) :
    (s.setLoop l r).loop? l' = if l' = l then some r else s.loop? l' := slotGet_slotSet _ _ _ _

@[simp] theorem loop?_freeLoop (l l' : Nat) :
    (s.freeLoop l).loop? l' = if l' = l then none else s.loop? l' := slotGet_slotErase _ _ _

@[simp] theorem station?_freeEntry (w w' : Nat) :
    (s.freeEntry w).station? w' = if w' = w then none else s.station? w' := slotGet_slotErase _ _ _

@[simp] theorem station?_respond (st : Status) (b : List Byte) (w : Nat) :
    (s.respond st b).station? w = s.station? w := rfl
@[simp] theorem occ?_respond (st : Status) (b : List Byte) (i : Nat) : (s.respond st b).occ? i = s.occ? i := rfl
@[simp] theorem loop?_respond (st : Status) (b : List Byte) (l : Nat) : (s.respond st b).loop? l = s.loop? l := rfl
@[simp] theorem station?_touch (w w' : Nat) : (s.touch w).station? w' = s.station? w' := rfl
@[simp] theorem occ?_touch (w i : Nat) : (s.touch w).occ? i = s.occ? i := rfl
@[simp] theorem loop?_touch (w l : Nat) : (s.touch w).loop? l = s.loop? l := rfl
@[simp] theorem station?_putOcc (i : Nat) (o : Occ) (w : Nat) : (s.putOcc i o).station? w = s.station? w := rfl
@[simp] theorem station?_putLoop (l : Nat) (r : Loop) (w : Nat) : (s.putLoop l r).station? w = s.station? w := rfl
@[simp] theorem occ?_putStation (w : Nat) (e : Station) (i : Nat) : (s.putStation w e).occ? i = s.occ? i := rfl
@[simp] theorem occ?_putLoop (l : Nat) (r : Loop) (i : Nat) : (s.putLoop l r).occ? i = s.occ? i := rfl
@[simp] theorem loop?_putOcc (i : Nat) (o : Occ) (l : Nat) : (s.putOcc i o).loop? l = s.loop? l := rfl
@[simp] theorem loop?_putStation (w : Nat) (e : Station) (l : Nat) : (s.putStation w e).loop? l = s.loop? l := rfl

/-- A freed record is FREE, and no other record changes, but for what the check of others' lists cannot touch:
the freeing of one record leaves every other record of the pool as it is. -/
theorem unlist_occs (i : Nat) (s : State) (w : Nat) : (State.unlist i s w).occs = s.occs := by
  have hc : ∀ (s : State) w, (s.checkStation w).occs = s.occs := by
    intro s w
    unfold State.checkStation
    split
    · split <;> rfl
    · rfl
  have hp : ∀ (s : State) w e, (s.putChanged w e).occs = s.occs := by
    intro s w e
    unfold State.putChanged State.noteMark
    split <;> rfl
  unfold State.unlist
  dsimp only
  split
  · split
    · rw [hp, hc]
    · rw [hc]
  · rw [hc]

theorem unmember_occs (i : Nat) (s : State) (l : Nat) : (State.unmember i s l).occs = s.occs := by
  have hc : ∀ (s : State) l, (s.checkLoop l).occs = s.occs := by
    intro s l
    unfold State.checkLoop
    split
    · split <;> rfl
    · rfl
  unfold State.unmember
  split
  · split
    · dsimp only
      split
      · split
        · rw [hc]
        · rw [putLoop_occs', hc]
      · rw [hc]
    · rfl
  · rfl
where
  putLoop_occs' {s : State} {l : Nat} {r : Loop} : (s.putLoop l r).occs = s.occs := rfl

theorem foldl_occs {f : State → Nat → State} (hf : ∀ s w, (f s w).occs = s.occs) (ws : List Nat) (s : State) :
    (ws.foldl f s).occs = s.occs := by
  induction ws generalizing s with
  | nil => rfl
  | cons w ws ih => rw [List.foldl_cons, ih, hf]

theorem occ?_freeOcc (ws : List Nat) (i j : Nat) :
    (s.freeOcc ws i).occ? j = if j = i then none else s.occ? j := by
  unfold State.freeOcc State.occ?
  dsimp only
  rw [slotGet_slotErase, foldl_occs (unmember_occs i), foldl_occs (unlist_occs i)]

/-! ### Intact memory -/

theorem intact_station (h : s.intact = true) {w : Nat} {e : Station} (he : s.station? w = some e) :
    e.sound = true ∧ e.damaged = false := by
  simp only [State.intact, Bool.and_eq_true, List.all_eq_true] at h
  have := h.1.1.1.1.1.1.1 _ (mem_of_slotGet he)
  simpa using this

theorem intact_occ (h : s.intact = true) {i : Nat} {o : Occ} (ho : s.occ? i = some o) :
    o.sound = true ∧ o.damaged = false := by
  simp only [State.intact, Bool.and_eq_true, List.all_eq_true] at h
  have := h.1.1.1.1.1.1.2 _ (mem_of_slotGet ho)
  simpa using this

theorem intact_loop (h : s.intact = true) {l : Nat} {r : Loop} (hr : s.loop? l = some r) :
    r.sound = true ∧ r.damaged = false := by
  simp only [State.intact, Bool.and_eq_true, List.all_eq_true] at h
  have := h.1.1.1.1.1.2 _ (mem_of_slotGet hr)
  simpa using this

theorem intact_constants (h : s.intact = true) : s.constants.sound = true ∧ s.constants.damaged = false := by
  simp only [State.intact, Bool.and_eq_true] at h
  exact ⟨h.1.1.1.1.2, by simpa using h.1.1.1.2⟩

theorem intact_constituent (h : s.intact = true) (k : Nat) :
    (s.constituent k).sound = true ∧ (s.constituent k).damaged = false := by
  simp only [State.intact, Bool.and_eq_true, List.all_eq_true] at h
  unfold State.constituent
  cases hk : s.constituents[k]? with
  | none => exact ⟨rfl, rfl⟩
  | some c =>
    obtain ⟨hlt, hc⟩ := Vector.getElem?_eq_some_iff.1 hk
    have hm : c ∈ s.constituents.toList := by rw [← hc]; simp
    have := h.1.1.2 c hm
    simpa using this

theorem intact_site (h : s.intact = true) (k : Nat) : (s.site k).sound = true ∧ (s.site k).damaged = false := by
  simp only [State.intact, Bool.and_eq_true, List.all_eq_true] at h
  unfold State.site
  cases hk : s.sites[k]? with
  | none => exact ⟨rfl, rfl⟩
  | some c =>
    obtain ⟨hlt, hc⟩ := Vector.getElem?_eq_some_iff.1 hk
    have hm : c ∈ s.sites.toList := by rw [← hc]; simp
    have := h.1.2 c hm
    simpa using this

theorem intact_late (h : s.intact = true) : s.late = none := by
  simp only [State.intact, Bool.and_eq_true] at h
  simpa using h.2

theorem checkStation_of_intact (h : s.intact = true) (w : Nat) : s.checkStation w = s := by
  unfold State.checkStation
  split
  · rename_i e he
    rw [if_pos (intact_station h he).1]
  · rfl

theorem checkOcc_of_intact (h : s.intact = true) (i : Nat) : s.checkOcc i = s := by
  unfold State.checkOcc
  split
  · rename_i o ho
    rw [if_pos (intact_occ h ho).1]
  · rfl

theorem checkLoop_of_intact (h : s.intact = true) (l : Nat) : s.checkLoop l = s := by
  unfold State.checkLoop
  split
  · rename_i r hr
    have := intact_loop h hr
    rw [if_pos (by simp [this.1, this.2])]
  · rfl

theorem checkConstituent_of_intact (h : s.intact = true) (k : Nat) : s.checkConstituent k = s := by
  have := intact_constituent h k
  unfold State.checkConstituent
  simp [this.1, this.2]

theorem checkSite_of_intact (h : s.intact = true) (k : Nat) : s.checkSite k = s := by
  have := intact_site h k
  unfold State.checkSite
  simp [this.1, this.2]

theorem checkConstants_of_intact (h : s.intact = true) (again : Bool) : s.checkConstants again = s := by
  have := intact_constants h
  unfold State.checkConstants
  simp [this.1, this.2]

theorem foldl_of_fixed {β : Type} {f : State → β → State} (hf : ∀ b, f s b = s) (l : List β) : l.foldl f s = s := by
  induction l with
  | nil => rfl
  | cons b l ih => rw [List.foldl_cons, hf, ih]

theorem checkStations_of_intact (h : s.intact = true) (ws : List Nat) : s.checkStations ws = s :=
  foldl_of_fixed (checkStation_of_intact h) ws

theorem checkOccs_of_intact (h : s.intact = true) (is : List Nat) : s.checkOccs is = s :=
  foldl_of_fixed (checkOcc_of_intact h) is

theorem checkPool_of_intact (h : s.intact = true) : s.checkPool = s := checkOccs_of_intact h _

theorem checkNaming_of_intact (h : s.intact = true) (is : List Nat) : s.checkNaming is = s := by
  unfold State.checkNaming
  split
  · exact checkOccs_of_intact h is
  · rfl

theorem readOut_of_intact (h : s.intact = true) (w : Nat) : s.readOut w = s := by
  simp [State.readOut, intact_late h, checkStation_of_intact h]

theorem checkLoops_of_intact (h : s.intact = true) : s.checkLoops = s := foldl_of_fixed (checkLoop_of_intact h) _

theorem checkConstituents_of_intact (h : s.intact = true) : s.checkConstituents = s :=
  foldl_of_fixed (checkConstituent_of_intact h) _

/-! ### The keyed lookup on intact memory (R6) -/

theorem keyedLookup_of_found (h : s.intact = true) {n w : Nat} {e : Station} (hm : s.matching n = [w])
    (he : s.station? w = some e) : s.keyedLookup n = (s.activate w, .found w) := by
  have hd := (intact_station h he).2
  simp [State.keyedLookup, checkStations_of_intact h, hm, he, hd]

theorem keyedLookup_of_absent (h : s.intact = true) {n : Nat} (hm : s.matching n = []) :
    s.keyedLookup n = (s, .noStation) := by
  simp [State.keyedLookup, checkStations_of_intact h, hm]

theorem activate_of_active {w : Nat} {e : Station} (he : s.station? w = some e) (ha : e.state = .active) :
    s.activate w = s := by
  simp [State.activate, he, ha]

theorem internalLookup_of_intact (h : s.intact = true) (n : Nat) : s.internalLookup n = (s, s.usable n) := by
  simp [State.internalLookup, checkStations_of_intact h]

end Sys2Proof.Machine
end

