-- ==== Sys2Proof/Tests/Slice0.lean ====
section
/-! SUPPORT. Tests. First the ill-formed terms that WellFormed refuses; then worked cases of the manual, each with
its section; then, for each obligation with hypotheses, a state and operands that meet them. -/

namespace Sys2Proof.Tests

open Sys2Proof Sys2Proof.Machine

/-! ### WellFormed refuses what no frame carries (R181) -/

def openReq : OpenStationReq := { number := 1, role := 0, site := 0, reference := none, pinned := 0, tag := 0 }
def editReq : EditStationReq :=
  { number := 1, role := none, site := none, reference := none, pinned := none, tag := none }
def beginReq : BeginReadingReq := { number := 1, loop := none, duration := 10, settle := 1, abortOnTilt := 0 }
def constReq : WriteConstantsReq := { nums := defaultNums, mode := 0, enableX := 1, enableY := 1, enableT := 1 }
def stationReq : LoadStationReq :=
  { number := 1, role := 0, site := 0, reference := none, pinned := 0, tag := 0, changed := 0, list := [] }
def sumsReq : LoadSums :=
  { sumX := 5, sumX2 := 25, n := 1, sumT := 0, overload := 0, clamped := 0, breaks := 0, tiltX2 := 0, mx := 0,
    tiltY2 := 0, my := 0, lastX := none, lastY := none, sumTemp := 0, sumLag := 0, k := 0, lastT := none, lastL := none }
def results1 : Results :=
  { raw := 100, noise := none, ctilt := 0, ctemp := 0, ctide := 0, v := 100, revision := 0, site := 0, siteRevision := 0 }
def drift1 : DriftPart := { correction := 0, final := 100, vOpen := 100, rOpen := none, rate := 0 }
def occReq : LoadOccupationReq :=
  { state := 3, number := 1, settle := 0, duration := 10, abortOnTilt := 0, memberOf := none, opens := none,
    startTick := some 0, epoch := some 20, openRevision := some 0, sums := sumsReq, flags := {}, oddFlag := false,
    results := none, drift := none }
def loopReq : LoadLoopReq :=
  { loop := 0, state := 1, openEnd := 0, openEpoch := 0, deadline := 9, members := [], closing := none, mode := none,
    deltaV := none, rate := none, driftHigh := 0, interrupted := 0 }

theorem test_wf_stations :
    ([.openStation openReq, .editStation editReq, .findStation 65535, .readSlot 255 255, .loadStation stationReq] :
      List Instr).all Instr.wellFormed = true ∧
    ([.openStation { openReq with number := 65536 }, .openStation { openReq with role := 256 },
      .openStation { openReq with site := 256 }, .openStation { openReq with reference := some 4294967296 },
      .openStation { openReq with pinned := 256 }, .editStation { editReq with number := 65536 },
      .editStation { editReq with role := some 256 }, .editStation { editReq with site := some 256 },
      .editStation { editReq with reference := some (.set 4294967296) },
      .editStation { editReq with reference := some (.unnamed 1) },
      .editStation { editReq with pinned := some 256 }, .findStation 65536, .readStation 65536, .readSlot 256 0,
      .readSlot 0 256, .retireStation 65536, .retireSlot 256 0, .retireSlot 0 256, .exportStation 65536,
      .nextChanged (some 65536), .readExportPart 256] : List Instr).all (fun i => !i.wellFormed) = true := by decide

theorem test_wf_readings_and_loops :
    ([.beginReading { beginReq with number := 65536 }, .beginReading { beginReq with loop := some 256 },
      .beginReading { beginReq with duration := 65536 }, .beginReading { beginReq with settle := 65536 },
      .beginReading { beginReq with abortOnTilt := 256 }, .discardOccupation 65536, .readOccupation 65536,
      .tiltGateComplete .x 16777215, .temperatureGateComplete 16777215, .openLoop 256 0, .openLoop 0 65536,
      .loopExpired 16, .closeLoop 256 0 0 0, .closeLoop 0 65536 0 0, .closeLoop 0 0 256 0, .closeLoop 0 0 0 256,
      .voidLoop 256, .releaseLoop 256, .readLoop 256] : List Instr).all (fun i => !i.wellFormed) = true := by decide

theorem test_wf_tables :
    ([.writeConstituent 256 0 1 0, .writeConstituent 0 256 1 0, .writeConstituent 0 0 16777216 0,
      .writeConstituent 0 0 1 65536, .writeSite 256 zeroPairs, .writeSite 0 [], .writeSite 0 ((65536, 0) :: zeroPairs.drop 1),
      .writeSite 0 ((0, 65536) :: zeroPairs.drop 1), .clearSite 256, .readSite 256,
      .writeConstants { constReq with nums := { defaultNums with c1 := 2147483648 } },
      .writeConstants { constReq with mode := 256 }, .writeConstants { constReq with enableX := 256 },
      .writeConstants { constReq with enableY := 256 }, .writeConstants { constReq with enableT := 256 },
      .setClock 4294967296 0, .setClock 0 65536, .trimClock 32768, .trimClock (-32769), .submitJob 256 0 0,
      .submitJob 0 65536 0, .submitJob 0 0 256, .restartEngineRetry 1, .restartEngineRetry 256] :
      List Instr).all (fun i => !i.wellFormed) = true := by decide

theorem test_wf_loads :
    ([.loadStation { stationReq with number := 65536 }, .loadStation { stationReq with changed := 256 },
      .loadStation { stationReq with list := List.range 9 }, .loadStation { stationReq with list := [65536] },
      .loadOccupation 65536 occReq, .loadOccupation 0 { occReq with state := 256 },
      .loadOccupation 0 { occReq with epoch := some 281474976710656 },
      .loadOccupation 0 { occReq with sums := { sumsReq with sumX := 2 ^ 127 } },
      .loadOccupation 0 { occReq with sums := { sumsReq with lastX := some 32768 } },
      .loadOccupation 0 { occReq with results := some { results1 with v := 2147483648 } },
      .loadOccupation 0 { occReq with drift := some { drift1 with rate := -2147483649 } },
      .loadLoop { loopReq with loop := 256 }, .loadLoop { loopReq with deadline := 281474976710656 },
      .loadLoop { loopReq with members := List.range 65 }, .loadLoop { loopReq with closing := some 65536 },
      .loadLoop { loopReq with deltaV := some 2147483648 }, .loadLoop { loopReq with driftHigh := 256 }] :
      List Instr).all (fun i => !i.wellFormed) = true := by decide

/-! ### Worked cases of the manual -/

/-- spec/04, Worked case: one reading reduced. -/
def caseSums : Sums :=
  { sumX := 1234567800, sumX2 := 2540262807661400, n := 600, mx := 300, tiltX2 := 4320000, my := 300, tiltY2 := 2167500,
    k := 150, sumTemp := 18000, sumLag := 12750 }

def caseConstants : Constants :=
  { defaultConstants with
    nums := { defaultNums with gravity := 979812, scale := 65536, rangeOffset := 50282387, c1 := -450, c2 := 300 }
    revision := 7 }

theorem test_reduction_case : resultsOf caseConstants caseSums (some 300) 2 4 =
    { raw := 52340000, noise := some 12, ctilt := 106, ctemp := 29, ctide := -300, v := 52339835, revision := 7,
      site := 2, siteRevision := 4 } := by decide

/-- spec/04, Worked case: revised constants and a held channel. -/
theorem test_revised_case :
    tempCorrection { caseConstants.nums with c2 := 320 } caseSums = 27 ∧
    tiltCorrection caseConstants.nums { caseSums with my := 0, tiltY2 := 0 } = 71 ∧
    redrift 52339698 { drift1 with correction := -144 } = { drift1 with correction := -144, final := 52339554 } := by
  decide

/-- spec/05, Worked case: a tide value. -/
theorem test_tide_case :
    tidePhase 6147446 0 2923 51376773 = 10923 ∧ cosEntry 682 = 16413 ∧ cosEntry 683 = 16369 ∧ cosine 10923 = 16383 ∧
    tideValue [{ clearConstituent with enabled := true, speed := 6147446 }]
      { clearSite with set := true, revision := 4, pairs := (600, 2923) :: zeroPairs.drop 1 } 51376773 = 300 := by decide

/-- spec/03, Worked case: temperature gates and the lag. -/
def gateNums : ConstNums :=
  { defaultNums with zeroT := 8388608, scaleT := -2000, lagFactor := 16, zeroX := 8400000, scaleX := 640 }

theorem test_gate_case :
    tempValue gateNums 8380000 = 263 ∧ nextLag gateNums none 263 = 263 ∧ tempValue gateNums 8379000 = 293 ∧
    nextLag gateNums (some 263) 293 = 265 ∧ tempValue gateNums 8378000 = 324 ∧ nextLag gateNums (some 265) 324 = 269 ∧
    tiltValue gateNums .x 8412337 = (120, false) ∧ tiltValue gateNums .x 8700000 = (2000, true) := by decide

/-- spec/06, Worked case: closing a loop. -/
def caseDrift : DriftCalc :=
  { deltaV := 360, rate := 360, high := false, tOpen := 33177600, tClose := 36864000, vOpen := 52341120,
    rOpen := some 979812345, mode := .drift }

theorem test_drift_case :
    exactRate .drift 360 33177600 36864000 = 360 ∧
    driftPartOf caseDrift 52198400 34652160 =
      { correction := -144, final := 52198256, vOpen := 52341120, rOpen := some 979812345, rate := 360 } ∧
    (driftPartOf caseDrift 52405750 35727872).final = 52405501 ∧
    (driftPartOf caseDrift 52341480 36864000).final = 52341120 := by decide

/-- spec/08, Worked case: exporting a base station. -/
theorem test_network_case :
    [RoundMode.nearest, .up, .down, .zero].map (roundTen · 9797980586) = [979798059, 979798059, 979798058, 979798058] ∧
    [RoundMode.nearest, .up, .down, .zero].map (roundTen · 9798187831) = [979818783, 979818784, 979818783, 979818783] ∧
    networkExact 979812345 { drift1 with final := 52198256, vOpen := 52341120 } = 9797980586 := by decide

/-- A reading of one sample that ended at an epoch. -/
def readingAt (epoch : Nat) : Reading :=
  { startTick := 0, epoch := epoch, openRevision := 0, sums := { sumX := 5, sumX2 := 25, n := 1 } }

/-- A PENDING record. -/
def pendingOcc (number epoch : Nat) : Occ :=
  { state := .pending, damaged := false, sound := true, station := number, settle := 1, duration := 10,
    abortOnTilt := false, memberOf := none, opens := none, reading := some (readingAt epoch), results := none,
    drift := none, flags := {} }

/-- A REDUCED record. -/
def reducedRec (number epoch : Nat) : Occ := { pendingOcc number epoch with state := .reduced, results := some results1 }

/-- spec/08, Worked case: grades at the edges. -/
def gradeCase (noise : Option Nat) (breaks : Nat) (f : Flags) : Grade :=
  gradeOf defaultNums { reducedRec 1 20 with
    reading := some { readingAt 20 with sums := { n := 1, breaks := breaks } }
    results := some { results1 with noise := noise }, flags := f }

theorem test_grade_case :
    [gradeCase (some 30) 2 { tiltHeld := true, breaks := true }, gradeCase (some 30) 3 { breaks := true },
     gradeCase (some 12) 0 { tiltRange := true }, gradeCase (some 12) 0 { tempMissing := true },
     gradeCase (some 12) 0 { tiltMissing := true }, gradeCase (some 101) 0 {}, gradeCase none 0 {},
     gradeCase (some 5) 0 { short := true }, gradeCase (some 5) 0 { sensorLost := true, saturated := true },
     gradeOf defaultNums (pendingOcc 1 20)] =
    [.a, .b, .b, .b, .c, .c, .c, .reject, .reject, .none] := by decide

/-- spec/09, Worked case: a clamped write; fields 9, 14 and 18 are Kt, the tilt limit and NB. -/
theorem test_clamped_write :
    clampedFields { defaultNums with scaleT := -70000, tiltLimit := 5, gradeA := 150, gradeB := 100 } =
      [(9, -65535), (14, 10), (18, 150)] := by decide

/-! ### States for the tests -/

def clockAt (seconds ticks : Nat) : Clock :=
  { seconds := seconds, ticks := ticks, isSet := true, held := decide (seconds = 4294967295), trim := 0, slew := 0,
    left := none }

/-- In READY with the clock set. -/
def ready : State := { State.reset with clock := clockAt 100 0 }

def baseStation (list : List Nat) : Station :=
  { number := 1, state := .active, damaged := false, sound := true, role := .base, pinned := false, site := 0,
    reference := some 980000000, tag := 7, list := list, changed := false }

/-- Station 1, in way 0 of set 1, with its occupations. -/
def withBase (occs : List (Nat × Occ)) : State :=
  { ready with stations := [(4, baseStation (occs.map (·.1)))], recency := [(1, [4])], occs := occs }

def starting (pass cursor : Nat) (s : State) : State :=
  { s with
    part := .starting
    scan := some { origin := .reset, pass := pass, ended := none, counts := {}, cursor := cursor, marked := [],
                   found := [] } }

def engineAt (k : JobKind) (p : Place) (s : State) : State :=
  { s with
    engine := { idleEngine with
      state := .working
      flight := some { startFlight { kind := k, origin := .host, tag := 5 } with place := p } } }

def windowAt (phase : Phase) (n : Nat) : Window :=
  { occ := 0, station := 1, memberOf := none, settle := 1, duration := 10, abortOnTilt := false, phase := phase,
    sums := { n := n }, clamped := false, overload := false, tiltLimit := false, tiltRange := false,
    constantsChanged := false, tiltRaised := false, breakRaised := false }

/-- Station 1 with a window open on record 0. -/
def inReading (phase : Phase) (n : Nat) : State :=
  { withBase [(0, { pendingOcc 1 0 with
      state := (match phase with | .settling _ => .settling | .collecting _ _ _ => .collecting), reading := none })] with
    window := some (windowAt phase n) }

def loopOf (st : LoopState) (members : List Nat) : Loop :=
  { state := st, damaged := false, sound := true, openEnd := 0, openEpoch := 5, deadline := 102401, members := members,
    closing := if closeState st then some 1 else none, mode := if closeState st then some .noDrift else none,
    deltaV := if st = .closed then some 0 else none, rate := if st = .closed then some 0 else none, driftHigh := false,
    interrupted := false }

/-- Loop 0 on record 0, with record 1 its member; both of station 1. -/
def withLoop (st : LoopState) (second : Occ) : State :=
  { withBase [(0, { reducedRec 1 20 with opens := some 0 }), (1, { second with memberOf := some 0 })] with
    loops := [(0, loopOf st [1])] }

/-! ### One command -/

/-- The answer that the link holds. -/
def answer (o : Host.Outcome State Fault Refusal) : Option Response :=
  match o with
  | .next s => s.link.held
  | _ => none

/-- spec/01, Worked case: a full set: the opening of station 337 reclaims station 273. -/
def fullSet : State :=
  { ready with
    stations := [(68, { baseStation [] with number := 81, pinned := true }), (69, { baseStation [] with number := 145, changed := true }),
                 (70, { baseStation [77] with number := 209 }), (71, { baseStation [40, 96] with number := 273 })]
    recency := [(17, [69, 71, 68, 70])]
    occs := [(40, { reducedRec 273 20 with state := .final, drift := some drift1 }), (77, { reducedRec 209 20 with memberOf := some 3 }),
             (96, { reducedRec 273 30 with state := .final, drift := some drift1 })]
    loops := [(3, { loopOf .opened [77] with openEnd := 5 })] }

theorem test_full_set :
    answer (exec (.openStation { openReq with number := 337, role := 1, site := 2 }) fullSet) =
      some { status := .ok, payload := [17, 3, 1, 1, 17] } := by decide

theorem test_full_set_after :
    (match exec (.openStation { openReq with number := 337, role := 1, site := 2 }) fullSet with
     | .next s => (s.order 17, slotKeys s.occs)
     | _ => ([], [])) = ([71, 69, 68, 70], [77]) := by decide

/-- spec/01, Worked case: a duplicated number. -/
def duplicated : State :=
  { ready with
    stations := [(73, { baseStation [] with number := 530, state := .suspect }),
                 (74, { baseStation [] with number := 530, state := .suspect })]
    recency := [(18, [74, 73])] }

theorem test_duplicate :
    answer (exec (.readStation 530) duplicated) = some { status := .duplicateKey, payload := [] } ∧
    answer (exec (.retireSlot 18 2) duplicated) = some { status := .ok, payload := [2, 18, 0, 0] } := by decide

/-- spec/10, R187. -/
theorem test_identify :
    answer (exec .identify State.reset) = some { status := .ok, payload := [0x4A, 0x47, 0x33, 0x31, 0x32, 1, 2, 240] } := by
  decide

/-- R178: a period that slews forward moves the epoch by two. -/
theorem test_slew :
    (match exec .basePeriodEnd { ready with clock := { clockAt 100 1023 with trim := 1536, slew := 63 } } with
     | .next s => s.clock
     | _ => clockAt 0 0) = { clockAt 101 1 with trim := 1535, slew := 0 } := by decide

/-! ### Witnesses: a state and operands that meet the hypotheses of each obligation -/

/-- StepTakesFront, StepIdles. -/
theorem witness_step :
    ({ ready with pending := [.readClock, .identify] } : State).pending = .readClock :: [.identify] ∧
    ready.pending = [] := by decide

/-- QueueKept, WrittenOnlyByWrites. -/
theorem witness_exec : ∃ t, exec .readClock ready = .next t := ⟨_, rfl⟩

/-- The invariants that every step keeps, in a state that is not the one after reset. -/
theorem witness_invariants :
    (let s := { withLoop .closed (reducedRec 1 30) with pending := [.readClock] }
     s.eventsWf && s.engineWf && s.clockWf && s.frontWf && s.stationsWf && s.loopsWf && s.recordsWf && s.resultsWf) = true ∧
    ∃ t, step { withLoop .closed (reducedRec 1 30) with pending := [.readClock] } = .next t :=
  ⟨by decide, _, rfl⟩

/-- FrameReadsBack, CommandTaken. -/
theorem witness_frame :
    (Instr.findStation 65534).frame = some (0x12, [0xFF, 0xFE]) ∧ (Instr.findStation 65534).wellFormed = true ∧
    ({ ready with link := { clearLink with period := some ⟨false, []⟩ } } : State).link.period = some ⟨false, []⟩ ∧
    ({ ready with link := { clearLink with period := some ⟨false, []⟩, executing := some .readClock } } :
      State).link.executing.isSome = true := by decide

/-- LinkPeriods. -/
theorem witness_periods :
    (0xFE : Byte) ≠ 0xFF ∧ parserOf 0xFE = none ∧ (parserOf 0x12).isSome = true ∧ 240 < (241 : Byte).toNat ∧
    ready.link.period = none ∧ ready.linkStopped = false ∧ ready.link.held = none ∧
    ({ ready with link := { clearLink with held := some ⟨.ok, []⟩ } } : State).link.held = some ⟨.ok, []⟩ ∧
    ({ ready with resetHeld := true } : State).linkStopped = true := by decide

/-- LinkAnswers. -/
theorem witness_answers :
    (Instr.identify).frame.isSome = true ∧ ({ ready with part := .standby } : State).linkStopped = true ∧
    access (.openStation openReq) = some .ready ∧
    (starting 1 0 ready).linkTakes (.openStation openReq) = true ∧ Access.taken .ready (starting 1 0 ready).part = false ∧
    ready.link.discard = false ∧ ({ ready with link := { clearLink with discard := true } } : State).link.discard = true := by
  decide

/-- Events: a mask with the highest event, and one with bit 14. -/
theorem witness_events :
    ready.serves .readEvents .always = true ∧ (0x2000 : BitVec 16).getLsbD 14 = false ∧
    (0x2000 : BitVec 16).getLsbD 15 = false ∧ (0x4000 : BitVec 16).getLsbD 14 = true ∧
    ready.serves (.clearEvents 0x2000) .always = true ∧ ready.serves (.setEvents 0x2000) .always = true ∧
    ready.serves (.enableEvents 0x2000) .always = true ∧ ready.serves (.clearEvents 0x4000) .always = true ∧
    ready.serves (.setEvents 0x4000) .always = true ∧ ready.serves (.enableEvents 0x4000) .always = true ∧
    ready.eventsWf = true := by decide

/-- Identify, ReadConstants, StatusReads, and the READ CLOCK of ClockCommands: the part states that take them, and the one that
does not. -/
theorem witness_reads :
    ready.linkTakes .identify = true ∧ ready.part = .ready ∧ (starting 1 0 ready).linkTakes .identify = true ∧
    (starting 1 0 ready).part = .starting ∧ ({ ready with part := .restore } : State).linkTakes .identify = true ∧
    ({ ready with part := .restore } : State).linkTakes .readClock = true ∧ ready.linkTakes .readConstants = true ∧
    (starting 1 0 ready).linkTakes .readClock = true ∧ (starting 1 0 ready).linkTakes .readConstants = true ∧
    ready.serves .readQueue .readyRestore = true ∧ ready.serves .readFault .readyRestore = true ∧
    ready.serves .readWindow .readyRestore = true ∧ (starting 1 0 ready).serves .readScanReport .always = true ∧
    ready.engine.fault = none ∧ ready.constants.damaged = false ∧ ready.constants.sound = true := by decide

/-- ClockCommands: the ends of the ranges and the values beyond them. -/
theorem witness_clock :
    State.reset.serves (.setClock 4294967295 1023) .readyRestore = true ∧ State.reset.clock.isSet = false ∧
    State.reset.serves (.setClock 4294967296 1024) .readyRestore = true ∧
    (withBase [(0, pendingOcc 1 20)]).serves (.setClock 0 0) .readyRestore = true ∧
    (withBase [(0, pendingOcc 1 20)]).clock.isSet = true ∧ (withBase [(0, pendingOcc 1 20)]).occs ≠ [] ∧
    ready.serves (.trimClock 2048) .ready = true ∧ ready.serves (.trimClock (-2048)) .ready = true ∧
    ready.serves (.trimClock 2049) .ready = true ∧ ready.serves (.trimClock (-2049)) .ready = true ∧
    State.reset.serves (.trimClock 0) .ready = true := by decide

/-- BasePeriods: the held clock, no trim, a count, and a slew either way. -/
theorem witness_periods_of_time :
    ({ ready with clock := clockAt 4294967295 0 } : State).clockWf = true ∧ ready.clockWf = true ∧
    ({ ready with clock := { clockAt 100 0 with trim := 1, slew := 62 } } : State).clockWf = true ∧
    ({ ready with clock := { clockAt 100 0 with trim := 2048, slew := 63 } } : State).clockWf = true ∧
    ({ ready with clock := { clockAt 100 0 with trim := -2048, slew := 63 } } : State).clockWf = true ∧
    (clockAt 4294967295 0).held = true ∧ (clockAt 100 0).held = false ∧ (ready.epoch + 1 < 4294967295 * 1024) := by decide

/-- TickCounts, LoopExpiry. -/
theorem witness_ticks :
    (let s := { inReading (.settling 1) 0 with front := { ready.front with live := some ⟨2047, 0⟩ } }
     s.clockWf = true ∧ s.clock.held = false ∧ s.clock.trim = 0 ∧ s.mainRuns = true ∧ s.settleDue = false ∧ s.clamp = false ∧
       s.window.any Window.complete = false ∧ s.expiryDue = [] ∧ s.loops = []) ∧
    (let s := { withLoop .opened (reducedRec 1 30) with clock := clockAt 100 0 }
     s.mainRuns = true ∧ s.clock.left = none ∧ (∀ q ∈ s.loops, q.2.sound = true ∧ q.2.damaged = false) ∧
       s.loop? 0 = some (loopOf .opened [1]) ∧ (loopOf .opened [1]).deadline ≤ s.epoch + 1) ∧
    (let s := inReading (.collecting 0 10239 0) 0
     s.clock.held = false ∧ s.settleDue = false ∧ s.window.any Window.complete = false ∧ s.mainRuns = true) ∧
    (let s := withLoop .opened (reducedRec 1 30)
     s.intact = true ∧ s.clockWf = true ∧ s.settleDue = false ∧ s.window = none ∧ s.front.live = none ∧
       s.expiryDue = []) ∧
    (let s := { withLoop .opened (reducedRec 1 30) with clock := clockAt 100 1, expiryDue := [0] }
     0 ∈ s.expiryDue ∧ s.loop? 0 = some (loopOf .opened [1]) ∧ 102401 ≤ s.epoch ∧ s.resetHeld = false) := by decide

/-- TideWrites, TideArithmetic, RecordReads of a site. -/
theorem witness_tide :
    ready.serves (.writeConstituent 11 1 16777215 65535) .readyRestore = true ∧
    ready.serves (.writeConstituent 12 0 1 0) .readyRestore = true ∧
    ready.serves (.writeSite 7 zeroPairs) .readyRestore = true ∧ zeroPairs.length = 12 ∧
    ready.serves (.writeSite 8 zeroPairs) .readyRestore = true ∧ ready.serves (.clearSite 7) .ready = true ∧
    ready.serves (.clearSite 8) .ready = true ∧ amplitudeSum { clearSite with pairs := List.replicate 12 (2000, 0) } ≤ 24000 ∧
    ready.serves (.readSite 7) .readyRestore = true ∧ ready.intact = true ∧
    (({ ready with sites := ready.sites.set 7 { clearSite with sound := false } } : State).site 7).sound = false := by decide

/-- WriteConstants. -/
theorem witness_constants :
    ready.serves (.writeConstants constReq) .readyRestore = true ∧ constReq.mode < 4 ∧
    ready.serves (.writeConstants { constReq with mode := 4 }) .readyRestore = true := by decide

/-- FindStation, and the reads of a station in RecordReads. -/
theorem witness_find :
    ready.linkTakes (.findStation 0) = true ∧ ready.linkTakes (.findStation 65535) = true ∧
    (withBase []).linkTakes (.findStation 1) = true ∧ (withBase []).intact = true ∧ (withBase []).matching 1 = [4] ∧
    (withBase []).matching 65 = [] ∧ (withBase []).station? 4 = some (baseStation []) ∧
    duplicated.matching 530 = [73, 74] ∧ duplicated.intact = true ∧
    (let s := { withBase [] with stations := [(4, { baseStation [] with state := .suspect })] }
     s.intact = true ∧ s.matching 1 = [4]) ∧
    (withBase []).serves (.readStation 1) .readyRestore = true ∧ (withBase []).serves (.readSlot 1 0) .readyRestore = true ∧
    (withBase []).serves (.readSlot 63 3) .readyRestore = true ∧ (withBase []).station? (63 * 4 + 3) = none ∧
    (withBase []).serves (.readSlot 64 0) .readyRestore = true := by decide

/-- OpenStation: the accepted form, in the set's first way, and the refused ones. -/
theorem witness_open :
    (ready.serves (.openStation openReq) .ready = true ∧ ready.intact = true ∧ ready.matching 1 = [] ∧ 1 % 64 = 4 / 4 ∧
      ready.station? 4 = none) ∧
    (∀ v, v / 4 = 4 / 4 → v < 4 → (ready.station? v).isSome = true) ∧
    ready.serves (.openStation { openReq with number := 65535 }) .ready = true ∧
    ready.serves (.openStation { openReq with site := 8 }) .ready = true ∧
    ready.serves (.openStation { openReq with role := 1, reference := some 970000000 }) .ready = true := by
  refine ⟨by decide, fun v h1 h2 => by omega, by decide, by decide, by decide⟩

/-- EditStation, with no loop and with a CLOSED one. -/
theorem witness_edit :
    (let s := withLoop .closed (reducedRec 1 30)
     let r : EditStationReq := { editReq with reference := some (.set 990000000) }
     s.serves (.editStation r) .ready = true ∧ s.intact = true ∧ s.stationsWf = true ∧ s.matching 1 = [4] ∧
       s.station? 4 = some (baseStation [0, 1]) ∧ (0, loopOf .closed [1]) ∈ s.loops) ∧
    (let s := withBase [(0, pendingOcc 1 20)]
     let r : EditStationReq := { editReq with reference := some (.set 970000000) }
     s.serves (.editStation r) .ready = true ∧ s.intact = true ∧ s.loops = [] ∧ s.matching 1 = [4]) ∧
    (let r : EditStationReq := { editReq with site := some 7, pinned := some 1, tag := some 9 }
     (withBase []).serves (.editStation r) .ready = true ∧ (withBase []).stationsWf = true) := by decide

/-- Retire: an entry whose records are free to go, and one whose record opens a loop. -/
theorem witness_retire :
    (let s := withBase [(0, pendingOcc 1 20)]
     s.intact = true ∧ s.stationsWf = true ∧ s.station? 4 = some (baseStation [0]) ∧
       s.window = none ∧ s.loops = [] ∧ s.matching 1 = [4] ∧ s.serves (.retireStation 1) .ready = true ∧
       s.serves (.retireSlot 1 0) .ready = true) ∧
    (let s := withLoop .opened (pendingOcc 1 30)
     s.intact = true ∧ s.stationsWf = true ∧ (0, loopOf .opened [1]) ∈ s.loops ∧ (loopOf .opened [1]).openEnd = 0 ∧
       1 ∈ (loopOf .opened [1]).members ∧ s.matching 1 = [4]) ∧
    (let s := inReading (.settling 5) 0
     s.intact = true ∧ s.stationsWf = true ∧ s.window = some (windowAt (.settling 5) 0) ∧ s.matching 1 = [4]) := by decide

/-- BeginReading: accepted in an OPEN loop, at the end of the settle range, and refused at each step. -/
theorem witness_begin :
    (let s := withLoop .opened (pendingOcc 1 30)
     let r : BeginReadingReq := { beginReq with loop := some 0, duration := 600, settle := 300 }
     s.serves (.beginReading r) .ready = true ∧ s.intact = true ∧ s.clock.isSet = true ∧ s.window = none ∧
       s.matching 1 = [4] ∧ s.station? 4 = some (baseStation [0, 1]) ∧ s.occ? 2 = none ∧
       (∀ j, j < 2 → (s.occ? j).isSome = true) ∧ s.loop? 0 = some (loopOf .opened [1])) ∧
    ready.serves (.beginReading { beginReq with number := 0 }) .ready = true ∧
    ready.serves (.beginReading { beginReq with duration := 601 }) .ready = true ∧
    State.reset.serves (.beginReading beginReq) .ready = true ∧ State.reset.clock.isSet = false ∧
    (inReading (.settling 5) 0).serves (.beginReading beginReq) .ready = true ∧
    (inReading (.settling 5) 0).window.isSome = true := by decide

/-- SettlePhase. -/
theorem witness_settle :
    (let s := inReading (.settling 0) 0
     s.intact = true ∧ s.window = some (windowAt (.settling 0) 0) ∧ (s.occ? 0).isSome = true) := by decide

/-- WindowCloses, WindowLost: by the count, by the host and by silence; with a sample and without one. -/
theorem witness_window :
    (let s := { inReading (.collecting 0 10240 0) 1 with front := { ready.front with live := some ⟨2048, 0⟩ } }
     s.intact = true ∧ s.window = some (windowAt (.collecting 0 10240 0) 1) ∧ (s.occ? 0).isSome = true ∧
       s.engine.state = .idle ∧ s.resetHeld = false ∧ s.serves .endReading .ready = true ∧ s.part ≠ .standby ∧
       s.front.live = some ⟨2048, 0⟩) ∧
    (let s := inReading (.collecting 0 10240 0) 0
     s.intact = true ∧ s.serves .endReading .ready = true ∧ s.serves .abortReading .ready = true ∧
       (windowAt (.collecting 0 10240 0) 0).sums.n = 0) ∧
    ready.serves .endReading .ready = true ∧ ready.serves .abortReading .ready = true ∧ ready.window = none ∧
    (inReading (.settling 5) 0).serves .endReading .ready = true := by decide

/-- DiscardOccupation: free to go, in use, and FREE. -/
theorem witness_discard :
    (let s := withBase [(0, pendingOcc 1 20)]
     s.serves (.discardOccupation 0) .ready = true ∧ s.intact = true ∧ s.occ? 0 = some (pendingOcc 1 20) ∧ s.loops = [] ∧
       s.serves (.discardOccupation 511) .ready = true ∧ s.occ? 511 = none) ∧
    (let s := withLoop .closed (pendingOcc 1 30)
     s.serves (.discardOccupation 1) .ready = true ∧ s.intact = true ∧ (0, loopOf .closed [1]) ∈ s.loops ∧
       1 ∈ (loopOf .closed [1]).members) := by decide

/-- TiltGate, TemperatureAndLag, ChannelGates: with a gate in progress, in a window and without one. -/
def gated (s : State) : State :=
  { s with
    front := { s.front with
      x := ⟨.counting, some ⟨1024, 1023⟩, 5, 2⟩
      t := ⟨.counting, some ⟨1024, 1023⟩, 5, 0⟩ } }

theorem witness_gates :
    (let s := gated (inReading (.collecting 0 5 0) 0)
     s.mainRuns = true ∧ s.constants.sound = true ∧ s.constants.damaged = false ∧ (s.front.chan (.tilt .x)).state ≠ .off ∧
       (s.front.chan (.tilt .x)).gate = some ⟨1024, 1023⟩ ∧ (s.front.chan (.tilt .x)).periods + 16777209 < 16777215 ∧
       s.window = some (windowAt (.collecting 0 5 0) 0) ∧ s.clamp = false ∧ s.front.t.state ≠ .off ∧
       s.front.t.gate = some ⟨1024, 1023⟩ ∧ (s.front.chan (.tilt .x)).abandons ≤ 3) ∧
    (gated ready).window = none ∧ (ready.front.chan .temperature).gate = none ∧
    (ready.front.chan .temperature).state ≠ .off ∧
    (({ ready with front := startedFrontEnd false true true } : State).front.chan (.tilt .x)).state = .off := by decide

/-- GravityFrames. -/
theorem witness_frames :
    (let s := { inReading (.collecting 0 5 0) 3 with front := { ready.front with live := some ⟨7, 15⟩ } }
     s.mainRuns = true ∧ s.window = some (windowAt (.collecting 0 5 0) 3) ∧ s.front.live = some ⟨7, 15⟩) ∧
    (let s := { ready with front := { ready.front with live := some ⟨2048, 0⟩ } }
     s.mainRuns = true ∧ s.front.live = some ⟨2048, 0⟩ ∧ s.window = none) := by decide

/-- OpenLoop. -/
theorem witness_open_loop :
    (let s := withBase [(0, pendingOcc 1 20)]
     s.serves (.openLoop 15 0) .ready = true ∧ s.intact = true ∧ s.clock.isSet = true ∧ s.loop? 15 = none ∧
       s.occ? 0 = some (pendingOcc 1 20) ∧ s.matching 1 = [4] ∧ s.station? 4 = some (baseStation [0])) := by decide

/-- CloseLoop: an OPEN loop with an IDLE and with a WORKING engine, and the states that refuse. -/
theorem witness_close_loop :
    (let s := withLoop .opened (reducedRec 1 30)
     s.serves (.closeLoop 0 1 1 255) .ready = true ∧ s.intact = true ∧ s.loop? 0 = some (loopOf .opened [1]) ∧
       s.occ? 1 = some { reducedRec 1 30 with memberOf := some 0 } ∧ s.matching 1 = [4] ∧
       s.station? 4 = some (baseStation [0, 1]) ∧ s.engine.state ≠ .halted ∧ s.engine.queue.length < 4) ∧
    (engineAt .recalc (.index 0) (withLoop .opened (reducedRec 1 30))).engine.state = .working ∧
    (∀ j ∈ (loopOf .opened [1]).members, j ≠ 1 → False) ∧
    (withLoop .closed (reducedRec 1 30)).loop? 0 = some (loopOf .closed [1]) ∧
    (withLoop .closing (reducedRec 1 30)).loop? 0 = some (loopOf .closing [1]) ∧
    (withLoop .expired (reducedRec 1 30)).loop? 0 = some (loopOf .expired [1]) ∧
    ready.serves (.closeLoop 0 1 0 5) .ready = true ∧ ready.loop? 0 = none := by decide

/-- LoopEnds, and the read of a loop in RecordReads. -/
theorem witness_loop_ends :
    (let s := withLoop .closed (reducedRec 1 30)
     s.serves (.voidLoop 0) .ready = true ∧ s.serves (.releaseLoop 0) .ready = true ∧ s.intact = true ∧
       s.loop? 0 = some (loopOf .closed [1]) ∧ s.recomputing 0 = false ∧ s.serves (.readLoop 0) .readyRestore = true ∧
       (s.occ? 0).isSome = true ∧ s.serves (.readLoop 15) .readyRestore = true ∧ s.loop? 15 = none) ∧
    (let s := withLoop .closing (reducedRec 1 30)
     s.serves (.voidLoop 0) .ready = true ∧ s.serves (.releaseLoop 0) .ready = true ∧ s.intact = true) ∧
    (let s := engineAt .recalc (.index 0) (withLoop .closed (reducedRec 1 30))
     let s := { s with engine := { s.engine with flight := s.engine.flight.map fun f : Flight => { f with recomp := [0] } } }
     s.recomputing 0 = true ∧ s.intact = true) := by decide

/-- The reads of an occupation in RecordReads. -/
theorem witness_read_occupation :
    (let s := withBase [(0, pendingOcc 1 20), (1, reducedRec 1 30)]
     s.serves (.readOccupation 511) .readyRestore = true ∧ s.intact = true ∧ s.occ? 511 = none ∧
       s.serves (.readOccupation 0) .readyRestore = true ∧ s.occ? 0 = some (pendingOcc 1 20) ∧
       s.serves (.readOccupation 1) .readyRestore = true ∧ s.occ? 1 = some (reducedRec 1 30) ∧
       (reducedRec 1 30).results = some results1 ∧ s.matching 1 = [4] ∧
       s.serves (.readOccupation 512) .readyRestore = true) := by decide

/-- SubmitJob: every kind, and the engine's three states. -/
theorem witness_submit :
    ready.serves (.submitJob 0 511 255) .ready = true ∧ ready.serves (.submitJob 2 7 0) .ready = true ∧
    ready.serves (.submitJob 3 0 0) .ready = true ∧ ready.serves (.submitJob 0 512 0) .ready = true ∧
    ready.serves (.submitJob 1 0 0) .ready = true ∧ ready.engine.state = .idle ∧
    (engineAt .recalc (.index 0) ready).engine.state = .working ∧
    (let j : Job := { kind := .recalc, origin := .host, tag := 0 }
     ({ idleEngine with state := .working, queue := [j, j, j, j] } : Engine).queue.length = 4) := by decide

/-- ReduceStep: a PENDING record, a FREE one, and one that fails its check. -/
theorem witness_reduce :
    (let s := engineAt (.reduce 0) .reducing (withBase [(0, pendingOcc 1 20)])
     s.intact = true ∧ s.engine.state = .working ∧ s.occ? 0 = some (pendingOcc 1 20) ∧ s.matching 1 = [4] ∧
       s.station? 4 = some (baseStation [0]) ∧ s.part ≠ .starting ∧ s.loops = []) ∧
    (engineAt (.reduce 511) .reducing ready).occ? 511 = none ∧ (engineAt (.reduce 511) .reducing ready).intact = true ∧
    (let s := engineAt (.reduce 0) .reducing (withBase [(0, { pendingOcc 1 20 with sound := false })])
     s.occ? 0 = some { pendingOcc 1 20 with sound := false } ∧ s.resetHeld = false) := by decide

/-- CloseSteps: a CLOSE of a loop whose open endpoint is REDUCED and whose closing member is PENDING, or REDUCED. -/
def closingLoop (p : Place) (second : Occ) : State :=
  let s := engineAt (.close 0) p (withLoop .closing second)
  { s with
    loops := [(0, { loopOf .closing [1] with mode := some .drift })]
    engine := { s.engine with flight := s.engine.flight.map fun f : Flight => { f with drift := some caseDrift } } }

theorem witness_close_steps :
    (let s := closingLoop .loopCheck (pendingOcc 1 30)
     s.intact = true ∧ s.engine.state = .working ∧ (s.occ? 0).isSome = true ∧ (s.occ? 1).isSome = true ∧
       s.loop? 0 = some { loopOf .closing [1] with mode := some .drift }) ∧
    (let s := closingLoop .inlineClosing (pendingOcc 1 30)
     s.intact = true ∧ s.part ≠ .starting ∧ s.occ? 1 = some { pendingOcc 1 30 with memberOf := some 0 } ∧
       s.matching 1 = [4]) ∧
    (let s := closingLoop .deltaV (reducedRec 1 30)
     s.intact = true ∧ s.occ? 0 = some { reducedRec 1 20 with opens := some 0 } ∧
       s.occ? 1 = some { reducedRec 1 30 with memberOf := some 0 } ∧ s.resetHeld = false) ∧
    (let s := closingLoop (.member []) (reducedRec 1 30)
     s.intact = true ∧ (loopOf .closing [1]).members[0]? = some 1) ∧
    (let s := closingLoop (.member []) { reducedRec 1 30 with state := .final, drift := some drift1 }
     s.intact = true ∧ (s.occ? 1).any (fun o => o.state = .final) = true) ∧
    (caseDrift.mode = .drift ∧ caseDrift.tOpen < caseDrift.tClose ∧ caseDrift.deltaV = 52341480 - caseDrift.vOpen ∧
      caseDrift.deltaV.natAbs ≤ 2147483647 ∧ caseDrift.vOpen.natAbs ≤ 2147483647) := by decide

/-- Completions: of a CLOSE and of any job, with an empty queue and with a job waiting. -/
theorem witness_completions :
    (let s := closingLoop .completion (reducedRec 1 30)
     s.engine.state = .working ∧ s.engine.flight.any (fun f => f.drift = some caseDrift ∧ f.ending = none) = true ∧
       s.engine.queue = [] ∧ s.resetHeld = false) ∧
    (let j : Job := { kind := .recalc, origin := .host, tag := 0 }
     let e : Engine := { idleEngine with
       state := .working, flight := some ((startFlight j).endWith .nothing), queue := [j] }
     e.state = .working ∧ e.flight.any (fun f => f.ending = some .nothing) = true ∧ e.queue = j :: []) := by decide

/-- Recomputation: its ΔV step and its member step. -/
def recomputeAt (walk : Option (List Nat)) : State :=
  let s := engineAt .recalc (.index 1) (withLoop .closed (reducedRec 1 30))
  { s with engine := { s.engine with flight := s.engine.flight.map fun f : Flight =>
    { f with recomp := [0], walk := walk, drift := walk.map fun _ => { caseDrift with mode := .noDrift } } } }

theorem witness_recomputation :
    (let s := recomputeAt none
     s.intact = true ∧ s.part ≠ .starting ∧ s.engine.state = .working ∧ s.loop? 0 = some (loopOf .closed [1]) ∧
       s.engine.flight.any (fun f => f.recomp = [0] ∧ f.ending = none ∧ f.walk = none) = true ∧
       s.occ? 0 = some { reducedRec 1 20 with opens := some 0 } ∧ 0 < s.constants.nums.driftLimit) ∧
    (let s := recomputeAt (some [])
     s.intact = true ∧ (loopOf .closed [1]).members[0]? = some 1 ∧
       s.occ? 1 = some { reducedRec 1 30 with memberOf := some 0 } ∧
       s.engine.flight.any (fun f => f.walk = some [] ∧ f.drift.isSome) = true) := by decide

/-- Walks: the way step, the occupation step on a PENDING and on a tide-stale record, and the step of a RECALC. -/
theorem witness_walks :
    (let s := engineAt (.retide 0) (.way 4) (withBase [])
     s.intact = true ∧ s.engine.state = .working ∧ s.station? 4 = some (baseStation []) ∧ s.matching 1 = [4]) ∧
    (engineAt (.retide 0) (.way 254) ready).station? 254 = none ∧
    (let s := engineAt (.retide 0) (.occupation 4 1 []) (withBase [(0, pendingOcc 1 20)])
     s.intact = true ∧ s.station? 4 = some (baseStation [0]) ∧ s.matching 1 = [4] ∧ s.loops = [] ∧
       (baseStation [0]).list = [] ++ 0 :: [] ∧ s.occ? 0 = some (pendingOcc 1 20)) ∧
    (let r := { results1 with site := 3 }
     let s := engineAt (.retide 0) (.occupation 4 1 []) (withBase [(0, { reducedRec 1 20 with results := some r })])
     s.intact = true ∧ s.occ? 0 = some { reducedRec 1 20 with results := some r } ∧ r.site ≠ 0) ∧
    (let r := { results1 with revision := 9 }
     let s := engineAt .recalc (.index 0) (withBase [(0, { reducedRec 1 20 with results := some r })])
     s.intact = true ∧ s.occ? 0 = some { reducedRec 1 20 with results := some r } ∧ r.revision ≠ s.constants.revision ∧
       s.matching 1 = [4] ∧ s.loops = []) ∧
    (engineAt .recalc (.index 510) ready).occ? 510 = none := by decide

/-- RestartEngine: not HALTED, HALTED, and an action that is none. -/
def haltedEngine (queue : List Job) : State :=
  let f := startFlight { kind := .reduce 0, origin := .host, tag := 5 }
  { ready with engine := { idleEngine with
    state := .halted, flight := some f, queue := queue, fault := some { flight := f, failed := .occupation 0 } } }

theorem witness_restart :
    ready.engine.state ≠ .halted ∧ ready.serves (.restartEngineRetry 0) .ready = true ∧
    ready.serves .restartEngineDiscard .ready = true ∧ ready.serves (.restartEngineRetry 2) .ready = true ∧
    (haltedEngine []).engine.state = .halted ∧ (haltedEngine []).serves (.restartEngineRetry 0) .ready = true ∧
    (haltedEngine []).serves .restartEngineDiscard .ready = true ∧
    (haltedEngine []).engine.flight.any (fun f => f.recomp = [] ∧ f.job.kind = .reduce 0) = true ∧
    (haltedEngine []).engine.queue = [] := by decide

/-- Exports. -/
theorem witness_exports :
    (let s := withBase [(0, pendingOcc 1 20), (1, reducedRec 1 30)]
     s.serves (.exportStation 1) .ready = true ∧ s.intact = true ∧ s.matching 1 = [4] ∧
       s.station? 4 = some (baseStation [0, 1]) ∧ (∀ i ∈ [0, 1], (s.occ? i).isSome = true) ∧
       s.serves (.nextChanged (some 65534)) .readyRestore = true ∧ s.serves (.nextChanged none) .readyRestore = true ∧
       s.snapshot = none ∧ s.serves (.readExportPart 0) .readyRestore = true) ∧
    (let s := { ready with stations := [(4, { baseStation [] with changed := true })] }
     (4, { baseStation [] with changed := true }) ∈ s.stations ∧ s.intact = true) ∧
    (let p : Snapshot := { station := stationPart 4 (baseStation [0]) 0, parts := [.damaged 0] }
     p.parts[0]? = some (.damaged 0) ∧ p.parts.length ≤ 1 ∧
       ({ ready with snapshot := some p } : State).serves (.readExportPart 1) .readyRestore = true) := by decide

/-- ServiceResets. -/
theorem witness_resets :
    ready.serves .reset .always = true ∧ ready.serves .standby .ready = true ∧ ready.window = none ∧
    ready.engine.state = .idle ∧ ready.engine.queue = [] ∧ (inReading (.settling 5) 0).serves .standby .ready = true ∧
    ({ ready with part := .standby } : State).part = .standby ∧ ready.resetHeld = false := by decide

/-- Restore: the ends, and each of the loads, accepted and refused. -/
def restoring (s : State) : State := { s with part := .restore }

theorem witness_restore :
    (ready.serves .beginRestore .ready = true ∧ ready.stations = [] ∧ ready.occs = [] ∧ ready.loops = []) ∧
    ((withBase []).serves .beginRestore .ready = true ∧ (withBase []).stations ≠ []) ∧
    ((restoring ready).serves .endRestore .restore = true ∧ (restoring ready).serves .abortRestore .restore = true) ∧
    ((restoring ready).serves (.loadStation stationReq) .restore = true ∧ loadStationInRange stationReq = true ∧
      (restoring ready).station? 4 = none) ∧
    ((restoring ready).serves (.loadOccupation 511 occReq) .restore = true ∧ (restoring ready).occ? 511 = none ∧
      loadOccInRange occReq = true) ∧
    (loadOccInRange { occReq with state := 5, results := some results1, drift := some drift1 } = true) ∧
    ((restoring (withBase [(0, pendingOcc 1 20)])).serves (.loadOccupation 0 occReq) .restore = true ∧
      ((restoring (withBase [(0, pendingOcc 1 20)])).occ? 0).isSome = true) ∧
    ((restoring ready).serves (.loadLoop loopReq) .restore = true ∧ (restoring ready).loop? 0 = none ∧
      loadedLoopState 1 = some .opened ∧ loadLoopInRange .opened loopReq = true) ∧
    ((restoring (withLoop .opened (pendingOcc 1 30))).serves (.loadLoop loopReq) .restore = true ∧
      ((restoring (withLoop .opened (pendingOcc 1 30))).loop? 0).isSome = true) ∧
    ((restoring ready).serves (.loadLoop { loopReq with members := [3, 3] }) .restore = true ∧ ¬[3, 3].Nodup) := by decide

/-- ScanRuns. -/
theorem witness_scan_runs :
    (let s := starting 8 511 ready
     s.part = .starting ∧ s.resetHeld = false ∧ s.scan.any (fun c => c.pass = 8 ∧ c.ended = none) = true ∧
       s.window = none) ∧
    ((8, 512, Instr.scanStrayDrift 1) ∈ [(1, 64, Instr.scanDuplicates 1), (2, 784, .scanDamage 1),
      (3, 1552, .scanReferences 1), (4, 512, .scanWindows 1), (5, 256, .scanOrder 1), (6, 16, .scanUnanchoredLoops 1),
      (7, 16, .scanInterruptedCloses 1), (8, 512, .scanStrayDrift 1)]) ∧
    (starting 9 0 ready).scan.any (fun c => c.pass = 9 ∧ c.ended = none) = true := by decide

/-- ScanFindings: what each of the eight passes finds. -/
theorem witness_scan_findings :
    (let s := starting 1 18 { duplicated with stations := [(73, { baseStation [] with number := 530 }),
        (74, { baseStation [] with number := 530 })] }
     s.intact = true ∧ s.matching 530 = [73, 74]) ∧
    (let s := starting 2 0 (withBase [(0, { pendingOcc 1 20 with damaged := true })])
     s.occ? 0 = some { pendingOcc 1 20 with damaged := true }) ∧
    (let s := starting 3 4 (withBase [(0, pendingOcc 2 20)])
     s.intact = true ∧ s.station? 4 = some (baseStation [0])) ∧
    (let s := starting 4 0 { inReading (.settling 5) 0 with window := none }
     s.intact = true ∧ (s.occ? 0).any (fun o => o.state = .settling) = true) ∧
    (let s := starting 5 4 (withBase [(0, pendingOcc 1 40), (1, pendingOcc 1 20)])
     s.intact = true ∧ s.station? 4 = some (baseStation [0, 1]) ∧ s.orderKey 1 < s.orderKey 0) ∧
    (let s := starting 6 0 { withLoop .opened (pendingOcc 1 30) with loops := [(0, { loopOf .opened [1] with openEnd := 9 })] }
     s.intact = true ∧ s.occ? 9 = none ∧ (s.loop? 0).isSome = true) ∧
    (let s := starting 7 0 (withLoop .closing { reducedRec 1 30 with drift := some drift1 })
     s.intact = true ∧ s.loop? 0 = some (loopOf .closing [1])) ∧
    (let s := starting 8 1 (withLoop .opened { reducedRec 1 30 with drift := some drift1 })
     s.intact = true ∧ (s.occ? 1).any (fun o => o.drift.isSome) = true) := by decide

/-! ### Witnesses of further clauses: damaged records, full tables, ties between stations -/

/-- What holds of every entry of a table holds of what is read from it. -/
theorem of_slot {α : Type} {t : Slots α} {k : Nat} {v : α} (h : slotGet t k = some v) {P : Nat → α → Prop}
    (a : ∀ q ∈ t, P q.1 q.2) : P k v := a _ (mem_of_slotGet h)

/-- Every station SUSPECT, and so unusable. -/
def orphan (s : State) : State := { s with stations := s.stations.map fun q => (q.1, { q.2 with state := .suspect }) }

/-- LinkPeriods, the bytes on MISO: a response held, and a stopped link. -/
theorem witness_miso :
    (let s : State := { ready with link := { clearLink with held := some ⟨.ok, [7]⟩ } }
     s.link.period = none ∧ s.linkStopped = false ∧ s.link.held = some ⟨.ok, [7]⟩) ∧
    (ready.link.period = none ∧ ready.link.held = none) ∧
    (let s : State := { ready with resetHeld := true }
     s.link.period = none ∧ s.linkStopped = true) := by decide

/-- BasePeriods: what the end of a period delivers once its slew has been taken, and the rows that take it. -/
theorem witness_slew :
    (let s : State := { ready with clock := { clockAt 100 0 with trim := 5, left := some 1 } }
     s.clockWf = true ∧ s.clock.held = false ∧ s.clock.left = some 1) ∧
    (let s : State := { ready with clock := { clockAt 100 0 with trim := -5, left := some 0 } }
     s.clockWf = true ∧ s.clock.held = false ∧ s.clock.left = some 0) ∧
    (let s : State := { ready with clock := { clockAt 100 0 with trim := -2048, slew := 63 } }
     s.clock.held = false ∧ s.clock.left = none ∧ s.clock.trim < 0 ∧ 63 ≤ s.clock.slew) ∧
    (let s : State := { ready with clock := { clockAt 4294967294 1022 with trim := 2048, slew := 63 } }
     s.clockWf = true ∧ s.clock.held = false ∧ s.clock.left = none ∧ 0 < s.clock.trim ∧ s.clock.slew = 63 ∧
       s.epoch + 1 < 4294967295 * 1024) ∧
    ready.clock.trim = 0 ∧ ready.clock.left = none := by decide

/-- LoopExpiry: a loop that is due and fails its check. -/
theorem witness_damaged_expiry :
    (let s := ({ withLoop .opened (reducedRec 1 30) with clock := clockAt 100 1, expiryDue := [0] } : State).upsetRecord (.loop 0)
     0 ∈ s.expiryDue ∧ (s.loop? 0).any (fun r => !r.sound) = true ∧ s.resetHeld = false) := by decide

/-- FindStation: the internal lookup of an ACTIVE, a SUSPECT and an absent station, and the memory checks. -/
theorem witness_lookups :
    ((withBase []).intact = true ∧ (withBase []).matching 1 = [4] ∧ (withBase []).station? 4 = some (baseStation [])) ∧
    ((orphan (withBase [])).intact = true ∧ (orphan (withBase [])).matching 1 = [4]) ∧
    (ready.intact = true ∧ (ready.matching 1).length ≠ 1) ∧
    (let s := ((withBase [(0, pendingOcc 1 20)]).upsetRecord (.station 4)).upsetRecord (.occupation 0)
     (s.station? 4).any (fun e => !e.sound) = true ∧ (s.occ? 0).any (fun o => !o.sound) = true) ∧
    (let s := (withBase []).failRecord (.station 4)
     s.matching 1 = [4] ∧ (s.station? 4).any (·.damaged) = true) ∧
    ∀ v f, v / 4 = 1 % 64 → ((withBase []).failRecord (.station 4)).station? v = some f → f.sound = true :=
  ⟨by decide, by decide, by decide, by decide, by decide, fun _ _ _ h =>
    of_slot (P := fun _ f => f.sound = true) h (by decide)⟩

/-- RecordReads, Exports: an entry that is upset at its read-out, and constants that fail their check. -/
theorem witness_read_out :
    (let s : State := { withBase [] with late := some 4 }
     s.serves (.readStation 1) .readyRestore = true ∧ s.serves (.exportStation 1) .ready = true ∧
       ({ s with late := none } : State).intact = true ∧ s.late = some 4 ∧ s.matching 1 = [4] ∧
       s.station? 4 = some (baseStation []) ∧ ∀ q ∈ s.stations, q.2.sound = true ∧ q.2.damaged = false) ∧
    (let s := (withBase []).upsetRecord .constants
     s.serves (.exportStation 1) .ready = true ∧ s.late = none ∧ s.constants.sound = false ∧ s.matching 1 = [4] ∧
       ∀ q ∈ s.stations, q.2.sound = true ∧ q.2.damaged = false) := by decide

/-- OpenStation: a full set with a victim, one without, and the refusals by the lookup. -/
theorem witness_open_full :
    (let r : OpenStationReq := { openReq with number := 337 }
     fullSet.serves (.openStation r) .ready = true ∧ fullSet.intact = true ∧ fullSet.stationsWf = true ∧
       fullSet.matching 337 = [] ∧ (∀ v ∈ waysOf 337, (fullSet.station? v).isSome = true) ∧
       fullSet.order (337 % 64) = [69] ++ 71 :: [68, 70] ∧
       fullSet.station? 71 = some { baseStation [40, 96] with number := 273 } ∧
       (fullSet.station? 68).any (·.pinned) = true ∧ (fullSet.occ? 77).any (·.state = .reduced) = true ∧
       (fullSet.loop? 3).any (·.members.contains 77) = true) ∧
    (let s := orphan fullSet
     s.serves (.openStation { openReq with number := 337 }) .ready = true ∧ s.intact = true ∧ s.stationsWf = true ∧
       ∀ q ∈ s.stations, q.2.state ≠ .active) ∧
    ((withBase []).serves (.openStation openReq) .ready = true ∧ ((withBase []).keyedLookup 1).2 = .found 4) ∧
    (duplicated.serves (.openStation { openReq with number := 530 }) .ready = true ∧
      (duplicated.keyedLookup 530).2 = .duplicate) ∧
    (((withBase []).failRecord (.station 4)).keyedLookup 1).2 = .damaged 4 := by decide

/-- Retire: a damaged entry whose records may go, and one with a record in use. -/
theorem witness_retire_damaged :
    (let s := (withBase [(0, pendingOcc 1 20)]).failRecord (.station 4)
     s.stationsWf = true ∧ s.recordsWf = true ∧ s.serves (.retireStation 1) .ready = true ∧
       s.serves (.retireSlot 1 0) .ready = true ∧ s.matching 1 = [4] ∧
       s.station? 4 = some { baseStation [0] with damaged := true } ∧ (∀ q ∈ s.occs, q.2.sound = true) ∧ s.loops = [] ∧
       s.window = none) ∧
    (∀ v f, v ≠ 4 → ((withBase [(0, pendingOcc 1 20)]).failRecord (.station 4)).station? v = some f →
      f.sound = true ∧ f.damaged = false) ∧
    (let s := (withLoop .opened (pendingOcc 1 30)).failRecord (.station 4)
     s.stationsWf = true ∧ s.recordsWf = true ∧ s.matching 1 = [4] ∧ (∀ q ∈ s.loops, q.2.sound = true ∧ q.2.damaged = false) ∧
       (0, loopOf .opened [1]) ∈ s.loops ∧ (loopOf .opened [1]).openEnd = 0 ∧ (s.occ? 0).any (·.station = 1) = true) ∧
    ((withBase []).serves (.retireSlot 63 3) .ready = true ∧ (withBase []).station? (63 * 4 + 3) = none) :=
  ⟨by decide, fun _ _ hv h => of_slot (P := fun k f => k ≠ 4 → f.sound = true ∧ f.damaged = false) h (by decide) hv,
    by decide, by decide⟩

/-- Station 1 with a full list, whose head is FINAL. -/
def fullList : State :=
  withBase ((0, { reducedRec 1 20 with state := .final, drift := some drift1 }) ::
    [1, 2, 3, 4, 5, 6, 7].map fun i => (i, pendingOcc 1 (20 + i)))

/-- BeginReading: with a settle time of 0 at a full list, and the refusals of the loop, the list and the pool. -/
theorem witness_begin_full :
    (let r : BeginReadingReq := { beginReq with settle := 0 }
     fullList.serves (.beginReading r) .ready = true ∧ fullList.intact = true ∧ fullList.clock.isSet = true ∧
       fullList.window = none ∧ fullList.matching 1 = [4] ∧
       fullList.station? 4 = some (baseStation [0, 1, 2, 3, 4, 5, 6, 7]) ∧ (fullList.occ? 0).any (·.state = .final) = true ∧
       fullList.loops = []) ∧
    (let s := { fullList with stations := [(4, { baseStation [0, 1, 2, 3, 4, 5, 6, 7] with changed := true })] }
     s.intact = true ∧ s.serves (.beginReading beginReq) .ready = true ∧ s.matching 1 = [4]) ∧
    (let r : BeginReadingReq := { beginReq with loop := some 0 }
     (withLoop .closed (pendingOcc 1 30)).serves (.beginReading r) .ready = true ∧
       (withLoop .closing (pendingOcc 1 30)).loop? 0 = some (loopOf .closing [1]) ∧
       (withLoop .expired (pendingOcc 1 30)).loop? 0 = some (loopOf .expired [1]) ∧
       (withBase []).loop? 0 = none ∧ 64 ≤ (loopOf .opened (List.range 64)).members.length) ∧
    ((withBase []).window = none ∧ ((withBase []).keyedLookup 2).2 = .noStation) := by decide

/-- The last clause of BEGIN READING: a full pool. -/
theorem witness_full_pool : ∃ s : State, s.serves (.beginReading beginReq) .ready = true ∧ s.matching 1 = [4] ∧
    ∀ j, j < 512 → (s.occ? j).isSome = true := by
  refine ⟨{ withBase [] with occs := (List.range 512).map fun i => (i, pendingOcc 2 20) }, by decide, by decide, ?_⟩
  intro j hj
  refine slotGet_isSome_of_mem_slotKeys ?_
  simp [slotKeys, hj]

/-- WindowCloses: with a WORKING engine, and where the REDUCE is dropped; and a list in which the record moves. -/
theorem witness_window_engine :
    (let s := engineAt .recalc (.index 0) (inReading (.collecting 0 10240 0) 1)
     s.intact = true ∧ s.engine.state = .working ∧ s.engine.queue.length < 4 ∧ s.resetHeld = false ∧
       s.window = some (windowAt (.collecting 0 10240 0) 1) ∧ (s.occ? 0).isSome = true) ∧
    (let s := inReading (.collecting 0 10240 0) 1
     let j : Job := { kind := .recalc, origin := .host, tag := 0 }
     let s := { s with engine := { s.engine with state := .working, queue := [j, j, j, j] } }
     s.intact = true ∧ s.engine.state = .working ∧ 4 ≤ s.engine.queue.length) ∧
    (let s := { inReading (.collecting 0 10240 0) 1 with stations := [(4, baseStation [3, 0])] }
     4 ∈ s.matching 1 ∧ 0 ∈ (baseStation [3, 0]).list ∧ ([3, 0] : List Nat) = [3] ++ 0 :: []) := by decide

/-- DiscardOccupation: a damaged record that anchors a loop, one that anchors a CLOSING loop, and the window's own. -/
theorem witness_discard_damaged :
    (let s := (withLoop .closed (reducedRec 1 30)).failRecord (.occupation 1)
     s.serves (.discardOccupation 1) .ready = true ∧ s.occ? 1 = some { reducedRec 1 30 with memberOf := some 0, damaged := true } ∧
       (∀ q ∈ s.occs, q.1 ≠ 1 → q.2.sound = true ∧ q.2.damaged = false) ∧
       (∀ q ∈ s.stations, q.2.sound = true ∧ q.2.damaged = false) ∧ (∀ q ∈ s.loops, q.2.sound = true ∧ q.2.damaged = false) ∧
       s.loopsWf = true ∧ s.stationsWf = true ∧ s.loop? 0 = some (loopOf .closed [1]) ∧ s.recomputing 0 = false ∧
       (s.occ? 0).any (·.opens = some 0) = true ∧ s.matching 1 = [4] ∧ s.station? 4 = some (baseStation [0, 1])) ∧
    (let s := (withLoop .opened { reducedRec 1 30 with drift := some drift1 }).failRecord (.occupation 0)
     s.serves (.discardOccupation 0) .ready = true ∧ s.loop? 0 = some (loopOf .opened [1]) ∧
       (loopOf .opened [1]).openEnd = 0 ∧ (s.occ? 1).any (fun o => o.drift.isSome && o.state = .reduced) = true ∧
       s.recomputing 0 = false ∧ s.loopsWf = true ∧ s.stationsWf = true) ∧
    (let s := (withLoop .closing (reducedRec 1 30)).upsetRecord (.occupation 1)
     (s.occ? 1).any (fun o => !o.sound) = true ∧ s.loop? 0 = some (loopOf .closing [1]) ∧ s.loopsWf = true) ∧
    (let s := (inReading (.settling 5) 0).failRecord (.occupation 0)
     s.serves (.discardOccupation 0) .ready = true ∧ s.window = some (windowAt (.settling 5) 0) ∧ s.loops = [] ∧
       s.stationsWf = true) ∧
    ready.serves (.discardOccupation 512) .ready = true := by decide

/-- TiltGate: a value above the limit with and without the abort, CLAMP asserted, and damaged constants. -/
theorem witness_tilt :
    (let s := gated (inReading (.collecting 0 5 0) 0)
     let s := { s with constants := { s.constants with nums := { s.constants.nums with scaleX := 65535 } } }
     s.mainRuns = true ∧ s.intact = true ∧ (s.front.chan (.tilt .x)).periods + 16777210 ≤ 16777215 ∧ s.clamp = false ∧
       s.constants.nums.tiltLimit <
         ((max (-2000) (min 2000 (roundDiv ((5 + 16777210 - 8388608) * 65535) 65536)) : Int).natAbs : Int) ∧
       ({ windowAt (.collecting 0 5 0) 0 with abortOnTilt := true } : Window).abortOnTilt = true ∧
       ({ s with clamp := true } : State).clamp = true) ∧
    (let s := gated (ready.upsetRecord .constants)
     s.mainRuns = true ∧ s.constants.sound = false ∧ s.front.t.gate = some ⟨1024, 1023⟩ ∧ s.front.t.state ≠ .off ∧
       s.front.t.periods + 16777210 ≤ 16777215) := by decide

/-- A loop on record 0 of station 1, whose member, record 1, is of station 2. -/
def withTie (st : LoopState) (second : Occ) (reference : Option Nat) : State :=
  { withLoop st second with
    stations := [(4, baseStation [0]), (8, { baseStation [1] with number := 2, reference := reference })]
    recency := [(1, [4]), (2, [8])]
    occs := [(0, { reducedRec 1 20 with opens := some 0 }), (1, { second with station := 2, memberOf := some 0 })] }

/-- CloseLoop: mode DRIFT between two stations, and each of its refusals. -/
theorem witness_close_drift :
    (let s := withTie .opened (reducedRec 2 30) (some 980000100)
     s.serves (.closeLoop 0 1 0 255) .ready = true ∧ s.intact = true ∧ s.loop? 0 = some (loopOf .opened [1]) ∧
       (s.occ? 1).any (·.reading = some (readingAt 30)) = true ∧ s.usable 2 = some 8 ∧ s.usable 1 = some 4 ∧
       (s.station? 8).any (fun e => e.role = .base && e.reference.isSome) = true ∧
       (∀ j ∈ [1], j ≠ 1 → False) ∧ (s.occ? 0).any (·.reading = some (readingAt 20)) = true ∧
       ((s.usable 1).bind fun w => (s.station? w).bind (·.reference)).isSome = true ∧ s.engine.queue.length < 4) ∧
    (let s := withTie .opened (reducedRec 2 30) none
     s.serves (.closeLoop 0 1 0 255) .ready = true ∧ s.intact = true ∧ s.usable 1 = some 4 ∧
       (s.station? 8).any (·.reference.isNone) = true) ∧
    (let s := withTie .opened (reducedRec 2 20) (some 980000100)
     s.intact = true ∧ (s.occ? 1).any (·.reading = some (readingAt 20)) = true) ∧
    ((orphan (withLoop .opened (reducedRec 1 30))).usable 1 = none ∧ (orphan (withLoop .opened (reducedRec 1 30))).intact = true) ∧
    (let s := { withLoop .opened (reducedRec 1 30) with stations := [(4, { baseStation [0, 1] with role := .field })] }
     s.usable 1 = some 4 ∧ s.intact = true) ∧
    (withLoop .opened (pendingOcc 1 30)).occ? 9 = none ∧ 0 ∉ (loopOf .opened [1]).members := by decide

/-- CloseLoop: another member that is later than the closing one. -/
theorem witness_close_later :
    (let s := { withLoop .opened (reducedRec 1 30) with
       occs := [(0, { reducedRec 1 20 with opens := some 0 }), (1, { reducedRec 1 30 with memberOf := some 0 }),
                (2, { pendingOcc 1 40 with memberOf := some 0 })]
       loops := [(0, loopOf .opened [1, 2])] }
     s.serves (.closeLoop 0 1 1 0) .ready = true ∧ s.intact = true ∧ 2 ∈ (loopOf .opened [1, 2]).members ∧
       (s.occ? 2).any (·.reading = some (readingAt 40)) = true) := by decide

/-- LoopEnds, RecordReads: a loop that fails its check, free to go and named by a waiting CLOSE; and damaged records. -/
theorem witness_void_damaged :
    (let s := (withLoop .closed { reducedRec 1 30 with drift := some drift1 }).upsetRecord (.loop 0)
     s.serves (.voidLoop 0) .ready = true ∧ s.serves (.releaseLoop 0) .ready = true ∧
       s.serves (.readLoop 0) .readyRestore = true ∧ (s.loop? 0).any (fun r => !r.sound) = true ∧
       (∀ q ∈ s.occs, q.2.sound = true) ∧ s.recordsWf = true ∧ (∀ q ∈ s.stations, q.2.sound = true ∧ q.2.damaged = false) ∧
       s.engine.flight = none ∧ s.engine.queue = []) ∧
    (let s := (engineAt (.close 0) .loopCheck (withLoop .closing (reducedRec 1 30))).failRecord (.loop 0)
     s.serves (.voidLoop 0) .ready = true ∧ s.engine.flight.any (·.job.kind = .close 0) = true ∧ s.recordsWf = true) ∧
    (let s := ((withBase [(0, pendingOcc 1 20)]).upsetRecord (.station 4)).upsetRecord (.occupation 0)
     s.serves (.readOccupation 0) .readyRestore = true ∧ s.serves (.readSlot 1 0) .readyRestore = true ∧
       (s.station? (1 * 4 + 0)).any (fun e => !e.sound) = true ∧ (s.occ? 0).any (fun o => !o.sound) = true) := by decide

/-- RoundingAndRoots: sums of two samples, with a channel accumulated, held and missing. -/
theorem witness_stages :
    2 ≤ caseSums.n ∧ 1 ≤ caseSums.mx ∧ 1 ≤ caseSums.k ∧ ({} : Sums).k = 0 ∧ ({} : Sums).lastT = none ∧
    ({ lastT := some 5, lastL := some 4 } : Sums).lastT = some 5 ∧ (0 : Int) ≤ spread caseSums := by decide

/-- ReduceStep: a FINAL record that is the open endpoint of a CLOSED loop, one of an unusable station, a damaged one. -/
theorem witness_reduce_more :
    (let s := engineAt (.reduce 0) .reducing (withLoop .closed (reducedRec 1 30))
     s.intact = true ∧ s.part ≠ .starting ∧ s.loopsWf = true ∧ s.engine.state = .working ∧
       s.engine.flight.any (fun f => f.place = .reducing ∧ f.recomp = [] ∧ f.ending = none) = true ∧
       s.occ? 0 = some { reducedRec 1 20 with opens := some 0 } ∧ s.usable 1 = some 4 ∧
       s.loop? 0 = some (loopOf .closed [1])) ∧
    (let s := orphan (engineAt (.reduce 0) .reducing (withBase [(0, reducedRec 1 20)]))
     s.intact = true ∧ s.usable 1 = none ∧ s.loopsWf = true) ∧
    (let s := engineAt (.reduce 0) .reducing (inReading (.settling 5) 0)
     s.intact = true ∧ (s.occ? 0).any (·.state = .settling) = true) ∧
    (let s := (engineAt (.reduce 0) .reducing (withBase [(0, reducedRec 1 20)])).failRecord (.occupation 0)
     (s.occ? 0).any (·.damaged) = true) := by decide

/-- A site that is SET. -/
def withTide (s : State) : State := { s with sites := s.sites.set 0 { clearSite with set := true, revision := 4 } }

/-- ReduceStep: what halts the step of a REDUCE. -/
theorem witness_reduction_halts :
    (let s (r : RecordId) := (engineAt (.reduce 0) .reducing (withTide (withBase [(0, pendingOcc 1 20)]))).upsetRecord r
     (s .constants).constants.sound = false ∧ ((s (.station 4)).station? 4).any (fun e => !e.sound) = true ∧
       (s (.station 4)).constants.sound = true ∧ ((s (.site 0)).site 0).sound = false ∧
       (s (.site 0)).usable 1 = some 4 ∧ ((s (.constituent 11)).site 0).set = true ∧
       ((s (.constituent 11)).constituent 11).sound = false ∧
       (∀ j, j < 11 → ((s (.constituent 11)).constituent j).sound = true ∧ ((s (.constituent 11)).constituent j).damaged = false) ∧
       ∀ q ∈ (s (.constituent 11)).stations, q.2.sound = true) := by decide

/-- CloseSteps: an endpoint of an unusable station, a tie with and without its references, a PENDING member, one of an
unusable station, and a list whose every member is walked; with an index written before. -/
def wrote (s : State) : State :=
  { s with engine := { s.engine with flight := s.engine.flight.map fun f : Flight => { f with written := [5] } } }

def closingTie (p : Place) (reference : Option Nat) : State :=
  { closingLoop p (reducedRec 1 30) with
    stations := (withTie .closing (reducedRec 2 30) reference).stations
    occs := (withTie .closing (reducedRec 2 30) reference).occs }

theorem witness_close_more :
    (let s := orphan (closingLoop .inlineClosing (pendingOcc 1 30))
     s.intact = true ∧ s.part ≠ .starting ∧ s.resetHeld = false ∧ s.usable 1 = none ∧
       (s.loop? 0).any (·.state = .closing) = true ∧ (s.occ? 1).any (·.state = .pending) = true) ∧
    (let s := wrote (closingTie .deltaV (some 980000100))
     s.intact = true ∧ (s.occ? 0).any (·.station = 1) = true ∧ (s.occ? 1).any (·.station = 2) = true ∧
       s.usable 1 = some 4 ∧ s.usable 2 = some 8 ∧ (s.loop? 0).any (·.mode = some .drift) = true) ∧
    (let s := closingTie .deltaV none
     s.intact = true ∧ (s.station? 8).any (·.reference.isNone) = true) ∧
    (let s := wrote (closingLoop (.member []) (pendingOcc 1 30))
     s.intact = true ∧ s.usable 1 = some 4 ∧ (s.occ? 1).any (·.state = .pending) = true ∧
       s.engine.flight.any (fun f => f.drift = some caseDrift ∧ f.recomp = [] ∧ f.ending = none) = true) ∧
    (let s := orphan (closingLoop (.member []) (pendingOcc 1 30))
     s.intact = true ∧ s.usable 1 = none) ∧
    (let s := closingLoop (.member [1]) (reducedRec 1 30)
     s.intact = true ∧ (s.loop? 0).any (fun r => r.members.all ([1].contains ·)) = true) := by decide

/-- ReduceStep: what halts the steps of a CLOSE and of a recomputation. -/
theorem witness_halts :
    (let s (p : Place) (r : RecordId) := (closingLoop p (reducedRec 1 30)).upsetRecord r
     ((s .loopCheck (.loop 0)).loop? 0).any (fun r => !r.sound) = true ∧
       ((s .deltaV (.occupation 0)).occ? 0).any (fun o => !o.sound) = true ∧
       ((s .inlineClosing (.occupation 1)).occ? 1).any (fun o => !o.sound) = true ∧
       ((s (.member []) (.occupation 1)).occ? 1).any (fun o => !o.sound) = true ∧
       (s (.member []) (.occupation 1)).engine.flight.any (fun f => f.place = .member [] ∧ f.drift = some caseDrift) = true ∧
       ((s (.member []) (.occupation 1)).loop? 0).any (fun r => r.sound && !r.damaged && r.state = .closing) = true) ∧
    (let s (walk : Option (List Nat)) (r : RecordId) := (recomputeAt walk).upsetRecord r
     ((s none (.loop 0)).loop? 0).any (fun r => !r.sound) = true ∧
       ((s none (.occupation 0)).occ? 0).any (fun o => !o.sound) = true ∧
       ((s (some []) (.occupation 1)).occ? 1).any (fun o => !o.sound) = true ∧
       (s (some []) (.occupation 1)).engine.flight.any (fun f => f.walk = some [] ∧ f.drift.isSome) = true) := by decide

/-- Recomputation: a loop no longer CLOSED, a loop closed in mode DRIFT between two stations, with and without their
references, and a PENDING member. -/
def recomputeTie (reference : Option Nat) : State :=
  { wrote (recomputeAt none) with
    stations := (withTie .closed (reducedRec 2 30) reference).stations
    occs := (withTie .closed (reducedRec 2 30) reference).occs
    loops := [(0, { loopOf .closed [1] with mode := some .drift })] }

theorem witness_recompute_more :
    (let s := { recomputeAt none with loops := [] }
     s.intact = true ∧ s.loop? 0 = none) ∧
    (let s := recomputeTie (some 980000100)
     s.intact = true ∧ s.resetHeld = false ∧ s.usable 1 = some 4 ∧ s.usable 2 = some 8 ∧ (loopOf .closed [1]).members ≠ [] ∧
       s.engine.flight.any (fun f => f.walk = none ∧ f.recomp = [0] ∧ f.written = [5]) = true) ∧
    (let s := recomputeTie none
     s.intact = true ∧ (s.station? 8).any (·.reference.isNone) = true) ∧
    (let s := { recomputeAt (some []) with occs := (withLoop .closed (pendingOcc 1 30)).occs }
     s.intact = true ∧ (s.occ? 1).any (·.state = .pending) = true) := by decide

/-- Walks: the last way and the last index, and a way of a SUSPECT station. -/
theorem witness_walk_ends :
    (engineAt (.retide 0) (.way 255) ready).station? 255 = none ∧ (engineAt .recalc (.index 511) ready).occ? 511 = none ∧
    (engineAt .recalc (.index 511) ready).intact = true ∧ (engineAt .recalc (.index 511) ready).loopsWf = true ∧
    ((orphan (engineAt (.retide 0) (.way 4) (withBase []))).station? 4).any (·.state = .suspect) = true ∧
    (let s := engineAt (.retide 3) (.way 4) (withBase [])
     s.intact = true ∧ s.matching 1 = [4] ∧ (baseStation []).site ≠ 3) ∧
    (let s := engineAt (.retide 0) (.occupation 4 1 [0]) (withBase [(0, pendingOcc 1 20)])
     s.intact = true ∧ s.loopsWf = true ∧ ∀ i ∈ (baseStation [0]).list, i ∈ [0]) := by decide

/-- RestartEngine: HALTED with a job waiting, in a recomputation, and in a CLOSE whose loop is sound or damaged. -/
def haltedClose (s : State) : State :=
  let f := startFlight { kind := .close 0, origin := .host, tag := 5 }
  { s with engine := { idleEngine with
    state := .halted, flight := some f, fault := some { flight := f, failed := .occupation 0 } } }

theorem witness_restart_more :
    (let j : Job := { kind := .recalc, origin := .host, tag := 0 }
     (haltedEngine [j]).engine.queue = j :: [] ∧ (haltedEngine [j]).serves .restartEngineDiscard .ready = true) ∧
    (let s := recomputeAt none
     let s := { s with engine := { s.engine with state := .halted } }
     s.serves (.restartEngineRetry 0) .ready = true ∧ s.engine.flight.any (fun f => f.recomp = [0] ∧ f.job.kind = .recalc) = true ∧
       s.loop? 0 = some (loopOf .closed [1])) ∧
    ready.serves (.restartEngineRetry 1) .ready = true ∧
    (let s := haltedClose (withLoop .closing { reducedRec 1 30 with drift := some drift1 })
     s.serves .restartEngineDiscard .ready = true ∧ s.intact = true ∧ s.engine.flight.any (·.job.kind = .close 0) = true ∧
       s.loop? 0 = some (loopOf .closing [1])) ∧
    (let s := (haltedClose (withLoop .closing { reducedRec 1 30 with drift := some drift1 })).failRecord (.loop 0)
     s.serves .restartEngineDiscard .ready = true ∧ (s.loop? 0).any (·.damaged) = true ∧ s.loopsWf = true ∧
       s.recordsWf = true ∧ (∀ q ∈ s.occs, q.2.sound = true ∧ q.2.damaged = false) ∧
       ∀ q ∈ s.stations, q.2.sound = true ∧ q.2.damaged = false) := by decide

/-- Exports: a record with a network value, and a record of each grade. -/
theorem witness_values :
    (let d : DriftPart := { drift1 with rOpen := some 990000000, final := 2147483647, vOpen := -2147483647 }
     d.rOpen = some 990000000 ∧ validReference 990000000 = true ∧ validGravity d.final = true ∧ validGravity d.vOpen = true) ∧
    (pendingOcc 1 20).reading = some (readingAt 20) ∧ (pendingOcc 1 20).results = none ∧
    (reducedRec 1 20).results = some results1 := by decide

/-- ServiceResets: constants that fail their check as the front end starts, at a wake and at a reset. -/
theorem witness_wake :
    (let s : State := { ready.upsetRecord .constants with part := .standby }
     s.part = .standby ∧ s.resetHeld = false ∧ s.constants.damaged = false ∧ s.constants.sound = false) ∧
    (ready.upsetRecord .constants).serves .reset .always = true ∧
    ({ ready with part := .standby, resetHeld := true } : State).resetHeld = true := by decide

/-- Restore: a set without a FREE way, and the refused fields at the edges of their ranges. -/
theorem witness_restore_edges :
    ((restoring fullSet).serves (.loadStation { stationReq with number := 337 }) .restore = true ∧
      ∀ v ∈ waysOf 337, ((restoring fullSet).station? v).isSome = true) ∧
    ((restoring ready).serves (.loadStation { stationReq with number := 0 }) .restore = true ∧
      (restoring ready).serves (.loadStation { stationReq with list := List.range 9 }) .restore = true ∧
      (restoring ready).serves (.loadStation { stationReq with role := 1, reference := some 970000000 }) .restore = true ∧
      (restoring ready).serves (.loadStation { stationReq with list := [512] }) .restore = true) ∧
    ((restoring ready).serves (.loadOccupation 0 { occReq with number := 65535 }) .restore = true ∧
      (restoring ready).serves (.loadOccupation 512 occReq) .restore = true ∧
      (restoring ready).serves (.loadOccupation 0 { occReq with duration := 9 }) .restore = true ∧
      (restoring ready).serves (.loadOccupation 0 { occReq with sums := { sumsReq with n := 0 } }) .restore = true) ∧
    ((restoring ready).serves (.loadLoop { loopReq with loop := 16 }) .restore = true ∧
      (restoring ready).serves (.loadLoop { loopReq with members := List.range 65 }) .restore = true ∧
      (restoring ready).serves (.loadLoop { loopReq with openEnd := 512 }) .restore = true ∧
      (restoring ready).serves (.loadLoop { loopReq with state := 5 }) .restore = true) ∧
    ((restoring (withLoop .opened (pendingOcc 1 30))).serves (.loadOccupation 0 occReq) .restore = true ∧
      (restoring (withLoop .opened (pendingOcc 1 30))).serves (.loadLoop loopReq) .restore = true) := by decide

/-- ScanFindings: further parts of the passes, with damaged stations and records. -/
theorem witness_scan_parts :
    (let s := starting 2 512 ((withLoop .closed { reducedRec 1 30 with drift := some drift1 }).upsetRecord (.loop 0))
     s.recordsWf = true ∧ (s.loop? 0).any (fun r => !r.sound) = true ∧ (∀ q ∈ s.occs, q.2.sound = true) ∧
       ∀ q ∈ s.stations, q.2.sound = true) ∧
    (let s := starting 2 532 ((withBase []).upsetRecord (.station 4))
     (s.station? 4).any (fun e => !e.sound) = true) ∧
    (let s := starting 3 767 { withBase [] with occs := [(511, pendingOcc 1 20)] }
     s.intact = true ∧ s.occ? 511 = some (pendingOcc 1 20) ∧ s.matching 1 = [4]) ∧
    (let s := starting 3 772 ((withBase [(0, pendingOcc 1 40), (1, pendingOcc 1 20)]).failRecord (.station 4))
     (∀ q ∈ s.stations, q.2.sound = true) ∧ s.recordsWf = true ∧ (s.station? 4).any (·.damaged) = true ∧ s.loops = []) ∧
    (let s := starting 3 1024 { withLoop .opened (pendingOcc 1 30) with loops := [(0, loopOf .opened [1, 9])] }
     s.intact = true ∧ s.loop? 0 = some (loopOf .opened [1, 9]) ∧ s.occ? 9 = none) ∧
    (let s := starting 3 1040 (withBase [(0, { reducedRec 1 20 with memberOf := some 15, opens := some 0, drift := some drift1 })])
     s.intact = true ∧ s.loop? 15 = none ∧ s.loop? 0 = none) ∧
    (let s := starting 5 4 ((withBase [(0, pendingOcc 1 40), (1, pendingOcc 1 20)]).failRecord (.station 4))
     (s.station? 4).any (·.damaged) = true) ∧
    (let s := starting 6 0 { withLoop .closed (reducedRec 1 20) with loops := [(0, { loopOf .closed [1] with mode := some .drift })] }
     s.intact = true ∧ s.orderKey 0 = s.orderKey 1 ∧ (s.occ? 0).any (·.opens = some 0) = true) := by decide

/-- LinkPeriods: a length one short of LOAD LOOP's least, one past LOAD STATION's greatest, a presence byte that asks for
a reference value, a list count of nine, and a payload that goes on after its field. -/
theorem witness_lengths :
    ({ ready with link := { clearLink with period := some ⟨false, []⟩ } } : State).link.period = some ⟨false, []⟩ ∧
    (22 : Byte).toNat < 23 ∧ 32 < (33 : Byte).toNat ∧ (33 : Byte).toNat ≤ (List.replicate 33 (0 : Byte)).length ∧
    ([0, 1, 0, 0, 1, 0, 0, 0, 0, 0] : List Byte)[4]? = some 1 ∧ (10 : Byte).toNat ≠ 14 ∧
    ([0, 1, 0, 0, 0, 0, 0, 0, 0, 0, 0, 9] : List Byte)[11]? = some 9 ∧ 8 < (9 : Byte).toNat ∧
    parseFrame 0x12 [3, 0, 1, 0] = .badLength ∧ parseFrame 0x70 [1, 1] = .badLength ∧
    parseFrame 0x70 [3, 1, 0, 7] = .command (.nextChanged (some 7)) := by decide

/-- RecordReads: READ SITE of a site with the mark, and of a sound one beside a marked constituent. -/
theorem witness_site_marks :
    (let s : State := { ready with sites := ready.sites.set 7 { clearSite with damaged := true } }
     s.serves (.readSite 7) .readyRestore = true ∧ (s.site 7).damaged = true ∧ (s.site 7).sound = true) ∧
    (let s : State := { ready with constituents := ready.constituents.set 11 { clearConstituent with damaged := true } }
     s.serves (.readSite 0) .readyRestore = true ∧ (s.site 0).damaged = false ∧ (s.constituent 11).damaged = true) := by
  decide

/-- TideArithmetic: twelve constituents and a site of twelve pairs. -/
theorem witness_tide_sum :
    (List.replicate 12 { clearConstituent with enabled := true }).length = 12 ∧ zeroPairs.length = 12 ∧
    cosine (16 * 4095 + 15) = 32767 := by decide

/-- WindowLost: the change to SILENT with no sample accepted. -/
theorem witness_silence_loss :
    let s := { inReading (.collecting 3 7 0) 0 with front := { ready.front with live := some ⟨2048, 0⟩ } }
    s.intact = true ∧ s.resetHeld = false ∧ s.window = some (windowAt (.collecting 3 7 0) 0) ∧
    (windowAt (.collecting 3 7 0) 0).sums.n = 0 ∧ s.part ≠ .standby ∧ s.front.live = some ⟨2048, 0⟩ := by decide

/-- EditStation: a role change that keeps the reference, one that clears it, at a station with and without an endpoint;
and what is refused. -/
theorem witness_edit_whole :
    (let s := withLoop .closed (reducedRec 1 30)
     let r := { editReq with role := some 1, reference := some .clear }
     s.serves (.editStation r) .ready = true ∧ s.intact = true ∧ s.matching 1 = [4] ∧
       s.station? 4 = some (baseStation [0, 1]) ∧ 0 ∈ (baseStation [0, 1]).list ∧ (0, loopOf .closed [1]) ∈ s.loops ∧
       (loopOf .closed [1]).openEnd = 0) ∧
    (let s := withBase [(0, reducedRec 1 20)]
     s.serves (.editStation { editReq with role := some 1, reference := some .clear }) .ready = true ∧
       s.serves (.editStation { editReq with role := some 1 }) .ready = true ∧
       s.serves (.editStation { editReq with role := some 2 }) .ready = true ∧
       s.serves (.editStation { editReq with number := 65535 }) .ready = true ∧ s.intact = true ∧ s.loops = []) ∧
    (ready.keyedLookup 1).2 = .noStation ∧ (duplicated.keyedLookup 530).2 = .duplicate ∧
    (((withBase []).failRecord (.station 4)).keyedLookup 1).2 = .damaged 4 := by decide

/-- OpenLoop: what each check refuses. -/
theorem witness_open_loop_refused :
    State.reset.serves (.openLoop 15 511) .ready = true ∧ State.reset.clock.isSet = false ∧
    ready.serves (.openLoop 16 0) .ready = true ∧ ready.serves (.openLoop 0 512) .ready = true ∧
    (let s := withLoop .opened (reducedRec 1 30)
     s.serves (.openLoop 0 1) .ready = true ∧ s.loop? 0 = some (loopOf .opened [1]) ∧ s.loop? 15 = none ∧
       s.occ? 511 = none ∧ (s.occ? 0).any (·.opens.isSome) = true ∧ s.usable 1 = some 4 ∧
       (∀ q ∈ s.stations, q.2.sound = true)) ∧
    (((withLoop .opened (reducedRec 1 30)).failRecord (.loop 0)).loop? 0).any (·.damaged) = true ∧
    (((withBase [(0, reducedRec 1 20)]).upsetRecord (.occupation 0)).occ? 0).any (fun o => !o.sound) = true ∧
    (orphan (withBase [(0, reducedRec 1 20)])).usable 1 = none ∧
    ({ withBase [(0, reducedRec 1 20)] with stations := [(4, { baseStation [0] with role := .field })] } : State).usable 1 =
      some 4 ∧
    (inReading (.settling 5) 0).usable 1 = some 4 ∧
    ((withBase [(0, reducedRec 1 20)]).upsetRecord .constants).constants.sound = false := by decide

/-- RestartEngine: a damaged CLOSING loop with a job waiting. -/
theorem witness_discard_waiting :
    let j : Job := { kind := .recalc, origin := .host, tag := 0 }
    let s := (haltedClose (withLoop .closing { reducedRec 1 30 with drift := some drift1 })).failRecord (.loop 0)
    let s := { s with engine := { s.engine with queue := [j] } }
    s.serves .restartEngineDiscard .ready = true ∧ s.engine.queue = j :: [] ∧ s.usable 1 = some 4 ∧ s.loopsWf = true ∧
    s.recordsWf = true := by decide

/-- Exports: a station and a record with every field at the end of its range. -/
theorem witness_layouts :
    (let p : StationPart :=
       { number := 65534, way := 255, role := .base, pinned := true, site := 7, reference := some 990000000,
         tag := 0xFFFFFFFF, indices := List.replicate 8 511, changed := true, epoch := 281474976710655 }
     p.number < 65536 ∧ p.indices.length ≤ 8 ∧ p.epoch < 281474976710656 ∧ (stationPartBytes p).length = 38) ∧
    resultsInRange
      { raw := -2147483647, noise := some 134217727, ctilt := 39360, ctemp := -3276700, ctide := -24000, v := 2147483647,
        revision := 65535, site := 7, siteRevision := 65535 } = true ∧
    driftInRange { drift1 with correction := -2147483647, final := 2147483647, rOpen := some 990000000 } = true ∧
    (readingAt 281474976710655).sums.n < 4294967296 := by decide

/-- ReduceStep: a way whose entry newly fails; a RECALC and a RETIDE at a record that is current, with a site or the
constants failing. -/
theorem witness_walk_halts :
    (let s := (engineAt (.retide 0) (.way 4) (withBase [])).upsetRecord (.station 4)
     s.resetHeld = false ∧ (s.station? 4).any (fun e => !e.sound && !e.damaged && e.state = .active) = true) ∧
    (let s (r : RecordId) := (engineAt .recalc (.index 0) (withBase [(0, reducedRec 1 20)])).upsetRecord r
     ((s (.site 0)).site 0).sound = false ∧ (s (.site 0)).usable 1 = some 4 ∧ (s (.site 0)).occ? 0 = some (reducedRec 1 20) ∧
       (s .constants).constants.sound = false ∧ ((s .constants).site 0).sound = true) ∧
    (let s (r : RecordId) := (engineAt (.retide 0) (.occupation 4 1 []) (withBase [(0, reducedRec 1 20)])).upsetRecord r
     (s (.site 0)).station? 4 = some (baseStation [0]) ∧ ((s (.site 0)).site 0).sound = false ∧
       (s .constants).constants.sound = false ∧
       (s .constants).engine.flight.any (fun f => f.place = .occupation 4 1 [] ∧ f.recomp = [] ∧ f.ending = none) = true) := by
  decide

/-- CloseLoop: a field out of range; a damaged loop; a damaged closing member; another member, marked and newly failing;
and the open endpoint, FREE, failing, marked and without an epoch. -/
theorem witness_close_damaged :
    (let s := withLoop .opened (reducedRec 1 30)
     s.serves (.closeLoop 16 1 0 255) .ready = true ∧ s.serves (.closeLoop 0 1 2 256) .ready = true ∧
       (((s.failRecord (.loop 0)).loop? 0).any (·.damaged)) = true ∧
       (((s.failRecord (.occupation 1)).occ? 1).any fun o => o.sound && o.damaged) = true ∧
       (((s.upsetRecord (.occupation 1)).occ? 1).any fun o => !o.sound) = true ∧ (∀ q ∈ s.stations, q.2.sound = true) ∧
       s.usable 1 = some 4 ∧ s.station? 4 = some (baseStation [0, 1]) ∧ s.loop? 0 = some (loopOf .opened [1]) ∧
       (((s.upsetRecord (.occupation 0)).occ? 0).any fun o => !o.sound) = true ∧
       (((s.failRecord (.occupation 0)).occ? 0).any fun o => o.sound && o.damaged) = true ∧
       ({ s with occs := slotErase s.occs 0 } : State).occ? 0 = none ∧
       ((s.setOcc 0 { reducedRec 1 20 with reading := none }).occ? 0).any (·.reading = none) = true) ∧
    (let s := (withLoop .opened (reducedRec 1 30)).setLoop 0 (loopOf .opened [1, 2])
     let s := s.setOcc 2 { reducedRec 1 25 with memberOf := some 0 }
     s.serves (.closeLoop 0 1 1 0) .ready = true ∧ s.loop? 0 = some (loopOf .opened [1, 2]) ∧
       (((s.failRecord (.occupation 2)).occ? 2).any fun o => o.sound && o.damaged) = true ∧
       (((s.upsetRecord (.occupation 2)).occ? 2).any fun o => !o.sound) = true ∧
       (s.occ? 1).any (·.reading.isSome) = true) := by decide

/-- LoopEnds: a FREE loop, a number out of range, and a damaged loop. -/
theorem witness_loop_end_refusals :
    ready.serves (.voidLoop 16) .ready = true ∧ ready.serves (.releaseLoop 16) .ready = true ∧
    ready.serves (.voidLoop 15) .ready = true ∧ ready.serves (.releaseLoop 15) .ready = true ∧ ready.loop? 15 = none ∧
    (((withLoop .closed (reducedRec 1 30)).upsetRecord (.loop 0)).loop? 0).any (fun r => !r.sound) = true ∧
    ((withLoop .closed (reducedRec 1 30)).upsetRecord (.loop 0)).serves (.releaseLoop 0) .ready = true := by decide

/-- An OPEN loop 0 at the head of a walk's recomputations: it was voided and opened anew while another was recomputed. -/
def reopened : State :=
  let s := engineAt .recalc (.index 0) (withLoop .opened (reducedRec 1 30))
  { s with engine := { s.engine with flight := s.engine.flight.map fun f : Flight => { f with recomp := [0] } } }

/-- R132, R146: READ LOOP of such a loop says that no recomputation walks it, and VOID LOOP frees it. -/
theorem test_reopened_loop :
    reopened.recomputing 0 = true ∧
    answer (exec (.readLoop 0) reopened) = some { status := .ok, payload := loopBytes (loopOf .opened [1]) false 1 } ∧
    answer (exec (.voidLoop 0) reopened) = some { status := .ok, payload := [0, 1] } := by decide

/-- DiscardOccupation and LoopEnds: an OPEN loop at the head of the recomputations, with its anchor damaged and sound, and
a CLOSED one there. -/
theorem witness_reopened :
    (let s := reopened.failRecord (.occupation 0)
     s.serves (.discardOccupation 0) .ready = true ∧ s.loop? 0 = some (loopOf .opened [1]) ∧ s.recomputing 0 = true ∧
       (s.occ? 0).any (·.damaged) = true ∧ s.loopsWf = true ∧ s.stationsWf = true) ∧
    (reopened.serves (.voidLoop 0) .ready = true ∧ reopened.intact = true) ∧
    (let s := (recomputeAt none).failRecord (.occupation 1)
     s.loop? 0 = some (loopOf .closed [1]) ∧ (loopOf .closed [1]).closing = some 1 ∧ s.recomputing 0 = true) := by decide

/-- RecordReads: READ LOOP out of range, of a CLOSED loop that is recomputed, and with its open endpoint FREE, marked and
newly failing. -/
theorem witness_read_loop :
    ready.serves (.readLoop 16) .readyRestore = true ∧
    (let s := recomputeAt none
     s.serves (.readLoop 0) .readyRestore = true ∧ s.intact = true ∧ s.recomputing 0 = true ∧ (s.occ? 0).isSome = true) ∧
    (let s := { withLoop .opened (reducedRec 1 30) with occs := [(1, reducedRec 1 30)] }
     s.serves (.readLoop 0) .readyRestore = true ∧ s.intact = true ∧ s.loop? 0 = some (loopOf .opened [1]) ∧
       s.occ? 0 = none) ∧
    (let s := withLoop .opened (reducedRec 1 30)
     (s.failRecord (.occupation 0)).loop? 0 = some (loopOf .opened [1]) ∧
       (((s.failRecord (.occupation 0)).occ? 0).any (·.damaged)) = true ∧
       (((s.upsetRecord (.occupation 0)).occ? 0).any fun o => !o.sound) = true ∧
       (s.upsetRecord (.occupation 0)).serves (.readLoop 0) .readyRestore = true) := by decide

/-- CloseSteps and Recomputation: a FREE open endpoint, a FREE closing member, and a FREE member. -/
theorem witness_finds_free :
    (let s (p : Place) := { closingLoop p (reducedRec 1 30) with occs := [(1, reducedRec 1 30)] }
     (s .loopCheck).intact = true ∧ (s .loopCheck).part ≠ .starting ∧ (s .loopCheck).resetHeld = false ∧
       (s .loopCheck).occ? 0 = none ∧ (s .loopCheck).loop? 0 = some { loopOf .closing [1] with mode := some .drift } ∧
       [Place.loopCheck, .inlineOpen, .inlineClosing, .deltaV].all (fun p =>
         (s p).engine.flight.any fun f => f.place = p ∧ f.recomp = [] ∧ f.ending = none) = true) ∧
    (let s := { closingLoop (.member []) (reducedRec 1 30) with occs := [(0, reducedRec 1 20)] }
     s.intact = true ∧ s.occ? 1 = none ∧ (loopOf .closing [1]).closing = some 1 ∧ (loopOf .closing [1]).members = [] ++ 1 :: [] ∧
       s.engine.flight.any (fun f => f.place = .member [] ∧ f.drift = some caseDrift) = true) ∧
    (let s (walk : Option (List Nat)) := { recomputeAt walk with occs := [(0, reducedRec 1 20)] }
     (s none).intact = true ∧ (s none).occ? 1 = none ∧ (s none).loop? 0 = some (loopOf .closed [1]) ∧
       (loopOf .closed [1]).closing = some 1 ∧ (s (some [])).intact = true ∧
       (s (some [])).engine.flight.any (fun f => f.walk = some [] ∧ f.drift.isSome) = true) := by decide

/-- Walks: a record that carries the mark, for a RETIDE and for a RECALC at its last index, and a way that does. -/
theorem witness_marked_record :
    (let s := (engineAt (.retide 0) (.occupation 4 1 []) (withBase [(0, reducedRec 1 20)])).failRecord (.occupation 0)
     s.station? 4 = some (baseStation [0]) ∧ (s.occ? 0).any (·.damaged) = true ∧
       s.engine.flight.any (fun f => f.place = .occupation 4 1 [] ∧ f.recomp = [] ∧ f.ending = none) = true) ∧
    (let s := (engineAt .recalc (.index 511) { withBase [] with occs := [(511, reducedRec 1 20)] }).failRecord (.occupation 511)
     (s.occ? 511).any (·.damaged) = true ∧ s.engine.state = .working) ∧
    (let s := (engineAt (.retide 0) (.occupation 4 1 []) (withBase [])).failRecord (.station 4)
     (s.station? 4).any (fun e => e.damaged && e.sound) = true) := by decide

/-- A starting part at the step of pass 3 that rewrites the list of way 4, whose entry has two records in order. -/
def rewriting : State := starting 3 772 ((withBase [(0, pendingOcc 1 20), (1, pendingOcc 1 40)]).upsetRecord (.station 4))

/-- ScanFindings: an entry that newly fails at the step that rewrites its list. -/
theorem witness_rewrite :
    (rewriting.station? 4).any (fun e => !e.sound && !e.damaged) = true ∧ rewriting.recordsWf = true ∧
    (∀ q ∈ rewriting.occs, q.2.sound = true ∧ q.2.damaged = false) ∧ rewriting.loops = [] ∧
    ∀ q ∈ rewriting.stations, q.1 ≠ 4 → q.2.sound = true := by decide

/-- R196, R204: the rewritten entry agrees with its check value again, its list the same as it was. -/
theorem test_rewritten_entry :
    (match exec (.scanReferences 1) rewriting with
     | .next s => s.station? 4
     | _ => none) = some { baseStation [0, 1] with damaged := true } := by decide

/-- RecordReads, Exports, Retire: what a keyed command answers before it finds its station. -/
theorem witness_key_refusals :
    (∀ c ∈ [Instr.readStation 0, .exportStation 65535, .retireStation 0, .readStation 1, .exportStation 1, .retireStation 1],
      ready.serves c .ready = true) ∧
    ready.serves (.readStation 65535) .readyRestore = true ∧ (ready.keyedLookup 1).2 = .noStation ∧
    duplicated.serves (.retireStation 530) .ready = true ∧ duplicated.serves (.exportStation 530) .ready = true ∧
    (duplicated.keyedLookup 530).2 = .duplicate ∧
    ((withBase []).upsetRecord (.station 4)).serves (.readStation 1) .readyRestore = true ∧
    (((withBase []).upsetRecord (.station 4)).keyedLookup 1).2 = .damaged 4 ∧
    ready.serves (.retireSlot 64 0) .ready = true ∧ ready.serves (.retireSlot 0 4) .ready = true ∧
    ready.serves (.nextChanged (some 65535)) .readyRestore = true := by decide

/-- EditStation, Retire, BeginReading, RecordReads, Exports: a lone SUSPECT way, free to go and with a record in use. -/
theorem witness_suspect :
    (let s := orphan (withBase [(0, pendingOcc 1 20)])
     s.intact = true ∧ s.stationsWf = true ∧ s.matching 1 = [4] ∧
       s.station? 4 = some { baseStation [0] with state := .suspect } ∧ (s.keyedLookup 1).2 = .found 4 ∧
       s.clock.isSet = true ∧ s.window = none ∧ s.occ? 1 = none ∧
       [Instr.readStation 1, .editStation { editReq with site := some 3 }, .retireStation 1, .beginReading beginReq,
         .exportStation 1].all (s.serves · .ready) = true) ∧
    (let s := orphan (withLoop .closed (reducedRec 1 30))
     s.intact = true ∧ s.matching 1 = [4] ∧ (0, loopOf .closed [1]) ∈ s.loops ∧ (loopOf .closed [1]).openEnd = 0) ∧
    (let s : State := { orphan (withBase []) with late := some 4 }
     ({ s with late := none } : State).intact = true ∧ s.serves (.exportStation 1) .ready = true) := by decide

/-- Retire, OpenStation, BeginReading: another entry of the set that lists a freed record; and RETIRE SLOT of an entry that
newly fails its check. -/
theorem witness_others_unlist :
    (let s := (fullList.setStation 5 { baseStation [0] with number := 65 }).setOrder 1 [4, 5]
     s.intact = true ∧ s.stationsWf = true ∧ s.matching 1 = [4] ∧ s.station? 5 = some { baseStation [0] with number := 65 } ∧
       s.serves (.beginReading beginReq) .ready = true ∧ s.serves (.retireSlot 1 0) .ready = true ∧ s.loops = []) ∧
    (let s := fullSet.setStation 70 { baseStation [77, 40] with number := 209 }
     s.intact = true ∧ s.stationsWf = true ∧ (s.station? 70).any (·.list.contains 40) = true) ∧
    (let s := (withBase [(0, pendingOcc 1 20)]).upsetRecord (.station 4)
     s.stationsWf = true ∧ s.recordsWf = true ∧ s.serves (.retireSlot 1 0) .ready = true ∧
       (s.station? 4).any (fun e => !e.sound && !e.damaged) = true ∧ (∀ q ∈ s.occs, q.2.sound = true) ∧ s.loops = [] ∧
       s.window = none) := by decide

/-- R23, R24: such an entry is retired with its record at once, and MEMORY_ERROR is raised (log 64). -/
theorem test_retire_failing :
    (match exec (.retireSlot 1 0) ((withBase [(0, pendingOcc 1 20)]).upsetRecord (.station 4)) with
     | .next s => (s.stations.length, s.occs.length, s.events.pending, s.link.held)
     | _ => (9, 9, 0, none)) = (0, 0, 0x2000, some { status := .ok, payload := [0, 1, 0, 1] }) := by decide

/-- A loop 0 whose open endpoint, record 0, is that of loop 3 and names loop 3. -/
def otherEnd (st : LoopState) : State :=
  { withLoop st (reducedRec 1 30) with
    occs := [(0, { reducedRec 1 20 with opens := some 3 }), (1, { reducedRec 1 30 with memberOf := some 0 })]
    loops := [(0, loopOf st [1]), (3, loopOf .opened [])] }

/-- DiscardOccupation, LoopEnds, ScanFindings: an open endpoint that names another loop. -/
theorem witness_other_endpoint :
    (let s := otherEnd .closed
     s.serves (.voidLoop 0) .ready = true ∧ s.serves (.releaseLoop 0) .ready = true ∧ s.intact = true ∧
       s.loop? 0 = some (loopOf .closed [1]) ∧ s.recomputing 0 = false ∧ (s.occ? 0).any (·.opens = some 3) = true) ∧
    (let s := (otherEnd .closed).failRecord (.occupation 1)
     s.serves (.discardOccupation 1) .ready = true ∧ (loopOf .closed [1]).closing = some 1 ∧
       s.loop? 0 = some (loopOf .closed [1]) ∧ s.recomputing 0 = false ∧ s.loopsWf = true ∧ s.stationsWf = true ∧
       (∀ q ∈ s.occs, q.1 ≠ 1 → q.2.sound = true ∧ q.2.damaged = false) ∧ (s.occ? 0).any (·.opens = some 3) = true) ∧
    (let s := starting 6 0 (otherEnd .opened)
     s.intact = true ∧ s.resetHeld = false ∧ s.loop? 0 = some (loopOf .opened [1]) ∧ (loopOf .opened [1]).openEnd = 0 ∧
       (s.occ? 0).any (·.opens = some 3) = true ∧ s.ownerOf 1 0 = some 4) := by decide

/-- R197, in the model's reading (log 62): pass 6 voids loop 0, and the endpoint stays that of loop 3. -/
theorem test_other_endpoint :
    (match exec (.scanUnanchoredLoops 1) (starting 6 0 (otherEnd .opened)) with
     | .next s => (slotKeys s.loops, s.occs.map fun q => (q.2.opens, q.2.memberOf))
     | _ => ([], [])) = ([3], [(some 3, none), (none, none)]) := by decide

/-- ReduceStep: what halts a ΔV step after its endpoints: an entry of either station, the constants, and constants that it
does not read. -/
theorem witness_delta_v_halts :
    (let s := (closingTie .deltaV (some 980000100)).upsetRecord (.station 8)
     s.resetHeld = false ∧ (s.station? 8).any (fun e => !e.sound && !e.damaged) = true ∧
       (s.station? 4).any (·.sound) = true ∧ s.loop? 0 = some { loopOf .closing [1] with mode := some .drift } ∧
       (s.occ? 0).any (·.station = 1) = true ∧ (s.occ? 1).any (·.station = 2) = true ∧
       s.engine.flight.any (fun f => f.place = .deltaV ∧ f.job.kind = .close 0 ∧ f.recomp = [] ∧ f.ending = none) = true) ∧
    ((recomputeTie (some 980000100)).upsetRecord (.station 4)).engine.flight.any
      (fun f => f.recomp = [0] ∧ f.walk = none ∧ f.ending = none) = true ∧
    (let s := (closingTie .deltaV (some 980000100)).upsetRecord .constants
     s.constants.sound = false ∧ s.usable 1 = some 4 ∧ s.usable 2 = some 8 ∧
       (s.station? 8).any (·.reference.isSome) = true ∧ (∀ q ∈ s.stations, q.2.sound = true)) ∧
    (let s := (closingTie .deltaV none).upsetRecord .constants
     s.constants.sound = false ∧ (s.station? 8).any (·.reference.isNone) = true ∧ (∀ q ∈ s.stations, q.2.sound = true)) := by
  decide

/-- ReduceStep: what halts a reduction of a REDUCE at the loop table, an inline one, and one of a PENDING member. -/
theorem witness_reductions_halt :
    (let s := (engineAt (.reduce 0) .reducing (withLoop .closed (reducedRec 1 30))).upsetRecord (.loop 0)
     (s.loop? 0).any (fun r => !r.sound && !r.damaged) = true ∧ s.loopsWf = true ∧ s.usable 1 = some 4 ∧
       s.constants.sound = true ∧ (s.site 0).set = false ∧ (s.site 0).sound = true ∧
       (∀ q ∈ s.stations, q.2.sound = true) ∧ s.occ? 0 = some { reducedRec 1 20 with opens := some 0 }) ∧
    (let s (p : Place) (r : RecordId) := (closingLoop p (pendingOcc 1 30)).upsetRecord r
     (∀ p ∈ [Place.inlineClosing, .member []],
       (s p .constants).constants.sound = false ∧ ((s p (.station 4)).station? 4).any (fun e => !e.sound) = true ∧
       (s p (.station 4)).occ? 1 = some { pendingOcc 1 30 with memberOf := some 0 } ∧
       ((s p (.site 0)).site 0).sound = false ∧ (s p (.site 0)).usable 1 = some 4) ∧
     (s .inlineClosing .constants).loop? 0 = some { loopOf .closing [1] with mode := some .drift } ∧
     ((s (.member []) .constants).engine.flight.any
       fun f => f.place = .member [] ∧ f.recomp = [] ∧ f.ending = none ∧ f.drift.isSome) = true) := by decide

/-- ReduceStep: the closing endpoint at a ΔV step, of a recomputation and of a CLOSE, where the open one is sound and where
it is FREE; and a REDUCED member whose station's entry newly fails. -/
theorem witness_endpoint_halts :
    (let s := (recomputeAt none).upsetRecord (.occupation 1)
     (s.occ? 1).any (fun p => !p.sound) = true ∧ (s.occ? 0).any (fun o => o.sound && !o.damaged) = true ∧
       s.loop? 0 = some (loopOf .closed [1]) ∧ (loopOf .closed [1]).closing = some 1 ∧
       s.engine.flight.any (fun f => f.recomp = [0] ∧ f.walk = none ∧ f.ending = none) = true) ∧
    (let s : State := { recomputeAt none with occs := [(1, { reducedRec 1 30 with damaged := true })] }
     s.occ? 0 = none ∧ (s.occ? 1).any (·.damaged) = true) ∧
    (let s : State := { closingLoop .deltaV (reducedRec 1 30) with occs := [(1, { reducedRec 1 30 with sound := false })] }
     s.occ? 0 = none ∧ (s.loop? 0).any (·.closing = some 1) = true) ∧
    (let s := (closingLoop (.member []) (reducedRec 1 30)).upsetRecord (.station 4)
     (s.station? 4).any (fun e => !e.sound && !e.damaged) = true ∧ (s.occ? 1).any (·.state = .reduced) = true) ∧
    (let s := (recomputeAt (some [])).upsetRecord (.station 4)
     (s.station? 4).any (fun e => !e.sound && !e.damaged) = true ∧ (s.occ? 1).any (·.state = .reduced) = true) := by decide

/-- ReduceStep: what halts a walk: another entry of a way's set, the entry that the occupation step reads, and a visited
record, its station's entry, a constituent and a loop. -/
theorem witness_visit_halts :
    (let s := ((engineAt (.retide 0) (.way 4) (withBase [])).setStation 5 { baseStation [] with number := 65 }).upsetRecord (.station 5)
     (s.station? 5).any (fun e => !e.sound && !e.damaged) = true ∧ s.station? 4 = some (baseStation [])) ∧
    (let s := (engineAt (.retide 0) (.occupation 4 1 []) (withBase [(0, pendingOcc 1 20)])).upsetRecord (.station 4)
     (s.station? 4).any (fun e => !e.sound && !e.damaged) = true) ∧
    (let o := { reducedRec 1 20 with results := some { results1 with revision := 9 } }
     let s (p : Place) (r : RecordId) := (engineAt .recalc p (withTide { withLoop .closed (reducedRec 1 30) with occs := [(0, o)] })).upsetRecord r
     ((s (.index 0) (.occupation 0)).occ? 0).any (fun o => !o.sound && o.results.isSome) = true ∧
       ((s (.index 0) (.station 4)).station? 4).any (fun e => !e.sound) = true ∧
       ((s (.index 0) (.constituent 0)).constituent 0).sound = false ∧ ((s (.index 0) (.constituent 0)).site 0).set = true ∧
       ((s (.index 0) (.loop 0)).loop? 0).any (fun r => !r.sound) = true ∧ (s (.index 0) (.loop 0)).occ? 0 = some o ∧
       (s (.index 0) (.loop 0)).loopsWf = true ∧ o.results.any (·.revision ≠ 0) = true ∧
       (s (.index 0) (.loop 0)).constants.revision = 0) ∧
    (let s := (engineAt (.retide 0) (.occupation 4 1 [0])
       (withTide (withLoop .closed { reducedRec 1 30 with results := some { results1 with siteRevision := 3 } }))).upsetRecord (.loop 0)
     s.station? 4 = some (baseStation [0, 1]) ∧ (s.occ? 1).any (fun o => o.results.any (·.siteRevision ≠ (s.site 0).revision)) = true ∧
       (s.loop? 0).any (fun r => !r.sound) = true ∧ (∀ k, k < 12 → (s.constituent k).sound = true)) := by decide

/-- ScanFindings: twins of which one is damaged, and records of equal epoch, in a list out of order and in a list to
rewrite. -/
theorem witness_scan_ties :
    (let s := starting 1 18 { duplicated with stations := [(73, { baseStation [] with number := 530, damaged := true }),
        (74, { baseStation [] with number := 530 })] }
     (∀ q ∈ s.stations, q.2.sound = true) ∧ s.occs = [] ∧ s.loops = [] ∧ s.matching 530 = [73, 74]) ∧
    (let s := starting 5 4 { withBase [(0, pendingOcc 1 40), (1, pendingOcc 1 20), (2, pendingOcc 1 20)] with
        stations := [(4, baseStation [2, 0, 1])] }
     s.intact = true ∧ s.orderKey 1 = s.orderKey 2 ∧ s.orderKey 1 < s.orderKey 0) ∧
    (let s := starting 3 772 { withBase [(0, pendingOcc 1 20), (1, pendingOcc 1 20)] with
        stations := [(4, { baseStation [1, 0] with damaged := true })] }
     s.recordsWf = true ∧ s.orderKey 0 = s.orderKey 1) := by decide

/-- R196, pass 1: both twins become SUSPECT, the damaged one too. -/
theorem test_damaged_twin :
    (match exec (.scanDuplicates 1) (starting 1 18 { duplicated with stations :=
        [(73, { baseStation [] with number := 530, damaged := true }), (74, { baseStation [] with number := 530 })] }) with
     | .next s => s.stations.map fun q => (q.2.state, q.2.damaged)
     | _ => []) = [(.suspect, true), (.suspect, false)] := by decide

/-- R196, R197: of equal epochs, the lower index comes first in a rewritten list, and a list put in order keeps theirs. -/
theorem test_equal_epochs :
    (let s (list : List Nat) (damaged : Bool) : State := { withBase [(0, pendingOcc 1 40), (1, pendingOcc 1 20), (2, pendingOcc 1 20)] with
        stations := [(4, { baseStation list with damaged := damaged })] }
     [exec (.scanOrder 1) (starting 5 4 (s [2, 0, 1] false)), exec (.scanReferences 1) (starting 3 772 (s [2, 0, 1] true))].map fun x =>
       match x with
       | .next s => (s.station? 4).map (·.list)
       | _ => none) = [some [2, 1, 0], some [1, 2, 0]] := by decide

/-- A station with a marked record, a failing one and one with results, whose site fails its check. -/
def roughExport : State :=
  (withBase [(0, { pendingOcc 1 20 with damaged := true }), (1, { reducedRec 1 30 with sound := false }), (2, reducedRec 1 40)]).upsetRecord
    (.site 0)

/-- Exports, RecordReads: such a station; a constants record that fails at the read of an occupation; and a station that is
not usable. -/
theorem witness_rough_export :
    roughExport.serves (.exportStation 1) .ready = true ∧ roughExport.matching 1 = [4] ∧ roughExport.late = none ∧
    roughExport.station? 4 = some (baseStation [0, 1, 2]) ∧ roughExport.constants.sound = true ∧
    (∀ q ∈ roughExport.stations, q.2.sound = true ∧ q.2.damaged = false) ∧
    (∀ i ∈ [0, 1, 2], (roughExport.occ? i).isSome = true) ∧ (roughExport.site 0).sound = false ∧
    roughExport.serves (.readOccupation 2) .readyRestore = true ∧ roughExport.usable 1 = some 4 ∧
    (let s := (withBase [(2, reducedRec 1 40)]).upsetRecord .constants
     s.constants.sound = false ∧ s.constants.damaged = false ∧ (∀ q ∈ s.stations, q.2.sound = true)) ∧
    (orphan (withBase [(2, reducedRec 1 40)])).usable 1 = none := by decide

/-- R160, R162: the damaged records and the failing one are DAMAGED parts, the other is tide-stale, and MEMORY_ERROR is
raised. -/
theorem test_rough_export :
    (match exec (.exportStation 1) roughExport with
     | .next s => (s.snapshot.map fun p => p.parts.map fun q => match q with
         | .damaged i => (i, none)
         | .copy i _ _ _ tide consts => (i, some (tide, consts)), s.events.pending, (s.site 0).damaged)
     | _ => (none, 0, false)) = (some [(0, none), (1, none), (2, some (true, false))], 0x2000, true) := by decide

/-- R84, R86: a reduction that holds no value clears SATURATED; one that holds only a final value sets it. -/
theorem test_saturated :
    (let o (d : Option DriftPart) (f : Flags) : Occ := { pendingOcc 1 20 with drift := d, flags := f }
     let c : Constants := { State.reset.constants with nums := { defaultNums with rangeOffset := 2147483600 } }
     let m : Sums := { sumX := 1, sumX2 := 1, n := 1 }
     [(reducedOcc (o none { saturated := true }) c m none 0 0).flags.saturated,
      (reducedOcc (o (some { drift1 with correction := 100 }) {}) c m none 0 0).flags.saturated]) = [false, true] := by decide

/-- R138, R181: a CLOSE at its third member is at step 3, MEMBER, with two members walked; a RETIDE at way 2 of set 1
that has visited three indices, in the recomputation of loop 5; and a RECALC whose next index is 300. -/
theorem test_progress_bytes :
    let job (k : JobKind) : Job := { kind := k, origin := .host, tag := 0 }
    progressBytes { startFlight (job (.close 2)) with place := .member [61, 62] } = [3, 2] ∧
    progressBytes { startFlight (job (.retide 0)) with place := .occupation 6 1 [7, 8, 9], recomp := [5] } =
      [1, 2, 0, 3, 1, 5, 0] ∧
    progressBytes { startFlight (job .recalc) with place := .index 300 } = [1, 44, 0] := by decide

/-- R169, R181: the numbers of READ CONSTANTS in the fewest bytes of their ranges: nominal gravity takes three and the
loop duration one, at place 42; fifty-four bytes in all. -/
theorem test_constants_bytes :
    (constantsBytes defaultConstants).length = 54 ∧ (constantsBytes defaultConstants).take 3 = [0x0E, 0xF4, 0x20] ∧
    (constantsBytes defaultConstants)[42]? = some 12 := by decide

/-- R201: LOAD OCCUPATION carries the exact sums first, then the three held counts, then the last values. -/
theorem test_load_sums_order :
    (pLoadSums ([1, 5, 1, 25, 1, 1, 1, 0, 1, 0, 1, 0, 1, 0, 1, 0, 1, 0, 1, 0, 1, 0, 0, 9, 0, 8, 0, 7, 0, 0, 0, 0])).map
        (fun r => (r.1.sumX, r.1.n, r.1.overload, r.1.clamped, r.1.breaks)) = some (5, 1, 9, 8, 7) := by decide

end Sys2Proof.Tests
end

