-- ==== Sys2Proof/Proofs/Stations/Tables.lean ====
section
/-! SUPPORT. Reads of the station table: sets and ways, the ways that carry a number, the memory check of entries that
agree with their check values, and power-on. -/

namespace Sys2Proof.Machine

open Sys2Proof

variable {s : State}

/-! ### Numbers, sets and ways (R4, R6) -/

theorem validNumber_of_range {n : Nat} (h : 1 ≤ n) (h' : n ≤ 65534) : validNumber n = true := by
  simp [validNumber, h, h']

theorem validNumber_of_out {n : Nat} (h : n = 0 ∨ 65535 ≤ n) : validNumber n = false := by
  simp only [validNumber, Bool.and_eq_false_iff, decide_eq_false_iff_not]
  omega

theorem mem_waysOfSet {k w : Nat} : w ∈ waysOfSet k ↔ w / 4 = k := by
  simp only [waysOfSet, List.mem_cons, List.not_mem_nil, or_false]
  omega

theorem mem_waysOf {n w : Nat} : w ∈ waysOf n ↔ w / 4 = n % 64 := mem_waysOfSet

theorem waysOf_nodup (n : Nat) : (waysOf n).Nodup := by
  simp [waysOf, waysOfSet]

theorem mem_matching {n w : Nat} :
    w ∈ s.matching n ↔ w / 4 = n % 64 ∧ ∃ e, s.station? w = some e ∧ e.number = n := by
  simp only [State.matching, List.mem_filter, mem_waysOf]
  cases s.station? w <;> simp

/-- The ways of a number depend on the station table alone. -/
theorem matching_congr {t : State} {n : Nat}
    (h : ∀ w, w / 4 = n % 64 → (t.station? w).map (·.number) = (s.station? w).map (·.number)) :
    t.matching n = s.matching n := by
  refine List.filter_congr fun w hw => ?_
  have hw := h w (mem_waysOf.1 hw)
  cases ht : t.station? w <;> cases hs : s.station? w <;> simp_all

theorem matching_singleton {n w : Nat} (h : s.matching n = [w]) :
    w / 4 = n % 64 ∧ ∃ e, s.station? w = some e ∧ e.number = n :=
  mem_matching.1 (h ▸ List.mem_singleton_self w)

/-! ### The memory check of a record that agrees with its check value (R2, R32, R111) -/

theorem checkStation_of_sound {w : Nat} (h : ∀ e, s.station? w = some e → e.sound = true) : s.checkStation w = s := by
  unfold State.checkStation
  split
  · rename_i e he
    rw [if_pos (h e he)]
  · rfl

theorem checkStation_of_unsound {w : Nat} {e : Station} (he : s.station? w = some e) (h : e.sound = false) :
    s.checkStation w = (s.setStation w { e with damaged := true }).raise .memoryError := by
  simp [State.checkStation, he, h]

theorem checkOcc_of_sound {i : Nat} (h : ∀ o, s.occ? i = some o → o.sound = true) : s.checkOcc i = s := by
  unfold State.checkOcc
  split
  · rename_i o ho
    rw [if_pos (h o ho)]
  · rfl

theorem checkOcc_of_unsound {i : Nat} {o : Occ} (ho : s.occ? i = some o) (h : o.sound = false) :
    s.checkOcc i = (s.setOcc i { o with damaged := true }).raise .memoryError := by
  simp [State.checkOcc, ho, h]

theorem checkLoop_of_sound {l : Nat} (h : ∀ r, s.loop? l = some r → r.sound = true ∧ r.damaged = false) :
    s.checkLoop l = s := by
  unfold State.checkLoop
  split
  · rename_i r hr
    rw [if_pos (by simp [h r hr])]
  · rfl

theorem foldl_of_fixed_mem {β : Type} {f : State → β → State} {l : List β} (hf : ∀ b ∈ l, f s b = s) :
    l.foldl f s = s := by
  induction l with
  | nil => rfl
  | cons b l ih =>
    rw [List.foldl_cons, hf b List.mem_cons_self, ih fun c hc => hf c (List.mem_cons_of_mem _ hc)]

theorem checkStations_of_sound {ws : List Nat} (h : ∀ w ∈ ws, ∀ e, s.station? w = some e → e.sound = true) :
    s.checkStations ws = s := foldl_of_fixed_mem fun w hw => checkStation_of_sound (h w hw)

theorem checkOccs_of_sound {is : List Nat} (h : ∀ i ∈ is, ∀ o, s.occ? i = some o → o.sound = true) :
    s.checkOccs is = s := foldl_of_fixed_mem fun i hi => checkOcc_of_sound (h i hi)

theorem checkLoops_of_sound (h : ∀ l r, s.loop? l = some r → r.sound = true ∧ r.damaged = false) :
    s.checkLoops = s := foldl_of_fixed_mem fun l _ => checkLoop_of_sound (h l)

/-! ### The link -/

theorem resetHeld_of_serves {c : Instr} {a : Access} (h : s.serves c a = true) : s.resetHeld = false := by
  simp only [State.serves, State.linkTakes, Bool.and_eq_true, Bool.not_eq_true'] at h
  obtain ⟨⟨⟨hheld, -⟩, -⟩, -⟩ := h
  exact hheld

/-! ### Power-on (R193) -/

theorem constituent_replicate (s : State) (k : Nat) (h : s.constituents = Vector.replicate 12 clearConstituent) :
    s.constituent k = clearConstituent := by
  unfold State.constituent
  rw [h, Vector.getElem?_replicate]
  split <;> rfl

theorem site_replicate (s : State) (k : Nat) (h : s.sites = Vector.replicate 8 clearSite) : s.site k = clearSite := by
  unfold State.site
  rw [h, Vector.getElem?_replicate]
  split <;> rfl

/-- Settles O4: power-on takes the tables and the main domain from the state after reset. -/
theorem powerOn : Obligations.PowerOn := by
  intro s
  have hline : Events.attention { pending := 0, enabled := 0 } = false := by decide
  exact ⟨s.powerOn, rfl, rfl, rfl, rfl, rfl, fun k _ => constituent_replicate _ k rfl,
    fun k _ => site_replicate _ k rfl, rfl, rfl, rfl, hline, rfl, rfl, rfl, rfl, rfl, rfl, rfl, rfl, rfl, rfl, rfl, rfl,
    rfl, rfl, rfl⟩

end Sys2Proof.Machine
end

