-- ==== Sys2Proof/Proofs/Stations/Lookups.lean ====
section
/-! SUPPORT. The lookups (R6 to R8) in a set whose entries agree with their check values, and FIND STATION (R18). -/

namespace Sys2Proof.Machine

open Sys2Proof

variable {s t u : State}

/-! ### States that differ in the station table alone -/

/-- `t` is `s` with another station table. -/
def StationsOnly (s t : State) : Prop := ∃ x, t = { s with stations := x }

theorem StationsOnly.refl (s : State) : StationsOnly s s := ⟨s.stations, rfl⟩

theorem StationsOnly.trans (h : StationsOnly s t) (k : StationsOnly t u) : StationsOnly s u := by
  obtain ⟨x, rfl⟩ := h
  obtain ⟨y, rfl⟩ := k
  exact ⟨y, rfl⟩

theorem StationsOnly.eq (h : StationsOnly s t) : t = { s with stations := t.stations } := by
  obtain ⟨x, rfl⟩ := h
  rfl

theorem putStation_stationsOnly (w : Nat) (e : Station) : StationsOnly s (s.putStation w e) := ⟨_, rfl⟩

/-! ### SUSPECT and ACTIVE (R6, R7) -/

/-- R6: the entry of one of several matches as the lookup leaves it. -/
def suspected (e : Station) : Station := { e with state := .suspect }

theorem suspect_stationsOnly (w : Nat) : StationsOnly s (s.suspect w) := by
  unfold State.suspect
  split
  · split
    · exact .refl s
    · exact putStation_stationsOnly w _
  · exact .refl s

theorem activate_stationsOnly (w : Nat) : StationsOnly s (s.activate w) := by
  unfold State.activate
  split
  · split
    · exact .refl s
    · exact putStation_stationsOnly w _
  · exact .refl s

theorem station?_suspect {w : Nat} (hs : ∀ e, s.station? w = some e → e.sound = true) (v : Nat) :
    (s.suspect w).station? v =
      if v = w then (s.station? v).map suspected else s.station? v := by
  unfold State.suspect
  cases he : s.station? w with
  | none => split <;> simp_all
  | some e =>
    obtain ⟨num, st, dam, snd, rl, pin, si, rf, tg, ls, ch⟩ := e
    have hsound := hs _ he
    by_cases hv : v = w <;> by_cases hst : st = .suspect <;> simp_all [suspected]

theorem station?_activate {w : Nat} {e : Station} (he : s.station? w = some e) (hs : e.sound = true) (v : Nat) :
    (s.activate w).station? v = if v = w then some (Claims.looked e) else s.station? v := by
  unfold State.activate Claims.looked
  obtain ⟨num, st, dam, snd, rl, pin, si, rf, tg, ls, ch⟩ := e
  by_cases hv : v = w <;> by_cases hst : st = .active <;> simp_all

theorem foldl_suspect_stationsOnly (ws : List Nat) (s : State) : StationsOnly s (ws.foldl State.suspect s) := by
  induction ws generalizing s with
  | nil => exact .refl s
  | cons w ws ih => exact (suspect_stationsOnly w).trans (ih _)

theorem station?_foldl_suspect (ws : List Nat) (s : State)
    (hs : ∀ w ∈ ws, ∀ e, s.station? w = some e → e.sound = true) (v : Nat) :
    (ws.foldl State.suspect s).station? v =
      if v ∈ ws then (s.station? v).map suspected else s.station? v := by
  induction ws generalizing s with
  | nil => rfl
  | cons w ws ih =>
    have hw := station?_suspect (hs w List.mem_cons_self)
    have hkeep : ∀ x ∈ ws, ∀ e, (s.suspect w).station? x = some e → e.sound = true := by
      intro x hx e he
      rw [hw] at he
      split at he
      · obtain ⟨f, hf, rfl⟩ := Option.map_eq_some_iff.1 he
        exact hs x (List.mem_cons_of_mem _ hx) f hf
      · exact hs x (List.mem_cons_of_mem _ hx) e he
    rw [List.foldl_cons, ih _ hkeep, hw]
    by_cases hv : v = w <;> by_cases hm : v ∈ ws <;> cases s.station? v <;> simp [hv, hm, suspected]

/-! ### The keyed lookup (R6, R7) -/

theorem checkStations_of_setReads {n : Nat} (h : Claims.SetReads s n) : s.checkStations (waysOf n) = s :=
  checkStations_of_sound fun w hw e he => h w e (mem_waysOf.1 hw) he

/-- What the keyed lookup answers once the entries of the set are read. -/
theorem keyedLookup_of_checked {n : Nat} (h : s.checkStations (waysOf n) = t) :
    s.keyedLookup n = match t.matching n with
      | [] => (t, .noStation)
      | [w] => match t.station? w with
        | some e => if e.damaged then (t, .damaged w) else (t.activate w, .found w)
        | none => (t, .noStation)
      | ws => (ws.foldl State.suspect t, .duplicate) := by
  subst h
  rfl

theorem keyedLookup_of_lone_damaged {n w : Nat} {e : Station} (h : s.checkStations (waysOf n) = t)
    (hm : t.matching n = [w]) (he : t.station? w = some e) (hd : e.damaged = true) :
    s.keyedLookup n = (t, .damaged w) := by
  simp [keyedLookup_of_checked h, hm, he, hd]

theorem keyedLookup_of_lone {n w : Nat} {e : Station} (h : s.checkStations (waysOf n) = t)
    (hm : t.matching n = [w]) (he : t.station? w = some e) (hd : e.damaged = false) :
    s.keyedLookup n = (t.activate w, .found w) := by
  simp [keyedLookup_of_checked h, hm, he, hd]

theorem keyedLookup_of_several {n : Nat} (h : s.checkStations (waysOf n) = t) (hm : 2 ≤ (t.matching n).length) :
    s.keyedLookup n = ((t.matching n).foldl State.suspect t, .duplicate) := by
  rw [keyedLookup_of_checked h]
  split <;> simp_all

theorem keyedLookup_claim : Claims.KeyedLookup := by
  intro s n hr
  have hc := checkStations_of_setReads hr
  refine ⟨fun hm => ?_, fun w e hm he hd => keyedLookup_of_lone_damaged hc hm he hd,
    fun w e hm he hd ha => ?_, fun w e hm he hd ha => ?_, fun hm => ?_⟩
  · simp [keyedLookup_of_checked hc, hm]
  · rw [keyedLookup_of_lone hc hm he hd, activate_of_active he ha]
  · have hs := hr w e (matching_singleton hm).1 he
    refine ⟨_, keyedLookup_of_lone hc hm he hd, (activate_stationsOnly w).eq, ?_, fun v hv => ?_⟩
    · rw [station?_activate he hs, if_pos rfl]
      rfl
    · rw [station?_activate he hs, if_neg hv]
  · have hs : ∀ w ∈ s.matching n, ∀ e, s.station? w = some e → e.sound = true :=
      fun w hw e he => hr w e (mem_matching.1 hw).1 he
    refine ⟨_, keyedLookup_of_several hc hm, (foldl_suspect_stationsOnly _ s).eq, fun w e hw he => ?_, fun w hw => ?_⟩
    · rw [station?_foldl_suspect _ _ hs, if_pos hw, he]
      rfl
    · rw [station?_foldl_suspect _ _ hs, if_neg hw]

/-! ### The internal lookup (R8) -/

theorem usable_of_lone {n w : Nat} {e : Station} (hm : s.matching n = [w]) (he : s.station? w = some e) :
    s.usable n = if e.state = .active ∧ ¬e.damaged then some w else none := by
  simp [State.usable, hm, he]

theorem usable_of_not_lone {n : Nat} (hm : (s.matching n).length ≠ 1) : s.usable n = none := by
  unfold State.usable
  split <;> simp_all

theorem internalLookup_claim : Claims.InternalLookup := by
  intro s n hr
  refine ⟨by rw [State.internalLookup, checkStations_of_setReads hr], fun w e hm he hd ha => ?_, fun w e hm he h => ?_,
    usable_of_not_lone⟩
  · simp [usable_of_lone hm he, hd, ha]
  · rcases h with h | h <;> simp [usable_of_lone hm he, h]

/-! ### The memory check (R2, R7, R32) -/

@[simp] theorem station?_raise (e : Event) (w : Nat) : (s.raise e).station? w = s.station? w := rfl
@[simp] theorem occ?_raise (e : Event) (i : Nat) : (s.raise e).occ? i = s.occ? i := rfl
@[simp] theorem loop?_raise (e : Event) (l : Nat) : (s.raise e).loop? l = s.loop? l := rfl

/-- The reads of a list in which one entry alone fails its check. -/
theorem checkStations_of_lone_unsound {ws : List Nat} {w : Nat} {e : Station} (hn : ws.Nodup) (hw : w ∈ ws)
    (he : s.station? w = some e) (hu : e.sound = false)
    (hs : ∀ v ∈ ws, v ≠ w → ∀ f, s.station? v = some f → f.sound = true) :
    s.checkStations ws = (s.setStation w { e with damaged := true }).raise .memoryError := by
  induction ws with
  | nil => exact absurd hw List.not_mem_nil
  | cons v ws ih =>
    obtain ⟨hv, hn⟩ := List.nodup_cons.1 hn
    rw [State.checkStations, List.foldl_cons]
    by_cases hvw : v = w
    · subst hvw
      rw [checkStation_of_unsound he hu]
      refine checkStations_of_sound fun x hx f hf => ?_
      have hxv : x ≠ v := fun h => hv (h ▸ hx)
      rw [station?_raise, station?_setStation, if_neg hxv] at hf
      exact hs x (List.mem_cons_of_mem _ hx) hxv f hf
    · rw [checkStation_of_sound (hs v List.mem_cons_self hvw)]
      have hw' : w ∈ ws := (List.mem_cons.1 hw).resolve_left fun h => hvw h.symm
      exact ih hn hw' fun x hx => hs x (List.mem_cons_of_mem _ hx)

/-- R7: a lone match that newly fails its check is answered as damaged. -/
theorem keyedLookup_of_lone_unsound {n w : Nat} {e : Station} (hm : s.matching n = [w]) (he : s.station? w = some e)
    (hu : e.sound = false) (hs : ∀ v f, v ≠ w → v / 4 = n % 64 → s.station? v = some f → f.sound = true) :
    s.keyedLookup n = ((s.setStation w { e with damaged := true }).raise .memoryError, .damaged w) := by
  have hset := (matching_singleton hm).1
  have hc := checkStations_of_lone_unsound (waysOf_nodup n) (mem_waysOf.2 hset) he hu
    fun v hv hvw f hf => hs v f hvw (mem_waysOf.1 hv) hf
  refine keyedLookup_of_lone_damaged hc ?_ (e := { e with damaged := true }) (by simp) rfl
  rw [← hm]
  refine matching_congr fun v _ => ?_
  by_cases hv : v = w <;> simp [hv, he]

theorem memoryCheck_claim : Claims.MemoryCheck := by
  refine fun s k => ⟨fun e he h => checkStation_of_sound (by simp_all), fun e he => checkStation_of_unsound he,
    fun o ho h => checkOcc_of_sound (by simp_all), fun o ho => checkOcc_of_unsound ho,
    fun he => checkStation_of_sound (by simp [he]), fun ho => checkOcc_of_sound (by simp [ho]),
    fun n w e hm he _ hu hs => keyedLookup_of_lone_unsound hm he hu hs⟩

/-! ### FIND STATION (R18) -/

theorem exec_findStation {n : Nat} (h : s.serves (.findStation n) .readyRestore = true) :
    exec (.findStation n) s = .next (findStationBody n s) := hostCommand_of_serves _ h

theorem findStationBody_of_invalid {n : Nat} (h : validNumber n = false) : findStationBody n s = s.refuse .badKey := by
  simp [findStationBody, h]

theorem findStationBody_of_lookup {n : Nat} {out : Lookup} (h : validNumber n = true)
    (hl : s.keyedLookup n = (t, out)) :
    findStationBody n s = match out with
      | .found w => (t.touch w).respond .ok (u8 (w / 4) ++ u8 (w % 4))
      | out => t.refuse out.status := by
  cases out <;> simp [findStationBody, h, hl]

theorem findStation_claim : Claims.FindStation := by
  refine fun s n hl => ⟨fun hp => ?_, fun hp => hostCommand_of_not_taken _ hl (by rw [hp]; rfl)⟩
  have hx : exec (.findStation n) s = .next (findStationBody n s) := by
    refine exec_findStation ?_
    rcases hp with hp | hp <;> simp [State.serves, hl, hp, Access.taken]
  refine ⟨fun h => by rw [hx, findStationBody_of_invalid (validNumber_of_out h)], fun h1 h2 t out ho => ?_⟩
  have hb := findStationBody_of_lookup (validNumber_of_range h1 h2) ho
  refine ⟨?_, ?_, ?_, ?_, fun w e hr hm he hd hst => ?_⟩
  · rintro w rfl
    rw [hx, hb]
  · rintro rfl
    rw [hx, hb]
    rfl
  · rintro rfl
    rw [hx, hb]
    rfl
  · rintro w rfl
    rw [hx, hb]
    rfl
  · obtain ⟨t', ht, -, hact, -⟩ := (keyedLookup_claim s n hr).2.2.2.1 w e hm he hd hst
    rw [ho] at ht
    obtain ⟨rfl, rfl⟩ := Prod.mk.inj ht
    exact ⟨rfl, hact⟩

/-- Settles O30: FIND STATION, the two lookups and the memory check. -/
theorem findStation : Obligations.FindStation :=
  ⟨findStation_claim, keyedLookup_claim, internalLookup_claim, memoryCheck_claim⟩

end Sys2Proof.Machine
end

