-- ==== Sys2Proof/Proofs/Stations/Edit.lean ====
section
/-! SUPPORT. Intact memory after a write, the recency order after a touch, the endpoints of loops on intact memory; and
EDIT STATION (R15 to R17). -/

namespace Sys2Proof.Machine

open Sys2Proof

variable {s t u : State}

/-! ### Intact memory after a write (R204) -/

theorem mem_slotInsert {α : Type} {k : Nat} {v : α} {t : Slots α} {p : Nat × α} :
    p ∈ slotInsert k v t ↔ p = (k, v) ∨ p ∈ t := by
  induction t with
  | nil => simp [slotInsert]
  | cons q t ih =>
    unfold slotInsert
    split
    · simp
    · rw [List.mem_cons, ih, List.mem_cons]
      tauto

theorem mem_of_mem_slotSet {α : Type} {k : Nat} {v : α} {t : Slots α} {p : Nat × α} (h : p ∈ slotSet t k v) :
    p = (k, v) ∨ p ∈ t := (mem_slotInsert.1 h).imp_right List.mem_of_mem_filter

theorem intact_putStation (h : s.intact = true) {w : Nat} {e : Station} (hd : e.damaged = false) :
    (s.putStation w e).intact = true := by
  simp only [State.intact, Bool.and_eq_true, List.all_eq_true, State.putStation_stations, State.putStation_occs,
    State.putStation_loops, State.putStation_constants, State.putStation_constituents, State.putStation_sites,
    State.putStation_late] at h ⊢
  obtain ⟨⟨⟨⟨⟨⟨⟨hst, hrest⟩, hloops⟩, hsound⟩, hdam⟩, hcons⟩, hsites⟩, hlate⟩ := h
  refine ⟨⟨⟨⟨⟨⟨⟨fun p hp => ?_, hrest⟩, hloops⟩, hsound⟩, hdam⟩, hcons⟩, hsites⟩, hlate⟩
  rcases mem_of_mem_slotSet hp with rfl | hp
  · simp [hd]
  · exact hst p hp

theorem intact_activate (h : s.intact = true) (w : Nat) : (s.activate w).intact = true := by
  unfold State.activate
  split
  · rename_i e he
    split
    · exact h
    · exact intact_putStation h (intact_station h he).2
  · exact h

theorem setReads_of_intact (h : s.intact = true) (n : Nat) : Claims.SetReads s n :=
  fun _ _ _ he => (intact_station h he).1

theorem intact_loops (h : s.intact = true) : ∀ q ∈ s.loops, q.2.damaged = false := by
  simp only [State.intact, Bool.and_eq_true, List.all_eq_true] at h
  obtain ⟨⟨⟨⟨⟨⟨⟨-, -⟩, hloops⟩, -⟩, -⟩, -⟩, -⟩, -⟩ := h
  intro q hq
  simpa using (hloops q hq).2

/-! ### The recency order (R5) -/

theorem order_setOrder (k j : Nat) (l : List Nat) : (s.setOrder k l).order j = if j = k then l else s.order j := by
  unfold State.order State.setOrder
  dsimp only
  by_cases hl : l = [] <;> by_cases hj : j = k <;> simp [hl, hj, slotGet_slotErase, slotGet_slotSet]

theorem touched_touch (s : State) (w : Nat) : Claims.Touched s (s.touch w) w := by
  refine ⟨?_, fun k hk => ?_⟩
  · rw [State.touch, order_setOrder, if_pos rfl]
  · rw [State.touch, order_setOrder, if_neg hk]

/-- A touch is the same from any state with the same recency orders. -/
theorem touched_congr {w : Nat} (hs : s.recency = t.recency) (h : Claims.Touched s u w) : Claims.Touched t u w := by
  simpa only [Claims.Touched, State.order, hs] using h

/-! ### Changed marks outside STARTING (R26) -/

theorem putChanged_of_ready {w : Nat} {e : Station} (h : s.part = .ready) :
    s.putChanged w e = s.putStation w { e with changed := true } := by
  unfold State.putChanged State.noteMark
  rw [if_neg]
  simp [h]

theorem part_of_serves_ready {c : Instr} (h : s.serves c .ready = true) : s.part = .ready := by
  simp only [State.serves, Bool.and_eq_true] at h
  obtain ⟨-, h⟩ := h
  cases hp : s.part <;> simp_all [Access.taken]

/-! ### Who names a record, where no loop is damaged (R16, R22, R111) -/

theorem fieldNames_of_undamaged (h : ∀ q ∈ s.loops, q.2.damaged = false) (f : Occ → Option Nat) (i : Nat) :
    s.fieldNames f i = false := by
  unfold State.fieldNames
  split
  · split
    · split
      · rename_i hr
        exact h _ (mem_of_slotGet hr)
      · rfl
    · rfl
  · rfl

theorem isOpenEnd_iff (h : ∀ q ∈ s.loops, q.2.damaged = false) (p : LoopState → Bool) (i : Nat) :
    s.isOpenEnd p i = true ↔ ∃ l x, (l, x) ∈ s.loops ∧ p x.state = true ∧ x.openEnd = i := by
  simp only [State.isOpenEnd, fieldNames_of_undamaged h, Bool.and_false, Bool.or_false, List.any_eq_true, Prod.exists,
    Bool.and_eq_true, Bool.not_eq_true', decide_eq_true_eq]
  exact ⟨fun ⟨l, x, hm, ⟨_, hp⟩, he⟩ => ⟨l, x, hm, hp, he⟩, fun ⟨l, x, hm, hp, he⟩ => ⟨l, x, hm, ⟨h _ hm, hp⟩, he⟩⟩

theorem isClosing_iff (h : ∀ q ∈ s.loops, q.2.damaged = false) (p : LoopState → Bool) (i : Nat) :
    s.isClosing p i = true ↔ ∃ l x, (l, x) ∈ s.loops ∧ p x.state = true ∧ x.closing = some i := by
  simp only [State.isClosing, List.any_eq_true, Prod.exists, Bool.and_eq_true, Bool.not_eq_true', decide_eq_true_eq]
  exact ⟨fun ⟨l, x, hm, ⟨_, hp⟩, he⟩ => ⟨l, x, hm, hp, he⟩, fun ⟨l, x, hm, hp, he⟩ => ⟨l, x, hm, ⟨h _ hm, hp⟩, he⟩⟩

theorem isMember_iff (h : ∀ q ∈ s.loops, q.2.damaged = false) (p : LoopState → Bool) (i : Nat) :
    s.isMember p i = true ↔ ∃ l x, (l, x) ∈ s.loops ∧ p x.state = true ∧ i ∈ x.members := by
  simp only [State.isMember, fieldNames_of_undamaged h, Bool.and_false, Bool.or_false, List.any_eq_true, Prod.exists,
    Bool.and_eq_true, Bool.not_eq_true', List.contains_iff_mem]
  exact ⟨fun ⟨l, x, hm, ⟨_, hp⟩, he⟩ => ⟨l, x, hm, hp, he⟩, fun ⟨l, x, hm, hp, he⟩ => ⟨l, x, hm, ⟨h _ hm, hp⟩, he⟩⟩

theorem closeState_iff (x : LoopState) : closeState x = true ↔ x = .closing ∨ x = .closed := by
  cases x <;> simp [closeState]

theorem any_isEndpoint_iff (h : ∀ q ∈ s.loops, q.2.damaged = false) (e : Station) :
    e.list.any s.isEndpoint = true ↔ Claims.OwnsEndpoint s e := by
  simp only [List.any_eq_true, State.isEndpoint, Bool.or_eq_true, isOpenEnd_iff h, isClosing_iff h, closeState_iff,
    Claims.OwnsEndpoint]
  constructor
  · rintro ⟨i, hi, ⟨l, x, hm, hp, he⟩ | ⟨l, x, hm, hp, he⟩⟩
    · exact ⟨i, hi, l, x, hm, hp, .inl he⟩
    · exact ⟨i, hi, l, x, hm, hp, .inr he⟩
  · rintro ⟨i, hi, l, x, hm, hp, he | he⟩
    · exact ⟨i, hi, .inl ⟨l, x, hm, hp, he⟩⟩
    · exact ⟨i, hi, .inr ⟨l, x, hm, hp, he⟩⟩

/-! ### The fields of EDIT STATION (R15) -/

theorem roleOf_isSome_iff (c : Nat) : (roleOf c).isSome = true ↔ c < 2 := by
  rcases c with _ | _ | c <;> simp [roleOf]

theorem yesNo_isSome_iff (c : Nat) : (yesNo c).isSome = true ↔ c < 2 := by
  rcases c with _ | _ | c <;> simp [yesNo]

theorem optAll_iff {α : Type} (f : α → Bool) (o : Option α) : optAll f o = true ↔ ∀ v, o = some v → f v = true := by
  cases o <;> simp [optAll]

theorem validReference_iff (v : Nat) : validReference v = true ↔ 970000000 ≤ v ∧ v ≤ 990000000 := by
  simp [validReference]

theorem editInRange_iff (r : EditStationReq) : editInRange r = true ↔ Claims.EditFields r := by
  simp only [editInRange, Bool.and_eq_true, optAll_iff, roleOf_isSome_iff, yesNo_isSome_iff, decide_eq_true_eq,
    Claims.EditFields, and_assoc]
  refine and_congr_right fun _ => and_congr_right fun _ => and_congr_right fun _ => ?_
  rcases r.reference with _ | v | _ | c <;> simp [validReference_iff]

theorem roleOf_of_lt {c : Nat} (h : c < 2) : roleOf c = some (if c = 0 then .base else .field) := by
  obtain rfl | rfl : c = 0 ∨ c = 1 := by omega
  all_goals rfl

theorem yesNo_of_lt {c : Nat} (h : c < 2) : yesNo c = some (decide (c = 1)) := by
  obtain rfl | rfl : c = 0 ∨ c = 1 := by omega
  all_goals rfl

/-- The entry that EDIT STATION writes is the entry with each field that the command carries. -/
theorem edited_eq_editedEntry {r : EditStationReq} (h : Claims.EditFields r) (e : Station) :
    { edited r e with changed := true } = Claims.editedEntry r e := by
  obtain ⟨hrole, -, hpin, -, hnamed⟩ := h
  have hr : (edited r e).role = (Claims.editedEntry r e).role := by
    cases hc : r.role with
    | none => simp [edited, Claims.editedEntry, hc]
    | some c => simp [edited, Claims.editedEntry, hc, roleOf_of_lt (hrole c hc)]
  have hp : (edited r e).pinned = (Claims.editedEntry r e).pinned := by
    cases hc : r.pinned with
    | none => simp [edited, Claims.editedEntry, hc]
    | some c => simp [edited, Claims.editedEntry, hc, yesNo_of_lt (hpin c hc)]
  have hf : (edited r e).reference = (Claims.editedEntry r e).reference := by
    rcases hc : r.reference with _ | v | _ | c <;> simp [edited, Claims.editedEntry, editReference, hc]
  exact (Station.mk.injEq ..).mpr ⟨rfl, rfl, rfl, rfl, hr, hp, rfl, hf, rfl, rfl, rfl⟩

/-! ### EDIT STATION (R15 to R17) -/

theorem exec_editStation {r : EditStationReq} (h : s.serves (.editStation r) .ready = true) :
    exec (.editStation r) s = .next (editStationBody r s) := hostCommand_of_serves _ h

theorem editStationBody_of_invalid {r : EditStationReq} (h : validNumber r.number = false) :
    editStationBody r s = s.refuse .badKey := by
  simp [editStationBody, h]

theorem editStationBody_of_bad_field {r : EditStationReq} (h : validNumber r.number = true) (hf : ¬Claims.EditFields r) :
    editStationBody r s = s.refuse .badValue := by
  simp [editStationBody, h, Bool.eq_false_iff.2 (mt (editInRange_iff r).1 hf)]

theorem editStationBody_of_not_found {r : EditStationReq} {out : Lookup} (h : validNumber r.number = true)
    (hf : Claims.EditFields r) (hl : s.keyedLookup r.number = (u, out)) (hout : ∀ w, out ≠ .found w) :
    editStationBody r s = u.refuse out.status := by
  cases out <;> simp_all [editStationBody, (editInRange_iff r).2 hf]

/-- What an edit of a found entry comes to on intact memory. -/
theorem editStationBody_of_found {r : EditStationReq} {w : Nat} {e : Station} (h : validNumber r.number = true)
    (hf : Claims.EditFields r) (hl : s.keyedLookup r.number = (u, .found w)) (hu : u.intact = true)
    (he : u.station? w = some e) :
    editStationBody r s =
      let x := Claims.editedEntry r e
      if x.role = .field ∧ x.reference.isSome then u.refuse .notBase
      else if (x.role ≠ e.role ∨ x.reference ≠ e.reference) ∧ e.list.any u.isEndpoint then u.refuse .inUse
      else ((u.putChanged w x).touch w).respond .ok (stationBytes w x) := by
  have hread : (if (edited r e).role ≠ e.role ∨ (edited r e).reference ≠ e.reference then
      u.checkLoops.checkNaming e.list else u) = u := by
    rw [checkLoops_of_intact hu, checkNaming_of_intact hu, ite_self]
  simp only [editStationBody, h, (editInRange_iff r).2 hf, hl, he, hread, ← edited_eq_editedEntry hf] <;> rfl

theorem editStation_whole : Claims.EditStationWhole := by
  intro s r hs
  dsimp only
  rw [exec_editStation hs]
  refine ⟨fun h => by rw [editStationBody_of_invalid (validNumber_of_out h)],
    fun h1 h2 hf => by rw [editStationBody_of_bad_field (validNumber_of_range h1 h2) hf],
    fun h1 h2 hf => ⟨fun t out ho => ⟨?_, ?_, ?_⟩, fun u out w e ho hi hm he => ?_⟩⟩
  · rintro rfl
    rw [editStationBody_of_not_found (validNumber_of_range h1 h2) hf ho (by simp)]
    rfl
  · rintro rfl
    rw [editStationBody_of_not_found (validNumber_of_range h1 h2) hf ho (by simp)]
    rfl
  · rintro w rfl
    rw [editStationBody_of_not_found (validNumber_of_range h1 h2) hf ho (by simp)]
    rfl
  have hsound := (intact_station hi he).1
  have hl := keyedLookup_of_found hi hm he
  rw [ho] at hl
  obtain ⟨rfl, rfl⟩ := Prod.mk.inj hl
  have hst := station?_activate he hsound
  have hew : (s.activate w).station? w = some (Claims.looked e) := by rw [hst, if_pos rfl]
  have hloops : (s.activate w).loops = s.loops := by rw [(activate_stationsOnly (s := s) w).eq]
  have hend : e.list.any (s.activate w).isEndpoint = true ↔ Claims.OwnsEndpoint s e := by
    rw [any_isEndpoint_iff (by rw [hloops]; exact intact_loops hi), Claims.OwnsEndpoint, Claims.OwnsEndpoint, hloops]
  have hb := editStationBody_of_found (validNumber_of_range h1 h2) hf ho (intact_activate hi w) hew
  refine ⟨fun hfield href => ?_, fun hbase => ⟨fun hr hown => ?_, fun hfree => ?_⟩⟩
  · rw [hb]
    exact congrArg _ (if_pos ⟨hfield, href⟩)
  all_goals
    have hnb : ¬((Claims.editedEntry r (Claims.looked e)).role = .field ∧
        (Claims.editedEntry r (Claims.looked e)).reference.isSome = true) := by
      rintro ⟨h, h'⟩
      rcases hbase with hb | hb
      · rw [hb] at h
        cases h
      · rw [hb] at h'
        cases h'
  · rw [hb]
    refine congrArg _ ((if_neg hnb).trans (if_pos ⟨hr, hend.2 hown⟩))
  · rw [hb]
    refine ⟨_, congrArg _ ((if_neg hnb).trans (if_neg fun h => hfree ⟨h.1, hend.1 h.2⟩)), ?_⟩
    have hpart : (s.activate w).part = .ready := by
      rw [(activate_stationsOnly (s := s) w).eq]
      exact part_of_serves_ready hs
    rw [putChanged_of_ready hpart]
    obtain ⟨y, hy⟩ := activate_stationsOnly (s := s) w
    refine ⟨by rw [hy]; rfl, by rw [hy]; rfl, ?_, fun v hv => ?_, touched_congr (by rw [hy]; rfl) (touched_touch _ w)⟩
    · rw [station?_respond, station?_touch, station?_putStation, if_pos rfl]
      simp [Claims.editedEntry, Claims.looked, hsound]
    · rw [station?_respond, station?_touch, station?_putStation, if_neg hv, hst, if_neg hv]

theorem stationWf_of_stationsWf (h : s.stationsWf = true) {w : Nat} {e : Station} (he : s.station? w = some e) :
    stationWf w e = true := by
  simp only [State.stationsWf, Bool.and_eq_true, List.all_eq_true] at h
  obtain ⟨⟨⟨⟨-, hst⟩, -⟩, -⟩, -⟩ := h
  exact hst _ (mem_of_slotGet he)

theorem base_or_no_reference (h : s.stationsWf = true) {w : Nat} {e : Station} (he : s.station? w = some e) :
    e.role = .base ∨ e.reference = none := by
  have hw := stationWf_of_stationsWf h he
  simp only [stationWf, Bool.and_eq_true, Bool.not_eq_true', Bool.and_eq_false_iff, decide_eq_false_iff_not] at hw
  obtain ⟨⟨-, hw⟩, -⟩ := hw
  rcases hw with hw | hw
  · left
    cases hr : e.role <;> simp_all
  · right
    simpa using hw

theorem editStation_fields : Claims.EditStationFields := by
  intro s n w e site pinned tag r hs hi hwf h1 h2 hsite hpin hm he
  have hl := keyedLookup_of_found hi hm he
  have hf : Claims.EditFields r := ⟨by simp [r], hsite, hpin, by simp [r], by simp [r]⟩
  have hbase := base_or_no_reference hwf he
  obtain ⟨-, hok⟩ := (((editStation_whole s r hs).2.2 h1 h2 hf).2 _ _ w e hl hi hm he).2 hbase
  obtain ⟨t, ht, hframe, -, hw, hrest⟩ := hok (by rintro ⟨h | h, -⟩ <;> exact h rfl)
  refine ⟨t, ht, hframe, hw.trans ?_, hrest⟩
  cases pinned <;> rfl

theorem editStation_reference : Claims.EditReference := by
  intro s n w v e r hs hi h1 h2 hv1 hv2 hm he hbase hne
  have hl := keyedLookup_of_found hi hm he
  have hf : Claims.EditFields r := by simp [Claims.EditFields, r, hv1, hv2]
  obtain ⟨hin, hok⟩ :=
    (((editStation_whole s r hs).2.2 h1 h2 hf).2 _ _ w e hl hi hm he).2 (.inl hbase)
  refine ⟨fun hown u out ho => ?_, fun hfree => ?_⟩
  · rw [hl] at ho
    obtain ⟨rfl, rfl⟩ := Prod.mk.inj ho
    exact hin (.inr (Ne.symm hne)) hown
  · refine hok fun ⟨_, i, hmem, l, x, hx, hst, hend⟩ => ?_
    obtain ⟨ho, hc⟩ := hfree i hmem l x hx hst
    exact hend.elim ho hc

/-- Settles O32: the two particular edits are cases of the whole. -/
theorem editStation : Obligations.EditStation := ⟨editStation_fields, editStation_reference, editStation_whole⟩

end Sys2Proof.Machine
end

