-- ==== Sys2Proof/Proofs/Stations/Freeing.lean ====
section
/-! SUPPORT. What the freeing of occupations and of a whole way leaves (R23, R31), where the entries it reads agree with
their check values and no loop lists a freed record. -/

namespace Sys2Proof.Machine

open Sys2Proof

variable {s t u : State}

/-! ### A station list that loses indices (R3, R31) -/

/-- R31: an entry whose list loses the given indices, marked changed where it loses one. -/
def unlisted (is : List Nat) (f : Station) : Station :=
  { f with list := f.list.filter (· ∉ is), changed := f.changed || f.list.any (· ∈ is) }

theorem unlisted_eq_ite (is : List Nat) (f : Station) :
    unlisted is f =
      if ∃ i ∈ is, i ∈ f.list then { f with list := f.list.filter (· ∉ is), changed := true } else f := by
  by_cases h : ∃ i ∈ is, i ∈ f.list
  · have hany : f.list.any (· ∈ is) = true := by
      obtain ⟨i, hi, hf⟩ := h
      exact List.any_eq_true.2 ⟨i, hf, by simpa using hi⟩
    simp [unlisted, h, hany]
  · have hall : ∀ j ∈ f.list, j ∉ is := fun j hj hi => h ⟨j, hi, hj⟩
    have hany : f.list.any (· ∈ is) = false := by simpa using hall
    rw [unlisted, if_neg h, hany, List.filter_eq_self.2 (by simpa using hall), Bool.or_false]

theorem unlisted_unlisted (is js : List Nat) (f : Station) :
    unlisted is (unlisted js f) = unlisted (js ++ is) f := by
  have hlist : (f.list.filter (· ∉ js)).filter (· ∉ is) = f.list.filter (· ∉ js ++ is) := by
    rw [List.filter_filter]
    refine List.filter_congr fun j _ => ?_
    simp [and_comm]
  have hany : (f.list.any (· ∈ js) || (f.list.filter (· ∉ js)).any (· ∈ is)) = f.list.any (· ∈ js ++ is) := by
    rw [Bool.eq_iff_iff]
    simp only [Bool.or_eq_true, List.any_eq_true, List.mem_filter, decide_eq_true_eq, List.mem_append]
    constructor
    · rintro (⟨j, hj, h⟩ | ⟨j, ⟨hj, -⟩, h⟩)
      · exact ⟨j, hj, .inl h⟩
      · exact ⟨j, hj, .inr h⟩
    · rintro ⟨j, hj, h⟩
      by_cases hjs : j ∈ js
      · exact .inl ⟨j, hj, hjs⟩
      · exact .inr ⟨j, ⟨hj, hjs⟩, h.resolve_left hjs⟩
  simp only [unlisted, hlist, Bool.or_assoc, hany]

theorem unlisted_nil (f : Station) : unlisted [] f = f := by
  rw [unlisted_eq_ite]
  simp

theorem unlisted_idem (is : List Nat) (f : Station) : unlisted is (unlisted is f) = unlisted is f := by
  rw [unlisted_unlisted]
  simp [unlisted]

/-- The entries on the given ways agree with their check values. -/
def WaysRead (s : State) (ws : List Nat) : Prop := ∀ w ∈ ws, ∀ e, s.station? w = some e → e.sound = true

/-- `t` is `s` with another station table and, in STARTING alone, another scan report. -/
def StationsScan (s t : State) : Prop :=
  ∃ x y, t = { s with stations := x, scan := y } ∧ (s.part ≠ .starting → y = s.scan)

theorem StationsScan.refl (s : State) : StationsScan s s := ⟨_, _, rfl, fun _ => rfl⟩

theorem StationsScan.trans (h : StationsScan s t) (k : StationsScan t u) : StationsScan s u := by
  obtain ⟨x, y, rfl, hy⟩ := h
  obtain ⟨x', y', rfl, hy'⟩ := k
  exact ⟨x', y', rfl, fun hp => (hy' hp).trans (hy hp)⟩

theorem StationsScan.stationsOnly (h : StationsScan s t) (hp : s.part ≠ .starting) : StationsOnly s t := by
  obtain ⟨x, y, rfl, hy⟩ := h
  rw [hy hp]
  exact ⟨x, rfl⟩

theorem putChanged_stationsScan (w : Nat) (e : Station) : StationsScan s (s.putChanged w e) := by
  unfold State.putChanged State.noteMark
  split
  · rename_i hp
    exact ⟨_, _, rfl, fun h => absurd hp h⟩
  · exact ⟨_, _, rfl, fun _ => rfl⟩

theorem station?_putChanged (w v : Nat) (e : Station) :
    (s.putChanged w e).station? v = if v = w then some { e with changed := true, sound := true } else s.station? v := by
  unfold State.putChanged State.noteMark
  split <;> exact station?_putStation _ _ _

theorem unlist_of_none {i w : Nat} (he : s.station? w = none) : State.unlist i s w = s := by
  simp [State.unlist, State.checkStation, he]

theorem unlist_of_sound {i w : Nat} {e : Station} (he : s.station? w = some e) (hs : e.sound = true) :
    State.unlist i s w =
      if i ∈ e.list then s.putChanged w { e with list := e.list.filter (· ≠ i) } else s := by
  simp [State.unlist, State.checkStation, he, hs]

theorem unlist_stationsScan {i w : Nat} (hs : ∀ e, s.station? w = some e → e.sound = true) :
    StationsScan s (State.unlist i s w) := by
  cases he : s.station? w with
  | none => rw [unlist_of_none he]; exact .refl s
  | some e =>
    rw [unlist_of_sound he (hs e he)]
    split
    · exact putChanged_stationsScan w _
    · exact .refl s

theorem station?_unlist {i w : Nat} (hs : ∀ e, s.station? w = some e → e.sound = true) (v : Nat) :
    (State.unlist i s w).station? v = if v = w then (s.station? v).map (unlisted [i]) else s.station? v := by
  cases he : s.station? w with
  | none =>
    rw [unlist_of_none he]
    by_cases hv : v = w <;> simp [hv, he]
  | some e =>
    have hsound := hs e he
    rw [unlist_of_sound he hsound]
    by_cases hv : v = w <;> by_cases hi : i ∈ e.list <;> simp [hv, he, hi, unlisted_eq_ite, station?_putChanged, hsound]

theorem waysRead_of_unlisted {ws vs is : List Nat} (hs : WaysRead s ws)
    (ht : ∀ v, t.station? v = if v ∈ vs then (s.station? v).map (unlisted is) else s.station? v) : WaysRead t ws := by
  intro v hv e he
  rw [ht] at he
  split at he
  · obtain ⟨f, hf, rfl⟩ := Option.map_eq_some_iff.1 he
    exact hs v hv f hf
  · exact hs v hv e he

theorem foldl_unlist {i : Nat} (ws : List Nat) (hs : WaysRead s ws) :
    StationsScan s (ws.foldl (State.unlist i) s) ∧ ∀ v, (ws.foldl (State.unlist i) s).station? v =
      if v ∈ ws then (s.station? v).map (unlisted [i]) else s.station? v := by
  induction ws generalizing s with
  | nil => exact ⟨.refl s, fun v => rfl⟩
  | cons w ws ih =>
    have hw := hs w List.mem_cons_self
    have hst := station?_unlist (i := i) hw
    have hread : WaysRead (State.unlist i s w) ws :=
      waysRead_of_unlisted (vs := [w]) (fun v hv => hs v (List.mem_cons_of_mem _ hv)) (by simpa using hst)
    obtain ⟨hkeep, hrest⟩ := ih hread
    refine ⟨(unlist_stationsScan hw).trans hkeep, fun v => ?_⟩
    rw [List.foldl_cons, hrest, hst]
    by_cases hv : v = w <;> by_cases hm : v ∈ ws <;> cases s.station? v <;> simp [hv, hm, unlisted_idem]

/-! ### A member list that loses an index (R31) -/

/-- R31: a loop whose list loses an index. -/
def memberless (i : Nat) (r : Loop) : Loop := { r with members := r.members.filter (· ≠ i) }

theorem memberless_of_not_member {i : Nat} {r : Loop} (h : i ∉ r.members) : memberless i r = r := by
  have : r.members.filter (· ≠ i) = r.members := List.filter_eq_self.2 fun j hj => by
    simpa using fun hji : j = i => h (hji ▸ hj)
  rw [memberless, this]

theorem memberless_idem (i : Nat) (r : Loop) : memberless i (memberless i r) = memberless i r := by
  simp [memberless]

/-- Every loop agrees with its check value and carries no mark. -/
def LoopsRead (s : State) : Prop := ∀ l r, s.loop? l = some r → r.sound = true ∧ r.damaged = false

theorem unmember_of_not_member {i l : Nat} (h : ∀ r, s.loop? l = some r → i ∉ r.members) : State.unmember i s l = s := by
  unfold State.unmember
  split
  · rename_i r hr
    simp [h r hr]
  · rfl

theorem unmember_of_member {i l : Nat} {r : Loop} (hr : s.loop? l = some r) (hs : r.sound = true ∧ r.damaged = false)
    (hm : i ∈ r.members) : State.unmember i s l = s.putLoop l (memberless i r) := by
  have hc : s.checkLoop l = s := checkLoop_of_sound fun x hx => by simp_all
  simp [State.unmember, hr, hm, hc, hs, memberless]

/-- `t` is `s` with another loop table. -/
def LoopsOnly (s t : State) : Prop := ∃ z, t = { s with loops := z }

theorem unmember_spec {i l : Nat} (hl : LoopsRead s) : LoopsOnly s (State.unmember i s l) ∧ ∀ k,
    (State.unmember i s l).loop? k = if k = l then (s.loop? k).map (memberless i) else s.loop? k := by
  by_cases hm : ∃ r, s.loop? l = some r ∧ i ∈ r.members
  · obtain ⟨r, hr, hm⟩ := hm
    have hsound : (memberless i r).sound = true := (hl l r hr).1
    rw [unmember_of_member hr (hl l r hr) hm]
    refine ⟨⟨_, rfl⟩, fun k => ?_⟩
    by_cases hk : k = l
    · simp [hk, hr, ← hsound]
    · simp [hk]
  · rw [unmember_of_not_member fun r hr h => hm ⟨r, hr, h⟩]
    refine ⟨⟨_, rfl⟩, fun k => ?_⟩
    by_cases hk : k = l
    · subst hk
      cases hr : s.loop? k with
      | none => simp
      | some r => simp [memberless_of_not_member fun h => hm ⟨r, hr, h⟩]
    · simp [hk]

theorem loopsRead_of_memberless {ls : List Nat} {i : Nat} (hl : LoopsRead s)
    (ht : ∀ k, t.loop? k = if k ∈ ls then (s.loop? k).map (memberless i) else s.loop? k) : LoopsRead t := by
  intro k r hr
  rw [ht] at hr
  split at hr
  · obtain ⟨x, hx, rfl⟩ := Option.map_eq_some_iff.1 hr
    exact hl k x hx
  · exact hl k r hr

theorem foldl_unmember {i : Nat} (ls : List Nat) (hl : LoopsRead s) : LoopsOnly s (ls.foldl (State.unmember i) s) ∧
    ∀ k, (ls.foldl (State.unmember i) s).loop? k = if k ∈ ls then (s.loop? k).map (memberless i) else s.loop? k := by
  induction ls generalizing s with
  | nil => exact ⟨⟨_, rfl⟩, fun k => rfl⟩
  | cons l ls ih =>
    obtain ⟨⟨z, hz⟩, hst⟩ := unmember_spec (i := i) (l := l) hl
    obtain ⟨⟨z', hz'⟩, hrest⟩ := ih (loopsRead_of_memberless (ls := [l]) hl (by simpa using hst))
    refine ⟨⟨z', by rw [List.foldl_cons, hz', hz]⟩, fun k => ?_⟩
    rw [List.foldl_cons, hrest, hst]
    by_cases hk : k = l <;> by_cases hm : k ∈ ls <;> cases s.loop? k <;> simp [hk, hm, memberless_idem]

/-! ### A record that is freed (R31) -/

/-- `t` is `s` with other station, loop and record tables and, in STARTING alone, another scan report. -/
def ListsOnly (s t : State) : Prop :=
  ∃ x y z a, t = { s with stations := x, scan := y, loops := z, occs := a } ∧ (s.part ≠ .starting → y = s.scan)

/-- What a freed record leaves: the entries of the given ways and the member lists without it. -/
theorem freeOcc_spec {ws : List Nat} (i : Nat) (hs : WaysRead s ws) (hl : LoopsRead s) :
    ListsOnly s (s.freeOcc ws i) ∧
      (∀ v, (s.freeOcc ws i).station? v = if v ∈ ws then (s.station? v).map (unlisted [i]) else s.station? v) ∧
      ∀ k, (s.freeOcc ws i).loop? k = (s.loop? k).map (memberless i) := by
  obtain ⟨⟨x, y, hxy, hscan⟩, hst⟩ := foldl_unlist (i := i) ws hs
  have hl' : LoopsRead (ws.foldl (State.unlist i) s) := by
    rw [hxy]
    exact hl
  obtain ⟨⟨z, hz⟩, hloop⟩ := foldl_unmember (i := i) (slotKeys (ws.foldl (State.unlist i) s).loops) hl'
  refine ⟨⟨x, y, z, slotErase s.occs i, by rw [State.freeOcc, hz, hxy], hscan⟩, fun v => ?_, fun k => ?_⟩
  · rw [← hst, State.freeOcc, hz]
    rfl
  · have hk := hloop k
    have hsame : (ws.foldl (State.unlist i) s).loop? k = s.loop? k := by rw [hxy]; rfl
    rw [State.freeOcc]
    refine hk.trans ?_
    rw [hsame]
    split
    · rfl
    · rename_i hkey
      rw [← hsame, State.loop?, slotGet_eq_none hkey]
      rfl

/-- `t` is `s` with another station table and another pool. -/
def StationsOccsOnly (s t : State) : Prop := ∃ x y, t = { s with stations := x, occs := y }

theorem freeOcc_of_no_member {i : Nat} {ws : List Nat} (hp : s.part = .ready) (hs : WaysRead s ws)
    (hm : ∀ q ∈ s.loops, i ∉ q.2.members) :
    StationsOccsOnly s (s.freeOcc ws i) ∧ ∀ v, (s.freeOcc ws i).station? v =
      if v ∈ ws then (s.station? v).map (unlisted [i]) else s.station? v := by
  obtain ⟨hframe, hst⟩ := foldl_unlist (i := i) ws hs
  obtain ⟨x, hx⟩ := hframe.stationsOnly (by rw [hp]; decide)
  have hun : (slotKeys (ws.foldl (State.unlist i) s).loops).foldl (State.unmember i) (ws.foldl (State.unlist i) s) =
      ws.foldl (State.unlist i) s := by
    refine foldl_of_fixed_mem fun l _ => unmember_of_not_member fun r hr => ?_
    rw [hx] at hr
    exact hm _ (mem_of_slotGet hr)
  refine ⟨⟨x, slotErase s.occs i, ?_⟩, fun v => ?_⟩
  · rw [State.freeOcc, hun, hx]
  · rw [State.freeOcc, hun]
    exact hst v

/-- What several freed records leave: their lists' entries without them, and their places FREE. -/
theorem foldl_freeOcc {ws : List Nat} (is : List Nat) (hp : s.part = .ready) (hs : WaysRead s ws)
    (hm : ∀ i ∈ is, ∀ q ∈ s.loops, i ∉ q.2.members) :
    StationsOccsOnly s (is.foldl (fun s i => s.freeOcc ws i) s) ∧
      (∀ v, (is.foldl (fun s i => s.freeOcc ws i) s).station? v =
        if v ∈ ws then (s.station? v).map (unlisted is) else s.station? v) ∧
      ∀ j, (is.foldl (fun s i => s.freeOcc ws i) s).occ? j = if j ∈ is then none else s.occ? j := by
  induction is generalizing s with
  | nil =>
    refine ⟨⟨_, _, rfl⟩, fun v => ?_, fun j => rfl⟩
    cases h : s.station? v <;> simp [h, unlisted_nil]
  | cons i is ih =>
    obtain ⟨⟨x, y, hxy⟩, hst⟩ := freeOcc_of_no_member hp hs (hm i List.mem_cons_self)
    obtain ⟨⟨x', y', hxy'⟩, hst', hocc'⟩ := ih (s := s.freeOcc ws i) (by rw [hxy]; exact hp)
      (waysRead_of_unlisted hs hst) (by rw [hxy]; exact fun j hj => hm j (List.mem_cons_of_mem _ hj))
    refine ⟨⟨x', y', ?_⟩, fun v => ?_, fun j => ?_⟩
    · rw [List.foldl_cons, hxy', hxy]
    · rw [List.foldl_cons, hst', hst]
      by_cases hv : v ∈ ws <;> cases s.station? v <;> simp [hv, unlisted_unlisted]
    · rw [List.foldl_cons, hocc', occ?_freeOcc]
      by_cases hj : j = i <;> by_cases hji : j ∈ is <;> simp [hj, hji]

/-! ### A way that is freed (R23) -/

theorem order_leaveOrder (w k : Nat) :
    (s.leaveOrder w).order k = if k = w / 4 then (s.order (w / 4)).filter (· ≠ w) else s.order k :=
  order_setOrder _ _ _

/-- R23: `t` is `s` with a way FREE and out of its order, and with the given records FREE and off the lists of the
other ways of the set. -/
structure WayFreed (s t : State) (w : Nat) (is : List Nat) : Prop where
  frame : ∃ x y z, t = { s with stations := x, recency := y, occs := z }
  free : t.station? w = none
  others : Claims.OthersUnlist s t w is
  occs : ∀ i, t.occ? i = if i ∈ is then none else s.occ? i
  order : t.order (w / 4) = (s.order (w / 4)).filter (· ≠ w)
  orders : ∀ k, k ≠ w / 4 → t.order k = s.order k

theorem freeWay_wayFreed {w : Nat} {e : Station} (hp : s.part = .ready)
    (hs : ∀ v f, v ≠ w → s.station? v = some f → f.sound = true)
    (hm : ∀ i ∈ (s.occsOfWay w e).filter (fun i => (s.occ? i).isSome), ∀ q ∈ s.loops, i ∉ q.2.members) :
    WayFreed s (s.freeWay w e).1 w ((s.occsOfWay w e).filter fun i => (s.occ? i).isSome) := by
  have hread : WaysRead (s.freeEntry w) (waysOfSet (w / 4)) := by
    intro v _ f hf
    rw [station?_freeEntry] at hf
    split at hf
    · cases hf
    · rename_i hv
      exact hs v f hv hf
  obtain ⟨⟨x, y, hxy⟩, hst, hocc⟩ := foldl_freeOcc (s := s.freeEntry w) _ hp hread hm
  have hfw : (s.freeWay w e).1 =
    ((s.occsOfWay w e).filter fun i => (s.occ? i).isSome).foldl (fun s i => s.freeOcc (waysOfSet (w / 4)) i)
      (s.freeEntry w) := rfl
  rw [← hfw] at hxy hst hocc
  have horder : ∀ k, (s.freeWay w e).1.order k = (s.leaveOrder w).order k := fun k => by rw [hxy]; rfl
  refine ⟨⟨x, _, y, by rw [hxy]; rfl⟩, ?_, fun v hv => ?_, hocc, ?_, fun k hk => ?_⟩
  · rw [hst, station?_freeEntry, if_pos rfl]
    split <;> rfl
  · rw [hst, station?_freeEntry, if_neg hv]
    by_cases hset : v / 4 = w / 4
    · rw [if_pos (mem_waysOfSet.2 hset)]
      simp only [hset, true_and]
      exact Option.map_congr fun f _ => unlisted_eq_ite _ f
    · rw [if_neg (mt mem_waysOfSet.1 hset)]
      simp [hset]
  · rw [horder, order_leaveOrder, if_pos rfl]
  · rw [horder, order_leaveOrder, if_neg hk]

/-- A record that is not in the pool is FREE whether the list of freed records names it or not. -/
theorem occ?_filter_isSome (is : List Nat) (i : Nat) :
    (if i ∈ is.filter (fun i => (s.occ? i).isSome) then none else s.occ? i) = if i ∈ is then none else s.occ? i := by
  cases h : s.occ? i <;> simp [h]

end Sys2Proof.Machine
end

