-- ==== Sys2Proof/Proofs/Stations/OpenRetire.lean ====
section
/-! SUPPORT. OPEN STATION (R10 to R14) and the retirements (R21 to R24). -/

namespace Sys2Proof.Machine

open Sys2Proof

variable {s t u : State}

/-! ### FREE ways and victims (R11, R12) -/

/-- The first of a rising list that satisfies a test is the least that does. -/
theorem find?_eq_some_of_rising {p : Nat → Bool} {l : List Nat} {w : Nat} (hl : l.Pairwise (· < ·)) (hw : w ∈ l)
    (hp : p w = true) (hmin : ∀ v ∈ l, v < w → p v = false) : l.find? p = some w := by
  induction l with
  | nil => exact absurd hw List.not_mem_nil
  | cons v l ih =>
    obtain ⟨hv, hl⟩ := List.pairwise_cons.1 hl
    rcases List.mem_cons.1 hw with rfl | hw
    · simp [hp]
    · rw [List.find?_cons_of_neg (by simp [hmin v List.mem_cons_self (hv w hw)])]
      exact ih hl hw fun x hx => hmin x (List.mem_cons_of_mem _ hx)

theorem waysOfSet_rising (k : Nat) : (waysOfSet k).Pairwise (· < ·) := by
  simp [waysOfSet]

theorem lowestFree_eq_some {k w : Nat} (hk : k = w / 4) (hw : s.station? w = none)
    (hmin : ∀ v, v / 4 = k → v < w → (s.station? v).isSome = true) : lowestFree s.stations (waysOfSet k) = some w := by
  refine find?_eq_some_of_rising (waysOfSet_rising k) (mem_waysOfSet.2 hk.symm) ?_ fun v hv hlt => ?_
  · rw [← State.station?, hw]
    rfl
  · have := hmin v (mem_waysOfSet.1 hv) hlt
    rw [← State.station?, Option.isNone_eq_false_iff]
    exact this

theorem lowestFree_eq_none {k : Nat} (h : ∀ v, v / 4 = k → (s.station? v).isSome = true) :
    lowestFree s.stations (waysOfSet k) = none := by
  refine List.find?_eq_none.2 fun v hv => ?_
  have := h v (mem_waysOfSet.1 hv)
  rw [← State.station?, Bool.not_eq_true, Option.isNone_eq_false_iff]
  exact this

theorem occSettled_iff (h : s.intact = true) (i : Nat) :
    s.occSettled i = true ↔ ∀ o, s.occ? i = some o → (o.state = .reduced ∨ o.state = .final) ∧
      ∀ l x, (l, x) ∈ s.loops → i ∉ x.members ∧ x.openEnd ≠ i := by
  unfold State.occSettled
  cases ho : s.occ? i with
  | none => simp
  | some o =>
    have hd := (intact_occ h ho).2
    simp only [hd, Bool.and_eq_true, Bool.or_eq_true, decide_eq_true_eq, Bool.not_eq_true', Option.some.injEq,
      forall_eq', Bool.not_false, and_true, Bool.eq_false_iff, ne_eq, isMember_iff (intact_loops h),
      isOpenEnd_iff (intact_loops h), anyState, true_and, not_exists, not_and]
    constructor
    · rintro ⟨⟨hst, hm⟩, he⟩
      exact ⟨hst, fun l x hx => ⟨hm l x hx, he l x hx⟩⟩
    · rintro ⟨hst, h⟩
      exact ⟨⟨hst, fun l x hx => (h l x hx).1⟩, fun l x hx => (h l x hx).2⟩

theorem isVictim_iff (h : s.intact = true) (w : Nat) : s.isVictim w = true ↔ ∃ e, Claims.Victim s w e := by
  unfold State.isVictim Claims.Victim
  cases he : s.station? w with
  | none => simp
  | some e =>
    have hd := (intact_station h he).2
    simp only [candidate, hd, Bool.and_eq_true, Bool.not_eq_true', decide_eq_true_eq, List.all_eq_true,
      occSettled_iff h, Option.some.injEq, exists_eq_left', Bool.not_false, and_true, and_assoc]

theorem readCandidate_of_intact (h : s.intact = true) (w : Nat) : s.readCandidate w = s := by
  unfold State.readCandidate
  split
  · split
    · rw [checkOccs_of_intact h, checkLoops_of_intact h]
    · rfl
  · rfl

/-- R4, R5: a way in the recency order of a set is of that set. -/
theorem set_of_mem_order (h : s.stationsWf = true) {k w : Nat} (hw : w ∈ s.order k) : w / 4 = k := by
  simp only [State.stationsWf, Bool.and_eq_true, List.all_eq_true] at h
  obtain ⟨⟨⟨-, -⟩, hrec⟩, -⟩ := h
  unfold State.order at hw
  cases hk : slotGet s.recency k with
  | none => simp [hk] at hw
  | some l =>
    have hl := (hrec _ (mem_of_slotGet hk)).2 w (by simpa [hk] using hw)
    exact of_decide_eq_true hl.1

/-! ### OPEN STATION (R10 to R14) -/

theorem exec_openStation {r : OpenStationReq} (h : s.serves (.openStation r) .ready = true) :
    exec (.openStation r) s = .next (openStationBody r s) := hostCommand_of_serves _ h

/-- What OPEN STATION comes to by the outcome of its lookup. -/
def openOutcome (r : OpenStationReq) (u : State) : Lookup → State
  | .noStation => u.placeEntry (Claims.opened r)
  | .found _ => u.refuse .stationExists
  | out => u.refuse out.status

/-- An OPEN STATION whose fields pass goes on to its lookup. -/
theorem openStationBody_of_fields {r : OpenStationReq} {out : Lookup} (hf : Claims.OpenFields r)
    (hl : s.keyedLookup r.number = (u, out)) :
    openStationBody r s = openOutcome r u out := by
  obtain ⟨h1, h2, hrole, hsite, hpin, href⟩ := hf
  have hr : optAll validReference r.reference = true :=
    (optAll_iff _ _).2 fun v hv => (validReference_iff v).2 (href v hv).2
  have hbase : ¬((if r.role = 0 then Role.base else Role.field) = .field ∧ r.reference.isSome = true) := by
    rintro ⟨h, h'⟩
    obtain ⟨v, hv⟩ := Option.isSome_iff_exists.1 h'
    simp [(href v hv).1] at h
  have hb : openStationBody r s = match s.keyedLookup r.number with
      | (s, .noStation) => s.placeEntry (newEntry r (if r.role = 0 then .base else .field) (decide (r.pinned = 1)))
      | (s, .found _) => s.refuse .stationExists
      | (s, out) => s.refuse out.status := by
    simp only [openStationBody, validNumber_of_range h1 h2, roleOf_of_lt hrole, yesNo_of_lt hpin, hsite, hr, hbase] <;> rfl
  rw [hb, hl]
  cases out <;> rfl

theorem station?_install {w : Nat} {e : Station} {old : Option Nat} (hs : e.sound = true) (v : Nat) :
    (s.install w e old).station? v = if v = w then some e else s.station? v := by
  rw [State.install, station?_respond, station?_touch, station?_putStation, ← hs]

theorem openStation_accepted : Claims.OpenStationAccepted := by
  intro s r w hs hi hf hm hset hw hmin
  rw [exec_openStation hs, openStationBody_of_fields hf (keyedLookup_of_absent hi hm)]
  have hplace : s.placeEntry (Claims.opened r) = s.install w (Claims.opened r) none := by
    have hfree := lowestFree_eq_some (k := r.number % 64) hset hw (fun v hv => hmin v (hv.trans hset))
    have hn : (Claims.opened r).number % 64 = r.number % 64 := rfl
    simp only [State.placeEntry, hn, hfree]
  refine ⟨_, congrArg _ hplace, rfl, rfl, ?_, fun v hv => ?_, touched_congr rfl (touched_touch (s.putStation w _) w)⟩
  · rw [station?_install rfl, if_pos rfl]
  · rw [station?_install rfl, if_neg hv]

theorem placeEntry_of_full (hi : s.intact = true) {e : Station}
    (hfull : ∀ v, v / 4 = e.number % 64 → (s.station? v).isSome = true) :
    s.placeEntry e = match s.victim (e.number % 64) with
      | some v => match s.station? v with
        | some old => (s.freeWay v old).1.install v e (some old.number)
        | none => s.refuse .setFull
      | none => s.refuse .setFull := by
  have hread : (waysOfSet (e.number % 64)).foldl State.readCandidate s = s := foldl_of_fixed (readCandidate_of_intact hi) _
  simp only [State.placeEntry, lowestFree_eq_none hfull, hread] <;> rfl

theorem openStation_full : Claims.OpenStationFull := by
  intro s r hs hi hwf hf hm hfull
  rw [exec_openStation hs, openStationBody_of_fields hf (keyedLookup_of_absent hi hm)]
  have hplace := placeEntry_of_full hi (e := Claims.opened r) hfull
  have hn : (Claims.opened r).number = r.number := rfl
  rw [hn] at hplace
  refine ⟨fun hnone => ?_, fun w e pre post horder hvic hpost => ?_⟩
  · have hv : s.victim (r.number % 64) = none := by
      refine List.find?_eq_none.2 fun v hv hvic => ?_
      obtain ⟨f, hf⟩ := (isVictim_iff hi v).1 hvic
      exact hnone v f (set_of_mem_order hwf (List.mem_reverse.1 hv)) hf
    show Host.Outcome.next (s.placeEntry (Claims.opened r)) = _
    rw [hplace, hv]
  · have hv : s.victim (r.number % 64) = some w := by
      unfold State.victim
      rw [horder, List.find?_eq_some_iff_append]
      refine ⟨(isVictim_iff hi w).2 ⟨e, hvic⟩, post.reverse, pre.reverse, by simp, fun v hv => ?_⟩
      rw [Bool.not_eq_true', Bool.eq_false_iff, ne_eq, isVictim_iff hi]
      exact fun ⟨f, hf⟩ => hpost v (List.mem_reverse.1 hv) f hf
    obtain ⟨he, -, -, -, hocc⟩ := hvic
    have hlist : s.occsOfWay w e = e.list := by simp [State.occsOfWay, (intact_station hi he).2]
    have hfreed := freeWay_wayFreed (w := w) (e := e) (part_of_serves_ready hs)
      (fun v f _ hf => (intact_station hi hf).1) (by
        rw [hlist]
        intro i hmem q hq
        obtain ⟨hin, hsome⟩ := List.mem_filter.1 hmem
        obtain ⟨o, ho⟩ := Option.isSome_iff_exists.1 hsome
        exact ((hocc i hin o ho).2 q.1 q.2 hq).1)
    rw [hlist] at hfreed
    obtain ⟨⟨x, y, z, hframe⟩, -, hothers, hoccs, horder', horders⟩ := hfreed
    refine ⟨(s.freeWay w e).1.install w (Claims.opened r) (some e.number), ?_, by rw [hframe]; rfl, ?_, ?_, fun i => ?_,
      fun v hv => ?_, ?_⟩
    · show Host.Outcome.next (s.placeEntry (Claims.opened r)) = _
      rw [hplace, hv]
      simp only [he]
    · rw [hframe]
      simp only [State.install, State.respond_link, optBytes, List.append_assoc]
      rfl
    · rw [station?_install rfl, if_pos rfl]
    · exact (hoccs i).trans (occ?_filter_isSome e.list i)
    · rw [station?_install rfl, if_neg hv]
      exact hothers v hv
    · obtain ⟨htop, hrest⟩ := touched_touch ((s.freeWay w e).1.putStation w (Claims.opened r)) w
      refine ⟨htop.trans ?_, fun k hk => (hrest k hk).trans (horders k hk)⟩
      have : ((s.freeWay w e).1.putStation w (Claims.opened r)).order (w / 4) = (s.order (w / 4)).filter (· ≠ w) := horder'
      rw [this, List.filter_filter]
      simp only [Bool.and_self]

theorem openStation_refusals : Claims.OpenStationRefusals := by
  intro s r hs
  rw [exec_openStation hs]
  refine ⟨fun h => ?_, fun h1 h2 => ⟨fun h => congrArg _ ?_, fun v hrole hsite hpin hv hv1 hv2 => congrArg _ ?_⟩,
    fun hf t out ho => ⟨?_, ?_, ?_⟩⟩
  · simp [openStationBody, validNumber_of_out h]
  · simp only [openStationBody, validNumber_of_range h1 h2]
    split
    · contradiction
    · split
      · rename_i hr hp
        have hr2 := (roleOf_isSome_iff r.role).1 (by rw [hr]; rfl)
        have hp2 := (yesNo_isSome_iff r.pinned).1 (by rw [hp]; rfl)
        rcases h with h | h | h | ⟨v, hv, h⟩
        · omega
        · rw [if_pos (by simp [h])]
        · omega
        · have : validReference v = false := by
            rw [Bool.eq_false_iff, ne_eq, validReference_iff]
            omega
          rw [if_pos (by simp [hv, optAll, this])]
      · rfl
  · have href : validReference v = true := (validReference_iff v).2 ⟨hv1, hv2⟩
    simp [openStationBody, validNumber_of_range h1 h2, yesNo_of_lt hpin, hrole, roleOf, hsite, hv, optAll, href]
  · rintro w rfl
    rw [openStationBody_of_fields hf ho]
    rfl
  · rintro rfl
    rw [openStationBody_of_fields hf ho]
    rfl
  · rintro w rfl
    rw [openStationBody_of_fields hf ho]
    rfl

/-- Settles O31: OPEN STATION in a FREE way, in a full set, and its refusals. -/
theorem openStation : Obligations.OpenStation := ⟨openStation_accepted, openStation_full, openStation_refusals⟩

end Sys2Proof.Machine
end

