-- ==== Sys2Proof/Proofs/Stations/Retire.lean ====
section
/-! SUPPORT. The retirements (R21 to R24), of a sound entry and of a damaged one. -/

namespace Sys2Proof.Machine

open Sys2Proof

variable {s t u : State}

/-! ### Occupations in use (R22) -/

theorem isWindow_iff (i : Nat) : s.isWindow i = true ↔ ∃ w, s.window = some w ∧ w.occ = i := by
  unfold State.isWindow
  cases s.window <;> simp

theorem occInUse_iff (h : ∀ q ∈ s.loops, q.2.damaged = false) (i : Nat) :
    s.occInUse i = true ↔ Claims.InUse s i := by
  simp only [State.occInUse, Bool.or_eq_true, isWindow_iff, isMember_iff h, isOpenEnd_iff h, anyState, true_and,
    Claims.InUse, or_assoc]
  refine or_congr_right ⟨?_, ?_⟩
  · rintro (⟨l, x, hx, hm⟩ | ⟨l, x, hx, he⟩)
    · exact ⟨l, x, hx, .inl hm⟩
    · exact ⟨l, x, hx, .inr he⟩
  · rintro ⟨l, x, hx, hm | he⟩
    · exact .inl ⟨l, x, hx, hm⟩
    · exact .inr ⟨l, x, hx, he⟩

theorem wayInUse_iff (h : ∀ q ∈ s.loops, q.2.damaged = false) (w : Nat) (e : Station) :
    s.wayInUse w e = true ↔ ∃ i ∈ s.occsOfWay w e, Claims.InUse s i := by
  simp only [State.wayInUse, List.any_eq_true, occInUse_iff h]

theorem not_member_of_not_inUse {i : Nat} (h : ¬Claims.InUse s i) : ∀ q ∈ s.loops, i ∉ q.2.members :=
  fun q hq hm => h (.inr ⟨q.1, q.2, hq, .inl hm⟩)

theorem inUse_congr {i : Nat} (hw : t.window = s.window) (hl : t.loops = s.loops) :
    Claims.InUse t i ↔ Claims.InUse s i := by
  rw [Claims.InUse, Claims.InUse, hw, hl]

/-! ### The retirement of a way -/

theorem retire_of_read {w : Nat} {e : Station} {answer : Station → Nat → List Byte} (he : s.station? w = some e)
    (hread : s.checkLoops.readWay w e = s) :
    s.retire w answer = if s.wayInUse w e then s.refuse .inUse
      else (s.freeWay w e).1.respond .ok (answer e (s.freeWay w e).2) := by
  simp only [State.retire, he, hread]

theorem retire_of_inUse {w : Nat} {e : Station} {answer : Station → Nat → List Byte} (he : s.station? w = some e)
    (hread : s.checkLoops.readWay w e = s) (hl : ∀ q ∈ s.loops, q.2.damaged = false)
    (hu : ∃ i ∈ s.occsOfWay w e, Claims.InUse s i) : s.retire w answer = s.refuse .inUse := by
  rw [retire_of_read he hread, if_pos ((wayInUse_iff hl w e).2 hu)]

theorem retire_of_not_inUse {w : Nat} {e : Station} {answer : Station → Nat → List Byte} (he : s.station? w = some e)
    (hread : s.checkLoops.readWay w e = s) (hl : ∀ q ∈ s.loops, q.2.damaged = false)
    (hu : ∀ i ∈ s.occsOfWay w e, ¬Claims.InUse s i) :
    s.retire w answer = (s.freeWay w e).1.respond .ok (answer e (s.freeWay w e).2) := by
  rw [retire_of_read he hread, if_neg]
  rw [wayInUse_iff hl]
  exact fun ⟨i, hi, h⟩ => hu i hi h

theorem freeWay_count (w : Nat) (e : Station) :
    (s.freeWay w e).2 = ((s.occsOfWay w e).filter fun i => (s.occ? i).isSome).length := rfl

/-! ### The two commands (R21, R23) -/

theorem exec_retireStation {n : Nat} (h : s.serves (.retireStation n) .ready = true) :
    exec (.retireStation n) s = .next (retireStationBody n s) := hostCommand_of_serves _ h

theorem exec_retireSlot {set way : Nat} (h : s.serves (.retireSlot set way) .ready = true) :
    exec (.retireSlot set way) s = .next (retireSlotBody set way s) := hostCommand_of_serves _ h

/-- The answer of RETIRE STATION or RETIRE SLOT to the retirement of a way with its number and a count of records. -/
def retired (c : Instr) (w n k : Nat) : List Byte :=
  if c = .retireStation n then u8 (w / 4) ++ u8 (w % 4) ++ u16 k else u16 n ++ u16 k

theorem retireStationBody_of_lookup {n w : Nat} {out : Lookup} (hn : validNumber n = true)
    (hl : s.keyedLookup n = (u, out)) (hout : out = .found w ∨ out = .damaged w) :
    retireStationBody n s = u.retire w fun _ k => u8 (w / 4) ++ u8 (w % 4) ++ u16 k := by
  rcases hout with rfl | rfl <;> simp [retireStationBody, hn, hl]

theorem retireSlotBody_of_range {w : Nat} (h : w / 4 < 64) :
    retireSlotBody (w / 4) (w % 4) s = (s.checkStation w).retire w fun e k => u16 e.number ++ u16 k := by
  have hw : w / 4 * 4 + w % 4 = w := by omega
  have hway : w % 4 < 4 := by omega
  simp [retireSlotBody, h, hway, hw]

theorem number_of_stationsWf (h : s.stationsWf = true) {w : Nat} {e : Station} (he : s.station? w = some e) :
    validNumber e.number = true := by
  have hw := stationWf_of_stationsWf h he
  simp only [stationWf, Bool.and_eq_true] at hw
  obtain ⟨⟨⟨⟨⟨hn, -⟩, -⟩, -⟩, -⟩, -⟩ := hw
  exact hn

theorem set_of_stationsWf (h : s.stationsWf = true) {w : Nat} {e : Station} (he : s.station? w = some e) :
    w / 4 < 64 := by
  simp only [State.stationsWf, Bool.and_eq_true] at h
  obtain ⟨⟨⟨⟨hst, -⟩, -⟩, -⟩, -⟩ := h
  have := ((slotWf_iff _ _).1 hst).2 w (mem_slotKeys_of_slotGet he)
  simp only [Config.ways] at this
  omega

theorem retireStation_ne_retireSlot {n set way : Nat} : Instr.retireSlot set way ≠ .retireStation n := by simp

/-! ### A sound entry (R21 to R23) -/

/-- A retirement of a sound way: the state that it starts from, as the lookup or the read leaves it. -/
theorem exec_retire_of_intact (hi : s.intact = true) (hwf : s.stationsWf = true) {w : Nat} {e : Station}
    (he : s.station? w = some e) {c : Instr}
    (hc : c = .retireStation e.number ∧ s.matching e.number = [w] ∨ c = .retireSlot (w / 4) (w % 4))
    (hs : s.serves c .ready = true) :
    ∃ u x, StationsOnly s u ∧ u.intact = true ∧ u.station? w = some x ∧ x.list = e.list ∧ x.number = e.number ∧
      (∀ v, v ≠ w → u.station? v = s.station? v) ∧
      exec c s = .next (u.retire w fun x k => retired c w x.number k) := by
  rcases hc with ⟨rfl, hm⟩ | rfl
  · have hst := station?_activate he (intact_station hi he).1
    have hw : (s.activate w).station? w = some (Claims.looked e) := by rw [hst, if_pos rfl]
    refine ⟨s.activate w, _, activate_stationsOnly w, intact_activate hi w, hw, rfl, rfl,
      fun v hv => by rw [hst, if_neg hv], ?_⟩
    rw [exec_retireStation hs,
      retireStationBody_of_lookup (number_of_stationsWf hwf he) (keyedLookup_of_found hi hm he) (.inl rfl)]
    have hn : (Claims.looked e).number = e.number := rfl
    simp only [State.retire, hw, retired, hn, if_true]
  · refine ⟨s, e, .refl s, hi, he, rfl, rfl, fun _ _ => rfl, ?_⟩
    rw [exec_retireSlot hs, retireSlotBody_of_range (set_of_stationsWf hwf he), checkStation_of_intact hi]
    simp only [retired, if_neg retireStation_ne_retireSlot]

theorem readWay_of_intact (h : s.intact = true) {w : Nat} {e : Station} (he : s.station? w = some e) :
    s.checkLoops.readWay w e = s := by
  rw [checkLoops_of_intact h, State.readWay, if_neg (by simp [(intact_station h he).2]), checkNaming_of_intact h]

theorem occsOfWay_of_undamaged {w : Nat} {e : Station} (h : e.damaged = false) : s.occsOfWay w e = e.list := by
  simp [State.occsOfWay, h]

theorem retire_sound : Claims.RetireSound := by
  intro s w e hi hwf he
  refine ⟨fun hfree c hc hs => ?_, fun hused => ⟨fun hm hs u out ho => ?_, fun hs => ?_⟩⟩
  · obtain ⟨u, x, ⟨y, rfl⟩, hu, hx, hlist, hnum, hsame, hexec⟩ := exec_retire_of_intact hi hwf he hc hs
    have hway := occsOfWay_of_undamaged (s := { s with stations := y }) (w := w) (intact_station hu hx).2
    rw [hlist] at hway
    have hnot : ∀ i ∈ e.list, ¬Claims.InUse { s with stations := y } i := fun i h =>
      mt (inUse_congr rfl rfl).1 (hfree i h)
    obtain ⟨⟨a, b, d, hframe⟩, hfw, hothers, hoccs, horder, horders⟩ :=
      freeWay_wayFreed (s := { s with stations := y }) (w := w) (e := x) (part_of_serves_ready hs)
        (fun v f _ hf => (intact_station hu hf).1) (by
          rw [hway]
          exact fun i h => not_member_of_not_inUse (hnot i (List.mem_of_mem_filter h)))
    rw [hway] at hothers hoccs
    refine ⟨_, hexec.trans (congrArg _ (retire_of_not_inUse hx (readWay_of_intact hu hx) (intact_loops hu)
      (by rw [hway]; exact hnot))), by rw [hframe]; rfl, ?_, hfw, fun i => ?_, horder, horders, fun v hv => ?_⟩
    · rw [freeWay_count, hway, hframe]
      simp only [State.respond_link, retired, hnum]
      rfl
    · exact (hoccs i).trans (occ?_filter_isSome e.list i)
    · have := hothers v hv
      rw [hsame v hv] at this
      exact this
  · have hst := station?_activate he (intact_station hi he).1
    have hw : (s.activate w).station? w = some (Claims.looked e) := by rw [hst, if_pos rfl]
    have hu := intact_activate hi w
    have hl := keyedLookup_of_found hi hm he
    rw [ho] at hl
    obtain ⟨rfl, rfl⟩ := Prod.mk.inj hl
    rw [exec_retireStation hs, retireStationBody_of_lookup (number_of_stationsWf hwf he) ho (.inl rfl)]
    refine congrArg _ (retire_of_inUse hw (readWay_of_intact hu hw) (intact_loops hu) ?_)
    rw [occsOfWay_of_undamaged (intact_station hu hw).2]
    obtain ⟨i, him, h⟩ := hused
    obtain ⟨y, hy⟩ := activate_stationsOnly (s := s) w
    exact ⟨i, him, by rw [hy]; exact h⟩
  · rw [exec_retireSlot hs, retireSlotBody_of_range (set_of_stationsWf hwf he), checkStation_of_intact hi]
    refine congrArg _ (retire_of_inUse he (readWay_of_intact hi he) (intact_loops hi) ?_)
    rw [occsOfWay_of_undamaged (intact_station hi he).2]
    exact hused

/-! ### A damaged entry (R7, R24) -/

/-- The read of an entry that carries the damaged mark or gains it. -/
theorem checkStation_of_failing (hr : s.resetHeld = false) {w : Nat} {e : Station} (he : s.station? w = some e)
    (hf : e.damaged = true ∨ e.sound = false) :
    (∃ x, s.checkStation w = { s with stations := x, events := { s.events with
      pending := s.events.pending ||| (if e.sound then 0 else 0x2000) } }) ∧
    ∀ v, (s.checkStation w).station? v = if v = w then some { e with damaged := true } else s.station? v := by
  by_cases hs : e.sound = true
  · have hd : e.damaged = true := hf.resolve_right (by simp [hs])
    rw [checkStation_of_sound (fun f hf' => by simp_all)]
    refine ⟨⟨s.stations, by simp [hs]⟩, fun v => ?_⟩
    by_cases hv : v = w
    · rw [if_pos hv, hv, he, ← hd]
    · rw [if_neg hv]
  · have hs : e.sound = false := by simpa using hs
    rw [checkStation_of_unsound he hs]
    refine ⟨⟨slotSet s.stations w { e with damaged := true }, ?_⟩, fun v => ?_⟩
    · simp only [State.raise, Events.raise, State.setStation_resetHeld, hr, hs]
      rfl
    · rw [station?_raise, station?_setStation]

theorem keyedLookup_of_lone_failing {n w : Nat} {e : Station} (hm : s.matching n = [w]) (he : s.station? w = some e)
    (hf : e.damaged = true ∨ e.sound = false) (hs : ∀ v f, v ≠ w → s.station? v = some f → f.sound = true) :
    s.keyedLookup n = (s.checkStation w, .damaged w) := by
  by_cases hsound : e.sound = true
  · have hd : e.damaged = true := hf.resolve_right (by simp [hsound])
    have hr : Claims.SetReads s n := fun v f _ hv => by
      by_cases hvw : v = w
      · simp_all
      · exact hs v f hvw hv
    rw [keyedLookup_of_lone_damaged (checkStations_of_setReads hr) hm he hd,
      checkStation_of_sound fun f hf' => by simp_all]
  · have hsound : e.sound = false := by simpa using hsound
    rw [keyedLookup_of_lone_unsound hm he hsound fun v f hv _ hf => hs v f hv hf, checkStation_of_unsound he hsound]

theorem mem_gather {w n i : Nat} :
    i ∈ s.gather w n ↔ (∃ o, s.occ? i = some o ∧ o.station = n) ∧
      ∀ v f, v ≠ w → v ∈ s.matching n → s.station? v = some f → f.damaged = false → i ∉ f.list := by
  simp only [State.gather, List.mem_filter, Bool.and_eq_true, Bool.not_eq_true', List.any_eq_false, Bool.and_eq_true,
    decide_eq_true_eq, not_and, Bool.not_eq_true]
  constructor
  · rintro ⟨-, hocc, hother⟩
    refine ⟨?_, fun v f hv hm hf hd hi => ?_⟩
    · cases ho : s.occ? i <;> simp_all
    · have := hother v hm hv
      simp_all
  · rintro ⟨⟨o, ho, hn⟩, hother⟩
    refine ⟨mem_slotKeys_of_slotGet ho, by simp [ho, hn], fun v hm hv => ?_⟩
    cases hf : s.station? v with
    | none => rfl
    | some f =>
      have := hother v f hv hm hf
      cases hd : f.damaged <;> simp_all

theorem occs_nodup (h : s.recordsWf = true) : (slotKeys s.occs).Nodup := by
  simp only [State.recordsWf, Bool.and_eq_true] at h
  obtain ⟨⟨⟨⟨-, hocc⟩, -⟩, -⟩, -⟩ := h
  exact ((slotWf_iff _ _).1 hocc).1.imp fun h => Nat.ne_of_lt h

/-- What a retirement of a damaged entry reads finds nothing more to mark. -/
theorem readWay_of_damaged {w : Nat} {x : Station} (hx : x.damaged = true)
    (hst : ∀ v f, v ≠ w → s.station? v = some f → f.sound = true) (hoccs : ∀ q ∈ s.occs, q.2.sound = true)
    (hloops : ∀ q ∈ s.loops, q.2.sound = true ∧ q.2.damaged = false) : s.checkLoops.readWay w x = s := by
  rw [checkLoops_of_sound fun l r hr => hloops _ (mem_of_slotGet hr), State.readWay, if_pos hx, checkStations_of_sound,
    State.checkPool, checkOccs_of_sound fun i _ o ho => hoccs _ (mem_of_slotGet ho)]
  exact fun v hv f hf => hst v f (by simpa using (List.mem_filter.1 hv).2) hf

/-- The records gathered for a damaged entry where no other entry is damaged. -/
theorem mem_occsOfWay_of_damaged {w : Nat} {x : Station} (hx : x.damaged = true)
    (hd : ∀ v f, v ≠ w → s.station? v = some f → f.damaged = false) (i : Nat) :
    i ∈ s.occsOfWay w x ↔ Claims.Gathered s w x i := by
  rw [State.occsOfWay, if_pos hx, mem_gather, Claims.Gathered]
  refine and_congr_right fun _ => forall_congr' fun v => forall_congr' fun f => forall_congr' fun hv =>
    forall_congr' fun _ => ⟨fun h hf => h hf (hd v f hv hf), fun h hf _ => h hf⟩

theorem gathered_congr {w i : Nat} {e x : Station} (hn : x.number = e.number) (hocc : t.occs = s.occs)
    (hm : t.matching e.number = s.matching e.number) (hst : ∀ v, v ≠ w → t.station? v = s.station? v) :
    Claims.Gathered t w x i ↔ Claims.Gathered s w e i := by
  rw [Claims.Gathered, Claims.Gathered, hn, hm, State.occ?, hocc]
  refine and_congr_right fun _ => forall_congr' fun v => forall_congr' fun f => forall_congr' fun hv => ?_
  rw [hst v hv]

theorem retire_damaged : Claims.RetireDamaged := by
  intro s w e hwf he hfail hothers hoccs hrec hloops c hc hs
  have hserves := hs
  have hheld : s.resetHeld = false := resetHeld_of_serves hserves
  obtain ⟨⟨y, hy⟩, hst⟩ := checkStation_of_failing hheld he hfail
  have hexec : exec c s = .next ((s.checkStation w).retire w fun x k => retired c w x.number k) := by
    have hw : (s.checkStation w).station? w = some { e with damaged := true } := by rw [hst, if_pos rfl]
    rcases hc with ⟨rfl, hm⟩ | rfl
    · rw [exec_retireStation hserves, retireStationBody_of_lookup (number_of_stationsWf hwf he)
        (keyedLookup_of_lone_failing hm he hfail fun v f hv hf => (hothers v f hv hf).1) (.inr rfl)]
      simp only [State.retire, hw, retired, if_true]
    · rw [exec_retireSlot hserves, retireSlotBody_of_range (set_of_stationsWf hwf he)]
      simp only [retired, if_neg retireStation_ne_retireSlot]
  rw [hexec]
  generalize s.checkStation w = u at hy hst ⊢
  obtain ⟨hocc, hloop, hwin, hrecency, hpart⟩ : u.occs = s.occs ∧ u.loops = s.loops ∧ u.window = s.window ∧
      u.recency = s.recency ∧ u.part = .ready := by
    rw [hy]
    exact ⟨rfl, rfl, rfl, rfl, part_of_serves_ready hserves⟩
  have hw : u.station? w = some { e with damaged := true } := by rw [hst, if_pos rfl]
  have hsame : ∀ v, v ≠ w → u.station? v = s.station? v := fun v hv => by rw [hst, if_neg hv]
  have hothers' : ∀ v f, v ≠ w → u.station? v = some f → f.sound = true ∧ f.damaged = false :=
    fun v f hv hf => hothers v f hv (hsame v hv ▸ hf)
  have hloops' : ∀ q ∈ u.loops, q.2.sound = true ∧ q.2.damaged = false := hloop ▸ hloops
  have hread : u.checkLoops.readWay w { e with damaged := true } = u :=
    readWay_of_damaged rfl (fun v f hv hf => (hothers' v f hv hf).1) (hocc ▸ hoccs) hloops'
  have hmatch : u.matching e.number = s.matching e.number := by
    refine matching_congr fun v _ => ?_
    rw [hst]
    by_cases hv : v = w <;> simp [hv, he]
  have hgather (i : Nat) : i ∈ u.occsOfWay w { e with damaged := true } ↔ Claims.Gathered s w e i :=
    (mem_occsOfWay_of_damaged rfl (fun v f hv hf => (hothers' v f hv hf).2) i).trans
      (gathered_congr rfl hocc hmatch hsame)
  have hlive : ∀ q ∈ u.loops, q.2.damaged = false := fun q hq => (hloops' q hq).2
  refine ⟨fun ⟨i, hi, hin⟩ => congrArg _ (retire_of_inUse hw hread hlive
    ⟨i, (hgather i).2 hi, (inUse_congr hwin hloop).2 hin⟩), fun hfree => ?_⟩
  have hnot : ∀ i ∈ u.occsOfWay w { e with damaged := true }, ¬Claims.InUse u i := fun i hi =>
    mt (inUse_congr hwin hloop).1 (hfree i ((hgather i).1 hi))
  have hall : (u.occsOfWay w { e with damaged := true }).filter (fun i => (u.occ? i).isSome) =
      u.occsOfWay w { e with damaged := true } := by
    refine List.filter_eq_self.2 fun i hi => ?_
    obtain ⟨⟨o, ho, -⟩, -⟩ := (hgather i).1 hi
    rw [State.occ?, hocc]
    exact Option.isSome_of_eq_some ho
  obtain ⟨⟨a, b, d, hframe⟩, hfw, hun, hoccs', horder, horders⟩ :=
    freeWay_wayFreed (w := w) (e := { e with damaged := true }) hpart (fun v f hv hf => (hothers' v f hv hf).1)
      (fun i hi => not_member_of_not_inUse (hnot i (List.mem_of_mem_filter hi)))
  rw [hall] at hun hoccs'
  have hord (k : Nat) : u.order k = s.order k := by rw [State.order, State.order, hrecency]
  refine ⟨_, u.occsOfWay w { e with damaged := true }, congrArg _ (retire_of_not_inUse hw hread hlive hnot),
    by rw [hframe, hy]; rfl, ?_, hgather, ?_, hfw, fun i => (hoccs' i).trans ?_, horder.trans ?_,
    fun k hk => (horders k hk).trans (hord k), fun v hv => ?_⟩
  · rw [State.occsOfWay, if_pos rfl]
    exact (hocc ▸ occs_nodup hrec).filter _
  · rw [freeWay_count, hall, hframe, hy]
    simp only [State.respond_link, retired]
    split <;> rfl
  · rw [State.occ?, State.occ?, hocc]
  · rw [hord]
  · rw [← hsame v hv]
    exact hun v hv

/-! ### Refusals (R6, R21, R23) -/

theorem retire_refusals : Claims.RetireRefusals := by
  intro s n set way
  refine ⟨fun hs => ?_, fun hs => ?_⟩
  · rw [exec_retireStation hs]
    refine ⟨fun h => by simp [retireStationBody, validNumber_of_out h], fun h1 h2 u out ho => ⟨?_, ?_⟩⟩
    · rintro rfl
      simp [retireStationBody, validNumber_of_range h1 h2, ho, Lookup.status]
    · rintro rfl
      simp [retireStationBody, validNumber_of_range h1 h2, ho, Lookup.status]
  · rw [exec_retireSlot hs]
    refine ⟨fun h => ?_, fun hset hway hnone => ?_⟩
    · have : ¬set < 64 ∨ ¬way < 4 := by omega
      rcases this with h | h <;> simp [retireSlotBody, h]
    · simp [retireSlotBody, hset, hway, State.checkStation, hnone, State.retire]

/-- Settles O33: the retirement of a sound entry, of a damaged one, and what both commands refuse. -/
theorem retire : Obligations.Retire := ⟨retire_sound, retire_damaged, retire_refusals⟩

end Sys2Proof.Machine
end

