-- ==== Sys2Proof/Proofs/Stations/Gates.lean ====
section
/-! SUPPORT. The removal of a window record (R49), and a tilt gate that completes (R40, R41, R57 to R63, R170). -/

namespace Sys2Proof.Machine

open Sys2Proof

variable {s t u : State}

/-! ### The removal of a window record (R49) -/

theorem unlisted_singleton (i : Nat) (f : Station) : unlisted [i] f =
    if i ∈ f.list then { f with list := f.list.filter (· ≠ i), changed := true } else f := by
  rw [unlisted_eq_ite]
  simp

/-- An entry that loses a record where it is of the number's set. -/
theorem unlisted_waysOf (x : Option Station) (v n i : Nat) :
    (if v ∈ waysOf n then x.map (unlisted [i]) else x) = x.map fun f =>
      if v / 4 = n % 64 ∧ i ∈ f.list then { f with list := f.list.filter (· ≠ i), changed := true } else f := by
  by_cases h : v / 4 = n % 64
  · rw [if_pos (mem_waysOf.2 h)]
    simp only [h, true_and]
    exact Option.map_congr fun f _ => unlisted_singleton i f
  · rw [if_neg (mt mem_waysOf.1 h)]
    simp [h]

theorem waysRead_of_intact (h : s.intact = true) (ws : List Nat) : WaysRead s ws :=
  fun _ _ _ he => (intact_station h he).1

theorem loopsRead_of_intact (h : s.intact = true) : LoopsRead s := fun _ _ hr => intact_loop h hr

/-- R49: `t` is `s` with its window removed for a cause: the record FREE and off the lists. -/
structure WindowGone (s t : State) (w : Window) (ways : List Nat) (cause : WindowCause) : Prop where
  frame : ∃ x y z a, t = { s with
    stations := x, scan := y, loops := z, occs := a, window := none
    lastWindow := some (lastWindowOf w .aborted cause s.epoch)
    events := s.events.raise s.resetHeld .windowAborted } ∧ (s.part ≠ .starting → y = s.scan)
  occ : ∀ j, t.occ? j = if j = w.occ then none else s.occ? j
  station : ∀ v, t.station? v = if v ∈ ways then (s.station? v).map (unlisted [w.occ]) else s.station? v
  loop : ∀ k, t.loop? k = (s.loop? k).map (memberless w.occ)

theorem removeWindow_windowGone (w : Window) {ways : List Nat} (cause : WindowCause) (hs : WaysRead s ways)
    (hl : LoopsRead s) : WindowGone s (s.removeWindow w ways cause) w ways cause := by
  obtain ⟨⟨x, y, z, a, hframe, hscan⟩, hst, hloop⟩ := freeOcc_spec w.occ hs hl
  exact ⟨⟨x, y, z, a, by rw [State.removeWindow, hframe]; rfl, hscan⟩, fun j => occ?_freeOcc ways w.occ j, hst, hloop⟩

/-! ### The front end after a gate (R57, R60, R63) -/

theorem chan_setChan (f : FrontEnd) (c k : Channel) (x : Chan) :
    (f.setChan c x).chan k = if k = c then x else f.chan k := by
  rcases c with (_ | _) | _ <;> rcases k with (_ | _) | _ <;> rfl

theorem chan_holdTilt (f : FrontEnd) (a : Axis) (v : Int) (k : Channel) : (f.holdTilt a v).chan k = f.chan k := by
  cases a <;> rcases k with (_ | _) | _ <;> rfl

/-- R57, R60: the state with the next tilt gate begun and the value held. -/
def State.afterTilt (s : State) (a : Axis) (v : Int) : State :=
  s.setFront ((s.front.setChan (.tilt a)
    ((s.front.chan (.tilt a)).complete s.constants.nums.tiltGate.toNat)).holdTilt a v)

theorem afterTilt_frame (s : State) (a : Axis) (v : Int) : (s.afterTilt a v).front =
    { s.front with x := (s.afterTilt a v).front.x, y := (s.afterTilt a v).front.y,
                   heldX := (s.afterTilt a v).front.heldX, heldY := (s.afterTilt a v).front.heldY } := by
  cases a <;> rfl

theorem afterTilt_chan (s : State) (a : Axis) (v : Int) : (s.afterTilt a v).front.chan (.tilt a) =
    { state := .counting, gate := some { length := s.constants.nums.tiltGate.toNat, edges := 0 }, periods := 0,
      abandons := 0 } := by
  rw [State.afterTilt, State.setFront_front, chan_holdTilt, chan_setChan, if_pos rfl]
  rfl

theorem afterTilt_other_chan (s : State) (a : Axis) (v : Int) {k : Channel} (hk : k ≠ .tilt a) :
    (s.afterTilt a v).front.chan k = s.front.chan k := by
  rw [State.afterTilt, State.setFront_front, chan_holdTilt, chan_setChan, if_neg hk]

theorem afterTilt_held (s : State) (a : Axis) (v : Int) :
    if a = .x then (s.afterTilt a v).front.heldX = some v ∧ (s.afterTilt a v).front.heldY = s.front.heldY
    else (s.afterTilt a v).front.heldY = some v ∧ (s.afterTilt a v).front.heldX = s.front.heldX := by
  cases a <;> exact ⟨rfl, rfl⟩

/-! ### A tilt gate that completes (R57, R60) -/

theorem completing_of_gate {ch : Channel} {p : Nat} {g : Gate} (hm : s.mainRuns = true)
    (hoff : (s.front.chan ch).state ≠ .off) (hg : (s.front.chan ch).gate = some g)
    (hp : (s.front.chan ch).periods + p ≤ 16777215) :
    s.completing ch p = some (g, (s.front.chan ch).periods + p) := by
  simp [State.completing, hm, hoff, hg, hp, Config.abandonCount]

theorem exec_tiltGateComplete {a : Axis} {p : Nat} {g : Gate} (hm : s.mainRuns = true) (hs : s.constants.sound = true)
    (hd : s.constants.damaged = false) (hoff : (s.front.chan (.tilt a)).state ≠ .off)
    (hg : (s.front.chan (.tilt a)).gate = some g) (hp : (s.front.chan (.tilt a)).periods + p ≤ 16777215) {v : Int}
    (hv : v = max (-2000) (min 2000 (Claims.rawTilt s a p))) :
    exec (.tiltGateComplete a p) s = .next ((s.afterTilt a v).toCollecting
      ((s.afterTilt a v).tiltToWindow a v (!validTilt (Claims.rawTilt s a p)))) := by
  subst hv
  have hread : s.checkConstants false = s := by simp [State.checkConstants, hs, hd]
  show Host.Outcome.next (s.tiltGate a p) = _
  rw [State.tiltGate, completing_of_gate hm hoff hg hp]
  simp only [State.completeGate, hread, State.nextLength, hd, State.setFront_constants]
  rfl

theorem toCollecting_of_no_collecting (f : Window → State)
    (h : s.window = none ∨ ∃ w k, s.window = some w ∧ w.phase = .settling k) : s.toCollecting f = s := by
  rcases h with h | ⟨w, k, h, hk⟩
  · simp [State.toCollecting, h]
  · simp [State.toCollecting, h, hk]

theorem toCollecting_of_collecting (f : Window → State) {w : Window} {b c d : Nat} (h : s.window = some w)
    (hp : w.phase = .collecting b c d) : s.toCollecting f = f w := by
  simp [State.toCollecting, h, hp]

theorem removeWindow_front (w : Window) (ways : List Nat) (cause : WindowCause) :
    (s.removeWindow w ways cause).front = s.front := (freeOcc_tableStep s ways w.occ).front

theorem tiltToWindow_front (a : Axis) (v : Int) (range : Bool) (w : Window) :
    (s.tiltToWindow a v range w).front = s.front := by
  unfold State.tiltToWindow
  dsimp only
  split
  · rfl
  · split
    · rfl
    · split
      · exact removeWindow_front _ _ _
      · split <;> rfl

theorem toCollecting_tiltToWindow_front (a : Axis) (v : Int) (range : Bool) :
    (s.toCollecting (s.tiltToWindow a v range)).front = s.front := by
  unfold State.toCollecting
  split
  · split
    · exact tiltToWindow_front a v range _
    · rfl
  · rfl

theorem tiltHeld_claim : Claims.TiltHeld := by
  intro s a p g hm hs hd hoff hg hp v
  refine ⟨_, exec_tiltGateComplete hm hs hd hoff hg hp (v := v) rfl, ?_⟩
  rw [toCollecting_tiltToWindow_front]
  refine ⟨afterTilt_frame s a v, afterTilt_chan s a v, fun c => afterTilt_other_chan s a v, afterTilt_held s a v,
    fun hw => ?_⟩
  rw [toCollecting_of_no_collecting (s := s.afterTilt a v) _ hw]
  rfl

/-! ### What a tilt value does to the window (R40, R41) -/

/-- R60: a value is marked out of range exactly where its clamp changes it. -/
theorem not_validTilt_eq (q : Int) : (!validTilt q) = decide (q ≠ max (-2000) (min 2000 q)) := by
  rw [Bool.eq_iff_iff]
  simp only [validTilt, inRange, Bool.not_eq_true', Bool.and_eq_false_iff, decide_eq_false_iff_not, decide_eq_true_eq]
  omega

theorem lastTilt_eq (m : Sums) (a : Axis) (v : Int) :
    m.lastTilt a v = if a = .x then { m with lastX := some v } else { m with lastY := some v } := by
  cases a <;> rfl

theorem addTilt_lastTilt_eq (m : Sums) (a : Axis) (v : Int) : (m.lastTilt a v).addTilt a v =
    if a = .x then { m with lastX := some v, tiltX2 := m.tiltX2 + v.natAbs ^ 2, mx := m.mx + 1 }
    else { m with lastY := some v, tiltY2 := m.tiltY2 + v.natAbs ^ 2, my := m.my + 1 } := by
  cases a <;> simp [Sums.lastTilt, Sums.addTilt, pow_two]

theorem tiltCollected_claim : Claims.TiltCollected := by
  intro s a p g w b c d hm hs hd hoff hg hp hw hph q v last sums above
  have hx := exec_tiltGateComplete hm hs hd hoff hg hp (v := v) rfl
  rw [toCollecting_of_collecting (s := s.afterTilt a v) _ hw hph] at hx
  have hclamp : (s.afterTilt a v).clamp = s.clamp := rfl
  have hlimit : (s.afterTilt a v).constants = s.constants := rfl
  refine ⟨fun hc => ⟨_, hx, ?_⟩, fun hc habove => ⟨_, hx, ?_⟩⟩
  · rw [State.tiltToWindow, if_pos (hclamp.trans hc), lastTilt_eq]
    rfl
  have hsums : (w.sums.lastTilt a v).addTilt a v = sums := by
    rw [addTilt_lastTilt_eq]
    cases a <;> rfl
  rw [State.tiltToWindow, if_neg (by rw [hclamp, hc]; decide)]
  simp only [hlimit, hsums, not_validTilt_eq]
  by_cases hab : above
  · have hno : w.abortOnTilt = false := habove.resolve_right (not_not_intro hab)
    have hle : ¬(v.natAbs : Int) ≤ s.constants.nums.tiltLimit := not_le.2 hab
    have hheld : s.resetHeld = false := by
      simp only [State.mainRuns, Bool.and_eq_true, Bool.not_eq_true'] at hm
      exact hm.1
    rw [if_neg hle, if_neg (by simp [hno])]
    cases hr : w.tiltRaised
    · simp [hab, State.raise, Events.raise, State.afterTilt, State.setFront, hheld, v, q, Event.mask, Event.bit]
    · simp [hab, State.afterTilt, State.setFront, v, q]
  · have hle : (v.natAbs : Int) ≤ s.constants.nums.tiltLimit := not_lt.1 hab
    rw [if_pos hle]
    simp [hab, State.afterTilt, State.setFront, v, q]

theorem tiltToWindow_of_abort {a : Axis} {v : Int} {range : Bool} {w : Window} (hc : s.clamp = false)
    (hv : s.constants.nums.tiltLimit < (v.natAbs : Int)) (hw : w.abortOnTilt = true) :
    s.tiltToWindow a v range w = (s.raise .tiltLimit).removeWindow
      { w with sums := (w.sums.lastTilt a v).addTilt a v, tiltRange := w.tiltRange || range } (waysOf w.station) .tilt := by
  rw [State.tiltToWindow, if_neg (by simp [hc])]
  exact (if_neg (not_le.2 hv)).trans (if_pos hw)

theorem tiltAborts_claim : Claims.TiltAborts := by
  intro s a p g w b c d hm hi hoff hg hp hw hph hc habort habove
  generalize hv : max (-2000) (min 2000 (Claims.rawTilt s a p)) = v at habove ⊢
  have hx := exec_tiltGateComplete hm (intact_constants hi).1 (intact_constants hi).2 hoff hg hp hv.symm
  rw [toCollecting_of_collecting (s := s.afterTilt a v) _ hw hph,
    tiltToWindow_of_abort (s := s.afterTilt a v) hc habove habort] at hx
  have hheld : s.resetHeld = false := by
    simp only [State.mainRuns, Bool.and_eq_true, Bool.not_eq_true'] at hm
    exact hm.1
  obtain ⟨⟨x, y, z, k, hframe, hscan⟩, hocc, hst, hloop⟩ :=
    removeWindow_windowGone (s := (s.afterTilt a v).raise .tiltLimit)
      { w with sums := (w.sums.lastTilt a v).addTilt a v, tiltRange := w.tiltRange || !validTilt (Claims.rawTilt s a p) }
      (ways := waysOf w.station) .tilt (waysRead_of_intact hi _) (loopsRead_of_intact hi)
  refine ⟨_, hx, by rw [hframe]; rfl, fun h => by rw [hframe]; exact hscan h, ?_⟩
  have hfront : (((s.afterTilt a v).raise .tiltLimit).removeWindow { w with
      sums := (w.sums.lastTilt a v).addTilt a v
      tiltRange := w.tiltRange || !validTilt (Claims.rawTilt s a p) } (waysOf w.station) .tilt).front =
      (s.afterTilt a v).front := removeWindow_front _ _ _
  rw [hfront]
  refine ⟨afterTilt_frame s a v, afterTilt_chan s a v, fun k => afterTilt_other_chan s a v, afterTilt_held s a v, hocc,
    fun j => (hst j).trans (unlisted_waysOf _ _ _ _), hloop, ?_, ?_⟩
  · rw [hframe]
    cases a <;> rfl
  · rw [hframe]
    show (s.events.raise s.resetHeld .tiltLimit).raise s.resetHeld .windowAborted = _
    simp [hheld, Events.raise, BitVec.or_assoc, Event.mask, Event.bit]

/-! ### Any gate on damaged constants (R170) -/

theorem checkConstants_of_damaged (hr : s.resetHeld = false)
    (h : s.constants.damaged = true ∨ s.constants.sound = false) :
    s.checkConstants false = { s with
      constants := { s.constants with damaged := true }
      events := if s.constants.damaged then s.events
        else { s.events with pending := s.events.pending ||| 0x2000 } } := by
  cases hd : s.constants.damaged with
  | true =>
    have hsame : { s.constants with damaged := true } = s.constants := by rw [← hd]
    rw [hsame]
    simp [State.checkConstants, hd]
  | false =>
    have hs : s.constants.sound = false := h.resolve_left (by simp [hd])
    simp [State.checkConstants, hd, hs, State.raise, Events.raise, State.setConstants, hr]
    rfl

theorem completeGate_of_damaged {ch : Channel} {g : Gate} (hr : s.resetHeld = false)
    (h : s.constants.damaged = true ∨ s.constants.sound = false) :
    s.completeGate ch g = (s.checkConstants false).setFront
      (s.front.setChan ch ((s.front.chan ch).complete g.length)) ∧ (s.completeGate ch g).constants.damaged = true := by
  rw [State.completeGate, checkConstants_of_damaged hr h]
  exact ⟨rfl, rfl⟩

theorem gateOnDamagedConstants_claim : Claims.GateOnDamagedConstants := by
  intro s ch c p g hm hc hoff hg hp hdam
  have hr : s.resetHeld = false := by
    simp only [State.mainRuns, Bool.and_eq_true, Bool.not_eq_true'] at hm
    exact hm.1
  obtain ⟨hgate, hd⟩ := completeGate_of_damaged (ch := ch) (g := g) hr hdam
  have hx : exec c s = .next (s.completeGate ch g) := by
    rcases hc with ⟨a, rfl, rfl⟩ | ⟨rfl, rfl⟩
    · show Host.Outcome.next (s.tiltGate a p) = _
      rw [State.tiltGate, completing_of_gate hm hoff hg hp]
      simp only [hd, if_true]
    · show Host.Outcome.next (s.tempGate p) = _
      rw [State.tempGate, completing_of_gate hm hoff hg hp]
      simp only [hd, if_true]
  refine ⟨_, hx, ?_⟩
  rw [hgate, checkConstants_of_damaged hr hdam]
  refine ⟨rfl, rfl, ?_, ?_, fun k hk => ?_⟩
  · rcases ch with (_ | _) | _ <;> rfl
  · rw [State.setFront_front, chan_setChan, if_pos rfl]
    rfl
  · rw [State.setFront_front, chan_setChan, if_neg hk]

/-- Settles O39: what a tilt gate holds, what the window takes of it, its abort, and any gate on damaged constants. -/
theorem tiltGate : Obligations.TiltGate :=
  ⟨tiltHeld_claim, tiltCollected_claim, tiltAborts_claim, gateOnDamagedConstants_claim⟩

end Sys2Proof.Machine
end

