-- ==== Sys2Proof/Proofs/Stations/WindowCloses.lean ====
section
/-! SUPPORT. The way that owns a record (R24, R26), the place of a record in its station's list (R3, R47), and a window
that closes (R44 to R48). -/

namespace Sys2Proof.Machine

open Sys2Proof

variable {s t u : State}

/-! ### The way that owns a record (log 16) -/

/-- Log 16: of the ways of a number whose lists name a record, the lowest. -/
def OwnsAt (s : State) (v n i : Nat) : Prop :=
  v ∈ s.matching n ∧ ∃ f, s.station? v = some f ∧ i ∈ f.list ∧
    ∀ u g, u ∈ s.matching n → u < v → s.station? u = some g → i ∉ g.list

theorem find?_eq_some_iff_of_rising {p : Nat → Bool} {l : List Nat} {w : Nat} (hl : l.Pairwise (· < ·)) :
    l.find? p = some w ↔ w ∈ l ∧ p w = true ∧ ∀ v ∈ l, v < w → p v = false := by
  refine ⟨fun h => ?_, fun ⟨hw, hp, hmin⟩ => find?_eq_some_of_rising hl hw hp hmin⟩
  obtain ⟨hp, as, bs, rfl, has⟩ := List.find?_eq_some_iff_append.1 h
  refine ⟨by simp, hp, fun v hv hlt => ?_⟩
  obtain ⟨-, hbs, -⟩ := List.pairwise_append.1 hl
  rcases List.mem_append.1 hv with hv | hv
  · simpa using has v hv
  · rcases List.mem_cons.1 hv with rfl | hv
    · exact absurd hlt (Nat.lt_irrefl _)
    · exact absurd hlt (Nat.lt_asymm ((List.pairwise_cons.1 hbs).1 v hv))

theorem matching_rising (n : Nat) : (s.matching n).Pairwise (· < ·) := (waysOfSet_rising _).filter _

/-- No entry carries the damaged mark. -/
def NoneDamaged (s : State) : Prop := ∀ v f, s.station? v = some f → f.damaged = false

theorem ownerOf_eq_find? (hd : NoneDamaged s) (n i : Nat) :
    s.ownerOf n i = (s.matching n).find? (s.wayIs fun e => !e.damaged && e.list.contains i) := by
  have hnone : (s.matching n).find? (s.wayIs (·.damaged)) = none := by
    refine List.find?_eq_none.2 fun v _ => ?_
    unfold State.wayIs
    split
    · rename_i f hf
      simp [hd v f hf]
    · simp
  unfold State.ownerOf
  rw [hnone]
  split
  · rename_i h
    exact h.symm
  · rename_i h
    exact h.symm

theorem wayIs_lists_iff (hd : NoneDamaged s) (v i : Nat) :
    s.wayIs (fun e => !e.damaged && e.list.contains i) v = true ↔ ∃ f, s.station? v = some f ∧ i ∈ f.list := by
  unfold State.wayIs
  cases hf : s.station? v with
  | none => simp
  | some f => simp [hd v f hf]

theorem ownerOf_eq_some_iff (hd : NoneDamaged s) (v n i : Nat) : s.ownerOf n i = some v ↔ OwnsAt s v n i := by
  rw [ownerOf_eq_find? hd, find?_eq_some_iff_of_rising (matching_rising n), wayIs_lists_iff hd]
  refine and_congr_right fun _ => ⟨fun ⟨⟨f, hf, hi⟩, hmin⟩ => ⟨f, hf, hi, fun u g hu hlt hg hig => ?_⟩,
    fun ⟨f, hf, hi, hmin⟩ => ⟨⟨f, hf, hi⟩, fun u hu hlt => ?_⟩⟩
  · have := hmin u hu hlt
    rw [(wayIs_lists_iff hd u i).2 ⟨g, hg, hig⟩] at this
    cases this
  · rw [Bool.eq_false_iff, ne_eq, wayIs_lists_iff hd]
    exact fun ⟨g, hg, hig⟩ => hmin u g hu hlt hg hig

/-- Who owns a record depends on the numbers and the lists of the entries alone. -/
theorem ownsAt_congr (h : ∀ v, (t.station? v).map (fun f => (f.number, f.list)) =
    (s.station? v).map (fun f => (f.number, f.list))) (v n i : Nat) : OwnsAt t v n i ↔ OwnsAt s v n i := by
  have hm : t.matching n = s.matching n := by
    refine matching_congr fun w _ => ?_
    have := congrArg (Option.map Prod.fst) (h w)
    simpa [Option.map_map, Function.comp_def] using this
  have hl : ∀ w, (∃ f, t.station? w = some f ∧ i ∈ f.list) ↔ ∃ f, s.station? w = some f ∧ i ∈ f.list := by
    intro w
    have := h w
    cases hs : s.station? w <;> cases ht : t.station? w <;> simp_all
  have hforall : ∀ w, (∀ g, t.station? w = some g → i ∉ g.list) ↔ ∀ g, s.station? w = some g → i ∉ g.list := by
    intro w
    have := hl w
    constructor
    · exact fun hno g hg hig => let ⟨f, hf, hif⟩ := this.2 ⟨g, hg, hig⟩; hno f hf hif
    · exact fun hno g hg hig => let ⟨f, hf, hif⟩ := this.1 ⟨g, hg, hig⟩; hno f hf hif
  have hform : ∀ x : State, OwnsAt x v n i ↔ v ∈ x.matching n ∧ (∃ f, x.station? v = some f ∧ i ∈ f.list) ∧
      ∀ w, w ∈ x.matching n → w < v → ∀ g, x.station? w = some g → i ∉ g.list := by
    intro x
    unfold OwnsAt
    constructor
    · rintro ⟨hv, f, hf, hi, hmin⟩
      exact ⟨hv, ⟨f, hf, hi⟩, fun w hw hlt g hg => hmin w g hw hlt hg⟩
    · rintro ⟨hv, ⟨f, hf, hi⟩, hmin⟩
      exact ⟨hv, f, hf, hi, fun w g hw hlt hg => hmin w hw hlt g hg⟩
  rw [hform, hform, hm, hl]
  simp only [hforall]

/-! ### The place of a record in its list (R3, R47) -/

theorem notLater_iff {i j : Nat} {e : Nat} (hj : j ≠ i) (ht : ∀ k, k ≠ i → t.occ? k = s.occ? k)
    (hd : ∀ o, s.occ? j = some o → o.damaged = false) : t.notLater e j = true ↔ Claims.NotLater s e j := by
  unfold State.notLater Claims.NotLater
  rw [ht j hj]
  cases ho : s.occ? j with
  | none => simp
  | some o => cases hm : o.reading <;> simp [hd o ho, hm]

theorem takeWhile_ne {i : Nat} {pre post : List Nat} (h : i ∉ pre) : (pre ++ i :: post).takeWhile (· ≠ i) = pre := by
  rw [List.takeWhile_append_of_pos fun j hj => by simpa using fun hji : j = i => h (hji ▸ hj)]
  simp

theorem dropWhile_ne {i : Nat} {pre post : List Nat} (h : i ∉ pre) :
    (pre ++ i :: post).dropWhile (· ≠ i) = i :: post := by
  rw [List.dropWhile_append_of_pos fun j hj => by simpa using fun hji : j = i => h (hji ▸ hj)]
  simp

/-- The index goes before the longest end of the list that fails the test. -/
theorem insertAfterLast_eq {p : Nat → Bool} {i : Nat} {a b : List Nat} (hb : ∀ j ∈ b, p j = false)
    (ha : a = [] ∨ ∃ c x, a = c ++ [x] ∧ p x = true) : insertAfterLast p i (a ++ b) = a ++ i :: b := by
  have htail : ((a ++ b).reverse.takeWhile (fun j => !p j)).reverse = b := by
    rw [List.reverse_append, List.takeWhile_append_of_pos fun j hj => by simp [hb j (List.mem_reverse.1 hj)]]
    rcases ha with rfl | ⟨c, x, rfl, hx⟩
    · simp
    · simp [hx]
  rw [insertAfterLast]
  simp only [htail]
  simp

theorem placeByEpoch_placed {p : Nat → Bool} {i e : Nat} (l : List Nat)
    (hp : ∀ j, j ≠ i → (p j = true ↔ Claims.NotLater s e j)) : Claims.Placed s e i l (placeByEpoch p i l) := by
  rintro pre post rfl hi
  have hne : ∀ j ∈ pre, j ≠ i := fun j hj hji => hi (hji ▸ hj)
  rw [placeByEpoch, takeWhile_ne hi, dropWhile_ne hi]
  refine ⟨fun hall => if_pos (List.all_eq_true.2 fun j hj => (hp j (hne j hj)).2 (hall j hj)), fun a b hab hb hlate ha => ?_⟩
  subst hab
  have hbf : ∀ j ∈ b, p j = false := fun j hj => by
    rw [Bool.eq_false_iff, ne_eq, hp j (hne j (List.mem_append_right a hj))]
    exact hlate j hj
  obtain ⟨j, hj⟩ := List.exists_mem_of_ne_nil b hb
  have hnot : ¬(a ++ b).all p = true := fun h => by
    have := List.all_eq_true.1 h j (List.mem_append_right a hj)
    rw [hbf j hj] at this
    cases this
  rw [if_neg hnot, insertAfterLast_eq hbf]
  · simp
  · rcases ha with rfl | ⟨c, x, rfl, hx⟩
    · exact .inl rfl
    · exact .inr ⟨c, x, rfl, (hp x (hne x (by simp))).2 hx⟩

/-- R47, step 5: the entry that owns the record takes it at its place, and no other changes. -/
theorem placeInList_spec {n i e : Nat} (hst : ∀ v f, s.station? v = some f → f.sound = true ∧ f.damaged = false)
    (hocc : ∀ j o, s.occ? j = some o → o.sound = true) :
    StationsScan s (s.placeInList n i e) ∧ ∀ v, (s.placeInList n i e).station? v =
      if s.ownerOf n i = some v then (s.station? v).map fun f =>
        { f with list := placeByEpoch (s.notLater e) i f.list, changed := true } else s.station? v := by
  have hread : s.checkStations (waysOf n) = s := checkStations_of_sound fun v _ f hf => (hst v f hf).1
  cases ho : s.ownerOf n i with
  | none =>
    have hp : s.placeInList n i e = s := by simp [State.placeInList, hread, ho]
    rw [hp]
    exact ⟨.refl s, fun v => by simp⟩
  | some w =>
    cases hw : s.station? w with
    | none =>
      have hp : s.placeInList n i e = s := by simp [State.placeInList, hread, ho, hw]
      rw [hp]
      refine ⟨.refl s, fun v => ?_⟩
      by_cases hv : w = v
      · simp [← hv, hw]
      · simp [hv]
    | some f =>
      have hp : s.placeInList n i e =
          s.putChanged w { f with list := placeByEpoch (s.notLater e) i f.list } := by
        simp [State.placeInList, hread, ho, hw, (hst w f hw).2, checkOccs_of_sound fun j _ o hj => hocc j o hj]
      have hsound := (hst w f hw).1
      rw [hp]
      refine ⟨putChanged_stationsScan w _, fun v => ?_⟩
      by_cases hv : w = v
      · subst hv
        simp [station?_putChanged, hw, hsound]
      · simp [station?_putChanged, hv, Ne.symm hv]

/-! ### The job of a close (R48) -/

/-- R48: an automatic submission is dropped by a HALTED engine and by a WORKING one whose queue is full. -/
def Dropped (e : Engine) : Prop := e.state = .halted ∨ e.state = .working ∧ 4 ≤ e.queue.length

theorem submission_eq_dropped_iff (e : Engine) : e.submission = .dropped ↔ Dropped e := by
  unfold Engine.submission Dropped Engine.full Config.queueLimit
  cases e.state <;> simp

theorem submitAutomatic_of_dropped {i : Nat} {o : Occ} (h : Dropped s.engine) (ho : s.occ? i = some o) :
    s.submitAutomatic i =
      (s.putOcc i { o with flags := { o.flags with unqueued := true } }).raise .queueOverflow := by
  simp [State.submitAutomatic, (submission_eq_dropped_iff _).2 h, State.setUnqueued, ho]

theorem submitAutomatic_of_not_dropped {i : Nat} (h : ¬Dropped s.engine) :
    s.submitAutomatic i = { s with engine := s.engine.place (automaticReduce i) } := by
  have := mt (submission_eq_dropped_iff s.engine).1 h
  cases hs : s.engine.submission <;> simp_all [State.submitAutomatic]

theorem submission_code (e : Engine) : e.submission.code =
    if e.state = .idle then 1 else if e.state = .working ∧ e.queue.length < 4 then 0 else 2 := by
  unfold Engine.submission Engine.full Config.queueLimit
  cases e.state with
  | idle => rfl
  | halted => rfl
  | working =>
    by_cases h : e.queue.length < 4
    · have hq : ¬4 ≤ e.queue.length := by omega
      simp [h, hq, Submission.code]
    · have hq : 4 ≤ e.queue.length := by omega
      simp [h, hq, Submission.code]

/-! ### A window that closes (R47) -/

theorem closeWindow_of_samples {w : Window} {start rev : Nat} {cause : WindowCause} (h : 1 ≤ w.sums.n) :
    s.closeWindow w start rev cause = (s.writeClose w start rev cause).submitAutomatic w.occ := by
  rw [State.closeWindow, if_neg (by omega)]

/-- R47: what the close writes before its job is submitted. -/
structure WindowClosed (s t : State) (w : Window) (o : Occ) (start rev : Nat) (cause : WindowCause) : Prop where
  frame : ∃ x y a, t = { s with
    stations := x, scan := y, occs := a, window := none, lastWindow := some (lastWindowOf w .closed cause s.epoch)
    events := s.events.raise s.resetHeld .windowClosed } ∧ (s.part ≠ .starting → y = s.scan)
  occ : ∀ j, t.occ? j = if j = w.occ then some (closedOcc o w (decide (cause = WindowCause.silence)) start rev) else s.occ? j
  placed : ∀ v f, s.station? v = some f → OwnsAt s v w.station w.occ → ∃ l,
    t.station? v = some { f with list := l, changed := true } ∧
      Claims.Placed s (closeEpoch start w.sums.sumT w.sums.n) w.occ f.list l
  kept : ∀ v, ¬OwnsAt s v w.station w.occ → t.station? v = s.station? v

theorem writeClose_windowClosed {w : Window} {o : Occ} {start rev : Nat} (cause : WindowCause)
    (hst : ∀ v f, s.station? v = some f → f.sound = true ∧ f.damaged = false)
    (hocc : ∀ j o, s.occ? j = some o → o.sound = true ∧ o.damaged = false) (ho : s.occ? w.occ = some o) :
    WindowClosed s (s.writeClose w start rev cause) w o start rev cause := by
  have hw : s.writeClose w start rev cause =
      { (s.putOcc w.occ (closedOcc o w (decide (cause = WindowCause.silence)) start rev)).placeInList w.station w.occ
          (closeEpoch start w.sums.sumT w.sums.n) with
        window := none
        lastWindow := some (lastWindowOf w .closed cause s.epoch) }.raise .windowClosed := by
    rw [State.writeClose, ho]
    rfl
  have hsound : { closedOcc o w (decide (cause = WindowCause.silence)) start rev with sound := true } =
      closedOcc o w (decide (cause = WindowCause.silence)) start rev := by
    rw [← (hocc _ _ ho).1]
    rfl
  have hput := occ?_putOcc (s := s) w.occ
  obtain ⟨⟨x, y, hframe, hscan⟩, hplace⟩ := placeInList_spec
    (s := s.putOcc w.occ (closedOcc o w (decide (cause = WindowCause.silence)) start rev)) (n := w.station) (i := w.occ)
    (e := closeEpoch start w.sums.sumT w.sums.n) hst (by
      intro j p hj
      rw [hput] at hj
      split at hj
      · obtain rfl := Option.some.inj hj
        rfl
      · exact (hocc j p hj).1)
  have hown : ∀ v, (s.putOcc w.occ (closedOcc o w (decide (cause = WindowCause.silence)) start rev)).ownerOf w.station w.occ = some v ↔
      OwnsAt s v w.station w.occ := fun v => ownerOf_eq_some_iff (s := s) (fun v f hf => (hst v f hf).2) v _ _
  rw [hw]
  refine ⟨⟨x, y, _, by rw [hframe]; rfl, hscan⟩, fun j => ?_, fun v f hf hv => ?_, fun v hv => ?_⟩
  · rw [hframe]
    exact (hput j _).trans (by rw [hsound])
  · have hlist := hplace v
    rw [if_pos ((hown v).2 hv), station?_putOcc, hf] at hlist
    refine ⟨_, hlist, placeByEpoch_placed f.list fun j hj => notLater_iff hj (fun k hk => ?_) fun p hp => (hocc j p hp).2⟩
    rw [hput, if_neg hk]
  · refine (hplace v).trans ?_
    rw [if_neg (mt (hown v).1 hv), station?_putOcc]

/-- R44 to R46: the state of a close just before it, and the answer after it. -/
def closeStart (s : State) (cause : WindowCause) : State :=
  { s with front := if cause = .silence then { s.front with live := none } else s.front }

def closeAnswer (s t : State) (w : Window) (cause : WindowCause) : State :=
  if cause = .endReading then t.respond .ok (endReadingBytes w s.engine.submission) else t

theorem closeStart_of_ne {cause : WindowCause} (h : cause ≠ .silence) : closeStart s cause = s := by
  unfold closeStart
  rw [if_neg h]

theorem exec_close {c : Instr} {cause : WindowCause} {w : Window} {start elapsed rev : Nat} (hw : s.window = some w)
    (hp : w.phase = .collecting start elapsed rev) (hheld : s.resetHeld = false)
    (hc : c = .elapsedCountComplete ∧ cause = .duration ∧ w.duration * 1024 ≤ elapsed ∨
      c = .endReading ∧ cause = .endReading ∧ s.serves .endReading .ready = true ∨
      c = .silenceCountComplete ∧ cause = .silence ∧ s.part ≠ .standby ∧ ∃ g, s.front.live = some g ∧ 2048 ≤ g.silence) :
    exec c s = .next (closeAnswer s ((closeStart s cause).closeWindow w start rev cause) w cause) := by
  rcases hc with ⟨rfl, rfl, hd⟩ | ⟨rfl, rfl, hs⟩ | ⟨rfl, rfl, hpart, g, hg, hsil⟩
  · show Host.Outcome.next s.takeElapsed = _
    simp [State.takeElapsed, hw, hp, Config.ticksPerSecond, hd, closeAnswer, closeStart_of_ne]
  · rw [show exec .endReading s = .next (endReadingBody s) from hostCommand_of_serves _ hs]
    simp [endReadingBody, hw, hp, closeAnswer, closeStart_of_ne]
  · show Host.Outcome.next s.takeSilence = _
    have hm : s.mainRuns = true := by simp [State.mainRuns, hheld, hpart]
    simp [State.takeSilence, hg, hm, Config.silenceLimit, hsil, State.silenceWindow, hw, hp, closeAnswer, closeStart]

theorem ownsAt_iff_of_lists {v n i : Nat} {f : Station} (hf : s.station? v = some f) : OwnsAt s v n i ↔
    v ∈ s.matching n ∧ i ∈ f.list ∧ ∀ u g, u ∈ s.matching n → u < v → s.station? u = some g → i ∉ g.list := by
  unfold OwnsAt
  constructor
  · rintro ⟨hv, f', hf', hi, hmin⟩
    rw [hf] at hf'
    obtain rfl := Option.some.inj hf'
    exact ⟨hv, hi, hmin⟩
  · rintro ⟨hv, hi, hmin⟩
    exact ⟨hv, f, hf, hi, hmin⟩

theorem closeFlags_eq (w : Window) (silence : Bool) : closeFlags w silence =
    { short := decide (w.sums.n < 10), breaks := decide (0 < w.sums.breaks), sensorLost := silence, clamped := w.clamped,
      overload := w.overload, tiltLimit := w.tiltLimit, tiltRange := w.tiltRange, constantsChanged := w.constantsChanged,
      unqueued := false } := rfl

theorem raise_closed_overflow (ev : Events) {held : Bool} (h : held = false) :
    (ev.raise held .windowClosed).raise held .queueOverflow = { ev with pending := ev.pending ||| 0x0101 } := by
  simp [h, Events.raise, BitVec.or_assoc, Event.mask, Event.bit]

/-- What a close with its job comes to, apart from the front end and the answer. -/
theorem closeWindow_spec {w : Window} {o : Occ} {start rev : Nat} (cause : WindowCause) (hheld : s.resetHeld = false)
    (hst : ∀ v f, s.station? v = some f → f.sound = true ∧ f.damaged = false)
    (hocc : ∀ j o, s.occ? j = some o → o.sound = true ∧ o.damaged = false) (ho : s.occ? w.occ = some o)
    (hn : 1 ≤ w.sums.n) [Decidable (Dropped s.engine)] : ∃ t1 t, WindowClosed s t1 w o start rev cause ∧
      s.closeWindow w start rev cause = t ∧
      t = { t1 with
        occs := t.occs
        engine := if Dropped s.engine then s.engine else s.engine.place (automaticReduce w.occ)
        events := { s.events with pending := s.events.pending ||| if Dropped s.engine then 0x0101 else 0x0001 } } ∧
      ∀ j, t.occ? j = if j = w.occ then some { closedOcc o w (decide (cause = WindowCause.silence)) start rev with
        flags := { closeFlags w (decide (cause = WindowCause.silence)) with unqueued := decide (Dropped s.engine) } }
        else s.occ? j := by
  have hclosed := writeClose_windowClosed (start := start) (rev := rev) cause hst hocc ho
  obtain ⟨⟨x, y, a, hframe, -⟩, hocc', -, -⟩ := id hclosed
  have heng : (s.writeClose w start rev cause).engine = s.engine := by rw [hframe]
  have hown := hocc' w.occ
  rw [if_pos rfl] at hown
  refine ⟨_, _, hclosed, closeWindow_of_samples hn, ?_⟩
  by_cases hd : Dropped s.engine
  · rw [submitAutomatic_of_dropped (heng ▸ hd) hown]
    refine ⟨?_, fun j => ?_⟩
    · simp only [hframe, hd, if_true]
      rw [← raise_closed_overflow s.events hheld]
      rfl
    · rw [occ?_raise, occ?_putOcc]
      by_cases hj : j = w.occ
      · simp [hj, hd, closedOcc, (hocc _ _ ho).1]
      · rw [if_neg hj, if_neg hj, hocc', if_neg hj]
  · rw [submitAutomatic_of_not_dropped (heng ▸ hd), heng]
    refine ⟨?_, fun j => ?_⟩
    · simp only [hframe, hd, if_false, hheld, Events.raise]
      rfl
    · refine (hocc' j).trans ?_
      by_cases hj : j = w.occ
      · simp [hj, hd, closedOcc, closeFlags_eq]
      · rw [if_neg hj, if_neg hj]

/-- Settles O36: the close writes the record and its list, and its job is taken, queued or dropped. -/
theorem windowCloses : Obligations.WindowCloses := by
  intro s c cause w o start elapsed rev hi hw hp ho hn hheld hc epoch job dropped
  classical
  obtain ⟨t1, t, ⟨⟨x, y, a, hframe, hscan⟩, -, hplaced, hkept⟩, ht, htf, hocc⟩ :=
    closeWindow_spec (s := closeStart s cause) (w := w) (o := o) (start := start) (rev := rev) cause hheld
      (fun v f hf => intact_station hi hf) (fun j p hj => intact_occ hi hj) ho hn
  have hx := exec_close hw hp hheld hc
  rw [ht] at hx
  have hst : ∀ v, t.station? v = t1.station? v := fun v => by rw [htf]; rfl
  have hcases : closeAnswer s t w cause = t ∧ cause ≠ .endReading ∨
      closeAnswer s t w cause = t.respond .ok (endReadingBytes w s.engine.submission) ∧ cause = .endReading := by
    by_cases h : cause = .endReading <;> simp [closeAnswer, h]
  have hdrop : Dropped s.engine ↔ dropped := Iff.rfl
  have hrest : ∀ v, (closeAnswer s t w cause).station? v = t1.station? v := fun v => by
    rw [← hst]
    rcases hcases with ⟨h, -⟩ | ⟨h, -⟩ <;> rw [h] <;> rfl
  have hoccs : ∀ j, (closeAnswer s t w cause).occ? j = _ := fun j => by
    refine Eq.trans ?_ (hocc j)
    rcases hcases with ⟨h, -⟩ | ⟨h, -⟩ <;> rw [h] <;> rfl
  have hfields : closeAnswer s t w cause = { t with link := (closeAnswer s t w cause).link } := by
    rcases hcases with ⟨h, -⟩ | ⟨h, -⟩ <;> rw [h] <;> rfl
  rw [hframe] at htf
  have hall : closeAnswer s t w cause = { s with
      occs := t.occs, stations := x, window := none, lastWindow := some (lastWindowOf w .closed cause s.epoch)
      engine := if Dropped s.engine then s.engine else s.engine.place (automaticReduce w.occ)
      events := { s.events with pending := s.events.pending ||| if Dropped s.engine then 0x0101 else 0x0001 }
      front := (closeStart s cause).front, link := (closeAnswer s t w cause).link, scan := y } := by
    rw [hfields, htf]
    rfl
  refine ⟨_, hx, by rw [hall], fun hs => by rw [hall]; exact hscan hs, by rw [hall]; rfl, fun hne => ?_, fun he => ?_,
    fun v f hf => ⟨fun hv => ?_, fun hv => ?_⟩, fun v hv => ?_, ?_, fun j hj => ?_, by rw [hall]; rfl, ?_, fun hid => ?_,
    fun hwork hq => ?_, fun hd => ?_⟩
  · rcases hcases with ⟨h, -⟩ | ⟨-, h⟩
    · rw [h, htf]
      rfl
    · exact absurd h hne
  · rcases hcases with ⟨-, h⟩ | ⟨h, -⟩
    · exact absurd he h
    · rw [h, htf]
      simp only [State.respond_link, endReadingBytes, submission_code, if_neg (show ¬w.sums.n = 0 by omega)]
      split
      · simp [u8, beBytes, WindowOutcome.code, closeStart]
      · split <;> simp [u8, beBytes, WindowOutcome.code, closeStart]
  · obtain ⟨hm, hlist, hmin⟩ := hv
    obtain ⟨l, hl, hpl⟩ := hplaced v f hf ((ownsAt_iff_of_lists hf).2 ⟨hm, hlist, hmin⟩)
    exact ⟨l, (hrest v).trans hl, hpl⟩
  · refine (hrest v).trans ((hkept v fun hown => ?_).trans hf)
    obtain ⟨hm, hlist, hmin⟩ := (ownsAt_iff_of_lists hf).1 hown
    rcases hv with hv | hv | ⟨u, g, hu, hlt, hg, hig⟩
    · exact hv hm
    · exact hv hlist
    · exact hmin u g hu hlt hg hig
  · refine (hrest v).trans ((hkept v fun hown => ?_).trans hv)
    obtain ⟨-, f, hf, -⟩ := hown
    rw [show s.station? v = some f from hf] at hv
    cases hv
  · refine (hoccs w.occ).trans ((if_pos rfl).trans ?_)
    have hdec : decide (Dropped (closeStart s cause).engine) = decide dropped := decide_eq_decide.2 Iff.rfl
    rw [hdec]
    rfl
  · exact (hoccs j).trans (if_neg hj)
  · rw [hall]
    by_cases hd : dropped <;> simp [hd, hdrop]
  · have hnd : ¬Dropped s.engine := by simp [Dropped, hid]
    rw [hall]
    refine (if_neg hnd).trans ?_
    rw [Engine.place, if_pos hid]
    rfl
  · have hnd : ¬Dropped s.engine := by
      simp only [Dropped, hwork]
      simp
      omega
    rw [hall]
    refine (if_neg hnd).trans ?_
    rw [Engine.place, if_neg (by rw [hwork]; decide)]
    rfl
  · rw [hall]
    exact if_pos hd

end Sys2Proof.Machine
end

