-- ==== Sys2Proof/Proofs/Stations/Voids.lean ====
section
/-! SUPPORT. The marking of a record's station (R26, log 16), and what a void and a release write of the records that a
loop names (R127, R129), where the entries and the records read agree with their check values. -/

namespace Sys2Proof.Machine

open Sys2Proof

variable {s t u : State}

/-! ### Entries marked changed (R26) -/

/-- `t` has the entries of `s`, those of the ways in `P` marked changed. -/
structure EntriesMarked (s t : State) (P : Nat → Prop) : Prop where
  on : ∀ v f, s.station? v = some f → P v → t.station? v = some { f with changed := true }
  off : ∀ v f, s.station? v = some f → ¬P v → t.station? v = some f
  free : ∀ v, s.station? v = none → t.station? v = none

theorem EntriesMarked.of_stations {P : Nat → Prop} (h : t.stations = s.stations) (hP : ∀ v, ¬P v) : EntriesMarked s t P := by
  have hst : ∀ v, t.station? v = s.station? v := fun v => by rw [State.station?, State.station?, h]
  exact ⟨fun v _ _ hv => absurd hv (hP v), fun v f hf _ => (hst v).trans hf, fun v hf => (hst v).trans hf⟩

theorem EntriesMarked.congr {P Q : Nat → Prop} (h : EntriesMarked s t P) (hPQ : ∀ v, P v ↔ Q v) : EntriesMarked s t Q := by
  obtain rfl : P = Q := funext fun v => propext (hPQ v)
  exact h

theorem EntriesMarked.trans {P Q : Nat → Prop} (h : EntriesMarked s t P) (k : EntriesMarked t u Q) : EntriesMarked s u fun v => P v ∨ Q v := by
  refine ⟨fun v f hf hv => ?_, fun v f hf hv => ?_, fun v hf => k.free v (h.free v hf)⟩
  · by_cases hP : P v
    · have ht := h.on v f hf hP
      by_cases hQ : Q v
      · exact (k.on v _ ht hQ).trans rfl
      · exact k.off v _ ht hQ
    · exact k.on v _ (h.off v f hf hP) (hv.resolve_left hP)
  · rw [not_or] at hv
    exact k.off v _ (h.off v f hf hv.1) hv.2

/-- A mark changes neither number nor list. -/
theorem EntriesMarked.keeps {β : Type} {P : Nat → Prop} (h : EntriesMarked s t P) (g : Station → β)
    (hg : ∀ f, g { f with changed := true } = g f) (v : Nat) : (t.station? v).map g = (s.station? v).map g := by
  cases hf : s.station? v with
  | none => rw [h.free v hf]
  | some f =>
    by_cases hP : P v
    · rw [h.on v f hf hP, Option.map_some, Option.map_some, hg]
    · rw [h.off v f hf hP]

theorem EntriesMarked.ownsAt_iff {P : Nat → Prop} (h : EntriesMarked s t P) (v n i : Nat) : OwnsAt t v n i ↔ OwnsAt s v n i :=
  ownsAt_congr (h.keeps _ fun _ => rfl) v n i

theorem markChanged_stationsScan (w : Nat) : StationsScan s (s.markChanged w) := by
  unfold State.markChanged
  split
  · exact putChanged_stationsScan w _
  · exact .refl s

theorem markChanged_marked {w : Nat} (hs : ∀ f, s.station? w = some f → f.sound = true) :
    EntriesMarked s (s.markChanged w) fun v => v = w := by
  unfold State.markChanged
  cases hw : s.station? w with
  | none =>
    refine ⟨fun v f hf hv => ?_, fun v f hf _ => hf, fun v hf => hf⟩
    rw [hv, hw] at hf
    cases hf
  | some e =>
    have hsound := hs e hw
    refine ⟨fun v f hf hv => ?_, fun v f hf hv => ?_, fun v hf => ?_⟩
    · subst hv
      obtain rfl : e = f := by simpa [hw] using hf
      simp [station?_putChanged, hsound]
    · simpa [station?_putChanged, hv] using hf
    · have hv : v ≠ w := fun h => by simp [h, hw] at hf
      simpa [station?_putChanged, hv] using hf

/-- The entries agree with their check values and carry no mark. -/
def EntriesRead (s : State) : Prop := ∀ v f, s.station? v = some f → f.sound = true ∧ f.damaged = false

theorem EntriesMarked.entriesRead {P : Nat → Prop} (h : EntriesMarked s t P) (hs : EntriesRead s) : EntriesRead t := by
  intro v f hf
  have hk := h.keeps (fun f => (f.sound, f.damaged)) (fun _ => rfl) v
  rw [hf] at hk
  obtain ⟨e, he, heq⟩ := Option.map_eq_some_iff.1 hk.symm
  have := hs v e he
  simp only [Prod.mk.injEq] at heq
  rw [← heq.1, ← heq.2]
  exact this

theorem markOwner_spec (hs : EntriesRead s) (n i : Nat) : StationsScan s (s.markOwner n i) ∧
    EntriesMarked s (s.markOwner n i) fun v => OwnsAt s v n i := by
  have hread : s.checkStations (waysOf n) = s := checkStations_of_sound fun v _ f hf => (hs v f hf).1
  have howner := ownerOf_eq_some_iff (s := s) fun v f hf => (hs v f hf).2
  cases ho : s.ownerOf n i with
  | none =>
    have hm : s.markOwner n i = s := by simp [State.markOwner, hread, ho]
    rw [hm]
    refine ⟨.refl s, .of_stations rfl fun v hv => ?_⟩
    rw [(howner v n i).2 hv] at ho
    cases ho
  | some w =>
    have hm : s.markOwner n i = s.markChanged w := by simp [State.markOwner, hread, ho]
    rw [hm]
    refine ⟨markChanged_stationsScan w, (markChanged_marked fun f hf => (hs w f hf).1).congr fun v => ?_⟩
    rw [← howner, ho, Option.some.injEq, eq_comm]

/-! ### The records that a void writes (R127) -/

/-- The records read agree with their check values, but for those that carry the mark while MEMORY_ERROR stands pending:
a further read of one of these changes nothing. -/
def PoolRead (s : State) : Prop := ∀ j o, s.occ? j = some o → o.sound = true ∨ o.damaged = true ∧ s.raise .memoryError = s

theorem poolRead_of_sound (h : ∀ j o, s.occ? j = some o → o.sound = true) : PoolRead s := fun j o ho => .inl (h j o ho)

theorem checkOcc_of_poolRead (h : PoolRead s) (i : Nat) :
    (∃ a, s.checkOcc i = { s with occs := a }) ∧ ∀ j, (s.checkOcc i).occ? j = s.occ? j := by
  cases ho : s.occ? i with
  | none =>
    rw [checkOcc_of_sound fun o h => by simp [ho] at h]
    exact ⟨⟨_, rfl⟩, fun _ => rfl⟩
  | some o =>
    rcases h i o ho with hs | ⟨hd, hev⟩
    · rw [checkOcc_of_sound fun p hp => by simp_all]
      exact ⟨⟨_, rfl⟩, fun _ => rfl⟩
    · by_cases hs : o.sound = true
      · rw [checkOcc_of_sound fun p hp => by simp_all]
        exact ⟨⟨_, rfl⟩, fun _ => rfl⟩
      · rw [checkOcc_of_unsound ho (by simpa using hs)]
        have hsame : { o with damaged := true } = o := by rw [← hd]
        have hevents : s.events.raise s.resetHeld .memoryError = s.events := congrArg State.events hev
        refine ⟨⟨slotSet s.occs i o, ?_⟩, fun j => ?_⟩
        · rw [hsame]
          show { s.setOcc i o with events := s.events.raise s.resetHeld .memoryError } = _
          rw [hevents]
          rfl
        · rw [occ?_raise, occ?_setOcc, hsame]
          by_cases hj : j = i
          · rw [if_pos hj, hj, ho]
          · rw [if_neg hj]

/-- R127: what the voids of loops leave of a record: `M` lists their members, and `E` each loop with its open endpoint. -/
def voidedOcc (M : List Nat) (E : List (Nat × Nat)) (j : Nat) (o : Occ) : Occ :=
  { (if j ∈ M then { dropDrift o with memberOf := none } else o) with
    opens := o.opens.filter fun l => (l, j) ∉ E }

theorem dropDrift_fields (o : Occ) : dropDrift o = { o with drift := (dropDrift o).drift, flags := (dropDrift o).flags } := by
  unfold dropDrift
  split <;> rfl

theorem voidedOcc_frame (M : List Nat) (E : List (Nat × Nat)) (j : Nat) (o : Occ) : voidedOcc M E j o =
    { o with memberOf := (voidedOcc M E j o).memberOf, opens := (voidedOcc M E j o).opens,
             drift := (voidedOcc M E j o).drift, flags := (voidedOcc M E j o).flags } := by
  unfold voidedOcc
  split
  · rw [dropDrift_fields]
  · rfl

theorem voidedOcc_nil (j : Nat) (o : Occ) : voidedOcc [] [] j o = o := by
  have : o.opens.filter (fun l => (l, j) ∉ ([] : List (Nat × Nat))) = o.opens := by cases o.opens <;> simp
  rw [voidedOcc, if_neg List.not_mem_nil, this]

theorem dropDrift_idem (o : Occ) (m : Option Nat) (p : Option Nat) :
    dropDrift { dropDrift o with memberOf := m, opens := p } = { dropDrift o with memberOf := m, opens := p } := by
  unfold dropDrift
  by_cases h : o.state = .final <;> simp [h, withoutDrift, clearDriftFlags]

theorem voidedOcc_voidedOcc (M M' : List Nat) (E E' : List (Nat × Nat)) (j : Nat) (o : Occ) :
    voidedOcc M' E' j (voidedOcc M E j o) = voidedOcc (M ++ M') (E ++ E') j o := by
  have hopens : (voidedOcc M E j o).opens.filter (fun l => (l, j) ∉ E') = o.opens.filter fun l => (l, j) ∉ E ++ E' := by
    have hstep : (voidedOcc M E j o).opens = o.opens.filter fun l => (l, j) ∉ E := rfl
    rw [hstep, Option.filter_filter]
    congr 1
    funext l
    simp
  have hmem : (if j ∈ M' then { dropDrift (voidedOcc M E j o) with memberOf := none } else voidedOcc M E j o) =
      { (if j ∈ M ++ M' then { dropDrift o with memberOf := none } else o) with opens := (voidedOcc M E j o).opens } := by
    by_cases hM : j ∈ M <;> by_cases hM' : j ∈ M'
    · simp only [voidedOcc, hM, hM', if_true, dropDrift_idem, List.mem_append, true_or]
    · simp [voidedOcc, hM, hM']
    · simp only [voidedOcc, hM, hM', if_true, if_false, List.mem_append, or_true, dropDrift]
      by_cases hf : o.state = .final <;> simp [hf, withoutDrift]
    · simp [voidedOcc, hM, hM']
  rw [voidedOcc, hopens, hmem]
  rfl

/-- R127: a record whose station a void marks: an undamaged member, or the open endpoint of a loop that its opens-loop field names. -/
def VoidNames (M : List Nat) (E : List (Nat × Nat)) (j : Nat) (o : Occ) : Prop :=
  o.damaged = false ∧ (j ∈ M ∨ ∃ l, (l, j) ∈ E ∧ o.opens = some l)

/-! ### Records rewritten, and the stations of some of them marked -/

/-- `t` is `s` with each record `o` at `j` rewritten as `W j o` and, by the ownership `own`, the stations of those that
`N` names marked changed; with the window rewritten by `g`, and the loops of `F` FREE. A record that fails its check is
followed no further than that it carries the mark. -/
structure Rewrites (own : State → Nat → Nat → Nat → Prop) (s t : State) (W : Nat → Occ → Occ) (N : Nat → Occ → Prop)
    (g : Window → Window) (F : List Nat) : Prop where
  frame : ∃ x y a, t = { s with
    stations := x, scan := y, occs := a, loops := s.loops.filter fun p => p.1 ∉ F
    expiryDue := s.expiryDue.filter (· ∉ F), window := s.window.map g } ∧ (s.part ≠ .starting → y = s.scan)
  keeps : ∀ j o, (W j o).station = o.station ∧ (W j o).damaged = o.damaged ∧ (W j o).sound = o.sound
  marked : EntriesMarked s t fun v => ∃ j o, s.occ? j = some o ∧ N j o ∧ own s v o.station j
  occ : ∀ j o, s.occ? j = some o → o.sound = true → t.occ? j = some (W j o)
  failing : ∀ j o, s.occ? j = some o → o.damaged = true → ∃ p, t.occ? j = some p ∧ p.damaged = true
  free : ∀ j, s.occ? j = none → t.occ? j = none

section

variable {own : State → Nat → Nat → Nat → Prop} {W W' : Nat → Occ → Occ} {N N' : Nat → Occ → Prop}
  {g g' : Window → Window} {F F' : List Nat}

theorem Rewrites.congr (h : Rewrites own s t W N g F) (hW : ∀ j o, W j o = W' j o) (hN : ∀ j o, N j o ↔ N' j o)
    (hg : ∀ w, g w = g' w) : Rewrites own s t W' N' g' F := by
  obtain rfl : W = W' := funext fun j => funext (hW j)
  obtain rfl : N = N' := funext fun j => funext fun o => propext (hN j o)
  obtain rfl : g = g' := funext hg
  exact h

theorem Rewrites.poolRead (h : Rewrites own s t W N g F) (hp : PoolRead s) : PoolRead t := by
  intro j p hj
  obtain ⟨x, y, a, hframe, -⟩ := h.frame
  cases ho : s.occ? j with
  | none =>
    rw [h.free j ho] at hj
    cases hj
  | some o =>
    by_cases hs : o.sound = true
    · rw [h.occ j o ho hs] at hj
      obtain rfl := Option.some.inj hj
      exact .inl ((h.keeps j o).2.2.trans hs)
    · obtain ⟨hd, hev⟩ := (hp j o ho).resolve_left hs
      obtain ⟨q, hq, hqd⟩ := h.failing j o ho hd
      rw [hj] at hq
      obtain rfl := Option.some.inj hq
      have hevents : s.events.raise s.resetHeld .memoryError = s.events := congrArg State.events hev
      refine .inr ⟨hqd, ?_⟩
      rw [hframe]
      simp only [State.raise, hevents]

theorem Rewrites.entriesRead (h : Rewrites own s t W N g F) (hs : EntriesRead s) : EntriesRead t := h.marked.entriesRead hs

/-- One rewriting after another; the second names no record that fails its check. -/
theorem Rewrites.trans (hown : ∀ {s t : State} {P : Nat → Prop}, EntriesMarked s t P → ∀ v n j, own t v n j ↔ own s v n j)
    (h : Rewrites own s t W N g F) (k : Rewrites own t u W' N' g' F') (hp : PoolRead s)
    (hN : (∀ j o, s.occ? j = some o → o.sound = true) ∨ ∀ j o, N' j o → o.damaged = false) :
    Rewrites own s u (fun j o => W' j (W j o)) (fun j o => N j o ∨ N' j (W j o)) (fun w => g' (g w)) (F ++ F') := by
  have hsound : ∀ j o, s.occ? j = some o → N' j (W j o) → o.sound = true := by
    intro j o ho hn
    rcases hN with hN | hN
    · exact hN j o ho
    · have hd : o.damaged = false := (h.keeps j o).2.1.symm.trans (hN _ _ hn)
      exact (hp j o ho).resolve_right fun hr => by simp [hd] at hr
  have hback : ∀ j p, t.occ? j = some p → N' j p → ∃ o, s.occ? j = some o ∧ p = W j o := by
    intro j p hj hn
    cases ho : s.occ? j with
    | none =>
      rw [h.free j ho] at hj
      cases hj
    | some o =>
      refine ⟨o, rfl, ?_⟩
      by_cases hs : o.sound = true
      · rw [h.occ j o ho hs] at hj
        exact (Option.some.inj hj).symm
      · obtain ⟨q, hq, hqd⟩ := h.failing j o ho ((hp j o ho).resolve_left hs).1
        rw [hj] at hq
        obtain rfl := Option.some.inj hq
        rcases hN with hN | hN
        · exact absurd (hN j o ho) hs
        · rw [hN j p hn] at hqd
          cases hqd
  obtain ⟨x, y, a, hframe, hscan⟩ := h.frame
  obtain ⟨x', y', a', hframe', hscan'⟩ := k.frame
  have hpart : t.part = s.part := by rw [hframe]
  have hts : t.scan = y := by rw [hframe]
  refine ⟨⟨x', y', a', ?_, fun hne => ?_⟩, fun j o => ?_, ?_, fun j o ho hs => ?_, fun j o ho hd => ?_,
    fun j ho => k.free j (h.free j ho)⟩
  · rw [hframe', hframe]
    simp only [List.filter_filter, Option.map_map, Function.comp_def, List.mem_append, not_or, Bool.decide_and,
      Bool.and_comm]
  · rw [hscan' (by rw [hpart]; exact hne), hts, hscan hne]
  · obtain ⟨h1, h2, h3⟩ := h.keeps j o
    obtain ⟨k1, k2, k3⟩ := k.keeps j (W j o)
    exact ⟨k1.trans h1, k2.trans h2, k3.trans h3⟩
  · refine (h.marked.trans k.marked).congr fun v => ⟨?_, ?_⟩
    · rintro (⟨j, o, ho, hn, hv⟩ | ⟨j, p, hj, hn, hv⟩)
      · exact ⟨j, o, ho, .inl hn, hv⟩
      · obtain ⟨o, ho, rfl⟩ := hback j p hj hn
        rw [(h.keeps j o).1] at hv
        exact ⟨j, o, ho, .inr hn, (hown h.marked v _ j).1 hv⟩
    · rintro ⟨j, o, ho, hn | hn, hv⟩
      · exact .inl ⟨j, o, ho, hn, hv⟩
      · refine .inr ⟨j, W j o, h.occ j o ho (hsound j o ho hn), hn, ?_⟩
        rw [(h.keeps j o).1]
        exact (hown h.marked v _ j).2 hv
  · exact k.occ j _ (h.occ j o ho hs) ((h.keeps j o).2.2.trans hs)
  · obtain ⟨p, hj, hpd⟩ := h.failing j o ho hd
    exact k.failing j p hj hpd

/-- A rewriting that names no record of the pool. -/
theorem Rewrites.of_unnamed (hframe : ∃ a, t = { s with occs := a, window := s.window.map g })
    (hocc : ∀ j, t.occ? j = s.occ? j) (hN : ∀ j o, s.occ? j = some o → W j o = o ∧ ¬N j o)
    (hW : ∀ j o, (W j o).station = o.station ∧ (W j o).damaged = o.damaged ∧ (W j o).sound = o.sound) :
    Rewrites own s t W N g [] := by
  obtain ⟨a, rfl⟩ := hframe
  refine ⟨⟨s.stations, s.scan, a, by simp, fun _ => rfl⟩, hW, .of_stations rfl ?_, fun j o ho _ => ?_,
    fun j o ho hd => ⟨o, (hocc j).trans ho, hd⟩, fun j ho => (hocc j).trans ho⟩
  · rintro v ⟨j, o, ho, hn, -⟩
    exact (hN j o ho).2 hn
  · rw [hocc, ho, (hN j o ho).1]

end

theorem ownsAt_stable {P : Nat → Prop} (h : EntriesMarked s t P) (v n j : Nat) : OwnsAt t v n j ↔ OwnsAt s v n j :=
  h.ownsAt_iff v n j

/-- One record is written, and then no more than entries are marked. -/
theorem Rewrites.of_mark {own : State → Nat → Nat → Nat → Prop} {i : Nat} {o : Occ} {W : Nat → Occ → Occ}
    {N : Nat → Occ → Prop} {g : Window → Window} (ho : s.occ? i = some o)
    (hframe : ∃ a, t = { s with occs := a, window := s.window.map g })
    (hocc : ∀ j, t.occ? j = if j = i then some { W i o with sound := true } else s.occ? j)
    (hW : ∀ j o, (W j o).station = o.station ∧ (W j o).damaged = o.damaged ∧ (W j o).sound = o.sound)
    (hother : ∀ j p, j ≠ i → W j p = p ∧ ¬N j p) (hscan : StationsScan t u)
    (hmark : EntriesMarked t u fun v => N i o ∧ own s v o.station i) : Rewrites own s u W N g [] := by
  obtain ⟨a, rfl⟩ := hframe
  obtain ⟨x, y, rfl, hsame⟩ := hscan
  refine ⟨⟨x, y, a, by simp, hsame⟩, hW, ?_, fun j p hj hs => (hocc j).trans ?_, fun j p hj hd => ?_,
    fun j hj => (hocc j).trans ?_⟩
  · refine EntriesMarked.congr (P := fun v => N i o ∧ own s v o.station i) ⟨hmark.on, hmark.off, hmark.free⟩ fun v =>
      ⟨fun ⟨hn, hv⟩ => ⟨i, o, ho, hn, hv⟩, ?_⟩
    rintro ⟨j, p, hj, hn, hv⟩
    obtain rfl : j = i := by_contra fun hji => (hother j p hji).2 hn
    rw [hj] at ho
    obtain rfl := Option.some.inj ho
    exact ⟨hn, hv⟩
  · by_cases hji : j = i
    · subst hji
      rw [hj] at ho
      obtain rfl := Option.some.inj ho
      rw [if_pos rfl, ← (hW j p).2.2.trans hs]
    · rw [if_neg hji, hj, (hother j p hji).1]
  · by_cases hji : j = i
    · subst hji
      rw [hj] at ho
      obtain rfl := Option.some.inj ho
      exact ⟨_, (hocc j).trans (if_pos rfl), (hW j p).2.1.trans hd⟩
    · exact ⟨p, (hocc j).trans ((if_neg hji).trans hj), hd⟩
  · have hji : j ≠ i := by
      rintro rfl
      simp [hj] at ho
    rw [if_neg hji, hj]

/-- One record is written, and its station marked unless it carries the damaged mark. -/
theorem Rewrites.of_put {i : Nat} {o : Occ} {W : Nat → Occ → Occ} {N : Nat → Occ → Prop} {g : Window → Window}
    (hs : EntriesRead s) (ho : s.occ? i = some o) (hframe : ∃ a, t = { s with occs := a, window := s.window.map g })
    (hocc : ∀ j, t.occ? j = if j = i then some { W i o with sound := true } else s.occ? j)
    (hW : ∀ j o, (W j o).station = o.station ∧ (W j o).damaged = o.damaged ∧ (W j o).sound = o.sound)
    (hother : ∀ j p, j ≠ i → W j p = p ∧ ¬N j p) (hN : N i o ↔ o.damaged = false) :
    Rewrites OwnsAt s (if o.damaged then t else t.markOwner o.station i) W N g [] := by
  cases hd : o.damaged with
  | true =>
    exact .of_mark ho hframe hocc hW hother (.refl t) (.of_stations rfl fun v hv => by simp [hN.1 hv.1] at hd)
  | false =>
    have hst : ∀ v, t.station? v = s.station? v := by
      obtain ⟨a, rfl⟩ := hframe
      exact fun _ => rfl
    obtain ⟨hscan, hmarked⟩ := markOwner_spec (s := t) (fun v f hf => hs v f ((hst v).symm.trans hf)) o.station i
    refine .of_mark ho hframe hocc hW hother hscan (hmarked.congr fun v => ?_)
    have hown : OwnsAt t v o.station i ↔ OwnsAt s v o.station i := ownsAt_congr (fun w => by rw [hst]) v o.station i
    exact ⟨fun h => ⟨hN.2 hd, hown.1 h⟩, fun h => hown.2 h.2⟩

end Sys2Proof.Machine
end

