-- ==== Sys2Proof/Proofs/Stations/LoopEnds.lean ====
section
/-! SUPPORT. VOID LOOP and RELEASE LOOP (R127 to R129): the writes of a void and of a release, as rewritings of the pool. -/

namespace Sys2Proof.Machine

open Sys2Proof

variable {s t u : State}

/-! ### One record of a voided loop -/

/-- The window's copy of its record's membership, where a void takes the records of `M` from their loop (log 28). -/
def windowVoided (M : List Nat) (w : Window) : Window := if w.occ ∈ M then { w with memberOf := none } else w

theorem windowVoided_windowVoided (M M' : List Nat) (w : Window) :
    windowVoided M' (windowVoided M w) = windowVoided (M ++ M') w := by
  simp only [windowVoided, List.mem_append]
  by_cases h : w.occ ∈ M <;> by_cases h' : w.occ ∈ M' <;> simp [h, h']

theorem voidedOcc_keeps (M : List Nat) (E : List (Nat × Nat)) (j : Nat) (o : Occ) :
    (voidedOcc M E j o).station = o.station ∧ (voidedOcc M E j o).damaged = o.damaged ∧
      (voidedOcc M E j o).sound = o.sound := by
  rw [voidedOcc_frame]
  exact ⟨rfl, rfl, rfl⟩

theorem voidedOcc_of_unnamed {M : List Nat} {E : List (Nat × Nat)} {j : Nat} {o : Occ} (hM : j ∉ M)
    (hE : ∀ l, o.opens = some l → (l, j) ∉ E) : voidedOcc M E j o = o := by
  have : o.opens.filter (fun l => (l, j) ∉ E) = o.opens := by
    cases ho : o.opens with
    | none => rfl
    | some l => simp [hE l ho]
  rw [voidedOcc, if_neg hM, this]

theorem voidedOcc_member (i : Nat) (o : Occ) : voidedOcc [i] [] i o = { dropDrift o with memberOf := none } := by
  have : o.opens.filter (fun l => (l, i) ∉ ([] : List (Nat × Nat))) = (dropDrift o).opens := by
    rw [dropDrift_fields]
    cases o.opens <;> simp
  rw [voidedOcc, if_pos List.mem_cons_self, this]

theorem voidNames_voidedOcc (M M' : List Nat) (E E' : List (Nat × Nat)) (j : Nat) (o : Occ) :
    VoidNames M E j o ∨ VoidNames M' E' j (voidedOcc M E j o) ↔ VoidNames (M ++ M') (E ++ E') j o := by
  have hd : (voidedOcc M E j o).damaged = o.damaged := (voidedOcc_keeps M E j o).2.1
  have hopens : ∀ l, (voidedOcc M E j o).opens = some l ↔ o.opens = some l ∧ (l, j) ∉ E := by
    intro l
    simp [voidedOcc, Option.filter_eq_some_iff]
  simp only [VoidNames, hd, hopens, List.mem_append]
  constructor
  · rintro (⟨h, h' | ⟨l, hl, ho⟩⟩ | ⟨h, h' | ⟨l, hl, ho, -⟩⟩)
    · exact ⟨h, .inl (.inl h')⟩
    · exact ⟨h, .inr ⟨l, .inl hl, ho⟩⟩
    · exact ⟨h, .inl (.inr h')⟩
    · exact ⟨h, .inr ⟨l, .inr hl, ho⟩⟩
  · rintro ⟨h, (h' | h') | ⟨l, hl, ho⟩⟩
    · exact .inl ⟨h, .inl h'⟩
    · exact .inr ⟨h, .inl h'⟩
    · by_cases hE : (l, j) ∈ E
      · exact .inl ⟨h, .inr ⟨l, hE, ho⟩⟩
      · exact .inr ⟨h, .inr ⟨l, hl.resolve_left hE, ho, hE⟩⟩

theorem voidMember_rewrites (hs : EntriesRead s) (hp : PoolRead s) (i : Nat) :
    Rewrites OwnsAt s (s.voidMember i) (voidedOcc [i] []) (VoidNames [i] []) (windowVoided [i]) [] := by
  obtain ⟨⟨a, hframe⟩, hocc⟩ := checkOcc_of_poolRead hp i
  have hg : windowVoided [i] = fun w => if w.occ = i then { w with memberOf := none } else w := by
    funext w
    simp [windowVoided]
  have hwindow : (s.checkOcc i).unwindow i = { s with occs := a, window := s.window.map (windowVoided [i]) } := by
    rw [hg, hframe]
    rfl
  have hoccs : ∀ j, ((s.checkOcc i).unwindow i).occ? j = s.occ? j := fun j => hocc j
  have hother : ∀ j p, j ≠ i → voidedOcc [i] [] j p = p ∧ ¬VoidNames [i] [] j p := fun j p hj =>
    ⟨voidedOcc_of_unnamed (by simpa using hj) (by simp), by simp [VoidNames, hj]⟩
  unfold State.voidMember
  simp only [hoccs]
  cases ho : s.occ? i with
  | none =>
    refine .of_unnamed ⟨a, hwindow⟩ hoccs (fun j o hj => hother j o ?_) (voidedOcc_keeps _ _)
    rintro rfl
    simp [ho] at hj
  | some o =>
    refine .of_put (g := windowVoided [i]) hs ho ⟨_, by rw [hwindow]; rfl⟩ (fun j => ?_) (voidedOcc_keeps _ _) hother
      (by simp [VoidNames])
    rw [occ?_putOcc, hoccs, voidedOcc_member]

theorem windowVoided_nil (x : Option Window) : x.map (windowVoided []) = x := by
  cases x <;> simp [windowVoided]

theorem voidOpenEnd_rewrites (hs : EntriesRead s) (hp : PoolRead s) (l i : Nat) :
    Rewrites OwnsAt s (s.voidOpenEnd l i) (voidedOcc [] [(l, i)]) (VoidNames [] [(l, i)]) (windowVoided []) [] := by
  obtain ⟨⟨a, hframe⟩, hocc⟩ := checkOcc_of_poolRead hp i
  have hunchanged : ∀ b, { s with occs := b } = { s with occs := b, window := s.window.map (windowVoided []) } := fun b => by
    rw [windowVoided_nil]
  have hother : ∀ j p, (j = i → p.opens ≠ some l) →
      voidedOcc [] [(l, i)] j p = p ∧ ¬VoidNames [] [(l, i)] j p := by
    intro j p hj
    have hE : ∀ k, p.opens = some k → (k, j) ∉ [(l, i)] := by
      intro k hk h
      obtain ⟨rfl, rfl⟩ : k = l ∧ j = i := by simpa using h
      exact hj rfl hk
    refine ⟨voidedOcc_of_unnamed List.not_mem_nil hE, ?_⟩
    rintro ⟨-, h | ⟨k, hk, h⟩⟩
    · exact List.not_mem_nil h
    · exact hE k h hk
  unfold State.voidOpenEnd
  simp only [hocc]
  cases ho : s.occ? i with
  | none =>
    refine .of_unnamed ⟨a, hframe.trans (hunchanged a)⟩ hocc (fun j o hj => hother j o ?_) (voidedOcc_keeps _ _)
    rintro rfl
    simp [ho] at hj
  | some o =>
    by_cases hl : o.opens = some l
    · simp only [if_pos hl]
      have hput : ∀ x, (s.checkOcc i).putOcc i x = { s with occs := ((s.checkOcc i).putOcc i x).occs } := fun x => by
        rw [hframe]
        rfl
      refine .of_put (g := windowVoided []) hs ho ⟨_, (hput _).trans (hunchanged _)⟩
        (fun j => ?_) (voidedOcc_keeps _ _) (fun j p hj => hother j p fun h => absurd h hj) (by simp [VoidNames, hl])
      rw [occ?_putOcc, hocc]
      simp [voidedOcc, hl, Option.filter]
    · simp only [if_neg hl]
      refine .of_unnamed ⟨a, hframe.trans (hunchanged a)⟩ hocc (fun j p hj => hother j p ?_) (voidedOcc_keeps _ _)
      rintro rfl
      rw [ho] at hj
      obtain rfl := Option.some.inj hj
      exact hl

/-! ### A voided loop -/

theorem freeLoop_rewrites {own : State → Nat → Nat → Nat → Prop} (l : Nat) :
    Rewrites own s (s.freeLoop l) (voidedOcc [] []) (VoidNames [] []) (windowVoided []) [l] := by
  have hocc : ∀ j o, s.occ? j = some o → (s.freeLoop l).occ? j = some o := fun j o ho => ho
  refine ⟨⟨s.stations, s.scan, s.occs, ?_, fun _ => rfl⟩, voidedOcc_keeps _ _, .of_stations rfl ?_, fun j o ho _ => ?_,
    fun j o ho hd => ⟨o, ho, hd⟩, fun j ho => ho⟩
  · simp [State.freeLoop, slotErase, windowVoided_nil]
  · rintro v ⟨j, o, -, hn, -⟩
    simp [VoidNames] at hn
  · rw [voidedOcc_nil]
    exact ho

theorem Rewrites.then_void {M M' : List Nat} {E E' : List (Nat × Nat)} {F F' : List Nat}
    (h : Rewrites OwnsAt s t (voidedOcc M E) (VoidNames M E) (windowVoided M) F)
    (k : Rewrites OwnsAt t u (voidedOcc M' E') (VoidNames M' E') (windowVoided M') F') (hp : PoolRead s) :
    Rewrites OwnsAt s u (voidedOcc (M ++ M') (E ++ E')) (VoidNames (M ++ M') (E ++ E')) (windowVoided (M ++ M')) (F ++ F') :=
  (h.trans ownsAt_stable k hp (.inr fun _ _ hn => hn.1)).congr (fun j o => voidedOcc_voidedOcc M M' E E' j o)
    (fun j o => voidNames_voidedOcc M M' E E' j o) (windowVoided_windowVoided M M')

theorem Rewrites.void_refl : Rewrites OwnsAt s s (voidedOcc [] []) (VoidNames [] []) (windowVoided []) [] := by
  refine .of_unnamed ⟨s.occs, ?_⟩ (fun _ => rfl) (fun j o _ => ⟨voidedOcc_nil j o, ?_⟩) (voidedOcc_keeps _ _)
  · rw [windowVoided_nil]
  · simp [VoidNames]

theorem voidMembers_rewrites (M : List Nat) (hs : EntriesRead s) (hp : PoolRead s) :
    Rewrites OwnsAt s (M.foldl State.voidMember s) (voidedOcc M []) (VoidNames M []) (windowVoided M) [] := by
  induction M generalizing s with
  | nil => exact .void_refl
  | cons i M ih =>
    have hi := voidMember_rewrites hs hp i
    exact hi.then_void (ih (hi.entriesRead hs) (hi.poolRead hp)) hp

theorem voidSound_rewrites (hs : EntriesRead s) (hp : PoolRead s) {l : Nat} {r : Loop} (hr : s.loop? l = some r) :
    Rewrites OwnsAt s (s.voidSound l) (voidedOcc r.members [(l, r.openEnd)]) (VoidNames r.members [(l, r.openEnd)])
      (windowVoided r.members) [l] := by
  have hm := voidMembers_rewrites r.members hs hp
  have he := hm.then_void (voidOpenEnd_rewrites (hm.entriesRead hs) (hm.poolRead hp) l r.openEnd) hp
  have hf := he.then_void (freeLoop_rewrites l) hp
  simp only [List.append_nil, List.nil_append] at hf
  simp only [State.voidSound, hr]
  exact hf

/-! ### What the claims say of a rewriting -/

theorem Rewrites.loop? {own : State → Nat → Nat → Nat → Prop} {W : Nat → Occ → Occ} {N : Nat → Occ → Prop}
    {g : Window → Window} {F : List Nat} (h : Rewrites own s t W N g F) (k : Nat) :
    t.loop? k = if k ∈ F then none else s.loop? k := by
  obtain ⟨x, y, a, hframe, -⟩ := h.frame
  rw [hframe]
  show slotGet (s.loops.filter fun p => p.1 ∉ F) k = if k ∈ F then none else slotGet s.loops k
  induction s.loops with
  | nil => simp [slotGet]
  | cons p ls ih => by_cases hp : p.1 ∈ F <;> by_cases hk : p.1 = k <;> simp_all [slotGet]

theorem loopMarks_of_rewrites {W : Nat → Occ → Occ} {N : Nat → Occ → Prop} {g : Window → Window} {F : List Nat}
    {l : Nat} {r : Loop} (h : Rewrites OwnsAt s t W N g F)
    (hN : ∀ i o, s.occ? i = some o → (N i o ↔ i ∈ r.members ∨ i = r.openEnd ∧ o.opens = some l)) :
    Claims.LoopMarks s t l r := by
  have hiff : ∀ v, (∃ j o, s.occ? j = some o ∧ N j o ∧ OwnsAt s v o.station j) ↔ ∃ i o, s.occ? i = some o ∧
      (i ∈ r.members ∨ i = r.openEnd ∧ o.opens = some l) ∧ Claims.Owns s v i := by
    intro v
    constructor
    · rintro ⟨j, o, ho, hn, hm, f, hf, hown⟩
      exact ⟨j, o, ho, (hN j o ho).1 hn, o, f, ho, hm, hf, hown⟩
    · rintro ⟨j, o, ho, hn, p, f, hp, hm, hf, hown⟩
      rw [ho] at hp
      obtain rfl := Option.some.inj hp
      exact ⟨j, o, ho, (hN j o ho).2 hn, hm, f, hf, hown⟩
  have hmarked := h.marked.congr hiff
  exact ⟨fun v f hf => ⟨hmarked.on v f hf, hmarked.off v f hf⟩, hmarked.free⟩

theorem entriesRead_of_intact (h : s.intact = true) : EntriesRead s := fun _ _ hf => intact_station h hf

theorem poolRead_of_intact (h : s.intact = true) : PoolRead s := fun _ _ ho => .inl (intact_occ h ho).1

theorem exec_voidLoop {l : Nat} (h : s.serves (.voidLoop l) .ready = true) :
    exec (.voidLoop l) s = .next (voidLoopBody l s) := hostCommand_of_serves _ h

theorem walks_iff (l : Nat) (r : Loop) : s.walks l r = true ↔ r.state = .closed ∧ s.recomputing l = true := by
  simp [State.walks]

theorem voidedOcc_fields (M : List Nat) (l e j : Nat) (o : Occ) : voidedOcc M [(l, e)] j o = { o with
    memberOf := if j ∈ M then none else o.memberOf
    opens := if j = e ∧ o.opens = some l then none else o.opens
    drift := if j ∈ M ∧ o.state ≠ .final then none else o.drift
    flags := if j ∈ M ∧ o.state ≠ .final then { o.flags with driftHigh := false, noDrift := false } else o.flags } := by
  have hopens : o.opens.filter (fun k => (k, j) ∉ [(l, e)]) = if j = e ∧ o.opens = some l then none else o.opens := by
    cases ho : o.opens with
    | none => simp
    | some k => by_cases hk : k = l <;> by_cases hj : j = e <;> simp [Option.filter, hk, hj]
  rw [voidedOcc, hopens]
  by_cases hM : j ∈ M <;> by_cases hf : o.state = .final <;>
    simp [hM, hf, dropDrift, withoutDrift, clearDriftFlags]

theorem voidLoop_claim : Claims.VoidLoop := by
  intro s l r hs hi hl hr
  have hrd := (intact_loop hi hr).2
  have hbody : ¬(r.state = .closing ∨ r.state = .closed ∧ s.recomputing l = true) →
      voidLoopBody l s = (s.voidSound l).respond .ok (u16 r.members.length) := fun hb => by
    simp [voidLoopBody, Config.loops, hl, checkLoop_of_intact hi, hr, hrd, walks_iff, not_or.1 hb]
  refine ⟨fun hb => ?_, fun hb => ?_⟩
  · rw [exec_voidLoop hs]
    simp [voidLoopBody, Config.loops, hl, checkLoop_of_intact hi, hr, hrd, walks_iff, hb]
  · have hrw := voidSound_rewrites (entriesRead_of_intact hi) (poolRead_of_intact hi) hr
    obtain ⟨x, y, a, hframe, hscan⟩ := hrw.frame
    refine ⟨_, (exec_voidLoop hs).trans (congrArg _ (hbody hb)), ?_, ?_, ?_, ?_, fun k hk => ?_, fun i o ho => ?_, hrw.free⟩
    · rw [hframe, hscan (by rw [part_of_serves_ready hs]; decide)]
      simp only [State.respond, List.mem_singleton]
      rfl
    · refine loopMarks_of_rewrites (N := VoidNames r.members [(l, r.openEnd)]) (t := s.voidSound l) hrw fun i o ho => ?_
      have hd := (intact_occ hi ho).2
      simp only [VoidNames, hd, true_and, List.mem_singleton, Prod.mk.injEq]
      refine or_congr_right ⟨?_, fun ⟨h, h'⟩ => ⟨l, ⟨rfl, h⟩, h'⟩⟩
      rintro ⟨k, ⟨rfl, h⟩, h'⟩
      exact ⟨h, h'⟩
    · rw [hframe]
      rfl
    · exact (hrw.loop? l).trans (if_pos List.mem_cons_self)
    · exact (hrw.loop? k).trans (if_neg (by simpa using hk))
    · exact (hrw.occ i o ho (intact_occ hi ho).1).trans (congrArg some (voidedOcc_fields _ _ _ _ _))

/-! ### A released loop (R129) -/

/-- R129: what a release leaves of the record `j`, where `M` lists the members. -/
def releasedIn (M : List Nat) (j : Nat) (o : Occ) : Occ := if j ∈ M then releasedOcc o else o

/-- The records of the pool agree with their check values and carry no mark. -/
def OccsRead (s : State) : Prop := ∀ j o, s.occ? j = some o → o.sound = true ∧ o.damaged = false

theorem OccsRead.poolRead (h : OccsRead s) : PoolRead s := fun j o ho => .inl (h j o ho).1

theorem Rewrites.occsRead {own : State → Nat → Nat → Nat → Prop} {W : Nat → Occ → Occ} {N : Nat → Occ → Prop}
    {g : Window → Window} {F : List Nat} (h : Rewrites own s t W N g F) (hp : OccsRead s) : OccsRead t := by
  intro j p hj
  cases ho : s.occ? j with
  | none =>
    rw [h.free j ho] at hj
    cases hj
  | some o =>
    obtain ⟨hs, hd⟩ := hp j o ho
    rw [h.occ j o ho hs] at hj
    obtain rfl := Option.some.inj hj
    exact ⟨(h.keeps j o).2.2.trans hs, (h.keeps j o).2.1.trans hd⟩

theorem releasedIn_keeps (M : List Nat) (j : Nat) (o : Occ) : (releasedIn M j o).station = o.station ∧
    (releasedIn M j o).damaged = o.damaged ∧ (releasedIn M j o).sound = o.sound := by
  unfold releasedIn
  split <;> exact ⟨rfl, rfl, rfl⟩

theorem releasedIn_drift (M : List Nat) (j : Nat) (o : Occ) : (releasedIn M j o).drift = o.drift := by
  unfold releasedIn
  split <;> rfl

theorem releasedIn_releasedIn (i : Nat) (M : List Nat) (j : Nat) (o : Occ) :
    releasedIn M j (releasedIn [i] j o) = releasedIn (i :: M) j o := by
  by_cases hi : j = i
  · subst hi
    cases hd : o.drift <;> simp [releasedIn, releasedOcc, hd]
  · simp [releasedIn, hi]

/-- R129: one member of a sound pool. -/
theorem releaseMember_rewrites (hs : EntriesRead s) (hp : OccsRead s) (n i : Nat) : ∃ t,
    releaseMember (s, n) i = (t, n + if (s.occ? i).any (·.drift.isSome) then 1 else 0) ∧
    Rewrites OwnsAt s t (releasedIn [i]) (fun j o => j ∈ [i] ∧ o.damaged = false) id [] := by
  have hread : s.checkOcc i = s := checkOcc_of_sound fun o ho => (hp i o ho).1
  have hunchanged : ∀ b, { s with occs := b } = { s with occs := b, window := s.window.map id } := fun b => by
    rw [Option.map_id_fun, id_eq]
  have hother : ∀ (j : Nat) (p : Occ), j ≠ i → releasedIn [i] j p = p ∧ ¬(j ∈ [i] ∧ p.damaged = false) := fun j p hj => by
    simp [releasedIn, hj]
  simp only [releaseMember, hread]
  cases ho : s.occ? i with
  | none =>
    refine ⟨s, rfl, .of_unnamed ⟨s.occs, hunchanged _⟩ (fun _ => rfl) (fun j o hj => hother j o ?_) (releasedIn_keeps _)⟩
    rintro rfl
    simp [ho] at hj
  | some o =>
    have hd := (hp i o ho).2
    have hput := Rewrites.of_put (t := s.putOcc i (releasedOcc o)) (g := id) (W := releasedIn [i])
      (N := fun j o => j ∈ [i] ∧ o.damaged = false) hs ho ⟨_, hunchanged _⟩ (fun j => by simp [occ?_putOcc, releasedIn])
      (releasedIn_keeps _) hother (by simp)
    rw [hd] at hput
    refine ⟨_, ?_, hput⟩
    simp only [hd, Bool.false_eq_true, if_false, Option.any_some]
    split <;> rfl

theorem releaseMembers_rewrites (M : List Nat) (n : Nat) (hs : EntriesRead s) (hp : OccsRead s) : ∃ t,
    M.foldl releaseMember (s, n) = (t, n + (M.filter fun i => (s.occ? i).any (·.drift.isSome)).length) ∧
    Rewrites OwnsAt s t (releasedIn M) (fun j o => j ∈ M ∧ o.damaged = false) id [] := by
  induction M generalizing s n with
  | nil =>
    refine ⟨s, rfl, .of_unnamed ⟨s.occs, ?_⟩ (fun _ => rfl) (fun j o _ => ?_) (releasedIn_keeps _)⟩
    · rw [Option.map_id_fun, id_eq]
    · simp [releasedIn]
  | cons i M ih =>
    obtain ⟨t, ht, hrw⟩ := releaseMember_rewrites hs hp n i
    obtain ⟨u, hu, hrw'⟩ := ih (n + if (s.occ? i).any (·.drift.isSome) then 1 else 0) (hrw.entriesRead hs) (hrw.occsRead hp)
    have hdrift : ∀ j, (t.occ? j).any (·.drift.isSome) = (s.occ? j).any (·.drift.isSome) := by
      intro j
      cases hj : s.occ? j with
      | none => rw [hrw.free j hj]
      | some o => rw [hrw.occ j o hj (hp j o hj).1, Option.any_some, Option.any_some, releasedIn_drift]
    refine ⟨u, ?_, (hrw.trans ownsAt_stable hrw' hp.poolRead (.inr fun _ _ h => h.2)).congr
      (fun j o => releasedIn_releasedIn i M j o) (fun j o => ?_) fun _ => rfl⟩
    · rw [List.foldl_cons, ht, hu]
      simp only [hdrift, List.filter_cons]
      split <;> simp [Nat.add_assoc, Nat.add_comm]
    · rw [(releasedIn_keeps [i] j o).2.1, List.mem_singleton, List.mem_cons]
      exact or_and_right.symm

theorem voidedOcc_releasedIn (M : List Nat) (l e j : Nat) (o : Occ) :
    voidedOcc [] [(l, e)] j (releasedIn M j o) = { o with
      memberOf := if j ∈ M then none else o.memberOf
      opens := if j = e ∧ o.opens = some l then none else o.opens
      state := if j ∈ M ∧ o.drift.isSome = true then .final else o.state } := by
  rw [voidedOcc_fields]
  by_cases hM : j ∈ M <;> simp [releasedIn, releasedOcc, hM]

theorem release_rewrites (hs : EntriesRead s) (hp : OccsRead s) (l : Nat) (r : Loop) : ∃ t,
    s.release l r = t.respond .ok (u8 (r.members.filter fun i => (s.occ? i).any (·.drift.isSome)).length) ∧
    Rewrites OwnsAt s t (fun j o => voidedOcc [] [(l, r.openEnd)] j (releasedIn r.members j o))
      (fun j o => o.damaged = false ∧ (j ∈ r.members ∨ j = r.openEnd ∧ o.opens = some l)) id [l] := by
  obtain ⟨t, ht, hm⟩ := releaseMembers_rewrites r.members 0 hs hp
  have he := hm.trans ownsAt_stable (voidOpenEnd_rewrites (hm.entriesRead hs) (hm.poolRead hp.poolRead) l r.openEnd)
    hp.poolRead (.inr fun _ _ h => h.1)
  have hf := he.trans ownsAt_stable (freeLoop_rewrites l) hp.poolRead (.inr fun _ _ h => h.1)
  refine ⟨_, ?_, hf.congr (fun j o => voidedOcc_nil j _) (fun j o => ?_) fun w => ?_⟩
  · simp only [State.release, ht, Nat.zero_add]
  · have hopens : (releasedIn r.members j o).opens = o.opens := by
      unfold releasedIn
      split <;> rfl
    simp only [VoidNames, (releasedIn_keeps _ j o).2.1, hopens]
    simp
    tauto
  · simp [windowVoided]

theorem exec_releaseLoop {l : Nat} (h : s.serves (.releaseLoop l) .ready = true) :
    exec (.releaseLoop l) s = .next (releaseLoopBody l s) := hostCommand_of_serves _ h

theorem releaseLoop_claim : Claims.ReleaseLoop := by
  intro s l r hs hi hl hr
  have hrd := (intact_loop hi hr).2
  have hbody : releaseLoopBody l s = if r.state ≠ .closed then s.refuse .loopState
      else if s.walks l r then s.refuse .loopBusy else s.release l r := by
    simp [releaseLoopBody, Config.loops, hl, checkLoop_of_intact hi, hr, hrd]
  rw [exec_releaseLoop hs, hbody]
  refine ⟨fun hst => ?_, fun hst hw => ?_, fun hst hw => ?_⟩
  · rw [if_pos hst]
  · rw [if_neg (not_not.2 hst), if_pos ((walks_iff l r).2 ⟨hst, hw⟩)]
  · obtain ⟨t, ht, hrw⟩ := release_rewrites (entriesRead_of_intact hi) (fun _ _ ho => intact_occ hi ho) l r
    have hnot : ¬s.walks l r = true := by simp [walks_iff, hw]
    rw [if_neg (not_not.2 hst), if_neg hnot, ht]
    obtain ⟨x, y, a, hframe, hscan⟩ := hrw.frame
    refine ⟨_, rfl, ?_, ?_, ?_, ?_, fun k hk => ?_, fun i o ho => ?_, hrw.free⟩
    · rw [hframe, hscan (by rw [part_of_serves_ready hs]; decide)]
      simp [State.respond]
    · rw [hframe]
      rfl
    · refine loopMarks_of_rewrites (t := t) hrw fun i o ho => ?_
      simp [(intact_occ hi ho).2]
    · exact (hrw.loop? l).trans (if_pos List.mem_cons_self)
    · exact (hrw.loop? k).trans (if_neg (by simpa using hk))
    · exact (hrw.occ i o ho (intact_occ hi ho).1).trans (congrArg some (voidedOcc_releasedIn _ _ _ _ _))

theorem loopEndRefusals_claim : Claims.LoopEndRefusals := by
  intro s l
  refine ⟨fun c hc hs => ⟨fun hl => ?_, fun hl hr => ?_⟩, fun r hs hl hr hd => ?_⟩
  · have : ¬l < Config.loops := Nat.not_lt.2 hl
    rcases hc with rfl | rfl
    · rw [exec_voidLoop hs]
      simp [voidLoopBody, this]
    · rw [exec_releaseLoop hs]
      simp [releaseLoopBody, this]
  · have hl : l < Config.loops := hl
    have hread : s.checkLoop l = s := checkLoop_of_sound fun r h => by simp [hr] at h
    rcases hc with rfl | rfl
    · rw [exec_voidLoop hs]
      simp [voidLoopBody, hl, hread, hr]
    · rw [exec_releaseLoop hs]
      simp [releaseLoopBody, hl, hread, hr]
  · have hl : l < Config.loops := hl
    have hread : s.checkLoop l = (s.setLoop l { r with damaged := true }).raise .memoryError := by
      have : (r.sound && !r.damaged) = false := by rcases hd with h | h <;> simp [h]
      simp [State.checkLoop, hr, this]
    rw [exec_releaseLoop hs]
    simp [releaseLoopBody, hl, hread]

end Sys2Proof.Machine
end

