-- ==== Sys2Proof/Proofs/Stations/GatheredVoid.lean ====
section
/-! SUPPORT. VOID LOOP of a damaged loop (R128): the records gathered from the pool lose the fields that name it. -/

namespace Sys2Proof.Machine

open Sys2Proof

variable {s t u : State}

/-- R128: the station of a record, by the internal lookup. -/
def UsableAt (s : State) (v n _i : Nat) : Prop := s.usable n = some v

theorem EntriesMarked.usable {P : Nat → Prop} (h : EntriesMarked s t P) (n : Nat) : t.usable n = s.usable n := by
  have hm : t.matching n = s.matching n := matching_congr fun w _ => h.keeps Station.number (fun _ => rfl) w
  have hst : ∀ w, (t.station? w).map (fun f => (f.state, f.damaged)) = (s.station? w).map fun f => (f.state, f.damaged) :=
    h.keeps _ fun _ => rfl
  unfold State.usable
  rw [hm]
  split
  · next w _ =>
    have := hst w
    cases ht : t.station? w <;> cases hs : s.station? w <;> simp_all
  · rfl

theorem usableAt_stable {P : Nat → Prop} (h : EntriesMarked s t P) (v n j : Nat) : UsableAt t v n j ↔ UsableAt s v n j := by
  rw [UsableAt, UsableAt, h.usable]

theorem markRecord_spec (hp : s.part ≠ .starting) (hs : EntriesRead s) (n i : Nat) :
    StationsScan s (s.markRecord n i) ∧ EntriesMarked s (s.markRecord n i) fun v => UsableAt s v n i := by
  have hread : s.checkStations (waysOf n) = s := checkStations_of_sound fun v _ f hf => (hs v f hf).1
  cases hu : s.usable n with
  | none =>
    have hm : s.markRecord n i = s := by simp [State.markRecord, hp, State.internalLookup, hread, hu]
    rw [hm]
    exact ⟨.refl s, .of_stations rfl fun v hv => by simp [UsableAt, hu] at hv⟩
  | some w =>
    have hm : s.markRecord n i = s.markChanged w := by simp [State.markRecord, hp, State.internalLookup, hread, hu]
    rw [hm]
    refine ⟨markChanged_stationsScan w, (markChanged_marked fun f hf => (hs w f hf).1).congr fun v => ?_⟩
    rw [UsableAt, hu, Option.some.injEq, eq_comm]

/-- R128: what is left of a record gathered for the loop `l`. -/
def ungathered (l : Nat) (o : Occ) : Occ := unnamed l (if o.memberOf = some l then gatheredDrift false o else o)

theorem ungathered_fields (l : Nat) (o : Occ) :
    ungathered l o = { o with
      memberOf := if o.memberOf = some l then none else o.memberOf
      opens := if o.opens = some l then none else o.opens
      drift := if o.memberOf = some l ∧ o.damaged = false ∧ o.state ≠ .final then none else o.drift
      flags := if o.memberOf = some l ∧ o.damaged = false ∧ o.state ≠ .final
        then { o.flags with driftHigh := false, noDrift := false } else o.flags } := by
  unfold ungathered unnamed gatheredDrift
  by_cases hm : o.memberOf = some l
  · by_cases hd : o.damaged = true <;> by_cases hf : o.state = .final <;>
      simp [hm, hd, hf, dropDrift, withoutDrift, clearDriftFlags]
  · simp [hm]

/-- The record's fields name the loop, as its member or as its open endpoint. -/
def Names (l : Nat) (o : Occ) : Prop := o.memberOf = some l ∨ o.opens = some l

theorem ungathered_of_not_names {l : Nat} {o : Occ} (h : ¬Names l o) : ungathered l o = o := by
  rw [Names, not_or] at h
  simp [ungathered, unnamed, h]

/-- R128: what the gather of the records of `ids` leaves of the record `j`. -/
def gatheredIn (l : Nat) (ids : List Nat) (j : Nat) (o : Occ) : Occ := if j ∈ ids then ungathered l o else o

theorem gatheredIn_keeps (l : Nat) (ids : List Nat) (j : Nat) (o : Occ) : (gatheredIn l ids j o).station = o.station ∧
    (gatheredIn l ids j o).damaged = o.damaged ∧ (gatheredIn l ids j o).sound = o.sound := by
  unfold gatheredIn
  split
  · rw [ungathered_fields]
    exact ⟨rfl, rfl, rfl⟩
  · exact ⟨rfl, rfl, rfl⟩

/-- The record at `i` is a member of the loop by its own field. -/
def State.namesAsMember (s : State) (l i : Nat) : Bool := (s.occ? i).any (·.memberOf = some l)

theorem ungather_rewrites (hp : s.part ≠ .starting) (hs : EntriesRead s) (l i : Nat) :
    Rewrites UsableAt s (State.ungather l s i) (gatheredIn l [i]) (fun j _ => j ∈ [i])
      (windowVoided ([i].filter (s.namesAsMember l))) [] := by
  have hother : ∀ (j : Nat) (p : Occ), j ≠ i → gatheredIn l [i] j p = p ∧ j ∉ [i] := fun j p hj => by simp [gatheredIn, hj]
  cases ho : s.occ? i with
  | none =>
    have hw : [i].filter (s.namesAsMember l) = [] := by simp [State.namesAsMember, ho]
    have hu : State.ungather l s i = s := by simp [State.ungather, ho]
    rw [hw, hu]
    refine .of_unnamed ⟨s.occs, by rw [windowVoided_nil]⟩ (fun _ => rfl) (fun j o hj => hother j o ?_) (gatheredIn_keeps l _)
    rintro rfl
    simp [ho] at hj
  | some o =>
    have hframe : ∃ t, State.ungather l s i = t.markRecord o.station i ∧ t = { s with
        occs := slotSet s.occs i { ungathered l o with sound := true }
        window := s.window.map (windowVoided ([i].filter (s.namesAsMember l))) } := by
      refine ⟨_, ?_, rfl⟩
      by_cases hm : o.memberOf = some l
      · have hw : windowVoided ([i].filter (s.namesAsMember l)) =
            fun w => if w.occ = i then { w with memberOf := none } else w := by
          funext w
          simp [windowVoided, State.namesAsMember, ho, hm]
        simp only [State.ungather, ho, hm, ungathered, hw, hp]
        rfl
      · have hw : [i].filter (s.namesAsMember l) = [] := by simp [State.namesAsMember, ho, hm]
        simp only [State.ungather, ho, hm, ungathered, hw, windowVoided_nil]
        rfl
    obtain ⟨t, ht, htf⟩ := hframe
    obtain ⟨hscan, hmark⟩ := markRecord_spec (s := t) (by rw [htf]; exact hp) (by rw [htf]; exact hs) o.station i
    rw [ht]
    refine .of_mark ho ⟨_, htf⟩ (fun j => ?_) (gatheredIn_keeps l _) hother hscan (hmark.congr fun v => ?_)
    · rw [htf]
      simp only [gatheredIn, List.mem_singleton, if_true]
      exact occ?_setOcc i j _
    · rw [htf]
      exact (and_iff_right List.mem_cons_self).symm

theorem foldl_ungather_rewrites {l : Nat} (ids : List Nat) (hn : ids.Nodup) (hp : s.part ≠ .starting) (hs : EntriesRead s)
    (ho : ∀ j o, s.occ? j = some o → o.sound = true) :
    Rewrites UsableAt s (ids.foldl (State.ungather l) s) (gatheredIn l ids) (fun j _ => j ∈ ids)
      (windowVoided (ids.filter (s.namesAsMember l))) [] := by
  induction ids generalizing s with
  | nil =>
    refine .of_unnamed ⟨s.occs, ?_⟩ (fun _ => rfl) (fun j o _ => ⟨by simp [gatheredIn], List.not_mem_nil⟩)
      (gatheredIn_keeps l _)
    rw [List.filter_nil, windowVoided_nil]
    rfl
  | cons i ids ih =>
    obtain ⟨hi, hn⟩ := List.nodup_cons.1 hn
    have hrw := ungather_rewrites hp hs l i
    obtain ⟨x, y, a, hframe, -⟩ := hrw.frame
    have ho' : ∀ j o, (State.ungather l s i).occ? j = some o → o.sound = true := by
      intro j p hj
      cases hoj : s.occ? j with
      | none =>
        rw [hrw.free j hoj] at hj
        cases hj
      | some o =>
        rw [hrw.occ j o hoj (ho j o hoj)] at hj
        obtain rfl := Option.some.inj hj
        exact (hrw.keeps j o).2.2.trans (ho j o hoj)
    have hsame : ∀ j ∈ ids, (State.ungather l s i).namesAsMember l j = s.namesAsMember l j := by
      intro j hj
      have hji : j ∉ [i] := fun h => hi (List.mem_singleton.1 h ▸ hj)
      unfold State.namesAsMember
      cases hoj : s.occ? j with
      | none => rw [hrw.free j hoj]
      | some o => rw [hrw.occ j o hoj (ho j o hoj), gatheredIn, if_neg hji]
    refine (hrw.trans usableAt_stable (ih hn (by rw [hframe]; exact hp) (hrw.entriesRead hs) ho') (poolRead_of_sound ho)
      (.inl ho)).congr (fun j o => ?_) (fun j o => ?_) fun w => ?_
    · by_cases hj : j = i
      · subst hj
        simp [gatheredIn, hi]
      · simp [gatheredIn, hj]
    · simp
    · rw [windowVoided_windowVoided, List.filter_congr hsame, ← List.filter_append]
      rfl

theorem mem_naming {l i : Nat} : i ∈ s.naming l ↔ ∃ o, s.occ? i = some o ∧ Names l o := by
  unfold State.naming
  rw [List.mem_filter]
  cases ho : s.occ? i with
  | none => simp
  | some o =>
    have hk : i ∈ slotKeys s.occs := mem_slotKeys_of_slotGet ho
    simp [hk, Names]

theorem voidDamaged_rewrites (l : Nat) (hp : s.part ≠ .starting) (hs : EntriesRead s)
    (ho : ∀ j o, s.occ? j = some o → o.sound = true) (hn : (slotKeys s.occs).Nodup) :
    Rewrites UsableAt s (s.voidDamaged l) (gatheredIn l (s.naming l)) (fun j _ => j ∈ s.naming l)
      (windowVoided ((s.naming l).filter (s.namesAsMember l))) [l] := by
  have hpool : s.checkPool = s := checkOccs_of_sound fun j _ o hj => ho j o hj
  have hrw := foldl_ungather_rewrites (s.naming l) (hn.filter _) hp hs ho (l := l)
  have hf := hrw.trans usableAt_stable (freeLoop_rewrites l) (poolRead_of_sound ho) (.inl ho)
  rw [State.voidDamaged, hpool]
  refine hf.congr (fun j o => voidedOcc_nil j _) (fun j o => ?_) fun w => ?_
  · simp [VoidNames]
  · rw [windowVoided_windowVoided, List.append_nil]

theorem windowVoided_members {l : Nat} (w : Window) :
    ((∃ o, s.occ? w.occ = some o ∧ o.memberOf = some l) →
      windowVoided ((s.naming l).filter (s.namesAsMember l)) w = { w with memberOf := none }) ∧
    ((∀ o, s.occ? w.occ = some o → o.memberOf ≠ some l) →
      windowVoided ((s.naming l).filter (s.namesAsMember l)) w = w) := by
  have hiff : w.occ ∈ (s.naming l).filter (s.namesAsMember l) ↔ ∃ o, s.occ? w.occ = some o ∧ o.memberOf = some l := by
    rw [List.mem_filter, mem_naming, State.namesAsMember, Option.any_eq_true]
    simp only [decide_eq_true_eq]
    exact ⟨fun h => h.2, fun ⟨o, ho, hm⟩ => ⟨⟨o, ho, .inl hm⟩, o, ho, hm⟩⟩
  exact ⟨fun h => if_pos (hiff.2 h), fun h => if_neg fun hw => by
    obtain ⟨o, ho, hm⟩ := hiff.1 hw
    exact h o ho hm⟩

theorem busy_iff (l : Nat) : (s.closeNames l || s.recomputing l) = true ↔
    (∃ f, s.engine.flight = some f ∧ (f.job.kind = .close l ∨ f.recomp.head? = some l)) ∨
      ∃ j ∈ s.engine.queue, j.kind = .close l := by
  cases hf : s.engine.flight <;> simp [State.closeNames, State.recomputing, hf, or_assoc, or_comm]

theorem voidDamaged_claim : Claims.VoidDamaged := by
  intro s l r hs hl hr hd hocc hwf hst busy
  have hheld : s.resetHeld = false := resetHeld_of_serves hs
  have hl : l < Config.loops := hl
  have hread : s.checkLoop l = { s with
      loops := slotSet s.loops l { r with damaged := true }
      events := { s.events with pending := s.events.pending ||| 0x2000 } } := by
    have : (r.sound && !r.damaged) = false := by rcases hd with h | h <;> simp [h]
    simp only [State.checkLoop, hr, this, State.raise, Events.raise, State.setLoop_resetHeld, hheld]
    rfl
  generalize hu : s.checkLoop l = u at hread
  have hloop : u.loop? l = some { r with damaged := true } := by
    rw [hread]
    exact (loop?_setLoop l l _).trans (if_pos rfl)
  have hbody : voidLoopBody l s = u.voidDamagedNow l := by simp [voidLoopBody, hl, hu, hloop]
  have hbusy : (u.closeNames l || u.recomputing l) = true ↔ busy := by
    rw [busy_iff, hread]
  rw [exec_voidLoop hs, hbody, State.voidDamagedNow]
  refine ⟨fun hb => ?_, fun hb => ?_⟩
  · rw [if_pos (hbusy.2 hb)]
  · rw [if_neg (mt hbusy.1 hb)]
    have hpart : u.part ≠ .starting := by
      rw [hread]
      exact fun h => by simp [part_of_serves_ready hs] at h
    have hrw := voidDamaged_rewrites l hpart (by rw [hread]; exact fun v f hf => hst _ (mem_of_slotGet hf))
      (by rw [hread]; exact fun j o hj => hocc _ (mem_of_slotGet hj)) (by rw [hread]; exact occs_nodup hwf)
    obtain ⟨x, y, a, hframe, hscan⟩ := hrw.frame
    have hmarked := hrw.marked
    have hcleared := fun k => hrw.loop? k
    have hwritten := hrw.occ
    have hfree := hrw.free
    generalize u.voidDamaged l = t at hframe hmarked hcleared hwritten hfree ⊢
    have hscan := hscan hpart
    subst hread
    have hids : ∀ i, i ∈ s.naming l ↔ ∃ o, s.occ? i = some o ∧ Names l o := fun i => mem_naming
    have hmarks : EntriesMarked s t fun v => ∃ i o, i ∈ s.naming l ∧ s.occ? i = some o ∧ s.usable o.station = some v :=
      EntriesMarked.congr ⟨hmarked.on, hmarked.off, hmarked.free⟩ fun v => exists_congr fun i => exists_congr fun o =>
        ⟨fun ⟨ho, hn, hv⟩ => ⟨hn, ho, hv⟩, fun ⟨hn, ho, hv⟩ => ⟨ho, hn, hv⟩⟩
    have hwindow : t.window = s.window.map (windowVoided ((s.naming l).filter (s.namesAsMember l))) := by
      rw [hframe]
      rfl
    refine ⟨_, s.naming l, rfl, ?_, (occs_nodup hwf).filter _, hids, ?_, ?_, fun k hk => ?_, hfree, fun i o ho => ?_,
      fun v e he => ⟨hmarks.on v e he, hmarks.off v e he⟩, hmarks.free, fun w hw => ?_, fun hw => ?_⟩
    · rw [hframe, hscan]
      simp [State.respond]
    · rw [hframe]
      rfl
    · exact (hcleared l).trans (if_pos List.mem_cons_self)
    · refine (hcleared k).trans ((if_neg (by simpa using hk)).trans ((loop?_setLoop l k _).trans (if_neg hk)))
    · refine (hwritten i o ho (hocc _ (mem_of_slotGet ho))).trans (congrArg some ?_)
      rw [← ungathered_fields, gatheredIn]
      split
      · rfl
      · next hi => exact (ungathered_of_not_names fun h => hi ((hids i).2 ⟨o, ho, h⟩)).symm
    · rw [State.respond_window, hwindow, hw]
      obtain ⟨h1, h2⟩ := windowVoided_members (s := s) (l := l) w
      exact ⟨fun h => congrArg some (h1 h), fun h => congrArg some (h2 h)⟩
    · rw [State.respond_window, hwindow, hw]
      rfl

/-- Settles O45: a void and a release rewrite the records that the loop names, or that name it, one after another. -/
theorem loopEnds : Obligations.LoopEnds := ⟨voidLoop_claim, voidDamaged_claim, releaseLoop_claim, loopEndRefusals_claim⟩

end Sys2Proof.Machine
end

