-- ==== Sys2Proof/Proofs/Stations/Discard.lean ====
section
/-! SUPPORT. DISCARD OCCUPATION (R51): a sound record that nothing holds, and a damaged one with the loops it anchors. -/

namespace Sys2Proof.Machine

open Sys2Proof

variable {s t u : State}

theorem exec_discardOccupation {i : Nat} (h : s.serves (.discardOccupation i) .ready = true) :
    exec (.discardOccupation i) s = .next (discardOccupationBody i s) := hostCommand_of_serves _ h

/-! ### A sound record -/

theorem discardInUse_iff (h : ∀ q ∈ s.loops, q.2.damaged = false) (i : Nat) (o : Occ) :
    s.discardInUse i o = true ↔ o.state = .settling ∨ o.state = .collecting ∨ (∃ l x, (l, x) ∈ s.loops ∧ x.openEnd = i) ∨
      ∃ l x, (l, x) ∈ s.loops ∧ (x.state = .closing ∨ x.state = .closed) ∧ i ∈ x.members := by
  simp only [State.discardInUse, Bool.or_eq_true, decide_eq_true_eq, isOpenEnd_iff h, isMember_iff h, closeState_iff,
    anyState, or_assoc, true_and]

theorem discardSound_claim : Claims.DiscardSound := by
  intro s i hs hi hlt
  have hlt : i < Config.poolSize := hlt
  rw [exec_discardOccupation hs]
  refine ⟨fun ho => ?_, fun o ho => ?_⟩
  · simp [discardOccupationBody, hlt, checkOcc_of_intact hi, ho]
  · intro busy
    have hbody : discardOccupationBody i s = if s.discardInUse i o then s.refuse .inUse
        else (s.freeOcc (waysOf o.station) i).respond .ok (u16 i ++ u16 o.station) := by
      simp [discardOccupationBody, hlt, checkOcc_of_intact hi, ho, checkLoops_of_intact hi, (intact_occ hi ho).2]
    have hbusy : s.discardInUse i o = true ↔ busy := discardInUse_iff (intact_loops hi) i o
    rw [hbody]
    refine ⟨fun hb => by rw [if_pos (hbusy.2 hb)], fun hb => ?_⟩
    rw [if_neg (mt hbusy.1 hb)]
    obtain ⟨⟨x, y, z, a, hframe, hscan⟩, hst, hloop⟩ :=
      freeOcc_spec (ws := waysOf o.station) i (waysRead_of_intact hi _) (loopsRead_of_intact hi)
    have hocc : ∀ j, _ = _ := occ?_freeOcc (s := s) (waysOf o.station) i
    generalize s.freeOcc (waysOf o.station) i = t at hframe hst hloop hocc ⊢
    refine ⟨_, rfl, ?_, ?_, hocc, fun v => (hst v).trans (unlisted_waysOf _ v o.station i), fun l x hx => ?_, fun l hl => ?_⟩
    · rw [hframe, hscan (by rw [part_of_serves_ready hs]; decide)]
      rfl
    · rw [hframe]
      rfl
    · refine (hloop l).trans ?_
      rw [hx]
      rfl
    · refine (hloop l).trans ?_
      rw [hl]
      rfl

/-! ### The loops that a damaged record anchors -/

/-- The members of the loops `ls`, and each loop with its open endpoint. -/
def State.membersOf (s : State) (ls : List Nat) : List Nat := ls.flatMap fun l => ((s.loop? l).map (·.members)).getD []
def State.endsOf (s : State) (ls : List Nat) : List (Nat × Nat) :=
  ls.filterMap fun l => (s.loop? l).map fun r => (l, r.openEnd)

theorem mem_membersOf {ls : List Nat} {j : Nat} :
    j ∈ s.membersOf ls ↔ ∃ l r, l ∈ ls ∧ s.loop? l = some r ∧ j ∈ r.members := by
  rw [State.membersOf, List.mem_flatMap]
  refine exists_congr fun l => ?_
  cases s.loop? l <;> simp

theorem mem_endsOf {ls : List Nat} {l j : Nat} :
    (l, j) ∈ s.endsOf ls ↔ ∃ r, l ∈ ls ∧ s.loop? l = some r ∧ j = r.openEnd := by
  rw [State.endsOf, List.mem_filterMap]
  constructor
  · rintro ⟨k, hk, h⟩
    obtain ⟨r, hr, heq⟩ := Option.map_eq_some_iff.1 h
    obtain ⟨rfl, rfl⟩ := Prod.mk.inj heq
    exact ⟨r, hk, hr, rfl⟩
  · rintro ⟨r, hl, hr, rfl⟩
    exact ⟨l, hl, by rw [hr]; rfl⟩

theorem foldl_voidSound_rewrites (ls : List Nat) (hn : ls.Nodup) (hls : ∀ l ∈ ls, (s.loop? l).isSome) (hs : EntriesRead s)
    (hp : PoolRead s) : Rewrites OwnsAt s (ls.foldl State.voidSound s) (voidedOcc (s.membersOf ls) (s.endsOf ls))
      (VoidNames (s.membersOf ls) (s.endsOf ls)) (windowVoided (s.membersOf ls)) ls := by
  induction ls generalizing s with
  | nil => exact .void_refl
  | cons l ls ih =>
    obtain ⟨hl, hn⟩ := List.nodup_cons.1 hn
    obtain ⟨r, hr⟩ := Option.isSome_iff_exists.1 (hls l List.mem_cons_self)
    have hrw := voidSound_rewrites hs hp hr
    have hsame : ∀ k ∈ ls, (s.voidSound l).loop? k = s.loop? k := fun k hk =>
      (hrw.loop? k).trans (if_neg fun h => hl (by rwa [← List.mem_singleton.1 h]))
    have hrest := ih hn (fun k hk => by rw [hsame k hk]; exact hls k (List.mem_cons_of_mem l hk)) (hrw.entriesRead hs)
      (hrw.poolRead hp)
    have hmembers : (s.voidSound l).membersOf ls = s.membersOf ls :=
      List.flatMap_congr fun k hk => by rw [hsame k hk]
    have hends : (s.voidSound l).endsOf ls = s.endsOf ls := List.filterMap_congr fun k hk => by rw [hsame k hk]
    rw [hmembers, hends] at hrest
    have hall := hrw.then_void hrest hp
    have hm : s.membersOf (l :: ls) = r.members ++ s.membersOf ls := by simp [State.membersOf, hr]
    have he : s.endsOf (l :: ls) = [(l, r.openEnd)] ++ s.endsOf ls := by simp [State.endsOf, hr]
    rw [hm, he]
    exact hall

theorem mem_anchored (hl : LoopsRead s) {i l : Nat} : l ∈ s.anchored i ↔ ∃ x, s.loop? l = some x ∧ Claims.Anchors i x := by
  rw [State.anchored, List.mem_filter]
  cases hx : s.loop? l with
  | none => simp
  | some x => simp [mem_slotKeys_of_slotGet hx, (hl l x hx).2, Claims.Anchors, closeState_iff]

theorem anchored_nodup (h : s.loopsWf = true) (i : Nat) : (s.anchored i).Nodup := by
  simp only [State.loopsWf, Bool.and_eq_true] at h
  exact (((slotWf_iff _ _).1 h.1).1.imp fun h => Nat.ne_of_lt h).filter _

theorem mem_membersOf_anchored (hl : LoopsRead s) {i j : Nat} :
    j ∈ s.membersOf (s.anchored i) ↔ Claims.VoidedMember s i j := by
  simp only [mem_membersOf, mem_anchored hl, Claims.VoidedMember]
  refine exists_congr fun l => exists_congr fun x => ⟨?_, fun ⟨hx, ha, hj⟩ => ⟨⟨x, hx, ha⟩, hx, hj⟩⟩
  rintro ⟨⟨y, hy, ha⟩, hx, hj⟩
  obtain rfl := Option.some.inj (hy.symm.trans hx)
  exact ⟨hx, ha, hj⟩

theorem mem_endsOf_anchored (hl : LoopsRead s) {i j : Nat} (p : Occ) :
    (∃ l, (l, j) ∈ s.endsOf (s.anchored i) ∧ p.opens = some l) ↔ Claims.VoidedEnd s i j p := by
  simp only [mem_endsOf, mem_anchored hl, Claims.VoidedEnd]
  refine exists_congr fun l => ⟨?_, fun ⟨x, hx, ha, hj, hp⟩ => ⟨⟨x, ⟨x, hx, ha⟩, hx, hj⟩, hp⟩⟩
  rintro ⟨⟨x, ⟨y, hy, ha⟩, hx, hj⟩, hp⟩
  obtain rfl := Option.some.inj (hy.symm.trans hx)
  exact ⟨y, hx, ha, hj, hp⟩

theorem any_loopHolds_iff (hl : LoopsRead s) (i : Nat) : (s.anchored i).any s.loopHolds = true ↔
    ∃ l x, s.loop? l = some x ∧ Claims.Anchors i x ∧
      (x.state = .closing ∨ x.state = .closed ∧ s.recomputing l = true) := by
  rw [List.any_eq_true]
  refine exists_congr fun l => ?_
  rw [mem_anchored hl]
  constructor
  · rintro ⟨⟨x, hx, ha⟩, hh⟩
    refine ⟨x, hx, ha, ?_⟩
    simpa [State.loopHolds, hx, walks_iff] using hh
  · rintro ⟨x, hx, ha, hh⟩
    exact ⟨⟨x, hx, ha⟩, by simpa [State.loopHolds, hx, walks_iff] using hh⟩

theorem voidedOcc_memberOf (M : List Nat) (E : List (Nat × Nat)) (j : Nat) (o : Occ) :
    (voidedOcc M E j o).memberOf = if j ∈ M then none else o.memberOf := by
  unfold voidedOcc
  split <;> rfl

theorem voidedOcc_drift (M : List Nat) (E : List (Nat × Nat)) (j : Nat) (o : Occ) :
    (voidedOcc M E j o).drift = (if j ∈ M ∧ o.state ≠ .final then none else o.drift) ∧
    (voidedOcc M E j o).flags = if j ∈ M ∧ o.state ≠ .final then { o.flags with driftHigh := false, noDrift := false }
      else o.flags := by
  unfold voidedOcc
  by_cases hM : j ∈ M
  · by_cases hf : o.state = .final <;> simp [hM, hf, dropDrift, withoutDrift, clearDriftFlags]
  · simp [hM]

theorem voidedOcc_opens (M : List Nat) (E : List (Nat × Nat)) (j : Nat) (o : Occ) :
    ((∃ l, (l, j) ∈ E ∧ o.opens = some l) → (voidedOcc M E j o).opens = none) ∧
    ((¬∃ l, (l, j) ∈ E ∧ o.opens = some l) → (voidedOcc M E j o).opens = o.opens) := by
  show (_ → o.opens.filter _ = none) ∧ (_ → o.opens.filter _ = o.opens)
  cases o.opens with
  | none => exact ⟨fun _ => rfl, fun _ => rfl⟩
  | some l => by_cases hl : (l, j) ∈ E <;> simp [Option.filter, hl]

theorem afterVoids (hl : LoopsRead s) (i j : Nat) (p : Occ) :
    Claims.AfterVoids s i j p (voidedOcc (s.membersOf (s.anchored i)) (s.endsOf (s.anchored i)) j p) := by
  have hm := mem_membersOf_anchored hl (i := i) (j := j)
  have he := mem_endsOf_anchored hl (i := i) (j := j) p
  obtain ⟨hopens, hkept⟩ := voidedOcc_opens (s.membersOf (s.anchored i)) (s.endsOf (s.anchored i)) j p
  obtain ⟨hdrift, hflags⟩ := voidedOcc_drift (s.membersOf (s.anchored i)) (s.endsOf (s.anchored i)) j p
  rw [he] at hopens hkept
  refine ⟨voidedOcc_frame _ _ _ _, fun h => ?_, fun h => ?_, hopens, hkept, fun h hf => ?_, fun h => ?_⟩
  · rw [voidedOcc_memberOf, if_pos (hm.2 h)]
  · rw [voidedOcc_memberOf, if_neg (mt hm.1 h)]
  · rw [hdrift, hflags, if_pos ⟨hm.2 h, hf⟩, if_pos ⟨hm.2 h, hf⟩]
    exact ⟨rfl, rfl⟩
  · have hn : ¬(j ∈ s.membersOf (s.anchored i) ∧ p.state ≠ .final) := fun ⟨h1, h2⟩ => h.elim (· (hm.1 h1)) h2
    rw [hdrift, hflags, if_neg hn, if_neg hn]
    exact ⟨rfl, rfl⟩

/-! ### The record goes (R31, R49) -/

/-- R51: the record FREE and off every list, with the removal of the window that has it. -/
def State.freeDamaged (s : State) (i : Nat) : State :=
  match s.window with
  | some w => if w.occ = i then s.removeWindow w allWays .discard else s.freeOcc allWays i
  | none => s.freeOcc allWays i

theorem discardDamaged_eq (i : Nat) :
    s.discardDamaged i = ((s.anchored i).foldl State.voidSound s).freeDamaged i := rfl

/-- `t` is `s` with the damaged record `i` gone from it, and the window that has it. -/
structure DamagedFreed (s t : State) (i : Nat) : Prop where
  frame : ∃ x y z a, t = { s with
    stations := x, scan := y, loops := z, occs := a, window := t.window, lastWindow := t.lastWindow, events := t.events } ∧
    (s.part ≠ .starting → y = s.scan)
  occ : ∀ j, t.occ? j = if j = i then none else s.occ? j
  station : ∀ v, t.station? v = if v ∈ allWays then (s.station? v).map (unlisted [i]) else s.station? v
  loop : ∀ k, t.loop? k = (s.loop? k).map (memberless i)
  removed : ∀ w, s.window = some w → w.occ = i → t.window = none ∧
    t.lastWindow = some (lastWindowOf w .aborted .discard s.epoch) ∧ t.events = s.events.raise s.resetHeld .windowAborted
  kept : (∀ w, s.window = some w → w.occ ≠ i) → t.window = s.window ∧ t.lastWindow = s.lastWindow ∧ t.events = s.events

theorem freeOcc_damagedFreed {i : Nat} (hs : WaysRead s allWays) (hl : LoopsRead s)
    (hw : ∀ w, s.window = some w → w.occ ≠ i) : DamagedFreed s (s.freeOcc allWays i) i := by
  obtain ⟨⟨x, y, z, a, hframe, hscan⟩, hst, hloop⟩ := freeOcc_spec i hs hl
  refine ⟨⟨x, y, z, a, ?_, hscan⟩, occ?_freeOcc allWays i, hst, hloop, fun w h h' => absurd h' (hw w h), fun _ => ?_⟩
  · rw [hframe]
  · rw [hframe]
    exact ⟨rfl, rfl, rfl⟩

theorem freeDamaged_damagedFreed (i : Nat) (hs : WaysRead s allWays) (hl : LoopsRead s) :
    DamagedFreed s (s.freeDamaged i) i := by
  unfold State.freeDamaged
  cases hw : s.window with
  | none => exact freeOcc_damagedFreed hs hl fun w h => by simp [hw] at h
  | some w =>
    by_cases hi : w.occ = i
    · obtain ⟨⟨x, y, z, a, hframe, hscan⟩, hocc, hst, hloop⟩ := removeWindow_windowGone w .discard hs hl
      simp only [if_pos hi]
      subst hi
      refine ⟨⟨x, y, z, a, ?_, hscan⟩, hocc, hst, hloop, fun v h _ => ?_, fun h => absurd rfl (h w hw)⟩
      · rw [hframe]
      · rw [hw] at h
        obtain rfl := Option.some.inj h
        rw [hframe]
        exact ⟨rfl, rfl, rfl⟩
    · simp only [if_neg hi]
      refine freeOcc_damagedFreed hs hl fun v h => ?_
      rw [hw] at h
      obtain rfl := Option.some.inj h
      exact hi

/-! ### A damaged record -/

/-- The read of a record that carries the damaged mark or gains it. -/
theorem checkOcc_of_failing (hr : s.resetHeld = false) {i : Nat} {o : Occ} (ho : s.occ? i = some o)
    (hf : o.damaged = true ∨ o.sound = false) :
    (∃ a, s.checkOcc i = { s with occs := a, events := { s.events with
      pending := s.events.pending ||| (if o.sound then 0 else 0x2000) } }) ∧
    ∀ j, (s.checkOcc i).occ? j = if j = i then some { o with damaged := true } else s.occ? j := by
  by_cases hs : o.sound = true
  · have hd : o.damaged = true := hf.resolve_right (by simp [hs])
    rw [checkOcc_of_sound fun p hp => by simp_all]
    refine ⟨⟨s.occs, by simp [hs]⟩, fun j => ?_⟩
    by_cases hj : j = i
    · rw [if_pos hj, hj, ho, ← hd]
    · rw [if_neg hj]
  · have hs : o.sound = false := by simpa using hs
    rw [checkOcc_of_unsound ho hs]
    refine ⟨⟨slotSet s.occs i { o with damaged := true }, ?_⟩, fun j => ?_⟩
    · simp only [State.raise, Events.raise, State.setOcc_resetHeld, hr, hs]
      rfl
    · rw [occ?_raise, occ?_setOcc]

theorem failing_poolRead (hr : s.resetHeld = false) {i : Nat} {o : Occ} (ho : s.occ? i = some o)
    (hf : o.damaged = true ∨ o.sound = false) (hs : ∀ j p, j ≠ i → s.occ? j = some p → p.sound = true) :
    PoolRead (s.checkOcc i) := by
  obtain ⟨⟨a, hframe⟩, hocc⟩ := checkOcc_of_failing hr ho hf
  intro j p hj
  rw [hocc] at hj
  by_cases hji : j = i
  · rw [if_pos hji] at hj
    obtain rfl := Option.some.inj hj
    cases hsound : o.sound with
    | true => exact .inl rfl
    | false =>
      refine .inr ⟨rfl, ?_⟩
      have hidem : s.events.pending ||| 0x2000 ||| Event.memoryError.mask = s.events.pending ||| 0x2000 :=
        (BitVec.or_assoc _ _ _).trans (congrArg (s.events.pending ||| ·) (by decide))
      rw [hframe]
      simp only [State.raise, Events.raise, hr, hsound, Bool.false_eq_true, if_false, hidem]
  · rw [if_neg hji] at hj
    exact .inl (hs j p hji hj)

theorem mem_allWays (h : s.stationsWf = true) {v : Nat} {f : Station} (hf : s.station? v = some f) : v ∈ allWays := by
  simp only [State.stationsWf, Bool.and_eq_true] at h
  obtain ⟨⟨⟨⟨hwf, -⟩, -⟩, -⟩, -⟩ := h
  exact List.mem_range.2 (((slotWf_iff _ _).1 hwf).2 v (mem_slotKeys_of_slotGet hf))

theorem discardDamaged_spec (i : Nat) (hs : EntriesRead s) (hp : PoolRead s) (hl : LoopsRead s) (hwf : s.loopsWf = true) :
    ∃ t, Rewrites OwnsAt s t (voidedOcc (s.membersOf (s.anchored i)) (s.endsOf (s.anchored i)))
        (VoidNames (s.membersOf (s.anchored i)) (s.endsOf (s.anchored i))) (windowVoided (s.membersOf (s.anchored i)))
        (s.anchored i) ∧ DamagedFreed t (s.discardDamaged i) i := by
  have hrw := foldl_voidSound_rewrites (s.anchored i) (anchored_nodup hwf i) (fun l hl' => by
    obtain ⟨x, hx, -⟩ := (mem_anchored hl).1 hl'
    rw [hx]
    rfl) hs hp
  rw [discardDamaged_eq]
  refine ⟨_, hrw, freeDamaged_damagedFreed i (fun v _ f hf => (hrw.entriesRead hs v f hf).1) fun l x hx => ?_⟩
  rw [hrw.loop?] at hx
  by_cases hmem : l ∈ s.anchored i
  · simp [hmem] at hx
  · rw [if_neg hmem] at hx
    exact hl l x hx

theorem unlisted_changed (i : Nat) (f : Station) :
    unlisted [i] { f with changed := true } = { f with list := f.list.filter (· ≠ i), changed := true } := by
  rw [unlisted_singleton]
  split
  · rfl
  · next h => rw [List.filter_eq_self.2 fun j hj => by simpa using fun hji : j = i => h (hji ▸ hj)]

theorem windowVoided_occ (M : List Nat) (w : Window) : (windowVoided M w).occ = w.occ := by
  unfold windowVoided
  split <;> rfl

/-- R51: the discard of the damaged record `i` step by step: `u` is `s` with the record read, `t` has its loops voided, and
in `z` it is gone. -/
structure DiscardSteps (s u t z : State) (i : Nat) : Prop where
  read : ∃ a ev, u = { s with occs := a, events := ev }
  occ : ∀ j, j ≠ i → u.occ? j = s.occ? j
  failing : ∀ p, u.occ? i = some p → p.damaged = true
  others : ∀ j p, j ≠ i → s.occ? j = some p → p.sound = true ∧ p.damaged = false
  loops : LoopsRead s
  voids : Rewrites OwnsAt u t (voidedOcc (u.membersOf (u.anchored i)) (u.endsOf (u.anchored i)))
    (VoidNames (u.membersOf (u.anchored i)) (u.endsOf (u.anchored i))) (windowVoided (u.membersOf (u.anchored i)))
    (u.anchored i)
  freed : DamagedFreed t z i

section

variable {z : State} {i : Nat}

theorem DiscardSteps.station? (h : DiscardSteps s u t z i) (v : Nat) : u.station? v = s.station? v := by
  obtain ⟨a, ev, hu⟩ := h.read
  rw [hu]
  rfl

theorem DiscardSteps.mem_anchored (h : DiscardSteps s u t z i) (l : Nat) :
    l ∈ u.anchored i ↔ ∃ x, s.loop? l = some x ∧ Claims.Anchors i x := by
  obtain ⟨a, ev, rfl⟩ := h.read
  exact Machine.mem_anchored (s := { s with occs := a, events := ev }) h.loops

theorem DiscardSteps.mem_members (h : DiscardSteps s u t z i) (j : Nat) :
    j ∈ u.membersOf (u.anchored i) ↔ Claims.VoidedMember s i j := by
  obtain ⟨a, ev, rfl⟩ := h.read
  exact mem_membersOf_anchored (s := { s with occs := a, events := ev }) h.loops

theorem DiscardSteps.mem_ends (h : DiscardSteps s u t z i) (j : Nat) (p : Occ) :
    (∃ l, (l, j) ∈ u.endsOf (u.anchored i) ∧ p.opens = some l) ↔ Claims.VoidedEnd s i j p := by
  obtain ⟨a, ev, rfl⟩ := h.read
  exact mem_endsOf_anchored (s := { s with occs := a, events := ev }) h.loops p

theorem DiscardSteps.loop? (h : DiscardSteps s u t z i) (l : Nat) :
    z.loop? l = if l ∈ u.anchored i then none else (s.loop? l).map (memberless i) := by
  obtain ⟨a, ev, rfl⟩ := h.read
  rw [h.freed.loop, h.voids.loop?]
  split <;> rfl

theorem DiscardSteps.frame (h : DiscardSteps s u t z i) (hp : s.part = .ready) : z = { s with
    stations := z.stations, occs := z.occs, loops := z.loops, expiryDue := s.expiryDue.filter (· ∉ u.anchored i)
    window := z.window, lastWindow := z.lastWindow, events := z.events } := by
  obtain ⟨x, y, b, ht, hscan⟩ := h.voids.frame
  obtain ⟨x', y', l', b', hz, hscan'⟩ := h.freed.frame
  obtain ⟨a, ev, hu⟩ := h.read
  have hup : u.part ≠ .starting := by simp [hu, hp]
  have htp : t.part ≠ .starting := by simp [ht, hu, hp]
  have hscans : y' = s.scan := by rw [hscan' htp, ht, hscan hup, hu]
  rw [hz, hscans, ht, hu]

theorem DiscardSteps.expiryDue (h : DiscardSteps s u t z i) (hp : s.part = .ready) :
    z.expiryDue = s.expiryDue.filter fun l => (s.loop? l).isNone || (z.loop? l).isSome := by
  have hdue : z.expiryDue = s.expiryDue.filter (· ∉ u.anchored i) := by
    rw [h.frame hp]
  refine hdue.trans (List.filter_congr fun l _ => ?_)
  rw [h.loop?]
  by_cases hmem : l ∈ u.anchored i
  · obtain ⟨r, hr, -⟩ := (h.mem_anchored l).1 hmem
    simp [hmem, hr]
  · cases hr : s.loop? l <;> simp [hmem]

theorem DiscardSteps.occ_other (h : DiscardSteps s u t z i) {j : Nat} {p : Occ} (hj : j ≠ i) (hp : s.occ? j = some p) :
    ∃ q, z.occ? j = some q ∧ Claims.AfterVoids s i j p q := by
  refine ⟨_, (h.freed.occ j).trans ((if_neg hj).trans
    (h.voids.occ j p ((h.occ j hj).trans hp) (h.others j p hj hp).1)), ?_⟩
  obtain ⟨a, ev, rfl⟩ := h.read
  exact afterVoids (s := { s with occs := a, events := ev }) h.loops i j p

/-- R127, log 16: the ways that a void of the loops marks. -/
def VoidMarks (s : State) (i v : Nat) : Prop := ∃ j p, j ≠ i ∧ s.occ? j = some p ∧
  (Claims.VoidedMember s i j ∨ Claims.VoidedEnd s i j p) ∧ Claims.Owns s v j

theorem DiscardSteps.voidMarks_iff (h : DiscardSteps s u t z i) (v : Nat) : VoidMarks s i v ↔ ∃ j p, u.occ? j = some p ∧
    VoidNames (u.membersOf (u.anchored i)) (u.endsOf (u.anchored i)) j p ∧ OwnsAt u v p.station j := by
  have howns : ∀ n j, OwnsAt u v n j ↔ OwnsAt s v n j := ownsAt_congr (fun w => by rw [h.station?]) v
  simp only [VoidMarks, VoidNames, h.mem_members, h.mem_ends, howns]
  constructor
  · rintro ⟨j, p, hj, hp, hn, q, f, hq, hm, hf, hown⟩
    obtain rfl := Option.some.inj (hp.symm.trans hq)
    exact ⟨j, p, (h.occ j hj).trans hp, ⟨(h.others j p hj hp).2, hn⟩, hm, f, hf, hown⟩
  · rintro ⟨j, p, hp, ⟨hd, hn⟩, hm, f, hf, hown⟩
    have hj : j ≠ i := by
      rintro rfl
      simp [h.failing p hp] at hd
    rw [h.occ j hj] at hp
    exact ⟨j, p, hj, hp, hn, p, f, hp, hm, hf, hown⟩

theorem DiscardSteps.station (h : DiscardSteps s u t z i) (hwf : s.stationsWf = true) {v : Nat} {f : Station}
    (hf : s.station? v = some f) :
    (i ∈ f.list ∨ VoidMarks s i v → z.station? v = some { f with list := f.list.filter (· ≠ i), changed := true }) ∧
    (¬(i ∈ f.list ∨ VoidMarks s i v) → z.station? v = some f) := by
  have hz : z.station? v = (t.station? v).map (unlisted [i]) := by rw [h.freed.station, if_pos (mem_allWays hwf hf)]
  have hu := (h.station? v).trans hf
  rw [hz]
  by_cases hmark : VoidMarks s i v
  · rw [h.voids.marked.on v f hu ((h.voidMarks_iff v).1 hmark), Option.map_some, unlisted_changed]
    exact ⟨fun _ => rfl, fun hn => absurd (.inr hmark) hn⟩
  · rw [h.voids.marked.off v f hu (mt (h.voidMarks_iff v).2 hmark), Option.map_some, unlisted_singleton]
    refine ⟨fun hv => congrArg some (if_pos (hv.resolve_right hmark)),
      fun hv => congrArg some (if_neg fun hi => hv (.inl hi))⟩

theorem DiscardSteps.free (h : DiscardSteps s u t z i) {v : Nat} (hv : s.station? v = none) : z.station? v = none := by
  rw [h.freed.station, h.voids.marked.free v ((h.station? v).trans hv)]
  split <;> rfl

/-- The voids keep the window open on its record. -/
theorem DiscardSteps.voided_window (h : DiscardSteps s u t z i) :
    t.window = s.window.map (windowVoided (u.membersOf (u.anchored i))) ∧ t.lastWindow = s.lastWindow ∧
      t.epoch = s.epoch ∧ t.resetHeld = s.resetHeld ∧ t.events = u.events := by
  obtain ⟨x, y, b, ht, -⟩ := h.voids.frame
  obtain ⟨a, ev, hu⟩ := h.read
  rw [ht, hu]
  exact ⟨rfl, rfl, rfl, rfl, rfl⟩

theorem DiscardSteps.window_removed (h : DiscardSteps s u t z i) {w : Window} (hw : s.window = some w) (hi : w.occ = i) :
    z.window = none ∧ z.lastWindow = some (lastWindowOf w .aborted .discard s.epoch) ∧
      z.events = u.events.raise s.resetHeld .windowAborted := by
  obtain ⟨hwin, -, hepoch, hheld, hev⟩ := h.voided_window
  obtain ⟨hz, hlast, hevents⟩ := h.freed.removed _ (hwin.trans (congrArg _ hw)) ((windowVoided_occ _ w).trans hi)
  refine ⟨hz, hlast.trans ?_, by rw [hevents, hheld, hev]⟩
  rw [hepoch]
  unfold lastWindowOf windowVoided
  split <;> rfl

theorem DiscardSteps.window_kept (h : DiscardSteps s u t z i) (hw : ∀ w, s.window = some w → w.occ ≠ i) :
    z.window = s.window.map (windowVoided (u.membersOf (u.anchored i))) ∧ z.lastWindow = s.lastWindow ∧
      z.events = u.events := by
  obtain ⟨hwin, hlast, -, -, hev⟩ := h.voided_window
  rw [← hwin, ← hlast, ← hev]
  refine h.freed.kept fun v hv => ?_
  rw [hwin, Option.map_eq_some_iff] at hv
  obtain ⟨w, hsw, rfl⟩ := hv
  rw [windowVoided_occ]
  exact hw w hsw

theorem DiscardSteps.window_of_other (h : DiscardSteps s u t z i) {w : Window} (hw : s.window = some w) (hi : w.occ ≠ i) :
    (Claims.VoidedMember s i w.occ → z.window = some { w with memberOf := none }) ∧
    (¬Claims.VoidedMember s i w.occ → z.window = some w) := by
  obtain ⟨hz, -, -⟩ := h.window_kept fun v hv => by
    obtain rfl := Option.some.inj (hw.symm.trans hv)
    exact hi
  rw [hz, hw]
  exact ⟨fun hm => congrArg some (if_pos ((h.mem_members _).2 hm)),
    fun hm => congrArg some (if_neg (mt (h.mem_members _).1 hm))⟩

theorem DiscardSteps.events (h : DiscardSteps s u t z i) (hheld : s.resetHeld = false) {k : BitVec 16}
    (hu : u.events = { s.events with pending := s.events.pending ||| k }) [Decidable (∃ w, s.window = some w ∧ w.occ = i)] :
    z.events = { s.events with
      pending := s.events.pending ||| k ||| (if ∃ w, s.window = some w ∧ w.occ = i then 0x0002 else 0) } := by
  by_cases hw : ∃ w, s.window = some w ∧ w.occ = i
  · obtain ⟨w, hsw, hi⟩ := hw
    have hwin : ∃ w, s.window = some w ∧ w.occ = i := ⟨w, hsw, hi⟩
    rw [(h.window_removed hsw hi).2.2, hheld, hu, if_pos hwin]
    rfl
  · rw [(h.window_kept fun w hsw hi => hw ⟨w, hsw, hi⟩).2.2, hu, if_neg hw]
    simp

end

theorem discardDamaged_steps {i : Nat} (hread : ∃ a ev, u = { s with occs := a, events := ev })
    (hocc : ∀ j, j ≠ i → u.occ? j = s.occ? j) (hfailing : ∀ p, u.occ? i = some p → p.damaged = true)
    (hothers : ∀ j p, j ≠ i → s.occ? j = some p → p.sound = true ∧ p.damaged = false) (hs : EntriesRead s)
    (hp : PoolRead u) (hl : LoopsRead s) (hwf : s.loopsWf = true) : ∃ t, DiscardSteps s u t (u.discardDamaged i) i := by
  obtain ⟨hsu, hlu, hwfu⟩ : EntriesRead u ∧ LoopsRead u ∧ u.loopsWf = true := by
    obtain ⟨a, ev, rfl⟩ := hread
    exact ⟨hs, hl, hwf⟩
  obtain ⟨t, hvoids, hfreed⟩ := discardDamaged_spec i hsu hp hlu hwfu
  exact ⟨t, hread, hocc, hfailing, hothers, hl, hvoids, hfreed⟩

theorem discardOccupationBody_of_failing {i : Nat} {o : Occ} (hi : i < 512) (hl : LoopsRead (s.checkOcc i))
    (ho : (s.checkOcc i).occ? i = some { o with damaged := true }) :
    discardOccupationBody i s = if ((s.checkOcc i).anchored i).any (s.checkOcc i).loopHolds
      then (s.checkOcc i).refuse .loopBusy
      else ((s.checkOcc i).discardDamaged i).respond .ok (u16 i ++ u16 o.station) := by
  have hi : i < Config.poolSize := hi
  simp [discardOccupationBody, hi, ho, checkLoops_of_sound hl]

theorem discardDamaged_claim : Claims.DiscardDamaged := by
  refine ⟨fun s i hs hi => ?_, fun s i o hs hi ho hfail hothers hst hloops hlwf hswf => ?_⟩
  · have : ¬i < Config.poolSize := Nat.not_lt.2 hi
    rw [exec_discardOccupation hs]
    simp [discardOccupationBody, this]
  intro u busy
  have hheld : s.resetHeld = false := resetHeld_of_serves hs
  obtain ⟨⟨a, hframe⟩, hocc⟩ := checkOcc_of_failing hheld ho hfail
  have hpool := failing_poolRead hheld ho hfail fun j p hj hp => (hothers j p hj hp).1
  have hl : LoopsRead s := fun l x hx => hloops _ (mem_of_slotGet hx)
  have hlu : LoopsRead (s.checkOcc i) := by
    rw [hframe]
    exact hl
  have hui := (hocc i).trans (if_pos rfl)
  rw [exec_discardOccupation hs, discardOccupationBody_of_failing hi hlu hui]
  have hbusy : (u.anchored i).any u.loopHolds = true ↔ ∃ l x, s.loop? l = some x ∧ Claims.Anchors i x ∧ busy l x := by
    refine (any_loopHolds_iff hlu i).trans ?_
    rw [hframe]
    rfl
  refine ⟨fun hb => by rw [if_pos (hbusy.2 hb)], fun hb => ?_⟩
  rw [if_neg (mt hbusy.1 fun ⟨l, x, hx, ha, hlx⟩ => hb l x hx ha hlx)]
  obtain ⟨t, h⟩ := discardDamaged_steps ⟨a, _, hframe⟩ (fun j hj => (hocc j).trans (if_neg hj)) (fun p hp => by
    obtain rfl := Option.some.inj (hui.symm.trans hp)
    rfl) hothers hst hpool hl hlwf
  have hevents := h.events hheld (by rw [hframe])
  have hz := h.frame (part_of_serves_ready hs)
  have hdue := h.expiryDue (part_of_serves_ready hs)
  generalize (s.checkOcc i).discardDamaged i = z at h hevents hz hdue ⊢
  refine ⟨_, rfl, ?_, ?_, (h.freed.occ i).trans (if_pos rfl), fun l r hr => ⟨fun ha => ?_, fun ha => ?_⟩, fun l hr => ?_,
    hdue, fun j hj => ?_, fun j p hj hp => h.occ_other hj hp, fun v f hf => h.station hswf hf, fun v hv => h.free hv,
    fun hw => ?_, fun w hw => ⟨fun hwi => ?_, fun hwi => h.window_of_other hw hwi⟩, fun hw => (h.window_kept hw).2.1,
    hevents⟩
  · rw [hz]
    rfl
  · rw [hz]
    rfl
  · exact (h.loop? l).trans (if_pos ((h.mem_anchored l).2 ⟨r, hr, ha⟩))
  · refine (h.loop? l).trans ((if_neg fun hmem => ?_).trans (congrArg (Option.map _) hr))
    obtain ⟨x, hx, hax⟩ := (h.mem_anchored l).1 hmem
    obtain rfl := Option.some.inj (hr.symm.trans hx)
    exact ha hax
  · refine (h.loop? l).trans ?_
    rw [hr]
    split <;> rfl
  · refine (h.freed.occ j).trans ?_
    split
    · rfl
    · next hji => exact h.voids.free j ((h.occ j hji).trans hj)
  · refine (h.window_kept fun w hsw => by simp [hw] at hsw).1.trans ?_
    rw [hw]
    rfl
  · exact ⟨(h.window_removed hw hwi).1, (h.window_removed hw hwi).2.1⟩

/-- Settles O38: of a damaged record the loops that it anchors are voided one after another before the record goes. -/
theorem discardOccupation : Obligations.DiscardOccupation := ⟨discardSound_claim, discardDamaged_claim⟩

end Sys2Proof.Machine
end

