-- ==== Sys2Proof/Proofs/Stations/RecordReads.lean ====
section
/-! SUPPORT. READ STATION, READ SLOT, READ OCCUPATION, READ SITE and READ LOOP: what each answers and what its reads
leave. -/

namespace Sys2Proof.Machine

open Sys2Proof

variable {s t u : State}

/-! ### READ STATION and READ SLOT (R19, R20) -/

theorem exec_readStation {n : Nat} (h : s.serves (.readStation n) .readyRestore = true) :
    exec (.readStation n) s = .next (readStationBody n s) := hostCommand_of_serves _ h

theorem exec_readSlot {set way : Nat} (h : s.serves (.readSlot set way) .readyRestore = true) :
    exec (.readSlot set way) s = .next (readSlotBody set way s) := hostCommand_of_serves _ h

theorem readStationBody_of_found {n w : Nat} {e : Station} (hn : validNumber n = true) (hl : s.keyedLookup n = (t, .found w))
    (he : ((t.touch w).readOut w).station? w = some e) :
    readStationBody n s = if e.damaged then ((t.touch w).readOut w).refuse .damaged
      else ((t.touch w).readOut w).respond .ok (stationBytes w e) := by
  simp [readStationBody, hn, hl, he]

theorem readSlotBody_of_range {set way : Nat} (hset : set < 64) (hway : way < 4) : readSlotBody set way s =
    match (s.checkStation (set * 4 + way)).station? (set * 4 + way) with
    | none => (s.checkStation (set * 4 + way)).respond .ok (u8 0)
    | some e => if e.damaged then (s.checkStation (set * 4 + way)).refuse .damaged
      else (s.checkStation (set * 4 + way)).respond .ok
        (stationBytes (set * 4 + way) e ++ u8 ((s.checkStation (set * 4 + way)).rank (set * 4 + way))) := by
  simp [readSlotBody, hset, hway] <;> rfl

theorem intact_touch (h : s.intact = true) (w : Nat) : (s.touch w).intact = true := h

theorem readStation_claim : Claims.ReadStation := by
  refine fun s n set way hi => ⟨fun w e hs h1 h2 hm he => ?_, fun hs hset hway => ⟨fun e he => ?_, fun he => ?_⟩,
    fun hs h => ?_⟩
  · have hst := station?_activate he (intact_station hi he).1
    have hew : ((s.activate w).touch w).station? w = some (Claims.looked e) := by
      rw [station?_touch, hst, if_pos rfl]
    have hread := readOut_of_intact (intact_touch (intact_activate hi w) w) w
    have hb := readStationBody_of_found (validNumber_of_range h1 h2) (keyedLookup_of_found hi hm he)
      (by rw [hread]; exact hew)
    have hd : (Claims.looked e).damaged = false := (intact_station hi he).2
    rw [hread, hd, if_neg Bool.false_ne_true] at hb
    obtain ⟨y, hy⟩ := activate_stationsOnly (s := s) w
    refine ⟨_, (exec_readStation hs).trans (congrArg _ hb), by rw [hy]; rfl, by rw [hy]; rfl, hew, fun v hv => ?_,
      touched_congr (by rw [hy]) (touched_touch _ w)⟩
    rw [station?_respond, station?_touch, hst, if_neg hv]
  · have hdiv : (set * 4 + way) / 4 = set := by omega
    rw [exec_readSlot hs, readSlotBody_of_range hset hway, checkStation_of_intact hi, he]
    simp only [(intact_station hi he).2, Bool.false_eq_true, if_false, State.rank, hdiv]
  · rw [exec_readSlot hs, readSlotBody_of_range hset hway, checkStation_of_intact hi, he]
    rfl
  · have : ¬set < 64 ∨ ¬way < 4 := by omega
    rw [exec_readSlot hs]
    rcases this with h | h <;> simp [readSlotBody, h]

theorem readStationRefusals_claim : Claims.ReadStationRefusals := by
  intro s n hs
  rw [exec_readStation hs]
  refine ⟨fun h => by simp [readStationBody, validNumber_of_out h], fun h1 h2 u out ho => ⟨?_, ?_, fun w => ?_⟩⟩ <;>
    rintro rfl <;> simp [readStationBody, validNumber_of_range h1 h2, ho, Lookup.status]

/-- The read-out of an entry that agreed with its check value until a late upset (log 2). -/
theorem readOut_of_late (hr : s.resetHeld = false) {w : Nat} {e : Station} (hlate : s.late = some w)
    (he : s.station? w = some e) :
    (∃ x, s.readOut w = { s with stations := x, late := none, events := { s.events with
      pending := s.events.pending ||| 0x2000 } }) ∧
    ∀ v, (s.readOut w).station? v = if v = w then some { e with sound := false, damaged := true } else s.station? v := by
  have hupset : s.readOut w = (State.setStation { s with late := none } w { e with sound := false }).checkStation w := by
    simp only [State.readOut, hlate, if_true, State.upsetRecord]
    rw [show State.station? { s with late := none } w = some e from he]
  have hw : (State.setStation { s with late := none } w { e with sound := false }).station? w =
      some { e with sound := false } := (station?_setStation _ _ _).trans (if_pos rfl)
  rw [hupset]
  obtain ⟨⟨x, hx⟩, hst⟩ :=
    checkStation_of_failing (s := State.setStation { s with late := none } w { e with sound := false }) hr hw (.inr rfl)
  refine ⟨⟨x, hx⟩, fun v => (hst v).trans ?_⟩
  by_cases hv : v = w
  · rw [if_pos hv, if_pos hv]
  · rw [if_neg hv, if_neg hv, station?_setStation, if_neg hv]
    rfl

theorem touched_of_recency_eq {w : Nat} (ht : t.recency = u.recency) (h : Claims.Touched s u w) : Claims.Touched s t w := by
  simp only [Claims.Touched, State.order] at h ⊢
  rw [ht]
  exact h

theorem readOutFails_claim : Claims.ReadOutFails := by
  intro s n w e hs hi hlate h1 h2 hm he
  have hsound : ∀ v f, s.station? v = some f → f.sound = true ∧ f.damaged = false := fun v f hf =>
    intact_station (s := { s with late := none }) hi hf
  have hl := keyedLookup_of_lone (checkStations_of_setReads fun v f _ hf => (hsound v f hf).1) hm he (hsound w e he).2
  have hst := station?_activate he (hsound w e he).1
  obtain ⟨y, hy⟩ := activate_stationsOnly (s := s) w
  have hew : ((s.activate w).touch w).station? w = some (Claims.looked e) := by rw [station?_touch, hst, if_pos rfl]
  have hlate' : ((s.activate w).touch w).late = some w := by
    rw [hy]
    exact hlate
  obtain ⟨⟨z, hframe⟩, hread⟩ := readOut_of_late (by rw [hy]; exact resetHeld_of_serves hs) hlate' hew
  have hb := readStationBody_of_found (validNumber_of_range h1 h2) hl ((hread w).trans (if_pos rfl))
  rw [if_pos rfl] at hb
  generalize ((s.activate w).touch w).readOut w = t at hframe hread hb
  rw [hy] at hframe
  refine ⟨_, (exec_readStation hs).trans (congrArg _ hb), by rw [hframe]; rfl, by rw [hframe]; rfl,
    (hread w).trans (if_pos rfl), fun v hv => ?_,
    touched_congr (s := s.activate w) (by rw [hy]) (touched_of_recency_eq ?_ (touched_touch _ w))⟩
  · refine (hread v).trans ((if_neg hv).trans ?_)
    rw [station?_touch, hst, if_neg hv]
  · rw [hy, hframe]
    rfl

/-! ### READ OCCUPATION and READ LOOP (R53, R132) -/

theorem exec_readOccupation {i : Nat} (h : s.serves (.readOccupation i) .readyRestore = true) :
    exec (.readOccupation i) s = .next (readOccupationBody i s) := hostCommand_of_serves _ h

theorem exec_readLoop {l : Nat} (h : s.serves (.readLoop l) .readyRestore = true) :
    exec (.readLoop l) s = .next (readLoopBody l s) := hostCommand_of_serves _ h

theorem readOccupationBody_of_read {i : Nat} {o : Occ} (hi : i < 512) (ho : (s.checkOcc i).occ? i = some o) :
    readOccupationBody i s = if o.damaged then (s.checkOcc i).refuse .damaged
      else ((s.checkOcc i).lookupMarks o).1.respond .ok (occBytes i o ((s.checkOcc i).lookupMarks o).2) := by
  have hi : i < Config.poolSize := hi
  simp [readOccupationBody, hi, ho]

theorem lookupMarks_of_no_results {o : Occ} (h : o.results = none) : s.lookupMarks o = (s, false, false) := by
  simp [State.lookupMarks, h]

theorem lookupMarks_of_usable {o : Occ} {r : Results} {w : Nat} {e : Station} (h : o.results = some r)
    (hr : s.checkStations (waysOf o.station) = s) (hu : s.usable o.station = some w) (he : s.station? w = some e) :
    s.lookupMarks o = (((s.checkSite e.site).constantsMark r).1, tideStaleAt r e.site ((s.checkSite e.site).site e.site),
      ((s.checkSite e.site).constantsMark r).2) := by
  simp [State.lookupMarks, h, State.internalLookup, hr, hu, he, State.staleMarks, State.tideMark]

theorem lookupMarks_of_unusable {o : Occ} {r : Results} (h : o.results = some r)
    (hr : s.checkStations (waysOf o.station) = s) (hu : s.usable o.station = none) :
    s.lookupMarks o = ((s.constantsMark r).1, true, (s.constantsMark r).2) := by
  simp [State.lookupMarks, h, State.internalLookup, hr, hu, State.staleMarks, State.tideMark]

theorem readOccupation_claim : Claims.ReadOccupation := by
  intro s i hs hi
  rw [exec_readOccupation hs]
  refine ⟨fun hlt ho => ?_, fun o hlt ho hres => ?_, fun o r w e hlt ho hres hm he ha => ?_, fun hge => ?_⟩
  · have hlt : i < Config.poolSize := hlt
    simp [readOccupationBody, hlt, checkOcc_of_intact hi, ho, u8, beBytes]
  · rw [readOccupationBody_of_read hlt (by rw [checkOcc_of_intact hi]; exact ho), checkOcc_of_intact hi,
      (intact_occ hi ho).2, lookupMarks_of_no_results hres]
    rfl
  · have hu : s.usable o.station = some w := by
      rw [usable_of_lone hm he, if_pos ⟨ha, by simp [(intact_station hi he).2]⟩]
    rw [readOccupationBody_of_read hlt (by rw [checkOcc_of_intact hi]; exact ho), checkOcc_of_intact hi,
      (intact_occ hi ho).2, lookupMarks_of_usable hres (checkStations_of_intact hi _) hu he, checkSite_of_intact hi]
    simp [State.constantsMark, checkConstants_of_intact hi, (intact_constants hi).2, tideStaleAt, (intact_site hi e.site).2]
  · have : ¬i < Config.poolSize := Nat.not_lt.2 hge
    simp [readOccupationBody, this]

theorem readLoop_claim : Claims.ReadLoop := by
  intro s l hs
  rw [exec_readLoop hs]
  refine ⟨fun hge => ?_, fun hlt hi => ⟨fun hr => ?_, fun r hr => ⟨fun o ho => ?_, fun ho => ?_⟩⟩⟩
  · have : ¬l < Config.loops := Nat.not_lt.2 hge
    simp [readLoopBody, this]
  all_goals have hlt : l < Config.loops := hlt
  · simp [readLoopBody, hlt, checkLoop_of_intact hi, hr, u8, beBytes]
  · simp [readLoopBody, hlt, checkLoop_of_intact hi, hr, (intact_loop hi hr).2, checkOcc_of_intact hi, ho,
      (intact_occ hi ho).2, State.walks]
  · simp [readLoopBody, hlt, checkLoop_of_intact hi, hr, (intact_loop hi hr).2, checkOcc_of_intact hi, ho, State.walks]

/-! ### Records that fail their check -/

theorem checkLoop_of_failing (hr : s.resetHeld = false) {l : Nat} {r : Loop} (hl : s.loop? l = some r)
    (hf : r.damaged = true ∨ r.sound = false) :
    s.checkLoop l = { s.setLoop l { r with damaged := true } with
      events := { s.events with pending := s.events.pending ||| 0x2000 } } := by
  have hread : (r.sound && !r.damaged) = false := by rcases hf with h | h <;> simp [h]
  simp only [State.checkLoop, hl, hread, State.raise, Events.raise, State.setLoop_resetHeld, hr]
  rfl

theorem readsOfDamaged_claim : Claims.ReadsOfDamaged := by
  intro s
  refine ⟨fun i o hs hi ho hf => ?_, fun set way e hs hset hway he hf => ?_, fun l r hl hr hf => ?_,
    fun l r o hs hl hr hrs hrd ho hf => ?_⟩
  · obtain ⟨-, hocc⟩ := checkOcc_of_failing (resetHeld_of_serves hs) ho hf
    rw [exec_readOccupation hs, readOccupationBody_of_read hi ((hocc i).trans (if_pos rfl))]
    rfl
  · obtain ⟨-, hst⟩ := checkStation_of_failing (resetHeld_of_serves hs) he hf
    rw [exec_readSlot hs, readSlotBody_of_range hset hway, hst, if_pos rfl]
    rfl
  · have hlt : l < Config.loops := hl
    obtain ⟨t, ht⟩ : ∃ t, t = { s.setLoop l { r with damaged := true } with
        events := { s.events with pending := s.events.pending ||| 0x2000 } } := ⟨_, rfl⟩
    have hloop : ∀ k, t.loop? k = if k = l then some { r with damaged := true } else s.loop? k := fun k => by
      rw [ht]
      exact loop?_setLoop l k _
    have hread : s.resetHeld = false → s.checkLoop l = t := fun h => (checkLoop_of_failing h hr hf).trans ht.symm
    refine ⟨t, by rw [ht]; rfl, (hloop l).trans (if_pos rfl), fun k hk => (hloop k).trans (if_neg hk), fun hs => ?_,
      fun hs => ?_⟩
    · rw [exec_readLoop hs]
      simp [readLoopBody, hlt, hread (resetHeld_of_serves hs), hloop]
    · rw [exec_releaseLoop hs]
      simp [releaseLoopBody, hlt, hread (resetHeld_of_serves hs), hloop]
  · have hl : l < Config.loops := hl
    obtain ⟨-, hocc⟩ := checkOcc_of_failing (resetHeld_of_serves hs) ho hf
    have hread : s.checkLoop l = s := checkLoop_of_sound fun x hx => by
      obtain rfl := Option.some.inj (hr.symm.trans hx)
      exact ⟨hrs, hrd⟩
    rw [exec_readLoop hs]
    simp [readLoopBody, hl, hread, hr, hrd, hocc]

/-! ### READ SITE (R97) -/

theorem exec_readSite {k : Nat} (h : s.serves (.readSite k) .readyRestore = true) :
    exec (.readSite k) s = .next (readSiteBody k s) := hostCommand_of_serves _ h

/-- R92: a constituent as a read of it leaves it. -/
def readConstituent (c : Constituent) : Constituent := { c with damaged := c.damaged || !c.sound }

/-- A constituent that carries the mark or newly fails its check. -/
def BadConstituent (c : Constituent) : Prop := c.damaged = true ∨ c.sound = false

theorem readConstituent_of_not_bad {c : Constituent} (h : ¬BadConstituent c) : readConstituent c = c := by
  obtain ⟨-, hs⟩ := not_or.1 h
  have hsame : (c.damaged || !c.sound) = c.damaged := by
    rw [Bool.not_eq_false] at hs
    rw [hs, Bool.not_true, Bool.or_false]
  rw [readConstituent, hsame]

theorem badConstituent_readConstituent (c : Constituent) : BadConstituent (readConstituent c) ↔ BadConstituent c := by
  unfold BadConstituent readConstituent
  cases c.damaged <;> cases c.sound <;> simp

theorem readConstituent_idem (c : Constituent) : readConstituent (readConstituent c) = readConstituent c := by
  unfold readConstituent
  cases c.damaged <;> cases c.sound <;> rfl

theorem constituent_setConstituent {k : Nat} (hk : k < 12) (c : Constituent) (j : Nat) :
    (s.setConstituent k c).constituent j = if j = k then c else s.constituent j := by
  unfold State.constituent
  rw [State.setConstituent_constituents, Vector.getElem?_setIfInBounds]
  by_cases hj : j = k
  · simp [hj, hk]
  · simp [hj, Ne.symm hj]

/-- `t` is `s` with the constituents of `ks` read. -/
structure ConstituentsRead (s t : State) (ks : List Nat) : Prop where
  frame : t = { s with constituents := t.constituents, events := t.events }
  constituent : ∀ j, t.constituent j = if j ∈ ks then readConstituent (s.constituent j) else s.constituent j
  raised : (∃ j ∈ ks, BadConstituent (s.constituent j)) →
    t.events = { s.events with pending := s.events.pending ||| 0x2000 }
  quiet : (¬∃ j ∈ ks, BadConstituent (s.constituent j)) → t.events = s.events

theorem checkConstituent_read (hr : s.resetHeld = false) {k : Nat} (hk : k < 12) :
    ConstituentsRead s (s.checkConstituent k) [k] := by
  by_cases hb : BadConstituent (s.constituent k)
  · have hc : s.checkConstituent k =
        (s.setConstituent k { s.constituent k with damaged := true }).raise .memoryError := by
      have : ((s.constituent k).sound && !(s.constituent k).damaged) = false := by rcases hb with h | h <;> simp [h]
      simp [State.checkConstituent, this]
    have hmark : readConstituent (s.constituent k) = { s.constituent k with damaged := true } := by
      unfold readConstituent
      rcases hb with h | h <;> simp [h]
    rw [hc]
    refine ⟨rfl, fun j => ?_, fun _ => ?_, fun h => absurd ⟨k, List.mem_cons_self, hb⟩ h⟩
    · refine (constituent_setConstituent hk _ j).trans ?_
      by_cases hj : j = k
      · simp [hj, hmark]
      · simp [hj]
    · simp only [State.raise, Events.raise, State.setConstituent_resetHeld, hr]
      rfl
  · have hc : s.checkConstituent k = s := by
      obtain ⟨hd, hs⟩ := not_or.1 hb
      simp only [Bool.not_eq_true, Bool.not_eq_false] at hd hs
      simp [State.checkConstituent, hd, hs]
    rw [hc]
    refine ⟨rfl, fun j => ?_, fun ⟨j, hj, h⟩ => ?_, fun _ => rfl⟩
    · by_cases hj : j = k
      · simp [hj, readConstituent_of_not_bad hb]
      · simp [hj]
    · rw [List.mem_singleton.1 hj] at h
      exact absurd h hb

theorem ConstituentsRead.trans {ks ls : List Nat} (h : ConstituentsRead s t ks) (k : ConstituentsRead t u ls) :
    ConstituentsRead s u (ks ++ ls) := by
  have hbad : ∀ j, BadConstituent (t.constituent j) ↔ BadConstituent (s.constituent j) := fun j => by
    rw [h.constituent]
    split
    · exact badConstituent_readConstituent _
    · rfl
  refine ⟨?_, fun j => ?_, fun hb => ?_, fun hb => ?_⟩
  · rw [k.frame, h.frame]
  · rw [k.constituent, h.constituent]
    by_cases hk : j ∈ ks <;> by_cases hl : j ∈ ls <;> simp [hk, hl, readConstituent_idem]
  · by_cases hl : ∃ j ∈ ls, BadConstituent (t.constituent j)
    · rw [k.raised hl]
      by_cases hs : ∃ j ∈ ks, BadConstituent (s.constituent j)
      · rw [h.raised hs, BitVec.or_assoc, BitVec.or_self]
      · rw [h.quiet hs]
    · rw [k.quiet hl]
      refine h.raised ?_
      obtain ⟨j, hj, hjb⟩ := hb
      exact ⟨j, (List.mem_append.1 hj).resolve_right fun hjl => hl ⟨j, hjl, (hbad j).2 hjb⟩, hjb⟩
  · rw [k.quiet fun ⟨j, hj, hjb⟩ => hb ⟨j, List.mem_append_right _ hj, (hbad j).1 hjb⟩]
    exact h.quiet fun ⟨j, hj, hjb⟩ => hb ⟨j, List.mem_append_left _ hj, hjb⟩

theorem foldl_checkConstituent_read (hr : s.resetHeld = false) {ks : List Nat} (hk : ∀ k ∈ ks, k < 12) :
    ConstituentsRead s (ks.foldl State.checkConstituent s) ks := by
  induction ks generalizing s with
  | nil => exact ⟨rfl, fun j => by simp, fun ⟨j, hj, _⟩ => absurd hj List.not_mem_nil, fun _ => rfl⟩
  | cons k ks ih =>
    have h := checkConstituent_read hr (hk k List.mem_cons_self)
    exact h.trans (ih (by rw [h.frame]; exact hr) fun j hj => hk j (List.mem_cons_of_mem k hj))

theorem checkConstituents_read (hr : s.resetHeld = false) :
    ConstituentsRead s s.checkConstituents (List.range 12) := foldl_checkConstituent_read hr fun _ => List.mem_range.1

theorem constituents_of_read (h : ConstituentsRead s t (List.range 12)) :
    t.constituents.toList = s.constituents.toList.map readConstituent := by
  have hv : t.constituents = s.constituents.map readConstituent := by
    ext1 j hj
    have := h.constituent j
    simp only [State.constituent, Vector.getElem?_eq_getElem hj, Option.getD_some, List.mem_range.2 hj, if_true] at this
    rw [this, Vector.getElem_map]
  rw [hv, Vector.toList_map]

theorem checkSite_of_failing {k : Nat} (h : (s.site k).damaged = true ∨ (s.site k).sound = false) :
    s.checkSite k = (s.setSite k { s.site k with damaged := true }).raise .memoryError := by
  have : ((s.site k).sound && !(s.site k).damaged) = false := by rcases h with h | h <;> simp [h]
  simp [State.checkSite, this]

theorem checkSite_of_sound {k : Nat} (hs : (s.site k).sound = true) (hd : (s.site k).damaged = false) :
    s.checkSite k = s := by
  simp [State.checkSite, hs, hd]

theorem site_setSite {k : Nat} (hk : k < 8) (c : Site) (j : Nat) :
    (s.setSite k c).site j = if j = k then c else s.site j := by
  unfold State.site
  rw [State.setSite_sites, Vector.getElem?_setIfInBounds]
  by_cases hj : j = k
  · simp [hj, hk]
  · simp [hj, Ne.symm hj]

theorem readSiteBody_of_sound {k : Nat} (hk : k < 8) (hs : (s.site k).sound = true) (hd : (s.site k).damaged = false) :
    readSiteBody k s = s.checkConstituents.respond .ok
      (siteBytes k (s.checkConstituents.site k) s.checkConstituents.constituents.toList) := by
  have hk : k < Config.sites := hk
  simp [readSiteBody, hk, checkSite_of_sound hs hd, hd]

theorem constituentBytes_readConstituent (c : Constituent) : constituentBytes (readConstituent c) =
    if c.damaged || !c.sound then [0] else [1] ++ flagByte c.enabled ++ u24 c.speed ++ u16 c.phase := by
  unfold constituentBytes readConstituent
  rfl

theorem intact_mem_constituents (h : s.intact = true) {c : Constituent} (hc : c ∈ s.constituents.toList) :
    c.sound = true ∧ c.damaged = false := by
  simp only [State.intact, Bool.and_eq_true, List.all_eq_true] at h
  obtain ⟨⟨⟨-, hall⟩, -⟩, -⟩ := h
  simpa using hall c hc

theorem readSite_claim : Claims.ReadSite := by
  intro s k hs
  rw [exec_readSite hs]
  refine ⟨fun hk hi => ?_, fun hk hf => ?_, fun hk hd hsound => ?_, fun hk => ?_⟩
  · obtain ⟨hsound, hd⟩ := intact_site hi k
    rw [readSiteBody_of_sound hk hsound hd, checkConstituents_of_intact hi, siteBytes]
    have hundamaged : ∀ c ∈ s.constituents.toList, constituentBytes c =
        [1] ++ flagByte c.enabled ++ u24 c.speed ++ u16 c.phase := fun c hc => by
      rw [constituentBytes, (intact_mem_constituents hi hc).2]
      rfl
    rw [List.flatMap_congr hundamaged]
  · have hlt : k < Config.sites := hk
    have hdam : (((s.setSite k { s.site k with damaged := true }).raise .memoryError).site k).damaged = true :=
      congrArg Site.damaged ((site_setSite hk _ k).trans (if_pos rfl))
    simp [readSiteBody, hlt, checkSite_of_failing hf, hdam]
  · have h := checkConstituents_read (resetHeld_of_serves hs)
    have hlist := constituents_of_read h
    have hb := readSiteBody_of_sound hk hsound hd
    generalize s.checkConstituents = t at h hlist hb
    refine ⟨_, congrArg _ hb, ?_, fun j hj => ?_, ⟨fun hf => ?_, fun hf => ?_⟩, ?_⟩
    · rw [h.frame]
      rfl
    · exact (h.constituent j).trans (if_pos (List.mem_range.2 hj))
    · exact h.raised (by simpa [BadConstituent] using hf)
    · exact h.quiet (by simpa [BadConstituent] using hf)
    · rw [hlist, siteBytes, List.flatMap_map]
      simp only [constituentBytes_readConstituent]
      rw [h.frame]
      rfl
  · have : ¬k < Config.sites := Nat.not_lt.2 hk
    simp [readSiteBody, this]

/-! ### The stale marks (R103 to R105) -/

/-- A site that carries the mark or newly fails its check. -/
def BadSite (s : State) (k : Nat) : Prop := (s.site k).damaged = true ∨ (s.site k).sound = false

theorem lt_of_badSite {k : Nat} (h : BadSite s k) : k < 8 := by
  by_contra hk
  have : s.site k = clearSite := by
    unfold State.site
    rw [Vector.getElem?_eq_none (Nat.not_lt.1 hk)]
    rfl
  rw [BadSite, this] at h
  simp [clearSite] at h

/-- `t` is `s` with the sites that `N` names read, where they are bad, and its constants. -/
structure MarksRead (s t : State) (N : Nat → Prop) : Prop where
  frame : t = { s with sites := t.sites, constants := t.constants, events := t.events }
  bad : ∀ k, N k → BadSite s k → t.site k = { s.site k with damaged := true }
  other : ∀ k, ¬(N k ∧ BadSite s k) → t.site k = s.site k
  constants : t.constants = { s.constants with damaged := s.constants.damaged || !s.constants.sound }
  raised : (∃ k, N k ∧ BadSite s k) ∨ s.constants.damaged = false ∧ s.constants.sound = false →
    t.events = { s.events with pending := s.events.pending ||| 0x2000 }
  quiet : ¬((∃ k, N k ∧ BadSite s k) ∨ s.constants.damaged = false ∧ s.constants.sound = false) → t.events = s.events

theorem checkConstants_marksRead (hr : s.resetHeld = false) : MarksRead s (s.checkConstants false) fun _ => False := by
  by_cases hb : s.constants.damaged = true ∨ s.constants.sound = false
  · rw [checkConstants_of_damaged hr hb]
    refine ⟨rfl, fun k h => h.elim, fun k _ => rfl, ?_, fun h => ?_, fun h => ?_⟩
    · have : (s.constants.damaged || !s.constants.sound) = true := by rcases hb with h | h <;> simp [h]
      rw [this]
    · obtain ⟨hd, -⟩ : s.constants.damaged = false ∧ _ := h.resolve_left fun ⟨_, hk, _⟩ => hk
      simp [hd]
    · have hd : s.constants.damaged = true := by
        by_contra hd
        exact h (.inr ⟨by simpa using hd, hb.resolve_left hd⟩)
      simp [hd]
  · obtain ⟨hd, hs⟩ := not_or.1 hb
    rw [Bool.not_eq_true] at hd
    rw [Bool.not_eq_false] at hs
    have hsame : (s.constants.damaged || !s.constants.sound) = s.constants.damaged := by
      rw [hs, Bool.not_true, Bool.or_false]
    have hc : s.checkConstants false = s := by simp [State.checkConstants, hd, hs]
    rw [hc]
    exact ⟨rfl, fun k h => h.elim, fun k _ => rfl, by rw [hsame], fun h => by simp [hs] at h, fun _ => rfl⟩

theorem checkSite_marksRead (hr : s.resetHeld = false) (k : Nat) :
    MarksRead s ((s.checkSite k).checkConstants false) fun j => j = k := by
  by_cases hb : BadSite s k
  · have hk := lt_of_badSite hb
    have hsite : ∀ j, (s.checkSite k).site j = if j = k then { s.site k with damaged := true } else s.site j := fun j => by
      rw [checkSite_of_failing hb]
      exact site_setSite hk _ j
    have hframe : s.checkSite k = { s with
        sites := (s.checkSite k).sites, events := { s.events with pending := s.events.pending ||| 0x2000 } } := by
      rw [checkSite_of_failing hb]
      simp only [State.raise, Events.raise, State.setSite_resetHeld, hr]
      rfl
    generalize s.checkSite k = u at hsite hframe
    have h := checkConstants_marksRead (s := u) (by rw [hframe]; exact hr)
    refine ⟨?_, fun j hj _ => ?_, fun j hj => ?_, ?_, fun _ => ?_, fun hn => absurd (.inl ⟨k, rfl, hb⟩) hn⟩
    · rw [h.frame, hframe]
    · rw [h.other j fun h => h.1, hsite, if_pos hj, hj]
    · have hjk : j ≠ k := fun h => hj ⟨h, h ▸ hb⟩
      rw [h.other j fun h => h.1, hsite, if_neg hjk]
    · rw [h.constants, hframe]
    · have hu : u.events = { s.events with pending := s.events.pending ||| 0x2000 } := by rw [hframe]
      by_cases hc : u.constants.damaged = false ∧ u.constants.sound = false
      · rw [h.raised (.inr hc), hu, BitVec.or_assoc, BitVec.or_self]
      · rw [h.quiet fun hn => hn.elim (fun ⟨_, hf, _⟩ => hf) hc, hu]
  · obtain ⟨hd, hs⟩ := not_or.1 hb
    have h := checkConstants_marksRead hr
    rw [checkSite_of_sound (by simpa using hs) (by simpa using hd)]
    have hnone : (∃ j, j = k ∧ BadSite s j) ↔ ∃ j, False ∧ BadSite s j :=
      ⟨fun ⟨j, hj, hjb⟩ => absurd (hj ▸ hjb) hb, fun ⟨_, hf, _⟩ => hf.elim⟩
    refine ⟨h.frame, fun j hj hjb => absurd (hj ▸ hjb) hb, fun j _ => h.other j fun h => h.1, h.constants, ?_, ?_⟩
    · rw [hnone]
      exact h.raised
    · rw [hnone]
      exact h.quiet

theorem MarksRead.congr {N P : Nat → Prop} (h : MarksRead s t N) (hN : ∀ k, N k ↔ P k) : MarksRead s t P := by
  obtain rfl : N = P := funext fun k => propext (hN k)
  exact h

/-- The constants mark that a read of the constants leaves. -/
theorem MarksRead.constantsMark {N : Nat → Prop} (h : MarksRead s t N) (r : Results) :
    (t.constants.damaged || decide (r.revision ≠ t.constants.revision)) = false ↔
      s.constants.damaged = false ∧ s.constants.sound = true ∧ r.revision = s.constants.revision := by
  rw [h.constants]
  cases s.constants.damaged <;> cases s.constants.sound <;> simp

theorem station_of_usable {n w : Nat} (h : s.usable n = some w) : ∃ e, s.station? w = some e := by
  unfold State.usable at h
  split at h
  · next v _ =>
    cases hv : s.station? v with
    | none => simp [hv] at h
    | some e =>
      simp only [hv] at h
      split at h
      · rw [← Option.some.inj h]
        exact ⟨e, hv⟩
      · cases h
  · cases h

/-- The sites that the stations of a number name, by the internal lookup. -/
def SiteNamed (s : State) (n k : Nat) : Prop := ∃ w x, s.usable n = some w ∧ s.station? w = some x ∧ x.site = k

theorem siteNamed_of_usable {n w : Nat} {e : Station} (hu : s.usable n = some w) (he : s.station? w = some e) (k : Nat) :
    SiteNamed s n k ↔ k = e.site := by
  constructor
  · rintro ⟨v, x, hv, hx, rfl⟩
    obtain rfl := Option.some.inj (hu.symm.trans hv)
    obtain rfl := Option.some.inj (he.symm.trans hx)
    rfl
  · rintro rfl
    exact ⟨w, e, hu, he, rfl⟩

theorem tideStaleAt_checkSite (r : Results) (k : Nat) : tideStaleAt r k ((s.checkSite k).site k) = false ↔
    r.site = k ∧ ¬BadSite s r.site ∧ r.siteRevision = (s.site r.site).revision := by
  have hread : (((s.checkSite k).site k).damaged = false ↔ ¬BadSite s k) ∧
      ((s.checkSite k).site k).revision = (s.site k).revision := by
    by_cases hb : BadSite s k
    · have hsite : (s.checkSite k).site k = { s.site k with damaged := true } := by
        rw [checkSite_of_failing hb]
        exact (site_setSite (lt_of_badSite hb) _ k).trans (if_pos rfl)
      rw [hsite]
      simp [hb]
    · obtain ⟨hd, hs⟩ := not_or.1 hb
      rw [checkSite_of_sound (by simpa using hs) (by simpa using hd)]
      simp [hb, hd]
  simp only [tideStaleAt, Bool.or_eq_false_iff, hread, decide_eq_false_iff_not, not_not]
  constructor
  · rintro ⟨⟨rfl, h⟩, h'⟩
    exact ⟨rfl, h, h'⟩
  · rintro ⟨rfl, h, h'⟩
    exact ⟨⟨rfl, h⟩, h'⟩

theorem lookupMarks_spec (hr : s.resetHeld = false) {o : Occ} {r : Results} (h : o.results = some r)
    (hc : Claims.SetReads s o.station) :
    MarksRead s (s.lookupMarks o).1 (SiteNamed s o.station) ∧
    ((s.lookupMarks o).2.1 = false ↔ SiteNamed s o.station r.site ∧ ¬BadSite s r.site ∧
      r.siteRevision = (s.site r.site).revision) ∧
    ((s.lookupMarks o).2.2 = false ↔
      s.constants.damaged = false ∧ s.constants.sound = true ∧ r.revision = s.constants.revision) := by
  have hread := checkStations_of_setReads hc
  cases hu : s.usable o.station with
  | none =>
    have hnone : ∀ k, ¬SiteNamed s o.station k := fun k ⟨w, x, hw, _⟩ => by simp [hu] at hw
    have hm := (checkConstants_marksRead hr).congr fun k => (iff_false_intro (hnone k)).symm
    rw [lookupMarks_of_unusable h hread hu]
    exact ⟨hm, iff_of_false (by simp) fun hn => hnone _ hn.1, hm.constantsMark r⟩
  | some w =>
    obtain ⟨e, he⟩ := station_of_usable hu
    have hnamed := siteNamed_of_usable hu he
    have hm := (checkSite_marksRead hr e.site).congr fun k => (hnamed k).symm
    rw [lookupMarks_of_usable h hread hu he]
    refine ⟨hm, ?_, hm.constantsMark r⟩
    rw [hnamed]
    exact tideStaleAt_checkSite r e.site

theorem readOccupationMarks_claim : Claims.ReadOccupationMarks := by
  intro s i o r hs hi ho hos hod hres hset
  have hread : s.checkOcc i = s := checkOcc_of_sound fun p hp => by
    obtain rfl := Option.some.inj (ho.symm.trans hp)
    exact hos
  have hb := readOccupationBody_of_read hi (by rw [hread]; exact ho)
  rw [hread, hod, if_neg Bool.false_ne_true] at hb
  obtain ⟨hm, htide, hconsts⟩ := lookupMarks_spec (resetHeld_of_serves hs) hres hset
  refine ⟨_, _, _, (exec_readOccupation hs).trans (congrArg _ hb), ?_, ?_, htide, hconsts, hm.bad, hm.other, hm.constants,
    hm.raised, hm.quiet⟩
  · rw [hm.frame]
    rfl
  · rw [hm.frame]
    rfl

/-- Settles O46: each read answers its record, and what its checks find is marked and answered. -/
theorem recordReads : Obligations.RecordReads :=
  ⟨readStation_claim, readStationRefusals_claim, readOutFails_claim, readOccupation_claim, readOccupationMarks_claim,
    readSite_claim, readLoop_claim, readsOfDamaged_claim⟩

end Sys2Proof.Machine
end

