-- ==== Sys2Proof/Proofs/Stations/EngineReads.lean ====
section
/-! SUPPORT. The reads of the reduction engine, which stop at the first record to fail (R148, log 18), and the halt. -/

namespace Sys2Proof.Machine

open Sys2Proof

variable {s t u : State} {f g : Flight}

/-! ### The halt (R148) -/

theorem halted_of_failRecord {r : RecordId} (hr : s.resetHeld = false) (he : (s.failRecord r).engine = s.engine)
    (hv : (s.failRecord r).events = { s.events with pending := s.events.pending ||| 0x2000 })
    (hh : (s.failRecord r).resetHeld = s.resetHeld) : Claims.Halted s (s.halt r f) f r := by
  have hmask : s.events.pending ||| 0x2000 ||| Event.engineHalted.mask = s.events.pending ||| 0x2200 :=
    (BitVec.or_assoc _ _ _).trans (congrArg (s.events.pending ||| ·) (by decide))
  refine ⟨?_, ?_⟩
  · simp only [State.halt, State.raise, he]
  · simp only [State.halt, State.raise, Events.raise, hh, hr, hv, Bool.false_eq_true, if_false, hmask]

/-- The mark of MEMORY_ERROR where the part is not held in reset. -/
theorem events_raise_memoryError (hr : s.resetHeld = false) :
    s.events.raise s.resetHeld .memoryError = { s.events with pending := s.events.pending ||| 0x2000 } := by
  rw [hr]
  rfl

theorem halt_haltedAtOcc (hr : s.resetHeld = false) {i : Nat} {o : Occ} (ho : s.occ? i = some o) :
    Claims.HaltedAtOcc s (s.halt (.occupation i) f) f i o := by
  have hfail : s.failRecord (.occupation i) = (s.setOcc i { o with damaged := true }).raise .memoryError := by
    simp only [State.failRecord, ho]
  have hocc : ∀ j, (s.halt (.occupation i) f).occ? j = if j = i then some { o with damaged := true } else s.occ? j := by
    intro j
    rw [← occ?_setOcc, State.halt, hfail]
    rfl
  refine ⟨?_, halted_of_failRecord hr (by rw [hfail]; rfl) ?_ (by rw [hfail]; rfl), (hocc i).trans (if_pos rfl),
    fun j hj => (hocc j).trans (if_neg hj)⟩
  · rw [State.halt, hfail]
    rfl
  · rw [hfail]
    exact events_raise_memoryError hr

theorem halt_haltedAtLoop (hr : s.resetHeld = false) {l : Nat} {r : Loop} (hl : s.loop? l = some r) :
    Claims.HaltedAtLoop s (s.halt (.loop l) f) f l r := by
  have hfail : s.failRecord (.loop l) = (s.setLoop l { r with damaged := true }).raise .memoryError := by
    simp only [State.failRecord, hl]
  have hloop : ∀ k, (s.halt (.loop l) f).loop? k = if k = l then some { r with damaged := true } else s.loop? k := by
    intro k
    rw [← loop?_setLoop, State.halt, hfail]
    rfl
  refine ⟨?_, halted_of_failRecord hr (by rw [hfail]; rfl) ?_ (by rw [hfail]; rfl), (hloop l).trans (if_pos rfl),
    fun k hk => (hloop k).trans (if_neg hk)⟩
  · rw [State.halt, hfail]
    rfl
  · rw [hfail]
    exact events_raise_memoryError hr

theorem halt_haltedAtStation (hr : s.resetHeld = false) {v : Nat} {e : Station} (he : s.station? v = some e) :
    Claims.HaltedAtStation s (s.halt (.station v) f) f v e := by
  have hfail : s.failRecord (.station v) = (s.setStation v { e with damaged := true }).raise .memoryError := by
    simp only [State.failRecord, he]
  have hst : ∀ u, (s.halt (.station v) f).station? u = if u = v then some { e with damaged := true } else s.station? u := by
    intro u
    rw [← station?_setStation, State.halt, hfail]
    rfl
  refine ⟨?_, halted_of_failRecord hr (by rw [hfail]; rfl) ?_ (by rw [hfail]; rfl), (hst v).trans (if_pos rfl),
    fun u hu => (hst u).trans (if_neg hu)⟩
  · rw [State.halt, hfail]
    rfl
  · rw [hfail]
    exact events_raise_memoryError hr

theorem halt_haltedAtConstituent (hr : s.resetHeld = false) {k : Nat} (hk : k < 12) :
    Claims.HaltedAtConstituent s (s.halt (.constituent k) f) f k := by
  have hc : ∀ j, (s.halt (.constituent k) f).constituent j =
      if j = k then { s.constituent k with damaged := true } else s.constituent j := fun j => by
    rw [← constituent_setConstituent hk]
    rfl
  exact ⟨rfl, halted_of_failRecord hr rfl (events_raise_memoryError hr) rfl, (hc k).trans (if_pos rfl),
    fun j hj => (hc j).trans (if_neg hj)⟩

theorem halt_haltedAtSite (hr : s.resetHeld = false) {k : Nat} (hk : k < 8) :
    Claims.HaltedAtSite s (s.halt (.site k) f) f k := by
  have hc : ∀ j, (s.halt (.site k) f).site j = if j = k then { s.site k with damaged := true } else s.site j := fun j => by
    rw [← site_setSite hk]
    rfl
  exact ⟨rfl, halted_of_failRecord hr rfl (events_raise_memoryError hr) rfl, (hc k).trans (if_pos rfl),
    fun j hj => (hc j).trans (if_neg hj)⟩

theorem halt_haltedAtConstants (hr : s.resetHeld = false) : Claims.HaltedAtConstants s (s.halt .constants f) f :=
  ⟨rfl, halted_of_failRecord hr rfl (events_raise_memoryError hr) rfl⟩

/-! ### The entries of a set (R8, log 18) -/

theorem readWays_of_sound {ws : List Nat} (h : ∀ w ∈ ws, ∀ e, s.station? w = some e → e.sound = true) :
    readWays ws s = .ok s := by
  induction ws with
  | nil => rfl
  | cons w ws ih =>
    have hrest := ih fun v hv => h v (List.mem_cons_of_mem w hv)
    cases hw : s.station? w with
    | none => simp [readWays, hw, hrest]
    | some e => simp [readWays, hw, h w List.mem_cons_self e hw, hrest]

/-- In a list that rises, the entries before the first to fail are sound. -/
theorem readWays_of_first {ws : List Nat} (hr : ws.Pairwise (· < ·)) {v : Nat} {e : Station} (hv : v ∈ ws)
    (he : s.station? v = some e) (hs : e.sound = false) (hd : e.damaged = false)
    (h : ∀ w ∈ ws, w < v → ∀ x, s.station? w = some x → x.sound = true) : readWays ws s = .error (.station v) := by
  induction ws with
  | nil => exact absurd hv List.not_mem_nil
  | cons w ws ih =>
    obtain ⟨hw, hr⟩ := List.pairwise_cons.1 hr
    by_cases hwv : w = v
    · subst hwv
      simp [readWays, he, hs, hd]
    · have hv' : v ∈ ws := (List.mem_cons.1 hv).resolve_left (Ne.symm hwv)
      have hrest := ih hr hv' fun x hx => h x (List.mem_cons_of_mem w hx)
      cases hst : s.station? w with
      | none => simp [readWays, hst, hrest]
      | some x => simp [readWays, hst, h w List.mem_cons_self (hw v hv') x hst, hrest]

theorem engineLookup_of_setReads {n : Nat} (h : Claims.SetReads s n) : engineLookup s n = .ok (s, s.usable n) := by
  have hw : readWays (waysOf n) s = .ok s := readWays_of_sound fun w hw e he => h w e (mem_waysOf.1 hw) he
  simp only [engineLookup, hw, bind, Except.bind]

theorem engineLookup_of_first {n v : Nat} {e : Station} (h : Claims.FirstToFail s n v e) :
    engineLookup s n = .error (.station v) := by
  obtain ⟨hv, he, hs, hd, hlow⟩ := h
  have hw : readWays (waysOf n) s = .error (.station v) :=
    readWays_of_first (waysOfSet_rising _) (mem_waysOf.2 hv) he hs hd
      fun w hw hlt x hx => hlow w x ((mem_waysOf.1 hw).trans hv.symm) hlt hx
  simp only [engineLookup, hw, bind, Except.bind]

/-! ### Single records -/

theorem needOcc_of_sound {i : Nat} {o : Occ} (ho : s.occ? i = some o) (hs : o.sound = true) (hd : o.damaged = false) :
    needOcc s i = .ok (some o) := by
  simp [needOcc, ho, hs, hd]

theorem needOcc_of_failing {i : Nat} {o : Occ} (ho : s.occ? i = some o) (hf : o.sound = false ∨ o.damaged = true) :
    needOcc s i = .error (.occupation i) := by
  rcases hf with h | h <;> simp [needOcc, ho, h]

theorem needOcc_of_none {i : Nat} (ho : s.occ? i = none) : needOcc s i = .ok none := by
  simp [needOcc, ho]

theorem needLoop_of_sound {l : Nat} {r : Loop} (hl : s.loop? l = some r) (hs : r.sound = true) (hd : r.damaged = false) :
    needLoop s l = .ok (some r) := by
  simp [needLoop, hl, hs, hd]

theorem needLoop_of_failing {l : Nat} {r : Loop} (hl : s.loop? l = some r) (hf : r.sound = false ∨ r.damaged = true) :
    needLoop s l = .error (.loop l) := by
  rcases hf with h | h <;> simp [needLoop, hl, h]

theorem needConstants_of_sound (hs : s.constants.sound = true) (hd : s.constants.damaged = false) :
    needConstants s = .ok s.constants := by
  simp [needConstants, hs, hd]

theorem needConstants_of_failing (hf : s.constants.sound = false ∨ s.constants.damaged = true) :
    needConstants s = .error .constants := by
  rcases hf with h | h <;> simp [needConstants, h]

theorem needSite_of_sound {k : Nat} (hs : (s.site k).sound = true) (hd : (s.site k).damaged = false) :
    needSite s k = .ok (s.site k) := by
  simp [needSite, hs, hd]

theorem needSite_of_failing {k : Nat} (hf : (s.site k).sound = false ∨ (s.site k).damaged = true) :
    needSite s k = .error (.site k) := by
  rcases hf with h | h <;> simp [needSite, h]

/-! ### The tide answer (R99) -/

theorem needConstituents_of_sound {ks : List Nat}
    (h : ∀ k ∈ ks, (s.constituent k).sound = true ∧ (s.constituent k).damaged = false) : needConstituents s ks = .ok () := by
  induction ks with
  | nil => rfl
  | cons k ks ih =>
    have hk := h k List.mem_cons_self
    have hrest := ih fun j hj => h j (List.mem_cons_of_mem k hj)
    simp [needConstituents, hk, hrest]

theorem needConstituents_of_first {ks : List Nat} (hr : ks.Pairwise (· < ·)) {k : Nat} (hk : k ∈ ks)
    (hf : (s.constituent k).sound = false ∨ (s.constituent k).damaged = true)
    (h : ∀ j, j < k → (s.constituent j).sound = true ∧ (s.constituent j).damaged = false) :
    needConstituents s ks = .error (.constituent k) := by
  induction ks with
  | nil => exact absurd hk List.not_mem_nil
  | cons j ks ih =>
    obtain ⟨hj, hr⟩ := List.pairwise_cons.1 hr
    by_cases hjk : j = k
    · subst hjk
      rcases hf with h | h <;> simp [needConstituents, h]
    · have hk' : k ∈ ks := (List.mem_cons.1 hk).resolve_left (Ne.symm hjk)
      simp [needConstituents, h j (hj k hk'), ih hr hk']

theorem tideAnswer_of_first {site k : Nat} (h : Claims.FirstConstituent s site k) (epoch : Nat) :
    tideAnswer s (s.site site) epoch = .error (.constituent k) := by
  obtain ⟨hset, hk, hlow, hf⟩ := h
  have hc : needConstituents s (List.range Config.constituents) = .error (.constituent k) :=
    needConstituents_of_first List.pairwise_lt_range (List.mem_range.2 hk) hf hlow
  simp only [tideAnswer, hset, if_true, hc, bind, Except.bind]

/-- Where no constituent is the first to fail, none of those that the tide answer reads fails. -/
theorem tideAnswer_of_none {e : Station} (h : ∀ k, ¬Claims.FirstConstituent s e.site k) (epoch : Nat) :
    tideAnswer s (s.site e.site) epoch = .ok (Claims.tideFor s e epoch) := by
  by_cases hset : (s.site e.site).set = true
  · have hgood : ∀ k, k < 12 → (s.constituent k).sound = true ∧ (s.constituent k).damaged = false := by
      intro k
      induction k using Nat.strong_induction_on with
      | _ k ih =>
        intro hk
        by_contra hf
        refine h k ⟨hset, hk, fun j hj => ih j hj (hj.trans hk), ?_⟩
        by_cases hs : (s.constituent k).sound = true
        · exact .inr (by simpa [hs] using hf)
        · exact .inl (by simpa using hs)
    have hc : needConstituents s (List.range Config.constituents) = .ok () :=
      needConstituents_of_sound fun k hk => hgood k (List.mem_range.1 hk)
    simp only [tideAnswer, Claims.tideFor, hset, if_true, hc, bind, Except.bind]
  · simp [tideAnswer, Claims.tideFor, hset]

/-! ### One reduction (R85) -/

theorem reduceRecord_of_unsound {i : Nat} {o : Occ} (h : o.sound = false) :
    reduceRecord s i o = .error (.occupation i) := by
  simp [reduceRecord, readOcc, h, bind, Except.bind]

theorem reduceRecord_of_constants {i : Nat} {o : Occ} (h : o.sound = true)
    (hc : s.constants.sound = false ∨ s.constants.damaged = true) : reduceRecord s i o = .error .constants := by
  simp [reduceRecord, readOcc, h, needConstants_of_failing hc, bind, Except.bind]

theorem reduceRecord_of_station {i : Nat} {o : Occ} (h : o.sound = true) (hs : s.constants.sound = true)
    (hd : s.constants.damaged = false) {v : Nat} {e : Station} (hf : Claims.FirstToFail s o.station v e) :
    reduceRecord s i o = .error (.station v) := by
  simp [reduceRecord, readOcc, h, needConstants_of_sound hs hd, engineLookup_of_first hf, bind, Except.bind]

theorem reduceRecord_of_unusable {i : Nat} {o : Occ} (h : o.sound = true) (hs : s.constants.sound = true)
    (hd : s.constants.damaged = false) (hr : Claims.SetReads s o.station) (hu : s.usable o.station = none) :
    reduceRecord s i o = .ok (s, false) := by
  simp [reduceRecord, readOcc, h, needConstants_of_sound hs hd, engineLookup_of_setReads hr, hu, bind, Except.bind]

/-- The reads of a reduction past the station: the site and the constituents. -/
theorem reduceRecord_of_usable {i : Nat} {o : Occ} {w : Nat} {e : Station} {m : Reading} (h : o.sound = true)
    (hs : s.constants.sound = true) (hd : s.constants.damaged = false) (hr : Claims.SetReads s o.station)
    (hu : s.usable o.station = some w) (he : s.station? w = some e) (hm : o.reading = some m) :
    reduceRecord s i o = (do
      let site ← needSite s e.site
      let tide ← tideAnswer s site m.epoch
      .ok ((s.putOcc i (reducedOcc o s.constants m.sums tide e.site site.revision)).markChanged w, true)) := by
  simp [reduceRecord, readOcc, h, needConstants_of_sound hs hd, engineLookup_of_setReads hr, hu, he, hm, bind, Except.bind]

theorem reduceRecord_of_site {i : Nat} {o : Occ} {w : Nat} {e : Station} {m : Reading} (h : o.sound = true)
    (hs : s.constants.sound = true) (hd : s.constants.damaged = false) (hr : Claims.SetReads s o.station)
    (hu : s.usable o.station = some w) (he : s.station? w = some e) (hm : o.reading = some m)
    (hf : (s.site e.site).sound = false ∨ (s.site e.site).damaged = true) :
    reduceRecord s i o = .error (.site e.site) := by
  rw [reduceRecord_of_usable h hs hd hr hu he hm, needSite_of_failing hf]
  rfl

theorem reduceRecord_of_constituent {i k : Nat} {o : Occ} {w : Nat} {e : Station} {m : Reading} (h : o.sound = true)
    (hs : s.constants.sound = true) (hd : s.constants.damaged = false) (hr : Claims.SetReads s o.station)
    (hu : s.usable o.station = some w) (he : s.station? w = some e) (hm : o.reading = some m)
    (hss : (s.site e.site).sound = true) (hsd : (s.site e.site).damaged = false)
    (hf : Claims.FirstConstituent s e.site k) : reduceRecord s i o = .error (.constituent k) := by
  rw [reduceRecord_of_usable h hs hd hr hu he hm, needSite_of_sound hss hsd]
  simp only [bind, Except.bind, tideAnswer_of_first hf]

theorem reduceRecord_of_inputsRead {i : Nat} {o : Occ} {w : Nat} {e : Station} {m : Reading} (h : o.sound = true)
    (hr : Claims.InputsRead s o.station e) (hu : s.usable o.station = some w) (he : s.station? w = some e)
    (hm : o.reading = some m) :
    reduceRecord s i o = .ok ((s.putOcc i (Claims.reduced s o m e)).markChanged w, true) := by
  obtain ⟨hs, hd, hset, hss, hsd, hc⟩ := hr
  rw [reduceRecord_of_usable h hs hd hset hu he hm, needSite_of_sound hss hsd]
  simp only [bind, Except.bind, tideAnswer_of_none hc, Claims.reduced]

/-! ### The loops to recompute (R87, log 18) -/

theorem closedLoopsOf_of_first {i : Nat} {ls : List Nat} (hr : ls.Pairwise (· < ·)) {l : Nat} {r : Loop} (hl : l ∈ ls)
    (h : Claims.FirstLoop s l r) : closedLoopsOf i ls s = .error (.loop l) := by
  induction ls generalizing s with
  | nil => exact absurd hl List.not_mem_nil
  | cons k ls ih =>
    obtain ⟨hk, hr⟩ := List.pairwise_cons.1 hr
    have hfirst := h
    obtain ⟨hloop, hs, hd, hlow⟩ := hfirst
    by_cases hkl : k = l
    · subst hkl
      simp [closedLoopsOf, hloop, hs, hd]
    · have hl' : l ∈ ls := (List.mem_cons.1 hl).resolve_left (Ne.symm hkl)
      cases hx : s.loop? k with
      | none => simp [closedLoopsOf, hx, ih hr hl' h]
      | some x =>
        have hraised : closedLoopsOf i ls (s.raise .memoryError) = .error (.loop l) := ih hr hl' h
        cases hxd : x.damaged <;>
          simp [closedLoopsOf, hx, hxd, hraised, hlow k x (hk l hl') hx, ih hr hl' h, bind, Except.bind]

/-- R87: a loop that a record's reduction starts the recomputation of. -/
def State.recomputes (s : State) (i l : Nat) : Bool :=
  (s.loop? l).any fun r => r.state = .closed ∧ (r.openEnd = i ∨ r.closing = some i)

theorem closedLoopsOf_of_sound {i : Nat} {ls : List Nat} (h : LoopsRead s) :
    closedLoopsOf i ls s = .ok (s, ls.filter (s.recomputes i)) := by
  induction ls with
  | nil => rfl
  | cons l ls ih =>
    cases hr : s.loop? l with
    | none => simp [closedLoopsOf, hr, ih, State.recomputes]
    | some r =>
      obtain ⟨hs, hd⟩ := h l r hr
      by_cases hc : r.state = .closed ∧ (r.openEnd = i ∨ r.closing = some i) <;>
        simp [closedLoopsOf, hr, hs, hd, ih, State.recomputes, hc, bind, Except.bind]

end Sys2Proof.Machine
end

