-- ==== Sys2Proof/Proofs/Stations/EngineSteps.lean ====
section
/-! SUPPORT. The steps of the reduction engine as they read (R118 to R121, R131, R142 to R145): what each answers, and at
which record it halts. -/

namespace Sys2Proof.Machine

open Sys2Proof

variable {s t u : State} {f g : Flight}

/-! ### One step (R138, R148) -/

theorem engineStep_of_error {due : Flight → Bool} {body : State → Flight → StepResult} {r : RecordId}
    (hw : s.engine.state = .working) (hf : s.engine.flight = some f) (he : f.ending = none) (hd : due f = true)
    (hb : body s f = .error (r, g)) : s.engineStep due body = s.halt r g := by
  simp [State.engineStep, hw, hf, he, hd, hb]

theorem engineStep_of_ok {due : Flight → Bool} {body : State → Flight → StepResult}
    (hw : s.engine.state = .working) (hf : s.engine.flight = some f) (he : f.ending = none) (hd : due f = true)
    (hb : body s f = .ok (t, g)) : s.engineStep due body = t.setFlight g := by
  simp [State.engineStep, hw, hf, he, hd, hb]

theorem halting_ok {α : Type} (a : α) : halting f (.ok a) = .ok a := rfl
theorem halting_error {α : Type} (r : RecordId) : halting f (.error r : Except RecordId α) = .error (r, f) := rfl

theorem onClosing_of_closing {l : Nat} {r : Loop} {body : Nat → Loop → StepResult} (hk : f.job.kind = .close l)
    (hl : s.loop? l = some r) (hs : r.sound = true) (hd : r.damaged = false) (hc : r.state = .closing) :
    onClosing s f body = body l r := by
  simp [onClosing, hk, needLoop_of_sound hl hs hd, halting_ok, hc, bind, Except.bind]

theorem onClosing_of_failing {l : Nat} {r : Loop} {body : Nat → Loop → StepResult} (hk : f.job.kind = .close l)
    (hl : s.loop? l = some r) (hf : r.sound = false ∨ r.damaged = true) : onClosing s f body = .error (.loop l, f) := by
  simp [onClosing, hk, needLoop_of_failing hl hf, halting_error, bind, Except.bind]

theorem onClosed_of_closed {l : Nat} {ls : List Nat} {r : Loop} {body : Nat → Loop → StepResult}
    (hk : f.recomp = l :: ls) (hl : s.loop? l = some r) (hs : r.sound = true) (hd : r.damaged = false)
    (hc : r.state = .closed) : onClosed s f body = body l r := by
  simp [onClosed, hk, needLoop_of_sound hl hs hd, halting_ok, hc, bind, Except.bind]

theorem onClosed_of_failing {l : Nat} {ls : List Nat} {r : Loop} {body : Nat → Loop → StepResult}
    (hk : f.recomp = l :: ls) (hl : s.loop? l = some r) (hf : r.sound = false ∨ r.damaged = true) :
    onClosed s f body = .error (.loop l, f) := by
  simp [onClosed, hk, needLoop_of_failing hl hf, halting_error, bind, Except.bind]

theorem find?_split {l pre post : List Nat} {i : Nat} {vis : List Nat} (h : l = pre ++ i :: post) (hpre : ∀ x ∈ pre, x ∈ vis)
    (hi : i ∉ vis) : l.find? (fun j => !vis.contains j) = some i := by
  refine List.find?_eq_some_iff_append.2 ⟨by simpa using hi, pre, post, h, fun x hx => by simpa using hpre x hx⟩

/-! ### A step that reduces a record (R118, R121, R142) -/

theorem reduceAndFind_of_error {i : Nat} {o : Occ} {r : RecordId} (h : reduceRecord s i o = .error r) :
    reduceAndFind s f i o = .error r := by
  simp [reduceAndFind, h, bind, Except.bind]

/-- The states of a record that a REDUCE reduces. -/
def Reducible (o : Occ) : Prop := o.state = .pending ∨ o.state = .reduced ∨ o.state = .final

theorem reduceBody_of_reducible {i : Nat} {o : Occ} (hk : f.job.kind = .reduce i) (ho : s.occ? i = some o)
    (hd : o.damaged = false) (hs : o.sound = true) (hst : Reducible o) : reduceBody s f = halting f (do
      let (t, g, made) ← reduceAndFind s f i o
      .ok (t, if made then g.goTo .reduced else g.endWith .unusable)) := by
  have hnot : ¬(o.state = .settling ∨ o.state = .collecting) := by
    rcases hst with h | h | h <;> simp [h]
  simp [reduceBody, hk, ho, hd, readOcc, hs, hnot, bind, Except.bind]

theorem reduceBody_of_unsound {i : Nat} {o : Occ} (hk : f.job.kind = .reduce i) (ho : s.occ? i = some o)
    (hd : o.damaged = false) (hs : o.sound = false) : reduceBody s f = .error (.occupation i, f) := by
  simp [reduceBody, hk, ho, hd, readOcc, hs, bind, Except.bind, halting_error]

theorem atReduce_of_at (h : Claims.At s f .reducing) : atReduce f = true := by
  obtain ⟨-, -, hp, hr, -⟩ := h
  simp [atReduce, hp, hr]

theorem exec_reduceStep_of_error {r : RecordId} (h : Claims.At s f .reducing) (hb : reduceBody s f = .error (r, g)) :
    exec .reduceStep s = .next (s.halt r g) :=
  congrArg _ (engineStep_of_error h.1 h.2.1 h.2.2.2.2 (atReduce_of_at h) hb)

theorem exec_inlineReduction_of_error {r : RecordId} {p : Place} (h : Claims.At s f p)
    (hp : p = .inlineOpen ∨ p = .inlineClosing) (hb : inlineBody s f = .error (r, g)) :
    exec .inlineReduction s = .next (s.halt r g) := by
  have hdue : atInline f = true := by
    obtain ⟨-, -, hplace, -⟩ := h
    rcases hp with rfl | rfl <;> simp [atInline, hplace]
  exact congrArg _ (engineStep_of_error h.1 h.2.1 h.2.2.2.2 hdue hb)

theorem exec_memberStep_of_error {r : RecordId} {walked : List Nat} (h : Claims.At s f (.member walked))
    (hb : memberBody s f = .error (r, g)) : exec .memberStep s = .next (s.halt r g) := by
  have hdue : atMember f = true := by
    obtain ⟨-, -, hplace, -⟩ := h
    simp [atMember, hplace]
  exact congrArg _ (engineStep_of_error h.1 h.2.1 h.2.2.2.2 hdue hb)

theorem exec_closeLoopCheck_of_error {r : RecordId} (h : Claims.At s f .loopCheck)
    (hb : loopCheckBody s f = .error (r, g)) : exec .closeLoopCheck s = .next (s.halt r g) := by
  have hdue : atLoopCheck f = true := by simp [atLoopCheck, h.2.2.1]
  exact congrArg _ (engineStep_of_error h.1 h.2.1 h.2.2.2.2 hdue hb)

theorem exec_deltaVStep_of_error {r : RecordId} (h : Claims.At s f .deltaV)
    (hb : deltaVBody s f = .error (r, g)) : exec .deltaVStep s = .next (s.halt r g) := by
  have hdue : atDeltaV f = true := by simp [atDeltaV, h.2.2.1]
  exact congrArg _ (engineStep_of_error h.1 h.2.1 h.2.2.2.2 hdue hb)

theorem inlineBody_of_error {l i j : Nat} {r : Loop} {o : Occ} {x : RecordId} (hk : f.job.kind = .close l)
    (hl : s.loop? l = some r) (hs : r.sound = true) (hd : r.damaged = false) (hc : r.state = .closing)
    (hj : r.closing = some j) (hi : f.place = .inlineOpen ∧ i = r.openEnd ∨ f.place = .inlineClosing ∧ i = j)
    (hends : ∀ k, k = r.openEnd ∨ k = j → ∃ q, s.occ? k = some q ∧ q.sound = true ∧ q.damaged = false)
    (ho : s.occ? i = some o) (hx : reduceRecord s i o = .error x) : inlineBody s f = .error (x, f) := by
  obtain ⟨p, hp, hps, hpd⟩ := hends r.openEnd (.inl rfl)
  obtain ⟨q, hq, hqs, hqd⟩ := hends j (.inr rfl)
  have hread : readEndpoints s r = .ok (some p, some q) := by
    simp [readEndpoints, needOcc_of_sound hp hps hpd, hj, needOcc_of_sound hq hqs hqd, bind, Except.bind]
  rw [inlineBody, onClosing_of_closing hk hl hs hd hc]
  rcases hi with ⟨hplace, rfl⟩ | ⟨hplace, rfl⟩
  · obtain rfl := Option.some.inj (ho.symm.trans hp)
    simp [hread, halting_ok, hj, hplace, inlineOne, hx, halting_error, bind, Except.bind]
  · obtain rfl := Option.some.inj (ho.symm.trans hq)
    simp [hread, halting_ok, hj, hplace, inlineOne, hx, halting_error, bind, Except.bind]

/-- The member step at its next member. -/
theorem memberBody_of_next {l i : Nat} {r : Loop} {walked pre post : List Nat} {d : DriftCalc} (hk : f.job.kind = .close l)
    (hl : s.loop? l = some r) (hs : r.sound = true) (hd : r.damaged = false) (hc : r.state = .closing)
    (hplace : f.place = .member walked) (hdrift : f.drift = some d) (hm : r.members = pre ++ i :: post)
    (hpre : ∀ x ∈ pre, x ∈ walked) (hi : i ∉ walked) : memberBody s f = (do
      match ← halting f (needOcc s i) with
      | some o => closeMember s f l i o d (afterMember r (walked ++ [i]))
      | none => .ok (s, f.goTo (afterMember r (walked ++ [i])))) := by
  have hnext : nextMember r walked = some i := find?_split hm hpre hi
  simp only [memberBody, onClosing_of_closing hk hl hs hd hc, hplace, hdrift, hnext] <;> rfl

theorem closeMember_of_error {l i : Nat} {o : Occ} {d : DriftCalc} {next : Place} {x : RecordId}
    (hst : o.state = .pending) (hx : reduceRecord s i o = .error x) : closeMember s f l i o d next = .error (x, f) := by
  have hkeep : keepsDrift o = false := by simp [keepsDrift, hst]
  simp [closeMember, hkeep, hst, hx, halting_error, bind, Except.bind]

/-- A reduction that fails halts its step at the failing record. -/
theorem exec_of_atReduction {i : Nat} {o : Occ} {c : Instr} {x : RecordId} (h : Claims.AtReduction s f i o c)
    (ho : s.occ? i = some o) (hd : o.damaged = false) (hst : o.sound = true → Reducible o)
    (hx : reduceRecord s i o = .error x) : exec c s = .next (s.halt x f) := by
  rcases h with ⟨rfl, hat, hk⟩ | ⟨hpend, l, r, hk, hl, hrs, hrd, hrc, ⟨rfl, j, hj, hi, hends⟩ |
    ⟨rfl, walked, pre, post, hat, hdrift, hm, hpre, hi⟩⟩
  · refine exec_reduceStep_of_error hat ?_
    cases hs : o.sound with
    | false =>
      rw [reduceRecord_of_unsound hs] at hx
      rw [reduceBody_of_unsound hk ho hd hs, Except.error.inj hx]
    | true =>
      rw [reduceBody_of_reducible hk ho hd hs (hst hs), reduceAndFind_of_error hx]
      rfl
  · rcases hi with ⟨hat, rfl⟩ | ⟨hat, rfl⟩
    · exact exec_inlineReduction_of_error hat (.inl rfl)
        (inlineBody_of_error hk hl hrs hrd hrc hj (.inl ⟨hat.2.2.1, rfl⟩) hends ho hx)
    · exact exec_inlineReduction_of_error hat (.inr rfl)
        (inlineBody_of_error hk hl hrs hrd hrc hj (.inr ⟨hat.2.2.1, rfl⟩) hends ho hx)
  · refine exec_memberStep_of_error hat ?_
    obtain ⟨d, hdrift⟩ := Option.isSome_iff_exists.1 hdrift
    rw [memberBody_of_next hk hl hrs hrd hrc hat.2.2.1 hdrift hm hpre hi]
    cases hs : o.sound with
    | false =>
      rw [reduceRecord_of_unsound hs] at hx
      rw [needOcc_of_failing ho (.inl hs), ← Except.error.inj hx]
      rfl
    | true =>
      rw [needOcc_of_sound ho hs hd]
      exact closeMember_of_error hpend hx

end Sys2Proof.Machine
end

