-- ==== Sys2Proof/Proofs/Stations/Reduction.lean ====
section
/-! SUPPORT. The step of a REDUCE (R85, R87, R142), and what halts a reduction (R148). -/

namespace Sys2Proof.Machine

open Sys2Proof

variable {s t u : State} {f g : Flight}

/-! ### The step of a REDUCE -/

theorem exec_reduceStep_of_ok (h : Claims.At s f .reducing) (hb : reduceBody s f = .ok (t, g)) :
    exec .reduceStep s = .next (t.setFlight g) :=
  congrArg _ (engineStep_of_ok h.1 h.2.1 h.2.2.2.2 (atReduce_of_at h) hb)

theorem inputsRead_of_intact (h : s.intact = true) (n : Nat) (e : Station) : Claims.InputsRead s n e := by
  obtain ⟨hs, hd⟩ := intact_constants h
  obtain ⟨hss, hsd⟩ := intact_site h e.site
  refine ⟨hs, hd, setReads_of_intact h n, hss, hsd, fun k ⟨_, _, _, hf⟩ => ?_⟩
  obtain ⟨hcs, hcd⟩ := intact_constituent h k
  rcases hf with hf | hf
  · rw [hcs] at hf
    cases hf
  · rw [hcd] at hf
    cases hf

/-- R85, R26: the record and its station as a reduction writes them. -/
theorem reduce_writes {i w : Nat} {q : Occ} (hp : s.part ≠ .starting)
    (hst : ∀ v x, s.station? v = some x → x.sound = true) (hq : q.sound = true) : ∃ x a, (s.putOcc i q).markChanged w = { s with
      stations := x, occs := a } ∧ (∀ j, ((s.putOcc i q).markChanged w).occ? j = if j = i then some q else s.occ? j) ∧
      Claims.Marks s ((s.putOcc i q).markChanged w) (some w) := by
  obtain ⟨y, c, hframe, hscan⟩ := markChanged_stationsScan (s := s.putOcc i q) w
  have hmark : EntriesMarked s ((s.putOcc i q).markChanged w) fun v => v = w := by
    have h := markChanged_marked (s := s.putOcc i q) (w := w) fun x hx => hst w x hx
    exact ⟨h.on, h.off, h.free⟩
  refine ⟨y, _, by rw [hframe, hscan hp]; rfl, fun j => ?_, fun v => ?_⟩
  · have hocc : ((s.putOcc i q).markChanged w).occ? j = (s.putOcc i q).occ? j := by
      rw [hframe]
      rfl
    have hsame : { q with sound := true } = q := by rw [← hq]
    rw [hocc, occ?_putOcc, hsame]
  · cases hv : s.station? v with
    | none => rw [hmark.free v hv, Option.map_none]
    | some x =>
      by_cases hvw : v = w
      · rw [hmark.on v x hv hvw, hvw, Option.map_some, if_pos rfl]
      · rw [hmark.off v x hv hvw, Option.map_some, if_neg fun h => hvw (Option.some.inj h).symm]

theorem mark_eq (f : Flight) (i : Nat) : f.mark i = { f with written := Claims.noted f i } := by
  unfold Flight.mark Claims.noted
  by_cases h : i ∈ f.written <;> simp [h]

theorem toRecompute_filter (hwf : s.loopsWf = true) (i : Nat) :
    Claims.ToRecompute s i ((slotKeys s.loops).filter (s.recomputes i)) := by
  simp only [State.loopsWf, Bool.and_eq_true] at hwf
  refine ⟨((slotWf_iff _ _).1 hwf.1).1.filter _, fun l => ?_⟩
  rw [List.mem_filter]
  cases hr : s.loop? l with
  | none => simp [State.recomputes, hr]
  | some r => simp [State.recomputes, hr, mem_slotKeys_of_slotGet hr]

theorem recomputes_congr (h : t.loops = s.loops) (i : Nat) : t.recomputes i = s.recomputes i := by
  funext l
  rw [State.recomputes, State.recomputes, State.loop?, State.loop?, h]

/-- A reduction of a sound record on sound inputs and loops, with the loops to recompute. -/
theorem reduceAndFind_of_inputsRead {i w : Nat} {o : Occ} {e : Station} {m : Reading} (h : o.sound = true)
    (hr : Claims.InputsRead s o.station e) (hl : LoopsRead s) (hu : s.usable o.station = some w)
    (he : s.station? w = some e) (hm : o.reading = some m) (ht : (s.putOcc i (Claims.reduced s o m e)).markChanged w = t)
    (htl : t.loops = s.loops) : reduceAndFind s f i o = .ok (t, { f with
      written := Claims.noted f i, recomp := (slotKeys s.loops).filter (s.recomputes i) }, true) := by
  have hlt : LoopsRead t := fun l r hlr => hl l r (by rw [State.loop?, ← htl]; exact hlr)
  simp only [reduceAndFind, reduceRecord_of_inputsRead h hr hu he hm, ht, bind, Except.bind, if_true,
    closedLoopsOf_of_sound hlt, recomputes_congr htl, htl, mark_eq]

theorem goTo_reduced (f : Flight) (he : f.ending = none) : f.goTo .reduced = { f with
    place := .reduced, ending := if f.recomp = [] then some (if f.unusable then .unusable else .done) else none } := by
  unfold Flight.goTo Flight.settle
  by_cases h : f.recomp = [] <;> simp [h, he]

theorem reduceRecord_claim : Claims.ReduceRecord := by
  intro s f i hi hp hwf hat hk
  have hending : f.ending = none := hat.2.2.2.2
  refine ⟨fun o m w e ho hst hm hu he => ?_, fun o ho hst hu => ?_, fun h => ?_⟩
  · obtain ⟨hs, hd⟩ := intact_occ hi ho
    obtain ⟨x, a, hframe, hocc, hmarks⟩ := reduce_writes (i := i) (q := Claims.reduced s o m e) hp
      (fun v x hx => (intact_station hi hx).1) hs
    have hfind := reduceAndFind_of_inputsRead (f := f) (i := i) hs (inputsRead_of_intact hi o.station e)
      (loopsRead_of_intact hi) hu he hm rfl (by rw [hframe])
    have hb := reduceBody_of_reducible hk ho hd hs hst
    rw [hfind] at hb
    generalize (s.putOcc i (Claims.reduced s o m e)).markChanged w = t at hframe hocc hmarks hb
    refine ⟨_, (slotKeys s.loops).filter (s.recomputes i), exec_reduceStep_of_ok hat hb, ?_, (hocc i).trans (if_pos rfl),
      fun j hj => (hocc j).trans (if_neg hj), hmarks, toRecompute_filter hwf i, ?_⟩
    · rw [hframe]
      rfl
    · have hengine : t.engine = s.engine := by rw [hframe]
      have hgo := goTo_reduced { f with
        written := Claims.noted f i, recomp := (slotKeys s.loops).filter (s.recomputes i) } hending
      simp only [if_true, State.setFlight, hengine, hgo]
  · obtain ⟨hs, hd⟩ := intact_occ hi ho
    obtain ⟨hcs, hcd⟩ := intact_constants hi
    refine exec_reduceStep_of_ok hat ((reduceBody_of_reducible hk ho hd hs hst).trans ?_)
    simp [reduceAndFind, reduceRecord_of_unusable hs hcs hcd (setReads_of_intact hi _) hu, bind, Except.bind, halting_ok,
      Flight.endWith]
  · refine exec_reduceStep_of_ok hat ?_
    rcases h with ho | ⟨o, ho, hst⟩
    · simp [reduceBody, hk, ho, Flight.endWith]
    · obtain ⟨hs, hd⟩ := intact_occ hi ho
      simp [reduceBody, hk, ho, hd, readOcc, hs, hst, bind, Except.bind, halting_ok, Flight.endWith]

theorem reduceDamaged_claim : Claims.ReduceDamaged := by
  intro s f i o hat hk ho hd
  refine exec_reduceStep_of_ok hat ?_
  simp [reduceBody, hk, ho, hd, Flight.endWith]

/-! ### What halts a reduction (R148) -/

theorem loopKeys_rising (hwf : s.loopsWf = true) : (slotKeys s.loops).Pairwise (· < ·) := by
  simp only [State.loopsWf, Bool.and_eq_true] at hwf
  exact ((slotWf_iff _ _).1 hwf.1).1

/-- A reduction that is made halts its walk or its job at the lowest loop that newly fails. -/
theorem reduceAndFind_of_loop {i w l : Nat} {o : Occ} {e : Station} {m : Reading} {r : Loop} (h : o.sound = true)
    (hr : Claims.InputsRead s o.station e) (hu : s.usable o.station = some w) (he : s.station? w = some e)
    (hm : o.reading = some m) (hwf : s.loopsWf = true) (hl : Claims.FirstLoop s l r) :
    reduceAndFind s f i o = .error (.loop l) := by
  obtain ⟨x, y, hframe, -⟩ := markChanged_stationsScan (s := s.putOcc i (Claims.reduced s o m e)) w
  have hloops : ((s.putOcc i (Claims.reduced s o m e)).markChanged w).loops = s.loops := by
    rw [hframe]
    rfl
  have hfirst : Claims.FirstLoop ((s.putOcc i (Claims.reduced s o m e)).markChanged w) l r := by
    simpa only [Claims.FirstLoop, State.loop?, hloops] using hl
  have hmem : l ∈ slotKeys s.loops := mem_slotKeys_of_slotGet hl.1
  simp only [reduceAndFind, reduceRecord_of_inputsRead h hr hu he hm, bind, Except.bind, if_true, hloops,
    closedLoopsOf_of_first (loopKeys_rising hwf) hmem hfirst]

theorem reductionHalts_claim : Claims.ReductionHalts := by
  intro s f i o c hat ho hd hheld
  refine ⟨fun hs => ⟨_, exec_of_atReduction hat ho hd (fun h => by simp [hs] at h) (reduceRecord_of_unsound hs),
    halt_haltedAtOcc hheld ho⟩, fun hs hst => ?_⟩
  have hexec := fun x => exec_of_atReduction (x := x) hat ho hd fun _ => hst
  refine ⟨fun hc => ⟨_, hexec _ (reduceRecord_of_constants hs hc), halt_haltedAtConstants hheld⟩, fun hcs hcd =>
    ⟨fun v e hf => ⟨_, hexec _ (reduceRecord_of_station hs hcs hcd hf), halt_haltedAtStation hheld hf.2.1⟩,
      fun hset w e m hu he hm => ⟨fun hf => ?_, fun hss hsd k hf => ?_⟩⟩,
    fun w e m l r hc hu he hm hin hwf hl => ?_⟩
  · exact ⟨_, hexec _ (reduceRecord_of_site hs hcs hcd hset hu he hm hf),
      halt_haltedAtSite hheld (lt_of_badSite hf.symm)⟩
  · exact ⟨_, hexec _ (reduceRecord_of_constituent hs hcs hcd hset hu he hm hss hsd hf),
      halt_haltedAtConstituent hheld hf.2.1⟩
  · subst hc
    rcases hat with ⟨-, hat, hk⟩ | ⟨-, l', r', -, -, -, -, -, ⟨h, -⟩ | ⟨h, -⟩⟩
    · refine ⟨_, exec_reduceStep_of_error hat (r := .loop l) (g := f) ?_, halt_haltedAtLoop hheld hl.1⟩
      rw [reduceBody_of_reducible hk ho hd hs hst, reduceAndFind_of_loop hs hin hu he hm hwf hl]
      rfl
    · cases h
    · cases h

end Sys2Proof.Machine
end

