-- ==== Sys2Proof/Proofs/Stations/CloseHalts.lean ====
section
/-! SUPPORT. What halts the steps of a CLOSE and of a recomputation (R118 to R121, R131, R148). -/

namespace Sys2Proof.Machine

open Sys2Proof

variable {s t u : State} {f g : Flight}

/-! ### The endpoints of a loop -/

/-- The first endpoint of a loop to fail, in the order of the reads (log 18, log 43). -/
def EndFails (s : State) (r : Loop) (i : Nat) (o : Occ) : Prop :=
  s.occ? i = some o ∧ (o.sound = false ∨ o.damaged = true) ∧
    (i = r.openEnd ∨ r.closing = some i ∧ ∀ p, s.occ? r.openEnd = some p → p.sound = true ∧ p.damaged = false)

theorem needOcc_of_read {i : Nat} (h : ∀ o, s.occ? i = some o → o.sound = true ∧ o.damaged = false) :
    needOcc s i = .ok (s.occ? i) := by
  cases ho : s.occ? i with
  | none => exact needOcc_of_none ho
  | some o => exact needOcc_of_sound ho (h o ho).1 (h o ho).2

theorem readEndpoints_of_failing {r : Loop} {i : Nat} {o : Occ} (h : EndFails s r i o) :
    readEndpoints s r = .error (.occupation i) := by
  obtain ⟨ho, hf, rfl | ⟨hj, hopen⟩⟩ := h
  · simp [readEndpoints, needOcc_of_failing ho hf, bind, Except.bind]
  · simp [readEndpoints, needOcc_of_read hopen, hj, needOcc_of_failing ho hf, bind, Except.bind]

theorem deltaV_of_failing {r : Loop} {i : Nat} {o : Occ} (h : EndFails s r i o) :
    deltaV s r = .error (.occupation i) := by
  obtain ⟨ho, hf, rfl | ⟨hj, hopen⟩⟩ := h
  · simp [deltaV, needOcc_of_failing ho hf, bind, Except.bind]
  · simp [deltaV, needOcc_of_read hopen, hj, needOcc_of_failing ho hf, bind, Except.bind]

/-! ### CLOSE (R118, R121, R125) -/

/-- The step of a CLOSE that `c` is. -/
def AtClose (s : State) (f : Flight) (c : Instr) : Prop :=
  c = .closeLoopCheck ∧ Claims.At s f .loopCheck ∨ c = .inlineReduction ∧ Claims.At s f .inlineOpen ∨
    c = .inlineReduction ∧ Claims.At s f .inlineClosing ∨ c = .deltaVStep ∧ Claims.At s f .deltaV ∨
    c = .memberStep ∧ ∃ walked, Claims.At s f (.member walked)

theorem exec_close_of_loop {l : Nat} {r : Loop} {c : Instr} (h : AtClose s f c) (hk : f.job.kind = .close l)
    (hl : s.loop? l = some r) (hf : r.sound = false ∨ r.damaged = true) : exec c s = .next (s.halt (.loop l) f) := by
  rcases h with ⟨rfl, hat⟩ | ⟨rfl, hat⟩ | ⟨rfl, hat⟩ | ⟨rfl, hat⟩ | ⟨rfl, walked, hat⟩
  · exact exec_closeLoopCheck_of_error hat (onClosing_of_failing hk hl hf)
  · exact exec_inlineReduction_of_error hat (.inl rfl) (onClosing_of_failing hk hl hf)
  · exact exec_inlineReduction_of_error hat (.inr rfl) (onClosing_of_failing hk hl hf)
  · exact exec_deltaVStep_of_error hat (onClosing_of_failing hk hl hf)
  · exact exec_memberStep_of_error hat (onClosing_of_failing hk hl hf)

theorem deltaVBody_of_error {l : Nat} {r : Loop} {x : RecordId} (hk : f.job.kind = .close l) (hl : s.loop? l = some r)
    (hs : r.sound = true) (hd : r.damaged = false) (hc : r.state = .closing) (hx : deltaV s r = .error x) :
    deltaVBody s f = .error (x, f) := by
  simp [deltaVBody, onClosing_of_closing hk hl hs hd hc, hx, halting_error, bind, Except.bind]

theorem exec_close_of_end {l i : Nat} {r : Loop} {o : Occ} {c : Instr} (h : AtClose s f c) (hk : f.job.kind = .close l)
    (hl : s.loop? l = some r) (hs : r.sound = true) (hd : r.damaged = false) (hc : r.state = .closing)
    (hm : c ≠ .memberStep) (hf : EndFails s r i o) : exec c s = .next (s.halt (.occupation i) f) := by
  have hread := readEndpoints_of_failing hf
  have hcheck : loopCheckBody s f = .error (.occupation i, f) := by
    simp [loopCheckBody, onClosing_of_closing hk hl hs hd hc, hread, halting_error, bind, Except.bind]
  have hinline : inlineBody s f = .error (.occupation i, f) := by
    simp [inlineBody, onClosing_of_closing hk hl hs hd hc, hread, halting_error, bind, Except.bind]
  rcases h with ⟨rfl, hat⟩ | ⟨rfl, hat⟩ | ⟨rfl, hat⟩ | ⟨rfl, hat⟩ | ⟨rfl, walked, hat⟩
  · exact exec_closeLoopCheck_of_error hat hcheck
  · exact exec_inlineReduction_of_error hat (.inl rfl) hinline
  · exact exec_inlineReduction_of_error hat (.inr rfl) hinline
  · exact exec_deltaVStep_of_error hat (deltaVBody_of_error hk hl hs hd hc (deltaV_of_failing hf))
  · exact absurd rfl hm

theorem closeHalts_claim : Claims.CloseHalts := by
  intro s f l r c hk hl hheld hat
  have hclose : AtClose s f c := hat
  refine ⟨fun hf => ⟨_, exec_close_of_loop hclose hk hl hf, halt_haltedAtLoop hheld hl⟩, fun hs hd hc =>
    ⟨fun o hm ho hf => ?_, fun j p hm hj hopen hp hf => ?_, fun walked d pre i post o hcm hplace hdrift hm hpre hi ho hf => ?_⟩⟩
  · exact ⟨_, exec_close_of_end hclose hk hl hs hd hc hm ⟨ho, hf, .inl rfl⟩, halt_haltedAtOcc hheld ho⟩
  · exact ⟨_, exec_close_of_end hclose hk hl hs hd hc hm ⟨hp, hf, .inr ⟨hj, hopen⟩⟩, halt_haltedAtOcc hheld hp⟩
  · subst hcm
    obtain ⟨v, hv⟩ : ∃ v, Claims.At s f (.member v) := by
      rcases hat with ⟨h, -⟩ | ⟨h, -⟩ | ⟨h, -⟩ | ⟨h, -⟩ | ⟨-, h⟩
      · cases h
      · cases h
      · cases h
      · cases h
      · exact h
    refine ⟨_, exec_memberStep_of_error hv (r := .occupation i) (g := f) ?_, halt_haltedAtOcc hheld ho⟩
    rw [memberBody_of_next hk hl hs hd hc hplace hdrift hm hpre hi, needOcc_of_failing ho hf]
    rfl

/-! ### The recomputation of a CLOSED loop (R131) -/

theorem exec_recomputeDeltaVStep_of_error {l : Nat} {ls : List Nat} {x : RecordId} (hw : s.engine.state = .working)
    (hf : s.engine.flight = some f) (hr : f.recomp = l :: ls) (he : f.ending = none) (hwalk : f.walk = none)
    (hb : recomputeDeltaVBody s f = .error (x, g)) : exec .recomputeDeltaVStep s = .next (s.halt x g) := by
  have hdue : atRecomputeDeltaV f = true := by simp [atRecomputeDeltaV, hr, hwalk]
  exact congrArg _ (engineStep_of_error hw hf he hdue hb)

theorem exec_recomputeMemberStep_of_error {l : Nat} {ls walked : List Nat} {x : RecordId} (hw : s.engine.state = .working)
    (hf : s.engine.flight = some f) (hr : f.recomp = l :: ls) (he : f.ending = none) (hwalk : f.walk = some walked)
    (hb : recomputeMemberBody s f = .error (x, g)) : exec .recomputeMemberStep s = .next (s.halt x g) := by
  have hdue : atRecomputeMember f = true := by simp [atRecomputeMember, hr, hwalk]
  exact congrArg _ (engineStep_of_error hw hf he hdue hb)

theorem recomputeDeltaVBody_of_error {l : Nat} {ls : List Nat} {r : Loop} {x : RecordId} (hr : f.recomp = l :: ls)
    (hl : s.loop? l = some r) (hs : r.sound = true) (hd : r.damaged = false) (hc : r.state = .closed)
    (hx : deltaV s r = .error x) : recomputeDeltaVBody s f = .error (x, f) := by
  simp [recomputeDeltaVBody, onClosed_of_closed hr hl hs hd hc, hx, halting_error, bind, Except.bind]

/-- The member step of a recomputation halts where the read of its next member does. -/
theorem recomputeMemberBody_of_occ {l i : Nat} {ls walked pre post : List Nat} {r : Loop} {d : DriftCalc} {x : RecordId}
    (hr : f.recomp = l :: ls) (hl : s.loop? l = some r) (hs : r.sound = true) (hd : r.damaged = false)
    (hc : r.state = .closed) (hwalk : f.walk = some walked) (hdrift : f.drift = some d) (hm : r.members = pre ++ i :: post)
    (hpre : ∀ y ∈ pre, y ∈ walked) (hi : i ∉ walked) (hx : needOcc s i = .error x) :
    recomputeMemberBody s f = .error (x, f) := by
  have hnext : nextMember r walked = some i := find?_split hm hpre hi
  simp [recomputeMemberBody, onClosed_of_closed hr hl hs hd hc, hwalk, hdrift, hnext, hx, halting_error, bind, Except.bind]

theorem recomputationHalts_claim : Claims.RecomputationHalts := by
  intro s f l ls r hw hf hr he hl hheld
  refine ⟨fun hbad => ⟨fun hwalk => ?_, fun walked hwalk => ?_⟩, fun hs hd hc => ⟨fun o hwalk ho hbad => ?_,
    fun j p hwalk hj hopen hp hbad => ?_, fun walked d pre i post o hwalk hdrift hm hpre hi ho hbad => ?_⟩⟩
  · exact ⟨_, exec_recomputeDeltaVStep_of_error hw hf hr he hwalk (onClosed_of_failing hr hl hbad),
      halt_haltedAtLoop hheld hl⟩
  · exact ⟨_, exec_recomputeMemberStep_of_error hw hf hr he hwalk (onClosed_of_failing hr hl hbad),
      halt_haltedAtLoop hheld hl⟩
  · exact ⟨_, exec_recomputeDeltaVStep_of_error hw hf hr he hwalk
      (recomputeDeltaVBody_of_error hr hl hs hd hc (deltaV_of_failing ⟨ho, hbad, .inl rfl⟩)), halt_haltedAtOcc hheld ho⟩
  · exact ⟨_, exec_recomputeDeltaVStep_of_error hw hf hr he hwalk
      (recomputeDeltaVBody_of_error hr hl hs hd hc (deltaV_of_failing ⟨hp, hbad, .inr ⟨hj, hopen⟩⟩)),
      halt_haltedAtOcc hheld hp⟩
  · exact ⟨_, exec_recomputeMemberStep_of_error hw hf hr he hwalk
      (recomputeMemberBody_of_occ hr hl hs hd hc hwalk hdrift hm hpre hi (needOcc_of_failing ho hbad)),
      halt_haltedAtOcc hheld ho⟩

/-! ### A REDUCED member (R121) -/

theorem writeDrift_of_first {i v : Nat} {o : Occ} {d : DriftCalc} {e : Station} (h : Claims.FirstToFail s o.station v e) :
    writeDrift s i o d = .error (.station v) := by
  have hlook : engineLookup (s.putOcc i (driftedOcc o d (endValue i o) (endEpoch o))) o.station = .error (.station v) :=
    engineLookup_of_first (s := s.putOcc i _) h
  simp only [writeDrift, markMember, hlook, bind, Except.bind]

theorem memberHalts_claim : Claims.MemberHalts := by
  intro s f c l i v walked pre post r o e hheld hl hs hd hdrift hat hm hpre hi ho hos hod hred hfirst
  obtain ⟨d, hdrift⟩ := Option.isSome_iff_exists.1 hdrift
  have hwrite := writeDrift_of_first (i := i) (d := d) hfirst
  have hkeep : keepsDrift o = false := by simp [keepsDrift, hred]
  rcases hat with ⟨rfl, hat, hk, hc⟩ | ⟨rfl, hw, hf, ⟨ls, hr⟩, he, hwalk, hc⟩
  · refine ⟨_, exec_memberStep_of_error hat (r := .station v) (g := f) ?_, halt_haltedAtStation hheld hfirst.2.1⟩
    rw [memberBody_of_next hk hl hs hd hc hat.2.2.1 hdrift hm hpre hi, needOcc_of_sound ho hos hod, halting_ok]
    simp [closeMember, hkeep, hred, ho, hwrite, halting_error, bind, Except.bind]
  · refine ⟨_, exec_recomputeMemberStep_of_error hw hf hr he hwalk (x := .station v) (g := f) ?_,
      halt_haltedAtStation hheld hfirst.2.1⟩
    have hnext : nextMember r walked = some i := find?_split hm hpre hi
    simp [recomputeMemberBody, onClosed_of_closed hr hl hs hd hc, hwalk, hdrift, hnext, needOcc_of_sound ho hos hod,
      halting_ok, hkeep, hred, hwrite, halting_error, bind, Except.bind]

/-! ### The ΔV step (R119, R120) -/

theorem referenceOf_of_setReads {n : Nat} (h : Claims.SetReads s n) : referenceOf s n = .ok (s, Claims.reference s n) := by
  simp only [referenceOf, engineLookup_of_setReads h, bind, Except.bind, Claims.reference, Option.bind_assoc]

theorem referenceOf_of_first {n v : Nat} {e : Station} (h : Claims.FirstToFail s n v e) :
    referenceOf s n = .error (.station v) := by
  simp only [referenceOf, engineLookup_of_first h, bind, Except.bind]

/-- A loop whose endpoints and mode are there for a ΔV step. -/
structure EndsRead (s : State) (r : Loop) (j : Nat) (o p : Occ) (mode : CloseMode) : Prop where
  openEnd : s.occ? r.openEnd = some o ∧ o.sound = true ∧ o.damaged = false
  closing : r.closing = some j ∧ s.occ? j = some p ∧ p.sound = true ∧ p.damaged = false
  mode : r.mode = some mode

theorem needsTie_iff (mode : CloseMode) (o p : Occ) : needsTie mode o p = true ↔ mode = .drift ∧ o.station ≠ p.station := by
  simp [needsTie]

theorem deltaV_of_endsRead {r : Loop} {j : Nat} {o p : Occ} {mode : CloseMode} (h : EndsRead s r j o p mode) :
    deltaV s r = (do
      let (s, ro) ← referenceOf s o.station
      let (s, rc) ← if needsTie mode o p then referenceOf s p.station else .ok (s, none)
      if needsTie mode o p && !(ro.isSome && rc.isSome) then .ok (s, none)
      else
        let c ← needConstants s
        .ok (s, some (driftCalc mode r.openEnd j o p ro rc c.nums.driftLimit))) := by
  obtain ⟨⟨ho, hos, hod⟩, ⟨hj, hp, hps, hpd⟩, hmode⟩ := h
  simp only [deltaV, needOcc_of_sound ho hos hod, hj, needOcc_of_sound hp hps hpd, hmode, bind, Except.bind] <;> rfl

theorem deltaV_of_first {r : Loop} {j n v : Nat} {o p : Occ} {mode : CloseMode} {e : Station}
    (h : EndsRead s r j o p mode)
    (hn : n = o.station ∨ (mode = .drift ∧ o.station ≠ p.station) ∧ n = p.station ∧ Claims.SetReads s o.station)
    (hf : Claims.FirstToFail s n v e) : deltaV s r = .error (.station v) := by
  rw [deltaV_of_endsRead h]
  rcases hn with rfl | ⟨htie, rfl, hset⟩
  · simp only [referenceOf_of_first hf, bind, Except.bind]
  · simp only [referenceOf_of_setReads hset, (needsTie_iff mode o p).2 htie, if_true, referenceOf_of_first hf, bind,
      Except.bind]

/-- The ΔV step past its stations. -/
theorem deltaV_of_setReads {r : Loop} {j : Nat} {o p : Occ} {mode : CloseMode} (h : EndsRead s r j o p mode)
    (ho : Claims.SetReads s o.station) (hp : mode = .drift ∧ o.station ≠ p.station → Claims.SetReads s p.station)
    (hc : s.constants.sound = false ∨ s.constants.damaged = true) :
    (Claims.Tied s mode o p → deltaV s r = .error .constants) ∧ (¬Claims.Tied s mode o p → deltaV s r = .ok (s, none)) := by
  rw [deltaV_of_endsRead h]
  by_cases htie : mode = .drift ∧ o.station ≠ p.station
  · have htied : Claims.Tied s mode o p ↔ ((Claims.reference s o.station).isSome &&
        (Claims.reference s p.station).isSome) = true := by
      rw [Bool.and_eq_true]
      exact ⟨fun h => h htie.1 htie.2, fun h _ _ => h⟩
    simp only [referenceOf_of_setReads ho, (needsTie_iff mode o p).2 htie, if_true, referenceOf_of_setReads (hp htie),
      needConstants_of_failing hc, htied, bind, Except.bind]
    cases ((Claims.reference s o.station).isSome && (Claims.reference s p.station).isSome) <;> simp
  · have htied : Claims.Tied s mode o p := fun h1 h2 => absurd ⟨h1, h2⟩ htie
    have hno : needsTie mode o p = false := Bool.eq_false_iff.2 (mt (needsTie_iff mode o p).1 htie)
    simp [referenceOf_of_setReads ho, hno, needConstants_of_failing hc, htied, bind, Except.bind]

theorem exec_atDeltaV_of_error {l : Nat} {r : Loop} {c : Instr} {x : RecordId} (h : Claims.AtDeltaV s f l r c)
    (hl : s.loop? l = some r) (hs : r.sound = true) (hd : r.damaged = false) (hx : deltaV s r = .error x) :
    exec c s = .next (s.halt x f) := by
  rcases h with ⟨rfl, hat, hk, hc⟩ | ⟨rfl, hw, hf, ⟨ls, hr⟩, he, hwalk, hc⟩
  · exact exec_deltaVStep_of_error hat (deltaVBody_of_error hk hl hs hd hc hx)
  · exact exec_recomputeDeltaVStep_of_error hw hf hr he hwalk (recomputeDeltaVBody_of_error hr hl hs hd hc hx)

end Sys2Proof.Machine
end

