-- ==== Sys2Proof/Proofs/Stations/DeltaVHalts.lean ====
section
/-! SUPPORT. What halts a ΔV step, and that an undone close leaves the constants alone (R119, R120, R123, R148). -/

namespace Sys2Proof.Machine

open Sys2Proof

variable {s t u : State} {f g : Flight}

/-! ### The undoing of a close reads no constants (R123) -/

theorem checkOcc_constants (s : State) (i : Nat) : (s.checkOcc i).constants = s.constants := by
  unfold State.checkOcc
  split
  · split <;> rfl
  · rfl

theorem checkStation_constants (s : State) (w : Nat) : (s.checkStation w).constants = s.constants := by
  unfold State.checkStation
  split
  · split <;> rfl
  · rfl

theorem foldl_constants {β : Type} {k : State → β → State} (hk : ∀ s b, (k s b).constants = s.constants) (l : List β)
    (s : State) : (l.foldl k s).constants = s.constants := by
  induction l generalizing s with
  | nil => rfl
  | cons b l ih => exact (ih (k s b)).trans (hk s b)

theorem checkStations_constants (s : State) (ws : List Nat) : (s.checkStations ws).constants = s.constants :=
  foldl_constants checkStation_constants ws s

theorem markChanged_constants (s : State) (w : Nat) : (s.markChanged w).constants = s.constants := by
  obtain ⟨x, y, h, -⟩ := markChanged_stationsScan (s := s) w
  rw [h]

theorem markOwner_constants (s : State) (n i : Nat) : (s.markOwner n i).constants = s.constants := by
  have h := checkStations_constants s (waysOf n)
  unfold State.markOwner
  dsimp only
  split
  · exact (markChanged_constants _ _).trans h
  · exact h

theorem markRecord_constants (s : State) (n i : Nat) : (s.markRecord n i).constants = s.constants := by
  have h := checkStations_constants s (waysOf n)
  by_cases hp : s.part = .starting
  · rw [State.markRecord, if_pos hp]
    exact markOwner_constants s n i
  · cases hu : (s.checkStations (waysOf n)).usable n with
    | none => simpa [State.markRecord, hp, State.internalLookup, hu] using h
    | some w => simpa [State.markRecord, hp, State.internalLookup, hu, markChanged_constants] using h

theorem undoRecord_constants (a : State × List Nat) (i : Nat) (o : Occ) :
    (undoRecord a i o).1.constants = a.1.constants := by
  unfold undoRecord
  split
  · dsimp only
    split
    · rfl
    · exact markRecord_constants _ _ _
  · rfl

theorem dropMember_constants (s : State) (l i : Nat) : (s.dropMember l i).constants = s.constants := by
  unfold State.dropMember
  split <;> rfl

theorem undoMember_constants (l : Nat) (a : State × List Nat) (i : Nat) :
    (undoMember l a i).1.constants = a.1.constants := by
  have h := checkOcc_constants a.1 i
  unfold undoMember
  dsimp only
  split
  · next o _ =>
    have hu := (undoRecord_constants (a.1.checkOcc i, a.2) i o).trans h
    split
    · exact (dropMember_constants _ _ _).trans hu
    · exact hu
  · exact h

theorem foldl_undoMember_constants (l : Nat) (is : List Nat) (a : State × List Nat) :
    (is.foldl (undoMember l) a).1.constants = a.1.constants := by
  induction is generalizing a with
  | nil => rfl
  | cons i is ih => exact (ih _).trans (undoMember_constants l a i)

theorem reopen_constants (s : State) (l : Nat) : (s.reopen l).constants = s.constants := by
  unfold State.reopen
  split
  · dsimp only
    split <;> rfl
  · rfl

theorem undoClose_constants {l : Nat} {r : Loop} (hl : s.loop? l = some r) (hs : r.sound = true) (hd : r.damaged = false)
    (hc : r.state = .closing) : (s.undoClose l).1.constants = s.constants := by
  have hread : s.checkLoop l = s := checkLoop_of_sound fun x hx => by
    obtain rfl := Option.some.inj (hl.symm.trans hx)
    exact ⟨hs, hd⟩
  have hundo : (s.undoClose l).1 = (r.members.foldl (undoMember l) (s, [])).1.reopen l := by
    simp [State.undoClose, hread, hl, hd, hc]
  rw [hundo, reopen_constants, foldl_undoMember_constants]

/-! ### The ΔV step that cannot be made -/

theorem exec_atDeltaV_absent {l : Nat} {r : Loop} {c : Instr} (h : Claims.AtDeltaV s f l r c)
    (hl : s.loop? l = some r) (hs : r.sound = true) (hd : r.damaged = false) (hdv : deltaV s r = .ok (s, none)) :
    ∃ t, exec c s = .next t ∧ t.constants = s.constants ∧ t.engine.state = .working ∧ t.engine.fault = s.engine.fault := by
  rcases h with ⟨rfl, hat, hk, hc⟩ | ⟨rfl, hw, hf, ⟨ls, hr⟩, he, hwalk, hc⟩
  · have hb : deltaVBody s f = .ok (undoUnusable s f l) := by
      simp [deltaVBody, onClosing_of_closing hk hl hs hd hc, hdv, halting_ok, bind, Except.bind]
    have hdue : atDeltaV f = true := by simp [atDeltaV, hat.2.2.1]
    have hengine : (s.undoClose l).1.engine = s.engine := (undoClose_tableStep s l).engine
    have hx : exec .deltaVStep s = .next _ := congrArg Host.Outcome.next (engineStep_of_ok hat.1 hat.2.1 hat.2.2.2.2 hdue hb)
    refine ⟨_, hx, undoClose_constants hl hs hd hc, ?_, ?_⟩
    · exact (congrArg Engine.state hengine).trans hat.1
    · exact (congrArg Engine.fault hengine).trans rfl
  · have hb : recomputeDeltaVBody s f = .ok (s, { f with unusable := true }.pop) := by
      simp [recomputeDeltaVBody, onClosed_of_closed hr hl hs hd hc, hdv, halting_ok, bind, Except.bind]
    have hdue : atRecomputeDeltaV f = true := by simp [atRecomputeDeltaV, hr, hwalk]
    have hx : exec .recomputeDeltaVStep s = .next _ := congrArg Host.Outcome.next (engineStep_of_ok hw hf he hdue hb)
    exact ⟨_, hx, rfl, hw, rfl⟩

theorem deltaVHalts_claim : Claims.DeltaVHalts := by
  intro s f l j r o p mode c hheld hat hl hs hd hj hmode ho hos hod hp hps hpd
  have hends : EndsRead s r j o p mode := ⟨⟨ho, hos, hod⟩, ⟨hj, hp, hps, hpd⟩, hmode⟩
  refine ⟨fun n v e hn hf => ?_, fun hso hsp hc => ⟨fun htied => ?_, fun htied => ?_⟩⟩
  · exact ⟨_, exec_atDeltaV_of_error hat hl hs hd (deltaV_of_first hends hn hf), halt_haltedAtStation hheld hf.2.1⟩
  · exact ⟨_, exec_atDeltaV_of_error hat hl hs hd ((deltaV_of_setReads hends hso hsp hc).1 htied),
      halt_haltedAtConstants hheld⟩
  · exact exec_atDeltaV_absent hat hl hs hd ((deltaV_of_setReads hends hso hsp hc).2 htied)

end Sys2Proof.Machine
end

