-- ==== Sys2Proof/Proofs/Stations/WalkHalts.lean ====
section
/-! SUPPORT. What halts the walks of RETIDE and of RECALC (R143 to R145, R148), and the obligation on the REDUCE step. -/

namespace Sys2Proof.Machine

open Sys2Proof

variable {s t u : State} {f g : Flight}

/-! ### The ways of a RETIDE (R143) -/

theorem exec_retideWayStep_of_error {id : Nat} {x : RecordId} (h : Claims.At s f (.way id))
    (hb : wayBody s f = .error (x, g)) : exec .retideWayStep s = .next (s.halt x g) := by
  have hdue : atWay f = true := by simp [atWay, h.2.2.1, h.2.2.2.1]
  exact congrArg _ (engineStep_of_error h.1 h.2.1 h.2.2.2.2 hdue hb)

theorem exec_retideOccupationStep_of_error {id n : Nat} {vis : List Nat} {x : RecordId}
    (h : Claims.At s f (.occupation id n vis)) (hb : occupationBody s f = .error (x, g)) :
    exec .retideOccupationStep s = .next (s.halt x g) := by
  have hdue : atOccupation f = true := by simp [atOccupation, h.2.2.1, h.2.2.2.1]
  exact congrArg _ (engineStep_of_error h.1 h.2.1 h.2.2.2.2 hdue hb)

theorem exec_recalcStep_of_error {i : Nat} {x : RecordId} (h : Claims.At s f (.index i))
    (hb : recalcBody s f = .error (x, g)) : exec .recalcStep s = .next (s.halt x g) := by
  have hdue : atIndex f = true := by simp [atIndex, h.2.2.1, h.2.2.2.1]
  exact congrArg _ (engineStep_of_error h.1 h.2.1 h.2.2.2.2 hdue hb)

theorem wayHalts_claim : Claims.WayHalts := by
  intro s f k id e hk hid hheld he hd
  refine ⟨fun hat ha => ⟨fun hs => ?_, fun v x hs hf => ?_⟩, fun n vis hat hs => ?_⟩
  · refine ⟨_, exec_retideWayStep_of_error hat (x := .station id) (g := f) ?_, halt_haltedAtStation hheld he⟩
    simp [wayBody, hk, hat.2.2.1, he, ha, hd, hs]
  · refine ⟨_, exec_retideWayStep_of_error hat (x := .station v) (g := f) ?_, halt_haltedAtStation hheld hf.2.1⟩
    simp [wayBody, hk, hat.2.2.1, he, ha, hd, hs, engineLookup_of_first hf, halting_error, bind, Except.bind]
  · refine ⟨_, exec_retideOccupationStep_of_error hat (x := .station id) (g := f) ?_, halt_haltedAtStation hheld he⟩
    simp [occupationBody, hk, hat.2.2.1, he, hd, hs]

/-! ### A visit (R144, R145) -/

theorem goTo_occupation (hr : f.recomp = []) (id n : Nat) (vis : List Nat) :
    f.goTo (.occupation id n vis) = { f with place := .occupation id n vis } := by
  simp [Flight.goTo, Flight.settle, hr]

/-- The visit that `c` makes, as it reads. -/
def visit (c : Instr) (s : State) (f : Flight) (i : Nat) : Except RecordId (State × Flight) :=
  if c = .recalcStep then recalcVisit s f i else retideVisit s f i

/-- A visit that fails halts its step, with the job as it stands at that visit. -/
theorem exec_of_visits {i : Nat} {c : Instr} {x : RecordId} (h : Claims.Visits s f g i c)
    (hx : visit c s g i = .error x) : exec c s = .next (s.halt x g) := by
  rcases h with ⟨rfl, hat, -, -, rfl⟩ | ⟨rfl, k, id, n, vis, e, pre, post, hat, hk, he, hs, hd, ha, hn, hsite, hlist, hpre, hi, rfl⟩
  · refine exec_recalcStep_of_error hat ?_
    have hv : recalcVisit s g i = .error x := hx
    simp [recalcBody, hat.2.2.1, hv, halting_error, bind, Except.bind]
  · refine exec_retideOccupationStep_of_error hat ?_
    have hv : retideVisit s { f with place := .occupation id n (vis ++ [i]) } i = .error x := hx
    have hnext : e.list.find? (fun j => !vis.contains j) = some i := find?_split hlist hpre hi
    simp only [occupationBody, hk, hat.2.2.1, he, hd, hs, ha, hn, hsite, hnext, goTo_occupation hat.2.2.2.1, hv]
    rfl

theorem visitResults_of_ready {o : Occ} {r : Results} (hst : o.state = .reduced ∨ o.state = .final)
    (hr : o.results = some r) : visitResults o = some r := by
  simp [visitResults, hst, hr]

theorem visit_of_unsound {c : Instr} {i : Nat} {o : Occ} (ho : s.occ? i = some o) (hd : o.damaged = false)
    (hs : o.sound = false) (hready : c = .recalcStep → ∃ r, visitResults o = some r) :
    visit c s f i = .error (.occupation i) := by
  unfold visit
  split
  · next hc =>
    obtain ⟨r, hr⟩ := hready hc
    simp [recalcVisit, ho, hd, hr, readOcc, hs, bind, Except.bind]
  · simp [retideVisit, ho, hd, readOcc, hs, bind, Except.bind]

theorem visit_of_marks_error {c : Instr} {i : Nat} {o : Occ} {r : Results} {x : RecordId} (ho : s.occ? i = some o)
    (hd : o.damaged = false) (hs : o.sound = true) (hr : visitResults o = some r) (hx : engineMarks s o r = .error x) :
    visit c s f i = .error x := by
  unfold visit
  split
  · simp [recalcVisit, ho, hd, hr, readOcc, hs, hx, bind, Except.bind]
  · simp [retideVisit, ho, hd, hr, readOcc, hs, hx, bind, Except.bind]

/-- A visit that reduces its record again, by the mark that its walk goes by. -/
theorem visit_of_stale {c : Instr} {i : Nat} {o : Occ} {r : Results} {x : RecordId} {a b : Bool} (ho : s.occ? i = some o)
    (hd : o.damaged = false) (hs : o.sound = true) (hr : visitResults o = some r)
    (hm : engineMarks s o r = .ok (s, some (a, b)))
    (hstale : c = .retideOccupationStep ∧ a = true ∨ c = .recalcStep ∧ b = true)
    (hx : reduceAndFind s f i o = .error x) : visit c s f i = .error x := by
  rcases hstale with ⟨rfl, rfl⟩ | ⟨rfl, rfl⟩
  · simp [visit, retideVisit, ho, hd, hr, readOcc, hs, hm, hx, bind, Except.bind]
  · simp [visit, recalcVisit, ho, hd, hr, readOcc, hs, hm, hx, bind, Except.bind]

theorem engineMarks_of_first {o : Occ} {r : Results} {v : Nat} {e : Station} (h : Claims.FirstToFail s o.station v e) :
    engineMarks s o r = .error (.station v) := by
  simp only [engineMarks, engineLookup_of_first h, bind, Except.bind]

/-- The marks past the station: the site and the constants. -/
theorem engineMarks_of_usable {o : Occ} {r : Results} {w : Nat} {e : Station} (h : Claims.SetReads s o.station)
    (hu : s.usable o.station = some w) (he : s.station? w = some e) : engineMarks s o r = (do
      let site ← needSite s e.site
      let c ← needConstants s
      .ok (s, some (tideStaleAt r e.site site, decide (r.revision ≠ c.revision)))) := by
  simp only [engineMarks, engineLookup_of_setReads h, hu, he, Option.bind_some, bind, Except.bind]

theorem engineMarks_of_site {o : Occ} {r : Results} {w : Nat} {e : Station} (h : Claims.SetReads s o.station)
    (hu : s.usable o.station = some w) (he : s.station? w = some e)
    (hf : (s.site e.site).sound = false ∨ (s.site e.site).damaged = true) : engineMarks s o r = .error (.site e.site) := by
  rw [engineMarks_of_usable h hu he, needSite_of_failing hf]
  rfl

theorem engineMarks_of_constants {o : Occ} {r : Results} {w : Nat} {e : Station} (h : Claims.SetReads s o.station)
    (hu : s.usable o.station = some w) (he : s.station? w = some e) (hss : (s.site e.site).sound = true)
    (hsd : (s.site e.site).damaged = false) (hf : s.constants.sound = false ∨ s.constants.damaged = true) :
    engineMarks s o r = .error .constants := by
  rw [engineMarks_of_usable h hu he, needSite_of_sound hss hsd, needConstants_of_failing hf]
  rfl

theorem engineMarks_of_sound {o : Occ} {r : Results} {w : Nat} {e : Station} (h : Claims.SetReads s o.station)
    (hu : s.usable o.station = some w) (he : s.station? w = some e) (hss : (s.site e.site).sound = true)
    (hsd : (s.site e.site).damaged = false) (hcs : s.constants.sound = true) (hcd : s.constants.damaged = false) :
    engineMarks s o r =
      .ok (s, some (tideStaleAt r e.site (s.site e.site), decide (r.revision ≠ s.constants.revision))) := by
  rw [engineMarks_of_usable h hu he, needSite_of_sound hss hsd, needConstants_of_sound hcs hcd]
  rfl

theorem tideStaleAt_of_not_current {r : Results} {e : Station} (h : ¬Claims.TideCurrent s r e) :
    tideStaleAt r e.site (s.site e.site) = true := by
  rw [Claims.TideCurrent, not_and_or] at h
  rcases h with h | h <;> simp [tideStaleAt, h]

theorem visitHalts_claim : Claims.VisitHalts := by
  intro s c f g i o hheld hv ho hd ready
  refine ⟨fun hs hc => ?_, fun hs ⟨hst, hres⟩ => ?_⟩
  · refine ⟨_, exec_of_visits hv (visit_of_unsound ho hd hs fun h => ?_), halt_haltedAtOcc hheld ho⟩
    obtain ⟨hst, hres⟩ := hc h
    obtain ⟨r, hr⟩ := Option.isSome_iff_exists.1 hres
    exact ⟨r, visitResults_of_ready hst hr⟩
  obtain ⟨r, hr⟩ := Option.isSome_iff_exists.1 hres
  have hready := visitResults_of_ready hst hr
  have hmarks := fun x hx => exec_of_visits hv (visit_of_marks_error (x := x) ho hd hs hready hx)
  refine ⟨fun v e hf => ⟨_, hmarks _ (engineMarks_of_first hf), halt_haltedAtStation hheld hf.2.1⟩,
    fun w e hset hu he => ⟨fun hf => ⟨_, hmarks _ (engineMarks_of_site hset hu he hf),
      halt_haltedAtSite hheld (lt_of_badSite hf.symm)⟩,
    fun hss hsd => ⟨fun hf => ⟨_, hmarks _ (engineMarks_of_constants hset hu he hss hsd hf),
      halt_haltedAtConstants hheld⟩, fun hcs hcd r' m hr' hm hstale => ?_⟩⟩⟩
  obtain rfl := Option.some.inj (hr.symm.trans hr')
  have hreduce := fun x hx => exec_of_visits hv (visit_of_stale (x := x) ho hd hs hready
    (engineMarks_of_sound hset hu he hss hsd hcs hcd)
    (hstale.imp (And.imp_right tideStaleAt_of_not_current) (And.imp_right decide_eq_true)) hx)
  refine ⟨fun k hf => ⟨_, hreduce _ (reduceAndFind_of_error
      (reduceRecord_of_constituent hs hcs hcd hset hu he hm hss hsd hf)), halt_haltedAtConstituent hheld hf.2.1⟩,
    fun l x hnone hwf hl => ⟨_, hreduce _ (reduceAndFind_of_loop hs ⟨hcs, hcd, hset, hss, hsd, hnone⟩ hu he hm hwf hl),
      halt_haltedAtLoop hheld hl.1⟩⟩

/-- Settles O54: each step that halts does so at the record whose read fails first, with nothing else of it written. -/
theorem reduceStep : Obligations.ReduceStep :=
  ⟨reduceRecord_claim, reduceDamaged_claim, reductionHalts_claim, closeHalts_claim, deltaVHalts_claim,
    recomputationHalts_claim, memberHalts_claim, wayHalts_claim, visitHalts_claim⟩

end Sys2Proof.Machine
end

