-- ==== Sys2Proof/Proofs/Readings/StatusReads.lean ====
section
/-! SUPPORT. The reads of the engine, of the window and of the scan report (R52, R138, R152, R153, R198). -/

namespace Sys2Proof.Machine

open Sys2Proof

/-! ### The progress of a job (R138) -/

/-- The recomputation that follows a walk's place, present or absent. -/
theorem optBytes_recompBytes (f : Flight) : optBytes (recompBytes f) f.recomp.head? =
    match f.recomp with | [] => [0] | l :: _ => 1 :: recompBytes f l := by
  cases f.recomp <;> rfl

theorem recompBytes_eq (f : Flight) (l : Nat) : recompBytes f l =
    u8 l ++ u8 (match f.walk with | none => 0 | some walked => walked.length) := by
  cases h : f.walk <;> simp [recompBytes, h]

theorem progressLayout_claim : Claims.ProgressLayout := by
  intro f position recomputation
  have hposition : ∀ l, recompBytes f l = position l := recompBytes_eq f
  have hrecomp : optBytes (recompBytes f) f.recomp.head? = recomputation := by
    rw [optBytes_recompBytes]
    simp only [hposition]
    rfl
  refine ⟨fun i hk => ⟨fun hr => ?_, fun l ls hr => ?_⟩, fun l hk => ⟨fun hp => ?_, fun hp => ?_, fun hp => ?_,
    fun walked hp => ?_, fun hp => ?_⟩, fun k hk => ⟨fun v hp => ?_, fun v n visited hp => ?_⟩, fun hk i hp => ?_⟩
  · simp only [progressBytes, hk, reduceProgress, hr]
    rfl
  · simp only [progressBytes, hk, reduceProgress, hr, List.head?_cons, hposition]
    rfl
  · simp only [progressBytes, hk, hp]
    rfl
  · rcases hp with hp | hp <;> simp only [progressBytes, hk, hp] <;> rfl
  · simp only [progressBytes, hk, hp]
    rfl
  · simp only [progressBytes, hk, hp]
    rfl
  · simp only [progressBytes, hk, hp]
    rfl
  · simp only [progressBytes, hk, hp, hrecomp, walkProgress]
  · simp only [progressBytes, hk, hp, hrecomp, walkProgress]
  · simp only [progressBytes, hk, hp, hrecomp, walkProgress]

/-! ### The reads (R52, R152, R153, R198) -/

theorem readEngine_claim : Claims.ReadEngine := by
  refine fun s => ⟨fun h => hostCommand_of_serves readQueueBody h, fun h => ?_⟩
  have hx : exec .readFault s = .next (readFaultBody s) := hostCommand_of_serves readFaultBody h
  refine ⟨fun hf => ?_, fun c hf => ?_⟩ <;> rw [hx, readFaultBody, hf] <;> rfl

theorem readWindowAndReport_claim : Claims.ReadWindowAndReport := by
  refine fun s => ⟨fun h => ?_, fun h => ?_⟩
  · have hx : exec .readWindow s = .next (readWindowBody s) := hostCommand_of_serves readWindowBody h
    rw [hx, readWindowBody, State.windowAnswer]
    cases s.window <;> cases s.lastWindow <;> rfl
  · have hx : exec .readScanReport s = .next (readScanReportBody s) := hostCommand_of_serves readScanReportBody h
    rw [hx, readScanReportBody]
    cases s.scan <;> rfl

/-- Settles O21: the progress by the job's kind, and the four reads from their bodies. -/
theorem statusReads : Obligations.StatusReads := ⟨progressLayout_claim, readEngine_claim, readWindowAndReport_claim⟩

end Sys2Proof.Machine
end

