-- ==== Sys2Proof/Proofs/Readings/Settle.lean ====
section
/-! SUPPORT. The CLAMP line and the settle count's zero (R37, R38). -/

namespace Sys2Proof.Machine

open Sys2Proof

variable {s : State}

/-! ### The CLAMP line (R37) -/

theorem reload_of_settling {w : Window} {k : Nat} (h : w.phase = .settling k) :
    w.reload = { w with phase := .settling (w.settle * 1024) } := by
  simp [Window.reload, h, Config.ticksPerSecond]

theorem reload_of_collecting {w : Window} {a b c : Nat} (h : w.phase = .collecting a b c) : w.reload = w := by
  simp [Window.reload, h]

theorem clampLine_claim : Claims.ClampLine := by
  refine fun s => ⟨⟨_, rfl, rfl, fun w k hw hp => ?_, fun w a b c hw hp => ?_, fun hw => ?_⟩, rfl⟩
  · simp [hw, reload_of_settling hp]
  · simp [hw, reload_of_collecting hp]
  · simp [hw]

/-! ### Entering COLLECTING (R38) -/

/-- R38: the record of a window that enters COLLECTING, where it is there. -/
theorem occ?_setOccState (i j : Nat) (st : OccState) : (s.setOccState i st).occ? j =
    if j = i then (s.occ? j).map fun o => { o with state := st, sound := true } else s.occ? j := by
  unfold State.setOccState
  cases ho : s.occ? i with
  | none => by_cases hj : j = i <;> simp [hj, ho]
  | some o => by_cases hj : j = i <;> simp [hj, ho]

theorem setOccState_frame (i : Nat) (st : OccState) :
    s.setOccState i st = { s with occs := (s.setOccState i st).occs } := by
  unfold State.setOccState
  split <;> rfl

theorem checkConstants_of_sound (hs : s.constants.sound = true) (hd : s.constants.damaged = false) (again : Bool) :
    s.checkConstants again = s := by
  simp [State.checkConstants, hs, hd]

theorem enterCollecting_of_sound (hs : s.constants.sound = true) (hd : s.constants.damaged = false) (w : Window) :
    s.enterCollecting w = { s with
      occs := (s.setOccState w.occ .collecting).occs
      window := some (w.collect s.epoch s.constants.revision s.front) } := by
  rw [State.enterCollecting, checkConstants_of_sound hs hd, setOccState_frame]

theorem takeSettle_of_zero {w : Window} (hw : s.window = some w) (hp : w.phase = .settling 0) :
    s.takeSettle = s.enterCollecting w := by
  simp [State.takeSettle, hw, hp]

theorem settleZero_claim : Claims.SettleZero := by
  intro s w o hi hw hp ho
  obtain ⟨hs, hd⟩ := intact_constants hi
  have hx : exec .settleCountZero s = .next (s.enterCollecting w) := congrArg _ (takeSettle_of_zero hw hp)
  rw [enterCollecting_of_sound hs hd] at hx
  have hocc : ∀ j, (s.setOccState w.occ .collecting).occ? j = _ := fun j => occ?_setOccState w.occ j .collecting
  refine ⟨_, hx, rfl, rfl, (hocc w.occ).trans ?_, fun j hj => (hocc j).trans (if_neg hj)⟩
  simp [ho, (intact_occ hi ho).1]

/-- Settles O35: an assertion of CLAMP reloads the window, and the zero takes it into COLLECTING. -/
theorem settlePhase : Obligations.SettlePhase := ⟨clampLine_claim, settleZero_claim⟩

end Sys2Proof.Machine
end

