-- ==== Sys2Proof/Proofs/Readings/WindowLost.lean ====
section
/-! SUPPORT. A window that ends without a close (R45 to R47, R49, R50). -/

namespace Sys2Proof.Machine

open Sys2Proof

variable {s t : State}

theorem closeWindow_of_no_samples {w : Window} {start rev : Nat} {cause : WindowCause} (h : w.sums.n = 0) :
    s.closeWindow w start rev cause = s.removeWindow w (waysOf w.station) cause := if_pos h

/-- R45, R46, R50: what answers the end of a window without samples; no block event answers. -/
def lostAnswer (t : State) (w : Window) (cause : WindowCause) : State :=
  if cause = .endReading then t.respond .ok (u16 w.occ ++ [1])
  else if cause = .abortReading then t.respond .ok (u16 w.occ)
  else t

theorem lostAnswer_frame (t : State) (w : Window) (cause : WindowCause) :
    lostAnswer t w cause = { t with link := (lostAnswer t w cause).link } := by
  unfold lostAnswer
  split
  · rfl
  · split <;> rfl

theorem station?_lostAnswer (t : State) (w : Window) (cause : WindowCause) (v : Nat) :
    (lostAnswer t w cause).station? v = t.station? v := by
  rw [lostAnswer_frame]
  rfl

theorem occ?_lostAnswer (t : State) (w : Window) (cause : WindowCause) (j : Nat) :
    (lostAnswer t w cause).occ? j = t.occ? j := by
  rw [lostAnswer_frame]
  rfl

theorem loop?_lostAnswer (t : State) (w : Window) (cause : WindowCause) (l : Nat) :
    (lostAnswer t w cause).loop? l = t.loop? l := by
  rw [lostAnswer_frame]
  rfl

/-- The answer depends on the link alone. -/
theorem lostAnswer_link (h : t.link = s.link) (w : Window) (cause : WindowCause) :
    (lostAnswer t w cause).link = (lostAnswer s w cause).link := by
  cases cause <;> simp [lostAnswer, h]

theorem closeAnswer_of_no_samples {w : Window} {cause : WindowCause} (hn : w.sums.n = 0) (hc : cause ≠ .abortReading) :
    closeAnswer s t w cause = lostAnswer t w cause := by
  unfold closeAnswer lostAnswer
  rw [if_neg hc, endReadingBytes, if_pos hn]
  rfl

/-- The ways to lose a window come to one: its removal, with the input SILENT before it and the answer after it. -/
theorem exec_of_window_lost {c : Instr} {cause : WindowCause} {w : Window} (hw : s.window = some w)
    (hheld : s.resetHeld = false)
    (hc : c = .abortReading ∧ cause = .abortReading ∧ s.serves .abortReading .ready = true ∨
      w.sums.n = 0 ∧ ∃ start elapsed rev, w.phase = .collecting start elapsed rev ∧
        (c = .elapsedCountComplete ∧ cause = .duration ∧ w.duration * 1024 ≤ elapsed ∨
          c = .endReading ∧ cause = .endReading ∧ s.serves .endReading .ready = true ∨
          c = .silenceCountComplete ∧ cause = .silence ∧ s.part ≠ .standby ∧
            ∃ g, s.front.live = some g ∧ 2048 ≤ g.silence)) :
    exec c s = .next (lostAnswer ((closeStart s cause).removeWindow w (waysOf w.station) cause) w cause) := by
  rcases hc with ⟨rfl, rfl, hs⟩ | ⟨hn, start, elapsed, rev, hp, hc⟩
  · rw [show exec .abortReading s = .next (abortReadingBody s) from hostCommand_of_serves _ hs,
      abortReadingBody, hw, closeStart_of_ne (by decide)]
    rfl
  · have hne : cause ≠ .abortReading := by
      rcases hc with ⟨-, rfl, -⟩ | ⟨-, rfl, -⟩ | ⟨-, rfl, -⟩ <;> decide
    rw [exec_close hw hp hheld hc, closeWindow_of_no_samples hn, closeAnswer_of_no_samples hn hne]

theorem windowRemoved_claim : Claims.WindowRemoved := by
  intro s c cause w hi hw hheld hc
  obtain ⟨⟨x, y, z, a, hframe, hscan⟩, hocc, hst, hloop⟩ := removeWindow_windowGone (s := closeStart s cause) w
    (ways := waysOf w.station) cause (waysRead_of_intact hi _) (loopsRead_of_intact hi)
  have hx := exec_of_window_lost hw hheld hc
  have hanswer := lostAnswer_frame ((closeStart s cause).removeWindow w (waysOf w.station) cause) w cause
  rw [lostAnswer_link (s := s) (by rw [hframe]; rfl)] at hanswer
  refine ⟨_, hx, ?_, ?_, ?_, ?_, ?_, ?_, fun v => ?_, fun j => ?_, fun l => ?_, ?_, ?_⟩
  · rw [hanswer, hframe]
    rfl
  · intro hp
    rw [hanswer, hframe]
    exact hscan hp
  · rw [hanswer, hframe]
    rfl
  · intro h
    have h1 : cause ≠ .endReading := by rcases h with rfl | rfl <;> decide
    have h2 : cause ≠ .abortReading := by rcases h with rfl | rfl <;> decide
    rw [hanswer, lostAnswer, if_neg h1, if_neg h2]
  · rintro rfl
    rw [hanswer]
    rfl
  · rintro rfl
    rw [hanswer]
    rfl
  · rw [station?_lostAnswer]
    exact (hst v).trans (unlisted_waysOf (s.station? v) v w.station w.occ)
  · rw [occ?_lostAnswer]
    exact hocc j
  · rw [loop?_lostAnswer]
    exact hloop l
  · rw [hanswer, hframe]
    rfl
  · rw [hanswer, hframe]
    show s.events.raise s.resetHeld .windowAborted = _
    simp [Events.raise, hheld, Event.mask, Event.bit]

theorem noWindowToEnd_claim : Claims.NoWindowToEnd := by
  refine fun s => ⟨fun hs hw => ?_, fun hs hw => ?_⟩
  · rw [show exec .endReading s = .next (endReadingBody s) from hostCommand_of_serves _ hs, endReadingBody]
    rcases hw with hw | ⟨w, k, hw, hp⟩
    · rw [hw]
    · simp only [hw, hp]
  · rw [show exec .abortReading s = .next (abortReadingBody s) from hostCommand_of_serves _ hs, abortReadingBody, hw]

/-- Settles O37: every way to lose a window is its removal; with none to end the commands are refused. -/
theorem windowLost : Obligations.WindowLost := ⟨windowRemoved_claim, noWindowToEnd_claim⟩

end Sys2Proof.Machine
end

