-- ==== Sys2Proof/Proofs/Readings/Frames.lean ====
section
/-! SUPPORT. The frames of the gravity sample input, and its silence (R39, R65 to R69). -/

namespace Sys2Proof.Machine

open Sys2Proof

variable {s : State}

/-! ### The fields of a frame (R65) -/

theorem frameSeq_eq (word : BitVec 32) : frameSeq word = word.toNat / 2 ^ 28 := by
  have hword := word.isLt
  simp only [frameSeq, BitVec.extractLsb'_toNat, Nat.shiftRight_eq_div_pow]
  omega

/-! ### A frame that lands (R67, R68) -/

/-- R65, R67, R69: the front end after a whole frame. -/
def FrontEnd.landed (f : FrontEnd) (word : BitVec 32) : FrontEnd :=
  { f with live := some { silence := 0, expected := (frameSeq word + 1) % 16 }, receiving := false }

/-- R39: a window in COLLECTING after a frame that missed `n` others, before the frame itself is taken. -/
def Window.broken (w : Window) (n : Nat) : Window :=
  if n = 0 then w
  else { w with sums := { w.sums with breaks := addHeld w.sums.breaks n }, breakRaised := true }

/-- R39: the first break of a window raises SAMPLE_BREAK. -/
def State.breakEvents (s : State) (n : Nat) (w : Window) : Events :=
  if n ≠ 0 ∧ w.breakRaised = false then { s.events with pending := s.events.pending ||| 0x0008 } else s.events

theorem breakToWindow_eq (hheld : s.resetHeld = false) {n : Nat} (hn : n ≠ 0) (w : Window) :
    s.breakToWindow n w = { s with window := some (w.broken n), events := s.breakEvents n w } := by
  cases hr : w.breakRaised <;>
    simp [State.breakToWindow, Window.broken, State.breakEvents, hn, hr, hheld, State.raise, Events.raise, Event.mask,
      Event.bit]

/-- With no window in COLLECTING a whole frame changes the front end alone. -/
theorem frame_of_no_collecting (hm : s.mainRuns = true) (hr : s.front.receiving = true)
    (h : s.window = none ∨ ∃ w k, s.window = some w ∧ w.phase = .settling k) (word : BitVec 32) :
    s.frame word = s.setFront (s.front.landed word) := by
  have hfw : ∀ f, (s.setFront f).frameToWindow word = s.setFront f := by
    intro f
    rcases h with h | ⟨w, k, h, hk⟩
    · simp [State.frameToWindow, h]
    · simp [State.frameToWindow, h, hk]
  simp only [State.frame, hm, hr, toCollecting_of_no_collecting _ h, ite_self]
  exact hfw _

theorem frame_of_collecting (hm : s.mainRuns = true) (hr : s.front.receiving = true) {w : Window} {start b c n : Nat}
    (hw : s.window = some w) (hp : w.phase = .collecting start b c) (word : BitVec 32)
    (hn : breakOf s.front.live (frameSeq word) = n) :
    s.frame word = { s with
      front := s.front.landed word
      window := some ((w.broken n).addFrame s.clamp (frameOverload word) (frameCount word) (s.epoch - start))
      events := s.breakEvents n w } := by
  have hheld : s.resetHeld = false := by
    simp only [State.mainRuns, Bool.and_eq_true, Bool.not_eq_true'] at hm
    exact hm.1
  have hphase : (w.broken n).phase = .collecting start b c := by
    unfold Window.broken
    split <;> exact hp
  have hbreak : (if n = 0 then s else s.toCollecting (s.breakToWindow n)) =
      { s with window := some (w.broken n), events := s.breakEvents n w } := by
    by_cases h : n = 0
    · simp [h, Window.broken, State.breakEvents, ← hw]
    · rw [if_neg h, toCollecting_of_collecting _ hw hp, breakToWindow_eq hheld h]
  simp only [State.frame, hm, hr, hn, hbreak]
  simp [State.frameToWindow, hphase, FrontEnd.landed, State.setFront, State.epoch]

/-! ### The claims -/

/-- R39: the window after a frame, as its sums and marks. -/
theorem addFrame_broken (w : Window) (n : Nat) (clamp overload : Bool) (x : Int) (offset : Nat) :
    (w.broken n).addFrame clamp overload x offset = { w with
      sums :=
        let m := { w.sums with breaks := if n = 0 then w.sums.breaks else min (w.sums.breaks + n) 65535 }
        if clamp then { m with clamped := min (w.sums.clamped + 1) 65535 }
        else if overload then { m with overload := min (w.sums.overload + 1) 65535 }
        else { m with sumX := w.sums.sumX + x, sumX2 := w.sums.sumX2 + x.natAbs ^ 2, n := w.sums.n + 1,
                      sumT := w.sums.sumT + offset }
      clamped := w.clamped || clamp
      overload := w.overload || (!clamp && overload)
      breakRaised := w.breakRaised || decide (n ≠ 0) } := by
  by_cases hn : n = 0 <;> cases clamp <;> cases overload <;>
    simp [Window.broken, Window.addFrame, addHeld, hn, pow_two]

theorem breakOf_eq (live : Option GsiLive) (seq : Nat) : breakOf live seq = (match live with
    | some g => (seq + 16 - g.expected) % 16
    | none => 0) := by
  cases live <;> rfl

/-- R65: a frame is in reception. -/
def State.receiving (s : State) : State := s.setFront { s.front with receiving := true }

theorem exec_gsiFrmAsserted (hm : s.mainRuns = true) : exec .gsiFrmAsserted s = .next s.receiving :=
  congrArg Host.Outcome.next (if_pos hm)

theorem landed_receiving (s : State) (word : BitVec 32) : s.receiving.front.landed word = { s.front with
    live := some { silence := 0, expected := ((word.toNat / 2 ^ 28) + 1) % 16 }, receiving := false } := by
  rw [FrontEnd.landed, frameSeq_eq]
  rfl

theorem gravityFrame_claim : Claims.GravityFrame := by
  intro s word hm
  have hm' : s.receiving.mainRuns = true := hm
  refine ⟨_, s.receiving.frame word, exec_gsiFrmAsserted hm, rfl, rfl, ?_⟩
  rcases hw : s.window with _ | w
  · rw [frame_of_no_collecting hm' rfl (.inl hw)]
    refine ⟨rfl, landed_receiving s word, fun _ => ⟨hw, rfl⟩, fun w start b c n h => ?_, fun ⟨w, k, h, _⟩ => ?_⟩
    · cases h
    · cases h
  cases hp : w.phase with
  | settling k =>
    rw [frame_of_no_collecting hm' rfl (.inr ⟨w, k, hw, hp⟩)]
    refine ⟨rfl, landed_receiving s word, fun h => ?_, fun w' start b c n h hp' => ?_, fun _ => ⟨hw, rfl⟩⟩
    · cases h
    · obtain rfl := Option.some.inj h
      rw [hp] at hp'
      cases hp'
  | collecting start b c =>
    rw [frame_of_collecting hm' rfl hw hp word rfl]
    refine ⟨rfl, landed_receiving s word, fun h => ?_, fun w' start' b' c' n h hp' hn => ?_, fun ⟨w', k, h, hk⟩ => ?_⟩
    · cases h
    · obtain rfl := Option.some.inj h
      rw [hp] at hp'
      obtain ⟨rfl, rfl, rfl⟩ := Phase.collecting.inj hp'
      have hn' : breakOf s.front.live (frameSeq word) = n := by
        rw [hn, breakOf_eq, frameSeq_eq] <;> rfl
      refine ⟨?_, ?_⟩
      · show some ((w.broken (breakOf s.front.live (frameSeq word))).addFrame _ _ _ _) = _
        rw [hn', addFrame_broken]
        rfl
      · show s.breakEvents (breakOf s.front.live (frameSeq word)) w = _
        rw [hn', State.breakEvents]
    · obtain rfl := Option.some.inj h
      rw [hp] at hk
      cases hk

theorem shortFrame_claim : Claims.ShortFrame := fun _ => rfl

theorem silence_claim : Claims.Silence := by
  intro s g hm hg hsil hw
  have hsilent : ({ s with front := { s.front with live := none } } : State).silenceWindow =
      { s with front := { s.front with live := none } } := by
    rcases hw with hw | ⟨w, k, hw, hp⟩
    · simp [State.silenceWindow, hw]
    · simp [State.silenceWindow, hw, hp]
  show Host.Outcome.next s.takeSilence = _
  simp [State.takeSilence, hg, hm, Config.silenceLimit, hsil, hsilent]

/-- Settles O42: a whole frame by the window's phase, the short frame, and the silence with no window to close. -/
theorem gravityFrames : Obligations.GravityFrames := ⟨gravityFrame_claim, shortFrame_claim, silence_claim⟩

end Sys2Proof.Machine
end

