-- ==== Sys2Proof/Proofs/Readings/Ticks.lean ====
section
/-! SUPPORT. A tick with nothing due: the clock, the counts it drives, and the loops that it makes due (R37, R38, R69,
R114, R176, R178). -/

namespace Sys2Proof.Machine

open Sys2Proof

variable {s : State}

/-! ### Nothing due (log 5) -/

theorem takeSettle_of_not_due (h : s.settleDue = false) : s.takeSettle = s := by
  unfold State.settleDue at h
  unfold State.takeSettle
  cases hw : s.window with
  | none => rfl
  | some w =>
    have hp : w.phase ≠ .settling 0 := by simpa [hw] using h
    exact if_neg hp

theorem takeElapsed_of_not_complete (h : ∀ w, s.window = some w → w.complete = false) : s.takeElapsed = s := by
  unfold State.takeElapsed
  split
  · rename_i w hw
    have hc := h w hw
    split
    · rename_i start elapsed rev hp
      have hlt : ¬elapsed ≥ w.duration * Config.ticksPerSecond := by simpa [Window.complete, hp] using hc
      exact if_neg hlt
    · rfl
  · rfl

theorem takeSilence_of_live (h : ∀ g, s.front.live = some g → g.silence < 2048) : s.takeSilence = s := by
  unfold State.takeSilence
  split
  · rename_i g hg
    have hlt : ¬g.silence ≥ Config.silenceLimit := not_le.2 (h g hg)
    exact if_neg fun hdue => hlt hdue.2
  · rfl

/-- Log 5: no count stands complete and no loop is due, so nothing comes before the next tick. -/
structure NothingDue (s : State) : Prop where
  settle : s.settleDue = false
  elapsed : ∀ w, s.window = some w → w.complete = false
  silence : ∀ g, s.front.live = some g → g.silence < 2048
  expiry : s.expiryDue = []

theorem NothingDue.setClock (h : NothingDue s) (c : Clock) : NothingDue (s.setClock c) :=
  ⟨h.settle, h.elapsed, h.silence, h.expiry⟩

theorem takeDue_of_nothing_due (h : NothingDue s) : s.takeDue = s := by
  simp [State.takeDue, takeSettle_of_not_due h.settle, takeElapsed_of_not_complete h.elapsed,
    takeSilence_of_live h.silence, h.expiry]

/-! ### The expiry check (R114) -/

theorem mem_openLoops {l : Nat} : l ∈ s.openLoops ↔ ∃ r, s.loop? l = some r ∧ r.state = .opened := by
  unfold State.openLoops
  rw [List.mem_filter]
  cases hl : s.loop? l with
  | none => simp
  | some r => simp [mem_slotKeys_of_slotGet hl]

theorem expiring_iff (hl : LoopsRead s) {l : Nat} {r : Loop} (hr : s.loop? l = some r) :
    s.expiring l = true ↔ r.state = .opened ∧ r.deadline ≤ s.epoch := by
  simp [State.expiring, hr, (hl l r hr).2]

/-- R114: on loops that agree with their check values the check writes the due loops alone. -/
theorem expiryCheck_of_loopsRead (hl : LoopsRead s) :
    s.expiryCheck = { s with expiryDue := s.expiryCheck.expiryDue } ∧
      ∀ l, l ∈ s.expiryCheck.expiryDue ↔ ∃ r, s.loop? l = some r ∧ r.state = .opened ∧ r.deadline ≤ s.epoch := by
  have hread : s.openLoops.foldl State.checkLoop s = s :=
    foldl_of_fixed_mem fun l _ => checkLoop_of_sound fun r hr => hl l r hr
  have hcheck : s.expiryCheck = { s with expiryDue := s.openLoops.filter s.expiring } := by
    rw [State.expiryCheck, hread]
  rw [hcheck]
  refine ⟨rfl, fun l => ?_⟩
  rw [List.mem_filter, mem_openLoops]
  constructor
  · rintro ⟨⟨r, hr, ho⟩, hd⟩
    exact ⟨r, hr, (expiring_iff hl hr).1 hd⟩
  · rintro ⟨r, hr, hd⟩
    exact ⟨⟨r, hr, hd.1⟩, (expiring_iff hl hr).2 hd⟩

/-! ### The clock and the counts of a tick (R37, R38, R176, R178) -/

/-- R176: one tick of a clock in its ranges that is not held, as a count of the epoch. -/
theorem clock_tick_eq {c : Clock} (htick : c.ticks < 1024)
    (hheld : c.held = decide (c.seconds = 4294967295)) (hh : c.held = false) : c.tick = { c with
      seconds := (c.epoch + 1) / 1024, ticks := (c.epoch + 1) % 1024
      held := decide ((c.epoch + 1) / 1024 = 4294967295) } := by
  have hne : c.seconds ≠ 4294967295 := of_decide_eq_false (hheld.symm.trans hh)
  unfold Clock.tick Clock.epoch Config.topSeconds
  by_cases h : c.ticks < 1023
  · have hs : (c.seconds * 1024 + c.ticks + 1) / 1024 = c.seconds := by omega
    have ht : (c.seconds * 1024 + c.ticks + 1) % 1024 = c.ticks + 1 := by omega
    rw [if_pos h, hs, ht, decide_eq_false hne, ← hh]
  · have hs : (c.seconds * 1024 + c.ticks + 1) / 1024 = c.seconds + 1 := by omega
    have ht : (c.seconds * 1024 + c.ticks + 1) % 1024 = 0 := by omega
    rw [if_neg h, hs, ht]

theorem clock_tick_epoch (c : Clock) (htick : c.ticks < 1024) : c.tick.epoch = c.epoch + 1 := by
  unfold Clock.tick Clock.epoch
  split
  all_goals
    dsimp only
    omega

/-- R178: the slew count of a period that does not slew; with no trim it stays at 0. -/
theorem clock_count_eq {c : Clock} (h : c.trim ≠ 0 ∨ c.slew = 0) :
    c.count = { c with slew := if c.trim = 0 then 0 else c.slew + 1 } := by
  unfold Clock.count
  by_cases ht : c.trim = 0
  · rw [if_pos ht, if_pos ht, ← h.resolve_left (not_not_intro ht)]
  · rw [if_neg ht, if_neg ht]

theorem window_tick_of_clamp (w : Window) : w.tick true = w := rfl

theorem window_tick_of_settling {w : Window} {k : Nat} (h : w.phase = .settling (k + 1)) :
    w.tick false = { w with phase := .settling k } := by
  simp [Window.tick, h]

theorem window_tick_of_collecting {w : Window} {start k rev : Nat} (h : w.phase = .collecting start k rev) :
    w.tick false = { w with phase := .collecting start (k + 1) rev } := by
  simp [Window.tick, h]

/-- The fields that a clock in its ranges keeps. -/
theorem clockWf_ranges (h : s.clockWf = true) : s.clock.ticks < 1024 ∧
    s.clock.held = decide (s.clock.seconds = 4294967295) ∧ (s.clock.trim ≠ 0 ∨ s.clock.slew = 0) := by
  simp only [State.clockWf, Clock.wf, Bool.and_eq_true, decide_eq_true_eq, Bool.or_eq_true] at h
  obtain ⟨⟨⟨⟨⟨⟨-, htick⟩, hheld⟩, -⟩, -⟩, hslew⟩, -⟩ := h
  exact ⟨htick, hheld, hslew⟩

/-! ### A base period of one tick -/

/-- A running part with a tick's counts moved, before the expiry check. -/
def State.ticked (s : State) : State :=
  { s with
    clock := s.clock.count.tick
    window := s.window.map fun w => w.tick s.clamp
    front := s.front.tick }

theorem basePeriod_of_one_tick (hheld : s.clock.held = false) (hleft : s.clock.left = none)
    (hslew : s.clock.trim = 0 ∨ s.clock.slew < 63) (hm : s.mainRuns = true) (hdue : NothingDue s) :
    s.basePeriod = s.ticked.expiryCheck := by
  have hno : s.clock.slews = false := by
    simp only [Clock.slews, Bool.and_eq_false_iff, decide_eq_false_iff_not, not_not]
    omega
  have hone : s.basePeriod = (s.setClock s.clock.count).tick := by
    simp [State.basePeriod, hheld, hleft, hno]
  have hruns : (s.setClock s.clock.count).mainRuns = true := hm
  rw [hone, State.tick, takeDue_of_nothing_due (hdue.setClock _)]
  simp only [hruns, if_true]
  rfl

/-- R176, R178: the clock of a base period of one tick. -/
theorem ticked_clock (hwf : s.clockWf = true) (hheld : s.clock.held = false) : s.ticked.clock =
    { s.clock with
      seconds := (s.epoch + 1) / 1024, ticks := (s.epoch + 1) % 1024
      held := decide ((s.epoch + 1) / 1024 = 4294967295)
      slew := if s.clock.trim = 0 then 0 else s.clock.slew + 1 } := by
  obtain ⟨htick, hwheld, hslew⟩ := clockWf_ranges hwf
  have hcount := clock_count_eq hslew
  show s.clock.count.tick = _
  rw [hcount]
  exact clock_tick_eq htick hwheld hheld

/-- Settles O24: a base period with nothing due is one tick of the clock and of its counts, and the expiry check. -/
theorem tickCounts : Obligations.TickCounts := by
  intro s hwf hheld hleft hslew hm hset hwin hlive hexp hloops
  have hread : LoopsRead s.ticked := fun l r hr => hloops _ (mem_of_slotGet hr)
  obtain ⟨hframe, hdue⟩ := expiryCheck_of_loopsRead hread
  have hepoch : s.ticked.epoch = s.epoch + 1 := by
    have hc : s.ticked.epoch = s.clock.count.epoch + 1 :=
      clock_tick_epoch _ (by rw [clock_count_eq (clockWf_ranges hwf).2.2]; exact (clockWf_ranges hwf).1)
    rw [hc, clock_count_eq (clockWf_ranges hwf).2.2]
    rfl
  have hclock : s.ticked.expiryCheck.clock = s.ticked.clock := by rw [hframe]
  have hwindow : s.ticked.expiryCheck.window = s.window.map fun w => w.tick s.clamp := by
    rw [hframe]
    rfl
  have hfront : s.ticked.expiryCheck.front = s.front.tick := by
    rw [hframe]
    rfl
  refine ⟨_, congrArg Host.Outcome.next (basePeriod_of_one_tick hheld hleft hslew hm ⟨hset, hwin, hlive, hexp⟩),
    ?_, fun l => ?_, ?_, ?_, fun g hg => ?_, fun hg => ?_, fun h => ?_, fun w k hc hw hp => ?_,
    fun w start k rev hc hw hp => ?_⟩
  · rw [hframe]
    rfl
  · rw [hdue l, hepoch]
    rfl
  · rw [State.epoch, hclock]
    exact hepoch
  · rw [hclock, ticked_clock hwf hheld, ← hleft]
  · rw [hfront, FrontEnd.tick, hg]
    rfl
  · rw [hfront, FrontEnd.tick, hg]
    rfl
  · rw [hwindow]
    rcases h with hc | hn
    · simp [hc, window_tick_of_clamp]
    · simp [hn]
  · rw [hwindow, hw, hc, Option.map_some, window_tick_of_settling hp]
  · rw [hwindow, hw, hc, Option.map_some, window_tick_of_collecting hp]

end Sys2Proof.Machine
end

