-- ==== Sys2Proof/Proofs/Readings/WriteConstants.lean ====
section
/-! SUPPORT. WRITE CONSTANTS (R43, R56, R171 to R173): the set that is installed, the fields that were clamped, and the
answer that lists them. -/

namespace Sys2Proof.Machine

open Sys2Proof

variable {s : State}

/-! ### The clamping of a field (R171) -/

theorem inRange_iff {lo hi z : Int} : inRange lo hi z = true ↔ lo ≤ z ∧ z ≤ hi := by
  simp [inRange]

theorem inRange_clampTo {lo hi : Int} (h : lo ≤ hi) (z : Int) : inRange lo hi (clampTo lo hi z) = true :=
  inRange_iff.2 ⟨le_max_left _ _, max_le h (min_le_left _ _)⟩

theorem clampTo_of_inRange {lo hi z : Int} (h : inRange lo hi z = true) : clampTo lo hi z = z := by
  obtain ⟨hlo, hhi⟩ := inRange_iff.1 h
  rw [clampTo, min_eq_right hhi, max_eq_right hlo]

theorem inRange_max {lo hi a b : Int} (ha : inRange lo hi a = true) (hb : inRange lo hi b = true) :
    inRange lo hi (max a b) = true :=
  inRange_iff.2 ⟨(inRange_iff.1 ha).1.trans (le_max_left _ _), max_le (inRange_iff.1 ha).2 (inRange_iff.1 hb).2⟩

/-- R171: every field that is installed lies in its range, and NB is not below NA. -/
theorem numsInRange_installedNums (c : ConstNums) : numsInRange (installedNums c) = true := by
  simp [numsInRange, numsList, constRanges, installedNums, raiseGradeB, clampNums, inRange_clampTo, inRange_max]

/-- R171: a set in its ranges is installed as it is. -/
theorem installedNums_of_inRange {c : ConstNums} (h : numsInRange c = true) : installedNums c = c := by
  simp only [numsInRange, numsList, constRanges, List.zip_cons_cons, List.zip_nil_left, List.all_cons, List.all_nil,
    Bool.and_eq_true, decide_eq_true_eq, and_assoc] at h
  have hclamp : clampNums c = c := by
    simp [clampNums, clampTo_of_inRange, h]
  obtain ⟨-, -, -, -, -, -, -, -, -, -, -, -, -, -, -, -, -, -, -, -, -, hgrade⟩ := h
  rw [installedNums, hclamp, raiseGradeB, max_eq_right hgrade]

/-! ### The clamped fields (R171, R172) -/

theorem numsList_injective {c d : ConstNums} (h : numsList c = numsList d) : c = d := by
  cases c
  cases d
  simpa [numsList] using h

/-- The fields at which two sets differ, with the values of the second, in table order. -/
def changedFields (l m : List Int) : List (Nat × Int) :=
  ((l.zip m).zipIdx.filter fun p => p.1.1 ≠ p.1.2).map fun p => (p.2, p.1.2)

theorem changedFields_rising (l m : List Int) : (changedFields l m).Pairwise fun a b => a.1 < b.1 := by
  have hidx : ((l.zip m).zipIdx).Pairwise fun a b => a.2 < b.2 := by
    rw [← List.pairwise_map (f := Prod.snd) (R := (· < ·)), List.zipIdx_map_snd]
    exact List.pairwise_lt_range'
  exact List.pairwise_map.2 (hidx.filter _)

theorem mem_changedFields {l m : List Int} (h : l.length = m.length) {k : Nat} {v : Int} :
    (k, v) ∈ changedFields l m ↔ m[k]? = some v ∧ l[k]? ≠ some v := by
  simp only [changedFields, List.mem_map, List.mem_filter, Prod.exists, Prod.mk.injEq, List.mem_zipIdx_iff_getElem?,
    List.getElem?_zip_eq_some, decide_eq_true_eq]
  constructor
  · rintro ⟨a, b, j, ⟨⟨ha, hb⟩, hab⟩, rfl, rfl⟩
    exact ⟨hb, fun hl => hab (Option.some.inj (ha.symm.trans hl))⟩
  · rintro ⟨hm, hl⟩
    have hk : k < l.length := h ▸ (List.getElem?_eq_some_iff.1 hm).1
    refine ⟨l[k], v, k, ⟨⟨List.getElem?_eq_getElem hk, hm⟩, fun hv => hl ?_⟩, rfl, rfl⟩
    rw [List.getElem?_eq_getElem hk, hv]

/-- R172: the clamped fields are those at which the set installed differs from the set sent. -/
theorem clampedFields_eq (c : ConstNums) :
    clampedFields c = changedFields (numsList c) (numsList (installedNums c)) := rfl

theorem mem_clampedFields {c : ConstNums} {k : Nat} {v : Int} : (k, v) ∈ clampedFields c ↔
    (installedNums c).toList[k]? = some v ∧ c.toList[k]? ≠ some v :=
  mem_changedFields (l := numsList c) (m := numsList (installedNums c)) rfl

theorem lt_of_mem_clampedFields {c : ConstNums} {p : Nat × Int} (h : p ∈ clampedFields c) : p.1 < 20 :=
  (List.getElem?_eq_some_iff.1 (mem_clampedFields.1 h).1).1

/-- R171, R172: no field is clamped exactly where the set sent is in its ranges. -/
theorem clampedFields_eq_nil_iff (c : ConstNums) : clampedFields c = [] ↔ numsInRange c = true := by
  constructor
  · intro h
    have hsame : numsList (installedNums c) = numsList c := by
      refine List.ext_getElem rfl fun k hk _ => ?_
      by_contra hne
      have hmem : (k, (numsList (installedNums c))[k]) ∈ clampedFields c := by
        refine mem_clampedFields.2 ⟨List.getElem?_eq_getElem hk, fun hc => hne ?_⟩
        exact (List.getElem?_eq_some_iff.1 hc).2.symm
      rw [h] at hmem
      exact List.not_mem_nil hmem
    rw [← numsList_injective hsame]
    exact numsInRange_installedNums c
  · intro h
    refine List.eq_nil_iff_forall_not_mem.2 fun p hp => ?_
    obtain ⟨hinst, hsent⟩ := mem_clampedFields.1 hp
    rw [installedNums_of_inRange h] at hinst
    exact hsent hinst

/-- R172: the clamped fields in an answer, each with its value in its field's width. -/
def clampedBytes (fields : List (Nat × Int)) : List Byte :=
  u8 fields.length ++ fields.flatMap fun p => u8 p.1 ++ beBytesS (Claims.constantWidths.getD p.1 0) p.2

theorem writeConstantsBytes_eq (r : WriteConstantsReq) (revision : Nat) : writeConstantsBytes r revision =
    u16 revision ++ if numsInRange r.nums then [] else clampedBytes (clampedFields r.nums) := by
  have hwidth : ∀ p ∈ clampedFields r.nums, u8 p.1 ++ beBytesS (constWidths.getD p.1 4) p.2 =
      u8 p.1 ++ beBytesS (Claims.constantWidths.getD p.1 0) p.2 := by
    intro p hp
    have hlt : p.1 < constWidths.length := lt_of_mem_clampedFields hp
    have hlt' : p.1 < Claims.constantWidths.length := hlt
    rw [List.getD_eq_getElem _ _ hlt, List.getD_eq_getElem _ _ hlt']
    rfl
  rw [writeConstantsBytes, listBytes, List.flatMap_congr hwidth]
  simp only [clampedFields_eq_nil_iff]
  rfl

/-! ### The codes (R181) -/

theorem roundModeOf_eq (c : Nat) : roundModeOf c = [RoundMode.nearest, .up, .down, .zero][c]? := by
  rcases c with _ | _ | _ | _ | c <;> rfl

theorem exists_roundModeOf {c : Nat} (h : c < 4) : ∃ m, roundModeOf c = some m := by
  rw [roundModeOf_eq]
  exact ⟨_, List.getElem?_eq_getElem h⟩

theorem yesNo_of_ge {c : Nat} (h : 2 ≤ c) : yesNo c = none := by
  rcases c with _ | _ | c <;> simp_all [yesNo]

theorem roundModeOf_of_ge {c : Nat} (h : 4 ≤ c) : roundModeOf c = none := by
  rw [roundModeOf_eq]
  exact List.getElem?_eq_none h

/-! ### WRITE CONSTANTS -/

theorem exec_writeConstants {r : WriteConstantsReq} (h : s.serves (.writeConstants r) .readyRestore = true) :
    exec (.writeConstants r) s = .next (writeConstantsBody r s) := hostCommand_of_serves _ h

theorem writeConstantsBody_of_codes {r : WriteConstantsReq} {m : RoundMode} (hm : roundModeOf r.mode = some m)
    (hx : r.enableX < 2) (hy : r.enableY < 2) (ht : r.enableT < 2) : writeConstantsBody r s = s.writeConstants r
      (installedConstants r m (decide (r.enableX = 1)) (decide (r.enableY = 1)) (decide (r.enableT = 1)) s.constants) := by
  simp only [writeConstantsBody, hm, yesNo_of_lt hx, yesNo_of_lt hy, yesNo_of_lt ht]

theorem writeConstantsBody_of_bad_code {r : WriteConstantsReq}
    (h : 4 ≤ r.mode ∨ 2 ≤ r.enableX ∨ 2 ≤ r.enableY ∨ 2 ≤ r.enableT) :
    writeConstantsBody r s = s.refuse .badValue := by
  unfold writeConstantsBody
  split
  · rename_i hm hx hy ht
    rcases h with h | h | h | h
    · simp [roundModeOf_of_ge h] at hm
    · simp [yesNo_of_ge h] at hx
    · simp [yesNo_of_ge h] at hy
    · simp [yesNo_of_ge h] at ht
  · rfl

/-- R56: a channel after a write, by its enable code. -/
theorem enable_eq (c : Chan) (old : Bool) (code : Nat) : c.enable old (decide (code = 1)) =
    if decide (code = 1) = old then c else
      { state := if code = 1 then .seeking else .off, gate := none, periods := 0, abandons := 0 } := by
  by_cases hc : code = 1 <;> cases old <;> simp [Chan.enable, hc, seekingChan, offChan]

theorem constantsWritten_eq (w : Window) : w.constantsWritten = match w.phase with
    | .collecting _ _ _ => { w with constantsChanged := true }
    | .settling _ => w := by
  unfold Window.constantsWritten
  split <;> simp_all

/-- Settles O28: the write installs the clamped set, and its answer lists the fields that the clamping changed. -/
theorem writeConstants : Obligations.WriteConstants := by
  intro s r hs
  rw [exec_writeConstants hs]
  refine ⟨fun hmode hx hy ht => ?_, fun h => by rw [writeConstantsBody_of_bad_code h]⟩
  obtain ⟨m, hm⟩ := exists_roundModeOf hmode
  rw [writeConstantsBody_of_codes hm hx hy ht]
  refine ⟨_, rfl, rfl, rfl, rfl, rfl, rfl, ?_, numsInRange_installedNums r.nums,
    fun h => installedNums_of_inRange h, ⟨rfl, rfl, rfl⟩, rfl, enable_eq _ _ _, enable_eq _ _ _, enable_eq _ _ _, ?_,
    clampedFields r.nums, changedFields_rising _ _, fun k v => mem_clampedFields, ?_⟩
  · rw [← roundModeOf_eq, hm]
    rfl
  · exact Option.map_congr fun w _ => constantsWritten_eq w
  · simp only [State.writeConstants, clampedFields_eq_nil_iff, writeConstantsBytes_eq]
    rfl

end Sys2Proof.Machine
end


-- ==== Sys2Proof/Proofs/Readings/BeginReading.lean ====
section
/-! SUPPORT. BEGIN READING, and its refusals (R33 to R36, R38). -/

namespace Sys2Proof.Machine

open Sys2Proof

variable {s t u : State}

/-! ### The fields of BEGIN READING (R34) -/

theorem beginInRange_iff (r : BeginReadingReq) : beginInRange r = true ↔
    10 ≤ r.duration ∧ r.duration ≤ 600 ∧ r.settle ≤ 300 ∧ r.abortOnTilt < 2 ∧ ∀ l, r.loop = some l → l < 16 := by
  simp only [beginInRange, Bool.and_eq_true, optAll_iff, yesNo_isSome_iff, decide_eq_true_eq, and_assoc]
  tauto

theorem exec_beginReading {r : BeginReadingReq} (h : s.serves (.beginReading r) .ready = true) :
    exec (.beginReading r) s = .next (beginReadingBody r s) := hostCommand_of_serves _ h

/-- R34: the command goes as far as its lookup. -/
structure BeginAsks (s : State) (r : BeginReadingReq) : Prop where
  number : validNumber r.number = true
  fields : beginInRange r = true
  clock : s.clock.isSet = true
  window : s.window = none

theorem beginReadingBody_of_not_found {r : BeginReadingReq} {out : Lookup} (h : BeginAsks s r)
    (hl : s.keyedLookup r.number = (u, out)) (hout : ∀ w, out ≠ .found w) :
    beginReadingBody r s = u.refuse out.status := by
  obtain ⟨hn, hf, hc, hw⟩ := h
  cases out <;> simp_all [beginReadingBody]

/-- R34, step 7: the loop named, if any, can take a member. -/
def Joins (s : State) (r : BeginReadingReq) : Prop :=
  ∀ l, r.loop = some l → ∃ x, s.loop? l = some x ∧ x.state = .opened ∧ x.members.length < 64

theorem checkNamed_of_intact (h : s.intact = true) (l : Option Nat) : s.checkNamed l = s := by
  cases l with
  | none => rfl
  | some l => exact checkLoop_of_intact h l

theorem beginReadingBody_of_refused {r : BeginReadingReq} {w l : Nat} {st : Status} (h : BeginAsks s r)
    (hl : s.keyedLookup r.number = (u, .found w)) (hu : u.intact = true) (hr : r.loop = some l)
    (hj : joinRefusal (u.loop? l) = some st) : beginReadingBody r s = u.refuse st := by
  obtain ⟨hn, hf, hc, hw⟩ := h
  simp [beginReadingBody, hn, hf, hc, hw, hl, checkNamed_of_intact hu, hr, hj]

theorem beginReadingBody_of_joins {r : BeginReadingReq} {w : Nat} {e : Station} (h : BeginAsks s r)
    (hl : s.keyedLookup r.number = (u, .found w)) (hu : u.intact = true) (he : u.station? w = some e)
    (hj : Joins u r) : beginReadingBody r s = u.beginAt r (decide (r.abortOnTilt = 1)) w e := by
  obtain ⟨hn, hf, hc, hw⟩ := h
  have hnone : (r.loop.bind fun l => joinRefusal (u.loop? l)) = none := by
    cases hr : r.loop with
    | none => rfl
    | some l =>
      obtain ⟨x, hx, hopen, hroom⟩ := hj l hr
      simp [joinRefusal, hx, (intact_loop hu hx).2, hopen, hroom, Config.memberLimit]
  simp [beginReadingBody, hn, hf, hc, hw, hl, checkNamed_of_intact hu, hnone, he]

/-! ### A place for the record (R33, R34) -/

theorem lowestFree_pool {i : Nat} (hi : i < 512) (hfree : s.occ? i = none)
    (hmin : ∀ j, j < i → (s.occ? j).isSome = true) : lowestFree s.occs (List.range Config.poolSize) = some i := by
  refine find?_eq_some_of_rising List.pairwise_lt_range (List.mem_range.2 hi) ?_ fun j _ hj => ?_
  · rw [← State.occ?, hfree]
    rfl
  · rw [← State.occ?, Option.isNone_eq_false_iff]
    exact hmin j hj

theorem lowestFree_full_pool (h : ∀ j, j < 512 → (s.occ? j).isSome = true) :
    lowestFree s.occs (List.range Config.poolSize) = none := by
  refine List.find?_eq_none.2 fun j hj => ?_
  have hsome := h j (List.mem_range.1 hj)
  rw [← State.occ?, Bool.not_eq_true, Option.isNone_eq_false_iff]
  exact hsome

/-- R33: on intact memory, what can be reclaimed at the head of a list. -/
theorem reclaimable_iff (h : s.intact = true) (e : Station) (head : Nat) : s.reclaimable e head = true ↔
    e.changed = false ∧ (∃ o, s.occ? head = some o ∧ o.state = .final) ∧
      ∀ l x, (l, x) ∈ s.loops → x.openEnd ≠ head := by
  have hundamaged := intact_loops h
  have hend : s.isOpenEnd anyState head = false ↔ ∀ l x, (l, x) ∈ s.loops → x.openEnd ≠ head := by
    rw [Bool.eq_false_iff, ne_eq, isOpenEnd_iff hundamaged]
    simp [anyState]
  unfold State.reclaimable
  cases ho : s.occ? head with
  | none => simp
  | some o =>
    simp only [(intact_occ h ho).2, fieldNames_of_undamaged hundamaged, Bool.and_eq_true, Bool.not_eq_true', hend,
      decide_eq_true_eq, Bool.not_false, and_true, Option.some.injEq, exists_eq_left']
    tauto

theorem beginAt_of_room {r : BeginReadingReq} {abort : Bool} {w i : Nat} {e : Station} (hroom : e.list.length < 8)
    (hi : lowestFree s.occs (List.range Config.poolSize) = some i) : s.beginAt r abort w e = s.begin r abort w i none := by
  simp [State.beginAt, Config.listLimit, hroom, hi]

theorem beginAt_of_full_pool {r : BeginReadingReq} {abort : Bool} {w : Nat} {e : Station} (hroom : e.list.length < 8)
    (hi : lowestFree s.occs (List.range Config.poolSize) = none) : s.beginAt r abort w e = s.refuse .poolFull := by
  simp [State.beginAt, Config.listLimit, hroom, hi]

section FullList

variable {r : BeginReadingReq} {abort : Bool} {w head : Nat} {rest : List Nat} {e : Station}

theorem beginAt_of_reclaim (h : s.intact = true) (hfull : 8 ≤ e.list.length) (hlist : e.list = head :: rest)
    (hr : s.reclaimable e head = true) {i : Nat}
    (hi : lowestFree (s.freeOcc (waysOf r.number) head).occs (List.range Config.poolSize) = some i) :
    s.beginAt r abort w e = (s.freeOcc (waysOf r.number) head).begin r abort w i (some head) := by
  have hno : ¬e.list.length < Config.listLimit := not_lt.2 hfull
  rw [State.beginAt, if_neg hno, hlist]
  simp only [checkOcc_of_intact h, checkLoops_of_intact h, hr, hi, if_true]

theorem beginAt_of_no_reclaim (h : s.intact = true) (hfull : 8 ≤ e.list.length) (hlist : e.list = head :: rest)
    (hr : s.reclaimable e head = false) : s.beginAt r abort w e = s.refuse .occLimit := by
  have hno : ¬e.list.length < Config.listLimit := not_lt.2 hfull
  rw [State.beginAt, if_neg hno, hlist]
  simp [checkOcc_of_intact h, checkLoops_of_intact h, hr]

end FullList

/-! ### The state that the reading begins from -/

/-- R33, R35: a list without the record that is reclaimed, if any. -/
def without (old : Option Nat) (l : List Nat) : List Nat := l.filter fun j => old ≠ some j

theorem without_none (l : List Nat) : without none l = l := by
  simp [without]

theorem without_some (h : Nat) (l : List Nat) : without (some h) l = l.filter (· ≠ h) :=
  List.filter_congr fun j _ => by simp [eq_comm]

/-- R33: `u` is `s` after the lookup of a lone station, with the reclaimed record, if any, FREE and off the lists. -/
structure Cleared (s u : State) (w : Nat) (e : Station) (old : Option Nat) : Prop where
  frame : ∃ x y z, u = { s with stations := x, occs := y, loops := z }
  station : ∃ b, u.station? w = some { Claims.looked e with list := without old e.list, changed := b }
  others : Claims.OthersUnlist s u w old.toList
  occ : ∀ j, u.occ? j = if old = some j then none else s.occ? j
  loop : ∀ l, u.loop? l = (s.loop? l).map fun x => { x with members := without old x.members }

theorem cleared_of_room (h : s.intact = true) {w : Nat} {e : Station} (he : s.station? w = some e) :
    Cleared s (s.activate w) w e none := by
  have hst := station?_activate he (intact_station h he).1
  obtain ⟨x, hx⟩ := activate_stationsOnly (s := s) w
  refine ⟨⟨x, _, _, hx⟩, ⟨e.changed, ?_⟩, fun v hv => ?_, fun j => ?_, fun l => ?_⟩
  · rw [hst, if_pos rfl, without_none]
    rfl
  · rw [hst, if_neg hv]
    cases s.station? v <;> simp
  · rw [hx]
    simp
    rfl
  · rw [hx]
    simp only [without_none]
    exact (Option.map_id' : (s.loop? l).map _ = _).symm

theorem cleared_of_reclaim (h : s.intact = true) (hp : s.part = .ready) {n w head : Nat} {e : Station}
    (hm : s.matching n = [w]) (he : s.station? w = some e) :
    Cleared s ((s.activate w).freeOcc (waysOf n) head) w e (some head) := by
  have hi := intact_activate h w
  have hst := station?_activate he (intact_station h he).1
  obtain ⟨x, hx⟩ := activate_stationsOnly (s := s) w
  obtain ⟨⟨x', y, z, a, hframe, hscan⟩, hunlist, hmember⟩ :=
    freeOcc_spec (ws := waysOf n) head (waysRead_of_intact hi _) (loopsRead_of_intact hi)
  have hset : w / 4 = n % 64 := (matching_singleton hm).1
  have hready : (s.activate w).part ≠ .starting := by
    rw [hx, show ({ s with stations := x } : State).part = s.part from rfl, hp]
    decide
  refine ⟨⟨x', a, z, ?_⟩, ⟨(unlisted [head] (Claims.looked e)).changed, ?_⟩, fun v hv => ?_, fun j => ?_, fun l => ?_⟩
  · rw [hframe, hscan hready, hx]
  · rw [hunlist, if_pos (mem_waysOf.2 hset), hst, if_pos rfl, Option.map_some, unlisted, without_some]
    simp [Claims.looked]
  · rw [hunlist, hst, if_neg hv, hset]
    by_cases hv4 : v / 4 = n % 64
    · rw [if_pos (mem_waysOf.2 hv4)]
      simp only [hv4, true_and]
      exact Option.map_congr fun f _ => unlisted_eq_ite _ f
    · rw [if_neg (mt mem_waysOf.1 hv4)]
      simp [hv4]
  · rw [occ?_freeOcc, hx]
    by_cases hj : j = head
    · simp [hj]
    · simp [hj, Ne.symm hj]
      rfl
  · rw [hmember, hx]
    exact Option.map_congr fun r _ => by rw [memberless, without_some]

/-! ### The record joins its lists (R35) -/

/-- R35: a loop after the record of a reading joins it, where the reading names it. -/
def joined (r : BeginReadingReq) (i l : Nat) (x : Loop) : Loop :=
  { x with members := x.members ++ if r.loop = some l then [i] else [] }

theorem map_joined_of_other {r : BeginReadingReq} {l : Nat} (h : r.loop ≠ some l) (i : Nat) (x : Option Loop) :
    x.map (joined r i l) = x := by
  cases x <;> simp [joined, h]

theorem joinLists_spec {r : BeginReadingReq} {w : Nat} {e : Station} (i : Nat) (hp : s.part = .ready)
    (he : s.station? w = some e) (hes : e.sound = true)
    (hl : ∀ l, r.loop = some l → ∃ x, s.loop? l = some x ∧ x.sound = true) :
    (∃ x y z, s.joinLists r w i = { s with stations := x, recency := y, loops := z }) ∧
      (∀ v, (s.joinLists r w i).station? v =
        if v = w then some { e with list := e.list ++ [i], changed := true } else s.station? v) ∧
      Claims.Touched s (s.joinLists r w i) w ∧
      ∀ l, (s.joinLists r w i).loop? l = (s.loop? l).map (joined r i l) := by
  have htouch : ∀ f, Claims.Touched s ((s.putStation w f).touch w) w := fun f =>
    touched_congr rfl (touched_touch (s.putStation w f) w)
  cases hr : r.loop with
  | none =>
    have hj : s.joinLists r w i =
        (s.putStation w { e with list := e.list ++ [i], changed := true }).touch w := by
      simp [State.joinLists, he, hr, putChanged_of_ready hp]
    rw [hj]
    refine ⟨⟨_, _, _, rfl⟩, fun v => ?_, htouch _, fun l => ?_⟩
    · rw [station?_touch, station?_putStation, hes]
    · exact (map_joined_of_other (by simp [hr]) i _).symm
  | some k =>
    obtain ⟨x, hx, hxs⟩ := hl k hr
    have hj : s.joinLists r w i =
        ((s.putStation w { e with list := e.list ++ [i], changed := true }).touch w).putLoop k
          { x with members := x.members ++ [i] } := by
      simp [State.joinLists, he, hr, putChanged_of_ready hp, hx]
    rw [hj]
    refine ⟨⟨_, _, _, rfl⟩, fun v => ?_, htouch _, fun l => ?_⟩
    · rw [station?_putLoop, station?_touch, station?_putStation, hes]
    · rw [loop?_putLoop, loop?_touch, loop?_putStation]
      by_cases hlk : l = k
      · simp [hlk, hx, hxs, joined, hr]
      · rw [if_neg hlk, map_joined_of_other (by simpa [hr] using Ne.symm hlk)]

/-! ### The window opens (R35, R36, R38) -/

/-- R36, R38: the window that BEGIN READING opens. -/
def openedWindow (s : State) (r : BeginReadingReq) (i : Nat) (abort : Bool) : Window :=
  if r.settle = 0 then (newWindow r i abort).collect s.epoch s.constants.revision s.front else newWindow r i abort

theorem openWindow_spec {r : BeginReadingReq} {i : Nat} {abort : Bool} (hs : s.constants.sound = true)
    (hd : s.constants.damaged = false) (ho : s.occ? i = some (newOcc r abort)) :
    (∃ y, s.openWindow r i abort = { s with occs := y, window := some (openedWindow s r i abort) }) ∧
      ∀ j, (s.openWindow r i abort).occ? j = s.occ? j := by
  unfold State.openWindow openedWindow
  by_cases hset : r.settle = 0
  · simp only [hset, if_true]
    rw [enterCollecting_of_sound hs hd]
    refine ⟨⟨_, rfl⟩, fun j => (occ?_setOccState i j .collecting).trans ?_⟩
    by_cases hj : j = i
    · simp [hj, ho, newOcc, hset]
    · rw [if_neg hj]
  · simp only [hset, if_false]
    exact ⟨⟨_, rfl⟩, fun j => rfl⟩

theorem begin_spec {r : BeginReadingReq} {abort : Bool} {w i : Nat} {old : Option Nat} {e : Station}
    (hp : s.part = .ready) (hs : s.constants.sound = true) (hd : s.constants.damaged = false)
    (he : s.station? w = some e) (hes : e.sound = true)
    (hl : ∀ l, r.loop = some l → ∃ x, s.loop? l = some x ∧ x.sound = true) :
    (∃ x y z a, s.begin r abort w i old = { s with
        stations := x, recency := y, loops := z, occs := a, window := some (openedWindow s r i abort)
        link := (s.respond .ok (u16 i ++ optBytes u16 old ++ u8 (newOcc r abort).state.code)).link }) ∧
      (∀ j, (s.begin r abort w i old).occ? j = if j = i then some (newOcc r abort) else s.occ? j) ∧
      (∀ v, (s.begin r abort w i old).station? v =
        if v = w then some { e with list := e.list ++ [i], changed := true } else s.station? v) ∧
      Claims.Touched s (s.begin r abort w i old) w ∧
      ∀ l, (s.begin r abort w i old).loop? l = (s.loop? l).map (joined r i l) := by
  obtain ⟨⟨x, y, z, hjoin⟩, hst, htouch, hloop⟩ :=
    joinLists_spec (s := s.putOcc i (newOcc r abort)) (r := r) (w := w) i hp he hes hl
  have hocc : ∀ j, ((s.putOcc i (newOcc r abort)).joinLists r w i).occ? j =
      if j = i then some (newOcc r abort) else s.occ? j := by
    intro j
    rw [hjoin]
    exact occ?_putOcc i j _
  obtain ⟨⟨a, hopen⟩, hkeep⟩ := openWindow_spec (s := (s.putOcc i (newOcc r abort)).joinLists r w i) (r := r) (i := i)
    (abort := abort) (by rw [hjoin]; exact hs) (by rw [hjoin]; exact hd) ((hocc i).trans (if_pos rfl))
  have hb : s.begin r abort w i old = (((s.putOcc i (newOcc r abort)).joinLists r w i).openWindow r i abort).respond .ok
      (u16 i ++ optBytes u16 old ++ u8 (newOcc r abort).state.code) := rfl
  refine ⟨⟨x, y, z, a, ?_⟩, fun j => ?_, fun v => ?_, ?_, fun l => ?_⟩
  · rw [hb, hopen, hjoin]
    rfl
  · rw [hb, occ?_respond, hkeep, hocc]
  · rw [hb, hopen]
    exact hst v
  · rw [hb, hopen]
    exact htouch
  · rw [hb, hopen]
    exact hloop l

/-! ### The accepted command -/

/-- The record that a reading at a full list reclaims is out of the list, FREE, and the list then has room. -/
theorem beginAt_cleared {r : BeginReadingReq} {abort : Bool} {w i : Nat} {e : Station} {old : Option Nat}
    (h : s.intact = true) (hp : s.part = .ready) (hm : s.matching r.number = [w]) (he : s.station? w = some e)
    (hold : e.list.length < 8 ∧ old = none ∨ 8 ≤ e.list.length ∧ ∃ h, old = some h ∧ Claims.Reclaims s e h)
    (hi : i < 512) (hfree : s.occ? i = none ∨ old = some i) (hmin : ∀ j, j < i → (s.occ? j).isSome = true ∧ old ≠ some j) :
    ∃ u, Cleared s u w e old ∧ (s.activate w).beginAt r abort w (Claims.looked e) = u.begin r abort w i old := by
  have hplace : ∀ {u : State}, Cleared s u w e old → lowestFree u.occs (List.range Config.poolSize) = some i := by
    intro u hc
    refine lowestFree_pool hi ?_ fun j hj => ?_
    · rw [hc.occ]
      rcases hfree with hf | hf <;> simp [hf]
    · rw [hc.occ, if_neg (hmin j hj).2]
      exact (hmin j hj).1
  rcases hold with ⟨hroom, rfl⟩ | ⟨hfull, head, rfl, hch, ⟨rest, hlist⟩, hfinal, hend⟩
  · have hc := cleared_of_room h he
    exact ⟨_, hc, beginAt_of_room (e := Claims.looked e) hroom (hplace hc)⟩
  · have hc := cleared_of_reclaim h hp (head := head) hm he
    have hr : (s.activate w).reclaimable (Claims.looked e) head = true := by
      obtain ⟨x, hx⟩ := activate_stationsOnly (s := s) w
      rw [reclaimable_iff (intact_activate h w), hx]
      exact ⟨hch, hfinal, hend⟩
    exact ⟨_, hc, beginAt_of_reclaim (e := Claims.looked e) (intact_activate h w) hfull hlist hr (hplace hc)⟩

theorem joins_activate {r : BeginReadingReq} {w : Nat} (h : Joins s r) : Joins (s.activate w) r := by
  obtain ⟨x, hx⟩ := activate_stationsOnly (s := s) w
  rw [hx]
  exact h

/-- R36, R38: the window that opens, field by field. -/
theorem openedWindow_eq (s : State) (r : BeginReadingReq) (i : Nat) (abort : Bool) : openedWindow s r i abort =
    { occ := i, station := r.number, memberOf := r.loop, settle := r.settle, duration := r.duration,
      abortOnTilt := abort,
      phase := if r.settle = 0 then .collecting s.epoch 0 s.constants.revision else .settling (r.settle * 1024),
      sums := if r.settle = 0 then
          { lastX := s.front.heldX, lastY := s.front.heldY, lastT := s.front.heldT, lastL := s.front.lag }
        else {},
      clamped := false, overload := false, tiltLimit := false, tiltRange := false, constantsChanged := false,
      tiltRaised := false, breakRaised := false } := by
  unfold openedWindow
  by_cases h : r.settle = 0 <;> simp [h, newWindow, Window.collect, Config.ticksPerSecond]

theorem beginReadingAccepted_claim : Claims.BeginReadingAccepted := by
  intro s r w i e old hs hi hn1 hn2 hd1 hd2 hset hab hclock hw hm he hold hlt hfree hmin hloop
  have hp := part_of_serves_ready hs
  have hasks : BeginAsks s r := ⟨validNumber_of_range hn1 hn2,
    (beginInRange_iff r).2 ⟨hd1, hd2, hset, hab, fun l hl => (hloop l hl).1⟩, hclock, hw⟩
  have hew : (s.activate w).station? w = some (Claims.looked e) := by
    rw [station?_activate he (intact_station hi he).1, if_pos rfl]
  obtain ⟨u, hc, hbegin⟩ :=
    beginAt_cleared (r := r) (abort := decide (r.abortOnTilt = 1)) hi hp hm he hold hlt hfree hmin
  have hx := exec_beginReading hs
  rw [beginReadingBody_of_joins hasks (keyedLookup_of_found hi hm he) (intact_activate hi w) hew
    (joins_activate fun l hl => (hloop l hl).2), hbegin] at hx
  obtain ⟨⟨x, y, z, hframe⟩, ⟨b, hst⟩, hothers, hocc, hmem⟩ := hc
  have hjoin : ∀ l, r.loop = some l → ∃ x, u.loop? l = some x ∧ x.sound = true := by
    intro l hl
    obtain ⟨-, x, hx, -⟩ := hloop l hl
    exact ⟨{ x with members := without old x.members }, by rw [hmem, hx]; rfl, (intact_loop hi hx).1⟩
  obtain ⟨⟨x', y', z', a', hframe'⟩, hocc', hst', htouch, hloop'⟩ := begin_spec (s := u) (r := r)
    (abort := decide (r.abortOnTilt = 1)) (i := i) (old := old) (by rw [hframe]; exact hp)
    (by rw [hframe]; exact (intact_constants hi).1) (by rw [hframe]; exact (intact_constants hi).2) hst
    (intact_station hi he).1 hjoin
  refine ⟨_, hx, ?_, ?_, ?_, fun j hj => ?_, ?_, fun v hv => ?_, touched_congr (by rw [hframe]) htouch, fun l x hl => ?_,
    fun l hl => ?_, ?_⟩
  · rw [hframe', hframe]
  · rw [hframe', hframe]
    cases old <;> by_cases h0 : r.settle = 0 <;> simp [newOcc, h0, OccState.code, optBytes, u8, beBytes]
  · rw [hocc', if_pos rfl]
    rfl
  · rw [hocc', if_neg hj, hocc]
  · rw [hst', if_pos rfl]
    rfl
  · rw [hst', if_neg hv]
    exact hothers v hv
  · rw [hloop', hmem, hl]
    rfl
  · rw [hloop', hmem, hl]
    rfl
  · rw [hframe', hframe, openedWindow_eq]
    rfl

/-! ### The refusals -/

theorem beginReadingRefusals_claim : Claims.BeginReadingRefusals := by
  intro s r hs ranges
  rw [exec_beginReading hs]
  have hfields := beginInRange_iff r
  refine ⟨fun hn => ?_, fun hn1 hn2 hr => ?_, fun hn1 hn2 hr hc => ?_, fun hn1 hn2 hr hc hw => ?_,
    fun hn1 hn2 hr hc hw => ?_⟩
  · simp [beginReadingBody, validNumber_of_out hn]
  · have hbad : beginInRange r = false := Bool.eq_false_iff.2 (mt hfields.1 hr)
    simp [beginReadingBody, validNumber_of_range hn1 hn2, hbad]
  · simp [beginReadingBody, validNumber_of_range hn1 hn2, hfields.2 hr, hc]
  · simp [beginReadingBody, validNumber_of_range hn1 hn2, hfields.2 hr, hc, hw]
  have hasks : BeginAsks s r := ⟨validNumber_of_range hn1 hn2, hfields.2 hr, hc, hw⟩
  refine ⟨fun t out hl => ⟨?_, ?_, ?_⟩, fun u out w e hl hi hm he => ?_⟩
  · rintro rfl
    rw [beginReadingBody_of_not_found hasks hl (by simp)]
    rfl
  · rintro rfl
    rw [beginReadingBody_of_not_found hasks hl (by simp)]
    rfl
  · rintro w rfl
    rw [beginReadingBody_of_not_found hasks hl (by simp)]
    rfl
  rw [keyedLookup_of_found hi hm he] at hl
  obtain ⟨rfl, rfl⟩ := Prod.mk.inj hl
  have hu := intact_activate hi w
  have hfound := keyedLookup_of_found hi hm he
  obtain ⟨x, hx⟩ := activate_stationsOnly (s := s) w
  have hloop : ∀ l, (s.activate w).loop? l = s.loop? l := fun l => by rw [hx]; rfl
  have hocc : ∀ j, (s.activate w).occ? j = s.occ? j := fun j => by rw [hx]; rfl
  have hew : (s.activate w).station? w = some (Claims.looked e) := by
    rw [station?_activate he (intact_station hi he).1, if_pos rfl]
  refine ⟨fun l hrl => ?_, fun hjoin => ?_⟩
  · have href : ∀ st, joinRefusal (s.loop? l) = some st →
        Host.Outcome.next (beginReadingBody r s) = (.next ((s.activate w).refuse st) : Host.Outcome State Fault Refusal) :=
      fun st hst => by rw [beginReadingBody_of_refused hasks hfound hu hrl (by rw [hloop]; exact hst)]
    refine ⟨fun hnone => href _ (by rw [hnone]; rfl), fun x hlx => ?_⟩
    have hund := (intact_loop hi hlx).2
    refine ⟨fun h => href _ ?_, fun h => href _ ?_, fun h => href _ ?_, fun h hfull => href _ ?_⟩
    · simp [joinRefusal, hlx, hund, h]
    · simp [joinRefusal, hlx, hund, h]
    · simp [joinRefusal, hlx, hund, h]
    · simp [joinRefusal, hlx, hund, h, Config.memberLimit, not_lt.2 hfull]
  · have hb := beginReadingBody_of_joins hasks hfound hu hew (joins_activate hjoin)
    refine ⟨fun hfull hno => ?_, fun hroom hfullPool => ?_⟩
    · have hlist : e.list ≠ [] := by
        rintro hnil
        rw [hnil] at hfull
        exact absurd hfull (by decide)
      obtain ⟨head, rest, hhead⟩ := List.exists_cons_of_ne_nil hlist
      have hnr : (s.activate w).reclaimable (Claims.looked e) head = false := by
        rw [Bool.eq_false_iff, ne_eq, reclaimable_iff hu, hx]
        rintro ⟨hch, hfinal, hend⟩
        exact hno head ⟨hch, ⟨rest, hhead⟩, hfinal, hend⟩
      rw [hb, beginAt_of_no_reclaim (e := Claims.looked e) hu hfull hhead hnr]
    · rw [hb, beginAt_of_full_pool (e := Claims.looked e) hroom (lowestFree_full_pool fun j hj => by rw [hocc]; exact hfullPool j hj)]

/-- Settles O34: the accepted command from the state its reclaim leaves, and the refusals in their order. -/
theorem beginReading : Obligations.BeginReading := ⟨beginReadingAccepted_claim, beginReadingRefusals_claim⟩

end Sys2Proof.Machine
end

