-- ==== Sys2Proof/Proofs/Readings/FrontKept.lean ====
section
/-! SUPPORT. The operations and the host commands that leave the front end alone (R62, R63): each works on the tables,
the engine, the clock, the events or the link. -/

namespace Sys2Proof.Machine

open Sys2Proof

variable (s : State)

/-! ### The memory check, the lookups and the freeing -/

@[simp] theorem checkStation_front (w : Nat) : (s.checkStation w).front = s.front := (checkStation_tableStep s w).front
@[simp] theorem checkOcc_front (i : Nat) : (s.checkOcc i).front = s.front := (checkOcc_tableStep s i).front
@[simp] theorem checkLoop_front (l : Nat) : (s.checkLoop l).front = s.front := (checkLoop_tableStep s l).front
@[simp] theorem checkSite_front (k : Nat) : (s.checkSite k).front = s.front := (checkSite_tableStep s k).front
@[simp] theorem checkConstants_front (again : Bool) : (s.checkConstants again).front = s.front :=
  (checkConstants_tableStep s again).front
@[simp] theorem checkStations_front (ws : List Nat) : (s.checkStations ws).front = s.front :=
  (checkStations_tableStep s ws).front
@[simp] theorem checkOccs_front (is : List Nat) : (s.checkOccs is).front = s.front := (checkOccs_tableStep s is).front
@[simp] theorem checkPool_front : s.checkPool.front = s.front := (checkPool_tableStep s).front
@[simp] theorem checkNaming_front (is : List Nat) : (s.checkNaming is).front = s.front :=
  (checkNaming_tableStep s is).front
@[simp] theorem checkLoops_front : s.checkLoops.front = s.front := (checkLoops_tableStep s).front
@[simp] theorem failRecord_front (r : RecordId) : (s.failRecord r).front = s.front := (failRecord_tableStep s r).front
@[simp] theorem keyedLookup_front (n : Nat) : (s.keyedLookup n).1.front = s.front := (keyedLookup_tableStep s n).front
@[simp] theorem internalLookup_front (n : Nat) : (s.internalLookup n).1.front = s.front :=
  (internalLookup_tableStep s n).front
@[simp] theorem putChanged_front (w : Nat) (e : Station) : (s.putChanged w e).front = s.front :=
  (putChanged_tableStep s w e).front
@[simp] theorem markOwner_front (n i : Nat) : (s.markOwner n i).front = s.front := (markOwner_tableStep s n i).front
@[simp] theorem freeOcc_front (ws : List Nat) (i : Nat) : (s.freeOcc ws i).front = s.front :=
  (freeOcc_tableStep s ws i).front
@[simp] theorem freeWay_front (w : Nat) (e : Station) : (s.freeWay w e).1.front = s.front :=
  (freeWay_tableStep s w e).front
@[simp] theorem readWay_front (w : Nat) (e : Station) : (s.readWay w e).front = s.front :=
  (readWay_tableStep s w e).front
@[simp] theorem voidOpenEnd_front (l i : Nat) : (s.voidOpenEnd l i).front = s.front := (voidOpenEnd_tableStep s l i).front
@[simp] theorem voidSound_front (l : Nat) : (s.voidSound l).front = s.front := (voidSound_tableStep s l).front
@[simp] theorem voidDamaged_front (l : Nat) : (s.voidDamaged l).front = s.front := (voidDamaged_tableStep s l).front
@[simp] theorem undoClose_front (l : Nat) : (s.undoClose l).1.front = s.front := (undoClose_tableStep s l).front
@[simp] theorem setUnqueued_front (i : Nat) : (s.setUnqueued i).front = s.front := (setUnqueued_tableStep s i).front
@[simp] theorem setOccState_front (i : Nat) (st : OccState) : (s.setOccState i st).front = s.front :=
  (setOccState_tableStep s i st).front
@[simp] theorem placeInList_front (n i epoch : Nat) : (s.placeInList n i epoch).front = s.front :=
  (placeInList_tableStep s n i epoch).front
@[simp] theorem takeExpiry_front (l : Nat) : (s.takeExpiry l).front = s.front := (takeExpiry_tableStep s l).front
@[simp] theorem expiryCheck_front : s.expiryCheck.front = s.front := (expiryCheck_tableStep s).front

/-- Several operations that each leave the front end alone leave it alone together. -/
theorem foldl_front {β : Type} {f : State → β → State} (hf : ∀ s b, (f s b).front = s.front) (l : List β) (s : State) :
    (l.foldl f s).front = s.front := by
  induction l generalizing s with
  | nil => rfl
  | cons b l ih => rw [List.foldl_cons, ih, hf]

/-- The same with a value carried beside the state. -/
theorem foldl_fst_front {β γ : Type} {f : State × γ → β → State × γ} (hf : ∀ a b, (f a b).1.front = a.1.front)
    (l : List β) (a : State × γ) : (l.foldl f a).1.front = a.1.front := by
  induction l generalizing a with
  | nil => rfl
  | cons b l ih => rw [List.foldl_cons, ih, hf]

/-- The front end of a choice is the choice of the front ends. -/
theorem front_ite (c : Prop) [Decidable c] (s t : State) : (if c then s else t).front = if c then s.front else t.front :=
  apply_ite _ _ _ _

variable {s} in
/-- The state that a keyed lookup leaves. -/
theorem front_of_keyedLookup {t : State} {n : Nat} {out : Lookup} (h : s.keyedLookup n = (t, out)) :
    t.front = s.front := by
  rw [← keyedLookup_front s n, h]

/-! ### The station commands (spec/01) -/

theorem placeEntry_front (e : Station) : (s.placeEntry e).front = s.front := by
  have hread : ∀ (s : State) w, (s.readCandidate w).front = s.front := fun s w => (readCandidate_tableStep s w).front
  unfold State.placeEntry
  dsimp only
  split
  · rfl
  · split
    · split <;> simp [State.install, foldl_front hread]
    · simp [foldl_front hread]

theorem openStationBody_front (r : OpenStationReq) : (openStationBody r s).front = s.front := by
  unfold openStationBody
  split
  · rfl
  split
  · simp only [front_ite]
    split
    · rfl
    split
    · rfl
    split <;> simp [placeEntry_front, front_of_keyedLookup ‹_›]
  · rfl

theorem editStationBody_front (r : EditStationReq) : (editStationBody r s).front = s.front := by
  unfold editStationBody
  split
  · rfl
  split
  · rfl
  split
  · split <;> simp [front_ite, front_of_keyedLookup ‹_›]
  · simp [front_of_keyedLookup ‹_›]

theorem findStationBody_front (n : Nat) : (findStationBody n s).front = s.front := by
  unfold findStationBody
  split
  · rfl
  split <;> simp [front_of_keyedLookup ‹_›]

theorem upsetRecord_front (r : RecordId) : (s.upsetRecord r).front = s.front := by
  cases r with
  | station w => unfold State.upsetRecord; dsimp only; split <;> rfl
  | occupation i => unfold State.upsetRecord; dsimp only; split <;> rfl
  | loop l => unfold State.upsetRecord; dsimp only; split <;> rfl
  | constants => rfl
  | constituent k => rfl
  | site k => rfl

@[simp] theorem readOut_front (w : Nat) : (s.readOut w).front = s.front := by
  simp [State.readOut, front_ite, upsetRecord_front]

theorem readStationBody_front (n : Nat) : (readStationBody n s).front = s.front := by
  unfold readStationBody
  split
  · rfl
  split
  · dsimp only
    split <;> simp [front_ite, front_of_keyedLookup ‹_›]
  · simp [front_of_keyedLookup ‹_›]

theorem readSlotBody_front (set way : Nat) : (readSlotBody set way s).front = s.front := by
  unfold readSlotBody
  split
  · rfl
  dsimp only
  split <;> simp [front_ite]

theorem retire_front (w : Nat) (answer : Station → Nat → List Byte) : (s.retire w answer).front = s.front := by
  unfold State.retire
  split <;> simp [front_ite]

theorem retireStationBody_front (n : Nat) : (retireStationBody n s).front = s.front := by
  unfold retireStationBody
  split
  · rfl
  dsimp only
  split <;> simp [retire_front, front_of_keyedLookup ‹_›]

theorem retireSlotBody_front (set way : Nat) : (retireSlotBody set way s).front = s.front := by
  simp [retireSlotBody, front_ite, retire_front]

/-! ### The reading commands (spec/02) -/

theorem enterCollecting_front (w : Window) : (s.enterCollecting w).front = s.front := by
  simp [State.enterCollecting]

theorem joinLists_front (r : BeginReadingReq) (w i : Nat) : (s.joinLists r w i).front = s.front := by
  unfold State.joinLists
  dsimp only
  split <;> split <;> simp

theorem begin_front (r : BeginReadingReq) (abort : Bool) (w i : Nat) (old : Option Nat) :
    (s.begin r abort w i old).front = s.front := by
  simp [State.begin, State.openWindow, front_ite, enterCollecting_front, joinLists_front]

theorem beginAt_front (r : BeginReadingReq) (abort : Bool) (w : Nat) (e : Station) :
    (s.beginAt r abort w e).front = s.front := by
  unfold State.beginAt
  split
  · split <;> simp [begin_front]
  split
  · rfl
  · simp only [front_ite]
    split
    · split <;> simp [begin_front]
    · simp

theorem checkNamed_front (l : Option Nat) : (s.checkNamed l).front = s.front := by
  cases l with
  | none => rfl
  | some l => exact checkLoop_front s l

theorem beginReadingBody_front (r : BeginReadingReq) : (beginReadingBody r s).front = s.front := by
  unfold beginReadingBody
  simp only [front_ite]
  split_ifs
  · rfl
  · rfl
  · rfl
  · rfl
  split
  · split
    · simp [checkNamed_front, front_of_keyedLookup ‹_›]
    · split <;> simp [checkNamed_front, beginAt_front, front_of_keyedLookup ‹_›]
  · simp [front_of_keyedLookup ‹_›]

theorem submitAutomatic_front (i : Nat) : (s.submitAutomatic i).front = s.front := by
  unfold State.submitAutomatic
  split <;> simp

theorem writeClose_front (w : Window) (start rev : Nat) (cause : WindowCause) :
    (s.writeClose w start rev cause).front = s.front := by
  unfold State.writeClose
  dsimp only
  split <;> simp

theorem closeWindow_front (w : Window) (start rev : Nat) (cause : WindowCause) :
    (s.closeWindow w start rev cause).front = s.front := by
  simp [State.closeWindow, front_ite, removeWindow_front, submitAutomatic_front, writeClose_front]

theorem endReadingBody_front : (endReadingBody s).front = s.front := by
  unfold endReadingBody
  split
  · split <;> simp [closeWindow_front]
  · rfl

theorem abortReadingBody_front : (abortReadingBody s).front = s.front := by
  unfold abortReadingBody
  split <;> simp [removeWindow_front]

theorem discardDamaged_front (i : Nat) : (s.discardDamaged i).front = s.front := by
  unfold State.discardDamaged
  dsimp only
  split <;> simp [front_ite, removeWindow_front, foldl_front voidSound_front]

theorem discardOccupationBody_front (i : Nat) : (discardOccupationBody i s).front = s.front := by
  unfold discardOccupationBody
  split
  · rfl
  split <;> simp [front_ite, discardDamaged_front]

theorem staleMarks_front (e : Option Station) (o : Occ) : (s.staleMarks e o).1.front = s.front := by
  unfold State.staleMarks
  split
  · cases e <;> simp [State.constantsMark, State.tideMark]
  · rfl

theorem lookupMarks_front (o : Occ) : (s.lookupMarks o).1.front = s.front := by
  unfold State.lookupMarks
  split
  · have hl := internalLookup_front s o.station
    split <;> rename_i h <;> rw [h] at hl <;> rw [staleMarks_front, hl]
  · rfl

theorem readOccupationBody_front (i : Nat) : (readOccupationBody i s).front = s.front := by
  unfold readOccupationBody
  split
  · rfl
  dsimp only
  split <;> simp [front_ite, lookupMarks_front]

/-! ### The loop commands (spec/06) -/

theorem lookupEntry_front (n : Nat) : (s.lookupEntry n).1.front = s.front := by
  have hl := internalLookup_front s n
  unfold State.lookupEntry
  split <;> rename_i h <;> rw [h] at hl <;> exact hl

theorem openOn_front (l i : Nat) (o : Occ) : (s.openOn l i o).front = s.front := by
  simp [State.openOn, State.openNow, front_ite, lookupEntry_front]

theorem openLoopBody_front (l i : Nat) : (openLoopBody l i s).front = s.front := by
  unfold openLoopBody
  split
  · rfl
  split
  · rfl
  dsimp only
  split
  · simp
  split <;> simp [front_ite, openOn_front]

theorem closeTie_front (o p : Occ) (e : Option Station) : (s.closeTie o p e).1.front = s.front := by
  unfold State.closeTie
  split
  · rfl
  dsimp only
  split <;> exact lookupEntry_front s _

theorem closeDrift_front (r : Loop) (o : Occ) (epoch : Nat) (e : Option Station) :
    (s.closeDrift r o epoch e).1.front = s.front := by
  unfold State.closeDrift
  dsimp only
  split
  · simp
  split
  · simp
  split
  · split <;> simp [closeTie_front]
  · simp

theorem closeChecks_front (i : Nat) (r : Loop) (o : Occ) (mode : CloseMode) :
    (s.closeChecks i r o mode).1.front = s.front := by
  unfold State.closeChecks
  split
  · rfl
  split
  · rfl
  split
  · rfl
  dsimp only
  split
  · exact lookupEntry_front s _
  split
  · simp [lookupEntry_front]
  split
  · simp [lookupEntry_front]
  split <;> simp [closeDrift_front, lookupEntry_front]

theorem closeOn_front (l i : Nat) (r : Loop) (mode : CloseMode) (tag : Nat) :
    (s.closeOn l i r mode tag).front = s.front := by
  unfold State.closeOn
  dsimp only
  split
  · simp
  split
  · simp
  split <;> simp [State.closeQueue, State.closeNow, front_ite, closeChecks_front]

theorem closeLoopBody_front (l i mode tag : Nat) : (closeLoopBody l i mode tag s).front = s.front := by
  unfold closeLoopBody
  split
  · rfl
  split
  · rfl
  dsimp only
  split
  · simp
  split
  · simp
  split <;> simp [closeOn_front]

theorem voidLoopBody_front (l : Nat) : (voidLoopBody l s).front = s.front := by
  unfold voidLoopBody
  split
  · rfl
  dsimp only
  split <;> simp [front_ite, State.voidDamagedNow]

theorem releaseMember_front (a : State × Nat) (i : Nat) : (releaseMember a i).1.front = a.1.front :=
  (releaseMember_tableStep a i).front

theorem releaseLoopBody_front (l : Nat) : (releaseLoopBody l s).front = s.front := by
  unfold releaseLoopBody
  split
  · rfl
  dsimp only
  split <;> simp [front_ite, State.release, foldl_fst_front releaseMember_front]

theorem readLoopBody_front (l : Nat) : (readLoopBody l s).front = s.front := by
  unfold readLoopBody
  split
  · rfl
  dsimp only
  split
  · simp
  split
  · simp
  split <;> simp [front_ite]

/-! ### The tables, the clock and the engine's commands (spec/05, spec/07, spec/09) -/

theorem writeConstituentBody_front (k enabled speed phase : Nat) :
    (writeConstituentBody k enabled speed phase s).front = s.front := by
  unfold writeConstituentBody
  split <;> simp [front_ite]

theorem writeSiteBody_front (k : Nat) (pairs : List (Nat × Nat)) : (writeSiteBody k pairs s).front = s.front := by
  simp [writeSiteBody, State.badLength, front_ite]

theorem clearSiteBody_front (k : Nat) : (clearSiteBody k s).front = s.front := by
  simp [clearSiteBody, front_ite]

theorem checkConstituents_front : s.checkConstituents.front = s.front :=
  foldl_front (fun s k => (checkConstituent_tableStep s k).front) _ s

theorem readSiteBody_front (k : Nat) : (readSiteBody k s).front = s.front := by
  simp [readSiteBody, front_ite, checkConstituents_front]

theorem readConstantsBody_front : (readConstantsBody s).front = s.front := by
  simp [readConstantsBody, front_ite]

theorem setClockBody_front (sec tick : Nat) : (setClockBody sec tick s).front = s.front := by
  simp [setClockBody, front_ite]

theorem trimClockBody_front (trim : Int) : (trimClockBody trim s).front = s.front := by
  simp [trimClockBody, front_ite]

theorem submitJobBody_front (kind target tag : Nat) : (submitJobBody kind target tag s).front = s.front := by
  unfold submitJobBody
  split <;> simp [front_ite]

theorem restartRetryBody_front (action : Nat) : (restartRetryBody action s).front = s.front := by
  unfold restartRetryBody
  split
  · rfl
  split
  · rfl
  split <;> simp

theorem dropJob_front (f : Flight) : (s.dropJob f).front = s.front := by
  unfold State.dropJob
  split
  · exact undoClose_front s _
  · rfl

theorem restartDiscardBody_front : (restartDiscardBody s).front = s.front := by
  unfold restartDiscardBody
  split
  · rfl
  split <;> simp [dropJob_front]

/-! ### Reporting, the events and the restore (spec/08, spec/10, spec/11) -/

theorem nextChangedBody_front (key : Option Nat) : (nextChangedBody key s).front = s.front := by
  simp [nextChangedBody, front_ite]

theorem exportPart_front (e : Station) (a : State × List OccPart) (i : Nat) :
    (exportPart e a i).1.front = a.1.front := by
  unfold exportPart
  dsimp only
  split
  · simp
  split <;> simp [staleMarks_front]

theorem exportNow_front (w : Nat) (e : Station) : (s.exportNow w e).front = s.front := by
  simp [State.exportNow, foldl_fst_front (exportPart_front e)]

theorem exportStationBody_front (n : Nat) : (exportStationBody n s).front = s.front := by
  unfold exportStationBody
  split
  · rfl
  split
  · dsimp only
    split <;> simp [front_ite, exportNow_front, front_of_keyedLookup ‹_›]
  · simp [front_of_keyedLookup ‹_›]

theorem readExportPartBody_front (k : Nat) : (readExportPartBody k s).front = s.front := by
  unfold readExportPartBody
  split <;> rfl

theorem maskCommand_front (m : BitVec 16) (f : Events → Events) : (maskCommand m f s).front = s.front := by
  simp [maskCommand, front_ite]

theorem beginRestoreBody_front : (beginRestoreBody s).front = s.front := by
  simp [beginRestoreBody, front_ite]

theorem loadStationBody_front (r : LoadStationReq) : (loadStationBody r s).front = s.front := by
  unfold loadStationBody
  simp only [front_ite]
  split_ifs
  · rfl
  · rfl
  · rfl
  split <;> simp

theorem loadOccupationBody_front (i : Nat) (r : LoadOccupationReq) : (loadOccupationBody i r s).front = s.front := by
  unfold loadOccupationBody
  simp only [front_ite]
  split_ifs
  · rfl
  · rfl
  · rfl
  split <;> simp [front_ite]

theorem loadLoopBody_front (r : LoadLoopReq) : (loadLoopBody r s).front = s.front := by
  unfold loadLoopBody
  simp only [front_ite]
  split_ifs
  · rfl
  · rfl
  · rfl
  split <;> simp [front_ite]

end Sys2Proof.Machine
end

