-- ==== Sys2Proof/Proofs/Readings/EngineTables.lean ====
section
/-! SUPPORT. A step of the reduction engine that goes on works on the tables alone, and on the engine's own progress
(R118 to R123, R131, R138, R142 to R148). -/

namespace Sys2Proof.Machine

open Sys2Proof

variable {s t : State} {f g : Flight}

/-! ### Reads in sequence -/

theorem bind_eq_ok {ε α β : Type} {x : Except ε α} {k : α → Except ε β} {b : β} :
    x >>= k = .ok b ↔ ∃ a, x = .ok a ∧ k a = .ok b := by
  cases x <;> simp [bind, Except.bind]

theorem halting_eq_ok {α : Type} {x : Except RecordId α} {a : α} : halting f x = .ok a ↔ x = .ok a := by
  cases x <;> simp [halting, Except.mapError]

theorem ok_injEq_pair {ε α β : Type} {a c : α} {b d : β} : (.ok (a, b) : Except ε (α × β)) = .ok (c, d) ↔ a = c ∧ b = d := by
  simp

/-! ### One reduction (R85, R87) -/

theorem reduceRecord_tableStep {i : Nat} {o : Occ} {r : State × Bool} (h : reduceRecord s i o = .ok r) :
    TableStep s r.1 := by
  simp only [reduceRecord, bind_eq_ok] at h
  obtain ⟨-, -, c, -, ⟨u, way⟩, hl, h⟩ := h
  have hu := engineLookup_tableStep hl
  split at h
  · simp only [bind_eq_ok, Except.ok.injEq] at h
    obtain ⟨site, -, tide, -, rfl⟩ := h
    exact (hu.trans (putOcc_tableStep _ _ _)).trans (markChanged_tableStep _ _)
  · obtain rfl := Except.ok.inj h
    exact hu

theorem reduceAndFind_tableStep {i : Nat} {o : Occ} {r : State × Flight × Bool} (h : reduceAndFind s f i o = .ok r) :
    TableStep s r.1 := by
  simp only [reduceAndFind, bind_eq_ok] at h
  obtain ⟨⟨u, made⟩, hr, h⟩ := h
  have hu := reduceRecord_tableStep hr
  cases made with
  | true =>
    simp only [if_true, bind_eq_ok, Except.ok.injEq] at h
    obtain ⟨⟨v, ls⟩, hc, rfl⟩ := h
    exact hu.trans (closedLoopsOf_tableStep hc)
  | false =>
    obtain rfl := Except.ok.inj h
    exact hu

/-! ### What every body keeps -/

/-- A step's body that, where it goes on, works on the tables alone. -/
def BodyKeeps (body : State → Flight → StepResult) : Prop := ∀ s f t g, body s f = .ok (t, g) → TableStep s t

theorem reduceBody_keeps : BodyKeeps reduceBody := by
  intro s f t g h
  unfold reduceBody at h
  split at h
  · split at h
    · obtain ⟨rfl, -⟩ := ok_injEq_pair.1 h
      exact .refl s
    split at h
    · obtain ⟨rfl, -⟩ := ok_injEq_pair.1 h
      exact .refl s
    simp only [halting_eq_ok, bind_eq_ok] at h
    obtain ⟨-, -, h⟩ := h
    split at h
    · obtain ⟨rfl, -⟩ := ok_injEq_pair.1 h
      exact .refl s
    · obtain ⟨⟨u, f', made⟩, hr, h⟩ := bind_eq_ok.1 h
      obtain ⟨rfl, -⟩ := ok_injEq_pair.1 h
      exact reduceAndFind_tableStep hr
  · obtain ⟨rfl, -⟩ := ok_injEq_pair.1 h
    exact .refl s

theorem onClosing_keeps {body : Nat → Loop → StepResult} (h : onClosing s f body = .ok (t, g))
    (hbody : ∀ l r, body l r = .ok (t, g) → TableStep s t) : TableStep s t := by
  unfold onClosing at h
  split at h
  · obtain ⟨x, -, h⟩ := bind_eq_ok.1 h
    split at h
    · split at h
      · exact hbody _ _ h
      · obtain ⟨rfl, -⟩ := ok_injEq_pair.1 h
        exact .refl s
    · obtain ⟨rfl, -⟩ := ok_injEq_pair.1 h
      exact .refl s
  · obtain ⟨rfl, -⟩ := ok_injEq_pair.1 h
    exact .refl s

theorem undoUnusable_tableStep (s : State) (f : Flight) (l : Nat) : TableStep s (undoUnusable s f l).1 :=
  undoClose_tableStep s l

/-- A body that ends with an undone close keeps what the undoing keeps. -/
theorem tableStep_of_undoUnusable {u : State} {l : Nat} (hu : TableStep s u)
    (h : (.ok (undoUnusable u f l) : StepResult) = .ok (t, g)) : TableStep s t := by
  have := undoUnusable_tableStep u f l
  rw [Except.ok.inj h] at this
  exact hu.trans this

theorem loopCheckBody_keeps : BodyKeeps loopCheckBody := by
  intro s f t g h
  refine onClosing_keeps h fun l r h => ?_
  obtain ⟨x, -, h⟩ := bind_eq_ok.1 h
  split at h
  · obtain ⟨rfl, -⟩ := ok_injEq_pair.1 h
    exact .refl s
  · exact tableStep_of_undoUnusable (.refl s) h

theorem inlineOne_keeps {l i : Nat} {o : Occ} {next : Place} (h : inlineOne s f l i o next = .ok (t, g)) :
    TableStep s t := by
  obtain ⟨⟨u, made⟩, hr, h⟩ := bind_eq_ok.1 h
  have hu := reduceRecord_tableStep (halting_eq_ok.1 hr)
  cases made with
  | true =>
    obtain ⟨rfl, -⟩ := ok_injEq_pair.1 h
    exact hu
  | false => exact tableStep_of_undoUnusable hu h

theorem inlineBody_keeps : BodyKeeps inlineBody := by
  intro s f t g h
  refine onClosing_keeps h fun l r h => ?_
  obtain ⟨x, -, h⟩ := bind_eq_ok.1 h
  split at h
  · split at h
    · exact inlineOne_keeps h
    · exact inlineOne_keeps h
  · exact tableStep_of_undoUnusable (.refl s) h

/-! ### The drift steps (R119 to R122, R131) -/

theorem referenceOf_tableStep {n : Nat} {r : State × Option Nat} (h : referenceOf s n = .ok r) : TableStep s r.1 := by
  obtain ⟨⟨u, way⟩, hl, h⟩ := bind_eq_ok.1 h
  obtain rfl := Except.ok.inj h
  have hu := engineLookup_tableStep hl
  exact hu

/-- The end of a ΔV step: the constants are read unless a tie is missing. -/
theorem tableStep_of_driftEnd {missing : Bool} {F : Constants → DriftCalc} {x : State × Option DriftCalc}
    (h : (if missing = true then .ok (s, none) else needConstants s >>= fun c => .ok (s, some (F c))) = .ok x) :
    TableStep s x.1 := by
  split at h
  · obtain rfl := Except.ok.inj h
    exact .refl s
  · obtain ⟨c, -, h⟩ := bind_eq_ok.1 h
    obtain rfl := Except.ok.inj h
    exact .refl s

theorem deltaV_tableStep {r : Loop} {x : State × Option DriftCalc} (h : deltaV s r = .ok x) : TableStep s x.1 := by
  obtain ⟨o, -, h⟩ := bind_eq_ok.1 h
  dsimp only at h
  split at h
  all_goals
    obtain ⟨p, -, h⟩ := bind_eq_ok.1 h
    split at h
    · obtain ⟨⟨u, ro⟩, hro, h⟩ := bind_eq_ok.1 h
      have hu : TableStep s u := referenceOf_tableStep hro
      dsimp only at h
      split at h
      · obtain ⟨⟨v, rc⟩, hrc, h⟩ := bind_eq_ok.1 h
        have hv : TableStep u v := referenceOf_tableStep hrc
        exact (hu.trans hv).trans (tableStep_of_driftEnd h)
      · exact hu.trans (tableStep_of_driftEnd h)
    · obtain rfl := Except.ok.inj h
      exact .refl s

theorem deltaVBody_keeps : BodyKeeps deltaVBody := by
  intro s f t g h
  refine onClosing_keeps h fun l r h => ?_
  obtain ⟨⟨u, d⟩, hd, h⟩ := bind_eq_ok.1 h
  have hu : TableStep s u := deltaV_tableStep (halting_eq_ok.1 hd)
  cases d with
  | some d =>
    obtain ⟨rfl, -⟩ := ok_injEq_pair.1 h
    exact hu.trans (noteRate_tableStep _ _ _ _)
  | none => exact tableStep_of_undoUnusable hu h

/-- R121: what a member step does once the member is reduced, or needs no reduction. -/
def writeMember (f : Flight) (l i : Nat) (d : DriftCalc) (next : Place) (p : State × Bool) : StepResult :=
  if p.2 then
    match p.1.occ? i with
    | some o => halting f (writeDrift p.1 i o d) >>= fun u => .ok (u, (f.mark i).goTo next)
    | none => .ok (p.1, f.goTo next)
  else .ok (undoUnusable p.1 f l)

theorem closeMember_eq (s : State) (f : Flight) (l i : Nat) (o : Occ) (d : DriftCalc) (next : Place) :
    closeMember s f l i o d next = if keepsDrift o then .ok (s, f.goTo next)
      else (if o.state = .pending then halting f (reduceRecord s i o) else .ok (s, true)) >>= writeMember f l i d next := by
  unfold closeMember
  split
  · rfl
  · split <;> rfl

theorem writeMember_keeps {l i : Nat} {d : DriftCalc} {next : Place} {p : State × Bool}
    (h : writeMember f l i d next p = .ok (t, g)) : TableStep p.1 t := by
  unfold writeMember at h
  split at h
  · split at h
    · obtain ⟨u, hu, h⟩ := bind_eq_ok.1 h
      obtain ⟨rfl, -⟩ := ok_injEq_pair.1 h
      exact writeDrift_tableStep (halting_eq_ok.1 hu)
    · obtain ⟨rfl, -⟩ := ok_injEq_pair.1 h
      exact .refl _
  · exact tableStep_of_undoUnusable (.refl _) h

theorem closeMember_keeps {l i : Nat} {o : Occ} {d : DriftCalc} {next : Place}
    (h : closeMember s f l i o d next = .ok (t, g)) : TableStep s t := by
  rw [closeMember_eq] at h
  split at h
  · obtain ⟨rfl, -⟩ := ok_injEq_pair.1 h
    exact .refl s
  obtain ⟨p, hr, h⟩ := bind_eq_ok.1 h
  refine TableStep.trans ?_ (writeMember_keeps h)
  split at hr
  · exact reduceRecord_tableStep (halting_eq_ok.1 hr)
  · obtain rfl := Except.ok.inj hr
    exact .refl s

theorem memberBody_keeps : BodyKeeps memberBody := by
  intro s f t g h
  refine onClosing_keeps h fun l r h => ?_
  split at h
  · split at h
    · obtain ⟨x, -, h⟩ := bind_eq_ok.1 h
      split at h
      · exact closeMember_keeps h
      · obtain ⟨rfl, -⟩ := ok_injEq_pair.1 h
        exact .refl s
    · obtain ⟨rfl, -⟩ := ok_injEq_pair.1 h
      exact .refl s
  · obtain ⟨rfl, -⟩ := ok_injEq_pair.1 h
    exact .refl s

theorem onClosed_keeps {body : Nat → Loop → StepResult} (h : onClosed s f body = .ok (t, g))
    (hbody : ∀ l r, body l r = .ok (t, g) → TableStep s t) : TableStep s t := by
  unfold onClosed at h
  split at h
  · obtain ⟨x, -, h⟩ := bind_eq_ok.1 h
    split at h
    · split at h
      · exact hbody _ _ h
      · obtain ⟨rfl, -⟩ := ok_injEq_pair.1 h
        exact .refl s
    · obtain ⟨rfl, -⟩ := ok_injEq_pair.1 h
      exact .refl s
  · obtain ⟨rfl, -⟩ := ok_injEq_pair.1 h
    exact .refl s

theorem finishRecompute_tableStep (s : State) (f : Flight) (l : Nat) (d : DriftCalc) :
    TableStep s (finishRecompute s f l d).1 := by
  unfold finishRecompute
  dsimp only
  split
  · exact putLoop_tableStep s _ _
  · exact .refl s

theorem nextRecompute_tableStep (s : State) (f : Flight) (l : Nat) (r : Loop) (d : DriftCalc) (walked : List Nat) :
    TableStep s (nextRecompute s f l r d walked).1 := by
  unfold nextRecompute
  split
  · exact .refl s
  · exact finishRecompute_tableStep s f l d

/-- A body that ends with the next place of a recomputation keeps what that keeps. -/
theorem tableStep_of_ok {u : State} {p : State × Flight} (hu : TableStep s u) (hp : TableStep u p.1)
    (h : (.ok p : StepResult) = .ok (t, g)) : TableStep s t := by
  rw [Except.ok.inj h] at hp
  exact hu.trans hp

theorem recomputeDeltaVBody_keeps : BodyKeeps recomputeDeltaVBody := by
  intro s f t g h
  refine onClosed_keeps h fun l r h => ?_
  obtain ⟨⟨u, d⟩, hd, h⟩ := bind_eq_ok.1 h
  have hu : TableStep s u := deltaV_tableStep (halting_eq_ok.1 hd)
  cases d with
  | some d => exact tableStep_of_ok (hu.trans (noteRate_tableStep _ _ _ _)) (nextRecompute_tableStep _ _ _ _ _ _) h
  | none =>
    obtain ⟨rfl, -⟩ := ok_injEq_pair.1 h
    exact hu

theorem recomputeMemberBody_keeps : BodyKeeps recomputeMemberBody := by
  intro s f t g h
  refine onClosed_keeps h fun l r h => ?_
  have hnext := nextRecompute_tableStep s f l r
  split at h
  · split at h
    · obtain ⟨x, -, h⟩ := bind_eq_ok.1 h
      split at h
      · split at h
        · exact tableStep_of_ok (.refl s) (hnext _ _) h
        · obtain ⟨u, hu, h⟩ := bind_eq_ok.1 h
          exact tableStep_of_ok (writeDrift_tableStep (halting_eq_ok.1 hu)) (nextRecompute_tableStep _ _ _ _ _ _) h
      · exact tableStep_of_ok (.refl s) (hnext _ _) h
    · exact tableStep_of_ok (.refl s) (finishRecompute_tableStep _ _ _ _) h
  · obtain ⟨rfl, -⟩ := ok_injEq_pair.1 h
    exact .refl s

/-! ### The walks (R143 to R145) -/

theorem wayBody_keeps : BodyKeeps wayBody := by
  intro s f t g h
  unfold wayBody at h
  split at h
  · split at h
    · obtain ⟨rfl, -⟩ := ok_injEq_pair.1 h
      exact .refl s
    split at h
    · obtain ⟨rfl, -⟩ := ok_injEq_pair.1 h
      exact .refl s
    split at h
    · cases h
    · obtain ⟨⟨u, way⟩, hl, h⟩ := bind_eq_ok.1 (halting_eq_ok.1 h)
      obtain ⟨rfl, -⟩ := ok_injEq_pair.1 h
      exact engineLookup_tableStep hl
  · obtain ⟨rfl, -⟩ := ok_injEq_pair.1 h
    exact .refl s

theorem engineMarks_tableStep {o : Occ} {r : Results} {x : State × Option (Bool × Bool)}
    (h : engineMarks s o r = .ok x) : TableStep s x.1 := by
  obtain ⟨⟨u, way⟩, hl, h⟩ := bind_eq_ok.1 h
  have hu := engineLookup_tableStep hl
  dsimp only at h
  split at h
  · simp only [bind_eq_ok, Except.ok.injEq] at h
    obtain ⟨site, -, c, -, rfl⟩ := h
    exact hu
  · obtain rfl := Except.ok.inj h
    exact hu

theorem retideVisit_tableStep {i : Nat} (h : retideVisit s f i = .ok (t, g)) : TableStep s t := by
  unfold retideVisit at h
  split at h
  · obtain ⟨rfl, -⟩ := ok_injEq_pair.1 h
    exact .refl s
  split at h
  · obtain ⟨rfl, -⟩ := ok_injEq_pair.1 h
    exact .refl s
  obtain ⟨-, -, h⟩ := bind_eq_ok.1 h
  split at h
  · obtain ⟨⟨u, marks⟩, hm, h⟩ := bind_eq_ok.1 h
    have hu : TableStep s u := engineMarks_tableStep hm
    dsimp only at h
    split at h
    · obtain ⟨rfl, -⟩ := ok_injEq_pair.1 h
      exact hu
    · obtain ⟨⟨v, f', made⟩, hr, h⟩ := bind_eq_ok.1 h
      obtain ⟨rfl, -⟩ := ok_injEq_pair.1 h
      exact hu.trans (reduceAndFind_tableStep hr)
  · obtain ⟨rfl, -⟩ := ok_injEq_pair.1 h
    exact .refl s

theorem occupationBody_keeps : BodyKeeps occupationBody := by
  intro s f t g h
  unfold occupationBody at h
  split at h
  · split at h
    · obtain ⟨rfl, -⟩ := ok_injEq_pair.1 h
      exact .refl s
    split at h
    · obtain ⟨rfl, -⟩ := ok_injEq_pair.1 h
      split
      · exact .refl s
      · exact raise_tableStep s _
    split at h
    · cases h
    split at h
    · split at h
      · exact retideVisit_tableStep (halting_eq_ok.1 h)
      · obtain ⟨rfl, -⟩ := ok_injEq_pair.1 h
        exact .refl s
    · obtain ⟨rfl, -⟩ := ok_injEq_pair.1 h
      exact .refl s
  · obtain ⟨rfl, -⟩ := ok_injEq_pair.1 h
    exact .refl s

theorem recalcVisit_tableStep {i : Nat} {p : State × Flight} (h : recalcVisit s f i = .ok p) : TableStep s p.1 := by
  unfold recalcVisit at h
  split at h
  · obtain rfl := Except.ok.inj h
    exact .refl s
  split at h
  · obtain rfl := Except.ok.inj h
    exact .refl s
  split at h
  · obtain ⟨-, -, h⟩ := bind_eq_ok.1 h
    obtain ⟨⟨u, marks⟩, hm, h⟩ := bind_eq_ok.1 h
    have hu : TableStep s u := engineMarks_tableStep hm
    dsimp only at h
    split at h
    · obtain ⟨⟨v, f', made⟩, hr, h⟩ := bind_eq_ok.1 h
      obtain rfl := Except.ok.inj h
      exact hu.trans (reduceAndFind_tableStep hr)
    · obtain rfl := Except.ok.inj h
      exact hu
  · obtain rfl := Except.ok.inj h
    exact .refl s

theorem recalcBody_keeps : BodyKeeps recalcBody := by
  intro s f t g h
  unfold recalcBody at h
  split at h
  · obtain ⟨⟨u, f'⟩, hv, h⟩ := bind_eq_ok.1 h
    obtain ⟨rfl, -⟩ := ok_injEq_pair.1 h
    exact recalcVisit_tableStep (halting_eq_ok.1 hv)
  · obtain ⟨rfl, -⟩ := ok_injEq_pair.1 h
    exact .refl s

/-! ### A step of the job in flight (R138, R139, R148) -/

theorem halt_front (s : State) (r : RecordId) (f : Flight) : (s.halt r f).front = s.front := by
  simp [State.halt]

theorem engineStep_front (due : Flight → Bool) {body : State → Flight → StepResult} (h : BodyKeeps body) (s : State) :
    (s.engineStep due body).front = s.front := by
  unfold State.engineStep
  split
  · split
    · split
      · rename_i hb
        exact (h _ _ _ _ hb).front
      · exact halt_front s _ _
    · rfl
  · rfl

theorem completeJob_front (s : State) (f : Flight) (r : JobResult) : (s.completeJob f r).front = s.front := by
  unfold State.completeJob
  dsimp only
  split <;> simp [front_ite]

theorem closeCompletion_front (s : State) : s.closeCompletion.front = s.front := by
  unfold State.closeCompletion
  split
  · split
    · dsimp only
      rw [completeJob_front]
      split
      · split <;> rfl
      · rfl
    · rfl
  · rfl

theorem jobCompletion_front (s : State) : s.jobCompletion.front = s.front := by
  unfold State.jobCompletion
  split
  · split
    · exact completeJob_front s _ _
    · rfl
  · rfl

end Sys2Proof.Machine
end

