-- ==== Sys2Proof/Proofs/Readings/ScanFront.lean ====
section
/-! SUPPORT. The consistency scan leaves the front end alone (R62, R195 to R198). -/

namespace Sys2Proof.Machine

open Sys2Proof

variable (s : State)

/-- An operation of the scan on one set, way, record or loop that leaves the front end alone. -/
def FrontKept (act : Nat → State → State) : Prop := ∀ k s, (act k s).front = s.front

/-! ### What every access handles (R195) -/

theorem findDamagedStation_front (w : Nat) : (s.findDamagedStation w).front = s.front := by
  simp [State.findDamagedStation, front_ite]

theorem freeDamagedOcc_front (i : Nat) : (s.freeDamagedOcc i).front = s.front := by
  unfold State.freeDamagedOcc
  split <;> simp [front_ite]

theorem freeDamagedLoop_front (l : Nat) : (s.freeDamagedLoop l).front = s.front := by
  unfold State.freeDamagedLoop
  split <;> simp [front_ite]

theorem sweepOnce_front (wait : Marked) : (s.sweepOnce wait).front = s.front := by
  simp [State.sweepOnce, foldl_front freeDamagedOcc_front, foldl_front freeDamagedLoop_front]

theorem sweep_front (wait : Marked) : (s.sweep wait).front = s.front := by
  simp [State.sweep, foldl_front findDamagedStation_front, sweepOnce_front]

theorem earlyStep_front {act : Nat → State → State} (h : FrontKept act) (k : Nat) : (earlyStep act s k).front = s.front := by
  rw [earlyStep, sweep_front, h]

theorem scanStep_front {reads act : Nat → State → State} (hr : FrontKept reads) (ha : FrontKept act) (k : Nat) :
    (scanStep reads act s k).front = s.front := by
  rw [scanStep, sweep_front, ha, sweep_front, hr]

theorem scanPass_front (n size : Nat) {unit : State → Nat → State} (h : ∀ s k, (unit s k).front = s.front) (steps : Nat) :
    (scanPass n size unit steps s).front = s.front := by
  simp [scanPass, front_ite, foldl_front h]

/-! ### The first two passes -/

theorem suspectTwin_front (w : Nat) : (s.suspectTwin w).front = s.front := by
  unfold State.suspectTwin
  split <;> simp [front_ite]

theorem suspectTwins_kept : FrontKept suspectTwins := fun set s => by
  simp [suspectTwins, foldl_front suspectTwin_front]

theorem findDamage_kept : FrontKept findDamage := fun k s => by
  simp [findDamage, front_ite, freeDamagedOcc_front, freeDamagedLoop_front, findDamagedStation_front]

/-! ### References -/

theorem readList_kept : FrontKept readList := fun w s => by
  simp [readList]

theorem pruneList_kept : FrontKept pruneList := fun w s => by
  unfold pruneList
  split <;> simp [front_ite]

theorem readOwner_kept : FrontKept readOwner := fun i s => by
  unfold readOwner
  dsimp only
  split <;> simp

theorem freeUnlisted_kept : FrontKept freeUnlisted := fun i s => by
  unfold freeUnlisted
  split <;> simp [front_ite]

theorem readGathered_kept : FrontKept readGathered := fun w s => by
  unfold readGathered
  dsimp only
  split <;> simp [front_ite]

theorem rewriteList_kept : FrontKept rewriteList := fun w s => by
  unfold rewriteList
  split <;> simp [front_ite, foldl_front fun s i => freeOcc_front s allWays i]

theorem readMembers_kept : FrontKept readMembers := fun l s => by
  unfold readMembers
  dsimp only
  split <;> simp [front_ite]

theorem pruneMembers_kept : FrontKept pruneMembers := fun l s => by
  unfold pruneMembers
  split <;> simp [front_ite]

theorem checkField_front (l : Option Nat) : (checkField s l).front = s.front := by
  cases l with
  | none => rfl
  | some l => exact checkLoop_front s l

theorem readFields_kept : FrontKept readFields := fun i s => by
  unfold readFields
  dsimp only
  split <;> simp [checkField_front]

theorem clearFields_kept : FrontKept clearFields := fun i s => by
  unfold clearFields
  split <;> simp [front_ite]

theorem referencesUnit_front (k : Nat) : (referencesUnit s k).front = s.front := by
  simp [referencesUnit, front_ite, scanStep_front s readList_kept pruneList_kept,
    scanStep_front s readOwner_kept freeUnlisted_kept, scanStep_front s readGathered_kept rewriteList_kept,
    scanStep_front s readMembers_kept pruneMembers_kept, scanStep_front s readFields_kept clearFields_kept]

/-! ### The later passes -/

theorem checkOcc_kept : FrontKept fun i s => s.checkOcc i := fun i s => checkOcc_front s i

theorem checkLoop_kept : FrontKept fun l s => s.checkLoop l := fun l s => checkLoop_front s l

theorem freeWindow_kept : FrontKept freeWindow := fun i s => by
  unfold freeWindow
  split <;> simp [front_ite]

theorem sortList_kept : FrontKept sortList := fun w s => by
  unfold sortList
  split <;> simp [front_ite]

theorem readAnchor_kept : FrontKept readAnchor := fun l s => by
  unfold readAnchor
  dsimp only
  split
  · split
    · simp
    · split <;> simp
  · simp

theorem voidUnanchored_kept : FrontKept voidUnanchored := fun l s => by
  unfold voidUnanchored
  split <;> simp [front_ite]

theorem noteInterrupted_front (l : Nat) : (s.noteInterrupted l).front = s.front := by
  unfold State.noteInterrupted
  split <;> rfl

theorem undoInterrupted_kept : FrontKept undoInterrupted := fun l s => by
  unfold undoInterrupted
  split <;> simp [front_ite, noteInterrupted_front]

theorem readDrift_kept : FrontKept readDrift := fun i s => by
  unfold readDrift
  dsimp only
  split <;> simp [front_ite, checkField_front]

theorem removeStray_kept : FrontKept removeStray := fun i s => by
  unfold removeStray
  split <;> simp [front_ite]

theorem scanDone_front : s.scanDone.front = s.front := by
  simp [State.scanDone, front_ite]

end Sys2Proof.Machine
end

