-- ==== Sys2Proof/Proofs/Readings/Lag.lean ====
section
/-! SUPPORT. A temperature gate that completes (R42, R61, R62), and the lag value: its bounds, and the commands that leave
it as it is (R62). -/

namespace Sys2Proof.Machine

open Sys2Proof

variable {s t : State}

/-! ### The lag value lies between its old value and the temperature (R62, R73) -/

theorem roundDiv_between_of_nonneg {a d : Int} {b : Nat} (hb : 0 < b) (ha : 0 ≤ a) (h : a ≤ d * b) :
    0 ≤ roundDiv a b ∧ roundDiv a b ≤ d := by
  have hd : 0 ≤ d := by
    by_contra hneg
    have : d * b < 0 := mul_neg_of_neg_of_pos (by omega) (by exact_mod_cast hb)
    omega
  obtain ⟨n, rfl⟩ := Int.eq_ofNat_of_zero_le ha
  obtain ⟨m, rfl⟩ := Int.eq_ofNat_of_zero_le hd
  have hle : n ≤ m * b := by exact_mod_cast h
  rw [roundDiv, if_pos ha]
  refine ⟨Int.natCast_nonneg _, ?_⟩
  have hlt : (2 * n + b) / (2 * b) < m + 1 := by
    rw [Nat.div_lt_iff_lt_mul (by omega)]
    nlinarith
  simp only [Int.toNat_natCast]
  exact_mod_cast Nat.le_of_lt_succ hlt

theorem roundDiv_zero {b : Nat} (hb : 0 < b) : roundDiv 0 b = 0 := by
  have hzero : (2 * 0 + b) / (2 * b) = 0 := Nat.div_eq_of_lt (by omega)
  rw [roundDiv, if_pos le_rfl, Int.toNat_zero, hzero, Int.ofNat_zero]

theorem roundDiv_neg (a : Int) {b : Nat} (hb : 0 < b) : roundDiv (-a) b = -roundDiv a b := by
  rcases lt_trichotomy a 0 with ha | rfl | ha
  · rw [roundDiv, roundDiv, if_pos (by omega), if_neg (by omega), neg_neg]
  · rw [neg_zero, roundDiv_zero hb, neg_zero]
  · rw [roundDiv, roundDiv, if_neg (by omega), if_pos (by omega), neg_neg]

theorem nextLag_between (c : ConstNums) (old v : Int) (h1 : 1 ≤ c.lagFactor) (h2 : c.lagFactor ≤ 256) :
    min old v ≤ nextLag c (some old) v ∧ nextLag c (some old) v ≤ max old v := by
  show min old v ≤ old + roundDiv ((v - old) * c.lagFactor) 256 ∧
    old + roundDiv ((v - old) * c.lagFactor) 256 ≤ max old v
  rcases le_total old v with h | h
  · obtain ⟨hlo, hhi⟩ := roundDiv_between_of_nonneg (a := (v - old) * c.lagFactor) (d := v - old) (b := 256)
      (by decide) (by nlinarith) (by push_cast; nlinarith)
    omega
  · obtain ⟨hlo, hhi⟩ := roundDiv_between_of_nonneg (a := (old - v) * c.lagFactor) (d := old - v) (b := 256)
      (by decide) (by nlinarith) (by push_cast; nlinarith)
    have hneg : (v - old) * c.lagFactor = -((old - v) * c.lagFactor) := by ring
    rw [hneg, roundDiv_neg _ (by decide)]
    omega

/-! ### A temperature gate that completes (R42, R57, R61, R62) -/

/-- R57, R61, R62: the state with the next temperature gate begun, and the value and its lag value held. -/
def State.afterTemp (s : State) (v l : Int) : State :=
  s.setFront { s.front with
    t := s.front.t.complete s.constants.nums.tempGate.toNat, heldT := some v, lag := some l }

theorem exec_temperatureGateComplete {p : Nat} {g : Gate} (hm : s.mainRuns = true) (hs : s.constants.sound = true)
    (hd : s.constants.damaged = false) (hoff : s.front.t.state ≠ .off) (hg : s.front.t.gate = some g)
    (hp : s.front.t.periods + p ≤ 16777215) {v l : Int} (hv : v = tempValue s.constants.nums (s.front.t.periods + p))
    (hl : l = nextLag s.constants.nums s.front.lag v) : exec (.temperatureGateComplete p) s =
      .next ((s.afterTemp v l).toCollecting ((s.afterTemp v l).tempToWindow v l)) := by
  subst hv hl
  have hread : s.checkConstants false = s := by simp [State.checkConstants, hs, hd]
  have hgate : s.completing .temperature p = some (g, s.front.t.periods + p) := completing_of_gate hm hoff hg hp
  show Host.Outcome.next (s.tempGate p) = _
  rw [State.tempGate, hgate]
  simp only [State.completeGate, hread, State.nextLength, hd, State.setFront_constants]
  rfl

theorem temperatureGate_claim : Claims.TemperatureGate := by
  intro s p g hm hs hd hoff hg hp v
  have hx := exec_temperatureGateComplete hm hs hd hoff hg hp (v := v) rfl rfl
  generalize hl : nextLag s.constants.nums s.front.lag v = l at hx
  refine ⟨_, l, hx, ?_, ?_⟩
  · rw [← hl]
    unfold nextLag
    split <;> rfl
  rcases hw : s.window with _ | w
  · rw [toCollecting_of_no_collecting (s := s.afterTemp v l) _ (.inl hw)]
    refine ⟨rfl, rfl, rfl, fun w b c d h => ?_, fun w k h => ?_, fun _ => hw⟩
    · cases h
    · cases h
  cases hph : w.phase with
  | settling k =>
    rw [toCollecting_of_no_collecting (s := s.afterTemp v l) _ (.inr ⟨w, k, hw, hph⟩)]
    refine ⟨rfl, rfl, rfl, fun w' b c d h hp' => ?_, fun _ _ _ _ => hw, fun h => ?_⟩
    · obtain rfl := Option.some.inj h
      rw [hph] at hp'
      cases hp'
    · cases h
  | collecting b c d =>
    rw [toCollecting_of_collecting (s := s.afterTemp v l) _ hw hph]
    refine ⟨rfl, rfl, rfl, fun w' b' c' d' h hp' => ?_, fun w' k h hk => ?_, fun h => ?_⟩
    · obtain rfl := Option.some.inj h
      have hclamp : (s.afterTemp v l).clamp = s.clamp := rfl
      simp only [State.tempToWindow, hclamp]
    · obtain rfl := Option.some.inj h
      rw [hph] at hk
      cases hk
    · cases h

/-! ### Commands that leave the front end, or its lag value, as they are (R62) -/

section Kept

variable {i : Instr} {a : Access} {body : State → State}

theorem lag_of_hostCommand (hb : (body s).front.lag = s.front.lag) (h : hostCommand i a body s = .next t) :
    t.front.lag = s.front.lag := by
  rcases hostCommand_cases i a body s with hx | hx | hx <;> rw [hx] at h <;> obtain rfl := Host.Outcome.next.inj h
  · exact hb
  · rfl
  · rfl

theorem lag_of_hostFront (hb : (body s).front = s.front) (h : hostCommand i a body s = .next t) :
    t.front.lag = s.front.lag := lag_of_hostCommand (congrArg _ hb) h

theorem lag_of_blockEvent (hb : (body s).front.lag = s.front.lag) (h : blockEvent body s = .next t) :
    t.front.lag = s.front.lag := by
  obtain rfl := Host.Outcome.next.inj h
  exact hb

theorem lag_of_blockFront (hb : (body s).front = s.front) (h : blockEvent body s = .next t) :
    t.front.lag = s.front.lag := lag_of_blockEvent (congrArg _ hb) h

end Kept

/-! ### The counts that a tick drives (R69, R176) -/

theorem takeSettle_front (s : State) : s.takeSettle.front = s.front := by
  unfold State.takeSettle
  split
  · split
    · exact enterCollecting_front s _
    · rfl
  · rfl

theorem takeElapsed_front (s : State) : s.takeElapsed.front = s.front := by
  unfold State.takeElapsed
  split
  · split
    · split
      · exact closeWindow_front s _ _ _ _
      · rfl
    · rfl
  · rfl

theorem silenceWindow_front (s : State) : s.silenceWindow.front = s.front := by
  unfold State.silenceWindow
  split
  · split
    · exact closeWindow_front s _ _ _ _
    · rfl
  · rfl

theorem takeSilence_lag (s : State) : s.takeSilence.front.lag = s.front.lag := by
  unfold State.takeSilence
  split
  · split
    · rw [silenceWindow_front]
    · rfl
  · rfl

theorem takeDue_lag (s : State) : s.takeDue.front.lag = s.front.lag := by
  rw [State.takeDue, foldl_front takeExpiry_front, takeSilence_lag, takeElapsed_front, takeSettle_front]

theorem tick_lag (s : State) : s.tick.front.lag = s.front.lag := by
  rw [State.tick, expiryCheck_front, ← takeDue_lag s]
  dsimp only
  split <;> rfl

theorem slew_lag (s : State) : s.slew.front.lag = s.front.lag := by
  unfold State.slew
  split
  · dsimp only
    split
    · exact tick_lag s
    · exact tick_lag s
  · rfl

theorem finishSlew_lag (s : State) : s.finishSlew.front.lag = s.front.lag := by
  unfold State.finishSlew
  split
  · rfl
  · exact tick_lag (s.setClock { s.clock with left := none })
  · rfl

theorem basePeriod_lag (s : State) : s.basePeriod.front.lag = s.front.lag := by
  unfold State.basePeriod
  split
  · rw [expiryCheck_front, takeDue_lag]
  split
  · exact finishSlew_lag s
  split
  · rw [finishSlew_lag, slew_lag]
  · exact tick_lag (s.setClock s.clock.count)

theorem slewComplete_lag (s : State) : s.slewComplete.front.lag = s.front.lag := by
  unfold State.slewComplete
  split
  · exact slew_lag s
  · rfl

/-! ### The gates and the frames (R55 to R60, R65 to R69) -/

theorem setChan_lag (f : FrontEnd) (ch : Channel) (c : Chan) : (f.setChan ch c).lag = f.lag := by
  rcases ch with (_ | _) | _ <;> rfl

theorem risingEdge_lag (ch : Channel) (s : State) : (State.risingEdge ch s).front.lag = s.front.lag := by
  unfold State.risingEdge
  dsimp only
  split
  · rfl
  split
  · exact setChan_lag _ _ _
  · simp [setChan_lag]

theorem completeGate_lag (s : State) (ch : Channel) (g : Gate) : (s.completeGate ch g).front.lag = s.front.lag := by
  simp [State.completeGate, setChan_lag]

theorem deliverTilt_lag (s : State) (a : Axis) (p : Nat) : (s.deliverTilt a p).front.lag = s.front.lag := by
  rw [State.deliverTilt, toCollecting_tiltToWindow_front]
  cases a <;> rfl

theorem tiltGate_lag (a : Axis) (p : Nat) (s : State) : (State.tiltGate a p s).front.lag = s.front.lag := by
  unfold State.tiltGate
  split
  · dsimp only
    split
    · exact completeGate_lag s _ _
    · rw [deliverTilt_lag, completeGate_lag]
  · rfl

theorem abandonGate_lag (ch : Channel) (s : State) : (State.abandonGate ch s).front.lag = s.front.lag := by
  unfold State.abandonGate
  dsimp only
  split
  · rfl
  split <;> exact setChan_lag _ _ _

theorem frameToWindow_front (s : State) (word : BitVec 32) : (s.frameToWindow word).front = s.front := by
  unfold State.frameToWindow
  split
  · split <;> rfl
  · rfl

theorem toCollecting_breakToWindow_front (s : State) (n : Nat) : (s.toCollecting (s.breakToWindow n)).front = s.front := by
  unfold State.toCollecting State.breakToWindow
  split
  · split
    · dsimp only
      split <;> rfl
    · rfl
  · rfl

theorem frame_lag (word : BitVec 32) (s : State) : (State.frame word s).front.lag = s.front.lag := by
  unfold State.frame
  split
  · rfl
  · simp only [frameToWindow_front, State.setFront_front, front_ite, toCollecting_breakToWindow_front, ite_self]

theorem gsiFrmAsserted_lag (h : exec .gsiFrmAsserted s = .next t) : t.front.lag = s.front.lag := by
  refine lag_of_blockEvent ?_ h
  split <;> rfl

/-! ### Starts of the front end (R70 to R72) -/

theorem startedFrontEnd_lag (x y t : Bool) : (startedFrontEnd x y t).lag = none := rfl

theorem reset_lag (h : exec .reset s = .next t) : t.front.lag = s.front.lag ∨ t.front.lag = none := by
  rcases hostCommand_cases .reset .always resetBody s with hx | hx | hx <;> rw [show exec .reset s = _ from hx] at h <;>
    obtain rfl := Host.Outcome.next.inj h
  · exact .inr rfl
  · exact .inl rfl
  · exact .inl rfl

theorem wake_lag (s : State) : s.wake.front.lag = s.front.lag ∨ s.wake.front.lag = none := by
  unfold State.wake
  split
  · exact .inr rfl
  · exact .inl rfl

/-- R62: the commands that start the front end. -/
def StartsFront (c : Instr) : Prop :=
  c = .powerOn ∨ c = .resetLineAsserted ∨ c = .resetLineReleased ∨ c = .reset ∨ c = .wake

theorem lag_of_startsFront {c : Instr} (hc : StartsFront c) (h : exec c s = .next t) :
    t.front.lag = s.front.lag ∨ t.front.lag = none := by
  rcases hc with rfl | rfl | rfl | rfl | rfl
  · obtain rfl := Host.Outcome.next.inj h
    exact .inr rfl
  · obtain rfl := Host.Outcome.next.inj h
    exact .inr rfl
  · obtain rfl := Host.Outcome.next.inj h
    exact .inr rfl
  · exact reset_lag h
  · obtain rfl := Host.Outcome.next.inj h
    exact wake_lag s

theorem writeConstantsBody_lag (r : WriteConstantsReq) (s : State) : (writeConstantsBody r s).front.lag = s.front.lag := by
  unfold writeConstantsBody
  split <;> rfl

theorem standbyBody_lag (s : State) : (standbyBody s).front.lag = s.front.lag := by
  unfold standbyBody
  split <;> rfl

theorem chipSelectOpen_front (s : State) : s.chipSelectOpen.front = s.front := by
  unfold State.chipSelectOpen
  split <;> rfl

theorem chipSelectClose_front (mosi : List Byte) (s : State) : (State.chipSelectClose mosi s).front = s.front := by
  unfold State.chipSelectClose
  split <;> rfl

/-- R62: every other command leaves the lag value as it is. -/
theorem lag_of_exec {c : Instr} (h : exec c s = .next t) (htemp : ∀ p, c ≠ .temperatureGateComplete p)
    (hstart : ¬StartsFront c) : t.front.lag = s.front.lag := by
  cases c with
  | powerOn => exact absurd (.inl rfl) hstart
  | resetLineAsserted => exact absurd (.inr (.inl rfl)) hstart
  | resetLineReleased => exact absurd (.inr (.inr (.inl rfl))) hstart
  | reset => exact absurd (.inr (.inr (.inr (.inl rfl)))) hstart
  | wake => exact absurd (.inr (.inr (.inr (.inr rfl)))) hstart
  | temperatureGateComplete p => exact absurd rfl (htemp p)
  | chipSelectOpen => exact lag_of_blockFront (chipSelectOpen_front s) h
  | chipSelectClose mosi => exact lag_of_blockFront (chipSelectClose_front mosi s) h
  | openStation r => exact lag_of_hostFront (openStationBody_front s r) h
  | editStation r => exact lag_of_hostFront (editStationBody_front s r) h
  | findStation n => exact lag_of_hostFront (findStationBody_front s n) h
  | readStation n => exact lag_of_hostFront (readStationBody_front s n) h
  | readSlot set way => exact lag_of_hostFront (readSlotBody_front s set way) h
  | retireStation n => exact lag_of_hostFront (retireStationBody_front s n) h
  | retireSlot set way => exact lag_of_hostFront (retireSlotBody_front s set way) h
  | beginReading r => exact lag_of_hostFront (beginReadingBody_front s r) h
  | clampAsserted => exact lag_of_blockFront (body := fun s => { s with clamp := true, window := _ }) rfl h
  | clampReleased => exact lag_of_blockFront (body := fun s => { s with clamp := false }) rfl h
  | basePeriodEnd => exact lag_of_blockEvent (basePeriod_lag s) h
  | slewCountComplete => exact lag_of_blockEvent (slewComplete_lag s) h
  | settleCountZero => exact lag_of_blockFront (takeSettle_front s) h
  | elapsedCountComplete => exact lag_of_blockFront (takeElapsed_front s) h
  | endReading => exact lag_of_hostFront (endReadingBody_front s) h
  | abortReading => exact lag_of_hostFront (abortReadingBody_front s) h
  | discardOccupation i => exact lag_of_hostFront (discardOccupationBody_front s i) h
  | readWindow => exact lag_of_hostFront (body := readWindowBody) rfl h
  | readOccupation i => exact lag_of_hostFront (readOccupationBody_front s i) h
  | gateStart ch => exact lag_of_blockEvent (risingEdge_lag ch s) h
  | tiltGateComplete a p => exact lag_of_blockEvent (tiltGate_lag a p s) h
  | abandon ch => exact lag_of_blockEvent (abandonGate_lag ch s) h
  | gsiFrame word => exact lag_of_blockEvent (frame_lag word s) h
  | shortFrame => obtain rfl := Host.Outcome.next.inj h; rfl
  | silenceCountComplete => exact lag_of_blockEvent (takeSilence_lag s) h
  | openLoop l i => exact lag_of_hostFront (openLoopBody_front s l i) h
  | loopExpired l => exact lag_of_blockFront (body := fun s => s.takeExpiry l) (takeExpiry_front s l) h
  | closeLoop l i mode tag => exact lag_of_hostFront (closeLoopBody_front s l i mode tag) h
  | voidLoop l => exact lag_of_hostFront (voidLoopBody_front s l) h
  | releaseLoop l => exact lag_of_hostFront (releaseLoopBody_front s l) h
  | readLoop l => exact lag_of_hostFront (readLoopBody_front s l) h
  | writeConstituent k en sp ph => exact lag_of_hostFront (writeConstituentBody_front s k en sp ph) h
  | writeSite k pairs => exact lag_of_hostFront (writeSiteBody_front s k pairs) h
  | clearSite k => exact lag_of_hostFront (clearSiteBody_front s k) h
  | readSite k => exact lag_of_hostFront (readSiteBody_front s k) h
  | writeConstants r => exact lag_of_hostCommand (writeConstantsBody_lag r s) h
  | readConstants => exact lag_of_hostFront (readConstantsBody_front s) h
  | setClock sec tick => exact lag_of_hostFront (setClockBody_front s sec tick) h
  | trimClock trim => exact lag_of_hostFront (trimClockBody_front s trim) h
  | readClock => exact lag_of_hostFront (body := readClockBody) rfl h
  | submitJob kind target tag => exact lag_of_hostFront (submitJobBody_front s kind target tag) h
  | reduceStep => exact lag_of_blockFront (engineStep_front atReduce reduceBody_keeps s) h
  | closeLoopCheck => exact lag_of_blockFront (engineStep_front atLoopCheck loopCheckBody_keeps s) h
  | inlineReduction => exact lag_of_blockFront (engineStep_front atInline inlineBody_keeps s) h
  | deltaVStep => exact lag_of_blockFront (engineStep_front atDeltaV deltaVBody_keeps s) h
  | memberStep => exact lag_of_blockFront (engineStep_front atMember memberBody_keeps s) h
  | closeCompletion => exact lag_of_blockFront (closeCompletion_front s) h
  | recomputeDeltaVStep => exact lag_of_blockFront (engineStep_front atRecomputeDeltaV recomputeDeltaVBody_keeps s) h
  | recomputeMemberStep => exact lag_of_blockFront (engineStep_front atRecomputeMember recomputeMemberBody_keeps s) h
  | retideWayStep => exact lag_of_blockFront (engineStep_front atWay wayBody_keeps s) h
  | retideOccupationStep => exact lag_of_blockFront (engineStep_front atOccupation occupationBody_keeps s) h
  | recalcStep => exact lag_of_blockFront (engineStep_front atIndex recalcBody_keeps s) h
  | jobCompletion => exact lag_of_blockFront (jobCompletion_front s) h
  | readQueue => exact lag_of_hostFront (body := readQueueBody) rfl h
  | restartEngineRetry action => exact lag_of_hostFront (restartRetryBody_front s action) h
  | restartEngineDiscard => exact lag_of_hostFront (restartDiscardBody_front s) h
  | readFault => exact lag_of_hostFront (body := readFaultBody) rfl h
  | nextChanged key => exact lag_of_hostFront (nextChangedBody_front s key) h
  | exportStation n => exact lag_of_hostFront (exportStationBody_front s n) h
  | readExportPart k => exact lag_of_hostFront (readExportPartBody_front s k) h
  | readEvents => exact lag_of_hostFront (body := readEventsBody) rfl h
  | clearEvents m => exact lag_of_hostFront (maskCommand_front s m _) h
  | setEvents m => exact lag_of_hostFront (maskCommand_front s m _) h
  | enableEvents m => exact lag_of_hostFront (maskCommand_front s m _) h
  | identify => exact lag_of_hostFront (body := identifyBody) rfl h
  | beginRestore => exact lag_of_hostFront (beginRestoreBody_front s) h
  | loadStation r => exact lag_of_hostFront (loadStationBody_front s r) h
  | loadOccupation i r => exact lag_of_hostFront (loadOccupationBody_front s i r) h
  | loadLoop r => exact lag_of_hostFront (loadLoopBody_front s r) h
  | endRestore => exact lag_of_hostFront (body := endRestoreBody) rfl h
  | abortRestore => exact lag_of_hostFront (body := abortRestoreBody) rfl h
  | readScanReport => exact lag_of_hostFront (body := readScanReportBody) rfl h
  | standby => exact lag_of_hostCommand (standbyBody_lag s) h
  | scanDuplicates n => exact lag_of_blockFront (scanPass_front s 1 64 (fun s => earlyStep_front s suspectTwins_kept) n) h
  | scanDamage n => exact lag_of_blockFront (scanPass_front s 2 784 (fun s => earlyStep_front s findDamage_kept) n) h
  | scanReferences n => exact lag_of_blockFront (scanPass_front s 3 1552 referencesUnit_front n) h
  | scanWindows n =>
    exact lag_of_blockFront (scanPass_front s 4 512 (fun s => scanStep_front s checkOcc_kept freeWindow_kept) n) h
  | scanOrder n =>
    exact lag_of_blockFront (scanPass_front s 5 256 (fun s => scanStep_front s readList_kept sortList_kept) n) h
  | scanUnanchoredLoops n =>
    exact lag_of_blockFront (scanPass_front s 6 16 (fun s => scanStep_front s readAnchor_kept voidUnanchored_kept) n) h
  | scanInterruptedCloses n =>
    exact lag_of_blockFront (scanPass_front s 7 16 (fun s => scanStep_front s checkLoop_kept undoInterrupted_kept) n) h
  | scanStrayDrift n =>
    exact lag_of_blockFront (scanPass_front s 8 512 (fun s => scanStep_front s readDrift_kept removeStray_kept) n) h
  | scanDone => exact lag_of_blockFront (scanDone_front s) h
  | gsiFrmAsserted => exact gsiFrmAsserted_lag h

theorem lagValue_claim : Claims.LagValue := by
  refine ⟨nextLag_between, fun c s t h htemp => ?_⟩
  by_cases hc : StartsFront c
  · exact (lag_of_startsFront hc h).imp_right fun hl => ⟨hl, hc⟩
  · exact .inl (lag_of_exec h htemp hc)

/-- Settles O40: the temperature gate with its window, and the lag value's bounds and its writers. -/
theorem temperatureAndLag : Obligations.TemperatureAndLag := ⟨temperatureGate_claim, lagValue_claim⟩

end Sys2Proof.Machine
end

