-- ==== Sys2Proof/Proofs/Sensors/Idle.lean ====
section
/-! SUPPORT. The step on an empty queue: one period of the reference clock in each channel (R55, R58, R59), and the
upsets of the retention memory (log 1, log 2). -/

namespace Sys2Proof.Machine

open Sys2Proof

variable {s : State}

/-! ### One period of one channel (R55, R58, R59) -/

/-- R55, R58: a channel after one reference period. -/
def Chan.count (c : Chan) : Chan :=
  if c.state = .off then c
  else if c.periods + 1 < Config.abandonCount then { c with periods := c.periods + 1 }
  else c.abandon

/-- R58, R59: the period that begins makes the channel FAULT. -/
def Chan.faultsNow (c : Chan) : Bool := decide (Config.abandonCount ≤ c.periods + 1) && c.faults

theorem Chan.faultsNow_iff (c : Chan) : c.faultsNow = true ↔
    (c.state = .seeking ∨ c.state = .counting) ∧ 16777215 ≤ c.periods + 1 ∧ 2 ≤ c.abandons := by
  simp only [Chan.faultsNow, Chan.faults, Config.abandonCount, Bool.and_eq_true, Bool.or_eq_true, decide_eq_true_eq,
    ge_iff_le, Nat.reduceLeDiff]
  tauto

theorem Chan.faultsNow_of_off {c : Chan} (h : c.state = .off) : c.faultsNow = false := by
  simp [Chan.faultsNow, Chan.faults, h]

theorem Chan.count_eq (c : Chan) : c.count =
    if c.state = .off then c
    else if c.periods + 1 < 16777215 then { c with periods := c.periods + 1 }
    else { state := if 2 ≤ c.abandons then .fault else c.state, gate := none, periods := 0,
           abandons := min (c.abandons + 1) 3 } := by
  unfold Chan.count
  split
  next => rfl
  next hoff => simp [Config.abandonCount, Chan.abandon, hoff]

/-- R58, R59: the events after a period of the channels: SENSOR_FAULT where some channel faults. -/
def Events.faultIf (ev : Events) (b : Bool) : Events := if b then ev.raise false .sensorFault else ev

theorem Events.faultIf_faultIf (ev : Events) (a b : Bool) : (ev.faultIf a).faultIf b = ev.faultIf (a || b) := by
  cases a
  · rfl
  · cases b
    · rfl
    · simp [Events.faultIf, Events.raise, BitVec.or_assoc]

theorem setChan_chan (f : FrontEnd) (ch : Channel) : f.setChan ch (f.chan ch) = f := by
  rcases ch with (_ | _) | _ <;> rfl

theorem resetHeld_of_mainRuns (h : s.mainRuns = true) : s.resetHeld = false := by
  simp only [State.mainRuns, Bool.and_eq_true, Bool.not_eq_true'] at h
  exact h.1

theorem period_of_stopped (h : s.mainRuns = false) (ch : Channel) : s.period ch = s := by
  simp [State.period, h]

theorem abandonGate_of_running (h : s.mainRuns = true) {ch : Channel} (hoff : (s.front.chan ch).state ≠ .off) :
    s.abandonGate ch = { s with
      front := s.front.setChan ch (s.front.chan ch).abandon
      events := s.events.faultIf (s.front.chan ch).faults } := by
  have hr : s.resetHeld = false := resetHeld_of_mainRuns h
  cases hf : (s.front.chan ch).faults <;>
    simp [State.abandonGate, h, hoff, hf, Events.faultIf, State.raise, State.setFront, hr]

theorem period_of_running (h : s.mainRuns = true) (ch : Channel) : s.period ch = { s with
    front := s.front.setChan ch (s.front.chan ch).count
    events := s.events.faultIf (s.front.chan ch).faultsNow } := by
  by_cases hoff : (s.front.chan ch).state = .off
  · simp [State.period, Chan.count, hoff, Chan.faultsNow_of_off hoff, setChan_chan, Events.faultIf]
  by_cases hlt : (s.front.chan ch).periods + 1 < Config.abandonCount
  · simp [State.period, Chan.count, Chan.faultsNow, h, hoff, hlt, State.setFront, Events.faultIf]
  · rw [State.period, if_neg (by simp [h, hoff]), if_neg hlt, abandonGate_of_running h hoff]
    simp [Chan.count, Chan.faultsNow, hoff, hlt, Nat.le_of_not_lt hlt]

/-! ### One period of the three channels -/

theorem periods_of_stopped (h : s.mainRuns = false) : s.periods = s := by
  rw [State.periods, period_of_stopped h, period_of_stopped h, period_of_stopped h]

theorem periods_of_running (h : s.mainRuns = true) : s.periods = { s with
    front := { s.front with x := s.front.x.count, y := s.front.y.count, t := s.front.t.count }
    events := s.events.faultIf (s.front.x.faultsNow || s.front.y.faultsNow || s.front.t.faultsNow) } := by
  rw [State.periods, period_of_running h, period_of_running (by exact h) (.tilt .y),
    period_of_running (by exact h) .temperature, ← Events.faultIf_faultIf, ← Events.faultIf_faultIf]
  rfl

theorem some_channel_faults (f : FrontEnd) :
    (f.x.faultsNow || f.y.faultsNow || f.t.faultsNow) = true ↔ ∃ ch, (f.chan ch).faultsNow = true := by
  simp only [Bool.or_eq_true]
  constructor
  · rintro ((h | h) | h)
    · exact ⟨.tilt .x, h⟩
    · exact ⟨.tilt .y, h⟩
    · exact ⟨.temperature, h⟩
  · rintro ⟨(_ | _) | _, h⟩
    · exact .inl (.inl h)
    · exact .inl (.inr h)
    · exact .inr h

/-- A period of the reference clock writes the front end and the events alone. -/
theorem periods_frame (s : State) : s.periods = { s with front := s.periods.front, events := s.periods.events } := by
  cases h : s.mainRuns
  · rw [periods_of_stopped h]
  · rw [periods_of_running h]

/-- Of the front end, it writes the channels alone. -/
theorem periods_front (s : State) : s.periods.front =
    { s.front with x := s.periods.front.x, y := s.periods.front.y, t := s.periods.front.t } := by
  cases h : s.mainRuns
  · rw [periods_of_stopped h]
  · rw [periods_of_running h]

theorem periods_chan (s : State) (ch : Channel) : s.periods.front.chan ch =
    if s.mainRuns = false then s.front.chan ch else (s.front.chan ch).count := by
  cases h : s.mainRuns
  · simp [periods_of_stopped h]
  · rw [periods_of_running h]
    rcases ch with (_ | _) | _ <;> rfl

theorem periods_events_of_fault (h : s.mainRuns = true) (hf : ∃ ch, (s.front.chan ch).faultsNow = true) :
    s.periods.events = { s.events with pending := s.events.pending ||| 0x0010 } := by
  rw [periods_of_running h, (some_channel_faults s.front).2 hf]
  rfl

theorem periods_events_of_no_fault (h : ¬(s.mainRuns = true ∧ ∃ ch, (s.front.chan ch).faultsNow = true)) :
    s.periods.events = s.events := by
  cases hm : s.mainRuns
  · rw [periods_of_stopped hm]
  · have hnone := mt (some_channel_faults s.front).1 fun hf => h ⟨hm, hf⟩
    rw [periods_of_running hm, Bool.eq_false_of_not_eq_true hnone]
    rfl

/-! ### The upsets of the retention memory (log 2) -/

/-- Log 2: `t` is `s` but for the retention memory that an upset may write, and the mark of a late upset. -/
def RetentionWritten (s t : State) : Prop := ∃ stations occs loops constituents sites constants late,
  t = { s with
    stations := stations, occs := occs, loops := loops, constituents := constituents, sites := sites
    constants := constants, late := late }

theorem upsetRecord_retentionWritten (s : State) (r : RecordId) : RetentionWritten s (s.upsetRecord r) := by
  cases r with
  | station w => simp only [State.upsetRecord]; split <;> exact ⟨_, _, _, _, _, _, _, rfl⟩
  | occupation i => simp only [State.upsetRecord]; split <;> exact ⟨_, _, _, _, _, _, _, rfl⟩
  | loop l => simp only [State.upsetRecord]; split <;> exact ⟨_, _, _, _, _, _, _, rfl⟩
  | constants => exact ⟨_, _, _, _, _, _, _, rfl⟩
  | constituent k => exact ⟨_, _, _, _, _, _, _, rfl⟩
  | site k => exact ⟨_, _, _, _, _, _, _, rfl⟩

theorem upsetNow_retentionWritten (s : State) : RetentionWritten s s.upsetNow := by
  unfold State.upsetNow
  dsimp only
  split
  · exact upsetRecord_retentionWritten { s with late := Config.lateUpset s.idles } _
  · exact ⟨_, _, _, _, _, _, _, rfl⟩

/-! ### The idle step -/

/-- Log 1, log 2: the idle step is a period of the reference clock, with the retention memory as the upsets leave it. -/
theorem idle_retentionWritten (s : State) : RetentionWritten
    { s with idles := s.idles + 1, front := s.periods.front, events := s.periods.events } s.idle := by
  obtain ⟨stations, occs, loops, constituents, sites, constants, late, h⟩ := upsetNow_retentionWritten s.periods
  refine ⟨stations, occs, loops, constituents, sites, constants, late, ?_⟩
  rw [State.idle, h]
  conv_lhs => rw [periods_frame s]

theorem step_of_empty (h : s.pending = []) : step s = .next s.idle := by
  simp [step, h]

/-- Settles O2: the idle step is a period of each channel, and the upsets write nothing that the statement fixes. -/
theorem stepIdles : Obligations.StepIdles := by
  intro s hempty
  obtain ⟨_, _, _, _, _, _, _, hidle⟩ := idle_retentionWritten s
  refine ⟨s.idle, step_of_empty hempty, ?_⟩
  rw [hidle]
  refine ⟨hempty, rfl, rfl, rfl, rfl, rfl, rfl, rfl, periods_front s, fun ch => ?_, ?_⟩
  · rw [periods_chan, Chan.count_eq, ite_or]
  · simp only [← Chan.faultsNow_iff]
    exact ⟨fun h => periods_events_of_fault h.1 h.2, periods_events_of_no_fault⟩

end Sys2Proof.Machine
end

