-- ==== Sys2Proof/Proofs/Sensors/Resets.lean ====
section
/-! SUPPORT. The starts and stops of the front end (R71, R72): the resets (R194), STANDBY and the wake (R205), and the
check of the constants that a start makes (R170). -/

namespace Sys2Proof.Machine

open Sys2Proof

variable {s : State}

/-! ### The start of the front end (R71, R170) -/

theorem startedChan_eq (on : Bool) : (if on then seekingChan else offChan) =
    { state := if on then .seeking else .off, gate := none, periods := 0, abandons := 0 } := by
  cases on <;> rfl

theorem startedFrontEnd_eq (c : Constants) : startedFrontEnd c.enableX c.enableY c.enableT = Claims.started c := by
  simp only [startedFrontEnd, startedChan_eq]
  rfl

theorem checked_of_fine {c : Constants} (h : c.damaged = true ∨ c.sound = true) : Claims.checked c = c := by
  have hmark : (c.damaged || !c.sound) = c.damaged := by rcases h with h | h <;> simp [h]
  rw [Claims.checked, hmark]

/-- R170: constants that carry the mark, or agree with their check value, stay as they are. -/
theorem checkConstants_of_fine (h : s.constants.damaged = true ∨ s.constants.sound = true) :
    s.checkConstants false = s := by
  rcases h with h | h <;> simp [State.checkConstants, h]

/-- R170: constants that newly fail their check gain the mark, and MEMORY_ERROR is raised. -/
theorem checkConstants_of_failing (h : ¬(s.constants.damaged = true ∨ s.constants.sound = true)) :
    s.checkConstants false = (s.setConstants (Claims.checked s.constants)).raise .memoryError := by
  obtain ⟨hd, hs⟩ := not_or.1 h
  simp [State.checkConstants, Claims.checked, hd, hs]

/-- R170: the read of the constants writes their mark and the events alone. -/
theorem checkConstants_frame (s : State) : s.checkConstants false =
    { s with constants := Claims.checked s.constants, events := (s.checkConstants false).events } := by
  by_cases h : s.constants.damaged = true ∨ s.constants.sound = true
  · rw [checkConstants_of_fine h, checked_of_fine h]
  · rw [checkConstants_of_failing h]
    rfl

theorem checkConstants_events (hr : s.resetHeld = false) : (s.checkConstants false).events =
    if s.constants.damaged = true ∨ s.constants.sound = true then s.events
    else { s.events with pending := s.events.pending ||| 0x2000 } := by
  split
  next h => rw [checkConstants_of_fine h]
  next h =>
    rw [checkConstants_of_failing h]
    exact events_raise_memoryError hr

/-! ### The resets (R194) -/

theorem resetNow_eq (s : State) : s.resetNow = { s with
    part := .starting, resetHeld := false, window := none, lastWindow := none
    constants := Claims.checked s.constants, front := Claims.started s.constants
    engine := idleEngine, snapshot := none, link := s.link.cleared, events := clearEvents
    scan := some { origin := .reset, pass := 1, ended := none, counts := {}, cursor := 0, marked := [], found := [] } } := by
  rw [State.resetNow, checkConstants_frame, ← startedFrontEnd_eq]
  rfl

theorem reset_claim : Claims.Reset := by
  intro s c hc
  have hx : exec c s = .next s.resetNow := by
    rcases hc with rfl | ⟨rfl, hserves⟩
    · rfl
    · exact hostCommand_of_serves resetBody hserves
  rw [hx, resetNow_eq]
  rfl

theorem resetHeld_claim : Claims.ResetHeld := by
  intro s
  have hline : clearEvents.attention = false := by decide
  refine ⟨s.holdReset, rfl, ?_, rfl, hline⟩
  rw [← startedFrontEnd_eq]
  rfl

/-! ### STANDBY and the wake (R72, R205) -/

theorem quiet_iff : s.quiet = true ↔ s.window = none ∧ s.engine.state = .idle ∧ s.engine.queue = [] := by
  simp [State.quiet, and_assoc]

theorem standby_accepted (hserves : s.serves .standby .ready = true) (h : s.quiet = true) :
    exec .standby s = .next s.standBy :=
  (hostCommand_of_serves standbyBody hserves).trans (congrArg _ (if_pos h))

theorem standby_refused (hserves : s.serves .standby .ready = true) (h : ¬s.quiet = true) :
    exec .standby s = .next (s.refuse .busy) :=
  (hostCommand_of_serves standbyBody hserves).trans (congrArg _ (if_neg h))

theorem wake_of_standby (hp : s.part = .standby) (hr : s.resetHeld = false) : s.wake = { s with
    part := .ready, front := Claims.started s.constants, constants := Claims.checked s.constants
    link := s.link.cleared, events := (s.checkConstants false).events } := by
  have hacts : s.part = .standby ∧ ¬s.resetHeld = true := ⟨hp, by simp [hr]⟩
  rw [State.wake, if_pos hacts, State.startFront, checkConstants_frame, ← startedFrontEnd_eq]
  rfl

theorem wake_of_not_standby (h : s.part ≠ .standby ∨ s.resetHeld = true) : s.wake = s :=
  if_neg fun hacts => h.elim (· hacts.1) hacts.2

theorem standbyAndWake_claim : Claims.StandbyAndWake := by
  intro s
  refine ⟨fun hserves => ⟨fun hw he hq => ?_, fun hbusy => ?_⟩, fun hp hr => ?_, fun h => ?_⟩
  · exact ⟨s.standBy, standby_accepted hserves (quiet_iff.2 ⟨hw, he, hq⟩), rfl, rfl, rfl, rfl, rfl⟩
  · refine standby_refused hserves fun hquiet => ?_
    obtain ⟨hw, he, hq⟩ := quiet_iff.1 hquiet
    simp [hw, he, hq] at hbusy
  · refine ⟨s.wake, rfl, ?_⟩
    rw [wake_of_standby hp hr]
    exact ⟨rfl, rfl, rfl, checkConstants_events hr⟩
  · exact congrArg _ (wake_of_not_standby h)

/-- Settles O57: the resets, the fall of RESET_N, and STANDBY with the wake. -/
theorem serviceResets : Obligations.ServiceResets := ⟨reset_claim, resetHeld_claim, standbyAndWake_claim⟩

end Sys2Proof.Machine
end

