-- ==== Sys2Proof/Proofs/Reduction/Arithmetic.lean ====
section
/-! SUPPORT. The roundings of a reduction (R73, R74, R78) and its stages (R77 to R86). -/

namespace Sys2Proof.Machine

open Sys2Proof

/-! ### The rounded quotient (R73) -/

/-- Twice the quotient's multiple lies within one divisor of twice the dividend, above by a whole one at the most. -/
theorem roundDiv_bounds_of_nonneg {a : Int} {b : Nat} (hb : 0 < b) (ha : 0 ≤ a) :
    2 * a - b < 2 * (roundDiv a b * b) ∧ 2 * (roundDiv a b * b) ≤ 2 * a + b := by
  obtain ⟨n, rfl⟩ := Int.eq_ofNat_of_zero_le ha
  rw [roundDiv, if_pos ha, Int.toNat_natCast]
  have hle := Nat.div_mul_le_self (2 * n + b) (2 * b)
  have hlt := Nat.lt_div_mul_add (a := 2 * n + b) (b := 2 * b) (by omega)
  generalize (2 * n + b) / (2 * b) = q at hle hlt
  zify at hle hlt
  constructor <;> linarith

theorem rounding_claim : Claims.Rounding := by
  intro a b hb
  have hpos : ∀ a : Int, 0 ≤ a → 2 * (roundDiv a b * b - a).natAbs ≤ b ∧
      (2 * (roundDiv a b * b - a).natAbs = b → a.natAbs < (roundDiv a b * b).natAbs) := by
    intro a ha
    obtain ⟨hlo, hhi⟩ := roundDiv_bounds_of_nonneg hb ha
    omega
  refine ⟨?_, ?_, roundDiv_neg a hb⟩
  all_goals
    rcases le_total 0 a with ha | ha
    · have := hpos a ha
      omega
    · have := hpos (-a) (by omega)
      rw [roundDiv_neg a hb, neg_mul] at this
      omega

/-! ### The square root (R78) -/

/-- The bits still to come bring a root that is too low by less than their range to the floor root. -/
theorem isqrtFrom_spec (b : Nat) : ∀ {r n : Nat}, r * r ≤ n → n < (r + 2 ^ b) * (r + 2 ^ b) →
    isqrtFrom b r n * isqrtFrom b r n ≤ n ∧ n < (isqrtFrom b r n + 1) * (isqrtFrom b r n + 1) := by
  induction b with
  | zero => exact fun hle hlt => ⟨hle, hlt⟩
  | succ b ih =>
    intro r n hle hlt
    rw [isqrtFrom]
    split
    · next hbit =>
      refine ih hbit ?_
      rwa [add_assoc, ← two_mul, ← pow_succ']
    · next hbit => exact ih hle (not_le.1 hbit)

theorem squareRoot_claim : Claims.SquareRoot := by
  intro n
  refine isqrtFrom_spec _ (Nat.zero_le n) ?_
  calc n < 2 ^ (n.log2 + 1) := Nat.lt_log2_self
    _ ≤ 2 ^ ((n.log2 / 2 + 1) + (n.log2 / 2 + 1)) := Nat.pow_le_pow_right (by decide) (by omega)
    _ = (0 + 2 ^ (n.log2 / 2 + 1)) * (0 + 2 ^ (n.log2 / 2 + 1)) := by rw [pow_add, zero_add]

/-! ### Values held in a range (R74, log 30) -/

theorem saturate_eq (z : Int) : saturate z = max (-2147483647) (min 2147483647 z) := rfl

theorem saturates_iff (z : Int) : saturates z = true ↔ saturate z ≠ z := by
  simp [saturates]

theorem saturate_ne_iff (z : Int) : saturate z ≠ z ↔ 2147483647 < z.natAbs := by
  rw [saturate_eq]
  omega

theorem within_of_bounds {lo hi z : Int} (free : Int → Int) (hlo : lo ≤ z) (hhi : z ≤ hi) : within lo hi free z = z :=
  if_pos (inRange_iff.2 ⟨hlo, hhi⟩)

/-! ### The noise (R78) -/

theorem noiseOf_of_absent {c : ConstNums} {m : Sums} (h : m.n < 2 ∨ spread m < 0) : noiseOf c m = none := if_pos h

theorem noiseOf_of_present {c : ConstNums} {m : Sums} (hn : 2 ≤ m.n) (hs : 0 ≤ spread m) : noiseOf c m =
    some (withinNoise (isqrt ((spread m).toNat * c.scale.toNat ^ 2 / (m.n ^ 2 * (m.n - 1) * 4294967296)))) := by
  rw [noiseOf, if_neg (by omega), sq, sq]

theorem noise_claim : Claims.Noise := by
  refine fun o c m tide site rev => ⟨_, rfl, ?_⟩
  have hspread : (m.n * m.sumX2 - m.sumX * m.sumX : Int) = spread m := by
    rw [spread]
    push_cast
    rfl
  rw [hspread]
  refine ⟨noiseOf_of_absent, fun hn hs hk => (noiseOf_of_present hn hs).trans (congrArg some (if_pos hk))⟩

/-! ### The tilt correction (R79, R80) -/

theorem tiltSquare_fst (sum2 m : Nat) (last : Option Int) : (tiltSquare sum2 m last).1 =
    if 1 ≤ m then roundDiv sum2 m else match last with | some v => v * v | none => 0 := by
  unfold tiltSquare
  split
  · rfl
  · cases last <;> rfl

theorem tiltSquare_held_iff (sum2 m : Nat) (last : Option Int) :
    (tiltSquare sum2 m last).2 = .held ↔ m = 0 ∧ last.isSome = true := by
  rcases Nat.eq_zero_or_pos m with rfl | hm
  · cases last <;> simp [tiltSquare]
  · have hm' : 1 ≤ m ∧ m ≠ 0 := by omega
    simp [tiltSquare, hm']

theorem tiltSquare_missing_iff (sum2 m : Nat) (last : Option Int) :
    (tiltSquare sum2 m last).2 = .missing ↔ m = 0 ∧ last = none := by
  rcases Nat.eq_zero_or_pos m with rfl | hm
  · cases last <;> simp [tiltSquare]
  · have hm' : 1 ≤ m ∧ m ≠ 0 := by omega
    simp [tiltSquare, hm']

theorem tiltCorrection_claim : Claims.TiltCorrection := by
  refine fun o c m tide site rev => ⟨_, rfl, fun hlo hhi => ?_, ?_, ?_⟩
  · have hmean : meanSquareTilt m = _ :=
      congrArg₂ (· + ·) (tiltSquare_fst m.tiltX2 m.mx m.lastX) (tiltSquare_fst m.tiltY2 m.my m.lastY)
    refine Eq.trans ?_ (within_of_bounds Config.wideTilt hlo hhi)
    show tiltCorrection c.nums m = _
    rw [tiltCorrection, hmean]
    rfl
  · simp only [reducedOcc, reducedFlags, Bool.or_eq_true, decide_eq_true_eq, tiltSquare_held_iff]
  · simp only [reducedOcc, reducedFlags, Bool.or_eq_true, decide_eq_true_eq, tiltSquare_missing_iff]

/-! ### The temperature correction (R81) -/

theorem tempMeans_of_accumulated {m : Sums} (h : 1 ≤ m.k) :
    tempMeans m = (some (roundDiv m.sumTemp m.k, roundDiv m.sumLag m.k), .accumulated) := if_pos h

theorem tempMeans_of_held {m : Sums} {t l : Int} (h : m.k = 0) (ht : m.lastT = some t) (hl : m.lastL = some l) :
    tempMeans m = (some (t, l), .held) := by
  simp [tempMeans, h, ht, hl]

theorem tempMeans_of_missing {m : Sums} (h : m.k = 0) (hm : m.lastT = none ∨ m.lastL = none) :
    tempMeans m = (none, .missing) := by
  rcases hm with hm | hm
  · simp [tempMeans, h, hm]
  · cases ht : m.lastT <;> simp [tempMeans, h, hm, ht]

theorem tempCorrection_of_means {c : ConstNums} {m : Sums} {t l : Int} (h : (tempMeans m).1 = some (t, l)) :
    tempCorrection c m = within (-Config.tempBound) Config.tempBound Config.wideTemp
      (-(roundDiv (c.c1 * t + c.c2 * l) 1000)) := by
  simp [tempCorrection, h]

theorem temperatureCorrection_claim : Claims.TemperatureCorrection := by
  refine fun o c m tide site rev => ⟨_, rfl, fun t l h => ?_, fun hk hmissing => ?_⟩
  · have hmeans : tempMeans m = (some (t, l), if m.k = 0 then .held else .accumulated) := by
      rcases h with ⟨hk, rfl, rfl⟩ | ⟨hk, ht, hl⟩
      · rw [tempMeans_of_accumulated hk, if_neg (by omega)]
      · rw [tempMeans_of_held hk ht hl, if_pos hk]
    refine ⟨fun hlo hhi => ?_, ?_, ?_⟩
    · exact (tempCorrection_of_means (by rw [hmeans])).trans (within_of_bounds _ hlo hhi)
    · by_cases hk : m.k = 0 <;> simp [reducedOcc, reducedFlags, hmeans, hk]
    · by_cases hk : m.k = 0 <;> simp [reducedOcc, reducedFlags, hmeans, hk]
  · have hmeans := tempMeans_of_missing hk hmissing
    simp [reducedOcc, resultsOf, reducedFlags, tempCorrection, hmeans]

/-! ### The record and SATURATED (R74, R77, R82 to R84, R86) -/

theorem reducedOcc_results (o : Occ) (c : Constants) (m : Sums) (tide : Option Int) (site rev : Nat) :
    (reducedOcc o c m tide site rev).results = some (resultsOf c m tide site rev) := rfl

/-- A drift part's final value is held where the exact sum of the value and the correction leaves the stored range. -/
theorem drift_saturates_iff (drift : Option DriftPart) (v : Int) :
    (drift.any fun d => saturates (v + d.correction)) = true ↔
      ∃ d, drift = some d ∧ 2147483647 < (v + d.correction).natAbs := by
  cases drift with
  | none => simp
  | some d => simp [saturates_iff, saturate_ne_iff]

theorem reducedOcc_saturated_iff (o : Occ) (c : Constants) (m : Sums) (tide : Option Int) (site rev : Nat) :
    (reducedOcc o c m tide site rev).flags.saturated = true ↔
      Claims.SaturatedBy o c m (resultsOf c m tide site rev) := by
  have hflag : (reducedOcc o c m tide site rev).flags.saturated = (saturates (rawExact c.nums m) ||
      saturates (correctedExact c.nums m tide) ||
      o.drift.any fun d => saturates ((resultsOf c m tide site rev).v + d.correction)) := by
    cases hd : o.drift <;> simp [reducedOcc, reducedFlags, resultsOf, hd]
  rw [hflag, Bool.or_eq_true, Bool.or_eq_true, drift_saturates_iff, saturates_iff, saturates_iff, or_assoc]
  rfl

theorem tideAndRecord_claim : Claims.TideAndRecord := by
  refine fun o c m tide site rev => ⟨_, reducedOcc_results o c m tide site rev, ?_, rfl, rfl, rfl, rfl, rfl, ?_,
    reducedOcc_saturated_iff o c m tide site rev⟩
  · cases tide <;> rfl
  · cases tide <;> rfl

/-- Settles O47: the roundings by their bounds, and each stage by how its inputs entered it. -/
theorem roundingAndRoots : Obligations.RoundingAndRoots :=
  ⟨rounding_claim, squareRoot_claim, noise_claim, tiltCorrection_claim, temperatureCorrection_claim, tideAndRecord_claim⟩

/-- Settles O48: the raw value and V as they are saturated, and SATURATED by the three values that can be held. -/
theorem correctedValue : Obligations.CorrectedValue := fun o c m tide site rev =>
  ⟨_, reducedOcc_results o c m tide site rev, rfl, rfl, reducedOcc_saturated_iff o c m tide site rev⟩

end Sys2Proof.Machine
end

