-- ==== Sys2Proof/Proofs/Reduction/Walks.lean ====
section
/-! SUPPORT. The walks of RETIDE and of RECALC where no read fails, and what they pass over (R143 to R147). -/

namespace Sys2Proof.Machine

open Sys2Proof

variable {s t : State} {f g : Flight}

/-! ### Where the job stands (R138) -/

theorem place_of_at {p : Place} (h : Claims.At s f p) : f.place = p := h.2.2.1
theorem recomp_of_at {p : Place} (h : Claims.At s f p) : f.recomp = [] := h.2.2.2.1
theorem ending_of_at {p : Place} (h : Claims.At s f p) : f.ending = none := h.2.2.2.2

/-! ### The next place of a walk (R147) -/

theorem goTo_way (hr : f.recomp = []) (he : f.ending = none) (id : Nat) :
    f.goTo (.way (id + 1)) = Claims.toWay f id := by
  unfold Flight.goTo Flight.settle Claims.toWay Claims.ended Flight.walkResult
  by_cases h : id + 1 < 256 <;> simp [hr, he, h, Config.ways]

theorem goTo_index (he : f.ending = none) (i : Nat) : f.goTo (.index (i + 1)) = { f with
    place := .index (i + 1)
    ending := if f.recomp = [] then Claims.ended { f with place := .index (i + 1) } else none } := by
  unfold Flight.goTo Flight.settle Claims.ended Flight.walkResult
  by_cases hr : f.recomp = []
  · by_cases h : i + 1 < 512 <;> simp [hr, he, h, Config.poolSize]
  · simp [hr, he]

/-! ### The way step (R143) -/

theorem exec_retideWayStep_of_ok {id : Nat} (h : Claims.At s f (.way id)) (hb : wayBody s f = .ok (t, g)) :
    exec .retideWayStep s = .next (t.setFlight g) := by
  obtain ⟨hworking, hflight, hplace, hrecomp, hending⟩ := h
  have hdue : atWay f = true := by simp [atWay, hplace, hrecomp]
  exact congrArg _ (engineStep_of_ok hworking hflight hending hdue hb)

theorem wayBody_of_passed {k id : Nat} (hk : f.job.kind = .retide k) (hp : f.place = .way id)
    (h : s.station? id = none ∨ ∃ e, s.station? id = some e ∧ (e.state = .suspect ∨ e.damaged = true)) :
    wayBody s f = .ok (s, f.goTo (.way (id + 1))) := by
  rcases h with he | ⟨e, he, h⟩
  · simp [wayBody, hk, hp, he]
  · simp [wayBody, hk, hp, he, h]

theorem wayBody_of_active {k id : Nat} {e : Station} (hi : s.intact = true) (hk : f.job.kind = .retide k)
    (hp : f.place = .way id) (he : s.station? id = some e) (ha : e.state = .active) :
    wayBody s f = .ok (s, f.goTo
      (if s.usable e.number = some id ∧ e.site = k then .occupation id e.number [] else .way (id + 1))) := by
  obtain ⟨hs, hd⟩ := intact_station hi he
  simp [wayBody, hk, hp, he, ha, hs, hd, engineLookup_of_setReads (setReads_of_intact hi _), bind, Except.bind, halting_ok]

theorem matching_of_usable {n w : Nat} (h : s.usable n = some w) : s.matching n = [w] := by
  unfold State.usable at h
  split at h
  · next v hm =>
    split at h
    · split at h
      · rw [hm, Option.some.inj h]
      · cases h
    · cases h
  · cases h

/-- R8: an ACTIVE way of intact memory is usable exactly where it is the only one of its number. -/
theorem usable_eq_some_iff (hi : s.intact = true) {id : Nat} {e : Station} (he : s.station? id = some e)
    (ha : e.state = .active) : s.usable e.number = some id ↔ s.matching e.number = [id] := by
  refine ⟨matching_of_usable, fun hm => ?_⟩
  have hd := (intact_station hi he).2
  rw [usable_of_lone hm he, if_pos ⟨ha, by simp [hd]⟩]

theorem retideWay_claim : Claims.RetideWay := by
  intro s f k id hat hk _
  have hplace := place_of_at hat
  have hrecomp := recomp_of_at hat
  have hending := ending_of_at hat
  have hnext := goTo_way hrecomp hending id
  refine ⟨fun h => ?_, fun e hi he ha => ⟨fun hm hsite => ?_, fun h => ?_⟩⟩
  · rw [← hnext]
    exact exec_retideWayStep_of_ok hat (wayBody_of_passed hk hplace h)
  · have hb := wayBody_of_active hi hk hplace he ha
    rw [if_pos ⟨(usable_eq_some_iff hi he ha).2 hm, hsite⟩, goTo_occupation hrecomp] at hb
    exact exec_retideWayStep_of_ok hat hb
  · have hnot : ¬(s.usable e.number = some id ∧ e.site = k) := by
      rw [usable_eq_some_iff hi he ha, not_and_or]
      exact h
    have hb := wayBody_of_active hi hk hplace he ha
    rw [if_neg hnot, hnext] at hb
    exact exec_retideWayStep_of_ok hat hb

/-! ### The visit of a record (R144, R145) -/

theorem visit_of_free {i : Nat} (c : Instr) (ho : s.occ? i = none) : visit c s f i = .ok (s, f) := by
  unfold visit
  split
  · simp [recalcVisit, ho]
  · simp [retideVisit, ho]

theorem visit_of_damaged {i : Nat} {o : Occ} (c : Instr) (ho : s.occ? i = some o) (hd : o.damaged = true) :
    visit c s f i = .ok (s, f) := by
  unfold visit
  split
  · simp [recalcVisit, ho, hd]
  · simp [retideVisit, ho, hd]

theorem visit_of_no_results {i : Nat} {o : Occ} (c : Instr) (ho : s.occ? i = some o) (hs : o.sound = true)
    (hr : visitResults o = none) : visit c s f i = .ok (s, f) := by
  unfold visit
  split
  · simp [recalcVisit, ho, hr]
  · simp [retideVisit, ho, readOcc, hs, hr, bind, Except.bind]

/-- A visit goes by the mark of its walk: the tide-stale one in a RETIDE, the constants-stale one in a RECALC. -/
def visitStale (c : Instr) (marks : Bool × Bool) : Bool := if c = .recalcStep then marks.2 else marks.1

theorem visit_of_current {i : Nat} {o : Occ} {r : Results} {marks : Bool × Bool} {c : Instr} (ho : s.occ? i = some o)
    (hs : o.sound = true) (hr : visitResults o = some r) (hm : engineMarks s o r = .ok (s, some marks))
    (hc : visitStale c marks = false) : visit c s f i = .ok (s, f) := by
  obtain ⟨a, b⟩ := marks
  unfold visit
  unfold visitStale at hc
  split
  · next h =>
    obtain rfl : b = false := by simpa [h] using hc
    simp [recalcVisit, ho, hr, readOcc, hs, hm, bind, Except.bind]
  · next h =>
    obtain rfl : a = false := by simpa [h] using hc
    simp [retideVisit, ho, hr, readOcc, hs, hm, bind, Except.bind]

theorem visit_of_made {i : Nat} {o : Occ} {r : Results} {marks : Bool × Bool} {c : Instr} (ho : s.occ? i = some o)
    (hd : o.damaged = false) (hs : o.sound = true) (hr : visitResults o = some r)
    (hm : engineMarks s o r = .ok (s, some marks)) (hc : visitStale c marks = true)
    (hmade : reduceAndFind s f i o = .ok (t, g, true)) : visit c s f i = .ok (t, g) := by
  obtain ⟨a, b⟩ := marks
  unfold visit
  unfold visitStale at hc
  split
  · next h =>
    obtain rfl : b = true := by simpa [h] using hc
    simp [recalcVisit, ho, hd, hr, readOcc, hs, hm, hmade, bind, Except.bind]
  · next h =>
    obtain rfl : a = true := by simpa [h] using hc
    simp [retideVisit, ho, hd, hr, readOcc, hs, hm, hmade, bind, Except.bind]

theorem engineMarks_of_unusable {o : Occ} {r : Results} (h : Claims.SetReads s o.station)
    (hu : s.usable o.station = none) : engineMarks s o r = .ok (s, none) := by
  simp only [engineMarks, engineLookup_of_setReads h, hu, Option.bind_none, bind, Except.bind]

theorem engineMarks_of_intact (hi : s.intact = true) {o : Occ} {w : Nat} {e : Station} (r : Results)
    (hu : s.usable o.station = some w) (he : s.station? w = some e) : engineMarks s o r =
      .ok (s, some (tideStaleAt r e.site (s.site e.site), decide (r.revision ≠ s.constants.revision))) := by
  obtain ⟨hss, hsd⟩ := intact_site hi e.site
  obtain ⟨hcs, hcd⟩ := intact_constants hi
  exact engineMarks_of_sound (setReads_of_intact hi _) hu he hss hsd hcs hcd

/-- A visit of a record whose station is not usable writes nothing, whatever its marks (log 54). -/
theorem visit_of_unusable (hi : s.intact = true) {i : Nat} {o : Occ} (c : Instr) (ho : s.occ? i = some o)
    (hu : s.usable o.station = none) : visit c s f i = .ok (s, f) := by
  obtain ⟨hs, hd⟩ := intact_occ hi ho
  obtain ⟨hcs, hcd⟩ := intact_constants hi
  have hset := setReads_of_intact hi o.station
  cases hr : visitResults o with
  | none => exact visit_of_no_results c ho hs hr
  | some r =>
    unfold visit
    split
    · simp [recalcVisit, ho, hd, hr, readOcc, hs, engineMarks_of_unusable hset hu, bind, Except.bind]
    · simp [retideVisit, ho, hd, hr, readOcc, hs, engineMarks_of_unusable hset hu, reduceAndFind,
        reduceRecord_of_unusable hs hcs hcd hset hu, bind, Except.bind]

theorem visit_of_not_ready (hi : s.intact = true) {i : Nat} {o : Occ} (c : Instr) (ho : s.occ? i = some o)
    (h : o.state ≠ .reduced ∧ o.state ≠ .final) : visit c s f i = .ok (s, f) :=
  visit_of_no_results c ho (intact_occ hi ho).1 (if_neg (not_or.2 h))

/-- A visit of a record that is not stale by the mark of its walk. -/
theorem visit_of_not_stale (hi : s.intact = true) {i w : Nat} {o : Occ} {r : Results} {e : Station} {c : Instr}
    (ho : s.occ? i = some o) (hr : o.results = some r) (hu : s.usable o.station = some w) (he : s.station? w = some e)
    (hc : visitStale c (tideStaleAt r e.site (s.site e.site), decide (r.revision ≠ s.constants.revision)) = false) :
    visit c s f i = .ok (s, f) := by
  by_cases hst : o.state = .reduced ∨ o.state = .final
  · exact visit_of_current ho (intact_occ hi ho).1 (visitResults_of_ready hst hr) (engineMarks_of_intact hi r hu he) hc
  · exact visit_of_not_ready hi c ho (not_or.1 hst)

/-- R85, R87: what a visit that reduces its record writes, and the loops that it has to recompute. -/
theorem visit_of_stale_intact (hi : s.intact = true) (hp : s.part ≠ .starting) (hwf : s.loopsWf = true) {i w : Nat}
    {o : Occ} {r : Results} {m : Reading} {e : Station} {c : Instr} (ho : s.occ? i = some o)
    (hst : o.state = .reduced ∨ o.state = .final) (hr : o.results = some r) (hm : o.reading = some m)
    (hu : s.usable o.station = some w) (he : s.station? w = some e)
    (hc : visitStale c (tideStaleAt r e.site (s.site e.site), decide (r.revision ≠ s.constants.revision)) = true) :
    ∃ x a ls, visit c s f i =
        .ok ({ s with stations := x, occs := a }, { f with written := Claims.noted f i, recomp := ls }) ∧
      slotGet a i = some (Claims.reduced s o m e) ∧ (∀ j, j ≠ i → slotGet a j = s.occ? j) ∧
      Claims.Marks s { s with stations := x, occs := a } (some w) ∧ Claims.ToRecompute s i ls := by
  obtain ⟨hs, hd⟩ := intact_occ hi ho
  obtain ⟨x, a, hframe, hocc, hmarks⟩ := reduce_writes (i := i) (q := Claims.reduced s o m e) hp
    (fun v y hy => (intact_station hi hy).1) hs
  rw [hframe] at hocc hmarks
  have hmade := reduceAndFind_of_inputsRead (f := f) (i := i) hs (inputsRead_of_intact hi o.station e)
    (loopsRead_of_intact hi) hu he hm hframe rfl
  exact ⟨x, a, _, visit_of_made ho hd hs (visitResults_of_ready hst hr) (engineMarks_of_intact hi r hu he) hc hmade,
    (hocc i).trans (if_pos rfl), fun j hj => (hocc j).trans (if_neg hj), hmarks, toRecompute_filter hwf i⟩

theorem tideStaleAt_eq_false (hi : s.intact = true) {r : Results} {e : Station} (h : Claims.TideCurrent s r e) :
    tideStaleAt r e.site (s.site e.site) = false := by
  obtain ⟨hsite, hrev⟩ := h
  simp [tideStaleAt, hsite, hrev, (intact_site hi e.site).2]

/-! ### The occupation step (R144) -/

theorem exec_retideOccupationStep_of_ok {id n : Nat} {vis : List Nat} (h : Claims.At s f (.occupation id n vis))
    (hb : occupationBody s f = .ok (t, g)) : exec .retideOccupationStep s = .next (t.setFlight g) := by
  obtain ⟨hworking, hflight, hplace, hrecomp, hending⟩ := h
  have hdue : atOccupation f = true := by simp [atOccupation, hplace, hrecomp]
  exact congrArg _ (engineStep_of_ok hworking hflight hending hdue hb)

/-- The occupation step leaves a way that no longer qualifies, one that carries the mark, and one wholly visited. -/
theorem occupationBody_of_left {k id n : Nat} {vis : List Nat} (hk : f.job.kind = .retide k)
    (hp : f.place = .occupation id n vis)
    (h : s.station? id = none ∨ ∃ e, s.station? id = some e ∧ e.sound = true ∧
      (e.damaged = true ∨ e.state ≠ .active ∨ e.number ≠ n ∨ e.site ≠ k ∨ ∀ i ∈ e.list, i ∈ vis)) :
    occupationBody s f = .ok (s, f.goTo (.way (id + 1))) := by
  rcases h with he | ⟨e, he, hs, h⟩
  · simp [occupationBody, hk, hp, he]
  cases hd : e.damaged with
  | true => simp [occupationBody, hk, hp, he, hd, hs]
  | false =>
    by_cases hq : e.state = .active ∧ e.number = n ∧ e.site = k
    · have hall : ∀ i ∈ e.list, i ∈ vis := by
        obtain ⟨ha, hn, hsite⟩ := hq
        simpa [hd, ha, hn, hsite] using h
      have hnone : e.list.find? (fun i => !decide (i ∈ vis)) = none := List.find?_eq_none.2 (by simpa using hall)
      simp [occupationBody, hk, hp, he, hd, hs, hq, hnone]
    · simp [occupationBody, hk, hp, he, hd, hs, hq]

/-- The step that makes a visit goes on from it where the visit does. -/
theorem exec_of_visits_ok {i : Nat} {c : Instr} {h : Flight} (hv : Claims.Visits s f g i c)
    (hx : visit c s g i = .ok (t, h)) : exec c s =
      .next (t.setFlight (if c = .recalcStep then h.goTo (.index (i + 1)) else h)) := by
  rcases hv with ⟨rfl, hat, -, -, rfl⟩ |
    ⟨rfl, k, id, n, vis, e, pre, post, hat, hk, he, hs, hd, ha, hn, hsite, hlist, hpre, hi, rfl⟩
  · obtain ⟨hworking, hflight, hplace, hrecomp, hending⟩ := hat
    have hdue : atIndex g = true := by simp [atIndex, hplace, hrecomp]
    have hvisit : recalcVisit s g i = .ok (t, h) := hx
    refine congrArg _ (engineStep_of_ok hworking hflight hending hdue ?_)
    simp [recalcBody, hplace, hvisit, halting_ok, bind, Except.bind]
  · have hplace := place_of_at hat
    have hrecomp := recomp_of_at hat
    refine exec_retideOccupationStep_of_ok hat ?_
    have hvisit : retideVisit s { f with place := .occupation id n (vis ++ [i]) } i = .ok (t, h) := hx
    have hnext : e.list.find? (fun j => !vis.contains j) = some i := find?_split hlist hpre hi
    simp only [occupationBody, hk, hplace, he, hd, hs, ha, hn, hsite, hnext, goTo_occupation hrecomp, hvisit]
    rfl

theorem retideOccupation_claim : Claims.RetideOccupation := by
  intro s f k id n vis hi hp hwf hat hk _
  have hplace := place_of_at hat
  have hrecomp := recomp_of_at hat
  have hending := ending_of_at hat
  refine ⟨fun h => ?_, fun e pre i post he ha hn hsite hlist hpre hvis => ?_⟩
  · rw [← goTo_way hrecomp hending id]
    refine exec_retideOccupationStep_of_ok hat (occupationBody_of_left hk hplace (h.imp_right ?_))
    exact fun ⟨e, he, hleft⟩ => ⟨e, he, (intact_station hi he).1, .inr hleft⟩
  obtain ⟨hs, hd⟩ := intact_station hi he
  have hv : Claims.Visits s f { f with place := .occupation id n (vis ++ [i]) } i .retideOccupationStep :=
    .inr ⟨rfl, k, id, n, vis, e, pre, post, hat, hk, he, hs, hd, ha, hn, hsite, hlist, hpre, hvis, rfl⟩
  refine ⟨fun h => exec_of_visits_ok hv ?_, fun o r m w x ho hst hr hm hu hx hstale => ?_⟩
  · rcases h with ho | ⟨o, ho, hst⟩ | ⟨o, ho, hu⟩ | ⟨o, r, w, x, ho, hr, hu, hx, hcurrent⟩
    · exact visit_of_free _ ho
    · exact visit_of_not_ready hi _ ho hst
    · exact visit_of_unusable hi _ ho hu
    · exact visit_of_not_stale hi ho hr hu hx (tideStaleAt_eq_false hi hcurrent)
  · obtain ⟨y, a, ls, hvisit, hocc, hother, hmarks, hls⟩ :=
      visit_of_stale_intact (c := .retideOccupationStep) hi hp hwf ho hst hr hm hu hx
        (tideStaleAt_of_not_current hstale)
    exact ⟨_, ls, exec_of_visits_ok hv hvisit, rfl, hocc, hother, hmarks, hls, rfl⟩

/-! ### The step of a RECALC (R145) -/

theorem recalcStep_claim : Claims.RecalcStep := by
  intro s f i hi hp hwf hat hk hlt
  have hrecomp := recomp_of_at hat
  have hending := ending_of_at hat
  have hv : Claims.Visits s f f i .recalcStep := .inl ⟨rfl, hat, hk, hlt, rfl⟩
  refine ⟨fun h => ?_, fun o r m w e ho hst hr hm hrev hu he => ?_⟩
  · have hvisit : visit .recalcStep s f i = .ok (s, f) := by
      rcases h with ho | ⟨o, ho, hst⟩ | ⟨o, ho, hu⟩ | ⟨o, r, ho, hr, hrev⟩
      · exact visit_of_free _ ho
      · exact visit_of_not_ready hi _ ho hst
      · exact visit_of_unusable hi _ ho hu
      · cases hu : s.usable o.station with
        | none => exact visit_of_unusable hi _ ho hu
        | some w =>
          obtain ⟨e, he⟩ := station_of_usable hu
          exact visit_of_not_stale hi ho hr hu he (decide_eq_false (not_not.2 hrev))
    rw [exec_of_visits_ok hv hvisit, if_pos rfl, goTo_index hending, if_pos hrecomp]
    rfl
  · obtain ⟨x, a, ls, hvisit, hocc, hother, hmarks, hls⟩ :=
      visit_of_stale_intact (c := .recalcStep) hi hp hwf ho hst hr hm hu he (decide_eq_true hrev)
    have hx := exec_of_visits_ok hv hvisit
    rw [if_pos rfl, goTo_index (by exact hending)] at hx
    exact ⟨_, ls, hx, rfl, hocc, hother, hmarks, hls, rfl⟩

/-! ### What carries the damaged mark (R144, R145, log 54) -/

theorem walksPassMarked_claim : Claims.WalksPassMarked := by
  refine ⟨fun s f k id n vis e hat hk _ he hs => ⟨fun hd => ?_, fun pre i post o hd ha hn hsite hlist hpre hi ho hod => ?_⟩,
    fun s f i o hat hk hlt ho hd => ?_⟩
  · have hplace := place_of_at hat
    have hrecomp := recomp_of_at hat
    have hending := ending_of_at hat
    rw [← goTo_way hrecomp hending id]
    exact exec_retideOccupationStep_of_ok hat (occupationBody_of_left hk hplace (.inr ⟨e, he, hs, .inl hd⟩))
  · exact exec_of_visits_ok (.inr ⟨rfl, k, id, n, vis, e, pre, post, hat, hk, he, hs, hd, ha, hn, hsite, hlist, hpre, hi,
      rfl⟩) (visit_of_damaged _ ho hod)
  · have hrecomp := recomp_of_at hat
    have hending := ending_of_at hat
    have hx := exec_of_visits_ok (.inl ⟨rfl, hat, hk, hlt, rfl⟩) (visit_of_damaged (f := f) .recalcStep ho hd)
    rw [hx, if_pos rfl, goTo_index hending, if_pos hrecomp]
    rfl

/-- Settles O53: each step of a walk by the visit it makes, or by what it passes over. -/
theorem walks : Obligations.Walks := ⟨retideWay_claim, retideOccupation_claim, recalcStep_claim, walksPassMarked_claim⟩

end Sys2Proof.Machine
end

