-- ==== Sys2Proof/Proofs/EarthTide/TideArithmetic.lean ====
section
/-! SUPPORT. The tide generator: the phase (R100), the table and its interpolation (R101), and the tide value (R102). -/

namespace Sys2Proof.Machine

open Sys2Proof

/-! ### The phase (R100) -/

theorem tidePhase_claim : Claims.TidePhase := fun _ _ _ _ => rfl

/-! ### The table of cosines (R101) -/

theorem cosEntry_of_first {i : Nat} (h : i ≤ 1024) : cosEntry i = cosQuarter i := if_pos h

theorem cosEntry_of_second {i : Nat} (hlo : 1024 < i) (hhi : i ≤ 2048) : cosEntry i = -(cosQuarter (2048 - i) : Int) := by
  rw [cosEntry, if_neg (by omega), if_pos hhi]

theorem cosEntry_of_third {i : Nat} (hlo : 2048 < i) (hhi : i ≤ 3072) : cosEntry i = -(cosQuarter (i - 2048) : Int) := by
  rw [cosEntry, if_neg (by omega), if_neg (by omega), if_pos hhi]

theorem cosEntry_of_fourth {i : Nat} (h : 3072 < i) : cosEntry i = cosQuarter (4096 - i) := by
  rw [cosEntry, if_neg (by omega), if_neg (by omega), if_neg (by omega)]

theorem cosEntry_turning_points :
    cosEntry 0 = 32767 ∧ cosEntry 1024 = 0 ∧ cosEntry 2048 = -32767 ∧ cosEntry 3072 = 0 := by decide

/-- The symmetry about half a turn, for the first half of the table: a quarter is read forwards on one side and
backwards on the other, and the zero at the quarter's end is its own negation. -/
theorem cosEntry_symm_of_le {i : Nat} (hpos : 1 ≤ i) (hhalf : i ≤ 2048) : cosEntry i = cosEntry (4096 - i) := by
  obtain ⟨-, hquarter, hmid, hthree⟩ := cosEntry_turning_points
  rcases lt_trichotomy i 1024 with h | rfl | h
  · rw [cosEntry_of_first h.le, cosEntry_of_fourth (by omega), Nat.sub_sub_self (by omega)]
  · exact hquarter.trans hthree.symm
  · rcases hhalf.lt_or_eq with hlt | rfl
    · rw [cosEntry_of_second h hhalf, cosEntry_of_third (by omega) (by omega), Nat.sub_right_comm]
    · rfl

theorem cosEntry_symm {i : Nat} (hpos : 1 ≤ i) (htop : i ≤ 4095) : cosEntry i = cosEntry (4096 - i) := by
  rcases le_total i 2048 with h | h
  · exact cosEntry_symm_of_le hpos h
  · rw [cosEntry_symm_of_le (i := 4096 - i) (by omega) (by omega), Nat.sub_sub_self (by omega)]

theorem getD_le_of_forall_mem {l : List Nat} {b : Nat} (h : ∀ x ∈ l, x ≤ b) (i : Nat) : l.getD i 0 ≤ b := by
  rw [List.getD_eq_getElem?_getD]
  cases hx : l[i]? with
  | none => exact Nat.zero_le b
  | some x => exact h x (List.mem_of_getElem? hx)

theorem cosRows_le : ∀ row ∈ cosRows, ∀ x ∈ row, x ≤ 32767 := by decide

theorem cosQuarter_le (i : Nat) : cosQuarter i ≤ 32767 := by
  refine getD_le_of_forall_mem (fun x hx => ?_) _
  rw [List.getD_eq_getElem?_getD] at hx
  cases hrow : cosRows[i / 25]? with
  | none => simp [hrow] at hx
  | some row => exact cosRows_le row (List.mem_of_getElem? hrow) x (by simpa [hrow] using hx)

theorem cosEntry_natAbs_le (i : Nat) : (cosEntry i).natAbs ≤ 32767 := by
  have hq := cosQuarter_le
  unfold cosEntry
  split_ifs
  · simpa using hq i
  · simpa using hq (2048 - i)
  · simpa using hq (i - 2048)
  · simpa using hq (4096 - i)

/-! ### The interpolated cosine (R73, R101) -/

/-- A rounded share of the step from `x` to `y`, added to `x`, does not leave the two. -/
theorem add_roundDiv_between (x y : Int) {f b : Nat} (hb : 0 < b) (hf : f ≤ b) :
    min x y ≤ x + roundDiv ((y - x) * f) b ∧ x + roundDiv ((y - x) * f) b ≤ max x y := by
  have hshare : ∀ d : Int, 0 ≤ d → 0 ≤ roundDiv (d * f) b ∧ roundDiv (d * f) b ≤ d := fun d hd =>
    roundDiv_between_of_nonneg hb (mul_nonneg hd (Int.natCast_nonneg f))
      (mul_le_mul_of_nonneg_left (by exact_mod_cast hf) hd)
  rcases le_total x y with h | h
  · have := hshare (y - x) (by omega)
    omega
  · have := hshare (x - y) (by omega)
    rw [← neg_sub x y, neg_mul, roundDiv_neg _ hb]
    omega

theorem cosine_between (p : Nat) :
    min (cosEntry (p / 16)) (cosEntry ((p / 16 + 1) % 4096)) ≤ cosine p ∧
      cosine p ≤ max (cosEntry (p / 16)) (cosEntry ((p / 16 + 1) % 4096)) :=
  add_roundDiv_between _ _ (by decide) (Nat.mod_lt p (by decide)).le

theorem cosine_natAbs_le (p : Nat) : (cosine p).natAbs ≤ 32767 := by
  have hbetween := cosine_between p
  have hentry := cosEntry_natAbs_le (p / 16)
  have hnext := cosEntry_natAbs_le ((p / 16 + 1) % 4096)
  omega

theorem cosine_of_parts (i : Nat) {f : Nat} (hf : f < 16) :
    cosine (16 * i + f) = cosEntry i + roundDiv ((cosEntry ((i + 1) % 4096) - cosEntry i) * f) 16 := by
  have hindex : (16 * i + f) / 16 = i := by omega
  have hrest : (16 * i + f) % 16 = f := by omega
  rw [cosine, hindex, hrest]

theorem interpolation_claim : Claims.Interpolation := by
  intro i f _ hf step q
  have hq : q = roundDiv step 16 := by
    rw [show q = cosine (16 * i + f) - cosEntry i from rfl, cosine_of_parts i hf, add_sub_cancel_left]
  obtain ⟨hnear, haway, -⟩ := rounding_claim step 16 (by decide)
  rw [hq, mul_comm (16 : Int)]
  exact ⟨hnear, haway⟩

/-! ### The sum and the tide value (R102) -/

theorem amplitudeSum_eq_sum (site : Site) : amplitudeSum site = (site.pairs.map Prod.fst).sum := by
  rw [amplitudeSum, List.sum_eq_foldl, List.foldl_map]

theorem tideTerm_natAbs_le (epoch : Nat) (c : Constituent) (pair : Nat × Nat) :
    (tideTerm epoch c pair).natAbs ≤ pair.1 * 32767 := by
  unfold tideTerm
  split
  · rw [Int.natAbs_mul, Int.natAbs_natCast]
    exact Nat.mul_le_mul_left _ (cosine_natAbs_le _)
  · exact Nat.zero_le _

theorem tideSum_natAbs_le (epoch : Nat) (cs : List Constituent) (pairs : List (Nat × Nat)) :
    (tideSum epoch cs pairs).natAbs ≤ (pairs.map Prod.fst).sum * 32767 := by
  induction cs generalizing pairs with
  | nil => exact Nat.zero_le _
  | cons c cs ih =>
    cases pairs with
    | nil => exact Nat.zero_le _
    | cons pair pairs =>
      have hterm := tideTerm_natAbs_le epoch c pair
      have hrest := ih pairs
      rw [tideSum, List.map_cons, List.sum_cons]
      omega

/-- The table stops short of one, so that the rounding cannot carry the value past the amplitude sum. -/
theorem tideValue_natAbs_le (cs : List Constituent) (site : Site) (epoch : Nat) :
    (tideValue cs site epoch).natAbs ≤ amplitudeSum site := by
  have hsum := tideSum_natAbs_le epoch cs site.pairs
  obtain ⟨hnear, -⟩ := rounding_claim (tideSum epoch cs site.pairs) 32768 (by decide)
  rw [amplitudeSum_eq_sum, tideValue]
  omega

theorem tideBounds_claim : Claims.TideBounds :=
  ⟨cosEntry_turning_points, fun _ => cosEntry_symm, fun p _ => cosine_between p,
    fun cs site epoch _ => tideValue_natAbs_le cs site epoch⟩

theorem tideSum_eq_sum_zipWith (epoch : Nat) (cs : List Constituent) (pairs : List (Nat × Nat)) :
    tideSum epoch cs pairs = (List.zipWith (tideTerm epoch) cs pairs).sum := by
  induction cs generalizing pairs with
  | nil => rfl
  | cons c cs ih =>
    cases pairs with
    | nil => rfl
    | cons pair pairs => rw [tideSum, ih, List.zipWith_cons_cons, List.sum_cons]

/-- The list of a function's values over the indices is the list that pairs two lists, where it gives each pair's value. -/
theorem map_range_eq_zipWith {α β γ : Type} {f : α → β → γ} {g : Nat → γ} {as : List α} {bs : List β} {n : Nat}
    (ha : as.length = n) (hb : bs.length = n) (h : ∀ k a b, as[k]? = some a → bs[k]? = some b → g k = f a b) :
    (List.range n).map g = List.zipWith f as bs := by
  refine List.ext_getElem (by simp [ha, hb]) fun k hk hk' => ?_
  rw [List.getElem_map, List.getElem_range, List.getElem_zipWith]
  exact h k _ _ (List.getElem?_eq_getElem _) (List.getElem?_eq_getElem _)

theorem tideSum_claim : Claims.TideSum := by
  intro cs site epoch hcs hpairs term sum v
  have hsum : sum = tideSum epoch cs site.pairs := by
    rw [tideSum_eq_sum_zipWith]
    refine congrArg List.sum (map_range_eq_zipWith hcs hpairs fun k c pair hc hpair => ?_)
    simp only [term, hc, hpair]
    rfl
  obtain ⟨hnear, haway, -⟩ := rounding_claim sum 32768 (by decide)
  have hv : v = roundDiv sum 32768 := by rw [hsum]; rfl
  rw [hv, mul_comm (32768 : Int)]
  exact ⟨hnear, haway⟩

/-- Settles O27: the phase by its definition, the table by its quarters, the interpolation and the value by R73's rounding
of an exact quotient. -/
theorem tideArithmetic : Obligations.TideArithmetic :=
  ⟨tidePhase_claim, tideBounds_claim, interpolation_claim, tideSum_claim⟩

end Sys2Proof.Machine
end

