-- ==== Sys2Proof/Proofs/SurveyLoops/Expiry.lean ====
section
/-! SUPPORT. The expiry of a loop: the check at a tick, and the row that takes a due loop (R109, R111, R114). -/

namespace Sys2Proof.Machine

open Sys2Proof

variable {s : State}

/-! ### The check at a tick -/

/-- The counts of one tick moved, in any part state, before the expiry check (R37, R38, R69, R176). -/
def State.counted (s : State) : State :=
  { s with
    clock := s.clock.tick
    window := s.window.map fun w => w.tick s.clamp
    front := if s.mainRuns then s.front.tick else s.front }

theorem tick_of_nothing_due (h : NothingDue s) : s.tick = s.counted.expiryCheck := by
  rw [State.tick, takeDue_of_nothing_due h]
  rfl

/-- R176, R178: a base period with no slew to take or to finish delivers one tick. -/
theorem basePeriod_of_no_slew (hheld : s.clock.held = false) (hleft : s.clock.left = none)
    (hslew : s.clock.trim = 0 ∨ s.clock.slew < 63) : s.basePeriod = (s.setClock s.clock.count).tick := by
  have hno : s.clock.slews = false := by
    simp only [Clock.slews, Bool.and_eq_false_iff, decide_eq_false_iff_not, not_not]
    omega
  simp [State.basePeriod, hheld, hleft, hno]

theorem counted_epoch (h : s.clockWf = true) : (s.setClock s.clock.count).counted.epoch = s.epoch + 1 := by
  obtain ⟨hticks, -, hslew⟩ := clockWf_ranges h
  have hcount := clock_count_eq hslew
  have htick : s.clock.count.tick.epoch = s.clock.count.epoch + 1 := clock_tick_epoch _ (by rw [hcount]; exact hticks)
  rw [hcount] at htick
  exact (congrArg (fun c : Clock => c.tick.epoch) hcount).trans htick

theorem expiryAtTick_claim : Claims.ExpiryAtTick := by
  intro s hi hwf hheld hleft hslew hset hwin hlive hexp
  have hdue : NothingDue s := ⟨hset, hwin, hlive, hexp⟩
  have hperiod : s.basePeriod = (s.setClock s.clock.count).counted.expiryCheck :=
    (basePeriod_of_no_slew hheld hleft hslew).trans (tick_of_nothing_due (hdue.setClock _))
  have hread : LoopsRead (s.setClock s.clock.count).counted := loopsRead_of_intact (s := s) hi
  obtain ⟨hframe, hmem⟩ := expiryCheck_of_loopsRead hread
  rw [counted_epoch hwf] at hmem
  refine ⟨_, congrArg Host.Outcome.next hperiod, ?_, hmem⟩
  rw [hframe]
  rfl

/-! ### The row of a due loop -/

/-- A due loop is off the list before it is read (R114). -/
def State.undue (s : State) (l : Nat) : State := { s with expiryDue := s.expiryDue.filter (· ≠ l) }

theorem takeExpiry_of_due {l : Nat} {r : Loop} {t : State} (h : l ∈ s.expiryDue) (ht : (s.undue l).checkLoop l = t)
    (hr : t.loop? l = some r) : s.takeExpiry l =
      if t.expiring l then (t.putLoop l { r with state := .expired }).raise .loopExpired else t := by
  have hc : s.expiryDue.contains l = true := List.contains_iff_mem.2 h
  have ht' : ({ s with expiryDue := s.expiryDue.filter (· ≠ l) } : State).checkLoop l = t := ht
  simp only [State.takeExpiry, hc, if_true, ht', hr]

theorem loopExpires_claim : Claims.LoopExpires := by
  intro s l r hmem hr hst hd hs hdeadline hheld
  have hloop : (s.undue l).loop? l = some r := hr
  have hread : (s.undue l).checkLoop l = s.undue l := checkLoop_of_sound fun x hx => by
    obtain rfl := Option.some.inj (hloop.symm.trans hx)
    exact ⟨hs, hd⟩
  have hexpiring : (s.undue l).expiring l = true := by
    simp only [State.expiring, hloop, hst, hd, decide_true, Bool.not_false, Bool.and_true, Bool.true_and]
    exact decide_eq_true hdeadline
  have htake := (takeExpiry_of_due hmem hread hloop).trans (if_pos hexpiring)
  have hevents : (s.undue l).events.raise (s.undue l).resetHeld .loopExpired =
      { s.events with pending := s.events.pending ||| 0x0400 } := if_neg (by simp [State.undue, hheld])
  refine ⟨_, congrArg Host.Outcome.next htake, ?_, ?_, fun k hk => ?_⟩
  · simp only [State.raise, State.putLoop_events, State.putLoop_resetHeld, hevents]
    rfl
  · rw [loop?_raise, loop?_putLoop, if_pos rfl, ← hs]
  · rw [loop?_raise, loop?_putLoop, if_neg hk]
    rfl

theorem damagedDoesNotExpire_claim : Claims.DamagedDoesNotExpire := by
  intro s l r hmem hr hbad hheld
  have hheld' : (s.undue l).resetHeld = false := hheld
  have hloop : ∀ k, ((s.undue l).setLoop l { r with damaged := true }).loop? k =
      if k = l then some { r with damaged := true } else s.loop? k := fun k => loop?_setLoop l k _
  have hread := checkLoop_of_failing (s := s.undue l) hheld' hr hbad
  have hmarked := (hloop l).trans (if_pos rfl)
  have htake := takeExpiry_of_due hmem hread hmarked
  rw [if_neg] at htake
  · exact ⟨_, congrArg Host.Outcome.next htake, rfl, hmarked, fun k hk => (hloop k).trans (if_neg hk)⟩
  · have hnot : ((s.undue l).setLoop l { r with damaged := true }).expiring l = false := by
      simp [State.expiring]
    exact Bool.eq_false_iff.1 hnot

/-- Settles O25: the check of a tick on loops that agree with their check values, and the row of a due loop as its read
leaves that loop. -/
theorem loopExpiry : Obligations.LoopExpiry := ⟨expiryAtTick_claim, loopExpires_claim, damagedDoesNotExpire_claim⟩

end Sys2Proof.Machine
end

