-- ==== Sys2Proof/Proofs/SurveyLoops/OpenLoop.lean ====
section
/-! SUPPORT. The entry of a usable station, the reads of a loop and of a record that fail their check, and OPEN LOOP
(R8, R111 to R113, R170). -/

namespace Sys2Proof.Machine

open Sys2Proof

variable {s : State}

/-! ### The entry of a usable station (R8) -/

/-- R8: the entry of the station that a number names, where that is usable. -/
def State.usableEntry (s : State) (n : Nat) : Option Station := (s.usable n).bind s.station?

theorem lookupEntry_of_setReads {n : Nat} (h : Claims.SetReads s n) : s.lookupEntry n = (s, s.usableEntry n) := by
  have hl : s.internalLookup n = (s, s.usable n) := (internalLookup_claim s n h).1
  unfold State.lookupEntry State.usableEntry
  rw [hl]
  cases s.usable n <;> rfl

theorem setReads_of_sound (h : ∀ q ∈ s.stations, q.2.sound = true) (n : Nat) : Claims.SetReads s n :=
  fun _ _ _ he => h _ (mem_of_slotGet he)

theorem usableEntry_of_usable {n w : Nat} {e : Station} (hu : s.usable n = some w) (he : s.station? w = some e) :
    s.usableEntry n = some e := by
  simp [State.usableEntry, hu, he]

theorem usableEntry_of_unusable {n : Nat} (hu : s.usable n = none) : s.usableEntry n = none := by
  simp [State.usableEntry, hu]

theorem isBase_some (e : Station) : isBase (some e) = decide (e.role = .base) := rfl

theorem inWindow_iff (o : Occ) : inWindow o = true ↔ o.state = .settling ∨ o.state = .collecting := by
  simp [inWindow]

theorem inWindow_eq_false {o : Occ} (h : o.state ≠ .settling) (h' : o.state ≠ .collecting) : inWindow o = false := by
  simp [inWindow, h, h']

/-! ### Reads that fail (R32, R111) -/

theorem checkLoop_of_free {l : Nat} (h : s.loop? l = none) : s.checkLoop l = s :=
  checkLoop_of_sound fun r hr => by simp [h] at hr

theorem checkLoop_of_found {l : Nat} {r : Loop} (hr : s.loop? l = some r) (hd : r.damaged = false)
    (hs : r.sound = true) : s.checkLoop l = s := checkLoop_of_sound fun x hx => by
  obtain rfl := Option.some.inj (hr.symm.trans hx)
  exact ⟨hs, hd⟩

theorem checkLoop_raises {l : Nat} {r : Loop} (hr : s.loop? l = some r) (h : r.damaged = true ∨ r.sound = false) :
    s.checkLoop l = (s.setLoop l { r with damaged := true }).raise .memoryError := by
  have hbad : (r.sound && !r.damaged) = false := by rcases h with h | h <;> simp [h]
  simp [State.checkLoop, hr, hbad]

theorem checkOcc_of_found {i : Nat} {o : Occ} (ho : s.occ? i = some o) (hs : o.sound = true) : s.checkOcc i = s :=
  checkOcc_of_sound fun p hp => by
    obtain rfl := Option.some.inj (ho.symm.trans hp)
    exact hs

theorem checkOcc_of_free {i : Nat} (ho : s.occ? i = none) : s.checkOcc i = s :=
  checkOcc_of_sound fun o h => by simp [ho] at h

/-- R170: the read of constants that fail their check, or carry the mark, by a reader that raises MEMORY_ERROR again. -/
theorem checkConstants_raises (h : s.constants.damaged = true ∨ s.constants.sound = false) :
    s.checkConstants true = ({ s with constants := { s.constants with damaged := true } } : State).raise .memoryError := by
  cases hd : s.constants.damaged with
  | true =>
    have hsame : { s.constants with damaged := true } = s.constants := by rw [← hd]
    rw [hsame, State.checkConstants, if_pos hd, if_pos rfl]
  | false =>
    have hs : s.constants.sound = false := h.resolve_left (by simp [hd])
    simp [State.checkConstants, hd, hs, State.setConstants]

/-! ### The checks of OPEN LOOP, in their order (R112) -/

theorem exec_openLoop {l i : Nat} (h : s.serves (.openLoop l i) .ready = true) :
    exec (.openLoop l i) s = .next (openLoopBody l i s) := hostCommand_of_serves _ h

theorem openLoopBody_of_range {l i : Nat} (h : 16 ≤ l ∨ 512 ≤ i) : openLoopBody l i s = s.refuse .badValue := by
  have hout : (!decide (l < Config.loops) || !decide (i < Config.poolSize)) = true := by
    rcases h with h | h
    · simp [show ¬l < Config.loops from not_lt.2 h]
    · simp [show ¬i < Config.poolSize from not_lt.2 h]
  rw [openLoopBody, if_pos hout]

theorem openLoopBody_of_unset {l i : Nat} (hl : l < 16) (hi : i < 512) (hc : s.clock.isSet = false) :
    openLoopBody l i s = s.refuse .clockUnset := by
  simp [openLoopBody, Config.loops, Config.poolSize, hl, hi, hc]

/-- R112, step 3, once the fields and the clock are good. -/
theorem openLoopBody_of_loop {l i : Nat} {t : State} {r : Loop} (hl : l < 16) (hi : i < 512) (hc : s.clock.isSet = true)
    (ht : s.checkLoop l = t) (hr : t.loop? l = some r) :
    openLoopBody l i s = t.refuse (if r.damaged then .damaged else .loopState) := by
  simp [openLoopBody, Config.loops, Config.poolSize, hl, hi, hc, ht, hr]

/-- R112, steps 4 and 5, at a FREE loop. -/
theorem openLoopBody_of_free {l i : Nat} {t : State} (hl : l < 16) (hi : i < 512) (hc : s.clock.isSet = true)
    (hr : s.loop? l = none) (ht : s.checkOcc i = t) : openLoopBody l i s = match t.occ? i with
      | none => t.refuse .noOccupation
      | some o => if o.damaged then t.refuse .damaged else t.openOn l i o := by
  subst ht
  simp only [openLoopBody, Config.loops, Config.poolSize, hl, hi, hc, checkLoop_of_free hr, hr, decide_true, Bool.not_true,
    Bool.or_false, Bool.false_eq_true, if_false] <;> rfl

theorem openLoopBody_of_record {l i : Nat} {o : Occ} (hl : l < 16) (hi : i < 512) (hc : s.clock.isSet = true)
    (hr : s.loop? l = none) (ho : s.occ? i = some o) (hs : o.sound = true) (hd : o.damaged = false) :
    openLoopBody l i s = s.openOn l i o := by
  simp [openLoopBody_of_free hl hi hc hr (checkOcc_of_found ho hs), ho, hd]

/-- R112, step 6. -/
theorem openOn_of_not_base {l i : Nat} {o : Occ} (h : Claims.SetReads s o.station)
    (hb : isBase (s.usableEntry o.station) = false) : s.openOn l i o = s.refuse .notBase := by
  simp [State.openOn, lookupEntry_of_setReads h, hb]

/-- R112, steps 7 and 8, at a usable BASE. -/
theorem openOn_of_base {l i : Nat} {o : Occ} {e : Station} (h : Claims.SetReads s o.station)
    (he : s.usableEntry o.station = some e) (hb : e.role = .base) : s.openOn l i o =
      if inWindow o then s.refuse .loopState else if o.opens.isSome then s.refuse .inUse else s.openNow l i o := by
  simp [State.openOn, lookupEntry_of_setReads h, he, isBase_some, hb]

/-- R113: the opening, once the constants are read. -/
theorem openNow_of_sound {l i : Nat} {o : Occ} (hs : s.constants.sound = true) (hd : s.constants.damaged = false) :
    s.openNow l i o = ((s.putLoop l (newLoop i s.epoch s.constants.nums.loopHours.toNat)).putOcc i
      { o with opens := some l }).respond .ok
        (u8 l ++ u48 s.epoch ++ u48 (s.epoch + s.constants.nums.loopHours.toNat * 3686400)) := by
  rw [State.openNow, checkConstants_of_sound hs hd]
  simp only [hd, Bool.false_eq_true, if_false]
  rfl

theorem openNow_of_failing {l i : Nat} {o : Occ} (h : s.constants.damaged = true ∨ s.constants.sound = false) :
    s.openNow l i o =
      (({ s with constants := { s.constants with damaged := true } } : State).raise .memoryError).refuse .damaged := by
  rw [State.openNow, checkConstants_raises h]
  rfl

/-! ### OPEN LOOP -/

theorem openLoopAccepted_claim : Claims.OpenLoopAccepted := by
  intro s l i w o e hs hi hl hidx hc hr ho hset hcol hopens hm he ha hb
  obtain ⟨hos, hod⟩ := intact_occ hi ho
  obtain ⟨hcs, hcd⟩ := intact_constants hi
  have hu : s.usable o.station = some w := (usable_of_lone hm he).trans (if_pos ⟨ha, by simp [(intact_station hi he).2]⟩)
  have hbody : openLoopBody l i s = s.openNow l i o := by
    rw [openLoopBody_of_record hl hidx hc hr ho hos hod,
      openOn_of_base (setReads_of_intact hi _) (usableEntry_of_usable hu he) hb]
    simp [inWindow_eq_false hset hcol, hopens]
  refine ⟨_, (exec_openLoop hs).trans (congrArg _ (hbody.trans (openNow_of_sound hcs hcd))), rfl, rfl, ?_,
    fun k hk => ?_, ?_, fun j hj => ?_⟩
  · rw [loop?_respond, loop?_putOcc, loop?_putLoop, if_pos rfl]
    rfl
  · rw [loop?_respond, loop?_putOcc, loop?_putLoop, if_neg hk]
  · rw [occ?_respond, occ?_putOcc, if_pos rfl, ← hos]
  · rw [occ?_respond, occ?_putOcc, if_neg hj]
    rfl

theorem openLoopRefusals_claim : Claims.OpenLoopRefusals := by
  intro s l i hs
  simp only [exec_openLoop hs]
  refine ⟨fun h => by rw [openLoopBody_of_range h], fun hl hi hc => by rw [openLoopBody_of_unset hl hi hc],
    fun hl hi hc => ⟨fun r hr => ⟨fun hbad => ?_, fun hd hsound => ?_⟩, fun hr => ⟨fun ho => ?_, fun o ho =>
      ⟨fun hos => ?_, fun hos hod => ?_, fun hos hod hst => ?_⟩⟩⟩⟩
  · rw [openLoopBody_of_loop hl hi hc (checkLoop_raises hr hbad) (by rw [loop?_raise, loop?_setLoop, if_pos rfl])]
    rfl
  · rw [openLoopBody_of_loop hl hi hc (checkLoop_of_found hr hd hsound) hr]
    simp [hd]
  · rw [openLoopBody_of_free hl hi hc hr (checkOcc_of_free ho)]
    simp [ho]
  · rw [openLoopBody_of_free hl hi hc hr (checkOcc_of_unsound ho hos)]
    simp
  · rw [openLoopBody_of_free hl hi hc hr (checkOcc_of_found ho hos)]
    simp [ho, hod]
  · have hset := setReads_of_sound hst o.station
    rw [openLoopBody_of_record hl hi hc hr ho hos hod]
    refine ⟨fun hu => ?_, fun w e hu he => ⟨fun hrole => ?_, fun hrole => ?_⟩⟩
    · rw [openOn_of_not_base hset (by rw [usableEntry_of_unusable hu]; rfl)]
    · rw [openOn_of_not_base hset (by simp [usableEntry_of_usable hu he, isBase_some, hrole])]
    · rw [openOn_of_base hset (usableEntry_of_usable hu he) hrole]
      refine ⟨fun hw => by rw [if_pos ((inWindow_iff o).2 hw)], fun hns hnc => ?_⟩
      simp only [inWindow_eq_false hns hnc, Bool.false_eq_true, if_false]
      refine ⟨fun hopens => by rw [if_pos hopens], fun hopens hbad => ?_⟩
      rw [hopens, openNow_of_failing hbad]
      rfl

/-- Settles O43: the checks of the command in their order, and the opening of a loop that passes them. -/
theorem openLoop : Obligations.OpenLoop := ⟨openLoopAccepted_claim, openLoopRefusals_claim⟩

end Sys2Proof.Machine
end

