-- ==== Sys2Proof/Proofs/SurveyLoops/CloseLoop.lean ====
section
/-! SUPPORT. CLOSE LOOP: its checks in their order (R116), and the job that it places (R117). -/

namespace Sys2Proof.Machine

open Sys2Proof

variable {s t : State}

/-! ### A list of records in which one alone fails its check (R32) -/

theorem slotErase_slotInsert {α : Type} (k : Nat) (v : α) (x : Slots α) :
    slotErase (slotInsert k v x) k = slotErase x k := by
  induction x with
  | nil => simp [slotInsert, slotErase]
  | cons p x ih =>
    by_cases h : k < p.1
    · simp [slotInsert, slotErase, h]
    · by_cases hp : p.1 = k <;> simpa [slotInsert, slotErase, h, hp] using ih

theorem slotSet_slotSet_self {α : Type} (x : Slots α) (k : Nat) (v w : α) :
    slotSet (slotSet x k v) k w = slotSet x k w := by
  have herase : slotErase (slotErase x k) k = slotErase x k := by simp [slotErase, List.filter_filter]
  rw [slotSet, slotSet, slotErase_slotInsert, herase, slotSet]

theorem raise_raise_self (s : State) (e : Event) : (s.raise e).raise e = s.raise e := by
  unfold State.raise Events.raise
  cases s.resetHeld <;> simp [BitVec.or_assoc]

/-- R32: the state once the record at `i` has failed its check. -/
def State.failOcc (s : State) (i : Nat) (o : Occ) : State :=
  (s.setOcc i { o with damaged := true }).raise .memoryError

theorem occ?_failOcc (i j : Nat) (o : Occ) :
    (s.failOcc i o).occ? j = if j = i then some { o with damaged := true } else s.occ? j := by
  rw [State.failOcc, occ?_raise, occ?_setOcc]

theorem checkOcc_failOcc (i : Nat) {o : Occ} (h : o.sound = false) : (s.failOcc i o).checkOcc i = s.failOcc i o := by
  have ho : (s.failOcc i o).occ? i = some { o with damaged := true } := (occ?_failOcc i i o).trans (if_pos rfl)
  have hset : (s.failOcc i o).setOcc i { o with damaged := true } = s.failOcc i o := by
    simp only [State.failOcc, State.setOcc, State.raise, slotSet_slotSet_self]
  rw [checkOcc_of_unsound ho h, hset, State.failOcc, raise_raise_self]

theorem checkOccs_of_lone_unsound {is : List Nat} {i : Nat} {o : Occ} (hi : i ∈ is) (ho : s.occ? i = some o)
    (hu : o.sound = false) (hs : ∀ j ∈ is, j ≠ i → ∀ p, s.occ? j = some p → p.sound = true) :
    s.checkOccs is = s.failOcc i o := by
  have hfixed : ∀ j ∈ is, (s.failOcc i o).checkOcc j = s.failOcc i o := by
    intro j hj
    by_cases hji : j = i
    · rw [hji, checkOcc_failOcc i hu]
    · refine checkOcc_of_sound fun p hp => hs j hj hji p ?_
      rwa [occ?_failOcc, if_neg hji] at hp
  have hrest : ∀ js : List Nat, (∀ j ∈ js, j ∈ is) → i ∈ js → s.checkOccs js = s.failOcc i o := by
    intro js
    induction js with
    | nil => exact fun _ h => absurd h List.not_mem_nil
    | cons j js ih =>
      intro hsub hmem
      have htail : ∀ k ∈ js, k ∈ is := fun k hk => hsub k (List.mem_cons_of_mem _ hk)
      rw [State.checkOccs, List.foldl_cons]
      by_cases hji : j = i
      · rw [hji, checkOcc_of_unsound ho hu]
        exact foldl_of_fixed_mem fun k hk => hfixed k (htail k hk)
      · rw [checkOcc_of_sound (hs j (hsub j List.mem_cons_self) hji)]
        exact ih htail ((List.mem_cons.1 hmem).resolve_left (Ne.symm hji))
  exact hrest is (fun _ h => h) hi

/-! ### The fields and the loop (R116, steps 1 to 3) -/

/-- R108: the mode that a mode byte below 2 names. -/
def closeModeOf (mode : Nat) : CloseMode := if mode = 0 then .drift else .noDrift

theorem modeOf_of_lt {mode : Nat} (h : mode < 2) : modeOf mode = some (closeModeOf mode) := by
  obtain rfl | rfl : mode = 0 ∨ mode = 1 := by omega
  · rfl
  · rfl

theorem closable_lt {mode : Nat} {r : Loop} (h : Claims.Closable mode r) : mode < 2 := by
  rcases h with ⟨rfl, -⟩ | ⟨rfl, -⟩ <;> decide

theorem closeRefusal_of_closable {mode : Nat} {r : Loop} (h : Claims.Closable mode r) :
    closeRefusal (closeModeOf mode) r.state = none := by
  rcases h with ⟨rfl, h⟩ | ⟨rfl, h | h⟩ <;> rw [h] <;> rfl

theorem exec_closeLoop {l i mode tag : Nat} (h : s.serves (.closeLoop l i mode tag) .ready = true) :
    exec (.closeLoop l i mode tag) s = .next (closeLoopBody l i mode tag s) := hostCommand_of_serves _ h

theorem closeLoopBody_of_range {l i mode tag : Nat} (h : 16 ≤ l ∨ 512 ≤ i ∨ 2 ≤ mode ∨ 256 ≤ tag) :
    closeLoopBody l i mode tag s = s.refuse .badValue := by
  unfold closeLoopBody
  split
  · rfl
  · next m hm =>
    have hmode : mode < 2 := by
      by_contra hge
      obtain ⟨k, rfl⟩ : ∃ k, mode = k + 2 := ⟨mode - 2, by omega⟩
      cases hm
    have hout : ¬l < Config.loops ∨ ¬i < Config.poolSize ∨ ¬tag < 256 := by
      unfold Config.loops Config.poolSize
      omega
    rcases hout with h | h | h <;> simp [h]

/-- R116, steps 2 and 3, once the fields are good. -/
theorem closeLoopBody_of_loop {l i mode tag : Nat} {r : Loop} (hl : l < 16) (hi : i < 512) (hm : mode < 2) (ht : tag < 256)
    (hread : s.checkLoop l = t) (hr : t.loop? l = some r) : closeLoopBody l i mode tag s =
      if r.damaged then t.refuse .damaged
      else match closeRefusal (closeModeOf mode) r.state with
        | some st => t.refuse st
        | none => t.closeOn l i r (closeModeOf mode) tag := by
  subst hread
  simp only [closeLoopBody, modeOf_of_lt hm, Config.loops, Config.poolSize, hl, hi, ht, hr, decide_true, Bool.not_true,
    Bool.or_false, Bool.false_eq_true, if_false] <;> rfl

theorem closeLoopBody_of_free {l i mode tag : Nat} (hl : l < 16) (hi : i < 512) (hm : mode < 2) (ht : tag < 256)
    (hr : s.loop? l = none) : closeLoopBody l i mode tag s = s.refuse .loopState := by
  simp [closeLoopBody, modeOf_of_lt hm, Config.loops, Config.poolSize, hl, hi, ht, checkLoop_of_free hr, hr]

theorem closeLoopBody_of_closable {l i mode tag : Nat} {r : Loop} (hl : l < 16) (hi : i < 512) (ht : tag < 256)
    (hr : s.loop? l = some r) (hs : r.sound = true) (hd : r.damaged = false) (hc : Claims.Closable mode r) :
    closeLoopBody l i mode tag s = s.closeOn l i r (closeModeOf mode) tag := by
  rw [closeLoopBody_of_loop hl hi (closable_lt hc) ht (checkLoop_of_found hr hd hs) hr]
  simp [hd, closeRefusal_of_closable hc]

/-! ### The closing member (R116, steps 4 to 7) -/

section
variable {l i tag : Nat} {r : Loop} {mode : CloseMode} {o : Occ} {m : Reading} {e : Station}

theorem closeOn_of_free (ho : s.occ? i = none) : s.closeOn l i r mode tag = s.refuse .noOccupation := by
  simp [State.closeOn, checkOcc_of_free ho, ho]

theorem closeOn_of_damaged (hread : s.checkOcc i = t) (ho : t.occ? i = some o) (hd : o.damaged = true) :
    s.closeOn l i r mode tag = t.refuse .damaged := by
  simp [State.closeOn, hread, ho, hd]

/-- R116, steps 5 to 10, of a record that agrees with its check value: the first failure refuses the command. -/
theorem closeOn_of_refused {st : Status} (ho : s.occ? i = some o) (hs : o.sound = true) (hd : o.damaged = false)
    (h : s.closeChecks i r o mode = (t, some st)) : s.closeOn l i r mode tag = t.refuse st := by
  simp [State.closeOn, checkOcc_of_found ho hs, ho, hd, h]

theorem closeOn_of_passed (ho : s.occ? i = some o) (hs : o.sound = true) (hd : o.damaged = false)
    (h : s.closeChecks i r o mode = (t, none)) : s.closeOn l i r mode tag = t.closeQueue l i r mode tag := by
  simp [State.closeOn, checkOcc_of_found ho hs, ho, hd, h]

theorem closeChecks_of_unfit (h : i ∉ r.members ∨ o.state = .settling ∨ o.state = .collecting) :
    s.closeChecks i r o mode = (s, some .loopState) := by
  by_cases hm : i ∈ r.members
  · have hw : inWindow o = true := (inWindow_iff o).2 (h.resolve_left (not_not_intro hm))
    cases he : epochOf o <;> simp [State.closeChecks, hm, hw, he]
  · simp [State.closeChecks, hm]

theorem epochOf_of_reading (h : o.reading = some m) : epochOf o = some m.epoch := by
  simp [epochOf, h]

theorem closeChecks_of_not_base (hm : Claims.CloseMember s r i o m) (h : Claims.SetReads s o.station)
    (hb : isBase (s.usableEntry o.station) = false) : s.closeChecks i r o mode = (s, some .notBase) := by
  obtain ⟨hmem, -, hns, hnc, hreading⟩ := hm
  simp [State.closeChecks, hmem, epochOf_of_reading hreading, inWindow_eq_false hns hnc, lookupEntry_of_setReads h, hb]

/-- R116, steps 8 to 10, at a usable BASE. -/
theorem closeChecks_of_base (hm : Claims.CloseMember s r i o m) (h : Claims.SetReads s o.station)
    (he : s.usableEntry o.station = some e) (hb : e.role = .base)
    (ht : s.checkOccs (r.members.filter (· ≠ i)) = t) : s.closeChecks i r o mode =
      if (r.members.filter (· ≠ i)).any t.occDamaged then (t, some .damaged)
      else if !(r.members.filter (· ≠ i)).all (t.memberBefore m.epoch) then (t, some .loopState)
      else match mode with
        | .noDrift => (t, none)
        | .drift => t.closeDrift r o m.epoch (some e) := by
  obtain ⟨hmem, -, hns, hnc, hreading⟩ := hm
  subst ht
  have hc : r.members.contains i = true := List.contains_iff_mem.2 hmem
  simp only [State.closeChecks, hc, epochOf_of_reading hreading, inWindow_eq_false hns hnc, lookupEntry_of_setReads h, he,
    isBase_some, hb, decide_true, Bool.not_true, Bool.false_eq_true, if_false] <;> rfl

/-! ### The other members (R116, step 8) -/

theorem mem_others {j : Nat} : j ∈ r.members.filter (· ≠ i) ↔ j ∈ r.members ∧ j ≠ i := by
  simp

theorem occDamaged_of_found {j : Nat} {p : Occ} (h : s.occ? j = some p) : s.occDamaged j = p.damaged := by
  simp [State.occDamaged, h]

theorem memberBefore_of_found {j epoch : Nat} {p : Occ} (h : s.occ? j = some p) (hns : p.state ≠ .settling)
    (hnc : p.state ≠ .collecting) {q : Reading} (hq : p.reading = some q) (hle : q.epoch ≤ epoch) :
    s.memberBefore epoch j = true := by
  simp [State.memberBefore, h, epochOf_of_reading hq, inWindow_eq_false hns hnc, hle]

theorem others_undamaged (h : ∀ j p, j ∈ r.members → j ≠ i → s.occ? j = some p → p.damaged = false) :
    (r.members.filter (· ≠ i)).any s.occDamaged = false := by
  refine List.any_eq_false.2 fun j hj => ?_
  obtain ⟨hmem, hji⟩ := mem_others.1 hj
  cases hp : s.occ? j with
  | none => simp [State.occDamaged, hp]
  | some p => simp [occDamaged_of_found hp, h j p hmem hji hp]

theorem others_before (h : Claims.OthersBefore s r i m) :
    (r.members.filter (· ≠ i)).all (s.memberBefore m.epoch) = true := by
  refine List.all_eq_true.2 fun j hj => ?_
  obtain ⟨hmem, hji⟩ := mem_others.1 hj
  obtain ⟨p, q, hp, hns, hnc, hq, hle⟩ := h j hmem hji
  exact memberBefore_of_found hp hns hnc hq hle

theorem others_not_before {j : Nat} {p : Occ} (hj : j ∈ r.members) (hji : j ≠ i) (hp : s.occ? j = some p)
    (h : p.state = .settling ∨ p.state = .collecting ∨ ∃ q, p.reading = some q ∧ m.epoch < q.epoch) :
    (r.members.filter (· ≠ i)).all (s.memberBefore m.epoch) = false := by
  refine List.all_eq_false.2 ⟨j, mem_others.2 ⟨hj, hji⟩, ?_⟩
  rw [State.memberBefore, hp]
  rcases h with h | h | ⟨q, hq, hlt⟩
  · cases he : epochOf p <;> simp [he, inWindow, h]
  · cases he : epochOf p <;> simp [he, inWindow, h]
  · simp [epochOf_of_reading hq, hlt]

/-- R116, steps 9 and 10 are left where every other member is read sound and stands before the closing one. -/
theorem closeChecks_of_others (hm : Claims.CloseMember s r i o m) (h : Claims.SetReads s o.station)
    (he : s.usableEntry o.station = some e) (hb : e.role = .base) (hbefore : Claims.OthersBefore s r i m)
    (hread : ∀ j p, j ∈ r.members → j ≠ i → s.occ? j = some p → p.sound = true ∧ p.damaged = false) :
    s.closeChecks i r o mode = match mode with
      | .noDrift => (s, none)
      | .drift => s.closeDrift r o m.epoch (some e) := by
  have hcheck : s.checkOccs (r.members.filter (· ≠ i)) = s := checkOccs_of_sound fun j hj p hp =>
    (hread j p (mem_others.1 hj).1 (mem_others.1 hj).2 hp).1
  rw [closeChecks_of_base hm h he hb hcheck, others_undamaged fun j p hj hji hp => (hread j p hj hji hp).2,
    others_before hbefore] <;> rfl

/-! ### The open endpoint, in mode DRIFT (R116, steps 9 and 10) -/

theorem reference_eq (n : Nat) : Claims.reference s n = (s.usableEntry n).bind (·.reference) := by
  rw [Claims.reference, State.usableEntry, Option.bind_assoc]

theorem closeDrift_of_free {epoch : Nat} {x : Option Station} (h : s.occ? r.openEnd = none) :
    s.closeDrift r o epoch x = (s, some .loopState) := by
  simp [State.closeDrift, checkOcc_of_free h, h]

theorem closeDrift_of_damaged {epoch : Nat} {x : Option Station} {p : Occ} (ht : s.checkOcc r.openEnd = t)
    (hp : t.occ? r.openEnd = some p) (hd : p.damaged = true) : s.closeDrift r o epoch x = (t, some .damaged) := by
  simp [State.closeDrift, ht, hp, hd]

theorem closeDrift_of_no_epoch {epoch : Nat} {x : Option Station} {p : Occ} (hp : s.occ? r.openEnd = some p)
    (hs : p.sound = true) (hd : p.damaged = false) (hr : p.reading = none) :
    s.closeDrift r o epoch x = (s, some .loopState) := by
  simp [State.closeDrift, checkOcc_of_found hp hs, hp, hd, epochOf, hr]

theorem closeDrift_of_reading {epoch : Nat} {x : Option Station} {p : Occ} {q : Reading} (hp : s.occ? r.openEnd = some p)
    (hs : p.sound = true) (hd : p.damaged = false) (hr : p.reading = some q) :
    s.closeDrift r o epoch x = if q.epoch < epoch then s.closeTie o p x else (s, some .loopState) := by
  simp [State.closeDrift, checkOcc_of_found hp hs, hp, hd, epochOf_of_reading hr]

theorem closeTie_of_same {x : Option Station} {p : Occ} (h : o.station = p.station) : s.closeTie o p x = (s, none) := by
  simp [State.closeTie, h]

theorem closeTie_of_unusable {x : Option Station} {p : Occ} (h : o.station ≠ p.station) (hr : Claims.SetReads s p.station)
    (hu : s.usableEntry p.station = none) : s.closeTie o p x = (s, some .notBase) := by
  simp [State.closeTie, h, lookupEntry_of_setReads hr, hu]

theorem closeTie_of_usable {p : Occ} {y : Station} (h : o.station ≠ p.station) (hr : Claims.SetReads s p.station)
    (hu : s.usableEntry p.station = some y) : s.closeTie o p (some e) =
      (s, if y.reference.isSome ∧ e.reference.isSome then none else some .noReference) := by
  simp [State.closeTie, h, lookupEntry_of_setReads hr, hu]

theorem closeTie_of_references {p : Occ} (h : o.station ≠ p.station) (hr : Claims.SetReads s p.station)
    (hp : (Claims.reference s p.station).isSome = true) (he : e.reference.isSome = true) :
    s.closeTie o p (some e) = (s, none) := by
  rw [reference_eq] at hp
  cases hu : s.usableEntry p.station with
  | none => simp [hu] at hp
  | some y =>
    rw [hu] at hp
    rw [closeTie_of_usable h hr hu, if_pos ⟨hp, he⟩]

theorem closeDrift_of_driftCloses (hi : s.intact = true) (h : Claims.DriftCloses s r o m e) :
    s.closeDrift r o m.epoch (some e) = (s, none) := by
  obtain ⟨p, q, hp, hq, hlt, href⟩ := h
  obtain ⟨hps, hpd⟩ := intact_occ hi hp
  rw [closeDrift_of_reading hp hps hpd hq, if_pos hlt]
  by_cases hst : p.station = o.station
  · exact closeTie_of_same hst.symm
  · exact closeTie_of_references (Ne.symm hst) (setReads_of_intact hi _) (href hst).1 (href hst).2

end

/-- On intact memory a loop that meets every check passes them all, and nothing is written. -/
theorem closeChecks_of_intact {i mode w : Nat} {r : Loop} {o : Occ} {m : Reading} {e : Station} (hi : s.intact = true)
    (hm : Claims.CloseMember s r i o m) (hu : s.usable o.station = some w) (he : s.station? w = some e) (hb : e.role = .base)
    (hbefore : Claims.OthersBefore s r i m) (hdrift : mode = 0 → Claims.DriftCloses s r o m e) :
    s.closeChecks i r o (closeModeOf mode) = (s, none) := by
  rw [closeChecks_of_others hm (setReads_of_intact hi _) (usableEntry_of_usable hu he) hb hbefore
    fun j p _ _ hp => intact_occ hi hp]
  by_cases h0 : mode = 0
  · rw [closeModeOf, if_pos h0]
    exact closeDrift_of_driftCloses hi (hdrift h0)
  · rw [closeModeOf, if_neg h0]

/-! ### The job of the close (R117) -/

theorem closeQueue_of_halted {l i tag : Nat} {r : Loop} {mode : CloseMode} (h : s.engine.state = .halted) :
    s.closeQueue l i r mode tag = s.refuse .engineHalted := if_pos h

theorem closeQueue_of_full {l i tag : Nat} {r : Loop} {mode : CloseMode} (h : s.engine.state ≠ .halted)
    (hq : 4 ≤ s.engine.queue.length) : s.closeQueue l i r mode tag = s.refuse .queueFull := by
  have hfull : s.engine.full = true := decide_eq_true hq
  rw [State.closeQueue, if_neg h, if_pos hfull]

theorem closeQueue_of_room {l i tag : Nat} {r : Loop} {mode : CloseMode} (h : s.engine.state ≠ .halted)
    (hq : s.engine.queue.length < 4) : s.closeQueue l i r mode tag = s.closeNow l i r mode tag := by
  have hfull : s.engine.full = false := decide_eq_false (not_le.2 hq)
  rw [State.closeQueue, if_neg h, hfull] <;> rfl

/-- R117: what the accepted close writes. -/
theorem closeNow_spec {l i tag : Nat} {r : Loop} (mode : CloseMode) (hs : r.sound = true) :
    s.closeNow l i r mode tag = { s with
      loops := (s.closeNow l i r mode tag).loops
      engine := s.engine.place { kind := .close l, origin := .host, tag := tag }
      link := (s.respond .ok (u8 l ++ u8 s.engine.position)).link } ∧
    (s.closeNow l i r mode tag).loop? l = some { r with state := .closing, closing := some i, mode := some mode } ∧
    ∀ k, k ≠ l → (s.closeNow l i r mode tag).loop? k = s.loop? k := by
  have hloop : ∀ k, (s.closeNow l i r mode tag).loop? k =
      (s.putLoop l { r with state := .closing, closing := some i, mode := some mode }).loop? k := fun _ => rfl
  refine ⟨rfl, ?_, fun k hk => ?_⟩
  · rw [hloop, loop?_putLoop, if_pos rfl, ← hs]
  · rw [hloop, loop?_putLoop, if_neg hk]

theorem startFlight_eq_begun (j : Job) : startFlight j = Claims.begun j := by
  obtain ⟨kind, origin, tag⟩ := j
  cases kind <;> rfl

/-! ### CLOSE LOOP -/

theorem closeLoopAccepted_claim : Claims.CloseLoopAccepted := by
  intro s l i mode tag w r o m e hs hi hl hidx ht hr hc hm hu he hb hbefore hdrift hhalt hqueue
  obtain ⟨hrs, hrd⟩ := intact_loop hi hr
  obtain ⟨hos, hod⟩ := intact_occ hi hm.2.1
  have hbody : closeLoopBody l i mode tag s = s.closeNow l i r (closeModeOf mode) tag := by
    rw [closeLoopBody_of_closable hl hidx ht hr hrs hrd hc,
      closeOn_of_passed hm.2.1 hos hod (closeChecks_of_intact hi hm hu he hb hbefore hdrift),
      closeQueue_of_room hhalt hqueue]
  obtain ⟨hframe, hloop, hother⟩ := closeNow_spec (s := s) (l := l) (i := i) (tag := tag) (closeModeOf mode) hrs
  refine ⟨_, (exec_closeLoop hs).trans (congrArg _ hbody), ?_, hloop, hother, fun hidle => ?_, fun hwork => ?_⟩
  · rw [hframe]
  · have hposition : s.engine.position = 0 := if_pos hidle
    have hplace : ∀ j, s.engine.place j = s.engine.take j := fun j => if_pos hidle
    rw [hframe, hposition, hplace, Engine.take, startFlight_eq_begun]
    exact ⟨rfl, rfl⟩
  · have hbusy : s.engine.state ≠ .idle := by rw [hwork]; decide
    have hposition : s.engine.position = s.engine.queue.length + 1 := if_neg hbusy
    have hplace : ∀ j, s.engine.place j = s.engine.enqueue j := fun j => if_neg hbusy
    rw [hframe, hposition, hplace]
    exact ⟨rfl, rfl⟩

theorem closeLoopRefusals_claim : Claims.CloseLoopRefusals := by
  intro s l i mode tag hs hi hl hidx hmode ht
  simp only [exec_closeLoop hs]
  refine ⟨fun hr => by rw [closeLoopBody_of_free hl hidx hmode ht hr], fun r hr => ?_⟩
  obtain ⟨hrs, hrd⟩ := intact_loop hi hr
  have hstate : ∀ st, closeRefusal (closeModeOf mode) r.state = some st →
      closeLoopBody l i mode tag s = s.refuse st := by
    intro st hst
    rw [closeLoopBody_of_loop hl hidx hmode ht (checkLoop_of_found hr hrd hrs) hr]
    simp [hrd, hst]
  refine ⟨fun h => by rw [hstate .loopState (by rw [h]; rfl)], fun h => by rw [hstate .loopBusy (by rw [h]; rfl)],
    fun h h0 => by rw [hstate .loopExpired (by rw [h, h0]; rfl)], fun hc => ?_⟩
  rw [closeLoopBody_of_closable hl hidx ht hr hrs hrd hc]
  refine ⟨fun ho => by rw [closeOn_of_free ho], fun o ho h => ?_, fun o m hm => ?_⟩
  · obtain ⟨hos, hod⟩ := intact_occ hi ho
    rw [closeOn_of_refused ho hos hod (closeChecks_of_unfit h)]
  obtain ⟨hos, hod⟩ := intact_occ hi hm.2.1
  have hset := setReads_of_intact hi o.station
  have hrefused : ∀ st, s.closeChecks i r o (closeModeOf mode) = (s, some st) →
      Host.Outcome.next (ρ := Refusal) (φ := Fault) (s.closeOn l i r (closeModeOf mode) tag) = .next (s.refuse st) :=
    fun st h => congrArg _ (closeOn_of_refused hm.2.1 hos hod h)
  refine ⟨fun hu => hrefused _ (closeChecks_of_not_base hm hset (by rw [usableEntry_of_unusable hu]; rfl)),
    fun w e hu he => ⟨fun hrole => hrefused _ (closeChecks_of_not_base hm hset ?_), fun hrole => ⟨?_, fun hbefore =>
      ⟨fun p q h0 hp hq => ?_, fun hdrift => ?_⟩⟩⟩⟩
  · simp [usableEntry_of_usable hu he, isBase_some, hrole]
  · rintro ⟨j, p, hj, hji, hp, hlate⟩
    refine hrefused _ ?_
    rw [closeChecks_of_base hm hset (usableEntry_of_usable hu he) hrole (checkOccs_of_intact hi _),
      others_undamaged fun k q _ _ hq => (intact_occ hi hq).2, others_not_before hj hji hp hlate] <;> rfl
  · obtain ⟨hps, hpd⟩ := intact_occ hi hp
    have hchecks : s.closeChecks i r o (closeModeOf mode) =
        if q.epoch < m.epoch then s.closeTie o p (some e) else (s, some .loopState) := by
      rw [closeChecks_of_others hm hset (usableEntry_of_usable hu he) hrole hbefore fun j p _ _ hp => intact_occ hi hp,
        closeModeOf, if_pos h0, closeDrift_of_reading hp hps hpd hq]
    refine ⟨fun hle => hrefused _ (hchecks.trans (if_neg (not_lt.2 hle))), fun hlt hne => ?_⟩
    have htie := hchecks.trans (if_pos hlt)
    have hpset := setReads_of_intact hi p.station
    refine ⟨fun hpu => hrefused _ (htie.trans ?_), fun hpu hmissing => hrefused _ (htie.trans ?_)⟩
    · exact closeTie_of_unusable (Ne.symm hne) hpset (usableEntry_of_unusable hpu)
    · obtain ⟨v, hv⟩ := Option.isSome_iff_exists.1 hpu
      obtain ⟨y, hy⟩ := station_of_usable hv
      have hentry := usableEntry_of_usable hv hy
      rw [closeTie_of_usable (Ne.symm hne) hpset hentry, if_neg]
      rw [reference_eq, hentry] at hmissing
      rintro ⟨hys, hes⟩
      rcases hmissing with h | h
      · rw [show y.reference = none from h] at hys
        cases hys
      · rw [h] at hes
        cases hes
  · have hpass : s.closeChecks i r o (closeModeOf mode) = (s, none) :=
      closeChecks_of_intact hi hm hu he hrole hbefore fun h0 => hdrift.resolve_left (by omega)
    rw [closeOn_of_passed hm.2.1 hos hod hpass]
    exact ⟨fun h => by rw [closeQueue_of_halted h], fun h hq => by rw [closeQueue_of_full h hq]⟩

theorem closeLoopDamaged_claim : Claims.CloseLoopDamaged := by
  intro s l i mode tag hs
  simp only [exec_closeLoop hs]
  refine ⟨fun h => by rw [closeLoopBody_of_range h], fun hl hidx hmode ht r hr => ⟨fun hbad => ?_,
    fun hrd hrs hc o ho => ?_⟩⟩
  · rw [closeLoopBody_of_loop hl hidx hmode ht (checkLoop_raises hr hbad) (by rw [loop?_raise, loop?_setLoop, if_pos rfl])]
    rfl
  rw [closeLoopBody_of_closable hl hidx ht hr hrs hrd hc]
  refine ⟨fun hos => ?_, fun hos hod => by rw [closeOn_of_damaged (checkOcc_of_found ho hos) ho hod],
    fun m w e hos hod hm hst hu he hrole => ?_⟩
  · rw [closeOn_of_damaged (checkOcc_of_unsound ho hos) (by rw [occ?_raise, occ?_setOcc, if_pos rfl]) rfl]
  have hset := setReads_of_sound hst o.station
  have hrefused : ∀ t st, s.closeChecks i r o (closeModeOf mode) = (t, some st) →
      Host.Outcome.next (ρ := Refusal) (φ := Fault) (s.closeOn l i r (closeModeOf mode) tag) = .next (t.refuse st) :=
    fun t st h => congrArg _ (closeOn_of_refused ho hos hod h)
  have hbase := fun t ht => closeChecks_of_base (t := t) (mode := closeModeOf mode) hm hset
    (usableEntry_of_usable hu he) hrole ht
  have hdamaged : ∀ (t : State) (j : Nat) (p : Occ), j ∈ r.members → j ≠ i → t.occ? j = some p → p.damaged = true →
      (r.members.filter (· ≠ i)).any t.occDamaged = true := fun t j p hj hji hp hpd =>
    List.any_eq_true.2 ⟨j, mem_others.2 ⟨hj, hji⟩, (occDamaged_of_found hp).trans hpd⟩
  refine ⟨?_, fun j p hj hji hp hps hothers => ?_, fun h0 hbefore hread => ?_⟩
  · rintro hsound ⟨j, p, hj, hji, hp, hpd⟩
    have hcheck : s.checkOccs (r.members.filter (· ≠ i)) = s := checkOccs_of_sound fun k hk q hq =>
      hsound k q (mem_others.1 hk).1 (mem_others.1 hk).2 hq
    exact hrefused _ _ ((hbase _ hcheck).trans (if_pos (hdamaged s j p hj hji hp hpd)))
  · have hcheck : s.checkOccs (r.members.filter (· ≠ i)) = s.failOcc j p :=
      checkOccs_of_lone_unsound (mem_others.2 ⟨hj, hji⟩) hp hps fun k hk hkj q hq =>
        hothers k q (mem_others.1 hk).1 (mem_others.1 hk).2 hkj hq
    exact hrefused _ _ ((hbase _ hcheck).trans (if_pos (hdamaged _ j _ hj hji ((occ?_failOcc j j p).trans (if_pos rfl)) rfl)))
  · have hdrift : s.closeChecks i r o (closeModeOf mode) = s.closeDrift r o m.epoch (some e) := by
      rw [closeChecks_of_others hm hset (usableEntry_of_usable hu he) hrole hbefore hread, closeModeOf, if_pos h0]
    refine ⟨fun hp => hrefused _ _ (hdrift.trans (closeDrift_of_free hp)), fun p hp => ⟨fun hps => ?_, fun hps hpd => ?_,
      fun hps hpd hreading => hrefused _ _ (hdrift.trans (closeDrift_of_no_epoch hp hps hpd hreading))⟩⟩
    · exact hrefused _ _ (hdrift.trans (closeDrift_of_damaged (checkOcc_of_unsound hp hps)
        (by rw [occ?_raise, occ?_setOcc, if_pos rfl]) rfl))
    · exact hrefused _ _ (hdrift.trans (closeDrift_of_damaged (checkOcc_of_found hp hps) hp hpd))

/-- Settles O44: the checks of the command in their order, and the job that a close passing them all places. -/
theorem closeLoop : Obligations.CloseLoop := ⟨closeLoopAccepted_claim, closeLoopRefusals_claim, closeLoopDamaged_claim⟩

end Sys2Proof.Machine
end

