-- ==== Sys2Proof/Proofs/SurveyLoops/Undo.lean ====
section
/-! SUPPORT. The undoing of a close (R123), as a rewriting of the records that a loop lists, on records and entries that
agree with their check values. -/

namespace Sys2Proof.Machine

open Sys2Proof

variable {s t u : State}

/-! ### A rewriting that frees no loop and leaves the window -/

theorem Rewrites.part_eq {own : State → Nat → Nat → Nat → Prop} {W : Nat → Occ → Occ} {N : Nat → Occ → Prop}
    {g : Window → Window} {F : List Nat} (h : Rewrites own s t W N g F) : t.part = s.part := by
  obtain ⟨x, y, a, hframe, -⟩ := h.frame
  rw [hframe]

theorem Rewrites.stations_occs {own : State → Nat → Nat → Nat → Prop} {W : Nat → Occ → Occ} {N : Nat → Occ → Prop}
    (h : Rewrites own s t W N id []) (hp : s.part ≠ .starting) : t = { s with stations := t.stations, occs := t.occs } := by
  obtain ⟨x, y, a, hframe, hscan⟩ := h.frame
  rw [hframe, hscan hp]
  simp

/-! ### One record of an undone close -/

/-- R123: an undoing takes the drift part of this record: it has one, and it is not frozen. -/
def LosesDrift (o : Occ) : Prop := o.drift.isSome = true ∧ o.state ≠ .final

/-- R123: what an undoing leaves of the record `j`, where `M` lists the records that it takes. -/
def undoneIn (M : List Nat) (j : Nat) (o : Occ) : Occ :=
  if j ∈ M ∧ o.drift.isSome = true ∧ o.state ≠ .final then withoutDrift o else o

/-- R123: an undoing that takes the records of `M` marks the station of this one. -/
def UndoNames (M : List Nat) (j : Nat) (o : Occ) : Prop := j ∈ M ∧ LosesDrift o

theorem undoneIn_of_names {M : List Nat} {j : Nat} {o : Occ} (h : UndoNames M j o) : undoneIn M j o = withoutDrift o :=
  if_pos h

theorem undoneIn_of_not_names {M : List Nat} {j : Nat} {o : Occ} (h : ¬UndoNames M j o) : undoneIn M j o = o :=
  if_neg h

theorem undoneIn_keeps (M : List Nat) (j : Nat) (o : Occ) : (undoneIn M j o).station = o.station ∧
    (undoneIn M j o).damaged = o.damaged ∧ (undoneIn M j o).sound = o.sound := by
  unfold undoneIn
  split <;> exact ⟨rfl, rfl, rfl⟩

theorem undoneIn_memberOf (M : List Nat) (j : Nat) (o : Occ) : (undoneIn M j o).memberOf = o.memberOf := by
  unfold undoneIn
  split <;> rfl

theorem not_losesDrift_withoutDrift (o : Occ) : ¬LosesDrift (withoutDrift o) := fun h => by cases h.1

/-- A record that has lost its drift part has none to lose. -/
theorem losesDrift_undoneIn (i j : Nat) (o : Occ) : LosesDrift (undoneIn [i] j o) ↔ j ≠ i ∧ LosesDrift o := by
  by_cases h : UndoNames [i] j o
  · rw [undoneIn_of_names h]
    exact iff_of_false (not_losesDrift_withoutDrift o) fun hl => hl.1 (List.mem_singleton.1 h.1)
  · rw [undoneIn_of_not_names h]
    exact ⟨fun hl => ⟨fun hji => h ⟨List.mem_singleton.2 hji, hl⟩, hl⟩, fun hl => hl.2⟩

theorem undoneIn_undoneIn (i : Nat) (M : List Nat) (j : Nat) (o : Occ) :
    undoneIn M j (undoneIn [i] j o) = undoneIn (i :: M) j o := by
  by_cases hi : UndoNames [i] j o
  · have hcons : UndoNames (i :: M) j o := ⟨List.mem_cons.2 (.inl (List.mem_singleton.1 hi.1)), hi.2⟩
    rw [undoneIn_of_names hi, undoneIn_of_names hcons]
    exact undoneIn_of_not_names fun h => not_losesDrift_withoutDrift o h.2
  · rw [undoneIn_of_not_names hi]
    by_cases hM : UndoNames M j o
    · rw [undoneIn_of_names hM, undoneIn_of_names ⟨List.mem_cons_of_mem i hM.1, hM.2⟩]
    · refine (undoneIn_of_not_names hM).trans (undoneIn_of_not_names fun h => ?_).symm
      rcases List.mem_cons.1 h.1 with hji | hjM
      · exact hi ⟨List.mem_singleton.2 hji, h.2⟩
      · exact hM ⟨hjM, h.2⟩

theorem undoNames_undoneIn (i : Nat) (M : List Nat) (j : Nat) (o : Occ) :
    UndoNames [i] j o ∨ UndoNames M j (undoneIn [i] j o) ↔ UndoNames (i :: M) j o := by
  simp only [UndoNames, losesDrift_undoneIn, List.mem_cons]
  by_cases hji : j = i <;> simp [hji]

/-- The undoing of one record, where it is not FREE. -/
def undoAt (a : State × List Nat) (i : Nat) : State × List Nat :=
  match a.1.occ? i with
  | some o => undoRecord a i o
  | none => a

theorem undoAt_of_free {is : List Nat} {i : Nat} (ho : s.occ? i = none) : undoAt (s, is) i = (s, is) := by
  simp [undoAt, ho]

theorem undoAt_of_kept {is : List Nat} {i : Nat} {o : Occ} (ho : s.occ? i = some o) (hd : o.damaged = false)
    (hl : ¬LosesDrift o) : undoAt (s, is) i = (s, is) := by
  have hundone : undone o = none := by
    rw [undone, if_neg (by simp [hd])]
    exact if_neg hl
  simp [undoAt, ho, undoRecord, hundone]

theorem undoAt_of_loses {is : List Nat} {i : Nat} {o : Occ} (ho : s.occ? i = some o) (hd : o.damaged = false)
    (hl : LosesDrift o) : undoAt (s, is) i = ((s.putOcc i (withoutDrift o)).markRecord o.station i, i :: is) := by
  have hundone : undone o = some (withoutDrift o) := by
    rw [undone, if_neg (by simp [hd])]
    exact if_pos hl
  simp [undoAt, ho, undoRecord, hundone, hd]

theorem undo_unchanged {i : Nat} (h : ∀ o, s.occ? i = some o → ¬LosesDrift o) :
    Rewrites UsableAt s s (undoneIn [i]) (UndoNames [i]) id [] := by
  have hnot : ∀ j o, s.occ? j = some o → ¬UndoNames [i] j o := fun j o ho hn =>
    h o (List.mem_singleton.1 hn.1 ▸ ho) hn.2
  refine .of_unnamed ⟨s.occs, ?_⟩ (fun _ => rfl) (fun j o ho => ⟨undoneIn_of_not_names (hnot j o ho), hnot j o ho⟩)
    (undoneIn_keeps _)
  rw [Option.map_id_fun, id_eq]

/-- R123: one record that is undone, and whether it counts as written. -/
theorem undoAt_rewrites (hp : s.part ≠ .starting) (hs : EntriesRead s) (ho : OccsRead s) (is : List Nat) (i : Nat) :
    Rewrites UsableAt s (undoAt (s, is) i).1 (undoneIn [i]) (UndoNames [i]) id [] ∧
    ∀ k, k ∈ (undoAt (s, is) i).2 ↔ k ∈ is ∨ k = i ∧ ∃ o, s.occ? i = some o ∧ LosesDrift o := by
  cases hi : s.occ? i with
  | none =>
    rw [undoAt_of_free hi]
    exact ⟨undo_unchanged fun o h => by simp [hi] at h, fun k => by simp⟩
  | some o =>
    obtain ⟨hos, hod⟩ := ho i o hi
    by_cases hl : LosesDrift o
    · have hother : ∀ (j : Nat) (p : Occ), j ≠ i → undoneIn [i] j p = p ∧ ¬UndoNames [i] j p := fun j p hj => by
        have hn : ¬UndoNames [i] j p := fun h => hj (List.mem_singleton.1 h.1)
        exact ⟨undoneIn_of_not_names hn, hn⟩
      have hname : UndoNames [i] i o := ⟨List.mem_cons_self, hl⟩
      obtain ⟨hscan, hmark⟩ := markRecord_spec (s := s.putOcc i (withoutDrift o)) hp (fun v f hf => hs v f hf) o.station i
      rw [undoAt_of_loses hi hod hl]
      refine ⟨.of_mark hi ⟨(s.putOcc i (withoutDrift o)).occs, ?_⟩ (fun j => ?_) (undoneIn_keeps _) hother hscan
        (hmark.congr fun v => ?_), fun k => ?_⟩
      · rw [Option.map_id_fun, id_eq]
        rfl
      · rw [undoneIn_of_names hname]
        exact occ?_putOcc i j _
      · exact (and_iff_right hname).symm
      · simp [hl, or_comm]
    · rw [undoAt_of_kept hi hod hl]
      refine ⟨undo_unchanged fun p hp => ?_, fun k => by simp [hl]⟩
      obtain rfl := Option.some.inj (hi.symm.trans hp)
      exact hl

/-! ### The records of an undone close, one after another -/

theorem foldl_undoAt_rewrites (M is : List Nat) (hp : s.part ≠ .starting) (hs : EntriesRead s) (ho : OccsRead s) :
    Rewrites UsableAt s (M.foldl undoAt (s, is)).1 (undoneIn M) (UndoNames M) id [] ∧
    ∀ k, k ∈ (M.foldl undoAt (s, is)).2 ↔ k ∈ is ∨ k ∈ M ∧ ∃ o, s.occ? k = some o ∧ LosesDrift o := by
  induction M generalizing s is with
  | nil =>
    refine ⟨.of_unnamed ⟨s.occs, ?_⟩ (fun _ => rfl) (fun j o _ => ?_) (undoneIn_keeps _), fun k => by simp⟩
    · rw [Option.map_id_fun, id_eq]
      rfl
    · have hn : ¬UndoNames [] j o := fun h => List.not_mem_nil h.1
      exact ⟨undoneIn_of_not_names hn, hn⟩
  | cons i M ih =>
    obtain ⟨hrw, hwritten⟩ := undoAt_rewrites hp hs ho is i
    rw [List.foldl_cons]
    generalize undoAt (s, is) i = a at hrw hwritten ⊢
    obtain ⟨t, js⟩ := a
    have hpart : t.part ≠ .starting := fun h => hp (hrw.part_eq.symm.trans h)
    obtain ⟨hrw', hwritten'⟩ := ih js hpart (hrw.entriesRead hs) (hrw.occsRead ho)
    refine ⟨(hrw.trans usableAt_stable hrw' ho.poolRead (.inl fun j o hj => (ho j o hj).1)).congr
      (fun j o => undoneIn_undoneIn i M j o) (fun j o => undoNames_undoneIn i M j o) fun _ => rfl, fun k => ?_⟩
    have hloses : (∃ o, t.occ? k = some o ∧ LosesDrift o) ↔ k ≠ i ∧ ∃ o, s.occ? k = some o ∧ LosesDrift o := by
      cases hk : s.occ? k with
      | none => simp [hrw.free k hk]
      | some o => simp [hrw.occ k o hk (ho k o hk).1, losesDrift_undoneIn]
    rw [hwritten' k, hwritten k, hloses, List.mem_cons]
    by_cases hki : k = i <;> simp [hki]

/-- R123: where the records read are sound, the members of a loop are undone one after another. -/
theorem foldl_undoMember_eq (l : Nat) (M is : List Nat) (hp : s.part ≠ .starting) (hs : EntriesRead s) (ho : OccsRead s) :
    M.foldl (undoMember l) (s, is) = M.foldl undoAt (s, is) := by
  induction M generalizing s is with
  | nil => rfl
  | cons i M ih =>
    have hread : s.checkOcc i = s := checkOcc_of_sound fun o h => (ho i o h).1
    have hstep : undoMember l (s, is) i = undoAt (s, is) i := by
      cases hi : s.occ? i with
      | none => simp [undoMember, undoAt, hread, hi]
      | some o => simp [undoMember, undoAt, hread, hi, (ho i o hi).2]
    obtain ⟨hrw, -⟩ := undoAt_rewrites hp hs ho is i
    rw [List.foldl_cons, List.foldl_cons, hstep]
    generalize undoAt (s, is) i = a at hrw ⊢
    obtain ⟨t, js⟩ := a
    exact ih js (fun h => hp (hrw.part_eq.symm.trans h)) (hrw.entriesRead hs) (hrw.occsRead ho)

/-! ### The loop of an undone close (R109, R123) -/

/-- R123: the loop that a close leaves when it is undone at an epoch. -/
def reopened (r : Loop) (epoch : Nat) : Loop :=
  { r with state := if epoch < r.deadline then .opened else .expired, closing := none, mode := none, driftHigh := false }

theorem reopen_spec {l : Nat} {r : Loop} (hheld : s.resetHeld = false) (hr : s.loop? l = some r) (hs : r.sound = true) :
    s.reopen l = { s with loops := (s.reopen l).loops, events := (s.reopen l).events } ∧
    (∀ k, (s.reopen l).loop? k = if k = l then some (reopened r s.epoch) else s.loop? k) ∧
    (s.reopen l).events = if s.epoch < r.deadline then s.events
      else { s.events with pending := s.events.pending ||| 0x0400 } := by
  have hput : ∀ k, (s.putLoop l (reopened r s.epoch)).loop? k =
      if k = l then some (reopened r s.epoch) else s.loop? k := by
    intro k
    rw [loop?_putLoop]
    simp only [reopened, ← hs]
  by_cases h : s.epoch < r.deadline
  · have hopen : s.reopen l = s.putLoop l (reopened r s.epoch) := by
      simp [State.reopen, hr, h, reopened]
    rw [hopen, if_pos h]
    exact ⟨rfl, hput, rfl⟩
  · have hexpired : s.reopen l = (s.putLoop l (reopened r s.epoch)).raise .loopExpired := by
      simp [State.reopen, hr, h, reopened]
    rw [hexpired, if_neg h]
    refine ⟨rfl, hput, ?_⟩
    show s.events.raise s.resetHeld .loopExpired = _
    rw [hheld]
    rfl

/-- R123: the undoing of the close of a CLOSING loop, on intact memory, and the records that it writes. -/
theorem undoClose_undone {l : Nat} {r : Loop} (hi : s.intact = true) (hp : s.part ≠ .starting) (hheld : s.resetHeld = false)
    (hr : s.loop? l = some r) (hc : r.state = .closing) :
    (s.undoClose l).1 = { s with
      stations := (s.undoClose l).1.stations, occs := (s.undoClose l).1.occs, loops := (s.undoClose l).1.loops
      events := (s.undoClose l).1.events } ∧
    Claims.Undone s (s.undoClose l).1 l r ∧ ∀ i, i ∈ (s.undoClose l).2 ↔ Claims.Loses s r i := by
  obtain ⟨hrs, hrd⟩ := intact_loop hi hr
  have hs : EntriesRead s := entriesRead_of_intact hi
  have ho : OccsRead s := fun _ _ h => intact_occ hi h
  obtain ⟨hrw, hwritten⟩ := foldl_undoAt_rewrites r.members [] hp hs ho
  have hundo : s.undoClose l = ((r.members.foldl undoAt (s, [])).1.reopen l, (r.members.foldl undoAt (s, [])).2) := by
    rw [← foldl_undoMember_eq l r.members [] hp hs ho]
    simp [State.undoClose, checkLoop_of_found hr hrd hrs, hr, hrd, hc]
  rw [hundo]
  generalize r.members.foldl undoAt (s, []) = a at hrw hwritten ⊢
  obtain ⟨t, is⟩ := a
  have hloops := hrw.loop?
  have hframe := hrw.stations_occs hp
  dsimp only at hframe hrw hwritten hloops ⊢
  have hmarked := hrw.marked
  have htloop : t.loop? l = some r := (hloops l).trans ((if_neg List.not_mem_nil).trans hr)
  have hepoch : t.epoch = s.epoch := by rw [hframe]; rfl
  have hevents : t.events = s.events := by rw [hframe]
  obtain ⟨hrframe, hrloop, hrevents⟩ := reopen_spec (l := l) (by rw [hframe]; exact hheld) htloop hrs
  rw [hepoch, hevents] at hrevents
  rw [hepoch] at hrloop
  have hocc : ∀ j, (t.reopen l).occ? j = t.occ? j := fun j => by rw [hrframe]; rfl
  have hstation : ∀ v, (t.reopen l).station? v = t.station? v := fun v => by rw [hrframe]; rfl
  have hnames : ∀ i o, s.occ? i = some o → (UndoNames r.members i o ↔ Claims.Loses s r i) := fun i o hio =>
    ⟨fun h => ⟨h.1, o, hio, h.2⟩, fun ⟨hm, p, hip, hl⟩ => by
      obtain rfl := Option.some.inj (hio.symm.trans hip)
      exact ⟨hm, hl⟩⟩
  have htouched : ∀ v, (∃ j o, s.occ? j = some o ∧ UndoNames r.members j o ∧ UsableAt s v o.station j) ↔
      ∃ i o, Claims.Loses s r i ∧ s.occ? i = some o ∧ s.usable o.station = some v := fun v =>
    exists_congr fun i => exists_congr fun o =>
      ⟨fun ⟨hio, hn, hv⟩ => ⟨(hnames i o hio).1 hn, hio, hv⟩, fun ⟨hl, hio, hv⟩ => ⟨hio, (hnames i o hio).2 hl, hv⟩⟩
  have hmarked := hmarked.congr htouched
  refine ⟨?_, ⟨fun i o hio => ⟨fun hl => ?_, fun hl => ?_⟩, fun i hio => (hocc i).trans (hrw.free i hio),
    fun v e he => ⟨fun h => (hstation v).trans (hmarked.on v e he h), fun h => (hstation v).trans (hmarked.off v e he h)⟩,
    fun v hv => (hstation v).trans (hmarked.free v hv), (hrloop l).trans (if_pos rfl), fun k hk => ?_, hrevents⟩,
    fun i => ?_⟩
  · rw [hrframe, hframe]
  · rw [hocc, hrw.occ i o hio (ho i o hio).1, undoneIn_of_names ((hnames i o hio).2 hl)]
    rfl
  · rw [hocc, hrw.occ i o hio (ho i o hio).1, undoneIn_of_not_names (mt (hnames i o hio).1 hl)]
  · exact (hrloop k).trans ((if_neg hk).trans ((hloops k).trans (if_neg List.not_mem_nil)))
  · simp only [hwritten i, List.not_mem_nil, false_or]
    rfl

end Sys2Proof.Machine
end

