-- ==== Sys2Proof/Proofs/SurveyLoops/CloseSteps.lean ====
section
/-! SUPPORT. The steps of a CLOSE up to its ΔV figures, and the undoing of one that cannot finish (R118 to R120, R123). -/

namespace Sys2Proof.Machine

open Sys2Proof

variable {s t : State} {f g : Flight}

/-! ### The place and the written marks of a job (R138, R141) -/

/-- R118 to R122: the places of a CLOSE past its loop check; a job that goes on to one of them has no result yet. -/
def Place.ofClose : Place → Bool
  | .inlineOpen | .inlineClosing | .deltaV | .member _ | .completion => true
  | _ => false

theorem goTo_ofClose {p : Place} (f : Flight) (h : p.ofClose = true) : f.goTo p = { f with place := p } := by
  unfold Flight.goTo Flight.settle
  by_cases hr : f.recomp = []
  · cases p <;> simp_all [Place.ofClose]
  · simp [hr]

theorem mem_noted {i k : Nat} : k ∈ Claims.noted f i ↔ k ∈ f.written ∨ k = i := by
  unfold Claims.noted
  split
  · next h => exact ⟨.inl, fun hk => hk.elim id fun hki => hki ▸ h⟩
  · rw [List.mem_cons, or_comm]

theorem marks_spec (f : Flight) (is : List Nat) :
    ∃ ws, f.marks is = { f with written := ws } ∧ ∀ k, k ∈ ws ↔ k ∈ f.written ∨ k ∈ is := by
  induction is generalizing f with
  | nil => exact ⟨f.written, rfl, fun k => by simp⟩
  | cons i is ih =>
    obtain ⟨ws, hws, hmem⟩ := ih { f with written := Claims.noted f i }
    refine ⟨ws, ?_, fun k => by rw [hmem k, mem_noted, List.mem_cons, or_assoc]⟩
    rw [Flight.marks, List.foldl_cons, mark_eq]
    exact hws

/-! ### The undoing of a close by its job (R123) -/

theorem undoUnusable_closedUnusable {l : Nat} {r : Loop} (f : Flight) (hi : s.intact = true) (hp : s.part ≠ .starting)
    (hheld : s.resetHeld = false) (hr : s.loop? l = some r) (hc : r.state = .closing) :
    Claims.ClosedUnusable s ((undoUnusable s f l).1.setFlight (undoUnusable s f l).2) f l r := by
  obtain ⟨hframe, hundone, hwritten⟩ := undoClose_undone hi hp hheld hr hc
  obtain ⟨ws, hws, hmem⟩ := marks_spec f (s.undoClose l).2
  have hundo : undoUnusable s f l = ((s.undoClose l).1, { f with written := ws, ending := some .unusable }) := by
    rw [undoUnusable, hws]
    rfl
  rw [hundo]
  refine ⟨?_, hundone, ws, ?_, fun i => (hmem i).trans (or_congr Iff.rfl (hwritten i))⟩
  · rw [hframe]
    rfl
  · rw [hframe]
    rfl

/-! ### One step of a CLOSE -/

theorem exec_closeLoopCheck_of_ok (h : Claims.At s f .loopCheck) (hb : loopCheckBody s f = .ok (t, g)) :
    exec .closeLoopCheck s = .next (t.setFlight g) := by
  obtain ⟨hworking, hflight, hplace, -, hending⟩ := h
  have hdue : atLoopCheck f = true := by simp [atLoopCheck, hplace]
  exact congrArg _ (engineStep_of_ok hworking hflight hending hdue hb)

theorem exec_inlineReduction_of_ok (h : Claims.At s f .inlineOpen ∨ Claims.At s f .inlineClosing)
    (hb : inlineBody s f = .ok (t, g)) : exec .inlineReduction s = .next (t.setFlight g) := by
  rcases h with h | h
  all_goals
    obtain ⟨hworking, hflight, hplace, -, hending⟩ := h
    have hdue : atInline f = true := by simp [atInline, hplace]
    exact congrArg _ (engineStep_of_ok hworking hflight hending hdue hb)

theorem exec_deltaVStep_of_ok (h : Claims.At s f .deltaV) (hb : deltaVBody s f = .ok (t, g)) :
    exec .deltaVStep s = .next (t.setFlight g) := by
  obtain ⟨hworking, hflight, hplace, -, hending⟩ := h
  have hdue : atDeltaV f = true := by simp [atDeltaV, hplace]
  exact congrArg _ (engineStep_of_ok hworking hflight hending hdue hb)

/-! ### The endpoints, and one that is FREE (R118, log 43) -/

theorem needOcc_of_intact (hi : s.intact = true) (i : Nat) : needOcc s i = .ok (s.occ? i) :=
  needOcc_of_read fun _ ho => intact_occ hi ho

theorem readEndpoints_of_intact (hi : s.intact = true) (r : Loop) :
    readEndpoints s r = .ok (s.occ? r.openEnd, r.closing.bind s.occ?) := by
  cases hj : r.closing <;> simp [readEndpoints, needOcc_of_intact hi, hj, bind, Except.bind]

/-- Log 43: an endpoint of the loop is FREE. -/
def State.endMissing (s : State) (r : Loop) : Prop := s.occ? r.openEnd = none ∨ ∃ j, r.closing = some j ∧ s.occ? j = none

section
variable {l : Nat} {r : Loop}

theorem onClosing_of_intact {body : Nat → Loop → StepResult} (hi : s.intact = true) (hk : f.job.kind = .close l)
    (hr : s.loop? l = some r) (hc : r.state = .closing) : onClosing s f body = body l r :=
  onClosing_of_closing hk hr (intact_loop hi hr).1 (intact_loop hi hr).2 hc

theorem loopCheckBody_of_missing (hi : s.intact = true) (hk : f.job.kind = .close l) (hr : s.loop? l = some r)
    (hc : r.state = .closing) (h : s.endMissing r) : loopCheckBody s f = .ok (undoUnusable s f l) := by
  rw [loopCheckBody, onClosing_of_intact hi hk hr hc, readEndpoints_of_intact hi, halting_ok]
  rcases h with h | ⟨j, hj, h⟩
  · simp [h, bind, Except.bind]
  · cases s.occ? r.openEnd <;> simp [hj, h, bind, Except.bind]

theorem inlineBody_of_missing (hi : s.intact = true) (hk : f.job.kind = .close l) (hr : s.loop? l = some r)
    (hc : r.state = .closing) (h : s.endMissing r) : inlineBody s f = .ok (undoUnusable s f l) := by
  rw [inlineBody, onClosing_of_intact hi hk hr hc, readEndpoints_of_intact hi, halting_ok]
  rcases h with h | ⟨j, hj, h⟩
  · simp [h, bind, Except.bind]
  · cases s.occ? r.openEnd <;> simp [hj, h, bind, Except.bind]

theorem deltaV_of_missing (hi : s.intact = true) (h : s.endMissing r) : deltaV s r = .ok (s, none) := by
  unfold deltaV
  rw [needOcc_of_intact hi]
  rcases h with h | ⟨j, hj, h⟩
  · cases hj : r.closing <;> simp [h, needOcc_of_intact hi, bind, Except.bind]
  · cases s.occ? r.openEnd <;> simp [hj, h, needOcc_of_intact hi, bind, Except.bind]

theorem deltaVBody_of_none (hi : s.intact = true) (hk : f.job.kind = .close l) (hr : s.loop? l = some r)
    (hc : r.state = .closing) (h : deltaV s r = .ok (s, none)) : deltaVBody s f = .ok (undoUnusable s f l) := by
  rw [deltaVBody, onClosing_of_intact hi hk hr hc, h]
  rfl

theorem deltaVBody_of_some {d : DriftCalc} (hi : s.intact = true) (hk : f.job.kind = .close l) (hr : s.loop? l = some r)
    (hc : r.state = .closing) (h : deltaV s r = .ok (s, some d)) :
    deltaVBody s f = .ok (s.noteRate l r d, { f with place := .member [], drift := some d }) := by
  rw [deltaVBody, onClosing_of_intact hi hk hr hc, h, ← goTo_ofClose (p := .member []) { f with drift := some d } rfl]
  rfl

/-! ### The loop check (R118) -/

theorem closeLoopCheck_claim : Claims.CloseLoopCheck := by
  intro s f l j r o p hi hat hk hr hc hj ho hp
  refine exec_closeLoopCheck_of_ok hat ?_
  rw [loopCheckBody, onClosing_of_intact hi hk hr hc, readEndpoints_of_intact hi, ho, hj, Option.bind_some, hp, halting_ok]
  have hnext : (if o.state = .pending then Place.inlineOpen
      else if p.state = .pending then .inlineClosing else .deltaV).ofClose = true := by
    by_cases hop : o.state = .pending <;> by_cases hpp : p.state = .pending <;> simp [hop, hpp, Place.ofClose]
  exact congrArg (fun x => Except.ok (s, x)) (goTo_ofClose f hnext)

/-! ### The inline reduction (R85, R118) -/

/-- R85, R26: what a reduction writes, on intact memory. -/
theorem reduceRecord_of_intact (hi : s.intact = true) (hp : s.part ≠ .starting) {i w : Nat} {o : Occ} {m : Reading}
    {e : Station} (ho : s.occ? i = some o) (hm : o.reading = some m) (hu : s.usable o.station = some w)
    (he : s.station? w = some e) : ∃ x a, reduceRecord s i o = .ok ({ s with stations := x, occs := a }, true) ∧
      slotGet a i = some (Claims.reduced s o m e) ∧ (∀ j, j ≠ i → slotGet a j = s.occ? j) ∧
      Claims.Marks s { s with stations := x, occs := a } (some w) := by
  obtain ⟨hs, -⟩ := intact_occ hi ho
  obtain ⟨x, a, hframe, hocc, hmarks⟩ := reduce_writes (i := i) (q := Claims.reduced s o m e) hp
    (fun v y hy => (intact_station hi hy).1) hs
  have hread := reduceRecord_of_inputsRead (i := i) hs (inputsRead_of_intact hi o.station e) hu he hm
  rw [hframe] at hocc hmarks hread
  exact ⟨x, a, hread, (hocc i).trans (if_pos rfl), fun j hj => (hocc j).trans (if_neg hj), hmarks⟩

theorem reduceRecord_of_intact_unusable (hi : s.intact = true) {i : Nat} {o : Occ} (ho : s.occ? i = some o)
    (hu : s.usable o.station = none) : reduceRecord s i o = .ok (s, false) :=
  reduceRecord_of_unusable (intact_occ hi ho).1 (intact_constants hi).1 (intact_constants hi).2 (setReads_of_intact hi _) hu

theorem inlineBody_of_open {j : Nat} {o p : Occ} (hi : s.intact = true) (hk : f.job.kind = .close l)
    (hr : s.loop? l = some r) (hc : r.state = .closing) (hj : r.closing = some j) (ho : s.occ? r.openEnd = some o)
    (hp : s.occ? j = some p) (hplace : f.place = .inlineOpen) : inlineBody s f =
      inlineOne s f l r.openEnd o (if r.openEnd ≠ j ∧ p.state = .pending then .inlineClosing else .deltaV) := by
  have hnext : (if r.openEnd = j then Place.deltaV else afterOpen (some p)) =
      if r.openEnd ≠ j ∧ p.state = .pending then .inlineClosing else .deltaV := by
    by_cases hij : r.openEnd = j <;> simp [hij, afterOpen]
  rw [← hnext, inlineBody, onClosing_of_intact hi hk hr hc, readEndpoints_of_intact hi, ho, hj, Option.bind_some, hp,
    halting_ok]
  exact if_pos hplace

theorem inlineBody_of_closing {j : Nat} {o p : Occ} (hi : s.intact = true) (hk : f.job.kind = .close l)
    (hr : s.loop? l = some r) (hc : r.state = .closing) (hj : r.closing = some j) (ho : s.occ? r.openEnd = some o)
    (hp : s.occ? j = some p) (hplace : f.place = .inlineClosing) : inlineBody s f = inlineOne s f l j p .deltaV := by
  rw [inlineBody, onClosing_of_intact hi hk hr hc, readEndpoints_of_intact hi, ho, hj, Option.bind_some, hp, halting_ok]
  exact if_neg (by simp [hplace])

theorem inlineReduction_claim : Claims.InlineReduction := by
  intro s f l i j r o p q next hi hp hheld hk hr hc hj ho hpj hq hcase
  obtain ⟨hat, hqi, hnext, hbody⟩ : (Claims.At s f .inlineOpen ∨ Claims.At s f .inlineClosing) ∧ s.occ? i = some q ∧
      next.ofClose = true ∧ inlineBody s f = inlineOne s f l i q next := by
    rcases hcase with ⟨hat, rfl, rfl, rfl⟩ | ⟨hat, rfl, rfl, rfl⟩
    · refine ⟨.inl hat, ho, ?_, inlineBody_of_open hi hk hr hc hj ho hpj (place_of_at hat)⟩
      split <;> rfl
    · exact ⟨.inr hat, hpj, rfl, inlineBody_of_closing hi hk hr hc hj ho hpj (place_of_at hat)⟩
  refine ⟨fun m w e hm hu he => ?_, fun hu => ⟨_, exec_inlineReduction_of_ok hat ?_,
    undoUnusable_closedUnusable f hi hp hheld hr hc⟩⟩
  · obtain ⟨x, a, hread, hocc, hother, hmarks⟩ := reduceRecord_of_intact hi hp hqi hm hu he
    have hb : inlineBody s f = .ok ({ s with stations := x, occs := a },
        { f with place := next, written := Claims.noted f i }) := by
      rw [hbody, inlineOne, hread, mark_eq, goTo_ofClose _ hnext]
      rfl
    exact ⟨_, exec_inlineReduction_of_ok hat hb, rfl, hocc, hother, hmarks, rfl⟩
  · rw [hbody, inlineOne, reduceRecord_of_intact_unusable hi hqi hu]
    rfl

/-! ### The figures of a ΔV step (R119, R120) -/

theorem endValue_of_results {i : Nat} {o : Occ} {v : Results} (h : o.results = some v) : endValue i o = v.v := by
  simp [endValue, h]

theorem endEpoch_of_reading {o : Occ} {m : Reading} (h : o.reading = some m) : endEpoch o = m.epoch := by
  simp [endEpoch, h]

/-- The figures that the model fixes are those of R119 and R120, where the second reference is read when the two
stations need it. -/
theorem figures_driftCalc {mode : CloseMode} {i j : Nat} {o p : Occ} {ro rp : Results} {mo mp : Reading} {rc : Option Nat}
    (ho : o.results = some ro) (hp : p.results = some rp) (hmo : o.reading = some mo) (hmp : p.reading = some mp)
    (hrc : mode = .drift → o.station ≠ p.station → rc = Claims.reference s p.station) :
    Claims.Figures s mode o p ro rp mo mp
      (driftCalc mode i j o p (Claims.reference s o.station) rc s.constants.nums.driftLimit) := by
  have hdeltaV : (driftCalc mode i j o p (Claims.reference s o.station) rc s.constants.nums.driftLimit).deltaV =
      deltaVExact mode (o.station = p.station) ro.v rp.v ((Claims.reference s o.station).getD 0 : Nat) (rc.getD 0 : Nat) := by
    simp [driftCalc, endValue_of_results ho, endValue_of_results hp]
  refine ⟨rfl, endEpoch_of_reading hmo, endEpoch_of_reading hmp, endValue_of_results ho, rfl, fun h => ?_, fun h hst => ?_,
    fun h hst a b ha hb => ?_, fun h => ?_, rfl⟩
  · subst h
    exact ⟨rfl, rfl⟩
  · rw [hdeltaV, h, hst]
    simp [deltaVExact]
  · rw [hdeltaV, h, hrc h hst, ha, hb]
    simp [deltaVExact, hst]
  · subst h
    rw [← endEpoch_of_reading hmo, ← endEpoch_of_reading hmp]
    rfl

/-- R119: the ΔV step on intact memory has its figures where the two stations are tied, and none where they are not. -/
theorem deltaV_of_intact (hi : s.intact = true) {j : Nat} {o p : Occ} {ro rp : Results} {mo mp : Reading} {mode : CloseMode}
    (hends : EndsRead s r j o p mode) (ho : o.results = some ro) (hp : p.results = some rp) (hmo : o.reading = some mo)
    (hmp : p.reading = some mp) :
    (Claims.Tied s mode o p → ∃ d, deltaV s r = .ok (s, some d) ∧ Claims.Figures s mode o p ro rp mo mp d) ∧
    (¬Claims.Tied s mode o p → deltaV s r = .ok (s, none)) := by
  obtain ⟨hcs, hcd⟩ := intact_constants hi
  rw [deltaV_of_endsRead hends]
  by_cases htie : mode = .drift ∧ o.station ≠ p.station
  · have htied : Claims.Tied s mode o p ↔ ((Claims.reference s o.station).isSome &&
        (Claims.reference s p.station).isSome) = true := by
      rw [Bool.and_eq_true]
      exact ⟨fun h => h htie.1 htie.2, fun h _ _ => h⟩
    simp only [referenceOf_of_setReads (setReads_of_intact hi _), (needsTie_iff mode o p).2 htie, if_true,
      needConstants_of_sound hcs hcd, htied, bind, Except.bind]
    refine ⟨fun h => ?_, fun h => ?_⟩
    · rw [h]
      exact ⟨_, rfl, figures_driftCalc ho hp hmo hmp fun _ _ => rfl⟩
    · rw [Bool.eq_false_iff.2 h]
      rfl
  · have htied : Claims.Tied s mode o p := fun h1 h2 => absurd ⟨h1, h2⟩ htie
    have hno : needsTie mode o p = false := Bool.eq_false_iff.2 (mt (needsTie_iff mode o p).1 htie)
    simp only [referenceOf_of_setReads (setReads_of_intact hi _), hno, needConstants_of_sound hcs hcd, bind, Except.bind]
    exact ⟨fun _ => ⟨_, rfl, figures_driftCalc ho hp hmo hmp fun h1 h2 => absurd ⟨h1, h2⟩ htie⟩, fun h => absurd htied h⟩

/-- R120: the flag of the loop, and the event where it is set. -/
theorem noteRate_spec (hheld : s.resetHeld = false) (hs : r.sound = true) (d : DriftCalc) :
    s.noteRate l r d = { s with loops := (s.noteRate l r d).loops, events := (s.noteRate l r d).events } ∧
    (∀ k, (s.noteRate l r d).loop? k = if k = l then some { r with driftHigh := d.high } else s.loop? k) ∧
    (s.noteRate l r d).events =
      if d.high then { s.events with pending := s.events.pending ||| 0x0800 } else s.events := by
  have hput : ∀ k, (s.putLoop l { r with driftHigh := d.high }).loop? k =
      if k = l then some { r with driftHigh := d.high } else s.loop? k := by
    intro k
    rw [loop?_putLoop]
    simp only [← hs]
  by_cases h : d.high = true
  · have hnote : s.noteRate l r d = (s.putLoop l { r with driftHigh := d.high }).raise .driftHigh := if_pos h
    rw [hnote, if_pos h]
    refine ⟨rfl, hput, ?_⟩
    show s.events.raise s.resetHeld .driftHigh = _
    rw [hheld]
    rfl
  · have hnote : s.noteRate l r d = s.putLoop l { r with driftHigh := d.high } := if_neg h
    rw [hnote, if_neg h]
    exact ⟨rfl, hput, rfl⟩

theorem endsRead_of_intact (hi : s.intact = true) {j : Nat} {o p : Occ} {mode : CloseMode} (hj : r.closing = some j)
    (hmode : r.mode = some mode) (ho : s.occ? r.openEnd = some o) (hp : s.occ? j = some p) : EndsRead s r j o p mode :=
  ⟨⟨ho, intact_occ hi ho⟩, ⟨hj, hp, intact_occ hi hp⟩, hmode⟩

theorem deltaVStep_claim : Claims.DeltaVStep := by
  intro s f l j r o p ro rp mo mp mode hi hpart hheld hat hk hr hc hj hmode ho hp hro hrp hmo hmp _
  obtain ⟨htied, hloose⟩ := deltaV_of_intact hi (endsRead_of_intact hi hj hmode ho hp) hro hrp hmo hmp
  refine ⟨fun h => ?_, fun h => ⟨_, exec_deltaVStep_of_ok hat (deltaVBody_of_none hi hk hr hc (hloose h)),
    undoUnusable_closedUnusable f hi hpart hheld hr hc⟩⟩
  obtain ⟨d, hd, hfigures⟩ := htied h
  obtain ⟨hframe, hloop, hevents⟩ := noteRate_spec (l := l) hheld (intact_loop hi hr).1 d
  refine ⟨_, d, exec_deltaVStep_of_ok hat (deltaVBody_of_some hi hk hr hc hd), ?_, hfigures, ?_, (hloop l).trans (if_pos rfl),
    fun k hk => (hloop k).trans (if_neg hk), hevents⟩
  · rw [hframe]
    rfl
  · rw [hframe]
    rfl

end

end Sys2Proof.Machine
end

