-- ==== Sys2Proof/Proofs/SurveyLoops/MemberSteps.lean ====
section
/-! SUPPORT. The member steps of a CLOSE, the drift part that they write, and the endpoints and members that a close finds
FREE (R118, R121, log 43). -/

namespace Sys2Proof.Machine

open Sys2Proof

variable {s t u : State} {f g : Flight}

/-! ### The changed mark of one entry (R26) -/

theorem entriesMarked_of_marks {way : Option Nat} (h : Claims.Marks s t way) : EntriesMarked s t fun v => way = some v := by
  refine ⟨fun v e he hv => ?_, fun v e he hv => ?_, fun v he => ?_⟩
  · rw [h v, he, Option.map_some, if_pos hv]
  · rw [h v, he, Option.map_some, if_neg hv]
  · rw [h v, he, Option.map_none]

theorem marks_none (h : t.stations = s.stations) : Claims.Marks s t none := fun v => by
  have hv : t.station? v = s.station? v := congrArg (slotGet · v) h
  simp [hv]

/-- A mark set twice is set once. -/
theorem marks_trans_self {way : Option Nat} (h : Claims.Marks s t way) (k : Claims.Marks t u way) :
    Claims.Marks s u way := fun v => by
  rw [k v, h v]
  by_cases hv : way = some v
  · cases s.station? v <;> simp [hv]
  · cases s.station? v <;> simp [hv]

/-! ### The members in list order (R121) -/

theorem nextMember_eq_none {r : Loop} {walked : List Nat} : nextMember r walked = none ↔ ∀ x ∈ r.members, x ∈ walked := by
  simp [nextMember]

/-- Past the member `i` no member is left where the walk has taken those after it. -/
theorem nextMember_eq_none_of_split {r : Loop} {walked pre post : List Nat} {i : Nat} (hm : r.members = pre ++ i :: post)
    (hpre : ∀ x ∈ pre, x ∈ walked) : nextMember r (walked ++ [i]) = none ↔ ∀ x ∈ post, x ∈ walked ++ [i] := by
  rw [nextMember_eq_none, hm]
  refine ⟨fun h x hx => h x (by simp [hx]), fun h x hx => ?_⟩
  rcases List.mem_append.1 hx with hx | hx
  · exact List.mem_append_left _ (hpre x hx)
  rcases List.mem_cons.1 hx with rfl | hx
  · simp
  · exact h x hx

theorem afterMember_of_split {r : Loop} {walked pre post : List Nat} {i : Nat} (hm : r.members = pre ++ i :: post)
    (hpre : ∀ x ∈ pre, x ∈ walked) : afterMember r (walked ++ [i]) =
      if ∀ x ∈ post, x ∈ walked ++ [i] then .completion else .member (walked ++ [i]) := by
  have hnone := nextMember_eq_none_of_split hm hpre
  unfold afterMember
  by_cases h : ∀ x ∈ post, x ∈ walked ++ [i]
  · rw [if_pos h, hnone.2 h]
    rfl
  · rw [if_neg h, if_pos (Option.isSome_iff_ne_none.2 (mt hnone.1 h))]

theorem afterMember_ofClose (r : Loop) (walked : List Nat) : (afterMember r walked).ofClose = true := by
  unfold afterMember
  split <;> rfl

/-! ### The drift part as it is written (R121) -/

theorem driftWritten_claim : Claims.DriftWritten := by
  intro o d v t
  have hexact : correctionExact d t =
      if d.mode = .noDrift then 0 else -(roundDiv (d.deltaV * ((t : Int) - d.tOpen)) (d.tClose - d.tOpen)) := by
    unfold correctionExact
    cases d.mode <;> rfl
  simp only [driftedOcc, driftPartOf, hexact, saturates, saturate_eq]

theorem roundDiv_mul_self (a : Int) {b : Nat} (hb : 0 < b) : roundDiv (a * b) b = a := by
  obtain ⟨hnear, -⟩ := rounding_claim (a * b) b hb
  rw [← sub_mul, Int.natAbs_mul, Int.natAbs_natCast] at hnear
  have hzero : (roundDiv (a * b) b - a).natAbs = 0 := by
    by_contra hne
    have hone : 1 * b ≤ (roundDiv (a * b) b - a).natAbs * b := Nat.mul_le_mul_right b (Nat.pos_of_ne_zero hne)
    omega
  omega

theorem saturate_of_natAbs_le {z : Int} (h : z.natAbs ≤ 2147483647) : saturate z = z :=
  not_not.1 fun hne => absurd ((saturate_ne_iff z).1 hne) (by omega)

theorem driftAtClosing_claim : Claims.DriftAtClosing := by
  intro d vClose hmode hlt hdelta hbound hopen
  have hspan : ((d.tClose : Int) - d.tOpen) = ((d.tClose - d.tOpen : Nat) : Int) := by omega
  have hexact : correctionExact d d.tClose = -d.deltaV := by
    simp only [correctionExact, hmode]
    rw [hspan, roundDiv_mul_self _ (by omega)]
  have hcorrection : saturate (correctionExact d d.tClose) = -d.deltaV := by
    rw [hexact]
    exact saturate_of_natAbs_le (by rwa [Int.natAbs_neg])
  refine ⟨hcorrection, ?_⟩
  show saturate (vClose + saturate (correctionExact d d.tClose)) = d.vOpen
  rw [hcorrection, show vClose + -d.deltaV = d.vOpen by omega]
  exact saturate_of_natAbs_le hopen

/-- R121, R26: what the writing of a drift part changes, where the entries agree with their check values. -/
theorem writeDrift_of_read (hp : s.part ≠ .starting) (hs : EntriesRead s) {i : Nat} {o : Occ} (d : DriftCalc)
    (ho : o.sound = true) : ∃ x a, writeDrift s i o d = .ok { s with stations := x, occs := a } ∧
      slotGet a i = some (driftedOcc o d (endValue i o) (endEpoch o)) ∧ (∀ j, j ≠ i → slotGet a j = s.occ? j) ∧
      Claims.Marks s { s with stations := x, occs := a } (s.usable o.station) := by
  have hset : Claims.SetReads (s.putOcc i (driftedOcc o d (endValue i o) (endEpoch o))) o.station :=
    fun v e _ he => (hs v e he).1
  have hlook : engineLookup (s.putOcc i (driftedOcc o d (endValue i o) (endEpoch o))) o.station =
      .ok (s.putOcc i (driftedOcc o d (endValue i o) (endEpoch o)), s.usable o.station) := engineLookup_of_setReads hset
  have hsame : { driftedOcc o d (endValue i o) (endEpoch o) with sound := true } =
      driftedOcc o d (endValue i o) (endEpoch o) := by rw [← ho]; rfl
  unfold writeDrift markMember
  rw [hlook]
  cases hu : s.usable o.station with
  | none =>
    have hocc : ∀ j, (s.putOcc i (driftedOcc o d (endValue i o) (endEpoch o))).occ? j =
        if j = i then some (driftedOcc o d (endValue i o) (endEpoch o)) else s.occ? j := fun j => by
      rw [occ?_putOcc, hsame]
    exact ⟨_, _, rfl, (hocc i).trans (if_pos rfl), fun j hj => (hocc j).trans (if_neg hj), marks_none rfl⟩
  | some w =>
    obtain ⟨x, a, hframe, hocc, hmarks⟩ := reduce_writes (i := i) (w := w)
      (q := driftedOcc o d (endValue i o) (endEpoch o)) hp (fun v e he => (hs v e he).1) ho
    rw [hframe] at hocc hmarks
    exact ⟨x, a, congrArg Except.ok hframe, (hocc i).trans (if_pos rfl), fun j hj => (hocc j).trans (if_neg hj), hmarks⟩

/-! ### One member of a CLOSE (R121) -/

section
variable {l i : Nat} {o : Occ} {d : DriftCalc} {next : Place}

theorem closeMember_of_final (h : o.state = .final) : closeMember s f l i o d next = .ok (s, f.goTo next) :=
  if_pos (by simp [keepsDrift, h])

theorem closeMember_of_reduced (ho : s.occ? i = some o) (h : o.state = .reduced) (hw : writeDrift s i o d = .ok t) :
    closeMember s f l i o d next = .ok (t, (f.mark i).goTo next) := by
  simp [closeMember, keepsDrift, h, ho, hw, halting_ok, bind, Except.bind]

theorem closeMember_of_pending {p : Occ} (h : o.state = .pending) (hr : reduceRecord s i o = .ok (t, true))
    (hp : t.occ? i = some p) (hw : writeDrift t i p d = .ok u) :
    closeMember s f l i o d next = .ok (u, (f.mark i).goTo next) := by
  simp [closeMember, keepsDrift, h, hr, hp, hw, halting_ok, bind, Except.bind]

theorem closeMember_of_not_made (h : o.state = .pending) (hr : reduceRecord s i o = .ok (s, false)) :
    closeMember s f l i o d next = .ok (undoUnusable s f l) := by
  simp [closeMember, keepsDrift, h, hr, halting_ok, bind, Except.bind]

theorem exec_memberStep_of_ok {walked : List Nat} (h : Claims.At s f (.member walked)) (hb : memberBody s f = .ok (t, g)) :
    exec .memberStep s = .next (t.setFlight g) := by
  obtain ⟨hworking, hflight, hplace, -, hending⟩ := h
  have hdue : atMember f = true := by simp [atMember, hplace]
  exact congrArg _ (engineStep_of_ok hworking hflight hending hdue hb)

theorem memberBody_of_walked {r : Loop} {walked : List Nat} (hi : s.intact = true) (hk : f.job.kind = .close l)
    (hr : s.loop? l = some r) (hc : r.state = .closing) (hplace : f.place = .member walked) (hdrift : f.drift = some d)
    (h : ∀ x ∈ r.members, x ∈ walked) : memberBody s f = .ok (s, f.goTo .completion) := by
  rw [memberBody, onClosing_of_intact hi hk hr hc]
  simp only [hplace, hdrift, nextMember_eq_none.2 h]

/-- R121: the member step on intact memory, at its next member. -/
theorem memberBody_of_split {r : Loop} {walked pre post : List Nat} (hi : s.intact = true) (hk : f.job.kind = .close l)
    (hr : s.loop? l = some r) (hc : r.state = .closing) (hplace : f.place = .member walked) (hdrift : f.drift = some d)
    (hm : r.members = pre ++ i :: post) (hpre : ∀ x ∈ pre, x ∈ walked) (hw : i ∉ walked) : memberBody s f =
      match s.occ? i with
      | some o => closeMember s f l i o d (afterMember r (walked ++ [i]))
      | none => .ok (s, f.goTo (afterMember r (walked ++ [i]))) := by
  rw [memberBody_of_next hk hr (intact_loop hi hr).1 (intact_loop hi hr).2 hc hplace hdrift hm hpre hw,
    needOcc_of_intact hi] <;> rfl

/-- R85, R121: a PENDING member is reduced, and its drift part is written on the record as reduced. -/
theorem pendingMember_writes (hi : s.intact = true) (hp : s.part ≠ .starting) (d : DriftCalc) {w : Nat} {m : Reading}
    {e : Station} (ho : s.occ? i = some o) (hm : o.reading = some m) (hu : s.usable o.station = some w)
    (he : s.station? w = some e) : ∃ t v x a, reduceRecord s i o = .ok (t, true) ∧
      t.occ? i = some (Claims.reduced s o m e) ∧ (Claims.reduced s o m e).results = some v ∧
      writeDrift t i (Claims.reduced s o m e) d = .ok { s with stations := x, occs := a } ∧
      slotGet a i = some (driftedOcc (Claims.reduced s o m e) d v.v m.epoch) ∧ (∀ j, j ≠ i → slotGet a j = s.occ? j) ∧
      Claims.Marks s { s with stations := x, occs := a } (some w) := by
  obtain ⟨x, a, hread, hocc, hother, hmarks⟩ := reduceRecord_of_intact hi hp ho hm hu he
  have hmarked := entriesMarked_of_marks hmarks
  have hs := hmarked.entriesRead (entriesRead_of_intact hi)
  obtain ⟨y, b, hwrite, hocc', hother', hmarks'⟩ := writeDrift_of_read (s := { s with stations := x, occs := a }) hp hs
    (i := i) (o := Claims.reduced s o m e) d (intact_occ hi ho).1
  have husable : State.usable { s with stations := x, occs := a } (Claims.reduced s o m e).station = some w :=
    (hmarked.usable o.station).trans hu
  have hresults : (Claims.reduced s o m e).results = some _ := reducedOcc_results _ _ _ _ _ _
  rw [husable] at hmarks'
  rw [endValue_of_results hresults, endEpoch_of_reading (show (Claims.reduced s o m e).reading = some m from hm)] at hocc'
  exact ⟨_, _, y, b, hread, hocc, hresults, hwrite, hocc', fun j hj => (hother' j hj).trans (hother j hj),
    marks_trans_self hmarks hmarks'⟩

end

theorem memberStep_claim : Claims.MemberStep := by
  intro s f l walked r d hi hp hheld hat hk hdrift hr hc
  have hplace := place_of_at hat
  refine ⟨fun h => ?_, fun pre i post o hm hpre hw ho => ?_⟩
  · rw [← goTo_ofClose (p := .completion) f rfl]
    exact exec_memberStep_of_ok hat (memberBody_of_walked hi hk hr hc hplace hdrift h)
  have hbody := memberBody_of_split hi hk hr hc hplace hdrift hm hpre hw
  have hnext := afterMember_ofClose r (walked ++ [i])
  rw [ho] at hbody
  rw [← afterMember_of_split hm hpre]
  refine ⟨fun v m hst hv hm => ?_, fun m w e hst hm hu he => ?_, fun hst hu => ?_, fun hst => ?_⟩
  · obtain ⟨x, a, hwrite, hocc, hother, hmarks⟩ := writeDrift_of_read (i := i) hp (entriesRead_of_intact hi) d
      (intact_occ hi ho).1
    rw [endValue_of_results hv, endEpoch_of_reading hm] at hocc
    have hb := hbody.trans (closeMember_of_reduced ho hst hwrite)
    rw [mark_eq, goTo_ofClose _ hnext] at hb
    exact ⟨_, exec_memberStep_of_ok hat hb, rfl, hocc, hother, hmarks, rfl⟩
  · obtain ⟨t, v, x, a, hread, hfound, hv, hwrite, hocc, hother, hmarks⟩ := pendingMember_writes hi hp d ho hm hu he
    have hb := hbody.trans (closeMember_of_pending hst hread hfound hwrite)
    rw [mark_eq, goTo_ofClose _ hnext] at hb
    exact ⟨_, v, exec_memberStep_of_ok hat hb, rfl, hv, hocc, hother, hmarks, rfl⟩
  · exact ⟨_, exec_memberStep_of_ok hat
      (hbody.trans (closeMember_of_not_made hst (reduceRecord_of_intact_unusable hi ho hu))),
      undoUnusable_closedUnusable f hi hp hheld hr hc⟩
  · rw [← goTo_ofClose f hnext]
    exact exec_memberStep_of_ok hat (hbody.trans (closeMember_of_final hst))

/-! ### A close that finds an endpoint or a member FREE (log 43) -/

theorem closeFindsFree_claim : Claims.CloseFindsFree := by
  intro s f l r hi hp hheld hk hr hc
  refine ⟨fun c h hmissing => ?_, fun walked d pre i post hat hdrift hm hpre hw ho => ?_⟩
  · have hundone := undoUnusable_closedUnusable f hi hp hheld hr hc
    rcases h with ⟨rfl, hat⟩ | ⟨rfl, hat⟩ | ⟨rfl, hat⟩
    · exact ⟨_, exec_closeLoopCheck_of_ok hat (loopCheckBody_of_missing hi hk hr hc hmissing), hundone⟩
    · exact ⟨_, exec_inlineReduction_of_ok hat (inlineBody_of_missing hi hk hr hc hmissing), hundone⟩
    · exact ⟨_, exec_deltaVStep_of_ok hat (deltaVBody_of_none hi hk hr hc (deltaV_of_missing hi hmissing)), hundone⟩
  · have hbody := memberBody_of_split hi hk hr hc (place_of_at hat) hdrift hm hpre hw
    rw [ho] at hbody
    rw [← afterMember_of_split hm hpre, ← goTo_ofClose f (afterMember_ofClose r _)]
    exact exec_memberStep_of_ok hat hbody

/-- Settles O50: each step of a CLOSE by its reads on intact memory, the undoing by the records that it writes, and the
drift part by its rounded quotient. -/
theorem closeSteps : Obligations.CloseSteps := ⟨closeLoopCheck_claim, inlineReduction_claim, deltaVStep_claim,
  memberStep_claim, closeFindsFree_claim, driftWritten_claim, driftAtClosing_claim⟩

end Sys2Proof.Machine
end

