-- ==== Sys2Proof/Proofs/SurveyLoops/Recomputation.lean ====
section
/-! SUPPORT. The recomputation of a CLOSED loop where no read fails (R131, R146, R147). -/

namespace Sys2Proof.Machine

open Sys2Proof

variable {s t : State} {f g : Flight} {l : Nat} {ls : List Nat} {r : Loop}

/-! ### The end of a recomputation (R131, R147) -/

theorem settle_eq (he : f.ending = none) :
    f.settle = { f with ending := if f.recomp = [] then Claims.ended f else none } := by
  obtain ⟨job, place, recomp, walk, drift, unusable, ending, written⟩ := f
  obtain rfl : ending = none := he
  unfold Flight.settle Claims.ended Flight.walkResult
  by_cases hr : recomp = []
  · cases place with
    | way k => by_cases hk : k < 256 <;> simp [hr, hk, Config.ways]
    | index k => by_cases hk : k < 512 <;> simp [hr, hk, Config.poolSize]
    | _ => simp [hr]
  · simp [hr]

theorem popped_pop (hr : f.recomp = l :: ls) (he : f.ending = none) : Claims.Popped f f.pop ls := by
  have hsettle := settle_eq (f := { f with recomp := f.recomp.drop 1, walk := none, drift := none }) he
  rw [hr] at hsettle
  rw [Flight.pop, hr]
  exact hsettle

/-- R131: after the last member the loop holds the figures, and before it the job goes on with the walk. -/
theorem nextRecompute_spec {walked pre post : List Nat} {i : Nat} {d : DriftCalc} (hm : r.members = pre ++ i :: post)
    (hpre : ∀ x ∈ pre, x ∈ walked) (hrecomp : f.recomp = l :: ls) (he : f.ending = none) (hdrift : f.drift = some d)
    (hr : s.loop? l = some r) (hs : r.sound = true) :
    ∃ x g, nextRecompute s f l r d (walked ++ [i]) = ({ s with loops := x }, g) ∧
      (∀ k, k ≠ l → slotGet x k = s.loop? k) ∧
      (if ∀ x ∈ post, x ∈ walked ++ [i] then
        Claims.Popped f g ls ∧ slotGet x l = some { r with
          deltaV := some (max (-2147483647) (min 2147483647 d.deltaV)),
          rate := some (max (-2147483647) (min 2147483647 d.rate)) }
       else g = { f with walk := some (walked ++ [i]) } ∧ x = s.loops) := by
  have hnone := nextMember_eq_none_of_split hm hpre
  by_cases h : ∀ x ∈ post, x ∈ walked ++ [i]
  · have hput : ∀ k, (s.putLoop l (storeDrift r d)).loop? k = if k = l then some (storeDrift r d) else s.loop? k := by
      intro k
      rw [loop?_putLoop]
      simp only [storeDrift, ← hs]
    refine ⟨(s.putLoop l (storeDrift r d)).loops, f.pop, ?_, fun k hk => (hput k).trans (if_neg hk), ?_⟩
    · simp only [nextRecompute, hnone.2 h, finishRecompute, hr]
      rfl
    · rw [if_pos h]
      exact ⟨popped_pop hrecomp he, (hput l).trans (if_pos rfl)⟩
  · refine ⟨s.loops, { f with walk := some (walked ++ [i]) }, ?_, fun k _ => rfl, ?_⟩
    · rw [nextRecompute, if_pos (Option.isSome_iff_ne_none.2 (mt hnone.1 h)), ← hdrift]
    · rw [if_neg h]
      exact ⟨rfl, rfl⟩

/-! ### The ΔV step (R131, R146) -/

section
variable (hw : s.engine.state = .working) (hf : s.engine.flight = some f) (hrecomp : f.recomp = l :: ls)
  (hending : f.ending = none)
include hw hf hrecomp hending

theorem exec_recomputeDeltaVStep_of_ok (hwalk : f.walk = none) (hb : recomputeDeltaVBody s f = .ok (t, g)) :
    exec .recomputeDeltaVStep s = .next (t.setFlight g) := by
  have hdue : atRecomputeDeltaV f = true := by simp [atRecomputeDeltaV, hrecomp, hwalk]
  exact congrArg _ (engineStep_of_ok hw hf hending hdue hb)

theorem exec_recomputeMemberStep_of_ok {walked : List Nat} (hwalk : f.walk = some walked)
    (hb : recomputeMemberBody s f = .ok (t, g)) : exec .recomputeMemberStep s = .next (t.setFlight g) := by
  have hdue : atRecomputeMember f = true := by simp [atRecomputeMember, hrecomp, hwalk]
  exact congrArg _ (engineStep_of_ok hw hf hending hdue hb)

end

theorem onClosed_of_intact {body : Nat → Loop → StepResult} (hi : s.intact = true) (hrecomp : f.recomp = l :: ls)
    (hr : s.loop? l = some r) (hc : r.state = .closed) : onClosed s f body = body l r :=
  onClosed_of_closed hrecomp hr (intact_loop hi hr).1 (intact_loop hi hr).2 hc

theorem onClosed_of_not_closed {body : Nat → Loop → StepResult} (hi : s.intact = true) (hrecomp : f.recomp = l :: ls)
    (h : s.loop? l = none ∨ ∃ r, s.loop? l = some r ∧ r.state ≠ .closed) : onClosed s f body = .ok (s, f.pop) := by
  rcases h with h | ⟨r, h, hc⟩
  · simp [onClosed, hrecomp, needLoop, h, halting_ok, bind, Except.bind]
  · obtain ⟨hs, hd⟩ := intact_loop hi h
    simp [onClosed, hrecomp, needLoop_of_sound h hs hd, hc, halting_ok, bind, Except.bind]

theorem recomputeDeltaVBody_of_none (hi : s.intact = true) (hrecomp : f.recomp = l :: ls) (hr : s.loop? l = some r)
    (hc : r.state = .closed) (h : deltaV s r = .ok (s, none)) :
    recomputeDeltaVBody s f = .ok (s, { f with unusable := true }.pop) := by
  rw [recomputeDeltaVBody, onClosed_of_intact hi hrecomp hr hc, h]
  rfl

theorem recomputeDeltaVBody_of_some {d : DriftCalc} (hi : s.intact = true) (hrecomp : f.recomp = l :: ls)
    (hr : s.loop? l = some r) (hc : r.state = .closed) (hm : r.members ≠ []) (h : deltaV s r = .ok (s, some d)) :
    recomputeDeltaVBody s f = .ok (s.noteRate l r d, { f with walk := some [], drift := some d }) := by
  have hnext : (nextMember r []).isSome = true := by
    obtain ⟨i, is, hm⟩ := List.exists_cons_of_ne_nil hm
    simp [nextMember, hm]
  rw [recomputeDeltaVBody, onClosed_of_intact hi hrecomp hr hc, h]
  exact congrArg Except.ok (if_pos hnext)

theorem recomputeDeltaV_claim : Claims.RecomputeDeltaV := by
  intro s f l ls hi hheld hw hf hrecomp hending hwalk
  refine ⟨fun h => ⟨_, popped_pop hrecomp hending, exec_recomputeDeltaVStep_of_ok hw hf hrecomp hending hwalk
    (onClosed_of_not_closed hi hrecomp h)⟩, ?_⟩
  intro r j o p ro rp mo mp mode hr hc hj hmode hm ho hp hro hrp hmo hmp _
  obtain ⟨htied, hloose⟩ := deltaV_of_intact hi (endsRead_of_intact hi hj hmode ho hp) hro hrp hmo hmp
  refine ⟨fun h => ?_, fun h => ⟨_, popped_pop (f := { f with unusable := true }) hrecomp hending,
    exec_recomputeDeltaVStep_of_ok hw hf hrecomp hending hwalk (recomputeDeltaVBody_of_none hi hrecomp hr hc (hloose h))⟩⟩
  obtain ⟨d, hd, hfigures⟩ := htied h
  obtain ⟨hframe, hloop, hevents⟩ := noteRate_spec (l := l) hheld (intact_loop hi hr).1 d
  refine ⟨_, d, exec_recomputeDeltaVStep_of_ok hw hf hrecomp hending hwalk
    (recomputeDeltaVBody_of_some hi hrecomp hr hc hm hd), ?_, hfigures, ?_, (hloop l).trans (if_pos rfl),
    fun k hk => (hloop k).trans (if_neg hk), hevents⟩
  · rw [hframe]
    rfl
  · rw [hframe]
    rfl

/-! ### The member step (R131) -/

section
variable {walked pre post : List Nat} {i : Nat} {d : DriftCalc}

/-- R131: the member step on intact memory, at its next member. -/
theorem recomputeMemberBody_of_split (hi : s.intact = true) (hrecomp : f.recomp = l :: ls) (hr : s.loop? l = some r)
    (hc : r.state = .closed) (hwalk : f.walk = some walked) (hdrift : f.drift = some d) (hm : r.members = pre ++ i :: post)
    (hpre : ∀ x ∈ pre, x ∈ walked) (hnot : i ∉ walked) : recomputeMemberBody s f =
      match s.occ? i with
      | some o =>
        if keepsDrift o || o.state = .pending then .ok (nextRecompute s f l r d (walked ++ [i]))
        else do
          let s ← halting f (writeDrift s i o d)
          .ok (nextRecompute s (f.mark i) l r d (walked ++ [i]))
      | none => .ok (nextRecompute s f l r d (walked ++ [i])) := by
  have hnext : nextMember r walked = some i := find?_split hm hpre hnot
  rw [recomputeMemberBody, onClosed_of_intact hi hrecomp hr hc]
  simp only [hwalk, hdrift, hnext, needOcc_of_intact hi] <;> rfl

/-- R131: a recomputation writes the drift part of a REDUCED record alone. -/
theorem passed_iff (o : Occ) : (keepsDrift o || o.state = .pending) = true ↔ o.state ≠ .reduced := by
  cases h : o.state <;> simp [keepsDrift, h]

end

theorem recomputeMember_claim : Claims.RecomputeMember := by
  intro s f l ls walked r d hi hp hw hf hrecomp hending hwalk hdrift hr hc pre i post o hm hpre hnot ho
  have hs := (intact_loop hi hr).1
  have hbody := recomputeMemberBody_of_split hi hrecomp hr hc hwalk hdrift hm hpre hnot
  rw [ho] at hbody
  by_cases hst : o.state = .reduced
  · obtain ⟨y, a, hwrite, hocc, hother, hmarks⟩ := writeDrift_of_read (i := i) hp (entriesRead_of_intact hi) d
      (intact_occ hi ho).1
    obtain ⟨x, g, hnext, hloops, hend⟩ := nextRecompute_spec (s := { s with stations := y, occs := a })
      (f := { f with written := Claims.noted f i }) (d := d) hm hpre hrecomp hending hdrift hr hs
    have hb : recomputeMemberBody s f = .ok ({ s with stations := y, occs := a, loops := x }, g) := by
      rw [hbody]
      simp only [mt (passed_iff o).1 (not_not_intro hst), Bool.false_eq_true, if_false, hwrite, mark_eq]
      exact congrArg Except.ok hnext
    refine ⟨_, g, Claims.noted f i, exec_recomputeMemberStep_of_ok hw hf hrecomp hending hwalk hb, rfl, rfl, hother,
      fun v m _ hv hm => ⟨?_, hmarks, rfl⟩, fun h => ?_, hloops, hend⟩
    · rw [endValue_of_results hv, endEpoch_of_reading hm] at hocc
      exact hocc
    · simp [hst] at h
  · obtain ⟨x, g, hnext, hloops, hend⟩ := nextRecompute_spec (d := d) hm hpre hrecomp hending hdrift hr hs
    have hb : recomputeMemberBody s f = .ok ({ s with loops := x }, g) := by
      rw [hbody]
      simp only [(passed_iff o).2 hst, if_true, hnext]
    exact ⟨_, g, f.written, exec_recomputeMemberStep_of_ok hw hf hrecomp hending hwalk hb, rfl, rfl, fun _ _ => rfl,
      fun v m h => absurd h hst, fun _ => ⟨rfl, rfl, rfl⟩, hloops, hend⟩

/-! ### A recomputation that finds an endpoint or a member FREE (log 43) -/

theorem recomputationFindsFree_claim : Claims.RecomputationFindsFree := by
  intro s f l ls r hi hw hf hrecomp hending hr hc
  refine ⟨fun hwalk h => ⟨_, popped_pop (f := { f with unusable := true }) hrecomp hending,
    exec_recomputeDeltaVStep_of_ok hw hf hrecomp hending hwalk
      (recomputeDeltaVBody_of_none hi hrecomp hr hc (deltaV_of_missing hi h))⟩,
    fun walked d pre i post hwalk hdrift hm hpre hnot ho => ?_⟩
  obtain ⟨x, g, hnext, hloops, hend⟩ := nextRecompute_spec (d := d) hm hpre hrecomp hending hdrift hr (intact_loop hi hr).1
  have hbody := recomputeMemberBody_of_split hi hrecomp hr hc hwalk hdrift hm hpre hnot
  rw [ho] at hbody
  simp only [hnext] at hbody
  exact ⟨_, g, exec_recomputeMemberStep_of_ok hw hf hrecomp hending hwalk hbody, rfl, hloops, hend⟩

/-- Settles O52: the two steps by the figures that they fix and the member that they take, and the end of the
recomputation by the loops left. -/
theorem recomputation : Obligations.Recomputation :=
  ⟨recomputeDeltaV_claim, recomputeMember_claim, recomputationFindsFree_claim⟩

end Sys2Proof.Machine
end

