-- ==== Sys2Proof/Proofs/SurveyLoops/Restart.lean ====
section
/-! SUPPORT. RESTART ENGINE: the rerun of a faulted job, and its drop, with the undoing of a close whose loop is CLOSING or
carries the damaged mark (R123, R150, R151). -/

namespace Sys2Proof.Machine

open Sys2Proof

variable {s t u : State} {f : Flight}

/-! ### The two actions (R150, R151) -/

theorem exec_restartEngineRetry {a : Nat} (h : s.serves (.restartEngineRetry a) .ready = true) :
    exec (.restartEngineRetry a) s = .next (restartRetryBody a s) := hostCommand_of_serves _ h

theorem exec_restartEngineDiscard (h : s.serves .restartEngineDiscard .ready = true) :
    exec .restartEngineDiscard s = .next (restartDiscardBody s) := hostCommand_of_serves _ h

theorem restartRetryBody_of_halted (hh : s.engine.state = .halted) (hf : s.engine.flight = some f) :
    restartRetryBody 0 s = { s with engine := { s.engine with
      state := .working, flight := some { Claims.begun f.job with recomp := s.retryLoops f }, fault := none } }.respond .ok
        (jobBytes f.job) := by
  simp [restartRetryBody, hh, hf, State.retried, startFlight_eq_begun]

/-- R151: the state after the drop of a job that leaves `u`, with its answer. -/
def State.dropped (u : State) : State :=
  { u with engine := u.engine.afterDrop }.respond .ok (optBytes jobBytes u.engine.queue.head?)

theorem restartDiscardBody_of_halted (hh : s.engine.state = .halted) (hf : s.engine.flight = some f) :
    restartDiscardBody s = (s.dropJob f).dropped := by
  simp [restartDiscardBody, hh, hf, State.dropped]

/-! ### The recomputation that a rerun begins with (R150, log 36) -/

theorem retryLoops_of_none (h : f.recomp = [] ∨ (∃ i, f.job.kind = .reduce i) ∨ ∃ l, f.job.kind = .close l) :
    s.retryLoops f = [] := by
  rcases h with h | ⟨i, h⟩ | ⟨l, h⟩
  · unfold State.retryLoops
    cases f.job.kind <;> simp [h]
  · simp [State.retryLoops, h]
  · simp [State.retryLoops, h]

theorem retryLoops_of_walk {l : Nat} {rest : List Nat} (h : f.recomp = l :: rest) (hr : ∀ i, f.job.kind ≠ .reduce i)
    (hc : ∀ k, f.job.kind ≠ .close k) : s.retryLoops f = match s.loop? l with
      | some r => if r.state = .closed then [l] else []
      | none => [] := by
  unfold State.retryLoops
  cases hk : f.job.kind with
  | reduce i => exact absurd hk (hr i)
  | close k => exact absurd hk (hc k)
  | retide k => cases hl : s.loop? l <;> simp [h, hl]
  | recalc => cases hl : s.loop? l <;> simp [h, hl]

/-! ### What follows a drop (R151, step 4) -/

theorem dropped_of_empty (h : u.engine.queue = []) : u.dropped =
    { u with engine := { u.engine with state := .idle, flight := none, fault := none } }.respond .ok [0] := by
  have hafter : u.engine.afterDrop = { u.engine with state := .idle, flight := none, fault := none } := by
    simp [Engine.afterDrop, h]
  rw [State.dropped, hafter, List.head?_eq_none_iff.2 h]
  rfl

theorem dropped_of_waiting {j : Job} {rest : List Job} (h : u.engine.queue = j :: rest) : u.dropped =
    { u with engine := { u.engine with state := .working, flight := some (Claims.begun j), queue := rest, fault := none }
      }.respond .ok (1 :: jobBytes j) := by
  have hafter : u.engine.afterDrop =
      { u.engine with state := .working, flight := some (Claims.begun j), queue := rest, fault := none } := by
    simp [Engine.afterDrop, h, startFlight_eq_begun]
  rw [State.dropped, hafter, h]
  rfl

theorem dropJob_of_not_close (h : ∀ l, f.job.kind ≠ .close l) : s.dropJob f = s := by
  unfold State.dropJob
  cases hk : f.job.kind with
  | close l => exact absurd hk (h l)
  | _ => rfl

theorem dropJob_of_close {l : Nat} (h : f.job.kind = .close l) : s.dropJob f = (s.undoClose l).1 := by
  simp [State.dropJob, h]

theorem restartCommands_claim : Claims.RestartCommands := by
  refine fun s => ⟨fun hh => ⟨fun hs => ?_, fun hs => ?_⟩, fun f hh hf => ⟨fun hs => ?_, fun hs hnot => ?_⟩,
    fun a ha hs => ?_⟩
  · rw [exec_restartEngineRetry hs]
    simp [restartRetryBody, hh]
  · rw [exec_restartEngineDiscard hs]
    simp [restartDiscardBody, hh]
  · rw [exec_restartEngineRetry hs, restartRetryBody_of_halted hh hf]
    refine ⟨s.retryLoops f, rfl, retryLoops_of_none, fun l rest hl hr hc => ?_⟩
    rw [retryLoops_of_walk hl hr hc]
    refine ⟨fun r hloop hclosed => ?_, fun h => ?_⟩
    · simp [hloop, hclosed]
    · rcases h with hloop | ⟨r, hloop, hopen⟩
      · simp [hloop]
      · simp [hloop, hopen]
  · rw [exec_restartEngineDiscard hs, restartDiscardBody_of_halted hh hf, dropJob_of_not_close hnot]
    exact ⟨fun hq => congrArg _ (dropped_of_empty hq), fun j rest hq => congrArg _ (dropped_of_waiting hq)⟩
  · rw [exec_restartEngineRetry hs, restartRetryBody, if_pos ha]

/-! ### The drop of a CLOSE (R151, step 2) -/

theorem dropped_spec (hengine : u.engine = s.engine) (hlink : u.link = s.link) :
    (s.engine.queue = [] → u.dropped.link = (s.respond .ok [0]).link ∧
      u.dropped.engine = { s.engine with state := .idle, flight := none, fault := none }) ∧
    ∀ j rest, s.engine.queue = j :: rest → u.dropped.link = (s.respond .ok (1 :: jobBytes j)).link ∧
      u.dropped.engine =
        { s.engine with state := .working, flight := some (Claims.begun j), queue := rest, fault := none } := by
  have hanswer : ∀ b, (u.respond .ok b).link = (s.respond .ok b).link := fun b => by
    rw [State.respond_link, State.respond_link, hlink]
  rw [← hengine]
  refine ⟨fun hq => ?_, fun j rest hq => ?_⟩
  · rw [dropped_of_empty hq]
    exact ⟨hanswer _, rfl⟩
  · rw [dropped_of_waiting hq]
    exact ⟨hanswer _, rfl⟩

theorem exec_discard_of_close {l : Nat} (hs : s.serves .restartEngineDiscard .ready = true)
    (hh : s.engine.state = .halted) (hf : s.engine.flight = some f) (hk : f.job.kind = .close l) :
    exec .restartEngineDiscard s = .next (s.undoClose l).1.dropped := by
  rw [exec_restartEngineDiscard hs, restartDiscardBody_of_halted hh hf, dropJob_of_close hk]

theorem discardClose_claim : Claims.DiscardClose := by
  intro s f l r hs hi hh hf hk hr hc
  have hpart : s.part ≠ .starting := by simp [part_of_serves_ready hs]
  obtain ⟨hframe, hundone, -⟩ := undoClose_undone hi hpart (resetHeld_of_serves hs) hr hc
  have hstep := undoClose_tableStep (s := s) l
  refine ⟨_, exec_discard_of_close hs hh hf hk, ?_, hundone, dropped_spec hstep.engine hstep.link⟩
  rw [hframe]
  rfl

/-! ### The undoing where the loop carries the mark (R151, step 2) -/

theorem namesAsMember_of_found {l i : Nat} {o : Occ} (h : s.occ? i = some o) :
    s.namesAsMember l i = decide (o.memberOf = some l) := by
  simp [State.namesAsMember, h]

theorem undoGathered_eq (l i : Nat) (is : List Nat) :
    undoGathered l (s, is) i = if s.namesAsMember l i then undoAt (s, is) i else (s, is) := by
  unfold undoGathered undoAt
  cases h : s.occ? i with
  | none => simp [State.namesAsMember, h]
  | some o => simp [namesAsMember_of_found h]

/-- R151: the records gathered for a loop are those whose member-of field names it, as they stood before the undoing. -/
theorem foldl_undoGathered_eq {l : Nat} {named : Nat → Bool} (ks is : List Nat) (hp : s.part ≠ .starting)
    (hs : EntriesRead s) (ho : OccsRead s) (hn : ∀ i, s.namesAsMember l i = named i) :
    ks.foldl (undoGathered l) (s, is) = (ks.filter named).foldl undoAt (s, is) := by
  induction ks generalizing s is with
  | nil => rfl
  | cons i ks ih =>
    rw [List.foldl_cons, undoGathered_eq, hn i]
    cases hi : named i with
    | false => rw [List.filter_cons_of_neg (by simp [hi]), if_neg (by simp), ih is hp hs ho hn]
    | true =>
      obtain ⟨hrw, -⟩ := undoAt_rewrites hp hs ho is i
      rw [List.filter_cons_of_pos hi, if_pos rfl, List.foldl_cons]
      generalize undoAt (s, is) i = a at hrw ⊢
      obtain ⟨t, js⟩ := a
      refine ih js (fun h => hp (hrw.part_eq.symm.trans h)) (hrw.entriesRead hs) (hrw.occsRead ho) fun j => ?_
      rw [← hn j]
      cases hj : s.occ? j with
      | none => simp [State.namesAsMember, hj, hrw.free j hj]
      | some o => simp [State.namesAsMember, hj, hrw.occ j o hj (ho j o hj).1, undoneIn_memberOf]

/-- The undoing of the close of a loop that carries the mark, on sound records. -/
theorem undoClose_of_damaged_loop {l : Nat} {r : Loop} (hp : s.part ≠ .starting) (hs : EntriesRead s) (ho : OccsRead s)
    (hr : s.loop? l = some r) (hd : r.damaged = true) (hu : (s.setLoop l r).raise .memoryError = u) :
    s.undoClose l = ((slotKeys s.occs).filter (s.namesAsMember l)).foldl undoAt (u, []) := by
  have hsame : { r with damaged := true } = r := by rw [← hd]
  have hcheck : s.checkLoop l = u := by rw [checkLoop_raises hr (.inl hd), hsame, hu]
  have hloop : u.loop? l = some r := by rw [← hu, loop?_raise, loop?_setLoop, if_pos rfl]
  have hocc : OccsRead u := by
    rw [← hu]
    exact ho
  have hpool : u.checkPool = u := checkOccs_of_sound fun i _ o hi => (hocc i o hi).1
  have hundo : s.undoClose l = (slotKeys u.occs).foldl (undoGathered l) (u, []) := by
    simp [State.undoClose, hcheck, hloop, hd, hpool]
  rw [hundo]
  subst hu
  exact foldl_undoGathered_eq _ _ hp hs hocc fun _ => rfl

theorem discardDamagedClose_claim : Claims.DiscardDamagedClose := by
  intro s f l r hserves hh hf hk hr hd hocc hst _ _
  have hpart : s.part ≠ .starting := by simp [part_of_serves_ready hserves]
  have hheld := resetHeld_of_serves hserves
  have hs : EntriesRead s := fun v e he => hst _ (mem_of_slotGet he)
  have ho : OccsRead s := fun i o hi => hocc _ (mem_of_slotGet hi)
  have hstep := undoClose_tableStep (s := s) l
  obtain ⟨hrw, -⟩ := foldl_undoAt_rewrites (s := (s.setLoop l r).raise .memoryError)
    ((slotKeys s.occs).filter (s.namesAsMember l)) [] hpart hs ho
  rw [← undoClose_of_damaged_loop hpart hs ho hr hd rfl] at hrw
  have hframe := hrw.stations_occs hpart
  have hloops := hrw.loop?
  have hnames : ∀ i o, s.occ? i = some o → (UndoNames ((slotKeys s.occs).filter (s.namesAsMember l)) i o ↔
      o.memberOf = some l ∧ o.drift.isSome = true ∧ o.state ≠ .final) := fun i o hi => by
    rw [UndoNames, List.mem_filter, and_iff_right (mem_slotKeys_of_slotGet hi), namesAsMember_of_found hi,
      decide_eq_true_eq, LosesDrift]
  have htouched : ∀ v, (∃ i o, s.occ? i = some o ∧ UndoNames ((slotKeys s.occs).filter (s.namesAsMember l)) i o ∧
      s.usable o.station = some v) ↔ ∃ i o, s.occ? i = some o ∧
        (o.memberOf = some l ∧ o.drift.isSome = true ∧ o.state ≠ .final) ∧ s.usable o.station = some v := fun v =>
    exists_congr fun i => exists_congr fun o => and_congr_right fun hi => and_congr_left fun _ => hnames i o hi
  have hmarked := hrw.marked.congr htouched
  have hend := dropped_spec hstep.engine hstep.link
  have hexec := exec_discard_of_close hserves hh hf hk
  generalize (s.undoClose l).1 = t at hrw hframe hloops hmarked hend hexec
  refine ⟨_, hexec, ?_, fun k => ?_, ?_, hrw.free, ⟨fun i o hi => ?_, fun v e he => ⟨hmarked.on v e he, hmarked.off v e he⟩,
    hmarked.free⟩, hend⟩
  · rw [hframe]
    rfl
  · refine (hloops k).trans ((if_neg List.not_mem_nil).trans ?_)
    rw [loop?_raise, loop?_setLoop]
    split
    · next hkl => rw [hkl, hr]
    · rfl
  · rw [hframe]
    exact events_raise_memoryError hheld
  · refine (hrw.occ i o hi (ho i o hi).1).trans (congrArg some ?_)
    by_cases hl : o.memberOf = some l ∧ o.drift.isSome = true ∧ o.state ≠ .final
    · rw [undoneIn_of_names ((hnames i o hi).2 hl)]
      exact (if_pos hl).symm
    · rw [undoneIn_of_not_names (mt (hnames i o hi).1 hl)]
      exact (if_neg hl).symm

/-- Settles O55: the rerun by the loop that it recomputes first, and the drop by the undoing of the close before it. -/
theorem restartEngine : Obligations.RestartEngine := ⟨restartCommands_claim, discardClose_claim, discardDamagedClose_claim⟩

end Sys2Proof.Machine
end

