-- ==== Sys2Proof/Proofs/Reports/PartBytes.lean ====
section
/-! SUPPORT. The parts of a snapshot as bytes: a number read back from a place of a payload (R181), masks of bits, and the
layouts of the station part (R165) and of an occupation part (R166). -/

namespace Sys2Proof.Machine

open Sys2Proof

/-! ### The bytes of a number (R181) -/

@[simp] theorem length_beBytes (k n : Nat) : (beBytes k n).length = k := by
  induction k with
  | zero => rfl
  | succ k ih => rw [beBytes, List.length_cons, ih]

@[simp] theorem length_u8 (n : Nat) : (u8 n).length = 1 := length_beBytes 1 n
@[simp] theorem length_u16 (n : Nat) : (u16 n).length = 2 := length_beBytes 2 n
@[simp] theorem length_u32 (n : Nat) : (u32 n).length = 4 := length_beBytes 4 n
@[simp] theorem length_u48 (n : Nat) : (u48 n).length = 6 := length_beBytes 6 n
@[simp] theorem length_s16 (z : Int) : (s16 z).length = 2 := length_beBytes 2 _
@[simp] theorem length_s32 (z : Int) : (s32 z).length = 4 := length_beBytes 4 _
@[simp] theorem length_tagBytes (t : BitVec 32) : (tagBytes t).length = 4 := length_u32 _
@[simp] theorem length_loopByte (l : Option Nat) : (loopByte l).length = 1 := length_u8 _

/-! ### A field read back from its place -/

theorem field_append_left {a b : List Byte} {p k : Nat} (h : p + k ≤ a.length) :
    Claims.field (a ++ b) p k = Claims.field a p k := by
  have hp : p ≤ a.length := by omega
  have hk : k ≤ (a.drop p).length := by rw [List.length_drop]; omega
  rw [Claims.field, List.drop_append_of_le_length hp, List.take_append_of_le_length hk, Claims.field]

theorem field_append_right {a b : List Byte} {p : Nat} (h : a.length ≤ p) (k : Nat) :
    Claims.field (a ++ b) p k = Claims.field b (p - a.length) k := by
  rw [Claims.field, List.drop_append, List.drop_eq_nil_of_le h, List.nil_append, Claims.field]

theorem foldl_beBytes (k n a : Nat) :
    (beBytes k n).foldl (fun a x => 256 * a + x.toNat) a = a * 256 ^ k + n % 256 ^ k := by
  induction k generalizing a with
  | zero => simp [beBytes, Nat.mod_one]
  | succ k ih =>
    rw [beBytes, List.foldl_cons, ih, BitVec.toNat_ofNat, Nat.mod_pow_succ (b := 256)]
    ring

theorem field_beBytes (k n : Nat) : Claims.field (beBytes k n) 0 k = n % 256 ^ k := by
  rw [Claims.field, List.drop_zero, List.take_of_length_le (length_beBytes k n).le, foldl_beBytes, Nat.zero_mul,
    Nat.zero_add]

@[simp] theorem field_u8 (n : Nat) : Claims.field (u8 n) 0 1 = n % 256 := field_beBytes 1 n
@[simp] theorem field_u16 (n : Nat) : Claims.field (u16 n) 0 2 = n % 65536 := field_beBytes 2 n
@[simp] theorem field_u24 (n : Nat) : Claims.field (beBytes 3 n) 0 3 = n % 16777216 := field_beBytes 3 n
@[simp] theorem field_u32 (n : Nat) : Claims.field (u32 n) 0 4 = n % 4294967296 := field_beBytes 4 n
@[simp] theorem field_u48 (n : Nat) : Claims.field (u48 n) 0 6 = n % 281474976710656 := field_beBytes 6 n

/-- What the bytes before a run of bytes spell is carried past it. -/
theorem foldl_bytes_carry (l : List Byte) (a : Nat) : l.foldl (fun a x => 256 * a + x.toNat) a =
    a * 256 ^ l.length + l.foldl (fun a x => 256 * a + x.toNat) 0 := by
  induction l generalizing a with
  | nil => simp
  | cons x l ih =>
    rw [List.foldl_cons, ih, List.foldl_cons, ih (256 * 0 + x.toNat), List.length_cons]
    ring

/-- Two fields side by side spell one. -/
theorem field_add (b : List Byte) (p j k : Nat) (h : p + j + k ≤ b.length) :
    Claims.field b p (j + k) = Claims.field b p j * 256 ^ k + Claims.field b (p + j) k := by
  have hlen : ((b.drop (p + j)).take k).length = k := by
    rw [List.length_take, List.length_drop]
    omega
  rw [Claims.field, List.take_add, List.foldl_append, foldl_bytes_carry, List.drop_drop, hlen]
  rfl

/-- Bytes of zeros spell zero at every place. -/
@[simp] theorem field_zeros (n p k : Nat) : Claims.field (List.replicate n 0#8) p k = 0 := by
  have hfold : ∀ n, (List.replicate n 0#8).foldl (fun a x => 256 * a + x.toNat) 0 = 0 := by
    intro n
    induction n with
    | zero => rfl
    | succ n ih => exact ih
  rw [Claims.field, List.drop_replicate, List.take_replicate, hfold]

@[simp] theorem field_s16 (z : Int) : Claims.field (s16 z) 0 2 = (z % 65536).toNat := by
  refine (field_beBytes 2 _).trans (Nat.mod_eq_of_lt ?_)
  have := Int.emod_lt_of_pos z (show (0 : Int) < 65536 by decide)
  show (z % 65536).toNat < 65536
  omega

@[simp] theorem field_s32 (z : Int) : Claims.field (s32 z) 0 4 = (z % 4294967296).toNat := by
  refine (field_beBytes 4 _).trans (Nat.mod_eq_of_lt ?_)
  have := Int.emod_lt_of_pos z (show (0 : Int) < 4294967296 by decide)
  show (z % 4294967296).toNat < 4294967296
  omega

/-- A number in the range of two bytes is read back from its two's complement. -/
theorem signed_of_s16 {b : List Byte} {p : Nat} {z : Int} (h : Claims.field b p 2 = (z % 65536).toNat)
    (hlo : -32768 ≤ z) (hhi : z < 32768) : Claims.signed b p 2 = z := by
  simp only [Claims.signed, h]
  omega

/-- A number in the range of four bytes is read back from its two's complement. -/
theorem signed_of_s32 {b : List Byte} {p : Nat} {z : Int} (h : Claims.field b p 4 = (z % 4294967296).toNat)
    (hz : validGravity z = true) : Claims.signed b p 4 = z := by
  simp only [validGravity, inRange, Bool.and_eq_true, decide_eq_true_eq] at hz
  simp only [Claims.signed, h]
  omega

/-! ### Masks of bits -/

/-- The number whose bits, from bit 0 up, are those of a list. -/
def maskOf (l : List Bool) : Nat := l.foldr Nat.bit 0

theorem testBit_maskOf (l : List Bool) (k : Nat) : (maskOf l).testBit k = (l[k]?).getD false := by
  induction l generalizing k with
  | nil => simp [maskOf]
  | cons b l ih =>
    cases k with
    | zero => exact Nat.testBit_bit_zero b _
    | succ k => exact (Nat.testBit_bit_succ k b _).trans (ih k)

/-- A mask sent in a field keeps the bits of the field. -/
theorem testBit_sent {x m w k : Nat} {l : List Bool} (hx : x = m % 2 ^ w) (hm : m = maskOf l) (hk : k < w) :
    x.testBit k = (l[k]?).getD false := by
  rw [hx, Nat.testBit_mod_two_pow, hm, testBit_maskOf]
  simp [hk]

theorem bitNat_eq (b : Bool) (k : Nat) : bitNat b k = b.toNat * 2 ^ k := by
  cases b <;> simp [bitNat]

theorem flagMask_eq_maskOf (f : Flags) : flagMask f = maskOf (Claims.flagBits f) := by
  simp only [flagMask, maskOf, Claims.flagBits, List.foldr_cons, List.foldr_nil, Nat.bit_val, bitNat_eq, Bool.toNat_false]
  ring

/-! ### The station part (R165) -/

theorem length_flatMap_u16 (l : List Nat) : (l.flatMap u16).length = 2 * l.length := by
  induction l with
  | nil => rfl
  | cons i l ih =>
    rw [List.flatMap_cons, List.length_append, ih, length_u16, List.length_cons]
    omega

theorem field_flatMap_u16 {l : List Nat} {k i : Nat} (h : l[k]? = some i) :
    Claims.field (l.flatMap u16) (2 * k) 2 = i % 65536 := by
  induction l generalizing k with
  | nil => simp at h
  | cons j l ih =>
    cases k with
    | zero =>
      obtain rfl : j = i := by simpa using h
      rw [List.flatMap_cons, field_append_left (length_u16 j).ge, Nat.mul_zero, field_u16]
    | succ k =>
      have hskip : (u16 j).length ≤ 2 * (k + 1) := by rw [length_u16]; omega
      rw [List.flatMap_cons, field_append_right hskip, length_u16]
      exact ih (by simpa using h)

/-- R165: the eight places of the indices, filled up with the absent index. -/
def indexPlaces (l : List Nat) : List Nat := (l ++ List.replicate 8 0xFFFF).take 8

theorem length_indexPlaces (l : List Nat) : (indexPlaces l).length = 8 := by
  simp [indexPlaces]

theorem getElem?_indexPlaces {l : List Nat} {k : Nat} (hk : k < 8) :
    (indexPlaces l)[k]? = some ((l[k]?).getD 0xFFFF) := by
  rw [indexPlaces, List.getElem?_take_of_lt hk, List.getElem?_append]
  split
  · next h => simp [h]
  · next h => rw [List.getElem?_replicate_of_lt (by omega), List.getElem?_eq_none (by omega)]; rfl

/-- R165: the bytes before the indices, the indices, and the bytes after them. -/
theorem stationPartBytes_eq (p : StationPart) : stationPartBytes p =
    u16 p.number ++ u8 (p.way / 4) ++ u8 (p.way % 4) ++
    u8 (maskOf [decide (p.role = .base), p.pinned, p.reference.isSome, p.changed]) ++
    u8 p.site ++ u32 (p.reference.getD 0) ++ tagBytes p.tag ++ u8 p.indices.length ++
    (indexPlaces p.indices).flatMap u16 ++ u48 p.epoch ++ u8 1 := by
  have hmask : bitNat (p.role = .base) 0 + bitNat p.pinned 1 + bitNat p.reference.isSome 2 + bitNat p.changed 3 =
      maskOf [decide (p.role = .base), p.pinned, p.reference.isSome, p.changed] := by
    simp only [maskOf, List.foldr_cons, List.foldr_nil, Nat.bit_val, bitNat_eq]
    ring
  rw [stationPartBytes, hmask]
  rfl

theorem length_flatMap_indexPlaces (l : List Nat) : ((indexPlaces l).flatMap u16).length = 16 := by
  rw [length_flatMap_u16, length_indexPlaces]

theorem stationPart_index (p : StationPart) {k : Nat} (hk : k < 8) :
    Claims.field (stationPartBytes p) (15 + 2 * k) 2 = (p.indices[k]?).getD 0xFFFF % 65536 := by
  have hplaces := length_flatMap_indexPlaces p.indices
  rw [stationPartBytes_eq, field_append_left (by simp [hplaces]; omega), field_append_left (by simp [hplaces]; omega),
    field_append_right (by simp)]
  simp only [List.length_append, length_u8, length_u16, length_u32, length_tagBytes, Nat.reduceAdd,
    Nat.add_sub_cancel_left]
  exact field_flatMap_u16 (getElem?_indexPlaces hk)

theorem stationPartLayout_claim : Claims.StationPartLayout := by
  intro p hnumber hway hsite hreference hlength hindices hepoch b
  have href : p.reference.getD 0 < 4294967296 := by
    cases h : p.reference with
    | none => decide
    | some v => exact hreference v h
  have hindex : ∀ k : Nat, (p.indices[k]?).getD 0xFFFF < 65536 := fun k => by
    cases h : p.indices[k]? with
    | none => decide
    | some i => exact lt_trans (hindices i (List.mem_of_getElem? h)) (by decide)
  have hplaces := length_flatMap_indexPlaces p.indices
  have hb : b = _ := stationPartBytes_eq p
  refine ⟨?_, ?_, ?_, ?_, fun k hk => testBit_sent (w := 8) ?_ rfl hk, ?_, ?_, ?_, ?_,
    fun k hk => (stationPart_index p hk).trans (Nat.mod_eq_of_lt (hindex k)), ?_, ?_⟩
  all_goals simp [hb, hplaces, field_append_left, field_append_right, tagBytes]
  all_goals omega

/-! ### The occupation part (R166) -/

@[simp] theorem length_exportResults (r : Option Results) : (exportResults r).length = 25 := by
  cases r <;> simp [exportResults]

@[simp] theorem length_exportDrift (d : Option DriftPart) : (exportDrift d).length = 20 := by
  cases d <;> simp [exportDrift]

theorem length_windowPartBytes (i : Nat) (o : Occ) : (windowPartBytes i o).length = 81 := by
  simp [windowPartBytes]

theorem length_recordPartBytes (i : Nat) (o : Occ) (network : Option Nat) (grade : Grade) (tide consts : Bool) :
    (recordPartBytes i o network grade tide consts).length = 81 := by
  simp [recordPartBytes]

theorem length_occPartBytes (q : OccPart) : (occPartBytes q).length = 81 := by
  cases q with
  | damaged i => simp [occPartBytes]
  | copy i o network grade tide consts =>
    rw [occPartBytes]
    split
    · exact length_windowPartBytes i o
    · exact length_recordPartBytes i o network grade tide consts

theorem field_loopByte {l : Option Nat} (h : ∀ v, l = some v → v < 16) : Claims.field (loopByte l) 0 1 = l.getD 0xFF := by
  cases l with
  | none => exact field_u8 255
  | some v => exact (field_u8 v).trans (Nat.mod_eq_of_lt (lt_trans (h v rfl) (by decide)))

theorem stateByte_eq (st : OccState) : st.exportCode % 256 = Claims.stateCode st := by
  cases st <;> rfl

theorem gradeByte_eq (g : Grade) : g.code % 256 = Claims.gradeCode g := by
  cases g <;> rfl

/-- R166: the fields of the results, read back from bytes that hold them from place 26 on. -/
theorem resultsFields {b : List Byte} {r : Results} (h : resultsInRange r = true)
    (hb : ∀ p k, p + k ≤ 25 → Claims.field b (26 + p) k = Claims.field (exportResults (some r)) p k) :
    Claims.signed b 26 4 = r.raw ∧ Claims.field b 30 4 = r.noise.getD 0 ∧ (Claims.field b 34 2 : Int) = r.ctilt ∧
    Claims.signed b 36 4 = r.ctemp ∧ Claims.signed b 40 2 = r.ctide ∧ Claims.signed b 42 4 = r.v ∧
    Claims.field b 46 2 = r.revision ∧ Claims.field b 48 1 = r.site ∧ Claims.field b 49 2 = r.siteRevision := by
  simp only [resultsInRange, Bool.and_eq_true, decide_eq_true_eq, optAll_iff] at h
  obtain ⟨⟨⟨⟨⟨⟨⟨⟨hraw, hnoise⟩, htilt⟩, htemp⟩, htide⟩, hv⟩, hrev⟩, hsite⟩, hsrev⟩ := h
  simp only [inRange, Bool.and_eq_true, decide_eq_true_eq] at htilt htemp htide
  have hnoise : r.noise.getD 0 ≤ 134217727 := by
    cases hn : r.noise with
    | none => decide
    | some v => exact hnoise v hn
  have htemp : validGravity r.ctemp = true := by
    simp only [validGravity, inRange, Bool.and_eq_true, decide_eq_true_eq]
    omega
  refine ⟨signed_of_s32 ((hb 0 4 (by decide)).trans ?_) hraw, (hb 4 4 (by decide)).trans ?_,
    (congrArg Int.ofNat (hb 8 2 (by decide))).trans ?_, signed_of_s32 ((hb 10 4 (by decide)).trans ?_) htemp,
    signed_of_s16 ((hb 14 2 (by decide)).trans ?_) (by omega) (by omega),
    signed_of_s32 ((hb 16 4 (by decide)).trans ?_) hv, (hb 20 2 (by decide)).trans ?_, (hb 22 1 (by decide)).trans ?_,
    (hb 23 2 (by decide)).trans ?_⟩
  all_goals simp [exportResults, field_append_left, field_append_right]
  all_goals omega

/-- R166: the fields of the drift part, read back from bytes that hold them from place 51 on. -/
theorem driftFields {b : List Byte} {d : DriftPart} (h : driftInRange d = true)
    (hb : ∀ p k, p + k ≤ 20 → Claims.field b (51 + p) k = Claims.field (exportDrift (some d)) p k) :
    Claims.signed b 51 4 = d.correction ∧ Claims.signed b 55 4 = d.final ∧ Claims.signed b 59 4 = d.vOpen ∧
    Claims.field b 63 4 = d.rOpen.getD 0 ∧ Claims.signed b 67 4 = d.rate := by
  simp only [driftInRange, Bool.and_eq_true, optAll_iff, validReference_iff] at h
  obtain ⟨⟨⟨⟨hcorr, hfinal⟩, hopen⟩, hropen⟩, hrate⟩ := h
  have hropen : d.rOpen.getD 0 ≤ 990000000 := by
    cases hn : d.rOpen with
    | none => decide
    | some v => exact (hropen v hn).2
  refine ⟨signed_of_s32 ((hb 0 4 (by decide)).trans ?_) hcorr, signed_of_s32 ((hb 4 4 (by decide)).trans ?_) hfinal,
    signed_of_s32 ((hb 8 4 (by decide)).trans ?_) hopen, (hb 12 4 (by decide)).trans ?_,
    signed_of_s32 ((hb 16 4 (by decide)).trans ?_) hrate⟩
  all_goals simp [exportDrift, field_append_left, field_append_right]
  all_goals omega

/-- R166: the presence bits and the stale marks of an occupation part. -/
def presenceBits (o : Occ) (network : Option Nat) (tide consts : Bool) : List Bool :=
  [o.reading.isSome, o.results.isSome, (o.results.bind (·.noise)).isSome, o.drift.isSome,
    (o.drift.bind (·.rOpen)).isSome, network.isSome, tide, consts]

theorem presence_eq_maskOf (o : Occ) (network : Option Nat) (tide consts : Bool) :
    bitNat o.reading.isSome 0 + bitNat o.results.isSome 1 + bitNat ((o.results.bind (·.noise)).isSome) 2 +
      bitNat o.drift.isSome 3 + bitNat ((o.drift.bind (·.rOpen)).isSome) 4 + bitNat network.isSome 5 +
      bitNat tide 6 + bitNat consts 7 = maskOf (presenceBits o network tide consts) := by
  simp only [maskOf, presenceBits, List.foldr_cons, List.foldr_nil, Nat.bit_val, bitNat_eq]
  ring

/-- R166: the fields that every occupation part of an undamaged record has, in and out of its window. -/
structure CommonFields (b : List Byte) (i : Nat) (o : Occ) : Prop where
  length : b.length = 81
  index : Claims.field b 0 2 = i
  state : Claims.field b 2 1 = Claims.stateCode o.state
  memberOf : Claims.field b 5 1 = o.memberOf.getD 0xFF
  opens : Claims.field b 6 1 = o.opens.getD 0xFF
  duration : Claims.field b 77 2 = o.duration
  settle : Claims.field b 79 2 = o.settle

section

variable {i : Nat} {o : Occ}

theorem windowPart_common (hi : i < 512) (hloops : ∀ l, (o.memberOf = some l ∨ o.opens = some l) → l < 16)
    (hsettle : o.settle ≤ 300) (hduration : o.duration ≤ 600) : CommonFields (windowPartBytes i o) i o := by
  have hmember := field_loopByte fun l h => hloops l (.inl h)
  have hopens := field_loopByte fun l h => hloops l (.inr h)
  refine ⟨length_windowPartBytes i o, ?_, ?_, ?_, ?_, ?_, ?_⟩
  all_goals
    simp [-List.reduceReplicate, windowPartBytes, field_append_left, field_append_right, hmember, hopens, stateByte_eq]
  all_goals omega

theorem windowPart_zeros : Claims.field (windowPartBytes i o) 3 2 = 0 ∧ Claims.field (windowPartBytes i o) 7 70 = 0 := by
  have hlen := length_windowPartBytes i o
  refine ⟨(field_add _ 3 1 1 (by omega)).trans ?_, ?_⟩
  all_goals simp [-List.reduceReplicate, windowPartBytes, field_append_left, field_append_right]

variable {network : Option Nat} {grade : Grade} {tide consts : Bool}

theorem recordPart_common (hi : i < 512) (hloops : ∀ l, (o.memberOf = some l ∨ o.opens = some l) → l < 16)
    (hsettle : o.settle ≤ 300) (hduration : o.duration ≤ 600) :
    CommonFields (recordPartBytes i o network grade tide consts) i o := by
  have hmember := field_loopByte fun l h => hloops l (.inl h)
  have hopens := field_loopByte fun l h => hloops l (.inr h)
  refine ⟨length_recordPartBytes i o network grade tide consts, ?_, ?_, ?_, ?_, ?_, ?_⟩
  all_goals simp [recordPartBytes, field_append_left, field_append_right, hmember, hopens, stateByte_eq]
  all_goals omega

/-- R166: the marks, the grade, the flags and the network value in their places. -/
theorem recordPart_derived :
    let b := recordPartBytes i o network grade tide consts
    Claims.field b 3 1 = maskOf (presenceBits o network tide consts) % 2 ^ 8 ∧ Claims.field b 4 1 = Claims.gradeCode grade ∧
    Claims.field b 7 3 = maskOf (Claims.flagBits o.flags) % 2 ^ 24 ∧
    Claims.field b 71 4 = network.getD 0 % 4294967296 := by
  refine ⟨?_, ?_, ?_, ?_⟩ <;>
    simp [recordPartBytes, field_append_left, field_append_right, gradeByte_eq, flagMask_eq_maskOf, presence_eq_maskOf]

/-- R166: the timing and the sums in their places. -/
theorem recordPart_timing :
    let b := recordPartBytes i o network grade tide consts
    let m := (o.reading.map (·.sums)).getD {}
    Claims.field b 10 6 = (o.reading.map (·.epoch)).getD 0 % 281474976710656 ∧
    Claims.field b 16 4 = countField m.n % 4294967296 ∧ Claims.field b 20 2 = m.breaks % 65536 ∧
    Claims.field b 22 2 = m.overload % 65536 ∧ Claims.field b 24 2 = m.clamped % 65536 ∧
    Claims.field b 75 2 = (o.reading.map (·.openRevision)).getD 0 % 65536 := by
  refine ⟨?_, ?_, ?_, ?_, ?_, ?_⟩ <;> simp [recordPartBytes, field_append_left, field_append_right]

theorem recordPart_results (p k : Nat) (h : p + k ≤ 25) :
    Claims.field (recordPartBytes i o network grade tide consts) (26 + p) k =
      Claims.field (exportResults o.results) p k := by
  rw [recordPartBytes]
  iterate 5 rw [field_append_left (by simp; omega)]
  rw [field_append_right (by simp)]
  simp

theorem recordPart_drift (p k : Nat) (h : p + k ≤ 20) :
    Claims.field (recordPartBytes i o network grade tide consts) (51 + p) k =
      Claims.field (exportDrift o.drift) p k := by
  rw [recordPartBytes]
  iterate 4 rw [field_append_left (by simp; omega)]
  rw [field_append_right (by simp)]
  simp

theorem recordPart_timing_of_present {m : Reading} (hm : o.reading = some m)
    (h : m.epoch < 281474976710656 ∧ m.openRevision < 65536 ∧ m.sums.n < 4294967296 ∧
      m.sums.breaks < 65536 ∧ m.sums.overload < 65536 ∧ m.sums.clamped < 65536) :
    let b := recordPartBytes i o network grade tide consts
    Claims.field b 10 6 = m.epoch ∧ Claims.field b 16 4 = m.sums.n ∧ Claims.field b 20 2 = m.sums.breaks ∧
    Claims.field b 22 2 = m.sums.overload ∧ Claims.field b 24 2 = m.sums.clamped ∧
    Claims.field b 75 2 = m.openRevision := by
  obtain ⟨hepoch, hrev, hn, hbreaks, hover, hclamped⟩ := h
  intro b
  have hb := recordPart_timing (i := i) (o := o) (network := network) (grade := grade) (tide := tide) (consts := consts)
  simpa only [hm, Option.map_some, Option.getD_some, countField, if_pos hn, Nat.mod_eq_of_lt hepoch, Nat.mod_eq_of_lt hrev,
    Nat.mod_eq_of_lt hn, Nat.mod_eq_of_lt hbreaks, Nat.mod_eq_of_lt hover, Nat.mod_eq_of_lt hclamped] using hb

theorem recordPart_timing_of_absent (hm : o.reading = none) :
    let b := recordPartBytes i o network grade tide consts
    Claims.field b 10 16 = 0 ∧ Claims.field b 75 2 = 0 := by
  have hlen := length_recordPartBytes i o network grade tide consts
  obtain ⟨hepoch, hn, hbreaks, hover, hclamped, hrev⟩ :=
    recordPart_timing (i := i) (o := o) (network := network) (grade := grade) (tide := tide) (consts := consts)
  rw [hm] at hepoch hn hbreaks hover hclamped hrev
  refine ⟨?_, hrev⟩
  rw [field_add _ 10 6 10 (by omega), field_add _ 16 4 6 (by omega), field_add _ 20 2 4 (by omega),
    field_add _ 22 2 2 (by omega), hepoch, hn, hbreaks, hover, hclamped]
  rfl

end

theorem damagedPart_fields {i : Nat} (hi : i < 512) :
    let b := occPartBytes (.damaged i)
    b.length = 81 ∧ Claims.field b 0 2 = i ∧ Claims.field b 2 1 = 0xFE ∧ Claims.field b 3 2 = 0 ∧
    Claims.field b 5 2 = 0xFFFF ∧ Claims.field b 7 74 = 0 := by
  have hlen := length_occPartBytes (.damaged i)
  refine ⟨hlen, ?_, ?_, (field_add _ 3 1 1 (by omega)).trans ?_, (field_add _ 5 1 1 (by omega)).trans ?_, ?_⟩
  all_goals simp [-List.reduceReplicate, occPartBytes, field_append_left, field_append_right]
  omega

theorem recordPartLayout_claim : Claims.RecordPartLayout := by
  refine ⟨fun i o network grade tide consts hi hloops hsettle hduration hreading hresults hdrift hnetwork => ?_,
    fun i hi => damagedPart_fields hi⟩
  by_cases hw : o.state = .settling ∨ o.state = .collecting
  · intro b
    have hb : b = windowPartBytes i o := if_pos hw
    rw [hb]
    obtain ⟨hlen, hindex, hstate, hmember, hopens, hdur, hset⟩ := windowPart_common hi hloops hsettle hduration
    exact ⟨hlen, hindex, hstate, hmember, hopens, hdur, hset, fun _ => windowPart_zeros,
      fun hs hc => absurd hw (not_or.2 ⟨hs, hc⟩)⟩
  · intro b
    have hb : b = recordPartBytes i o network grade tide consts := if_neg hw
    rw [hb]
    obtain ⟨hlen, hindex, hstate, hmember, hopens, hdur, hset⟩ := recordPart_common (network := network) (grade := grade)
      (tide := tide) (consts := consts) hi hloops hsettle hduration
    obtain ⟨hmarks, hgrade, hflags, hvalue⟩ := recordPart_derived (i := i) (o := o) (network := network) (grade := grade)
      (tide := tide) (consts := consts)
    have hnet : network.getD 0 < 4294967296 := by
      cases h : network with
      | none => decide
      | some v => exact hnetwork v h
    refine ⟨hlen, hindex, hstate, hmember, hopens, hdur, hset, fun h => absurd h hw, fun _ _ =>
      ⟨fun k hk => testBit_sent hmarks rfl hk, hgrade, fun k hk => testBit_sent hflags rfl hk,
        fun m hm => recordPart_timing_of_present hm (hreading m hm), recordPart_timing_of_absent, fun r hr => ?_,
        fun hr => ?_, fun d hd => ?_, fun hd => ?_, hvalue.trans (Nat.mod_eq_of_lt hnet)⟩⟩
    · exact resultsFields (hresults r hr) fun p k h => hr ▸ recordPart_results p k h
    · refine (recordPart_results 0 25 le_rfl).trans ?_
      rw [hr]
      exact field_zeros 25 0 25
    · exact driftFields (hdrift d hd) fun p k h => hd ▸ recordPart_drift p k h
    · refine (recordPart_drift 0 20 le_rfl).trans ?_
      rw [hd]
      exact field_zeros 20 0 20

end Sys2Proof.Machine
end

