-- ==== Sys2Proof/Proofs/Reports/DerivedValues.lean ====
section
/-! SUPPORT. What EXPORT STATION derives of a record: the network value (R157, R158) and the grade (R159). -/

namespace Sys2Proof.Machine

open Sys2Proof

/-! ### The network value (R157, R158) -/

theorem networkRounding_claim : Claims.NetworkRounding := by
  intro z
  obtain ⟨hnear, htie, -⟩ := rounding_claim z 10 (by decide)
  have hzero : roundTen .zero z = if 0 ≤ z then roundTen .down z else roundTen .up z := by
    simp only [roundTen]
    split
    · next h => exact Int.tdiv_eq_ediv_of_nonneg h
    · next h => rw [← Int.tdiv_eq_ediv_of_nonneg (by omega : (0 : Int) ≤ -z), Int.neg_tdiv, neg_neg]
  refine ⟨?_, ?_, hzero, hnear, htie⟩ <;> simp only [roundTen] <;> omega

/-- A rounded quotient by 10 is one of the two integers next to the exact one. -/
theorem roundTen_near (mode : RoundMode) (z : Int) : z - 10 < roundTen mode z * 10 ∧ roundTen mode z * 10 < z + 10 := by
  obtain ⟨hdown, hup, hzero, hnear, -⟩ := networkRounding_claim z
  cases mode with
  | nearest => omega
  | up => omega
  | down => omega
  | zero =>
    rw [hzero]
    split <;> omega

theorem networkValue_claim : Claims.NetworkValue := by
  refine fun mode o => ⟨fun h => by simp [networkOf, h], fun d h hr => by simp [networkOf, h, hr],
    fun d ro h hr href hfinal hopen => ?_⟩
  rw [validReference_iff] at href
  simp only [validGravity, inRange, Bool.and_eq_true, decide_eq_true_eq] at hfinal hopen
  have hnear := roundTen_near mode (networkExact ro d)
  have hexact : networkExact ro d = (ro : Int) * 10 + (d.final - d.vOpen) := rfl
  refine ⟨(roundTen mode (networkExact ro d)).toNat, by simp [networkOf, h, hr], ?_⟩
  rw [← hexact]
  omega

/-! ### The grade (R159) -/

theorem noiseWithin_iff (n : Option Nat) (limit : Int) :
    noiseWithin n limit = true ↔ ∃ v, n = some v ∧ (v : Int) ≤ limit := by
  cases n <;> simp [noiseWithin]

theorem cleanFlags_iff (f : Flags) : cleanFlags f = true ↔ f.tiltLimit = false ∧ f.tiltRange = false ∧
    f.tiltMissing = false ∧ f.tempMissing = false ∧ f.saturated = false := by
  simp [cleanFlags, and_assoc]

theorem grades_claim : Claims.Grades := by
  refine fun c o m hm => ⟨fun h => by simp [gradeOf, h], fun r hr => ?_⟩
  have hgrade : gradeOf c o = gradeResults c o r := by simp [gradeOf, hr]
  intro within reject a b
  have hreject : (o.flags.short || o.flags.sensorLost) = true ↔ reject := by rw [Bool.or_eq_true]
  have ha : (noiseWithin r.noise c.gradeA && decide ((m.sums.breaks : Int) ≤ c.breakLimit) && cleanFlags o.flags) = true ↔
      a := by
    simp only [Bool.and_eq_true, noiseWithin_iff, cleanFlags_iff, decide_eq_true_eq, and_assoc]
    rfl
  have hb : (noiseWithin r.noise c.gradeB && !o.flags.tiltMissing && !o.flags.saturated) = true ↔ b := by
    simp only [Bool.and_eq_true, noiseWithin_iff, Bool.not_eq_true', and_assoc]
    rfl
  rw [hgrade, gradeResults]
  simp only [hm]
  refine ⟨fun h => if_pos (hreject.2 h), fun h k => ?_, fun h k l => ?_, fun h k l => ?_⟩
  · rw [if_neg (mt hreject.1 h), if_pos (ha.2 k)]
  · rw [if_neg (mt hreject.1 h), if_neg (mt ha.1 k), if_pos (hb.2 l)]
  · rw [if_neg (mt hreject.1 h), if_neg (mt ha.1 k), if_neg (mt hb.1 l)]

end Sys2Proof.Machine
end

