-- ==== Sys2Proof/Proofs/Reports/SnapshotReads.lean ====
section
/-! SUPPORT. READ EXPORT PART (R164), NEXT CHANGED (R161), and the reads by which EXPORT STATION builds its parts (R160,
R162). -/

namespace Sys2Proof.Machine

open Sys2Proof

variable {s t u : State}

/-! ### READ EXPORT PART (R164) -/

theorem exec_readExportPart {k : Nat} (h : s.serves (.readExportPart k) .readyRestore = true) :
    exec (.readExportPart k) s = .next (readExportPartBody k s) := hostCommand_of_serves _ h

theorem readExportPart_claim : Claims.ReadExportPart := by
  refine ⟨fun s p hp => ⟨fun hs => ?_, fun k hs => ⟨fun q hq => ?_, fun hk => ?_⟩⟩, fun s k hp hs => ?_,
    length_occPartBytes⟩
  · rw [exec_readExportPart hs]
    simp [readExportPartBody, hp, Snapshot.part]
  · rw [exec_readExportPart hs]
    simp [readExportPartBody, hp, Snapshot.part, hq]
  · rw [exec_readExportPart hs]
    simp [readExportPartBody, hp, Snapshot.part, List.getElem?_eq_none hk]
  · rw [exec_readExportPart hs]
    simp [readExportPartBody, hp]

/-! ### NEXT CHANGED (R161) -/

theorem exec_nextChanged {key : Option Nat} (h : s.serves (.nextChanged key) .readyRestore = true) :
    exec (.nextChanged key) s = .next (nextChangedBody key s) := hostCommand_of_serves _ h

theorem smallest_eq_none_iff {l : List Nat} : smallest l = none ↔ l = [] := by
  cases l with
  | nil => simp [smallest]
  | cons n l => cases h : smallest l <;> simp [smallest, h]

theorem smallest_spec {l : List Nat} {m : Nat} (h : smallest l = some m) : m ∈ l ∧ ∀ k ∈ l, m ≤ k := by
  induction l generalizing m with
  | nil => simp [smallest] at h
  | cons k l ih =>
    cases hl : smallest l with
    | none =>
      obtain rfl := smallest_eq_none_iff.1 hl
      simp_all [smallest]
    | some j =>
      obtain ⟨hj, hleast⟩ := ih hl
      obtain rfl : min k j = m := by simpa [smallest, hl] using h
      refine ⟨?_, fun i hi => ?_⟩
      · rcases min_choice k j with h | h <;> simp [h, hj]
      · rcases List.mem_cons.1 hi with rfl | hi
        · exact min_le_left _ _
        · exact (min_le_right _ _).trans (hleast i hi)

/-- A number of a list that is above none of them is the smallest. -/
theorem smallest_of_least {l : List Nat} {n : Nat} (hn : n ∈ l) (hle : ∀ m ∈ l, n ≤ m) : smallest l = some n := by
  cases h : smallest l with
  | none => simp [smallest_eq_none_iff.1 h] at hn
  | some m =>
    obtain ⟨hm, hleast⟩ := smallest_spec h
    rw [le_antisymm (hleast n hn) (hle m hm)]

theorem considered_iff {key : Option Nat} {e : Station} : considered key e = true ↔
    e.state = .active ∧ e.damaged = false ∧ e.changed = true ∧ ∀ n, key = some n → n < e.number := by
  simp [considered, optAll_iff, and_assoc]

/-- The numbers that the search considers, on intact memory. -/
theorem mem_candidates (h : s.intact = true) {key : Option Nat} {m : Nat} :
    m ∈ (s.stations.filter fun p => considered key p.2).map (fun p => p.2.number) ↔
      ∃ w e, ((w, e) ∈ s.stations ∧ e.state = .active ∧ e.changed = true ∧ ∀ n, key = some n → n < e.number) ∧
        e.number = m := by
  have hd : ∀ w e, (w, e) ∈ s.stations → e.damaged = false := by
    simp only [State.intact, Bool.and_eq_true, List.all_eq_true] at h
    obtain ⟨⟨⟨⟨⟨⟨⟨hst, -⟩, -⟩, -⟩, -⟩, -⟩, -⟩, -⟩ := h
    intro w e he
    simpa using (hst (w, e) he).2
  simp only [List.mem_map, List.mem_filter, considered_iff, Prod.exists]
  constructor
  · rintro ⟨w, e, ⟨he, ha, -, hc, hk⟩, rfl⟩
    exact ⟨w, e, ⟨he, ha, hc, hk⟩, rfl⟩
  · rintro ⟨w, e, ⟨he, ha, hc, hk⟩, rfl⟩
    exact ⟨w, e, ⟨he, ha, hd w e he, hc, hk⟩, rfl⟩

theorem nextChangedBody_of_valid (h : s.intact = true) {key : Option Nat} (hk : ∀ n, key = some n → 1 ≤ n ∧ n ≤ 65534) :
    nextChangedBody key s = s.respond .ok (optBytes u16 (s.nextChanged key)) := by
  have hvalid : optAll validNumber key = true :=
    (optAll_iff _ _).2 fun n hn => validNumber_of_range (hk n hn).1 (hk n hn).2
  simp [nextChangedBody, hvalid, checkStations_of_intact h]

theorem nextChanged_claim : Claims.NextChanged := by
  intro s key hs
  rw [exec_nextChanged hs]
  refine ⟨fun n hk hn => ?_, fun hi hk => ?_⟩
  · simp [nextChangedBody, hk, optAll, validNumber_of_out hn]
  intro hit
  rw [nextChangedBody_of_valid hi hk, State.nextChanged]
  refine ⟨fun hnone => ?_, fun w e he hleast => ?_⟩
  · rw [smallest_eq_none_iff.2 (List.eq_nil_iff_forall_not_mem.2 fun m hm => ?_)]
    · rfl
    · obtain ⟨w, e, he, -⟩ := (mem_candidates hi).1 hm
      exact hnone w e he
  · rw [smallest_of_least ((mem_candidates hi).2 ⟨w, e, he, rfl⟩) fun m hm => ?_]
    · rfl
    · obtain ⟨v, f, hf, rfl⟩ := (mem_candidates hi).1 hm
      exact hleast v f hf

/-! ### What the reads of an EXPORT STATION leave (R32, R92, R160) -/

/-- R32: a record as a read of it leaves it. -/
def markedOcc (o : Occ) : Occ := { o with damaged := o.damaged || !o.sound }

/-- R92: a site as a read of it leaves it. -/
def markedSite (c : Site) : Site := { c with damaged := c.damaged || !c.sound }

theorem markedOcc_idem (o : Occ) : markedOcc (markedOcc o) = markedOcc o := by
  cases ho : o.damaged <;> cases hs : o.sound <;> simp [markedOcc, ho, hs]

theorem markedSite_idem (c : Site) : markedSite (markedSite c) = markedSite c := by
  cases hd : c.damaged <;> cases hs : c.sound <;> simp [markedSite, hd, hs]

theorem markedOcc_of_sound {o : Occ} (h : o.sound = true) : markedOcc o = o := by
  have hd : (o.damaged || !o.sound) = o.damaged := by simp [h]
  rw [markedOcc, hd]

theorem markedSite_of_sound {c : Site} (h : c.sound = true) : markedSite c = c := by
  have hd : (c.damaged || !c.sound) = c.damaged := by simp [h]
  rw [markedSite, hd]

theorem damaged_markedOcc_iff (o : Occ) : (markedOcc o).damaged = true ↔ o.damaged = true ∨ o.sound = false := by
  simp [markedOcc]

theorem damaged_markedSite_iff (c : Site) : (markedSite c).damaged = true ↔ c.damaged = true ∨ c.sound = false := by
  simp [markedSite]

theorem markedSite_of_bad {c : Site} (h : c.damaged = true ∨ c.sound = false) :
    markedSite c = { c with damaged := true } := by
  rw [← (damaged_markedSite_iff c).2 h]
  rfl

/-- The events that a read leaves, which raises MEMORY_ERROR exactly where `P` holds. -/
structure RaisesIf (P : Prop) (a b : Events) : Prop where
  raised : P → b = { a with pending := a.pending ||| 0x2000 }
  quiet : ¬P → b = a

theorem RaisesIf.trans {P Q : Prop} {a b c : Events} (h : RaisesIf P a b) (k : RaisesIf Q b c) : RaisesIf (P ∨ Q) a c := by
  by_cases hP : P <;> by_cases hQ : Q
  · exact ⟨fun _ => by rw [k.raised hQ, h.raised hP, BitVec.or_assoc, BitVec.or_self], fun hn => absurd (.inl hP) hn⟩
  · exact ⟨fun _ => by rw [k.quiet hQ, h.raised hP], fun hn => absurd (.inl hP) hn⟩
  · exact ⟨fun _ => by rw [k.raised hQ, h.quiet hP], fun hn => absurd (.inr hQ) hn⟩
  · exact ⟨fun hn => absurd hn (not_or.2 ⟨hP, hQ⟩), fun _ => by rw [k.quiet hQ, h.quiet hP]⟩

theorem RaisesIf.congr {P Q : Prop} {a b : Events} (h : RaisesIf P a b) (hPQ : P ↔ Q) : RaisesIf Q a b :=
  ⟨fun hQ => h.raised (hPQ.2 hQ), fun hQ => h.quiet fun hP => hQ (hPQ.1 hP)⟩

/-- A record that fails its check. -/
def FailsAt (s : State) (i : Nat) : Prop := ∃ o, s.occ? i = some o ∧ o.sound = false

/-- A record whose stale marks are derived: neither damaged nor failing, with results. -/
def DerivesAt (s : State) (i : Nat) : Prop :=
  ∃ o, s.occ? i = some o ∧ o.damaged = false ∧ o.sound = true ∧ o.results.isSome = true

/-- `t` is `s` with the records of `is` read, and the site `k` too where `d` holds. -/
structure ExportReads (s t : State) (k : Nat) (is : List Nat) (d : Prop) : Prop where
  frame : t = { s with occs := t.occs, sites := t.sites, events := t.events }
  occ : ∀ j, t.occ? j = (s.occ? j).map fun o => if j ∈ is then markedOcc o else o
  site : d → t.site k = markedSite (s.site k)
  siteKept : ¬d → t.site k = s.site k
  other : ∀ j, j ≠ k → t.site j = s.site j
  events : RaisesIf ((∃ i ∈ is, FailsAt s i) ∨ d ∧ BadSite s k) s.events t.events

namespace ExportReads

variable {k : Nat} {is js : List Nat} {d d' : Prop}

theorem refl (s : State) (k : Nat) : ExportReads s s k [] False :=
  ⟨rfl, fun j => by simp, False.elim, fun _ => rfl, fun _ _ => rfl, ⟨by simp, fun _ => rfl⟩⟩

theorem congr (h : ExportReads s t k is d) (hd : d ↔ d') : ExportReads s t k is d' := by
  obtain rfl : d = d' := propext hd
  exact h

theorem constants (h : ExportReads s t k is d) : t.constants = s.constants := by rw [h.frame]

theorem resetHeld (h : ExportReads s t k is d) : t.resetHeld = s.resetHeld := by rw [h.frame]

theorem failsAt (h : ExportReads s t k is d) (j : Nat) : FailsAt t j ↔ FailsAt s j := by
  simp only [FailsAt, h.occ, Option.map_eq_some_iff]
  constructor
  · rintro ⟨_, ⟨o, ho, rfl⟩, hs⟩
    refine ⟨o, ho, ?_⟩
    split at hs <;> exact hs
  · rintro ⟨o, ho, hs⟩
    refine ⟨_, ⟨o, ho, rfl⟩, ?_⟩
    split <;> exact hs

theorem derivesAt (h : ExportReads s t k is d) (j : Nat) : DerivesAt t j ↔ DerivesAt s j := by
  simp only [DerivesAt, h.occ, Option.map_eq_some_iff]
  constructor
  · rintro ⟨_, ⟨o, ho, rfl⟩, hd, hs, hr⟩
    split at hd
    · next hj =>
      rw [if_pos hj] at hs hr
      have hs : o.sound = true := hs
      exact ⟨o, ho, by simpa [markedOcc, hs] using hd, hs, hr⟩
    · next hj =>
      rw [if_neg hj] at hs hr
      exact ⟨o, ho, hd, hs, hr⟩
  · rintro ⟨o, ho, hd, hs, hr⟩
    refine ⟨o, ⟨o, ho, ?_⟩, hd, hs, hr⟩
    rw [markedOcc_of_sound hs, ite_self]

theorem markedSite_eq (h : ExportReads s t k is d) : markedSite (t.site k) = markedSite (s.site k) := by
  by_cases hd : d
  · rw [h.site hd, markedSite_idem]
  · rw [h.siteKept hd]

theorem badSite (h : ExportReads s t k is d) : BadSite t k ↔ BadSite s k := by
  have hbad : ∀ u : State, BadSite u k ↔ (markedSite (u.site k)).damaged = true := fun u =>
    (damaged_markedSite_iff _).symm
  rw [hbad, hbad, h.markedSite_eq]

theorem trans (h : ExportReads s t k is d) (k' : ExportReads t u k js d') : ExportReads s u k (is ++ js) (d ∨ d') := by
  refine ⟨?_, fun j => ?_, fun hd => ?_, fun hd => ?_, fun j hj => (k'.other j hj).trans (h.other j hj), ?_⟩
  · rw [k'.frame, h.frame]
  · rw [k'.occ, h.occ]
    by_cases hi : j ∈ is <;> by_cases hj : j ∈ js <;> simp [hi, hj, markedOcc_idem, Function.comp_def]
  · by_cases hd' : d'
    · rw [k'.site hd', h.markedSite_eq]
    · rw [k'.siteKept hd', h.site (hd.resolve_right hd')]
  · obtain ⟨hd, hd'⟩ := not_or.1 hd
    rw [k'.siteKept hd', h.siteKept hd]
  · refine (h.events.trans k'.events).congr ?_
    simp only [h.failsAt, h.badSite, List.mem_append, or_and_right, exists_or]
    exact or_or_or_comm

end ExportReads

theorem checkOcc_exportReads (hr : s.resetHeld = false) (k i : Nat) : ExportReads s (s.checkOcc i) k [i] False := by
  by_cases hf : FailsAt s i
  · obtain ⟨o, ho, hs⟩ := hf
    rw [checkOcc_of_unsound ho hs]
    refine ⟨rfl, fun j => ?_, False.elim, fun _ => rfl, fun _ _ => rfl, fun _ => events_raise_memoryError hr,
      fun hn => absurd (.inl ⟨i, List.mem_singleton_self i, o, ho, hs⟩) hn⟩
    rw [occ?_raise, occ?_setOcc]
    by_cases hj : j = i
    · simp [hj, ho, markedOcc, hs]
    · simp [hj]
  · have hsound : ∀ o, s.occ? i = some o → o.sound = true := fun o ho => by
      by_contra hs
      exact hf ⟨o, ho, by simpa using hs⟩
    rw [checkOcc_of_sound hsound]
    refine ⟨rfl, fun j => ?_, False.elim, fun _ => rfl, fun _ _ => rfl, fun h => ?_, fun _ => rfl⟩
    · cases ho : s.occ? j with
      | none => rfl
      | some o =>
        by_cases hj : j = i
        · subst hj
          simp [markedOcc_of_sound (hsound o ho)]
        · simp [hj]
    · exact absurd h (by simpa using hf)

theorem checkSite_exportReads (hr : s.resetHeld = false) (k : Nat) : ExportReads s (s.checkSite k) k [] True := by
  by_cases hb : BadSite s k
  · have hsite := site_setSite (s := s) (lt_of_badSite hb) { s.site k with damaged := true }
    rw [checkSite_of_failing hb]
    refine ⟨rfl, fun j => Option.map_id'.symm, fun _ => ?_, fun h => absurd trivial h,
      fun j hj => (hsite j).trans (if_neg hj), fun _ => events_raise_memoryError hr, fun hn => absurd (.inr ⟨trivial, hb⟩) hn⟩
    exact (hsite k).trans ((if_pos rfl).trans (markedSite_of_bad hb).symm)
  · obtain ⟨hd, hs⟩ := not_or.1 hb
    rw [Bool.not_eq_true] at hd
    rw [Bool.not_eq_false] at hs
    rw [checkSite_of_sound hs hd]
    exact ⟨rfl, fun j => by simp, fun _ => (markedSite_of_sound hs).symm, fun h => absurd trivial h, fun _ _ => rfl,
      fun h => absurd h (by simp [hb]), fun _ => rfl⟩

/-! ### The stale marks and the part of a record (R157 to R160, R162) -/

theorem constantsMark_of_sound (hs : s.constants.sound = true) (hd : s.constants.damaged = false) (r : Results) :
    s.constantsMark r = (s, decide (r.revision ≠ s.constants.revision)) := by
  simp [State.constantsMark, checkConstants_of_sound hs hd, hd]

theorem staleMarks_of_results (hs : s.constants.sound = true) (hd : s.constants.damaged = false) (hr : s.resetHeld = false)
    {e : Station} {o : Occ} {r : Results} (ho : o.results = some r) : s.staleMarks (some e) o =
      (s.checkSite e.site, tideStaleAt r e.site (markedSite (s.site e.site)),
        decide (r.revision ≠ s.constants.revision)) := by
  have h := checkSite_exportReads hr e.site
  have hmark := constantsMark_of_sound (s := s.checkSite e.site) (by rw [h.constants]; exact hs)
    (by rw [h.constants]; exact hd) r
  simp only [State.staleMarks, ho, State.tideMark, hmark, h.constants, h.site trivial]

/-- R157 to R160, R162: the part of a listed record, by the state before EXPORT STATION. -/
def State.partOf (s : State) (e : Station) (i : Nat) (o : Occ) : OccPart :=
  if (markedOcc o).damaged then .damaged i
  else .copy i o (networkOf s.constants.mode o) (gradeOf s.constants.nums o)
    (o.results.any fun r => tideStaleAt r e.site (markedSite (s.site e.site)))
    (o.results.any fun r => decide (r.revision ≠ s.constants.revision))

theorem ExportReads.partOf {e : Station} {is : List Nat} {d : Prop} (h : ExportReads s t e.site is d) (i : Nat) :
    (t.occ? i).map (t.partOf e i) = (s.occ? i).map (s.partOf e i) := by
  rw [h.occ, Option.map_map]
  refine Option.map_congr fun o _ => ?_
  have hpart : t.partOf e i o = s.partOf e i o := by
    simp only [State.partOf, h.constants, h.markedSite_eq]
  have hmarked : t.partOf e i (markedOcc o) = t.partOf e i o := by
    simp only [State.partOf, markedOcc_idem]
    split
    · rfl
    · next hd =>
      obtain ⟨-, hs⟩ := not_or.1 (mt (damaged_markedOcc_iff o).2 hd)
      rw [markedOcc_of_sound (by simpa using hs)]
  simp only [Function.comp_apply]
  split
  · exact hmarked.trans hpart
  · exact hpart

/-- One listed record: what its reads leave, and its part. -/
theorem exportPart_reads (hs : s.constants.sound = true) (hd : s.constants.damaged = false) (hr : s.resetHeld = false)
    (e : Station) (ps : List OccPart) (i : Nat) :
    ExportReads s (exportPart e (s, ps) i).1 e.site [i] (DerivesAt s i) ∧
    (exportPart e (s, ps) i).2 = ps ++ ((s.occ? i).map (s.partOf e i)).toList := by
  have h := checkOcc_exportReads hr e.site i
  have hocc : (s.checkOcc i).occ? i = (s.occ? i).map markedOcc := by simpa using h.occ i
  cases ho : s.occ? i with
  | none =>
    have hx : exportPart e (s, ps) i = (s.checkOcc i, ps) := by simp [exportPart, hocc, ho]
    rw [hx]
    exact ⟨h.congr (by simp [DerivesAt, ho]), by simp⟩
  | some o =>
    rw [ho] at hocc
    by_cases hdam : (markedOcc o).damaged = true
    · have hx : exportPart e (s, ps) i = (s.checkOcc i, ps ++ [.damaged i]) := by simp [exportPart, hocc, hdam]
      rw [hx]
      refine ⟨h.congr ⟨False.elim, ?_⟩, by simp [State.partOf, hdam]⟩
      rintro ⟨o', ho', hd', hs', -⟩
      obtain rfl := Option.some.inj (ho.symm.trans ho')
      simp [markedOcc, hd', hs'] at hdam
    · obtain ⟨hod, hos⟩ : o.damaged = false ∧ o.sound = true := by simpa [markedOcc] using hdam
      have hread : s.checkOcc i = s := checkOcc_of_found ho hos
      have hundamaged : (markedOcc o).damaged = false := by simpa using hdam
      cases hres : o.results with
      | none =>
        have hx : exportPart e (s, ps) i = (s, ps ++ [s.partOf e i o]) := by
          simp [exportPart, hread, ho, hod, State.staleMarks, hres, State.partOf, hundamaged]
        rw [hx]
        exact ⟨(hread ▸ h).congr (by simp [DerivesAt, ho, hres]), by simp⟩
      | some r =>
        have hc := checkSite_exportReads hr e.site
        have hx : exportPart e (s, ps) i = (s.checkSite e.site, ps ++ [s.partOf e i o]) := by
          simp [exportPart, hread, ho, hod, staleMarks_of_results hs hd hr hres, hres, State.partOf, hundamaged,
            hc.constants]
        rw [hx]
        exact ⟨((hread ▸ h).trans hc).congr (by simp [DerivesAt, ho, hres, hod, hos]), by simp⟩

/-- The listed records, one after another. -/
theorem foldl_exportPart_reads (hs : s.constants.sound = true) (hd : s.constants.damaged = false) (hr : s.resetHeld = false)
    (e : Station) (is : List Nat) (ps : List OccPart) :
    ExportReads s (is.foldl (exportPart e) (s, ps)).1 e.site is (∃ i ∈ is, DerivesAt s i) ∧
    (is.foldl (exportPart e) (s, ps)).2 = ps ++ is.filterMap fun i => (s.occ? i).map (s.partOf e i) := by
  induction is generalizing s ps with
  | nil => exact ⟨(ExportReads.refl s e.site).congr (by simp), by simp⟩
  | cons i is ih =>
    obtain ⟨h, hps⟩ := exportPart_reads hs hd hr e ps i
    rw [List.foldl_cons]
    generalize exportPart e (s, ps) i = p at h hps
    obtain ⟨t, qs⟩ := p
    obtain ⟨h', hqs⟩ := ih (s := t) (by rw [h.constants]; exact hs) (by rw [h.constants]; exact hd)
      (by rw [h.resetHeld]; exact hr) qs
    refine ⟨(h.trans h').congr (by simp [h.derivesAt]), ?_⟩
    have hps : qs = _ := hps
    rw [hqs, hps, List.append_assoc, List.filterMap_cons]
    simp only [h.partOf]
    cases s.occ? i <;> rfl

end Sys2Proof.Machine
end

