-- ==== Sys2Proof/Proofs/Reports/Exports.lean ====
section
/-! SUPPORT. EXPORT STATION: what cannot be made, and the snapshot that it takes (R156, R162, R170). -/

namespace Sys2Proof.Machine

open Sys2Proof

variable {s t u : State}

/-! ### EXPORT STATION (R162) -/

theorem exec_exportStation {n : Nat} (h : s.serves (.exportStation n) .ready = true) :
    exec (.exportStation n) s = .next (exportStationBody n s) := hostCommand_of_serves _ h

theorem exportRefusals_claim (s : State) (n : Nat) : Claims.KeyRefusals (.exportStation n) .ready s n := by
  intro hs
  rw [exec_exportStation hs]
  refine ⟨fun h => by simp [exportStationBody, validNumber_of_out h], fun h1 h2 u out ho => ⟨?_, ?_, fun w => ?_⟩⟩ <;>
    rintro rfl <;> simp [exportStationBody, validNumber_of_range h1 h2, ho, Lookup.status]

theorem exportStationBody_of_damaged {n w : Nat} {e : Station} (hn : validNumber n = true)
    (hl : s.keyedLookup n = (t, .found w)) (he : ((t.touch w).readOut w).station? w = some e) (hd : e.damaged = true) :
    exportStationBody n s = ((t.touch w).readOut w).refuse .damaged := by
  simp [exportStationBody, hn, hl, he, hd]

/-- An entry that reads sound is exported where the constants, which are read after it, do not carry the mark. -/
theorem exportStationBody_of_undamaged {n w : Nat} {e : Station} (hn : validNumber n = true)
    (hl : s.keyedLookup n = (t, .found w)) (hr : (t.touch w).readOut w = t.touch w)
    (he : (t.touch w).station? w = some e) (hd : e.damaged = false) (hc : (t.touch w).checkConstants true = u) :
    exportStationBody n s = if u.constants.damaged then u.refuse .damaged else u.exportNow w e := by
  simp [exportStationBody, hn, hl, hr, he, hd, hc]

/-- R5 to R7: `u` is `s` after the lookup of a lone way that reads sound, and the touch of it. -/
structure LookedUp (s u : State) (w : Nat) (e : Station) : Prop where
  frame : u = { s with stations := u.stations, recency := u.recency }
  station : ∀ v, u.station? v = if v = w then some (Claims.looked e) else s.station? v
  touched : Claims.Touched s u w

theorem lookedUp_activate {w : Nat} {e : Station} (he : s.station? w = some e) (hs : e.sound = true) :
    LookedUp s ((s.activate w).touch w) w e := by
  have hst := station?_activate he hs
  obtain ⟨x, hx⟩ := activate_stationsOnly (s := s) w
  exact ⟨by rw [hx]; rfl, hst, touched_congr (by rw [hx]) (touched_touch _ w)⟩

section

variable {n w : Nat} {e : Station}

theorem keyedLookup_of_sound_table (hst : ∀ q ∈ s.stations, q.2.sound = true ∧ q.2.damaged = false)
    (hm : s.matching n = [w]) (he : s.station? w = some e) : s.keyedLookup n = (s.activate w, .found w) :=
  keyedLookup_of_lone (checkStations_of_setReads (setReads_of_sound (fun q hq => (hst q hq).1) n)) hm he
    (hst _ (mem_of_slotGet he)).2

theorem LookedUp.readOut (h : LookedUp s u w e) (hlate : s.late = none) (hs : e.sound = true) : u.readOut w = u := by
  have hnone : u.late = none := by
    rw [h.frame]
    exact hlate
  rw [State.readOut, if_neg (by simp [hnone]), checkStation_of_sound]
  intro f hf
  obtain rfl := Option.some.inj ((((h.station w).trans (if_pos rfl)).symm).trans hf)
  exact hs

/-- R170: the read of constants that fail their check, or carry the mark. -/
theorem checkConstants_true_of_bad (hr : s.resetHeld = false)
    (h : s.constants.damaged = true ∨ s.constants.sound = false) :
    s.checkConstants true = { s with
      constants := { s.constants with damaged := true }
      events := { s.events with pending := s.events.pending ||| 0x2000 } } := by
  rw [checkConstants_raises h]
  simp only [State.raise]
  rw [events_raise_memoryError hr]

theorem exportFails_claim : Claims.ExportFails := by
  refine ⟨exportRefusals_claim, fun s n w e hs h1 h2 hm he hst c hc => ?_⟩
  have hr := resetHeld_of_serves hs
  have hn := validNumber_of_range h1 h2
  obtain ⟨hsound, hd⟩ : e.sound = true ∧ e.damaged = false := hst _ (mem_of_slotGet he)
  have hl := keyedLookup_of_sound_table hst hm he
  have hu := lookedUp_activate he hsound
  have hew : ((s.activate w).touch w).station? w = some (Claims.looked e) := (hu.station w).trans (if_pos rfl)
  have hru : ((s.activate w).touch w).resetHeld = false := by
    rw [hu.frame]
    exact hr
  rw [exec_exportStation hs]
  rcases hc with ⟨hlate, rfl⟩ | ⟨hlate, hbad, rfl⟩
  · obtain ⟨⟨x, hx⟩, hread⟩ := readOut_of_late hru (by rw [hu.frame]; exact hlate) hew
    rw [exportStationBody_of_damaged hn hl ((hread w).trans (if_pos rfl)) rfl]
    generalize ((s.activate w).touch w).readOut w = v at hx hread
    refine ⟨_, rfl, ?_, ?_, ?_, fun j hj => ?_, touched_of_recency_eq (by rw [hx]; rfl) hu.touched⟩
    · rw [hx, hu.frame]
      rfl
    · rw [hx, hu.frame]
      rfl
    · rw [if_pos hlate]
      exact (hread w).trans (if_pos rfl)
    · exact (hread j).trans ((if_neg hj).trans ((hu.station j).trans (if_neg hj)))
  · have hcheck := checkConstants_true_of_bad hru (by rw [hu.frame]; exact hbad)
    rw [exportStationBody_of_undamaged hn hl (hu.readOut hlate hsound) hew hd rfl, hcheck, if_pos rfl]
    refine ⟨_, rfl, ?_, ?_, ?_, fun j hj => (hu.station j).trans (if_neg hj), hu.touched⟩
    · rw [hu.frame, ← hlate]
      rfl
    · rw [hu.frame]
      rfl
    · rw [if_neg (by simp [hlate])]
      exact hew

/-! ### The accepted command (R156, R162) -/

theorem getElem?_filterMap_of_isSome {α β : Type} {f : α → Option β} {l : List α} (h : ∀ a ∈ l, (f a).isSome = true)
    (k : Nat) : (l.filterMap f)[k]? = l[k]?.bind f := by
  induction l generalizing k with
  | nil => simp
  | cons a l ih =>
    obtain ⟨b, hb⟩ := Option.isSome_iff_exists.1 (h a List.mem_cons_self)
    rw [List.filterMap_cons, hb]
    cases k with
    | zero => simp [hb]
    | succ k => simpa using ih (fun a ha => h a (List.mem_cons_of_mem _ ha)) k

theorem tideStaleAt_iff (r : Results) (k : Nat) (c : Site) :
    tideStaleAt r k c = true ↔ c.damaged = true ∨ r.site ≠ k ∨ r.siteRevision ≠ c.revision := by
  simp only [tideStaleAt, Bool.or_eq_true, decide_eq_true_eq]
  tauto

/-- The marks of a copied part. -/
theorem partOf_of_sound {i : Nat} {o : Occ} (hd : o.damaged = false) (hs : o.sound = true) :
    ∃ tide consts, s.partOf e i o =
        OccPart.copy i o (networkOf s.constants.mode o) (gradeOf s.constants.nums o) tide consts ∧
      (o.results = none → tide = false ∧ consts = false) ∧
      ∀ r, o.results = some r →
        (tide = true ↔ ((s.site e.site).damaged = true ∨ (s.site e.site).sound = false) ∨ r.site ≠ e.site ∨
          r.siteRevision ≠ (s.site e.site).revision) ∧
        (consts = true ↔ r.revision ≠ s.constants.revision) := by
  refine ⟨_, _, if_neg (by simp [markedOcc, hd, hs]), fun h => by simp [h], fun r h => ⟨?_, by simp [h]⟩⟩
  rw [h, Option.any_some, tideStaleAt_iff, damaged_markedSite_iff]
  rfl

/-- R156, R162: the snapshot that is taken, by the state before it. -/
def State.snapshotOf (s : State) (w : Nat) (e : Station) : Snapshot :=
  { station := stationPart w e s.epoch, parts := e.list.filterMap fun i => (s.occ? i).map (s.partOf e i) }

theorem parts_snapshotOf {k i : Nat} {o : Occ} (h : ∀ i ∈ e.list, (s.occ? i).isSome = true) (hk : e.list[k]? = some i)
    (ho : s.occ? i = some o) : (s.snapshotOf w e).parts[k]? = some (s.partOf e i o) := by
  refine (getElem?_filterMap_of_isSome (fun j hj => ?_) k).trans ?_
  · rw [Option.isSome_map]
    exact h j hj
  · rw [hk, Option.bind_some, ho, Option.map_some]

theorem length_parts_snapshotOf (h : ∀ i ∈ e.list, (s.occ? i).isSome = true) :
    (s.snapshotOf w e).parts.length = e.list.length :=
  List.filterMap_length_eq_length.2 fun i hi => by
    rw [Option.isSome_map]
    exact h i hi

theorem exportNow_spec (hs : s.constants.sound = true) (hd : s.constants.damaged = false) (hr : s.resetHeld = false) :
    ∃ t, ExportReads s t e.site e.list (∃ i ∈ e.list, DerivesAt s i) ∧
      s.exportNow w e = (({ t with snapshot := some (s.snapshotOf w e) } : State).putStation w
        { e with changed := false }).respond .ok (u16 e.number ++ u8 (s.snapshotOf w e).parts.length) := by
  obtain ⟨h, hps⟩ := foldl_exportPart_reads hs hd hr e e.list []
  have hepoch : (e.list.foldl (exportPart e) (s, [])).1.epoch = s.epoch := by rw [h.frame]; rfl
  refine ⟨_, h, ?_⟩
  rw [List.nil_append] at hps
  rw [State.exportNow, State.snapshotOf, ← hps, ← hepoch]

/-- A listed record as its read leaves it. -/
theorem listed_eq (P : Prop) [Decidable P] (o : Occ) :
    (if P then markedOcc o else o) = if P ∧ o.sound = false then { o with damaged := true } else o := by
  by_cases hP : P
  · cases hs : o.sound
    · simp [hP, markedOcc, hs]
    · simp [hP, markedOcc_of_sound hs]
  · simp [hP]

theorem exportStation_claim : Claims.ExportStation := by
  intro s n w e hs h1 h2 hm he hst hlate hcs hcd hlisted badSite
  have hr := resetHeld_of_serves hs
  obtain ⟨hsound, hd⟩ : e.sound = true ∧ e.damaged = false := hst _ (mem_of_slotGet he)
  have hu := lookedUp_activate he hsound
  have hb := exportStationBody_of_undamaged (validNumber_of_range h1 h2) (keyedLookup_of_sound_table hst hm he)
    (hu.readOut hlate hsound) ((hu.station w).trans (if_pos rfl)) hd
    (checkConstants_of_sound (by rw [hu.frame]; exact hcs) (by rw [hu.frame]; exact hcd) true)
  generalize (s.activate w).touch w = u at hu hb
  obtain ⟨x, y, rfl⟩ : ∃ x y, u = { s with stations := x, recency := y } := ⟨_, _, hu.frame⟩
  obtain ⟨t, ht, hx⟩ := exportNow_spec (s := { s with stations := x, recency := y }) (w := w) (e := Claims.looked e)
    hcs hcd hr
  have hpart := fun k i o => parts_snapshotOf (s := s) (w := w) (e := Claims.looked e) (k := k) (i := i) (o := o) hlisted
  have hlen : (s.snapshotOf w (Claims.looked e)).parts.length = e.list.length := length_parts_snapshotOf hlisted
  have hstation : ∀ v, t.station? v = if v = w then some (Claims.looked e) else s.station? v := fun v => by
    rw [← hu.station v, ht.frame]
    rfl
  rw [exec_exportStation hs, hb, if_neg (by simp [hcd]), hx]
  refine ⟨_, s.snapshotOf w (Claims.looked e), rfl, ?_, ?_, rfl, hlen,
    fun k i o hk ho => ⟨fun hbad => ?_, fun hod hos => ?_⟩, fun i => ?_, fun hder hbad => ?_, fun hn => ?_, ht.other,
    ht.events.raised, ht.events.quiet, ?_, fun v hv => ?_, ?_⟩
  · rw [ht.frame]
    rfl
  · rw [← hlen, ht.frame]
    rfl
  · exact (hpart k i o hk ho).trans (congrArg some (if_pos ((damaged_markedOcc_iff o).2 hbad)))
  · obtain ⟨tide, consts, hcopy, hmarks⟩ := partOf_of_sound (s := s) (e := e) (i := i) hod hos
    exact ⟨tide, consts, (hpart k i o hk ho).trans (congrArg some hcopy), hmarks⟩
  · exact (ht.occ i).trans (Option.map_congr fun o _ => listed_eq _ o)
  · exact (ht.site hder).trans (markedSite_of_bad hbad)
  · by_cases hder : Claims.Derives s e
    · have hsite : (s.site e.site).sound = true := by
        by_contra h
        exact hn ⟨hder, .inr (by simpa using h)⟩
      exact (ht.site hder).trans (markedSite_of_sound hsite)
    · exact ht.siteKept hder
  · refine (station?_putStation _ _ _).trans ((if_pos rfl).trans ?_)
    rw [← hsound]
    rfl
  · exact (station?_putStation _ _ _).trans ((if_neg hv).trans ((hstation v).trans (if_neg hv)))
  · refine touched_of_recency_eq (u := { s with stations := x, recency := y }) ?_ hu.touched
    rw [ht.frame]
    rfl

end

/-- Settles O56: the snapshot by the reads of its records one after another, and the layouts by where each field stands. -/
theorem exports : Obligations.Exports :=
  ⟨exportStation_claim, exportFails_claim, nextChanged_claim, readExportPart_claim, stationPartLayout_claim,
    recordPartLayout_claim, networkRounding_claim, networkValue_claim, grades_claim⟩

end Sys2Proof.Machine
end

