-- ==== Sys2Proof/Proofs/SurveyClock/BasePeriods.lean ====
section
/-! SUPPORT. The survey clock over a base period, whatever else its ticks drive: the clock as a function of the clock
alone, and what a base period and the row of the slew count do to it (R176, R178; log 6, log 47). -/

namespace Sys2Proof.Machine

open Sys2Proof

/-! ### What is due leaves the clock alone (log 5) -/

section Due

variable (s : State)

theorem enterCollecting_clock (w : Window) : (s.enterCollecting w).clock = s.clock :=
  (setOccState_tableStep _ _ _).clock.trans (checkConstants_tableStep s false).clock

theorem removeWindow_clock (w : Window) (ways : List Nat) (cause : WindowCause) :
    (s.removeWindow w ways cause).clock = s.clock := (freeOcc_tableStep s ways w.occ).clock

theorem submitAutomatic_clock (i : Nat) : (s.submitAutomatic i).clock = s.clock := by
  unfold State.submitAutomatic
  split
  · exact (setUnqueued_tableStep s i).clock
  · rfl

theorem writeClose_clock (w : Window) (start rev : Nat) (cause : WindowCause) :
    (s.writeClose w start rev cause).clock = s.clock := by
  unfold State.writeClose
  dsimp only
  split
  · exact (placeInList_tableStep _ _ _ _).clock
  · exact (placeInList_tableStep _ _ _ _).clock

theorem closeWindow_clock (w : Window) (start rev : Nat) (cause : WindowCause) :
    (s.closeWindow w start rev cause).clock = s.clock := by
  unfold State.closeWindow
  split
  · exact removeWindow_clock s _ _ _
  · rw [submitAutomatic_clock, writeClose_clock]

theorem takeSettle_clock : s.takeSettle.clock = s.clock := by
  unfold State.takeSettle
  split
  · split
    · exact enterCollecting_clock s _
    · rfl
  · rfl

theorem takeElapsed_clock : s.takeElapsed.clock = s.clock := by
  unfold State.takeElapsed
  split
  · split
    · split
      · exact closeWindow_clock s _ _ _ _
      · rfl
    · rfl
  · rfl

theorem silenceWindow_clock : s.silenceWindow.clock = s.clock := by
  unfold State.silenceWindow
  split
  · split
    · exact closeWindow_clock s _ _ _ _
    · rfl
  · rfl

theorem takeSilence_clock : s.takeSilence.clock = s.clock := by
  unfold State.takeSilence
  split
  · split
    · exact silenceWindow_clock { s with front := { s.front with live := none } }
    · rfl
  · rfl

theorem takeDue_clock : s.takeDue.clock = s.clock := by
  have hexpiry : ∀ u : State, (u.expiryDue.foldl State.takeExpiry u).clock = u.clock := fun u =>
    (TableStep.foldl takeExpiry_tableStep u.expiryDue u).clock
  rw [State.takeDue, hexpiry, takeSilence_clock, takeElapsed_clock, takeSettle_clock]

theorem expiryCheck_clock : s.expiryCheck.clock = s.clock := (expiryCheck_tableStep s).clock

end Due

/-! ### The clock of a base period, as a function of the clock alone -/

/-- R178: the clock after the slew of a base period. -/
def Clock.slewed (c : Clock) : Clock :=
  if c.trim > 0 then if c.tick.held then c.tick else { c.tick.workOff with left := some 1 }
  else { c.workOff with left := some 0 }

/-- R178: the clock after what the end of a slewing base period delivers. -/
def Clock.finished (c : Clock) : Clock :=
  match c.left with
  | some 0 => { c with left := none }
  | some _ => { c with left := none }.tick
  | none => c

/-- R176, R178: the clock after the end of a base period. -/
def Clock.period (c : Clock) : Clock :=
  if c.held then c
  else if c.left.isSome then c.finished
  else if c.slews then c.slewed.finished
  else c.count.tick

section Tied

variable (s : State)

theorem tick_clock : s.tick.clock = s.clock.tick := by
  rw [State.tick, expiryCheck_clock, takeDue_clock]

theorem slew_clock : s.slew.clock = s.clock.slewed := by
  unfold State.slew Clock.slewed
  simp only [tick_clock]
  split
  · split
    · exact tick_clock s
    · rfl
  · rfl

theorem finishSlew_clock : s.finishSlew.clock = s.clock.finished := by
  unfold State.finishSlew Clock.finished
  rcases s.clock.left with _ | _ | k
  · rfl
  · rfl
  · exact tick_clock _

theorem basePeriod_clock : s.basePeriod.clock = s.clock.period := by
  unfold State.basePeriod Clock.period
  split
  · rw [expiryCheck_clock, takeDue_clock]
  split
  · exact finishSlew_clock s
  split
  · rw [finishSlew_clock, slew_clock]
  · exact tick_clock _

end Tied

/-! ### One tick (R176) -/

variable {c : Clock}

/-- R176: a tick moves the time and the held mark alone. -/
theorem clock_tick_frame (c : Clock) :
    c.tick = { c with seconds := c.tick.seconds, ticks := c.tick.ticks, held := c.tick.held } := by
  unfold Clock.tick
  split <;> rfl

@[simp] theorem clock_tick_isSet (c : Clock) : c.tick.isSet = c.isSet := 
  (congrArg Clock.isSet (clock_tick_frame c)).trans rfl
@[simp] theorem clock_tick_trim (c : Clock) : c.tick.trim = c.trim := 
  (congrArg Clock.trim (clock_tick_frame c)).trans rfl
@[simp] theorem clock_tick_slew (c : Clock) : c.tick.slew = c.slew := 
  (congrArg Clock.slew (clock_tick_frame c)).trans rfl
@[simp] theorem clock_tick_left (c : Clock) : c.tick.left = c.left := 
  (congrArg Clock.left (clock_tick_frame c)).trans rfl

theorem clock_tick_ticks_lt (h : c.ticks < 1024) : c.tick.ticks < 1024 := by
  unfold Clock.tick
  split <;> dsimp only <;> omega

/-- R176: the held mark agrees with the seconds. -/
def Clock.HeldAtTop (c : Clock) : Prop := c.held = decide (c.seconds = 4294967295)

theorem clock_tick_heldAtTop (h : c.HeldAtTop) : c.tick.HeldAtTop := by
  unfold Clock.tick
  split
  · exact h
  · rfl

theorem clock_tick_not_held (hticks : c.ticks < 1024) (htop : c.HeldAtTop) (hheld : c.held = false)
    (h : c.epoch + 1 < 4294967295 * 1024) : c.tick.held = false := by
  rw [clock_tick_eq hticks htop hheld]
  exact decide_eq_false (by omega)

/-! ### What every base period keeps -/

/-- The clock stays SET or UNSET, and its held mark goes on agreeing with its seconds. -/
structure Clock.KeepsMarks (c d : Clock) : Prop where
  isSet : d.isSet = c.isSet
  held : c.HeldAtTop → d.HeldAtTop

theorem Clock.KeepsMarks.trans {d e : Clock} (h : c.KeepsMarks d) (k : d.KeepsMarks e) : c.KeepsMarks e :=
  ⟨k.isSet.trans h.isSet, k.held ∘ h.held⟩

theorem clock_tick_keepsMarks (c : Clock) : c.KeepsMarks c.tick := ⟨clock_tick_isSet c, clock_tick_heldAtTop⟩

theorem clock_count_keepsMarks (c : Clock) : c.KeepsMarks c.count := by
  unfold Clock.count
  split <;> exact ⟨rfl, id⟩

theorem clock_slewed_keepsMarks (c : Clock) : c.KeepsMarks c.slewed := by
  unfold Clock.slewed
  split
  · split
    · exact clock_tick_keepsMarks c
    · exact (clock_tick_keepsMarks c).trans ⟨rfl, id⟩
  · exact ⟨rfl, id⟩

theorem clock_finished_keepsMarks (c : Clock) : c.KeepsMarks c.finished := by
  have hdrop : c.KeepsMarks { c with left := none } := ⟨rfl, id⟩
  unfold Clock.finished
  split
  · exact hdrop
  · exact hdrop.trans (clock_tick_keepsMarks _)
  · exact ⟨rfl, id⟩

theorem clock_period_keepsMarks (c : Clock) : c.KeepsMarks c.period := by
  unfold Clock.period
  split
  · exact ⟨rfl, id⟩
  split
  · exact clock_finished_keepsMarks c
  split
  · exact (clock_slewed_keepsMarks c).trans (clock_finished_keepsMarks _)
  · exact (clock_count_keepsMarks c).trans (clock_tick_keepsMarks _)

/-! ### The base period by its cases (R176, R178) -/

theorem clock_slews_iff : c.slews = true ↔ c.trim ≠ 0 ∧ 63 ≤ c.slew := by
  simp [Clock.slews]

@[simp] theorem clock_finished_left (c : Clock) : c.finished.left = none := by
  unfold Clock.finished
  split
  · rfl
  · exact clock_tick_left _
  · assumption

/-- Log 6: the end of a base period leaves nothing of it to deliver. -/
theorem clock_period_left (hheld : c.held = false) : c.period.left = none := by
  unfold Clock.period
  rw [if_neg (by simp [hheld])]
  split
  · exact clock_finished_left c
  split
  · exact clock_finished_left _
  next hleft _ =>
    have hcount : c.count.left = c.left := by
      unfold Clock.count
      split <;> rfl
    simpa [hcount] using hleft

theorem clock_period_of_held (h : c.held = true) : c.period = c := if_pos h

theorem clock_period_of_left {k : Nat} (hheld : c.held = false) (hleft : c.left = some k) : c.period = c.finished := by
  simp [Clock.period, hheld, hleft]

section NothingLeft

variable (hheld : c.held = false) (hleft : c.left = none)
include hheld hleft

theorem clock_period_of_no_slew (hslew : c.trim = 0 ∨ c.slew < 63) : c.period = c.count.tick := by
  have hno : ¬c.slews = true := fun h => by
    obtain ⟨htrim, hreached⟩ := clock_slews_iff.1 h
    exact hslew.elim htrim (not_lt.2 hreached)
  simp [Clock.period, hheld, hleft, hno]

theorem clock_period_of_slew (htrim : c.trim ≠ 0) (hslew : 63 ≤ c.slew) : c.period = c.slewed.finished := by
  simp [Clock.period, hheld, hleft, clock_slews_iff.2 ⟨htrim, hslew⟩]

/-- R178: a period that slews forward delivers two ticks. -/
theorem clock_period_of_forward (htrim : 0 < c.trim) (hslew : 63 ≤ c.slew) (htop : c.tick.held = false) :
    c.period = { c.tick with trim := c.trim - 1, slew := 0 }.tick := by
  have hslewed : c.slewed = { c.tick with trim := c.trim - 1, slew := 0, left := some 1 } := by
    simp [Clock.slewed, Clock.workOff, htrim, htop]
  rw [clock_period_of_slew hheld hleft htrim.ne' hslew, hslewed]
  simp [Clock.finished, hleft]

/-- R178: a period that slews back delivers no tick. -/
theorem clock_period_of_backward (htrim : c.trim < 0) (hslew : 63 ≤ c.slew) :
    c.period = { c with trim := c.trim + 1, slew := 0 } := by
  have hslewed : c.slewed = { c with trim := c.trim + 1, slew := 0, left := some 0 } := by
    simp [Clock.slewed, Clock.workOff, htrim.not_gt]
  rw [clock_period_of_slew hheld hleft htrim.ne hslew, hslewed]
  simp [Clock.finished, hleft]

end NothingLeft

/-! ### The end of a base period -/

theorem clockWf_left {s : State} (h : s.clockWf = true) {k : Nat} (hk : s.clock.left = some k) : k ≤ 1 := by
  simp only [State.clockWf, Clock.wf, Bool.and_eq_true, hk, optAll, decide_eq_true_eq] at h
  obtain ⟨-, hone⟩ := h
  exact hone

/-- R178: what is left of a base period is one tick or none. -/
theorem clock_finished_of_left {k : Nat} (hticks : c.ticks < 1024) (hleft : c.left = some k) (hk : k ≤ 1) :
    c.finished.epoch = c.epoch + k ∧ c.finished.trim = c.trim ∧ c.finished.slew = c.slew := by
  unfold Clock.finished
  rw [hleft]
  obtain rfl | rfl : k = 0 ∨ k = 1 := by omega
  · exact ⟨(Nat.add_zero _).symm, rfl, rfl⟩
  · exact ⟨clock_tick_epoch _ hticks, clock_tick_trim _, clock_tick_slew _⟩

theorem basePeriodTime_claim : Claims.BasePeriodTime := by
  intro s hwf
  obtain ⟨hticks, htop, hzero⟩ := clockWf_ranges hwf
  have hmarks := clock_period_keepsMarks s.clock
  refine ⟨s.basePeriod, rfl, ?_⟩
  unfold State.epoch
  rw [basePeriod_clock]
  refine ⟨clock_period_of_held, fun hheld hleft => ⟨clock_period_left hheld, fun htrim => ?_, fun htrim hslew => ?_,
    fun hslew htrim hbelow => ?_, fun hslew htrim => ?_⟩, fun k hheld hleft => ⟨clock_period_left hheld, ?_⟩,
    hmarks.isSet, hmarks.held htop⟩
  · have hcount : s.clock.count = s.clock := if_pos htrim
    rw [clock_period_of_no_slew hheld hleft (.inl htrim), hcount]
    exact ⟨clock_tick_epoch _ hticks, (clock_tick_trim _).trans htrim,
      (clock_tick_slew _).trans (hzero.resolve_left (not_not_intro htrim))⟩
  · have hcount : s.clock.count = { s.clock with slew := s.clock.slew + 1 } := if_neg htrim
    rw [clock_period_of_no_slew hheld hleft (.inr hslew), hcount]
    exact ⟨clock_tick_epoch _ hticks, clock_tick_trim _, clock_tick_slew _⟩
  · have hfirst := clock_tick_not_held hticks htop hheld hbelow
    rw [clock_period_of_forward hheld hleft htrim hslew.ge hfirst]
    have hsecond := clock_tick_epoch { s.clock.tick with trim := s.clock.trim - 1, slew := 0 }
      (clock_tick_ticks_lt hticks)
    exact ⟨hsecond.trans (congrArg Nat.succ (clock_tick_epoch _ hticks)), clock_tick_trim _, clock_tick_slew _⟩
  · rw [clock_period_of_backward hheld hleft htrim hslew.ge]
    exact ⟨rfl, rfl, rfl⟩
  · rw [clock_period_of_left hheld hleft]
    exact clock_finished_of_left hticks hleft (clockWf_left hwf hleft)

/-! ### The row of the slew count (log 6, log 47) -/

section SlewRow

variable {s : State}

theorem slewComplete_of_slews (hheld : s.clock.held = false) (hleft : s.clock.left = none) (htrim : s.clock.trim ≠ 0)
    (hslew : 63 ≤ s.clock.slew) : s.slewComplete = s.slew := by
  simp [State.slewComplete, hheld, hleft, clock_slews_iff.2 ⟨htrim, hslew⟩]

theorem slewComplete_of_not_slews (h : s.clock.held = true ∨ s.clock.left.isSome = true ∨ s.clock.trim = 0 ∨
    s.clock.slew < 63) : s.slewComplete = s := by
  refine if_neg fun hslews => ?_
  simp only [Bool.and_eq_true, Bool.not_eq_true', Option.isNone_iff_eq_none, clock_slews_iff] at hslews
  obtain ⟨⟨hheld, hleft⟩, htrim, hreached⟩ := hslews
  rcases h with h | h | h | h
  · simp [hheld] at h
  · simp [hleft] at h
  · exact htrim h
  · omega

/-- R178: a backward slew writes the clock alone. -/
theorem slew_of_backward (h : s.clock.trim < 0) : s.slew =
    { s with clock := { s.clock with trim := s.clock.trim + 1, slew := 0, left := some 0 } } := by
  simp [State.slew, State.setClock, Clock.workOff, h.not_gt]

theorem slewCountComplete_claim : Claims.SlewCountComplete := by
  intro s
  refine ⟨fun hheld hleft htrim hslew => ?_, fun hwf hheld hleft htrim hslew hbelow => ?_, fun h => ?_⟩
  · exact congrArg Host.Outcome.next ((slewComplete_of_slews hheld hleft htrim.ne hslew).trans (slew_of_backward htrim))
  · obtain ⟨hticks, htop, -⟩ := clockWf_ranges hwf
    have hfirst := clock_tick_not_held hticks htop hheld hbelow
    refine ⟨s.slew, congrArg Host.Outcome.next (slewComplete_of_slews hheld hleft htrim.ne' hslew.ge), ?_⟩
    have hclock : s.slew.clock = { s.clock.tick with trim := s.clock.trim - 1, slew := 0, left := some 1 } := by
      simp [slew_clock, Clock.slewed, Clock.workOff, htrim, hfirst]
    rw [State.epoch, hclock]
    exact ⟨clock_tick_epoch _ hticks, rfl, rfl, rfl, hfirst, clock_tick_isSet _⟩
  · exact congrArg Host.Outcome.next (slewComplete_of_not_slews h)

end SlewRow

/-- Settles O23: the end of a base period by the clock's own cases, and the row by whether the period slews. -/
theorem basePeriods : Obligations.BasePeriods := ⟨basePeriodTime_claim, slewCountComplete_claim⟩

end Sys2Proof.Machine
end

