-- ==== Sys2Proof/Proofs/SurveyClock/Commands.lean ====
section
/-! SUPPORT. SET CLOCK, TRIM CLOCK and READ CLOCK (R177 to R179), and READ CONSTANTS (R174). -/

namespace Sys2Proof.Machine

open Sys2Proof

variable {s : State}

/-! ### SET CLOCK (R177) -/

/-- R177: the range check of SET CLOCK. -/
theorem timeOutOfRange_iff {sec tick : Nat} :
    (!decide (sec ≤ Config.topSeconds) || !decide (tick < 1024)) = true ↔ 4294967295 < sec ∨ 1023 < tick := by
  simp only [Bool.or_eq_true, Bool.not_eq_true', decide_eq_false_iff_not]
  unfold Config.topSeconds
  omega

theorem setClockBody_of_out_of_range {sec tick : Nat} (h : 4294967295 < sec ∨ 1023 < tick) :
    setClockBody sec tick s = s.refuse .badValue := if_pos (timeOutOfRange_iff.2 h)

/-- R177: a time in range is refused only where a SET clock meets a record in the pool. -/
theorem setClockBody_of_in_range {sec tick : Nat} (hsec : sec ≤ 4294967295) (htick : tick ≤ 1023) :
    setClockBody sec tick s = if s.clock.isSet = true ∧ s.occs ≠ [] then s.refuse .busy
      else (s.setClock (s.clock.setTo sec tick)).respond .ok (u48 (sec * 1024 + tick)) := by
  have hrange : ¬(4294967295 < sec ∨ 1023 < tick) := not_or.2 ⟨not_lt.2 hsec, not_lt.2 htick⟩
  have hbusy : (s.clock.isSet && !s.occs.isEmpty) = true ↔ s.clock.isSet = true ∧ s.occs ≠ [] := by simp
  rw [setClockBody, if_neg (mt timeOutOfRange_iff.1 hrange)]
  simp only [hbusy]
  rfl

theorem setClock_claim : Claims.SetClock := by
  intro s sec tick hs
  have hx : exec (.setClock sec tick) s = .next (setClockBody sec tick s) := hostCommand_of_serves _ hs
  rw [hx]
  refine ⟨fun hsec htick h => ?_, fun h => by rw [setClockBody_of_out_of_range h], fun hsec htick hset hocc => ?_⟩
  · have hfree : ¬(s.clock.isSet = true ∧ s.occs ≠ []) := fun ⟨hset, hocc⟩ =>
      h.elim (by simp [hset]) hocc
    rw [setClockBody_of_in_range hsec htick, if_neg hfree]
    rfl
  · rw [setClockBody_of_in_range hsec htick, if_pos ⟨hset, hocc⟩]

/-! ### TRIM CLOCK (R178) -/

theorem trimClockBody_of_out_of_range {k : Int} (h : k < -2048 ∨ 2048 < k) :
    trimClockBody k s = s.refuse .badValue := by
  refine if_pos ?_
  rw [Bool.not_eq_true', Bool.eq_false_iff, Ne, inRange_iff]
  omega

theorem trimClockBody_of_in_range {k : Int} (hlo : -2048 ≤ k) (hhi : k ≤ 2048) : trimClockBody k s =
    if s.clock.isSet then ({ s with clock := { s.clock with trim := k, slew := 0 } } : State).respond .ok
      (u48 (s.clock.seconds * 1024 + s.clock.ticks))
    else s.refuse .clockUnset := by
  rw [trimClockBody, if_neg (by simp [inRange_iff.2 ⟨hlo, hhi⟩])]
  cases s.clock.isSet <;> rfl

theorem trimClock_claim : Claims.TrimClock := by
  intro s k hs
  have hx : exec (.trimClock k) s = .next (trimClockBody k s) := hostCommand_of_serves _ hs
  rw [hx]
  refine ⟨fun hlo hhi hset => ?_, fun h => by rw [trimClockBody_of_out_of_range h], fun hlo hhi hset => ?_⟩
  · rw [trimClockBody_of_in_range hlo hhi, if_pos hset]
  · rw [trimClockBody_of_in_range hlo hhi, if_neg (by simp [hset])]

/-! ### The commands of READY and RESTORE, by the part state (R186) -/

theorem serves_readyRestore {i : Instr} (h : s.linkTakes i = true) (hp : s.part = .ready ∨ s.part = .restore) :
    s.serves i .readyRestore = true := by
  rcases hp with hp | hp <;> simp [State.serves, h, hp, Access.taken]

theorem hostCommand_of_starting {i : Instr} (body : State → State) (h : s.linkTakes i = true)
    (hp : s.part = .starting) : hostCommand i .readyRestore body s = .next (s.refuse .notInService) :=
  hostCommand_of_not_taken body h (by rw [hp]; rfl)

/-! ### READ CLOCK (R179) -/

theorem readClock_claim : Claims.ReadClock := fun _ hl =>
  ⟨fun hp => hostCommand_of_serves readClockBody (serves_readyRestore hl hp), hostCommand_of_starting readClockBody hl⟩

/-- Settles O22: SET CLOCK and TRIM CLOCK by the range of their operands, and READ CLOCK by the part state. -/
theorem clockCommands : Obligations.ClockCommands := ⟨setClock_claim, trimClock_claim, readClock_claim⟩

/-! ### READ CONSTANTS (R170, R174) -/

/-- R170: a record that carries the mark, or gains it in this read. -/
theorem readConstantsBody_of_bad (h : s.constants.damaged = true ∨ s.constants.sound = false) : readConstantsBody s =
    (({ s with constants := { s.constants with damaged := true } } : State).raise .memoryError).refuse .damaged := by
  rw [readConstantsBody, checkConstants_raises h]
  rfl

theorem readConstantsBody_of_sound (hd : s.constants.damaged = false) (hs : s.constants.sound = true) :
    readConstantsBody s = s.respond .ok (constantsBytes s.constants) := by
  rw [readConstantsBody, checkConstants_of_sound hs hd]
  exact if_neg (by simp [hd])

/-- Settles O29: the answer by the mark and the check of the record that is read. -/
theorem readConstants : Obligations.ReadConstants := by
  refine fun s hl => ⟨fun hp => ?_, hostCommand_of_starting readConstantsBody hl⟩
  have hx : exec .readConstants s = .next (readConstantsBody s) := hostCommand_of_serves _ (serves_readyRestore hl hp)
  rw [hx]
  refine ⟨fun hd => ?_, fun _ hs => by rw [readConstantsBody_of_bad (.inr hs)], fun hd hs => ?_⟩
  · have hsame : { s.constants with damaged := true } = s.constants := by rw [← hd]
    rw [readConstantsBody_of_bad (.inl hd), hsame]
  · rw [readConstantsBody_of_sound hd hs]
    rfl

end Sys2Proof.Machine
end

