-- ==== Sys2Proof/Proofs/HostLink/FieldReads.lean ====
section
/-! SUPPORT. Reading back what a frame's writer wrote (R181): a reader that takes exactly the bytes of a field, for each
kind of field and for the payload of each host command. -/

namespace Sys2Proof.Machine

open Sys2Proof

/-- The reader takes exactly the bytes `w`, whatever follows them, and reads them as `v`. -/
def Reads {α : Type} (p : Parse α) (w : List Byte) (v : α) : Prop := ∀ rest, p (w ++ rest) = some (v, rest)

section
variable {α β : Type} {p : Parse α} {w : List Byte} {v : α}

/-- A field, and then what the rest of the payload is read as. -/
theorem Reads.seq {f : α × List Byte → Option (β × List Byte)} {w' : List Byte} {u : β} (h : Reads p w v)
    (hf : Reads (fun b => f (v, b)) w' u) : Reads (fun b => p b >>= f) (w ++ w') u := by
  intro rest
  rw [List.append_assoc]
  change (p (w ++ (w' ++ rest))).bind f = _
  rw [h, Option.bind_some]
  exact hf rest

/-- The last field of a payload. -/
theorem Reads.last {f : α × List Byte → Option (β × List Byte)} {u : β} (h : Reads p w v)
    (hf : ∀ b, f (v, b) = some (u, b)) : Reads (fun b => p b >>= f) w u := by
  intro rest
  change (p (w ++ rest)).bind f = _
  rw [h, Option.bind_some, hf]

theorem Reads.map (h : Reads p w v) (g : α → β) : Reads (fun b => (p b).map fun r => (g r.1, r.2)) w (g v) :=
  fun rest => by simp only [h rest, Option.map_some]

/-! ### Numbers -/

theorem beNat_beBytes (k n : Nat) : beNat (beBytes k n) = n % 256 ^ k := by
  have hfold : beNat (beBytes k n) = (beBytes k n).foldl (fun a x => 256 * a + x.toNat) 0 := by
    simp only [beNat, Nat.mul_comm]
  rw [hfold, foldl_beBytes, Nat.zero_mul, Nat.zero_add]

theorem length_beBytesS (k : Nat) (z : Int) : (beBytesS k z).length = k := length_beBytes k _

/-- The bytes of two's complement spell the number's residue. -/
theorem beNat_beBytesS (k : Nat) (z : Int) : (beNat (beBytesS k z) : Int) = z % 256 ^ k := by
  have hpos : (0 : Int) < 256 ^ k := by positivity
  have hnonneg : 0 ≤ z % 256 ^ k := Int.emod_nonneg z hpos.ne'
  have hlt : z % 256 ^ k < 256 ^ k := Int.emod_lt_of_pos z hpos
  rw [beBytesS, beNat_beBytes, Nat.mod_eq_of_lt (by zify; omega)]
  push_cast
  omega

/-- The two's complement of `k` bytes, read back. -/
theorem beInt_beBytesS {k : Nat} {z : Int} (hk : 1 ≤ k) (h : fitsS k z = true) : beInt (beBytesS k z) = z := by
  obtain ⟨m, rfl⟩ : ∃ m, k = m + 1 := ⟨k - 1, by omega⟩
  simp only [fitsS, Nat.add_sub_cancel, Bool.and_eq_true, decide_eq_true_eq] at h
  obtain ⟨hlo, hhi⟩ := h
  have hpow : (256 : Int) ^ (m + 1) = 256 * 256 ^ m := by ring
  have hval : (beNat (beBytesS (m + 1) z) : Int) = if 0 ≤ z then z else z + 256 * 256 ^ m := by
    rw [beNat_beBytesS, hpow]
    split
    · exact Int.emod_eq_of_lt (by omega) (by omega)
    · rw [← Int.add_emod_right, Int.emod_eq_of_lt (by omega) (by omega)]
  have hsign : beNat (beBytesS (m + 1) z) < 128 * 256 ^ m ↔ 0 ≤ z := by
    zify
    rw [hval]
    split <;> omega
  simp only [beInt, length_beBytesS, Nat.add_sub_cancel, hsign]
  rw [hval]
  push_cast
  split <;> omega

theorem takeBytes_append (w rest : List Byte) : takeBytes w.length (w ++ rest) = some (w, rest) := by
  rw [takeBytes, if_pos (by simp), List.take_left, List.drop_left]

theorem reads_beBytes {k n : Nat} (h : fitsU k n = true) : Reads (pU k) (beBytes k n) n := by
  intro rest
  have htake := takeBytes_append (beBytes k n) rest
  rw [length_beBytes] at htake
  rw [pU, htake, Option.map_some, beNat_beBytes, Nat.mod_eq_of_lt (of_decide_eq_true h)]

theorem reads_beBytesS {k : Nat} {z : Int} (hk : 1 ≤ k) (h : fitsS k z = true) : Reads (pS k) (beBytesS k z) z := by
  intro rest
  have htake := takeBytes_append (beBytesS k z) rest
  rw [length_beBytesS] at htake
  rw [pS, htake, Option.map_some, beInt_beBytesS hk h]

theorem reads_u8 {n : Nat} (h : fitsU 1 n = true) : Reads (pU 1) (u8 n) n := reads_beBytes h
theorem reads_u16 {n : Nat} (h : fitsU 2 n = true) : Reads (pU 2) (u16 n) n := reads_beBytes h
theorem reads_u24 {n : Nat} (h : fitsU 3 n = true) : Reads (pU 3) (u24 n) n := reads_beBytes h
theorem reads_u32 {n : Nat} (h : fitsU 4 n = true) : Reads (pU 4) (u32 n) n := reads_beBytes h
theorem reads_u48 {n : Nat} (h : fitsU 6 n = true) : Reads (pU 6) (u48 n) n := reads_beBytes h
theorem reads_s16 {z : Int} (h : fitsS 2 z = true) : Reads (pS 2) (s16 z) z := reads_beBytesS (by decide) h
theorem reads_s24 {z : Int} (h : fitsS 3 z = true) : Reads (pS 3) (s24 z) z := reads_beBytesS (by decide) h
theorem reads_s32 {z : Int} (h : fitsS 4 z = true) : Reads (pS 4) (s32 z) z := reads_beBytesS (by decide) h

theorem reads_tag (t : BitVec 32) : Reads pTag (tagBytes t) t := by
  have h := (reads_u32 (n := t.toNat) (decide_eq_true t.isLt)).map (BitVec.ofNat 32)
  rw [BitVec.ofNat_toNat, BitVec.setWidth_eq] at h
  exact h

/-! ### Exact integers -/

/-- The width that is chosen holds the number, if the greatest one on offer does. -/
theorem fewestBytes_spec {z : Int} (fuel k : Nat) (h : fitsS (k + fuel) z = true) :
    fitsS (fewestBytes fuel k z) z = true ∧ k ≤ fewestBytes fuel k z ∧ fewestBytes fuel k z ≤ k + fuel := by
  induction fuel generalizing k with
  | zero => exact ⟨h, le_rfl, le_rfl⟩
  | succ fuel ih =>
    rw [fewestBytes]
    split
    · next hfits => exact ⟨hfits, le_rfl, by omega⟩
    · obtain ⟨hfits, hlo, hhi⟩ := ih (k + 1) (by rwa [Nat.add_right_comm])
      exact ⟨hfits, by omega, by omega⟩

theorem reads_exact {z : Int} (h : fitsS 16 z = true) : Reads pExact (exactBytes z) z := by
  obtain ⟨hfits, hlo, hhi⟩ := fewestBytes_spec 15 1 h
  have hk : fitsU 1 (fewestBytes 15 1 z) = true := decide_eq_true (by omega)
  have hbytes : exactBytes z = u8 (fewestBytes 15 1 z) ++ beBytesS (fewestBytes 15 1 z) z := by
    simp [exactBytes, u8, beBytes]
  intro rest
  rw [pExact, hbytes, List.append_assoc, reads_u8 hk]
  simp only [if_pos (And.intro hlo hhi)]
  exact reads_beBytesS hlo hfits rest

/-! ### Optional fields and lists -/

theorem reads_opt {f : α → List Byte} {fit : α → Bool} {o : Option α} (ho : fitsOpt fit o = true)
    (hp : ∀ v, fit v = true → Reads p (f v) v) : Reads (pOpt p) (optBytes f o) o := by
  intro rest
  cases o with
  | none => rfl
  | some v =>
    have hpresent : pOpt p (optBytes f (some v) ++ rest) = (p (f v ++ rest)).map fun r => (some r.1, r.2) := rfl
    rw [hpresent, hp v ho, Option.map_some]

/-- An optional field of which every value can be sent. -/
theorem reads_opt_all {f : α → List Byte} (hp : ∀ v, Reads p (f v) v) (o : Option α) :
    Reads (pOpt p) (optBytes f o) o :=
  reads_opt (fit := fun _ => true) (by cases o <;> rfl) fun v _ => hp v

theorem reads_many {f : α → List Byte} {l : List α} (hp : ∀ v ∈ l, Reads p (f v) v) :
    Reads (pMany p l.length) (l.flatMap f) l := by
  induction l with
  | nil => exact fun _ => rfl
  | cons v l ih =>
    intro rest
    rw [List.flatMap_cons, List.append_assoc, List.length_cons, pMany, hp v List.mem_cons_self]
    simp only [ih (fun u hu => hp u (List.mem_cons_of_mem _ hu)) rest, Option.map_some]

theorem reads_list {f : α → List Byte} {l : List α} {limit : Nat} (hlimit : limit < 256) (hl : l.length ≤ limit)
    (hp : ∀ v ∈ l, Reads p (f v) v) : Reads (pList limit p) (listBytes f l) l := by
  intro rest
  have hcount : fitsU 1 l.length = true := decide_eq_true (by omega)
  rw [pList, listBytes, List.append_assoc, reads_u8 hcount]
  simp only [if_pos hl]
  exact reads_many hp rest

end

theorem reads_u16_list {l : List Nat} {limit : Nat} (hlimit : limit < 256) (hl : l.length ≤ limit)
    (h : l.all (fitsU 2) = true) : Reads (pList limit (pU 2)) (listBytes u16 l) l :=
  reads_list hlimit hl fun n hn => reads_u16 (List.all_eq_true.1 h n hn)

end Sys2Proof.Machine
end

