-- ==== Sys2Proof/Proofs/HostLink/FrameReads.lean ====
section
/-! SUPPORT. The payload of each host command read back (R181), and the frame as a whole (R182). -/

namespace Sys2Proof.Machine

open Sys2Proof

/-- The code of the command's frame has a reader, and that takes exactly the payload and reads it as the command. -/
def FrameReads (i : Instr) : Prop :=
  ∀ code payload, i.frame = some (code, payload) → ∃ q, parserOf code = some q ∧ Reads q payload i

theorem FrameReads.intro {i : Instr} {code : Nat} {payload : List Byte} {q : Parse Instr}
    (hframe : i.frame = some (code, payload)) (hq : parserOf code = some q) (h : Reads q payload i) : FrameReads i := by
  intro code' payload' hframe'
  obtain ⟨rfl, rfl⟩ : code = code' ∧ payload = payload' := by simpa [hframe] using hframe'
  exact ⟨q, hq, h⟩

/-! ### Payloads of one form -/

theorem reads_none (i : Instr) : Reads (pNone i) [] i := fun _ => rfl

theorem reads_one {k : Nat} {w : List Byte} {n : Nat} (h : Reads (pU k) w n) (f : Nat → Instr) :
    Reads (pOne k f) w (f n) := h.map f

theorem reads_two {k m : Nat} {u v : List Byte} {a b : Nat} (ha : Reads (pU k) u a) (hb : Reads (pU m) v b)
    (f : Nat → Nat → Instr) : Reads (pTwo k m f) (u ++ v) (f a b) :=
  ha.seq <| hb.last fun _ => rfl

/-! ### The station commands and BEGIN READING -/

theorem frameReads_openStation {r : OpenStationReq} (h : r.fits = true) : FrameReads (.openStation r) := by
  simp only [OpenStationReq.fits, Bool.and_eq_true] at h
  obtain ⟨⟨⟨⟨hnumber, hrole⟩, hsite⟩, href⟩, hpinned⟩ := h
  refine .intro rfl rfl ?_
  simp only [List.append_assoc]
  exact (reads_u16 hnumber).seq <| (reads_u8 hrole).seq <| (reads_u8 hsite).seq <|
    (reads_opt href fun _ => reads_u32).seq <| (reads_u8 hpinned).seq <| (reads_tag r.tag).last fun _ => rfl

theorem reads_refAction {a : RefAction} (h : a.fits = true) : Reads pRefAction a.bytes a := by
  intro rest
  cases a with
  | set v =>
    have hset : pRefAction ((u8 0 ++ u32 v) ++ rest) = (pU 4 (u32 v ++ rest)).map fun r => (.set r.1, r.2) := rfl
    rw [RefAction.bytes, hset, reads_u32 h, Option.map_some]
  | clear => rfl
  | unnamed c =>
    simp only [RefAction.fits, Bool.and_eq_true, decide_eq_true_eq] at h
    obtain ⟨hfit, hc⟩ := h
    obtain ⟨m, rfl⟩ : ∃ m, c = m + 2 := ⟨c - 2, by omega⟩
    rw [RefAction.bytes, pRefAction, reads_u8 hfit]
    rfl

theorem frameReads_editStation {r : EditStationReq} (h : r.fits = true) : FrameReads (.editStation r) := by
  simp only [EditStationReq.fits, Bool.and_eq_true] at h
  obtain ⟨⟨⟨⟨hnumber, hrole⟩, hsite⟩, href⟩, hpinned⟩ := h
  refine .intro rfl rfl ?_
  simp only [List.append_assoc]
  exact (reads_u16 hnumber).seq <| (reads_opt hrole fun _ => reads_u8).seq <|
    (reads_opt hsite fun _ => reads_u8).seq <| (reads_opt href fun _ => reads_refAction).seq <|
    (reads_opt hpinned fun _ => reads_u8).seq <| (reads_opt_all reads_tag r.tag).last fun _ => rfl

theorem frameReads_beginReading {r : BeginReadingReq} (h : r.fits = true) : FrameReads (.beginReading r) := by
  simp only [BeginReadingReq.fits, Bool.and_eq_true] at h
  obtain ⟨⟨⟨⟨hnumber, hloop⟩, hduration⟩, hsettle⟩, habort⟩ := h
  refine .intro rfl rfl ?_
  simp only [List.append_assoc]
  exact (reads_u16 hnumber).seq <| (reads_opt hloop fun _ => reads_u8).seq <| (reads_u16 hduration).seq <|
    (reads_u16 hsettle).seq <| (reads_u8 habort).last fun _ => rfl

/-! ### The commands of loops, tide tables, constants and jobs -/

theorem frameReads_closeLoop {l o m t : Nat} (h : (Instr.closeLoop l o m t).wellFormed = true) :
    FrameReads (.closeLoop l o m t) := by
  simp only [Instr.wellFormed, Bool.and_eq_true] at h
  obtain ⟨⟨⟨hloop, hocc⟩, hmode⟩, htag⟩ := h
  refine .intro rfl rfl ?_
  simp only [List.append_assoc]
  exact (reads_u8 hloop).seq <| (reads_u16 hocc).seq <| (reads_u8 hmode).seq <| (reads_u8 htag).last fun _ => rfl

theorem frameReads_writeConstituent {k e sp ph : Nat} (h : (Instr.writeConstituent k e sp ph).wellFormed = true) :
    FrameReads (.writeConstituent k e sp ph) := by
  simp only [Instr.wellFormed, Bool.and_eq_true] at h
  obtain ⟨⟨⟨hnumber, henabled⟩, hspeed⟩, hphase⟩ := h
  refine .intro rfl rfl ?_
  simp only [List.append_assoc]
  exact (reads_u8 hnumber).seq <| (reads_u8 henabled).seq <| (reads_u24 hspeed).seq <|
    (reads_u16 hphase).last fun _ => rfl

theorem reads_pair {p : Nat × Nat} (h : (fitsU 2 p.1 && fitsU 2 p.2) = true) :
    Reads pPair (u16 p.1 ++ u16 p.2) p := by
  obtain ⟨hamp, hphase⟩ := Bool.and_eq_true_iff.1 h
  exact (reads_u16 hamp).seq <| (reads_u16 hphase).last fun _ => rfl

theorem frameReads_writeSite {st : Nat} {ps : List (Nat × Nat)} (h : (Instr.writeSite st ps).wellFormed = true) :
    FrameReads (.writeSite st ps) := by
  simp only [Instr.wellFormed, Bool.and_eq_true, decide_eq_true_eq] at h
  obtain ⟨⟨hsite, hlen⟩, hall⟩ := h
  have hpairs : Reads (pMany pPair 12) (ps.flatMap fun p => u16 p.1 ++ u16 p.2) ps :=
    hlen ▸ reads_many fun p hp => reads_pair (List.all_eq_true.1 hall p hp)
  refine .intro rfl rfl ?_
  exact (reads_u8 hsite).seq <| hpairs.last fun _ => rfl

theorem reads_constNums {c : ConstNums} (h : c.toList.all (fitsS 4) = true) : Reads pConstNums c.bytes c := by
  simp only [ConstNums.toList, List.all_cons, Bool.and_eq_true] at h
  obtain ⟨hGravity, hScale, hRangeOffset, hZeroX, hZeroY, hScaleX, hScaleY, hTiltGate, hZeroT, hScaleT, hTempGate,
    hc1, hc2, hLagFactor, hTiltLimit, hDriftLimit, hLoopHours, hGradeA, hGradeB, hBreakLimit, -⟩ := h
  unfold ConstNums.bytes
  simp only [List.append_assoc]
  exact (reads_s32 hGravity).seq <| (reads_s32 hScale).seq <| (reads_s32 hRangeOffset).seq <|
    (reads_s32 hZeroX).seq <| (reads_s32 hZeroY).seq <| (reads_s32 hScaleX).seq <| (reads_s32 hScaleY).seq <|
    (reads_s32 hTiltGate).seq <| (reads_s32 hZeroT).seq <| (reads_s32 hScaleT).seq <| (reads_s32 hTempGate).seq <|
    (reads_s32 hc1).seq <| (reads_s32 hc2).seq <| (reads_s32 hLagFactor).seq <| (reads_s32 hTiltLimit).seq <|
    (reads_s32 hDriftLimit).seq <| (reads_s32 hLoopHours).seq <| (reads_s32 hGradeA).seq <| (reads_s32 hGradeB).seq <|
    (reads_s32 hBreakLimit).last fun _ => rfl

theorem frameReads_writeConstants {r : WriteConstantsReq} (h : r.fits = true) : FrameReads (.writeConstants r) := by
  simp only [WriteConstantsReq.fits, Bool.and_eq_true] at h
  obtain ⟨⟨⟨⟨hnums, hmode⟩, hx⟩, hy⟩, ht⟩ := h
  refine .intro rfl rfl ?_
  simp only [List.append_assoc]
  exact (reads_constNums hnums).seq <| (reads_u8 hmode).seq <| (reads_u8 hx).seq <| (reads_u8 hy).seq <|
    (reads_u8 ht).last fun _ => rfl

theorem frameReads_submitJob {k t g : Nat} (h : (Instr.submitJob k t g).wellFormed = true) :
    FrameReads (.submitJob k t g) := by
  simp only [Instr.wellFormed, Bool.and_eq_true] at h
  obtain ⟨⟨hkind, htarget⟩, htag⟩ := h
  refine .intro rfl rfl ?_
  simp only [List.append_assoc]
  exact (reads_u8 hkind).seq <| (reads_u16 htarget).seq <| (reads_u8 htag).last fun _ => rfl

/-! ### RESTART ENGINE, NEXT CHANGED and the event masks -/

theorem frameReads_restartRetry {a : Nat} (h : (Instr.restartEngineRetry a).wellFormed = true) :
    FrameReads (.restartEngineRetry a) := by
  simp only [Instr.wellFormed, Bool.and_eq_true, decide_eq_true_eq] at h
  obtain ⟨hfit, hretry⟩ := h
  have hread := reads_one (reads_u8 hfit) restartOf
  rw [restartOf, if_neg hretry] at hread
  exact .intro rfl rfl hread

theorem frameReads_nextChanged {k : Option Nat} (h : fitsOpt (fitsU 2) k = true) : FrameReads (.nextChanged k) :=
  .intro rfl rfl ((reads_opt h fun _ => reads_u16).map Instr.nextChanged)

theorem reads_mask (m : BitVec 16) (f : BitVec 16 → Instr) :
    Reads (pOne 2 fun n => f (BitVec.ofNat 16 n)) (u16 m.toNat) (f m) := by
  have h := reads_one (reads_u16 (n := m.toNat) (decide_eq_true m.isLt)) fun n => f (BitVec.ofNat 16 n)
  rw [BitVec.ofNat_toNat, BitVec.setWidth_eq] at h
  exact h

/-! ### The loads of a restore -/

theorem frameReads_loadStation {r : LoadStationReq} (h : r.fits = true) : FrameReads (.loadStation r) := by
  simp only [LoadStationReq.fits, Bool.and_eq_true, decide_eq_true_eq] at h
  obtain ⟨⟨⟨⟨⟨⟨⟨hnumber, hrole⟩, hsite⟩, href⟩, hpinned⟩, hchanged⟩, hlen⟩, hlist⟩ := h
  refine .intro rfl rfl ?_
  simp only [List.append_assoc]
  exact (reads_u16 hnumber).seq <| (reads_u8 hrole).seq <| (reads_u8 hsite).seq <|
    (reads_opt href fun _ => reads_u32).seq <| (reads_u8 hpinned).seq <| (reads_tag r.tag).seq <|
    (reads_u8 hchanged).seq <| (reads_u16_list (by decide) hlen hlist).last fun _ => rfl

theorem reads_loadSums {r : LoadSums} (h : r.fits = true) : Reads pLoadSums r.bytes r := by
  simp only [LoadSums.fits, List.all_cons, Bool.and_eq_true] at h
  obtain ⟨⟨⟨⟨⟨⟨⟨⟨hSumX, hSumX2, hN, hSumT, hTiltX2, hMx, hTiltY2, hMy, hSumTemp, hSumLag, hK, -⟩, hoverload⟩,
    hclamped⟩, hbreaks⟩, hlastX⟩, hlastY⟩, hlastT⟩, hlastL⟩ := h
  unfold LoadSums.bytes
  simp only [List.append_assoc]
  exact (reads_exact hSumX).seq <| (reads_exact hSumX2).seq <| (reads_exact hN).seq <| (reads_exact hSumT).seq <|
    (reads_exact hTiltX2).seq <| (reads_exact hMx).seq <| (reads_exact hTiltY2).seq <| (reads_exact hMy).seq <|
    (reads_exact hSumTemp).seq <| (reads_exact hSumLag).seq <| (reads_exact hK).seq <| (reads_u16 hoverload).seq <|
    (reads_u16 hclamped).seq <| (reads_u16 hbreaks).seq <| (reads_opt hlastX fun _ => reads_s16).seq <|
    (reads_opt hlastY fun _ => reads_s16).seq <| (reads_opt hlastT fun _ => reads_s24).seq <|
    (reads_opt hlastL fun _ => reads_s24).last fun _ => rfl

theorem reads_results {r : Results} (h : r.fits = true) : Reads pResults r.bytes r := by
  simp only [Results.fits, Bool.and_eq_true, decide_eq_true_eq] at h
  obtain ⟨⟨⟨⟨⟨⟨⟨⟨hraw, hnoise⟩, hctilt⟩, hctemp⟩, hctide⟩, hv⟩, hrev⟩, hsite⟩, hsiteRev⟩ := h
  have htilt : Reads (pU 2) (u16 r.ctilt.toNat) r.ctilt.toNat := reads_u16 (decide_eq_true (by omega))
  have hback : (r.ctilt.toNat : Int) = r.ctilt := Int.toNat_of_nonneg hctilt.1
  unfold Results.bytes
  simp only [List.append_assoc]
  exact (reads_s32 hraw).seq <| (reads_opt hnoise fun _ => reads_u32).seq <| htilt.seq <| (reads_s24 hctemp).seq <|
    (reads_s16 hctide).seq <| (reads_s32 hv).seq <| (reads_u16 hrev).seq <| (reads_u8 hsite).seq <|
    (reads_u16 hsiteRev).last fun _ => by rw [hback]

theorem reads_drift {d : DriftPart} (h : d.fits = true) : Reads pDrift d.bytes d := by
  simp only [DriftPart.fits, Bool.and_eq_true] at h
  obtain ⟨⟨⟨⟨hcorrection, hfinal⟩, hvOpen⟩, hrOpen⟩, hrate⟩ := h
  unfold DriftPart.bytes
  simp only [List.append_assoc]
  exact (reads_s32 hcorrection).seq <| (reads_s32 hfinal).seq <| (reads_s32 hvOpen).seq <|
    (reads_opt hrOpen fun _ => reads_u32).seq <| (reads_s32 hrate).last fun _ => rfl

theorem flagByte_eq (b : Bool) : flagByte b = [if b then 1 else 0] := by cases b <;> rfl

theorem flatMap_flagByte (l : List Bool) : l.flatMap flagByte = l.map fun b => if b then 1 else 0 := by
  rw [List.map_eq_flatMap]
  exact congrArg (List.flatMap · l) (funext flagByte_eq)

theorem reads_flags (f : Flags) : Reads (takeBytes 17) (f.toList.flatMap flagByte) (f.toList.flatMap flagByte) := by
  have hlen : (f.toList.flatMap flagByte).length = 17 := by rw [flatMap_flagByte, List.length_map]; rfl
  exact fun rest => hlen ▸ takeBytes_append _ rest

theorem flagsOfBytes_flags (f : Flags) : flagsOfBytes (f.toList.flatMap flagByte) = f := by
  have hbit : ∀ b : Bool, decide ((if b then (1 : Byte) else 0) = 1) = b := by decide
  rw [flatMap_flagByte]
  simp only [flagsOfBytes, Flags.toList, List.map_cons, List.getD_cons_zero, List.getD_cons_succ, hbit]

theorem flagBytes_even (f : Flags) : ((f.toList.flatMap flagByte).all fun c => c = 0 || c = 1) = true := by
  rw [flatMap_flagByte, List.all_map, List.all_eq_true]
  exact fun b _ => by cases b <;> rfl

theorem frameReads_loadOccupation {i : Nat} {r : LoadOccupationReq} (hi : fitsU 2 i = true) (h : r.fits = true)
    (hodd : r.oddFlag = false) : FrameReads (.loadOccupation i r) := by
  simp only [LoadOccupationReq.fits, Bool.and_eq_true] at h
  obtain ⟨⟨⟨⟨⟨⟨⟨⟨⟨⟨⟨⟨hstate, hnumber⟩, hsettle⟩, hduration⟩, habort⟩, hmember⟩, hopens⟩, hstart⟩, hepoch⟩, hrev⟩,
    hsums⟩, hresults⟩, hdrift⟩ := h
  refine .intro rfl rfl ?_
  simp only [List.append_assoc, hodd, Bool.false_eq_true, if_false]
  exact (reads_u16 hi).seq <| (reads_u8 hstate).seq <| (reads_u16 hnumber).seq <| (reads_u16 hsettle).seq <|
    (reads_u16 hduration).seq <| (reads_u8 habort).seq <| (reads_opt hmember fun _ => reads_u8).seq <|
    (reads_opt hopens fun _ => reads_u8).seq <| (reads_opt hstart fun _ => reads_u48).seq <|
    (reads_opt hepoch fun _ => reads_u48).seq <| (reads_opt hrev fun _ => reads_u16).seq <|
    (reads_loadSums hsums).seq <| (reads_flags r.flags).seq <| (reads_opt hresults fun _ => reads_results).seq <|
    (reads_opt hdrift fun _ => reads_drift).last fun _ => by
      rw [flagsOfBytes_flags, flagBytes_even, Bool.not_true, ← hodd]

theorem frameReads_loadLoop {r : LoadLoopReq} (h : r.fits = true) : FrameReads (.loadLoop r) := by
  simp only [LoadLoopReq.fits, Bool.and_eq_true, decide_eq_true_eq] at h
  obtain ⟨⟨⟨⟨⟨⟨⟨⟨⟨⟨⟨⟨hloop, hstate⟩, hopen⟩, hepoch⟩, hdeadline⟩, hlen⟩, hmembers⟩, hclosing⟩, hmode⟩, hdeltaV⟩, hrate⟩,
    hdrift⟩, hinterrupted⟩ := h
  refine .intro rfl rfl ?_
  simp only [List.append_assoc]
  exact (reads_u8 hloop).seq <| (reads_u8 hstate).seq <| (reads_u16 hopen).seq <| (reads_u48 hepoch).seq <|
    (reads_u48 hdeadline).seq <| (reads_u16_list (by decide) hlen hmembers).seq <|
    (reads_opt hclosing fun _ => reads_u16).seq <| (reads_opt hmode fun _ => reads_u8).seq <|
    (reads_opt hdeltaV fun _ => reads_s32).seq <| (reads_opt hrate fun _ => reads_s32).seq <|
    (reads_u8 hdrift).seq <| (reads_u8 hinterrupted).last fun _ => rfl

/-! ### Every host command -/

theorem frameReads_of_wellFormed {i : Instr} (hw : i.wellFormed = true)
    (hodd : ∀ k r, i = .loadOccupation k r → r.oddFlag = false) : FrameReads i := by
  cases i with
  | openStation r => exact frameReads_openStation hw
  | editStation r => exact frameReads_editStation hw
  | findStation n => exact .intro rfl rfl (reads_one (reads_u16 hw) _)
  | readStation n => exact .intro rfl rfl (reads_one (reads_u16 hw) _)
  | readSlot set way =>
    obtain ⟨hset, hway⟩ := Bool.and_eq_true_iff.1 hw
    exact .intro rfl rfl (reads_two (reads_u8 hset) (reads_u8 hway) _)
  | retireStation n => exact .intro rfl rfl (reads_one (reads_u16 hw) _)
  | retireSlot set way =>
    obtain ⟨hset, hway⟩ := Bool.and_eq_true_iff.1 hw
    exact .intro rfl rfl (reads_two (reads_u8 hset) (reads_u8 hway) _)
  | beginReading r => exact frameReads_beginReading hw
  | endReading => exact .intro rfl rfl (reads_none _)
  | abortReading => exact .intro rfl rfl (reads_none _)
  | readWindow => exact .intro rfl rfl (reads_none _)
  | readOccupation n => exact .intro rfl rfl (reads_one (reads_u16 hw) _)
  | discardOccupation n => exact .intro rfl rfl (reads_one (reads_u16 hw) _)
  | openLoop l o =>
    obtain ⟨hloop, hocc⟩ := Bool.and_eq_true_iff.1 hw
    exact .intro rfl rfl (reads_two (reads_u8 hloop) (reads_u16 hocc) _)
  | closeLoop l o m t => exact frameReads_closeLoop hw
  | voidLoop l => exact .intro rfl rfl (reads_one (reads_u8 hw) _)
  | releaseLoop l => exact .intro rfl rfl (reads_one (reads_u8 hw) _)
  | readLoop l => exact .intro rfl rfl (reads_one (reads_u8 hw) _)
  | writeConstituent k e sp ph => exact frameReads_writeConstituent hw
  | writeSite st ps => exact frameReads_writeSite hw
  | clearSite st => exact .intro rfl rfl (reads_one (reads_u8 hw) _)
  | readSite st => exact .intro rfl rfl (reads_one (reads_u8 hw) _)
  | writeConstants r => exact frameReads_writeConstants hw
  | readConstants => exact .intro rfl rfl (reads_none _)
  | setClock sec tick =>
    obtain ⟨hsec, htick⟩ := Bool.and_eq_true_iff.1 hw
    exact .intro rfl rfl (reads_two (reads_u32 hsec) (reads_u16 htick) _)
  | trimClock z => exact .intro rfl rfl ((reads_s16 hw).map Instr.trimClock)
  | readClock => exact .intro rfl rfl (reads_none _)
  | submitJob k t g => exact frameReads_submitJob hw
  | readQueue => exact .intro rfl rfl (reads_none _)
  | restartEngineRetry a => exact frameReads_restartRetry hw
  | restartEngineDiscard => exact .intro rfl rfl (reads_one (reads_u8 (n := 1) rfl) restartOf)
  | readFault => exact .intro rfl rfl (reads_none _)
  | nextChanged k => exact frameReads_nextChanged hw
  | exportStation n => exact .intro rfl rfl (reads_one (reads_u16 hw) _)
  | readExportPart k => exact .intro rfl rfl (reads_one (reads_u8 hw) _)
  | readEvents => exact .intro rfl rfl (reads_none _)
  | clearEvents m => exact .intro rfl rfl (reads_mask m .clearEvents)
  | setEvents m => exact .intro rfl rfl (reads_mask m .setEvents)
  | enableEvents m => exact .intro rfl rfl (reads_mask m .enableEvents)
  | beginRestore => exact .intro rfl rfl (reads_none _)
  | loadStation r => exact frameReads_loadStation hw
  | loadOccupation k r =>
    obtain ⟨hindex, hreq⟩ := Bool.and_eq_true_iff.1 hw
    exact frameReads_loadOccupation hindex hreq (hodd k r rfl)
  | loadLoop r => exact frameReads_loadLoop hw
  | endRestore => exact .intro rfl rfl (reads_none _)
  | abortRestore => exact .intro rfl rfl (reads_none _)
  | readScanReport => exact .intro rfl rfl (reads_none _)
  | standby => exact .intro rfl rfl (reads_none _)
  | reset => exact .intro rfl rfl (reads_none _)
  | identify => exact .intro rfl rfl (reads_none _)
  | _ => exact fun _ _ hframe => nomatch hframe

/-! ### The frame as a whole (R182) -/

/-- A code that has a reader is a byte, and is not the 0xFF of a period without a command. -/
theorem code_lt_of_parserOf {code : Nat} {q : Parse Instr} (h : parserOf code = some q) : code < 0xFF := by
  unfold parserOf at h
  split at h
  rotate_right
  · cases h
  all_goals omega

theorem parseFrame_of_reads {code : Byte} {q : Parse Instr} {payload extra : List Byte} {i : Instr}
    (hq : parserOf code.toNat = some q) (hread : Reads q payload i) (hlen : payload.length ≤ 240) :
    parseFrame code (u8 payload.length ++ payload ++ extra) = .command i := by
  have hlength : u8 payload.length = [BitVec.ofNat 8 payload.length] := by simp [u8, beBytes]
  have hbyte : (BitVec.ofNat 8 payload.length).toNat = payload.length := by
    rw [BitVec.toNat_ofNat, Nat.mod_eq_of_lt (by omega)]
  have hwhole : q payload = some (i, []) := by simpa using hread []
  rw [parseFrame, hq, hlength]
  simp only [List.cons_append, List.nil_append, hbyte, List.take_left, hwhole, Config.payloadLimit, List.length_append]
  exact if_pos ⟨hlen, Nat.le_add_right _ _⟩

/-- Settles O15: the code has its command's reader, and the reader takes exactly the payload. -/
theorem frameReadsBack : Obligations.FrameReadsBack := by
  intro i code payload extra hframe hw hlen hodd
  obtain ⟨q, hq, hread⟩ := frameReads_of_wellFormed hw hodd code payload hframe
  have hcode : code < 0xFF := code_lt_of_parserOf hq
  have hbyte : (BitVec.ofNat 8 code).toNat = code := by
    rw [BitVec.toNat_ofNat, Nat.mod_eq_of_lt (by omega)]
  have hne : BitVec.ofNat 8 code ≠ 0xFF := fun h => by
    have := congrArg BitVec.toNat h
    rw [hbyte] at this
    exact absurd this hcode.ne
  have hbytes : i.frameBytes ++ extra = BitVec.ofNat 8 code :: (u8 payload.length ++ payload ++ extra) := by
    simp [Instr.frameBytes, hframe, show u8 code = [BitVec.ofNat 8 code] by simp [u8, beBytes]]
  refine ⟨BitVec.ofNat 8 code, u8 payload.length ++ payload ++ extra, ?_, ?_⟩
  · rw [hbytes, commandBytes, if_neg hne]
  · exact parseFrame_of_reads (by rw [hbyte]; exact hq) hread hlen

end Sys2Proof.Machine
end

