-- ==== Sys2Proof/Proofs/HostLink/FrameLengths.lean ====
section
/-! SUPPORT. The lengths of the payloads (R182, step 3): how many bytes each reader takes, from its fields, and how many
once a presence byte or a list count is known. -/

namespace Sys2Proof.Machine

open Sys2Proof

/-- A reader that takes from `lo` to `hi` bytes. -/
def Spans {α : Type} (p : Parse α) (lo hi : Nat) : Prop :=
  ∀ b v rest, p b = some (v, rest) → rest.length + lo ≤ b.length ∧ b.length ≤ rest.length + hi

/-- A reader of a field of `w` bytes. -/
def Takes {α : Type} (p : Parse α) (w : Nat) : Prop :=
  ∀ b v rest, p b = some (v, rest) → w ≤ b.length ∧ rest = b.drop w

/-- A reader that takes exactly `w` bytes of the payloads that satisfy `P`. -/
def TakesOn {α : Type} (P : List Byte → Prop) (p : Parse α) (w : Nat) : Prop :=
  ∀ b v rest, P b → p b = some (v, rest) → b.length = rest.length + w

section
variable {α β : Type} {p : Parse α} {f : α × List Byte → Option (β × List Byte)} {lo hi lo' hi' w w' k : Nat}
  {P Q : List Byte → Prop} {c : Byte}

/-! ### A reader's result taken apart -/

theorem map_eq_some {g : α → β} {b rest : List Byte} {v : β} (h : ((p b).map fun r => (g r.1, r.2)) = some (v, rest)) :
    ∃ u, p b = some (u, rest) ∧ g u = v := by
  obtain ⟨⟨u, rest'⟩, hu, hv⟩ := Option.map_eq_some_iff.1 h
  simp only [Prod.mk.injEq] at hv
  obtain ⟨hv, rfl⟩ := hv
  exact ⟨u, hu, hv⟩

theorem bind_eq_some {b : List Byte} {y : β × List Byte} (h : (p b >>= f) = some y) :
    ∃ u rest, p b = some (u, rest) ∧ f (u, rest) = some y := by
  obtain ⟨⟨u, rest⟩, hu, hf⟩ := Option.bind_eq_some_iff.1 h
  exact ⟨u, rest, hu, hf⟩

/-- An optional field: the presence byte, and then what it asks for. -/
theorem pOpt_eq_some {b rest : List Byte} {o : Option α} (h : pOpt p b = some (o, rest)) :
    ∃ c t, b = c :: t ∧
      (presence c = some true ∧ (∃ v, p t = some (v, rest)) ∨ presence c = some false ∧ rest = t) := by
  cases b with
  | nil => cases h
  | cons c t =>
    refine ⟨c, t, rfl, ?_⟩
    rw [pOpt] at h
    split at h
    · next hc =>
      obtain ⟨v, hv, -⟩ := map_eq_some h
      exact .inl ⟨hc, v, hv⟩
    · next hc =>
      cases h
      exact .inr ⟨hc, rfl⟩
    · cases h

/-- A counted list: its count, within the limit, and then its entries. -/
theorem pList_eq_some {limit : Nat} {b rest : List Byte} {l : List α} (h : pList limit p b = some (l, rest)) :
    ∃ n rest', pU 1 b = some (n, rest') ∧ n ≤ limit ∧ pMany p n rest' = some (l, rest) := by
  rw [pList] at h
  split at h
  · next n rest' hn => exact ⟨n, rest', hn, Option.ite_none_right_eq_some.1 h⟩
  · cases h

/-! ### Fields of one width -/

theorem takes_takeBytes (k : Nat) : Takes (takeBytes k) k := by
  intro b v rest h
  simp only [takeBytes, Option.ite_none_right_eq_some, Option.some.injEq, Prod.mk.injEq] at h
  obtain ⟨hlen, -, hrest⟩ := h
  exact ⟨hlen, hrest.symm⟩

theorem Takes.map (h : Takes p w) (g : α → β) : Takes (fun b => (p b).map fun r => (g r.1, r.2)) w := by
  intro b v rest hb
  obtain ⟨u, hu, -⟩ := map_eq_some hb
  exact h b u rest hu

theorem takes_pU (k : Nat) : Takes (pU k) k := (takes_takeBytes k).map beNat
theorem takes_pS (k : Nat) : Takes (pS k) k := (takes_takeBytes k).map beInt
theorem takes_pTag : Takes pTag 4 := (takes_pU 4).map (BitVec.ofNat 32)

theorem Takes.spans (h : Takes p w) : Spans p w w := by
  intro b v rest hb
  obtain ⟨hlen, rfl⟩ := h b v rest hb
  rw [List.length_drop]
  omega

/-! ### Bounds of a payload -/

theorem Spans.seq (h : Spans p lo hi) (hf : ∀ v, Spans (fun b => f (v, b)) lo' hi') :
    Spans (fun b => p b >>= f) (lo + lo') (hi + hi') := by
  intro b v rest hb
  obtain ⟨u, rest', hu, hv⟩ := bind_eq_some hb
  obtain ⟨hlo, hhi⟩ := h b u rest' hu
  obtain ⟨hlo', hhi'⟩ := hf u rest' v rest hv
  omega

/-- The last field of a payload. -/
theorem Spans.last (h : Spans p lo hi) (hf : ∀ v b, ∃ u, f (v, b) = some (u, b)) :
    Spans (fun b => p b >>= f) lo hi := by
  intro b v rest hb
  obtain ⟨u, rest', hu, hv⟩ := bind_eq_some hb
  obtain ⟨_, hf⟩ := hf u rest'
  cases hf.symm.trans hv
  exact h b u rest hu

theorem Spans.map (h : Spans p lo hi) (g : α → β) : Spans (fun b => (p b).map fun r => (g r.1, r.2)) lo hi := by
  intro b v rest hb
  obtain ⟨u, hu, -⟩ := map_eq_some hb
  exact h b u rest hu

/-- The bounds as they are computed, for the numbers that are stated. -/
theorem Spans.cast (h : Spans p lo hi) (hlo : lo = lo') (hhi : hi = hi') : Spans p lo' hi' := hlo ▸ hhi ▸ h

theorem spans_opt (h : Spans p lo hi) : Spans (pOpt p) 1 (1 + hi) := by
  intro b o rest hb
  obtain ⟨c, t, rfl, ⟨-, v, hv⟩ | ⟨-, rfl⟩⟩ := pOpt_eq_some hb
  · obtain ⟨hlo, hhi⟩ := h t v rest hv
    rw [List.length_cons]
    omega
  · rw [List.length_cons]
    omega

theorem spans_exact : Spans pExact 2 17 := by
  intro b v rest hb
  rw [pExact] at hb
  split at hb
  · next k rest' hk =>
    split at hb
    · next hrange =>
      obtain ⟨hlo, hhi⟩ := (takes_pU 1).spans b k rest' hk
      obtain ⟨hlo', hhi'⟩ := (takes_pS k).spans rest' v rest hb
      omega
    · cases hb
  · cases hb

theorem spans_many (h : Spans p lo hi) (k : Nat) : Spans (pMany p k) (k * lo) (k * hi) := by
  induction k with
  | zero =>
    intro b v rest hb
    cases hb
    omega
  | succ k ih =>
    intro b v rest hb
    rw [pMany] at hb
    split at hb
    · next u rest' hu =>
      obtain ⟨us, hus, -⟩ := map_eq_some hb
      obtain ⟨hlo, hhi⟩ := h b u rest' hu
      obtain ⟨hlo', hhi'⟩ := ih rest' us rest hus
      rw [Nat.succ_mul, Nat.succ_mul]
      omega
    · cases hb

theorem spans_list (h : Spans p lo hi) (limit : Nat) : Spans (pList limit p) 1 (1 + limit * hi) := by
  intro b v rest hb
  obtain ⟨n, rest', hn, hle, hmany⟩ := pList_eq_some hb
  obtain ⟨hlo, hhi⟩ := (takes_pU 1).spans b n rest' hn
  obtain ⟨hlo', hhi'⟩ := spans_many h n rest' v rest hmany
  have hmost : n * hi ≤ limit * hi := Nat.mul_le_mul_right hi hle
  omega

end

/-! ### The bounds of each command -/

theorem spans_one (k : Nat) (f : Nat → Instr) : Spans (pOne k f) k k := ((takes_pU k).map f).spans

theorem spans_two (k m : Nat) (f : Nat → Nat → Instr) : Spans (pTwo k m f) (k + m) (k + m) :=
  (takes_pU k).spans.seq fun _ => (takes_pU m).spans.last fun _ _ => ⟨_, rfl⟩

theorem spans_refAction : Spans pRefAction 1 5 := by
  intro b a rest hb
  rw [pRefAction] at hb
  split at hb
  · next rest' hcode =>
    obtain ⟨hlo, hhi⟩ := (takes_pU 1).spans b 0 rest' hcode
    obtain ⟨v, hv, -⟩ := map_eq_some hb
    obtain ⟨hlo', hhi'⟩ := (takes_pU 4).spans rest' v rest hv
    omega
  · next rest' hcode =>
    obtain ⟨hlo, hhi⟩ := (takes_pU 1).spans b 1 rest' hcode
    cases hb
    omega
  · next c rest' _ _ hcode =>
    obtain ⟨hlo, hhi⟩ := (takes_pU 1).spans b c rest' hcode
    cases hb
    omega
  · cases hb

theorem spans_openStation : Spans pOpenStation 10 14 :=
  .cast ((takes_pU 2).spans.seq fun _ => (takes_pU 1).spans.seq fun _ => (takes_pU 1).spans.seq fun _ =>
    (spans_opt (takes_pU 4).spans).seq fun _ => (takes_pU 1).spans.seq fun _ =>
    takes_pTag.spans.last fun _ _ => ⟨_, rfl⟩) (by rfl) (by rfl)

theorem spans_editStation : Spans pEditStation 7 19 :=
  .cast ((takes_pU 2).spans.seq fun _ => (spans_opt (takes_pU 1).spans).seq fun _ =>
    (spans_opt (takes_pU 1).spans).seq fun _ => (spans_opt spans_refAction).seq fun _ =>
    (spans_opt (takes_pU 1).spans).seq fun _ =>
    (spans_opt takes_pTag.spans).last fun _ _ => ⟨_, rfl⟩) (by rfl) (by rfl)

theorem spans_beginReading : Spans pBeginReading 8 9 :=
  .cast ((takes_pU 2).spans.seq fun _ => (spans_opt (takes_pU 1).spans).seq fun _ => (takes_pU 2).spans.seq fun _ =>
    (takes_pU 2).spans.seq fun _ => (takes_pU 1).spans.last fun _ _ => ⟨_, rfl⟩) (by rfl) (by rfl)

theorem spans_closeLoop : Spans pCloseLoop 5 5 :=
  .cast ((takes_pU 1).spans.seq fun _ => (takes_pU 2).spans.seq fun _ => (takes_pU 1).spans.seq fun _ =>
    (takes_pU 1).spans.last fun _ _ => ⟨_, rfl⟩) (by rfl) (by rfl)

theorem spans_writeConstituent : Spans pWriteConstituent 7 7 :=
  .cast ((takes_pU 1).spans.seq fun _ => (takes_pU 1).spans.seq fun _ => (takes_pU 3).spans.seq fun _ =>
    (takes_pU 2).spans.last fun _ _ => ⟨_, rfl⟩) (by rfl) (by rfl)

theorem spans_pair : Spans pPair 4 4 :=
  .cast ((takes_pU 2).spans.seq fun _ => (takes_pU 2).spans.last fun _ _ => ⟨_, rfl⟩) (by rfl) (by rfl)

theorem spans_writeSite : Spans pWriteSite 49 49 :=
  .cast ((takes_pU 1).spans.seq fun _ => (spans_many spans_pair 12).last fun _ _ => ⟨_, rfl⟩) (by rfl) (by rfl)

theorem spans_constNums : Spans pConstNums 80 80 :=
  .cast ((takes_pS 4).spans.seq fun _ => (takes_pS 4).spans.seq fun _ => (takes_pS 4).spans.seq fun _ =>
    (takes_pS 4).spans.seq fun _ => (takes_pS 4).spans.seq fun _ => (takes_pS 4).spans.seq fun _ =>
    (takes_pS 4).spans.seq fun _ => (takes_pS 4).spans.seq fun _ => (takes_pS 4).spans.seq fun _ =>
    (takes_pS 4).spans.seq fun _ => (takes_pS 4).spans.seq fun _ => (takes_pS 4).spans.seq fun _ =>
    (takes_pS 4).spans.seq fun _ => (takes_pS 4).spans.seq fun _ => (takes_pS 4).spans.seq fun _ =>
    (takes_pS 4).spans.seq fun _ => (takes_pS 4).spans.seq fun _ => (takes_pS 4).spans.seq fun _ =>
    (takes_pS 4).spans.seq fun _ => (takes_pS 4).spans.last fun _ _ => ⟨_, rfl⟩) (by rfl) (by rfl)

theorem spans_writeConstants : Spans pWriteConstants 84 84 :=
  .cast (spans_constNums.seq fun _ => (takes_pU 1).spans.seq fun _ => (takes_pU 1).spans.seq fun _ =>
    (takes_pU 1).spans.seq fun _ => (takes_pU 1).spans.last fun _ _ => ⟨_, rfl⟩) (by rfl) (by rfl)

theorem spans_submitJob : Spans pSubmitJob 4 4 :=
  .cast ((takes_pU 1).spans.seq fun _ => (takes_pU 2).spans.seq fun _ =>
    (takes_pU 1).spans.last fun _ _ => ⟨_, rfl⟩) (by rfl) (by rfl)

theorem spans_loadStation : Spans pLoadStation 12 32 :=
  .cast ((takes_pU 2).spans.seq fun _ => (takes_pU 1).spans.seq fun _ => (takes_pU 1).spans.seq fun _ =>
    (spans_opt (takes_pU 4).spans).seq fun _ => (takes_pU 1).spans.seq fun _ => takes_pTag.spans.seq fun _ =>
    (takes_pU 1).spans.seq fun _ => (spans_list (takes_pU 2).spans 8).last fun _ _ => ⟨_, rfl⟩) (by rfl) (by rfl)

theorem spans_loadSums : Spans pLoadSums 32 207 :=
  .cast (spans_exact.seq fun _ => spans_exact.seq fun _ => spans_exact.seq fun _ => spans_exact.seq fun _ =>
    spans_exact.seq fun _ => spans_exact.seq fun _ => spans_exact.seq fun _ => spans_exact.seq fun _ =>
    spans_exact.seq fun _ => spans_exact.seq fun _ => spans_exact.seq fun _ => (takes_pU 2).spans.seq fun _ =>
    (takes_pU 2).spans.seq fun _ => (takes_pU 2).spans.seq fun _ => (spans_opt (takes_pS 2).spans).seq fun _ =>
    (spans_opt (takes_pS 2).spans).seq fun _ => (spans_opt (takes_pS 3).spans).seq fun _ =>
    (spans_opt (takes_pS 3).spans).last fun _ _ => ⟨_, rfl⟩) (by rfl) (by rfl)

theorem spans_results : Spans pResults 21 25 :=
  .cast ((takes_pS 4).spans.seq fun _ => (spans_opt (takes_pU 4).spans).seq fun _ => (takes_pU 2).spans.seq fun _ =>
    (takes_pS 3).spans.seq fun _ => (takes_pS 2).spans.seq fun _ => (takes_pS 4).spans.seq fun _ =>
    (takes_pU 2).spans.seq fun _ => (takes_pU 1).spans.seq fun _ =>
    (takes_pU 2).spans.last fun _ _ => ⟨_, rfl⟩) (by rfl) (by rfl)

theorem spans_drift : Spans pDrift 17 21 :=
  .cast ((takes_pS 4).spans.seq fun _ => (takes_pS 4).spans.seq fun _ => (takes_pS 4).spans.seq fun _ =>
    (spans_opt (takes_pU 4).spans).seq fun _ => (takes_pS 4).spans.last fun _ _ => ⟨_, rfl⟩) (by rfl) (by rfl)

theorem spans_loadOccupation : Spans pLoadOccupation 66 303 :=
  .cast ((takes_pU 2).spans.seq fun _ => (takes_pU 1).spans.seq fun _ => (takes_pU 2).spans.seq fun _ =>
    (takes_pU 2).spans.seq fun _ => (takes_pU 2).spans.seq fun _ => (takes_pU 1).spans.seq fun _ =>
    (spans_opt (takes_pU 1).spans).seq fun _ => (spans_opt (takes_pU 1).spans).seq fun _ =>
    (spans_opt (takes_pU 6).spans).seq fun _ => (spans_opt (takes_pU 6).spans).seq fun _ =>
    (spans_opt (takes_pU 2).spans).seq fun _ => spans_loadSums.seq fun _ => (takes_takeBytes 17).spans.seq fun _ =>
    (spans_opt spans_results).seq fun _ => (spans_opt spans_drift).last fun _ _ => ⟨_, rfl⟩) (by rfl) (by rfl)

theorem spans_loadLoop : Spans pLoadLoop 23 162 :=
  .cast ((takes_pU 1).spans.seq fun _ => (takes_pU 1).spans.seq fun _ => (takes_pU 2).spans.seq fun _ =>
    (takes_pU 6).spans.seq fun _ => (takes_pU 6).spans.seq fun _ => (spans_list (takes_pU 2).spans 64).seq fun _ =>
    (spans_opt (takes_pU 2).spans).seq fun _ => (spans_opt (takes_pU 1).spans).seq fun _ =>
    (spans_opt (takes_pS 4).spans).seq fun _ => (spans_opt (takes_pS 4).spans).seq fun _ =>
    (takes_pU 1).spans.seq fun _ => (takes_pU 1).spans.last fun _ _ => ⟨_, rfl⟩) (by rfl) (by rfl)

/-! ### The length once a presence byte or a count is known -/

section
variable {α β : Type} {p : Parse α} {f : α × List Byte → Option (β × List Byte)} {w w' k : Nat}
  {P Q : List Byte → Prop} {c : Byte}

theorem TakesOn.cast (h : TakesOn P p w) (hP : ∀ b, Q b → P b) (hw : w = w') : TakesOn Q p w' :=
  fun b v rest hb => hw ▸ h b v rest (hP b hb)

theorem Takes.takesOn (h : Takes p w) : TakesOn P p w := by
  intro b v rest _ hb
  obtain ⟨hlo, hhi⟩ := h.spans b v rest hb
  exact Nat.le_antisymm hhi hlo

/-- The last field of a payload. -/
theorem TakesOn.last (h : TakesOn P p w) (hf : ∀ v b, ∃ u, f (v, b) = some (u, b)) :
    TakesOn P (fun b => p b >>= f) w := by
  intro b v rest hP hb
  obtain ⟨u, rest', hu, hv⟩ := bind_eq_some hb
  obtain ⟨_, hf⟩ := hf u rest'
  cases hf.symm.trans hv
  exact h b u rest hP hu

theorem TakesOn.map (h : TakesOn P p w) (g : α → β) :
    TakesOn P (fun b => (p b).map fun r => (g r.1, r.2)) w := by
  intro b v rest hP hb
  obtain ⟨u, hu, -⟩ := map_eq_some hb
  exact h b u rest hP hu

/-- Past a field of one width, what is known of the payload is known further on. -/
theorem Takes.skip (h : Takes p w) (hf : ∀ v, TakesOn P (fun b => f (v, b)) w') :
    TakesOn (fun b => P (b.drop w)) (fun b => p b >>= f) (w + w') := by
  intro b v rest hP hb
  obtain ⟨u, rest', hu, hv⟩ := bind_eq_some hb
  obtain ⟨hlen, rfl⟩ := h b u rest' hu
  have hrest := hf u _ v rest hP hv
  rw [List.length_drop] at hrest
  omega

theorem takesOn_absent : TakesOn (fun b => b[0]? = some 0) (pOpt p) 1 := by
  intro b o rest hP hb
  obtain ⟨c, t, rfl, hcases⟩ := pOpt_eq_some hb
  cases hP
  obtain ⟨hc, -⟩ | ⟨-, rfl⟩ := hcases
  · cases hc
  · rfl

theorem takesOn_present (h : Takes p w) : TakesOn (fun b => b[0]? = some 1) (pOpt p) (w + 1) := by
  intro b o rest hP hb
  obtain ⟨c, t, rfl, hcases⟩ := pOpt_eq_some hb
  cases hP
  obtain ⟨-, v, hv⟩ | ⟨hc, -⟩ := hcases
  · rw [List.length_cons, h.takesOn (P := fun _ => True) t v rest trivial hv]
    omega
  · cases hc

theorem TakesOn.seq (h : TakesOn P p w) (hf : ∀ v, Spans (fun b => f (v, b)) w' w') :
    TakesOn P (fun b => p b >>= f) (w + w') := by
  intro b v rest hP hb
  obtain ⟨u, rest', hu, hv⟩ := bind_eq_some hb
  obtain ⟨hlo, hhi⟩ := hf u rest' v rest hv
  rw [h b u rest' hP hu]
  omega

/-- Past an absent field, what is known of the payload is known further on. -/
theorem TakesOn.skipAbsent {f : Option α × List Byte → Option (β × List Byte)}
    (hf : ∀ v, TakesOn Q (fun b => f (v, b)) w') :
    TakesOn (fun b => b[0]? = some 0 ∧ Q (b.drop 1)) (fun b => pOpt p b >>= f) (1 + w') := by
  intro b v rest hP hb
  obtain ⟨hzero, hQ⟩ := hP
  obtain ⟨u, rest', hu, hv⟩ := bind_eq_some hb
  obtain ⟨c, t, rfl, hcases⟩ := pOpt_eq_some hu
  cases hzero
  obtain ⟨hc, -⟩ | ⟨-, rfl⟩ := hcases
  · cases hc
  · rw [List.length_cons, hf u rest' v rest hQ hv]
    omega

/-- A counted list. No payload whose count is past the limit is read, so that its width may be any. -/
theorem takesOn_list {limit : Nat} (h : Takes p w) (hw : c.toNat ≤ limit → w' = c.toNat * w) :
    TakesOn (fun b => b[0]? = some c) (pList limit p) (1 + w') := by
  intro b l rest hP hb
  obtain ⟨n, rest', hn, hle, hmany⟩ := pList_eq_some hb
  cases b with
  | nil => cases hP
  | cons c' t =>
    cases hP
    obtain ⟨hcount, rfl⟩ : c.toNat = n ∧ t = rest' := by simpa [pU, takeBytes, beNat] using hn
    obtain ⟨hlo, hhi⟩ := spans_many h.spans n t l rest hmany
    rw [List.length_cons, hw (hcount ▸ hle), hcount]
    omega

end

theorem takesOn_openStation_absent : TakesOn (fun b => b[4]? = some 0) pOpenStation 10 :=
  .cast ((takes_pU 2).skip fun _ => (takes_pU 1).skip fun _ => (takes_pU 1).skip fun _ => takesOn_absent.seq fun _ =>
    (takes_pU 1).spans.seq fun _ => takes_pTag.spans.last fun _ _ => ⟨_, rfl⟩) (fun b h => by simpa using h) (by rfl)

theorem takesOn_openStation_present : TakesOn (fun b => b[4]? = some 1) pOpenStation 14 :=
  .cast ((takes_pU 2).skip fun _ => (takes_pU 1).skip fun _ => (takes_pU 1).skip fun _ =>
    (takesOn_present (takes_pU 4)).seq fun _ => (takes_pU 1).spans.seq fun _ =>
    takes_pTag.spans.last fun _ _ => ⟨_, rfl⟩) (fun b h => by simpa using h) (by rfl)

theorem takesOn_beginReading_absent : TakesOn (fun b => b[2]? = some 0) pBeginReading 8 :=
  .cast ((takes_pU 2).skip fun _ => takesOn_absent.seq fun _ => (takes_pU 2).spans.seq fun _ =>
    (takes_pU 2).spans.seq fun _ => (takes_pU 1).spans.last fun _ _ => ⟨_, rfl⟩) (fun b h => by simpa using h) (by rfl)

theorem takesOn_beginReading_present : TakesOn (fun b => b[2]? = some 1) pBeginReading 9 :=
  .cast ((takes_pU 2).skip fun _ => (takesOn_present (takes_pU 1)).seq fun _ => (takes_pU 2).spans.seq fun _ =>
    (takes_pU 2).spans.seq fun _ => (takes_pU 1).spans.last fun _ _ => ⟨_, rfl⟩) (fun b h => by simpa using h) (by rfl)

/-- R200: without a reference value, the length of LOAD STATION follows from its list count. -/
theorem takesOn_loadStation {c : Byte} {m : Nat} (hm : c.toNat ≤ 8 → m = 2 * c.toNat) :
    TakesOn (fun b => b[4]? = some 0 ∧ b[11]? = some c) pLoadStation (12 + m) :=
  .cast ((takes_pU 2).skip fun _ => (takes_pU 1).skip fun _ => (takes_pU 1).skip fun _ => .skipAbsent fun _ =>
    (takes_pU 1).skip fun _ => takes_pTag.skip fun _ => (takes_pU 1).skip fun _ =>
    (takesOn_list (takes_pU 2) fun h => (hm h).trans (Nat.mul_comm 2 _)).last fun _ _ => ⟨_, rfl⟩)
    (fun b h => by simpa using h) (by omega)

/-! ### The tables of R182, step 3 -/

/-- A payload of a frame that the reader takes whole has a length within the bounds. -/
def WholeWithin (q : Parse Instr) (lo hi : Nat) : Prop :=
  ∀ b i, b.length ≤ 240 → q b = some (i, []) → lo ≤ b.length ∧ b.length ≤ hi

theorem Spans.whole {q : Parse Instr} {lo hi : Nat} (h : Spans q lo hi) : WholeWithin q lo hi := by
  intro b i _ hb
  obtain ⟨hlo, hhi⟩ := h b i [] hb
  exact ⟨by simpa using hlo, by simpa using hhi⟩

theorem WholeWithin.mono {q : Parse Instr} {lo hi lo' hi' : Nat} (h : WholeWithin q lo hi) (hlo : lo' ≤ lo)
    (hhi : hi ≤ hi') : WholeWithin q lo' hi' :=
  fun b i hlen hb => (h b i hlen hb).imp hlo.trans (le_trans · hhi)

/-- The greatest length of LOAD OCCUPATION is that of a frame. -/
theorem wholeWithin_loadOccupation : WholeWithin pLoadOccupation 66 240 :=
  fun b i hlen hb => ⟨(spans_loadOccupation.whole b i hlen hb).1, hlen⟩

theorem spans_none (i : Instr) : Spans (pNone i) 0 0 := by
  intro b v rest hb
  cases hb
  omega

/-- Each command's reader keeps to the bounds of its line. -/
def KeepsLengths (e : Nat × Nat × Nat) : Prop := ∃ q, parserOf e.1 = some q ∧ WholeWithin q e.2.1 e.2.2

theorem keepsLengths_of_mem : ∀ e ∈ Claims.lengths, KeepsLengths e :=
  List.forall_iff_forall_mem.1
    ⟨⟨_, rfl, spans_openStation.whole⟩, ⟨_, rfl, spans_editStation.whole⟩, ⟨_, rfl, (spans_one 2 _).whole⟩,
      ⟨_, rfl, (spans_one 2 _).whole⟩, ⟨_, rfl, (spans_two 1 1 _).whole⟩, ⟨_, rfl, (spans_one 2 _).whole⟩,
      ⟨_, rfl, (spans_two 1 1 _).whole⟩, ⟨_, rfl, spans_beginReading.whole⟩, ⟨_, rfl, (spans_none _).whole⟩,
      ⟨_, rfl, (spans_none _).whole⟩, ⟨_, rfl, (spans_none _).whole⟩, ⟨_, rfl, (spans_one 2 _).whole⟩,
      ⟨_, rfl, (spans_one 2 _).whole⟩, ⟨_, rfl, (spans_two 1 2 _).whole⟩, ⟨_, rfl, spans_closeLoop.whole⟩,
      ⟨_, rfl, (spans_one 1 _).whole⟩, ⟨_, rfl, (spans_one 1 _).whole⟩, ⟨_, rfl, (spans_one 1 _).whole⟩,
      ⟨_, rfl, spans_writeConstituent.whole⟩, ⟨_, rfl, spans_writeSite.whole⟩, ⟨_, rfl, (spans_one 1 _).whole⟩,
      ⟨_, rfl, (spans_one 1 _).whole⟩, ⟨_, rfl, spans_writeConstants.whole⟩, ⟨_, rfl, (spans_none _).whole⟩,
      ⟨_, rfl, (spans_two 4 2 _).whole⟩, ⟨_, rfl, ((takes_pS 2).map Instr.trimClock).spans.whole⟩,
      ⟨_, rfl, (spans_none _).whole⟩, ⟨_, rfl, spans_submitJob.whole⟩, ⟨_, rfl, (spans_none _).whole⟩,
      ⟨_, rfl, (spans_one 1 _).whole⟩, ⟨_, rfl, (spans_none _).whole⟩,
      ⟨_, rfl, ((spans_opt (takes_pU 2).spans).map Instr.nextChanged).whole⟩, ⟨_, rfl, (spans_one 2 _).whole⟩,
      ⟨_, rfl, (spans_one 1 _).whole⟩, ⟨_, rfl, (spans_none _).whole⟩, ⟨_, rfl, (spans_one 2 _).whole⟩,
      ⟨_, rfl, (spans_one 2 _).whole⟩, ⟨_, rfl, (spans_one 2 _).whole⟩, ⟨_, rfl, (spans_none _).whole⟩,
      ⟨_, rfl, spans_loadStation.whole⟩, ⟨_, rfl, wholeWithin_loadOccupation⟩, ⟨_, rfl, spans_loadLoop.whole⟩,
      ⟨_, rfl, (spans_none _).whole⟩, ⟨_, rfl, (spans_none _).whole⟩, ⟨_, rfl, (spans_none _).whole⟩,
      ⟨_, rfl, (spans_none _).whole⟩, ⟨_, rfl, (spans_none _).whole⟩, ⟨_, rfl, (spans_none _).whole⟩⟩

/-- The reader keeps to the length that the presence byte at place `k` asks for. -/
def KeepsPresence (e : Nat × Nat × Nat × Nat) : Prop :=
  ∃ q, parserOf e.1 = some q ∧ WholeWithin q (e.2.1 + 1) 240 ∧
    TakesOn (fun b => b[e.2.1]? = some 0) q e.2.2.1 ∧ TakesOn (fun b => b[e.2.1]? = some 1) q e.2.2.2

theorem keepsPresence_of_mem : ∀ e ∈ [(0x10, 4, 10, 14), (0x20, 2, 8, 9), (0x70, 0, 1, 3)], KeepsPresence e :=
  List.forall_iff_forall_mem.1
    ⟨⟨_, rfl, spans_openStation.whole.mono (by decide) (by decide), takesOn_openStation_absent,
        takesOn_openStation_present⟩,
      ⟨_, rfl, spans_beginReading.whole.mono (by decide) (by decide), takesOn_beginReading_absent,
        takesOn_beginReading_present⟩,
      ⟨_, rfl, ((spans_opt (takes_pU 2).spans).map Instr.nextChanged).whole.mono (by decide) (by decide),
        takesOn_absent.map Instr.nextChanged, (takesOn_present (takes_pU 2)).map Instr.nextChanged⟩⟩

end Sys2Proof.Machine
end

