-- ==== Sys2Proof/Proofs/HostLink/Periods.lean ====
section
/-! SUPPORT. The chip-select periods of the link: the frames that it answers itself (R182), the fetch of the held
response (R184), and the bytes on MISO (R186). -/

namespace Sys2Proof.Machine

open Sys2Proof

variable {s : State} {p : Period} {code n : Byte} {rest bytes : List Byte}

/-! ### Frames that no command takes (R182) -/

/-- R182, R185: a period that ends with a frame's bytes. -/
theorem exec_close_of_frame (hperiod : s.link.period = some p) (htaken : p.ignored = false) (hcode : code ≠ 0xFF) :
    exec (.chipSelectClose (code :: rest)) s =
      .next { s with link := s.link.endPeriod.discardResponse.receive code (parseFrame code rest) } := by
  have hexec : exec (.chipSelectClose (code :: rest)) s = .next (s.chipSelectClose (code :: rest)) := rfl
  rw [hexec, State.chipSelectClose, hperiod]
  simp only [htaken, Bool.false_eq_true, if_false, Link.closePeriod, commandBytes, if_neg hcode]

theorem frameAnswered_of_unknown (hperiod : s.link.period = some p) (htaken : p.ignored = false) (hcode : code ≠ 0xFF)
    (h : parseFrame code rest = .unknown) : Claims.FrameAnswered s code rest .unknownCommand := by
  rw [Claims.FrameAnswered, exec_close_of_frame hperiod htaken hcode, h]
  rfl

theorem frameAnswered_of_badLength (hperiod : s.link.period = some p) (htaken : p.ignored = false) (hcode : code ≠ 0xFF)
    (h : parseFrame code rest = .badLength) : Claims.FrameAnswered s code rest .badLength := by
  rw [Claims.FrameAnswered, exec_close_of_frame hperiod htaken hcode, h]
  rfl

theorem parseFrame_of_no_parser (h : parserOf code.toNat = none) : parseFrame code rest = .unknown := by
  rw [parseFrame, h]

theorem parseFrame_of_no_length {q : Parse Instr} (hq : parserOf code.toNat = some q) :
    parseFrame code [] = .badLength := by
  rw [parseFrame, hq]

theorem parseFrame_of_short {q : Parse Instr} (hq : parserOf code.toNat = some q)
    (h : 240 < n.toNat ∨ bytes.length < n.toNat) : parseFrame code (n :: bytes) = .badLength := by
  have hlimit : ¬(n.toNat ≤ Config.payloadLimit ∧ n.toNat ≤ bytes.length) := by
    unfold Config.payloadLimit
    omega
  rw [parseFrame, hq]
  exact if_neg hlimit

theorem parseFrame_of_unread {q : Parse Instr} (hq : parserOf code.toNat = some q)
    (h : ∀ i, q (bytes.take n.toNat) ≠ some (i, [])) : parseFrame code (n :: bytes) = .badLength := by
  rw [parseFrame, hq]
  dsimp only
  split
  · split
    · next i hread => exact absurd hread (h i)
    · rfl
  · rfl

theorem badFrames_claim : Claims.BadFrames := by
  intro s p code rest hperiod htaken hcode
  refine ⟨fun hnone => frameAnswered_of_unknown hperiod htaken hcode (parseFrame_of_no_parser hnone), fun hsome h => ?_⟩
  obtain ⟨q, hq⟩ := Option.isSome_iff_exists.1 hsome
  refine frameAnswered_of_badLength hperiod htaken hcode ?_
  obtain rfl | ⟨n, bytes, rfl, hshort⟩ := h
  · exact parseFrame_of_no_length hq
  · exact parseFrame_of_short hq hshort

/-! ### Lengths that are not the command's (R182, step 3) -/

theorem wrongLengths_claim : Claims.WrongLengths := by
  intro s p code n bytes hperiod htaken hcode hmax hthere
  have hunread : ∀ q, parserOf code.toNat = some q → (∀ i, q (bytes.take n.toNat) ≠ some (i, [])) →
      Claims.FrameAnswered s code (n :: bytes) .badLength := fun q hq h =>
    frameAnswered_of_badLength hperiod htaken hcode (parseFrame_of_unread hq h)
  have hlen : (bytes.take n.toNat).length = n.toNat := List.length_take_of_le hthere
  have hbyte : ∀ {k : Nat}, k < n.toNat → (bytes.take n.toNat)[k]? = bytes[k]? := List.getElem?_take_of_lt
  refine ⟨fun lo hi hmem hout => ?_, fun k absent present hmem hwrong => ?_, fun c hload hnone hcount hwrong => ?_,
    hunread⟩
  · obtain ⟨q, hq, hwithin⟩ := keepsLengths_of_mem _ hmem
    refine hunread q hq fun i hread => ?_
    obtain ⟨hlo, hhi⟩ := hwithin _ i (hlen.trans_le hmax) hread
    rw [hlen] at hlo hhi
    exact hout.elim (not_lt.2 hlo) (not_lt.2 hhi)
  · obtain ⟨q, hq, hwithin, habsent, hpresent⟩ := keepsPresence_of_mem _ hmem
    refine hunread q hq fun i hread => ?_
    obtain ⟨hlong, -⟩ := hwithin _ i (hlen.trans_le hmax) hread
    have hk : k < n.toNat := hlen ▸ hlong
    obtain ⟨hzero, hne⟩ | ⟨hone, hne⟩ := hwrong
    · exact hne (hlen.symm.trans ((habsent _ i [] ((hbyte hk).trans hzero) hread).trans (Nat.zero_add _)))
    · exact hne (hlen.symm.trans ((hpresent _ i [] ((hbyte hk).trans hone) hread).trans (Nat.zero_add _)))
  · subst hload
    refine hunread pLoadStation rfl fun i hread => ?_
    obtain ⟨hlong, -⟩ := spans_loadStation.whole _ i (hlen.trans_le hmax) hread
    rw [hlen] at hlong
    have hplaces : (bytes.take n.toNat)[4]? = some 0 ∧ (bytes.take n.toNat)[11]? = some c :=
      ⟨(hbyte (by omega)).trans hnone, (hbyte (by omega)).trans hcount⟩
    have hwidth : ∀ m, (c.toNat ≤ 8 → m = 2 * c.toNat) → n.toNat = 12 + m := fun m hm => by
      rw [← hlen, takesOn_loadStation hm _ i [] hplaces hread, List.length_nil, Nat.zero_add]
    obtain hover | hne := hwrong
    · have hzero := hwidth 0 fun h => absurd h (by omega)
      have hone := hwidth 1 fun h => absurd h (by omega)
      omega
    · exact hne (hwidth _ fun _ => rfl)

/-! ### The fetch of the held response (R184), and the bytes on MISO (R186) -/

/-- R184, R186: the period that opens. -/
theorem exec_open_of_closed (h : s.link.period = none) :
    exec .chipSelectOpen s = .next { s with link := s.link.openPeriod s.linkStopped } := by
  have hexec : exec .chipSelectOpen s = .next s.chipSelectOpen := rfl
  rw [hexec, State.chipSelectOpen, h]

theorem openPeriod_of_stopped (l : Link) :
    l.openPeriod true = { l with period := some { ignored := true, miso := [] } } := rfl

theorem openPeriod_of_held {l : Link} {r : Response} (h : l.held = some r) : l.openPeriod false =
    { l with period := some { ignored := false, miso := r.bytes }, fetching := true } := by
  simp [Link.openPeriod, h]

theorem openPeriod_of_empty {l : Link} (h : l.held = none) : l.openPeriod false =
    { l with period := some { ignored := false, miso := [] }, fetching := false } := by
  simp [Link.openPeriod, h]

theorem fetch_claim : Claims.Fetch := by
  intro s hperiod
  rw [exec_open_of_closed hperiod]
  refine ⟨fun hruns r hheld => ?_, fun hruns hheld => ?_, fun hstopped => ?_⟩
  · rw [hruns, openPeriod_of_held hheld]
    exact ⟨_, rfl, rfl, rfl⟩
  · rw [hruns, openPeriod_of_empty hheld]
    exact ⟨_, rfl, rfl, fun _ => rfl⟩
  · rw [hstopped, openPeriod_of_stopped]
    refine ⟨_, rfl, rfl, fun bytes => ?_⟩
    have hback : { s with link := { s.link with period := none } } = s := by rw [← hperiod]
    exact congrArg Host.Outcome.next hback

theorem miso_claim : Claims.Miso := by
  intro s hperiod
  rw [exec_open_of_closed hperiod]
  refine ⟨_, rfl, fun r hruns hheld n => ?_, fun h n => ?_⟩
  · rw [hruns, openPeriod_of_held hheld]
    exact congrArg some (List.getD_eq_getElem?_getD ..)
  · cases hstopped : s.linkStopped with
    | true => rfl
    | false =>
      have hheld : s.link.held = none := h.resolve_left (by simp [hstopped])
      rw [openPeriod_of_empty hheld]
      rfl

/-- Settles O17: frames that no command takes, the lengths of each command's reader, the fetch, and MISO. -/
theorem linkPeriods : Obligations.LinkPeriods := ⟨badFrames_claim, wrongLengths_claim, fetch_claim, miso_claim⟩

end Sys2Proof.Machine
end

