-- ==== Sys2Proof/Proofs/HostLink/Events.lean ====
section
/-! SUPPORT. The event commands (R189), the attention line (R190) and IDENTIFY (R187). -/

namespace Sys2Proof.Machine

open Sys2Proof

variable {s : State} {m : BitVec 16}

/-! ### The event commands (R189) -/

/-- Two masks meet exactly when some bit is set in both. -/
theorem and_ne_zero_iff {a b : BitVec 16} :
    a &&& b ≠ 0 ↔ ∃ i < 16, a.getLsbD i = true ∧ b.getLsbD i = true := by
  simp only [← Bool.and_eq_true, ← BitVec.getLsbD_and]
  constructor
  · intro hne
    by_contra hno
    push Not at hno
    exact hne (BitVec.eq_of_getLsbD_eq fun i hi => by simpa using hno i hi)
  · rintro ⟨i, -, hi⟩ hzero
    rw [hzero] at hi
    simp at hi

theorem badMask_iff : badMask m = true ↔ m.getLsbD 14 = true ∨ m.getLsbD 15 = true := by
  have hunnamed : ∀ i < 16, (0xC000 : BitVec 16).getLsbD i = true ↔ i = 14 ∨ i = 15 := by decide
  rw [badMask, decide_eq_true_iff, and_ne_zero_iff]
  constructor
  · rintro ⟨i, hi, hm, hbit⟩
    obtain rfl | rfl := (hunnamed i hi).1 hbit
    · exact .inl hm
    · exact .inr hm
  · rintro (h | h)
    · exact ⟨14, by decide, h, rfl⟩
    · exact ⟨15, by decide, h, rfl⟩

theorem badMask_of_named (h14 : m.getLsbD 14 = false) (h15 : m.getLsbD 15 = false) : badMask m = false := by
  rw [Bool.eq_false_iff, Ne, badMask_iff, h14, h15]
  decide

theorem maskCommand_of_bad (h : m.getLsbD 14 = true ∨ m.getLsbD 15 = true) (f : Events → Events) (s : State) :
    maskCommand m f s = s.refuse .badValue := if_pos (badMask_iff.2 h)

theorem maskCommand_of_named (h14 : m.getLsbD 14 = false) (h15 : m.getLsbD 15 = false) (f : Events → Events)
    (s : State) :
    maskCommand m f s = ({ s with events := f s.events } : State).respond .ok (eventsBytes (f s.events)) :=
  if_neg (by simp [badMask_of_named h14 h15])

theorem eventCommands_claim : Claims.EventCommands := by
  intro s m
  have hclear : s.serves (.clearEvents m) .always = true →
      exec (.clearEvents m) s = .next (maskCommand m (Events.clear m) s) := hostCommand_of_serves _
  have hset : s.serves (.setEvents m) .always = true →
      exec (.setEvents m) s = .next (maskCommand m (Events.set m) s) := hostCommand_of_serves _
  have henable : s.serves (.enableEvents m) .always = true →
      exec (.enableEvents m) s = .next (maskCommand m (Events.enable m) s) := hostCommand_of_serves _
  refine ⟨hostCommand_of_serves readEventsBody, fun h14 h15 => ?_, fun hbad => ?_⟩
  · simp only [maskCommand_of_named h14 h15] at hclear hset henable
    exact ⟨fun h => ⟨_, hclear h, rfl⟩, fun h => ⟨_, hset h, rfl⟩, fun h => ⟨_, henable h, rfl⟩⟩
  · simp only [maskCommand_of_bad hbad] at hclear hset henable
    exact ⟨hclear, hset, henable⟩

/-! ### The attention line (R190) -/

/-- R188: the fourteen events are the bits 0 to 13. -/
theorem exists_event_of_lt : ∀ i < 14, ∃ e : Event, e.bit = i := by
  intro i hi
  interval_cases i
  exacts [⟨.windowClosed, rfl⟩, ⟨.windowAborted, rfl⟩, ⟨.tiltLimit, rfl⟩, ⟨.sampleBreak, rfl⟩, ⟨.sensorFault, rfl⟩,
    ⟨.jobDone, rfl⟩, ⟨.queueDrained, rfl⟩, ⟨.engineIdle, rfl⟩, ⟨.queueOverflow, rfl⟩, ⟨.engineHalted, rfl⟩,
    ⟨.loopExpired, rfl⟩, ⟨.driftHigh, rfl⟩, ⟨.scanDone, rfl⟩, ⟨.memoryError, rfl⟩]

theorem event_bit_lt (e : Event) : e.bit < 16 := by cases e <;> decide

/-- R188: a bit that stands pending names an event. -/
theorem pending_bit_lt (h : s.eventsWf = true) {i : Nat} (hi : i < 16) (hp : s.events.pending.getLsbD i = true) :
    i < 14 := by
  obtain ⟨hpending, -⟩ := Bool.and_eq_true_iff.1 h
  have hclear : ¬(s.events.pending.getLsbD 14 = true ∨ s.events.pending.getLsbD 15 = true) := fun hbad =>
    of_decide_eq_true (badMask_iff.2 hbad) (of_decide_eq_true hpending)
  by_contra hge
  obtain rfl | rfl : i = 14 ∨ i = 15 := by omega
  · exact hclear (.inl hp)
  · exact hclear (.inr hp)

theorem attention_claim : Claims.Attention := by
  intro s hwf
  rw [State.attention, Events.attention, decide_eq_true_iff, and_ne_zero_iff]
  constructor
  · rintro ⟨i, hi, hpending, henabled⟩
    obtain ⟨e, rfl⟩ := exists_event_of_lt i (pending_bit_lt hwf hi hpending)
    exact ⟨e, hpending, henabled⟩
  · rintro ⟨e, hboth⟩
    exact ⟨e.bit, event_bit_lt e, hboth⟩

/-- Settles O19: the event commands by their masks, and the attention line bit by bit. -/
theorem events : Obligations.Events := ⟨eventCommands_claim, attention_claim⟩

/-! ### IDENTIFY (R187) -/

/-- Settles O20: in each part state that takes it, IDENTIFY answers its bytes with the code of that state. -/
theorem identify : Obligations.Identify := by
  refine ⟨rfl, fun s k hl hpart => ?_⟩
  rcases hpart with ⟨hp, rfl⟩ | ⟨hp, rfl⟩ | ⟨hp, rfl⟩
  all_goals
    have hserves : s.serves .identify .always = true := by simp [State.serves, hl, hp, Access.taken]
    have hx : exec .identify s = .next (identifyBody s) := hostCommand_of_serves _ hserves
    rw [hx, identifyBody, hp]
    rfl

end Sys2Proof.Machine
end

