-- ==== Sys2Proof/Proofs/ServiceControl/Restore.lean ====
section
/-! SUPPORT. The restore commands (R199 to R203): what each load refuses, range by range, and the entry, the record and the
loop that it installs. -/

namespace Sys2Proof.Machine

open Sys2Proof

variable {s : State}

/-! ### The ends of a restore (R199, R203) -/

theorem cleared_iff : s.cleared = true ↔
    s.stations = [] ∧ s.occs = [] ∧ s.loops = [] ∧ s.engine.state = .idle ∧ s.window = none := by
  simp [State.cleared, and_assoc]

theorem beginRestoreBody_of_cleared (h : s.cleared = true) :
    beginRestoreBody s = { s with part := .restore }.respond .ok [] := if_pos h

theorem beginRestoreBody_of_not_cleared (h : ¬s.cleared = true) : beginRestoreBody s = s.refuse .busy := if_neg h

theorem restoreEnds_claim : Claims.RestoreEnds := by
  refine fun s => ⟨fun hs => ?_, fun hs => ?_, fun hs => ?_⟩
  · have hexec : exec .beginRestore s = .next (beginRestoreBody s) := hostCommand_of_serves _ hs
    refine ⟨fun h => ?_, fun h => ?_⟩
    · rw [hexec, beginRestoreBody_of_cleared (cleared_iff.2 h)]
    · rw [hexec, beginRestoreBody_of_not_cleared]
      rw [cleared_iff, ← Option.not_isSome_iff_eq_none]
      tauto
  · exact hostCommand_of_serves endRestoreBody hs
  · exact ⟨_, hostCommand_of_serves abortRestoreBody hs, rfl, rfl⟩

/-! ### Ranges of the fields that loads carry -/

theorem distinct_iff (l : List Nat) : distinct l = true ↔ l.Nodup := by
  induction l with
  | nil => simp [distinct]
  | cons a l ih => simp [distinct, ih]

theorem validGravity_iff (z : Int) : validGravity z = true ↔ z.natAbs ≤ 2147483647 := by
  rw [validGravity, inRange_iff]
  omega

theorem validEpoch_iff (n : Nat) : validEpoch n = true ↔ n < 281474976710656 := by simp [validEpoch]

theorem modeOf_isSome_iff (m : Nat) : (modeOf m).isSome = true ↔ m < 2 := by
  rcases m with _ | _ | m <;> simp [modeOf]

/-- A field that may be absent is refused where it is there and its value is bad. -/
theorem exists_bad_iff {α : Type} {f : α → Bool} {bad : α → Prop} (h : ∀ v, f v = true ↔ ¬bad v) (o : Option α) :
    optAll f o = true ↔ ¬∃ v, o = some v ∧ bad v := by
  rw [optAll_iff]
  simp only [h, not_exists, not_and]

/-! ### LOAD STATION (R200) -/

theorem loadStationInRange_iff (r : LoadStationReq) : loadStationInRange r = true ↔ ¬Claims.StationFieldsBad r := by
  have href : (optAll validReference r.reference = true ∧ ¬(roleOf r.role = some .field ∧ r.reference.isSome = true)) ↔
      ¬∃ v, r.reference = some v ∧ (v < 970000000 ∨ 990000000 < v ∨ r.role = 1) := by
    have hfield : roleOf r.role = some .field ↔ r.role = 1 := by
      rcases r.role with _ | _ | c <;> simp [roleOf]
    rw [hfield]
    cases r.reference with
    | none => simp [optAll]
    | some v =>
      simp only [optAll, validReference_iff, Option.isSome_some, and_true, Option.some.injEq, exists_eq_left']
      omega
  have hlist : r.list.all (fun i => decide (i < Config.poolSize)) = true ↔ ¬∃ i ∈ r.list, 512 ≤ i := by
    simp only [List.all_eq_true, decide_eq_true_eq, not_exists, not_and, not_le]
    rfl
  simp only [Claims.StationFieldsBad, not_or, ← href, ← hlist, ← distinct_iff]
  simp only [loadStationInRange, Bool.and_eq_true, roleOf_isSome_iff, yesNo_isSome_iff, decide_eq_true_eq,
    Bool.not_eq_true', Bool.and_eq_false_iff, decide_eq_false_iff_not, not_le, Bool.not_eq_false, not_and_or,
    Bool.not_eq_true]
  tauto

/-- R200: the entry as the command carries it. -/
theorem loadedStation_eq {r : LoadStationReq} (h : ¬Claims.StationFieldsBad r) : loadedStation r =
    { number := r.number, state := .active, damaged := false, sound := true, role := if r.role = 0 then .base else .field,
      pinned := decide (r.pinned = 1), site := r.site, reference := r.reference, tag := r.tag, list := r.list,
      changed := decide (r.changed = 1) } := by
  have hrole : r.role < 2 := by
    by_contra hr
    exact h (.inl (by omega))
  rw [loadedStation, roleOf_of_lt hrole, Option.getD_some]

theorem exec_loadStation {r : LoadStationReq} (h : s.serves (.loadStation r) .restore = true) :
    exec (.loadStation r) s = .next (loadStationBody r s) := hostCommand_of_serves _ h

theorem loadStationBody_of_length {r : LoadStationReq} (h : 8 < r.list.length) :
    loadStationBody r s = s.respond .badLength (u8 0x91) := if_pos h

theorem loadStationBody_of_number {r : LoadStationReq} (hl : r.list.length ≤ 8) (hn : validNumber r.number = false) :
    loadStationBody r s = s.refuse .badKey := by
  simp [loadStationBody, Config.listLimit, hl, hn]

theorem loadStationBody_of_bad_field {r : LoadStationReq} (hl : r.list.length ≤ 8) (hn : validNumber r.number = true)
    (hf : Claims.StationFieldsBad r) : loadStationBody r s = s.refuse .badValue := by
  have hrange : loadStationInRange r = false := by
    rw [Bool.eq_false_iff, ne_eq, loadStationInRange_iff, not_not]
    exact hf
  simp [loadStationBody, Config.listLimit, hl, hn, hrange]

theorem loadStationBody_of_fields {r : LoadStationReq} (hl : r.list.length ≤ 8) (hn : validNumber r.number = true)
    (hf : ¬Claims.StationFieldsBad r) : loadStationBody r s = match lowestFree s.stations (waysOf r.number) with
      | some w => ((s.putStation w (loadedStation r)).touch w).respond .ok (u8 (w / 4) ++ u8 (w % 4))
      | none => s.refuse .setFull := by
  have hshort : ¬r.list.length > Config.listLimit := Nat.not_lt.2 hl
  rw [loadStationBody, if_neg hshort, hn, (loadStationInRange_iff r).2 hf]
  rfl

theorem loadStation_claim : Claims.LoadStation := by
  intro s r hs
  rw [exec_loadStation hs]
  refine ⟨fun hl => by rw [loadStationBody_of_length hl], fun hl => ⟨fun hn => ?_, fun h1 h2 => ?_⟩⟩
  · rw [loadStationBody_of_number hl (validNumber_of_out hn)]
  · have hn := validNumber_of_range h1 h2
    refine ⟨fun hf => by rw [loadStationBody_of_bad_field hl hn hf], fun hf => ?_⟩
    rw [loadStationBody_of_fields hl hn hf]
    refine ⟨fun hfull => by rw [waysOf, lowestFree_eq_none hfull], fun w hset hfree hlow => ?_⟩
    have hplace : lowestFree s.stations (waysOf r.number) = some w :=
      lowestFree_eq_some hset.symm hfree fun v hv hlt => hlow v (hv.trans hset.symm) hlt
    rw [hplace]
    refine ⟨_, rfl, rfl, rfl, ?_, fun v hv => ?_, ?_⟩
    · rw [station?_respond, station?_touch, station?_putStation, if_pos rfl, ← loadedStation_eq hf]
      rfl
    · rw [station?_respond, station?_touch, station?_putStation, if_neg hv]
    · exact touched_congr (s := s.putStation w (loadedStation r)) rfl (touched_touch _ w)

/-! ### LOAD OCCUPATION (R201) -/

theorem sumsInRange_iff (m : LoadSums) : sumsInRange m = true ↔ ¬Claims.SumsBad m := by
  have htilt : (optAll validTilt m.lastX = true ∧ optAll validTilt m.lastY = true) ↔
      ¬∃ v, (m.lastX = some v ∨ m.lastY = some v) ∧ (v < -2000 ∨ 2000 < v) := by
    have hbad : ∀ v, validTilt v = true ↔ ¬(v < -2000 ∨ 2000 < v) := fun v => by rw [validTilt, inRange_iff]; omega
    rw [exists_bad_iff hbad, exists_bad_iff hbad, ← not_or, ← exists_or]
    simp only [or_and_right]
  have htemp : (optAll validTemp m.lastT = true ∧ optAll validTemp m.lastL = true) ↔
      ¬∃ v, (m.lastT = some v ∨ m.lastL = some v) ∧ (v < -50000 ∨ 50000 < v) := by
    have hbad : ∀ v, validTemp v = true ↔ ¬(v < -50000 ∨ 50000 < v) := fun v => by rw [validTemp, inRange_iff]; omega
    rw [exists_bad_iff hbad, exists_bad_iff hbad, ← not_or, ← exists_or]
    simp only [or_and_right]
  simp only [Claims.SumsBad, not_or, ← htilt, ← htemp, sumsInRange, Bool.and_eq_true, decide_eq_true_eq]
  simp only [not_lt]
  tauto

theorem resultsInRange_iff (r : Results) : resultsInRange r = true ↔ ¬Claims.ResultsBad r := by
  have hnoise : optAll (· ≤ 134217727) r.noise = true ↔ ¬∃ k, r.noise = some k ∧ 134217727 < k :=
    exists_bad_iff (fun v => by simp) _
  have hnat : ∀ z : Int, ∀ n : Nat, inRange (-n) n z = true ↔ z.natAbs ≤ n := fun z n => by rw [inRange_iff]; omega
  have htemp := hnat r.ctemp 3276700
  have htide := hnat r.ctide 24000
  simp only [Claims.ResultsBad, not_or, ← hnoise, resultsInRange, Bool.and_eq_true, decide_eq_true_eq, validGravity_iff]
  simp only [inRange_iff, Nat.cast_ofNat, not_lt, not_le] at htemp htide ⊢
  rw [htemp, htide]
  tauto

theorem driftInRange_iff (d : DriftPart) : driftInRange d = true ↔ ¬Claims.DriftBad d := by
  have hopen : optAll validReference d.rOpen = true ↔ ¬∃ v, d.rOpen = some v ∧ (v < 970000000 ∨ 990000000 < v) :=
    exists_bad_iff (fun v => by rw [validReference_iff]; omega) _
  simp only [Claims.DriftBad, not_or, ← hopen, driftInRange, Bool.and_eq_true, validGravity_iff, not_lt]
  tauto

theorem loadedOccState_of_out {n : Nat} (h : n < 3 ∨ 5 < n) : loadedOccState n = none := by
  unfold loadedOccState
  split <;> [omega; omega; omega; rfl]

theorem loadedOccState_of_range {n : Nat} (h : 3 ≤ n) (h' : n ≤ 5) :
    loadedOccState n = some (if n = 3 then .pending else if n = 4 then .reduced else .final) := by
  obtain rfl | rfl | rfl : n = 3 ∨ n = 4 ∨ n = 5 := by omega
  all_goals rfl

/-- R201: a start tick, an epoch or a revision at opening that is absent or outside its range. -/
def TimingBad (r : LoadOccupationReq) : Prop :=
  r.startTick = none ∨ r.epoch = none ∨ r.openRevision = none ∨
    (∃ v, (r.startTick = some v ∨ r.epoch = some v) ∧ 281474976710656 ≤ v) ∨ ∃ v, r.openRevision = some v ∧ 65535 < v

theorem timing_iff (r : LoadOccupationReq) : (match r.startTick, r.epoch, r.openRevision with
      | some a, some b, some c => validEpoch a && validEpoch b && decide (c ≤ 65535)
      | _, _, _ => false) = true ↔ ¬TimingBad r := by
  unfold TimingBad
  rcases r.startTick with _ | a <;> rcases r.epoch with _ | b <;> rcases r.openRevision with _ | c <;>
    simp [validEpoch_iff, or_and_right, exists_or, and_assoc]

/-- R201: a field of a loaded occupation outside its range, whatever the state. -/
def OccRangesBad (r : LoadOccupationReq) : Prop :=
  300 < r.settle ∨ r.duration < 10 ∨ 600 < r.duration ∨ 2 ≤ r.abortOnTilt ∨
    (∃ l, (r.memberOf = some l ∨ r.opens = some l) ∧ 16 ≤ l) ∨ TimingBad r ∨ r.oddFlag = true ∨ Claims.SumsBad r.sums ∨
    (∃ x, r.results = some x ∧ Claims.ResultsBad x) ∨ ∃ d, r.drift = some d ∧ Claims.DriftBad d

theorem loadOccInRange_iff (r : LoadOccupationReq) : loadOccInRange r = true ↔ ¬OccRangesBad r := by
  have hloops : (optAll (· < Config.loops) r.memberOf = true ∧ optAll (· < Config.loops) r.opens = true) ↔
      ¬∃ l, (r.memberOf = some l ∨ r.opens = some l) ∧ 16 ≤ l := by
    have hbad : ∀ v : Nat, decide (v < Config.loops) = true ↔ ¬16 ≤ v := fun v => by
      rw [decide_eq_true_eq, not_le]
      rfl
    rw [exists_bad_iff hbad, exists_bad_iff hbad, ← not_or, ← exists_or]
    simp only [or_and_right]
  simp only [OccRangesBad, not_or, ← timing_iff, ← hloops, ← exists_bad_iff resultsInRange_iff,
    ← exists_bad_iff driftInRange_iff, ← sumsInRange_iff]
  simp only [loadOccInRange, Bool.and_eq_true, decide_eq_true_eq, yesNo_isSome_iff, not_lt, not_le, Bool.not_eq_true',
    Bool.not_eq_true]
  tauto

/-- R201: groups that the state has not, or a state that cannot be loaded. -/
def OccGroupsBad (r : LoadOccupationReq) : Prop :=
  r.state < 3 ∨ 5 < r.state ∨ r.state = 3 ∧ (r.results.isSome = true ∨ r.drift.isSome = true) ∨
    (r.state = 4 ∨ r.state = 5) ∧ r.results = none ∨ r.state = 5 ∧ r.drift = none

theorem occFieldsBad_iff (r : LoadOccupationReq) : Claims.OccFieldsBad r ↔ OccRangesBad r ∨ OccGroupsBad r := by
  simp only [Claims.OccFieldsBad, OccRangesBad, OccGroupsBad, TimingBad, or_assoc]

theorem groupsAgree_iff {r : LoadOccupationReq} {st : OccState} (hst : loadedOccState r.state = some st) :
    groupsAgree st r.results.isSome r.drift.isSome = true ↔ ¬OccGroupsBad r := by
  have hrange : 3 ≤ r.state ∧ r.state ≤ 5 := by
    by_contra h
    rw [loadedOccState_of_out (by omega)] at hst
    cases hst
  rw [loadedOccState_of_range hrange.1 hrange.2, Option.some.injEq] at hst
  obtain h | h | h : r.state = 3 ∨ r.state = 4 ∨ r.state = 5 := by omega
  all_goals
    simp only [h] at hst
    subst hst
    cases hr : r.results <;> cases hd : r.drift <;> simp [groupsAgree, OccGroupsBad, h, hr, hd]

theorem exec_loadOccupation {i : Nat} {r : LoadOccupationReq} (h : s.serves (.loadOccupation i r) .restore = true) :
    exec (.loadOccupation i r) s = .next (loadOccupationBody i r s) := hostCommand_of_serves _ h

theorem loadOccupationBody_of_number {i : Nat} {r : LoadOccupationReq} (hn : validNumber r.number = false) :
    loadOccupationBody i r s = s.refuse .badKey := by
  simp [loadOccupationBody, hn]

theorem loadOccupationBody_of_index {i : Nat} {r : LoadOccupationReq} (hn : validNumber r.number = true) (hi : 512 ≤ i) :
    loadOccupationBody i r s = s.refuse .badValue := by
  have hout : ¬i < Config.poolSize := Nat.not_lt.2 hi
  simp [loadOccupationBody, hn, hout]

theorem loadOccupationBody_of_taken {i : Nat} {r : LoadOccupationReq} (hn : validNumber r.number = true) (hi : i < 512)
    (ho : (s.occ? i).isSome = true) : loadOccupationBody i r s = s.refuse .inUse := by
  have hin : i < Config.poolSize := hi
  simp [loadOccupationBody, hn, hin, ho]

theorem loadOccupationBody_of_free {i : Nat} {r : LoadOccupationReq} (hn : validNumber r.number = true) (hi : i < 512)
    (ho : s.occ? i = none) : loadOccupationBody i r s = match loadedOccState r.state with
      | none => s.refuse .badValue
      | some st => if !loadOccInRange r || !groupsAgree st r.results.isSome r.drift.isSome then s.refuse .badValue
        else (s.putOcc i (loadedOcc st r)).respond .ok [] := by
  have hin : i < Config.poolSize := hi
  simp only [loadOccupationBody, hn, hin, ho]
  rfl

theorem loadOccupationBody_of_bad_field {i : Nat} {r : LoadOccupationReq} (hn : validNumber r.number = true) (hi : i < 512)
    (ho : s.occ? i = none) (hf : Claims.OccFieldsBad r) : loadOccupationBody i r s = s.refuse .badValue := by
  rw [loadOccupationBody_of_free hn hi ho]
  cases hst : loadedOccState r.state with
  | none => rfl
  | some st =>
    refine if_pos ?_
    rw [Bool.or_eq_true, Bool.not_eq_true', Bool.not_eq_true', Bool.eq_false_iff, Bool.eq_false_iff, ne_eq, ne_eq,
      loadOccInRange_iff, groupsAgree_iff hst, not_not, not_not]
    exact (occFieldsBad_iff r).1 hf

theorem loadOccupationBody_of_fields {i : Nat} {r : LoadOccupationReq} (hn : validNumber r.number = true) (hi : i < 512)
    (ho : s.occ? i = none) (hf : ¬Claims.OccFieldsBad r) : loadOccupationBody i r s =
      (s.putOcc i (loadedOcc (if r.state = 3 then .pending else if r.state = 4 then .reduced else .final) r)).respond
        .ok [] := by
  rw [occFieldsBad_iff, not_or] at hf
  obtain ⟨hranges, hgroups⟩ := hf
  have hstate : 3 ≤ r.state ∧ r.state ≤ 5 := by
    simp only [OccGroupsBad, not_or, not_lt] at hgroups
    exact ⟨hgroups.1, hgroups.2.1⟩
  have hst := loadedOccState_of_range hstate.1 hstate.2
  rw [loadOccupationBody_of_free hn hi ho, hst]
  refine if_neg ?_
  rw [(loadOccInRange_iff r).2 hranges, (groupsAgree_iff hst).2 hgroups]
  decide

/-- R201: the reading as the command carries it, with sums and counts that are not negative. -/
theorem loadedSums_exact {m : LoadSums} (h : ¬Claims.SumsBad m) :
    m = { sumX := (loadedSums m).sumX, sumX2 := (loadedSums m).sumX2, n := (loadedSums m).n, sumT := (loadedSums m).sumT,
          overload := (loadedSums m).overload, clamped := (loadedSums m).clamped, breaks := (loadedSums m).breaks,
          tiltX2 := (loadedSums m).tiltX2, mx := (loadedSums m).mx, tiltY2 := (loadedSums m).tiltY2,
          my := (loadedSums m).my, lastX := (loadedSums m).lastX, lastY := (loadedSums m).lastY,
          sumTemp := (loadedSums m).sumTemp, sumLag := (loadedSums m).sumLag, k := (loadedSums m).k,
          lastT := (loadedSums m).lastT, lastL := (loadedSums m).lastL } := by
  simp only [Claims.SumsBad, not_or, not_lt] at h
  obtain ⟨hn, hx2, ht, htx, hmx, hty, hmy, hk, -⟩ := h
  simp only [loadedSums]
  refine (LoadSums.mk.injEq ..).mpr ⟨rfl, ?_, ?_, ?_, rfl, rfl, rfl, ?_, ?_, ?_, ?_, rfl, rfl, rfl, rfl, ?_, rfl, rfl⟩ <;> omega

theorem loadOccupation_claim : Claims.LoadOccupation := by
  intro s i r hs refused
  simp only [refused, exec_loadOccupation hs]
  refine ⟨fun hn => by rw [loadOccupationBody_of_number (validNumber_of_out hn)], fun h1 h2 => ?_⟩
  have hn := validNumber_of_range h1 h2
  refine ⟨fun hi => by rw [loadOccupationBody_of_index hn hi], fun hi ho => by rw [loadOccupationBody_of_taken hn hi ho],
    fun hi ho hf => ?_, fun hi ho hf => ?_⟩
  · rw [loadOccupationBody_of_bad_field hn hi ho hf]
  · rw [loadOccupationBody_of_fields hn hi ho hf]
    simp only [occFieldsBad_iff, OccRangesBad, TimingBad, not_or] at hf
    obtain ⟨⟨-, -, -, -, -, ⟨hstart, hepoch, hrevision, -⟩, -, hsums, -⟩, -⟩ := hf
    obtain ⟨a, ha⟩ := Option.ne_none_iff_exists'.1 hstart
    obtain ⟨b, hb⟩ := Option.ne_none_iff_exists'.1 hepoch
    obtain ⟨c, hc⟩ := Option.ne_none_iff_exists'.1 hrevision
    refine ⟨_, _, { startTick := a, epoch := b, openRevision := c, sums := loadedSums r.sums }, rfl, rfl, rfl, fun j hj => ?_,
      ?_, rfl, ha, hb, hc, loadedSums_exact hsums⟩
    · rw [occ?_respond, occ?_putOcc, if_neg hj]
    · rw [occ?_respond, occ?_putOcc, if_pos rfl]
      simp [loadedOcc, ha, hb, hc]

/-! ### LOAD LOOP (R202) -/

theorem loadedLoopState_of_out {n : Nat} (h : n = 0 ∨ 5 ≤ n) : loadedLoopState n = none := by
  unfold loadedLoopState
  split <;> [omega; omega; omega; omega; rfl]

theorem loadedLoopState_of_range {n : Nat} (h : 1 ≤ n) (h' : n ≤ 4) : loadedLoopState n =
    some (if n = 1 then .opened else if n = 2 then .expired else if n = 3 then .closing else .closed) := by
  obtain rfl | rfl | rfl | rfl : n = 1 ∨ n = 2 ∨ n = 3 ∨ n = 4 := by omega
  all_goals rfl

/-- R202: fields that the state has and that are absent, or the other way round; or a state that cannot be loaded. -/
def LoopGroupsBad (r : LoadLoopReq) : Prop :=
  r.state = 0 ∨ 5 ≤ r.state ∨ (r.state = 1 ∨ r.state = 2) ∧ (r.closing.isSome = true ∨ r.mode.isSome = true) ∨
    (r.state = 3 ∨ r.state = 4) ∧ (r.closing = none ∨ r.mode = none) ∨
    r.state ≠ 4 ∧ (r.deltaV.isSome = true ∨ r.rate.isSome = true) ∨ r.state = 4 ∧ (r.deltaV = none ∨ r.rate = none)

theorem loopGroups_iff {r : LoadLoopReq} {st : LoopState} (hst : loadedLoopState r.state = some st) :
    (r.closing.isSome = hasClosing st ∧ r.mode.isSome = hasClosing st ∧ r.deltaV.isSome = decide (st = .closed) ∧
      r.rate.isSome = decide (st = .closed)) ↔ ¬LoopGroupsBad r := by
  have hrange : 1 ≤ r.state ∧ r.state ≤ 4 := by
    by_contra h
    rw [loadedLoopState_of_out (by omega)] at hst
    cases hst
  rw [loadedLoopState_of_range hrange.1 hrange.2, Option.some.injEq] at hst
  obtain h | h | h | h : r.state = 1 ∨ r.state = 2 ∨ r.state = 3 ∨ r.state = 4 := by omega
  all_goals
    simp only [h] at hst
    subst hst
    simp [hasClosing, LoopGroupsBad, h, Option.isSome_iff_ne_none, and_assoc]

/-- R202: a field of a loaded loop outside its range, whatever the state. -/
def LoopRangesBad (r : LoadLoopReq) : Prop :=
  512 ≤ r.openEnd ∨ 281474976710656 ≤ r.openEpoch ∨ 281474976710656 ≤ r.deadline ∨ (∃ i ∈ r.members, 512 ≤ i) ∨
    ¬r.members.Nodup ∨ (∃ i, r.closing = some i ∧ i ∉ r.members) ∨ (∃ m, r.mode = some m ∧ 2 ≤ m) ∨
    (∃ v : Int, (r.deltaV = some v ∨ r.rate = some v) ∧ 2147483647 < v.natAbs) ∨ 2 ≤ r.driftHigh ∨ 2 ≤ r.interrupted

theorem loopFieldsBad_iff (r : LoadLoopReq) : Claims.LoopFieldsBad r ↔ LoopRangesBad r ∨ LoopGroupsBad r := by
  simp only [Claims.LoopFieldsBad, LoopRangesBad, LoopGroupsBad, or_assoc]

theorem loadLoopInRange_iff {r : LoadLoopReq} {st : LoopState} (hst : loadedLoopState r.state = some st) :
    loadLoopInRange st r = true ↔ ¬Claims.LoopFieldsBad r := by
  have hmembers : r.members.all (fun i => decide (i < Config.poolSize)) = true ↔ ¬∃ i ∈ r.members, 512 ≤ i := by
    simp only [List.all_eq_true, decide_eq_true_eq, not_exists, not_and, not_le]
    rfl
  have hclosing : optAll (fun i => r.members.contains i) r.closing = true ↔ ¬∃ i, r.closing = some i ∧ i ∉ r.members :=
    exists_bad_iff (fun v => by rw [List.contains_iff_mem, not_not]) _
  have hmode : optAll (fun m => (modeOf m).isSome) r.mode = true ↔ ¬∃ m, r.mode = some m ∧ 2 ≤ m :=
    exists_bad_iff (fun v => by rw [modeOf_isSome_iff, not_le]) _
  have hgravity : (optAll validGravity r.deltaV = true ∧ optAll validGravity r.rate = true) ↔
      ¬∃ v : Int, (r.deltaV = some v ∨ r.rate = some v) ∧ 2147483647 < v.natAbs := by
    have hbad : ∀ v : Int, validGravity v = true ↔ ¬2147483647 < v.natAbs := fun v => by rw [validGravity_iff, not_lt]
    rw [exists_bad_iff hbad, exists_bad_iff hbad, ← not_or, ← exists_or]
    simp only [or_and_right]
  have hopen : r.openEnd < Config.poolSize ↔ r.openEnd < 512 := Iff.rfl
  rw [loopFieldsBad_iff, not_or, ← loopGroups_iff hst]
  simp only [LoopRangesBad, not_or, ← hmembers, ← hclosing, ← hmode, ← hgravity, ← distinct_iff, not_le, not_not]
  simp only [loadLoopInRange, Bool.and_eq_true, decide_eq_true_eq, yesNo_isSome_iff, validEpoch_iff, hopen]
  tauto

theorem exec_loadLoop {r : LoadLoopReq} (h : s.serves (.loadLoop r) .restore = true) :
    exec (.loadLoop r) s = .next (loadLoopBody r s) := hostCommand_of_serves _ h

theorem loadLoopBody_of_length {r : LoadLoopReq} (h : 64 < r.members.length) :
    loadLoopBody r s = s.respond .badLength (u8 0x93) := if_pos h

theorem loadLoopBody_of_number {r : LoadLoopReq} (hl : r.members.length ≤ 64) (hk : 16 ≤ r.loop) :
    loadLoopBody r s = s.refuse .badValue := by
  have hshort : ¬r.members.length > Config.memberLimit := Nat.not_lt.2 hl
  have hout : ¬r.loop < Config.loops := Nat.not_lt.2 hk
  simp [loadLoopBody, hshort, hout]

theorem loadLoopBody_of_taken {r : LoadLoopReq} (hl : r.members.length ≤ 64) (hk : r.loop < 16)
    (hx : (s.loop? r.loop).isSome = true) : loadLoopBody r s = s.refuse .loopState := by
  have hshort : ¬r.members.length > Config.memberLimit := Nat.not_lt.2 hl
  have hin : r.loop < Config.loops := hk
  simp [loadLoopBody, hshort, hin, hx]

theorem loadLoopBody_of_free {r : LoadLoopReq} (hl : r.members.length ≤ 64) (hk : r.loop < 16)
    (hx : s.loop? r.loop = none) : loadLoopBody r s = match loadedLoopState r.state with
      | none => s.refuse .badValue
      | some st => if !loadLoopInRange st r then s.refuse .badValue
        else (s.putLoop r.loop (loadedLoop st r)).respond .ok [] := by
  have hshort : ¬r.members.length > Config.memberLimit := Nat.not_lt.2 hl
  have hin : r.loop < Config.loops := hk
  simp only [loadLoopBody, hshort, hin, hx]
  rfl

theorem loadLoopBody_of_bad_field {r : LoadLoopReq} (hl : r.members.length ≤ 64) (hk : r.loop < 16)
    (hx : s.loop? r.loop = none) (hf : Claims.LoopFieldsBad r) : loadLoopBody r s = s.refuse .badValue := by
  rw [loadLoopBody_of_free hl hk hx]
  cases hst : loadedLoopState r.state with
  | none => rfl
  | some st =>
    refine if_pos ?_
    rw [Bool.not_eq_true', Bool.eq_false_iff, ne_eq, loadLoopInRange_iff hst, not_not]
    exact hf

theorem loadLoopBody_of_fields {r : LoadLoopReq} (hl : r.members.length ≤ 64) (hk : r.loop < 16)
    (hx : s.loop? r.loop = none) (hf : ¬Claims.LoopFieldsBad r) : loadLoopBody r s =
      (s.putLoop r.loop (loadedLoop (if r.state = 1 then .opened else if r.state = 2 then .expired
        else if r.state = 3 then .closing else .closed) r)).respond .ok [] := by
  have hstate : 1 ≤ r.state ∧ r.state ≤ 4 := by
    simp only [loopFieldsBad_iff, LoopGroupsBad, not_or] at hf
    omega
  have hst := loadedLoopState_of_range hstate.1 hstate.2
  rw [loadLoopBody_of_free hl hk hx, hst]
  refine if_neg ?_
  rw [(loadLoopInRange_iff hst).2 hf]
  decide

theorem modeOf_eq_map {o : Option Nat} (h : ∀ m, o = some m → m < 2) :
    o.bind modeOf = o.map fun m => if m = 0 then .drift else .noDrift := by
  cases o with
  | none => rfl
  | some m =>
    obtain rfl | rfl : m = 0 ∨ m = 1 := by have := h m rfl; omega
    all_goals rfl

theorem loadLoop_claim : Claims.LoadLoop := by
  intro s r hs refused
  simp only [refused, exec_loadLoop hs]
  refine ⟨fun hl => by rw [loadLoopBody_of_length hl], fun hl => ⟨fun hk => by rw [loadLoopBody_of_number hl hk],
    fun hk hx => by rw [loadLoopBody_of_taken hl hk hx], fun hk hx hf => by rw [loadLoopBody_of_bad_field hl hk hx hf],
    fun hk hx hf => ?_⟩⟩
  have hmode : ∀ m, r.mode = some m → m < 2 := by
    simp only [loopFieldsBad_iff, LoopRangesBad, not_or] at hf
    obtain ⟨⟨-, -, -, -, -, -, hmode, -⟩, -⟩ := hf
    exact fun m hm => Nat.lt_of_not_le fun hge => hmode ⟨m, hm, hge⟩
  rw [loadLoopBody_of_fields hl hk hx hf]
  refine ⟨_, _, rfl, rfl, rfl, ?_, fun k hk => ?_, rfl⟩
  · rw [loop?_respond, loop?_putLoop, if_pos rfl]
    simp only [loadedLoop, modeOf_eq_map hmode]
  · rw [loop?_respond, loop?_putLoop, if_neg hk]

/-- Settles O58: each restore command by its checks, in their order. -/
theorem restore : Obligations.Restore := ⟨restoreEnds_claim, loadStation_claim, loadOccupation_claim, loadLoop_claim⟩

end Sys2Proof.Machine
end

