-- ==== Sys2Proof/Proofs/ServiceControl/ScanSteps.lean ====
section
/-! SUPPORT. One step of a pass of the scan (R195): the counts that a step reports (R198), the damaged marks that it leaves,
and the sweeps after its reads and its findings. -/

namespace Sys2Proof.Machine

open Sys2Proof

variable {s t u : State}

/-! ### What the report counts (R198) -/

/-- The counts of the report, those of the stations marked and of the stations found damaged put at 0. -/
def Scan.tally (c : Scan) : ScanCounts := { c.counts with stations := 0, damagedStations := 0 }

theorem counts_of_tally {d : Scan} {x : ScanCounts} (h : d.tally = x) :
    d.counts = { x with stations := d.counts.stations, damagedStations := d.counts.damagedStations } := by
  subst h
  rfl

/-- Between two states the scan counts by `f`, marked and damaged stations apart. -/
def Reports (s t : State) (f : ScanCounts → ScanCounts) : Prop := t.scan.map Scan.tally = s.scan.map fun c => f c.tally

theorem Reports.of_scan (h : t.scan = s.scan) : Reports s t id := by
  rw [Reports, h]
  rfl

theorem Reports.trans {f g : ScanCounts → ScanCounts} (h : Reports s t f) (k : Reports t u g) :
    Reports s u fun x => g (f x) := by
  have hk : u.scan.map Scan.tally = (t.scan.map Scan.tally).map g := Eq.trans k (by rw [Option.map_map]; rfl)
  rw [Reports, hk, h, Option.map_map]
  rfl

theorem Reports.exists_scan {f : ScanCounts → ScanCounts} (h : Reports s t f) {c : Scan} (hc : s.scan = some c) :
    ∃ d, t.scan = some d ∧ d.tally = f c.tally := by
  rw [Reports, hc, Option.map_some] at h
  exact Option.map_eq_some_iff.1 h

/-- A finding that does not concern those two counts. -/
theorem count_reports {f : ScanCounts → ScanCounts}
    (hf : ∀ c, { f c with stations := 0, damagedStations := 0 } = f { c with stations := 0, damagedStations := 0 }) :
    Reports s (s.count f) f := by
  rw [Reports, State.count_scan, Option.map_map]
  exact Option.map_congr fun c _ => hf c.counts

theorem mark_tally (c : Scan) (w : Nat) : (c.mark w).tally = c.tally := by
  unfold Scan.mark
  split <;> rfl

theorem findStation_tally (c : Scan) (w : Nat) : (c.findStation w).tally = c.tally := by
  unfold Scan.findStation
  split <;> rfl

theorem noteMark_reports (w : Nat) : Reports s (s.noteMark w) id := by
  unfold State.noteMark
  split
  · rw [Reports, Option.map_map]
    exact Option.map_congr fun c _ => mark_tally c w
  · exact .of_scan rfl

/-! ### Damaged marks (R195) -/

theorem mem_marked_occs {i : Nat} : i ∈ s.marked.occs ↔ ∃ o, (i, o) ∈ s.occs ∧ o.damaged = true := by
  simp [State.marked, slotKeys]

theorem mem_marked_loops {l : Nat} : l ∈ s.marked.loops ↔ ∃ r, (l, r) ∈ s.loops ∧ r.damaged = true := by
  simp [State.marked, slotKeys]

theorem mem_marked_ways {w : Nat} : w ∈ s.marked.ways ↔ ∃ e, (w, e) ∈ s.stations ∧ e.damaged = true := by
  simp [State.marked, slotKeys]

/-- No record of `t` carries a mark that it has not carried in `s`. -/
structure MarksWithin (s t : State) : Prop where
  occs : t.marked.occs ⊆ s.marked.occs
  loops : t.marked.loops ⊆ s.marked.loops
  ways : t.marked.ways ⊆ s.marked.ways

theorem MarksWithin.trans (h : MarksWithin s t) (k : MarksWithin t u) : MarksWithin s u :=
  ⟨List.Subset.trans k.occs h.occs, List.Subset.trans k.loops h.loops, List.Subset.trans k.ways h.ways⟩

theorem MarksWithin.of_tables (h : Claims.TablesKept s t) : MarksWithin s t := by
  obtain ⟨hs, ho, hl⟩ := h
  constructor <;> simp [State.marked, hs, ho, hl]

/-- A record written with the mark of the one that stands in its place. -/
theorem mem_of_mem_slotSet_marked {α : Type} {damaged : α → Bool} {x : Slots α} {k : Nat} {v v' : α}
    (hv : slotGet x k = some v) (hd : damaged v' = true → damaged v = true) {i : Nat} {a : α} (ha : (i, a) ∈ slotSet x k v')
    (had : damaged a = true) : ∃ b, (i, b) ∈ x ∧ damaged b = true := by
  rcases mem_of_mem_slotSet ha with h | h
  · obtain ⟨rfl, rfl⟩ := Prod.mk.inj h
    exact ⟨v, mem_of_slotGet hv, hd had⟩
  · exact ⟨a, h, had⟩

theorem setStation_within {w : Nat} {e f : Station} (he : s.station? w = some e) (hd : f.damaged = true → e.damaged = true) :
    MarksWithin s (s.setStation w f) := by
  refine ⟨fun _ h => h, fun _ h => h, fun v h => ?_⟩
  obtain ⟨g, hg, hgd⟩ := mem_marked_ways.1 h
  exact mem_marked_ways.2 (mem_of_mem_slotSet_marked he hd hg hgd)

theorem setOcc_within {i : Nat} {o p : Occ} (ho : s.occ? i = some o) (hd : p.damaged = true → o.damaged = true) :
    MarksWithin s (s.setOcc i p) := by
  refine ⟨fun j h => ?_, fun _ h => h, fun _ h => h⟩
  obtain ⟨q, hq, hqd⟩ := mem_marked_occs.1 h
  exact mem_marked_occs.2 (mem_of_mem_slotSet_marked ho hd hq hqd)

theorem setLoop_within {l : Nat} {r x : Loop} (hr : s.loop? l = some r) (hd : x.damaged = true → r.damaged = true) :
    MarksWithin s (s.setLoop l x) := by
  refine ⟨fun _ h => h, fun k h => ?_, fun _ h => h⟩
  obtain ⟨y, hy, hyd⟩ := mem_marked_loops.1 h
  exact mem_marked_loops.2 (mem_of_mem_slotSet_marked hr hd hy hyd)

theorem freeLoop_within (l : Nat) : MarksWithin s (s.freeLoop l) := by
  refine ⟨fun _ h => h, fun k h => ?_, fun _ h => h⟩
  obtain ⟨y, hy, hyd⟩ := mem_marked_loops.1 h
  exact mem_marked_loops.2 ⟨y, List.mem_of_mem_filter hy, hyd⟩

theorem eraseOcc_within (i : Nat) : MarksWithin s { s with occs := slotErase s.occs i } := by
  refine ⟨fun j h => ?_, fun _ h => h, fun _ h => h⟩
  obtain ⟨q, hq, hqd⟩ := mem_marked_occs.1 h
  exact mem_marked_occs.2 ⟨q, List.mem_of_mem_filter hq, hqd⟩

theorem noteMark_tables (w : Nat) : Claims.TablesKept s (s.noteMark w) := by
  unfold State.noteMark
  split <;> exact ⟨rfl, rfl, rfl⟩

theorem putChanged_within {w : Nat} {e f : Station} (he : s.station? w = some e) (hd : f.damaged = true → e.damaged = true) :
    MarksWithin s (s.putChanged w f) := by
  have hput : MarksWithin s (s.putStation w { f with changed := true }) := setStation_within he hd
  exact hput.trans (.of_tables (noteMark_tables w))

theorem putChanged_reports (w : Nat) (e : Station) : Reports s (s.putChanged w e) id := noteMark_reports w

/-! ### Steps within the scan -/

/-- `t` follows `s` within one access of the scan: the part state and the clock stand, no record gains a mark, and the report
counts by `f`. -/
structure ScanStep (s t : State) (f : ScanCounts → ScanCounts) : Prop where
  part : t.part = s.part
  resetHeld : t.resetHeld = s.resetHeld
  clock : t.clock = s.clock
  marks : MarksWithin s t
  report : Reports s t f

theorem ScanStep.of_tableStep {f : ScanCounts → ScanCounts} (h : TableStep s t) (hm : MarksWithin s t) (hr : Reports s t f) :
    ScanStep s t f := ⟨h.part, h.resetHeld, h.clock, hm, hr⟩

theorem ScanStep.refl (s : State) : ScanStep s s id := .of_tableStep (.refl s) (.of_tables ⟨rfl, rfl, rfl⟩) (.of_scan rfl)

theorem ScanStep.trans {f g : ScanCounts → ScanCounts} (h : ScanStep s t f) (k : ScanStep t u g) :
    ScanStep s u fun x => g (f x) :=
  ⟨k.part.trans h.part, k.resetHeld.trans h.resetHeld, k.clock.trans h.clock, h.marks.trans k.marks, h.report.trans k.report⟩

/-- A step, and then a finding. -/
theorem ScanStep.count {f g : ScanCounts → ScanCounts} (h : ScanStep s t f)
    (hg : ∀ c, { g c with stations := 0, damagedStations := 0 } = g { c with stations := 0, damagedStations := 0 }) :
    ScanStep s (t.count g) fun x => g (f x) :=
  h.trans (.of_tableStep (count_tableStep t g) (.of_tables ⟨rfl, rfl, rfl⟩) (count_reports hg))

theorem putChanged_scanStep {w : Nat} {e f : Station} (he : s.station? w = some e) (hd : f.damaged = true → e.damaged = true) :
    ScanStep s (s.putChanged w f) id :=
  .of_tableStep (putChanged_tableStep s w f) (putChanged_within he hd) (putChanged_reports w f)

theorem putOcc_scanStep {i : Nat} {o p : Occ} (ho : s.occ? i = some o) (hd : p.damaged = true → o.damaged = true) :
    ScanStep s (s.putOcc i p) id :=
  .of_tableStep (putOcc_tableStep s i p) (setOcc_within ho hd) (.of_scan rfl)

theorem putLoop_scanStep {l : Nat} {r x : Loop} (hr : s.loop? l = some r) (hd : x.damaged = true → r.damaged = true) :
    ScanStep s (s.putLoop l x) id :=
  .of_tableStep (putLoop_tableStep s l x) (setLoop_within hr hd) (.of_scan rfl)

/-! ### Sweeps (R195) -/

theorem filter_not_contains {a b : List Nat} (h : a ⊆ b) : a.filter (fun i => !b.contains i) = [] := by
  rw [List.filter_eq_nil_iff]
  exact fun i hi => by simpa using h hi

/-- What has carried its mark waits for its own step. -/
theorem sweep_of_within (h : MarksWithin s t) : t.sweep s.marked = t := by
  simp only [State.sweep, State.sweepOnce, filter_not_contains h.occs, filter_not_contains h.loops,
    filter_not_contains h.ways, List.foldl_nil]

/-- No occupation and no loop carries the mark. -/
def Unmarked (s : State) : Prop := s.marked.occs = [] ∧ s.marked.loops = []

theorem Unmarked.of_within (h : Unmarked s) (k : MarksWithin s t) : Unmarked t :=
  ⟨List.subset_nil.1 (h.1 ▸ k.occs), List.subset_nil.1 (h.2 ▸ k.loops)⟩

theorem unmarked_of_records (ho : ∀ q ∈ s.occs, q.2.damaged = false) (hl : ∀ q ∈ s.loops, q.2.damaged = false) :
    Unmarked s := by
  refine ⟨List.eq_nil_iff_forall_not_mem.2 fun i hi => ?_, List.eq_nil_iff_forall_not_mem.2 fun l hl' => ?_⟩
  · obtain ⟨o, hmem, hd⟩ := mem_marked_occs.1 hi
    exact Bool.false_ne_true ((ho _ hmem).symm.trans hd)
  · obtain ⟨r, hmem, hd⟩ := mem_marked_loops.1 hl'
    exact Bool.false_ne_true ((hl _ hmem).symm.trans hd)

/-- `t` is `s` with another report, which counts as that of `s` does. -/
def Renoted (s t : State) : Prop := (∃ y, t = { s with scan := y }) ∧ Reports s t id

theorem Renoted.refl (s : State) : Renoted s s := ⟨⟨s.scan, rfl⟩, .of_scan rfl⟩

theorem Renoted.trans (h : Renoted s t) (k : Renoted t u) : Renoted s u := by
  obtain ⟨⟨y, rfl⟩, hr⟩ := h
  obtain ⟨⟨z, rfl⟩, kr⟩ := k
  exact ⟨⟨z, rfl⟩, hr.trans kr⟩

theorem Renoted.tables (h : Renoted s t) : Claims.TablesKept s t := by
  obtain ⟨⟨y, rfl⟩, -⟩ := h
  exact ⟨rfl, rfl, rfl⟩

theorem findDamagedStation_renoted (w : Nat) : Renoted s (s.findDamagedStation w) := by
  unfold State.findDamagedStation
  split
  · refine ⟨⟨_, rfl⟩, ?_⟩
    rw [Reports, Option.map_map]
    exact Option.map_congr fun c _ => findStation_tally c w
  · exact .refl s

theorem foldl_findDamagedStation_renoted (ws : List Nat) : Renoted s (ws.foldl State.findDamagedStation s) := by
  induction ws generalizing s with
  | nil => exact .refl s
  | cons w ws ih => exact (findDamagedStation_renoted w).trans ih

/-- Where no occupation and no loop is damaged, a sweep counts stations alone. -/
theorem sweep_renoted (h : Unmarked s) : Renoted s (s.sweep {}) := by
  obtain ⟨ho, hl⟩ := h
  have honce : s.sweepOnce {} = s := by simp [State.sweepOnce, ho, hl]
  rw [State.sweep, honce, honce]
  exact foldl_findDamagedStation_renoted _

/-- A later pass's step: its findings are those of a state that differs from the one read in its report alone. -/
theorem scanStep_renoted {reads act : Nat → State → State} {k : Nat} {f : ScanCounts → ScanCounts}
    (h : Unmarked (reads k s)) (hact : ∀ t, Renoted (reads k s) t → ScanStep t (act k t) f) :
    ∃ t, Renoted (reads k s) t ∧ Renoted (act k t) (scanStep reads act s k) := by
  have hread := sweep_renoted h
  exact ⟨_, hread, sweep_renoted ((h.of_within (.of_tables hread.tables)).of_within (hact _ hread).marks)⟩

/-! ### One step of a pass (R195) -/

/-- The state after a pass's step has moved the scan on. -/
def State.advanced (s : State) (size : Nat) : State := { s with scan := s.scan.map fun c => c.advance size 1 }

theorem advance_counts (c : Scan) (size : Nat) : (c.advance size 1).counts = c.counts := by
  unfold Scan.advance
  split <;> rfl

theorem advanced_scan {size : Nat} {d : Scan} (h : s.scan = some d) :
    ∃ d', (s.advanced size).scan = some d' ∧ d'.counts = d.counts :=
  ⟨d.advance size 1, by rw [State.advanced, h]; rfl, advance_counts d size⟩

theorem advanced_reports (size : Nat) : Reports s (s.advanced size) id := by
  rw [Reports, State.advanced, Option.map_map]
  exact Option.map_congr fun c _ => by simp [Scan.tally, advance_counts]

theorem scanPass_one {c : Scan} {n k size : Nat} (unit : State → Nat → State) (h : Claims.Scans s c n k) (hk : k < size) :
    scanPass n size unit 1 s = (unit s k).advanced size := by
  obtain ⟨hp, hheld, hc, hended, hpass, hcursor⟩ := h
  have hin : s.inPass n = true := by simp [State.inPass, hp, hheld, hc, hended, hpass]
  have hcur : s.cursor = k := by simp [State.cursor, hc, hcursor]
  have hone : min 1 (size - k) = 1 := by omega
  rw [scanPass, if_pos hin, hcur, hone]
  rfl

/-- A step of one of the first two passes that marks nothing newly. -/
theorem earlyStep_of_within {act : Nat → State → State} {k : Nat} (h : MarksWithin s (act k s)) :
    earlyStep act s k = act k s := sweep_of_within h

/-- A step of one of the last six passes: the findings `act` on a state that differs from the one read in its report
alone, and what they report. -/
theorem scanPass_scanStep {c : Scan} {n k j size : Nat} {unit : State → Nat → State} {reads act : Nat → State → State}
    {f : ScanCounts → ScanCounts} (hc : Claims.Scans s c n k) (hk : k < size) (hunit : unit s k = scanStep reads act s j)
    (hread : Reports s (reads j s) id) (h : Unmarked (reads j s))
    (hact : ∀ t, Renoted (reads j s) t → ScanStep t (act j t) f) :
    ∃ t d, Renoted (reads j s) t ∧ (scanPass n size unit 1 s).scan = some d ∧ d.tally = f c.tally ∧
      Claims.TablesKept (act j t) (scanPass n size unit 1 s) ∧ (scanPass n size unit 1 s).events = (act j t).events := by
  obtain ⟨t, ht, hz⟩ := scanStep_renoted (act := act) h hact
  have hreport := (hread.trans (ht.2.trans ((hact t ht).report.trans hz.2))).trans (advanced_reports size)
  have hscan : s.scan = some c := by
    obtain ⟨-, -, hscan, -⟩ := hc
    exact hscan
  obtain ⟨d, hd, htally⟩ := hreport.exists_scan hscan
  rw [scanPass_one unit hc hk, hunit]
  generalize scanStep reads act s j = z at hz hd ⊢
  obtain ⟨hst, hocc, hloop⟩ := hz.tables
  refine ⟨t, d, ht, hd, htally, ⟨hst, hocc, hloop⟩, ?_⟩
  obtain ⟨⟨y, hy⟩, -⟩ := hz
  have hevents : z.events = (act j t).events := by rw [hy]
  exact hevents

end Sys2Proof.Machine
end

