-- ==== Sys2Proof/Proofs/ServiceControl/ScanMarks.lean ====
section
/-! SUPPORT. The way that owns a record in the scan (R24, R26, log 16), and records that a step of the scan writes, their owners
marked changed. -/

namespace Sys2Proof.Machine

open Sys2Proof

variable {s t u : State}

/-! ### The owner of a record (log 16) -/

/-- Log 16: the first undamaged way of the number that lists the record, or the first damaged one where none lists it. -/
theorem ownerOf_eq_some {v n i : Nat} : s.ownerOf n i = some v ↔
    (s.matching n).find? (s.wayIs fun e => !e.damaged && e.list.contains i) = some v ∨
      (s.matching n).find? (s.wayIs fun e => !e.damaged && e.list.contains i) = none ∧
        (s.matching n).find? (s.wayIs (·.damaged)) = some v := by
  unfold State.ownerOf
  cases (s.matching n).find? (s.wayIs fun e => !e.damaged && e.list.contains i) <;> simp

theorem wayIs_iff {p : Station → Bool} {w : Nat} : s.wayIs p w = true ↔ ∃ e, s.station? w = some e ∧ p e = true := by
  unfold State.wayIs
  cases s.station? w <;> simp

theorem wayIs_eq_false_iff {p : Station → Bool} {w : Nat} :
    s.wayIs p w = false ↔ ∀ e, s.station? w = some e → p e = false := by
  unfold State.wayIs
  cases s.station? w <;> simp

theorem scanOwner_iff {v i : Nat} : Claims.ScanOwner s v i ↔ ∃ o, s.occ? i = some o ∧ s.ownerOf o.station i = some v := by
  have hlists : ∀ g : Station, (!g.damaged && g.list.contains i) = true ↔ g.damaged = false ∧ i ∈ g.list := fun g => by simp
  have hnot : ∀ g : Station, (!g.damaged && g.list.contains i) = false ↔ ¬(g.damaged = false ∧ i ∈ g.list) := fun g => by
    rw [← hlists, Bool.not_eq_true]
  simp only [ownerOf_eq_some, find?_eq_some_iff_of_rising (matching_rising _), List.find?_eq_none,
    wayIs_iff, wayIs_eq_false_iff, hlists, hnot]
  constructor
  · rintro ⟨o, f, ho, hv, hf, h⟩
    refine ⟨o, ho, ?_⟩
    rcases h with ⟨hl, hmin⟩ | ⟨hd, hall⟩
    · exact .inl ⟨hv, ⟨f, hf, hl⟩, fun u hu hlt g hg => hmin u g hu hlt hg⟩
    · exact .inr ⟨fun u hu ⟨g, hg, hl⟩ => (hall u g hu hg).1 hl, hv, ⟨f, hf, hd⟩, fun u hu hlt g hg => (hall u g hu hg).2 hlt⟩
  · rintro ⟨o, ho, ⟨hv, ⟨f, hf, hl⟩, hmin⟩ | ⟨hall, hv, ⟨f, hf, hd⟩, hmin⟩⟩
    · exact ⟨o, f, ho, hv, hf, .inl ⟨hl, fun u g hu hlt hg => hmin u hu hlt g hg⟩⟩
    · exact ⟨o, f, ho, hv, hf, .inr ⟨hd, fun u g hu hg => ⟨fun hl => hall u hu ⟨g, hg, hl⟩, fun hlt => hmin u hu hlt g hg⟩⟩⟩

/-- Marks changed do not change who owns a record. -/
theorem EntriesMarked.ownerOf {P : Nat → Prop} (h : EntriesMarked s t P) (n i : Nat) : t.ownerOf n i = s.ownerOf n i := by
  have hm : t.matching n = s.matching n := matching_congr fun w _ => h.keeps Station.number (fun _ => rfl) w
  have hway : ∀ p : Station → Bool, (∀ f, p { f with changed := true } = p f) → t.wayIs p = s.wayIs p := by
    intro p hp
    funext w
    have hdef : ∀ x : State, x.wayIs p w = ((x.station? w).map p).getD false := fun x => by
      unfold State.wayIs
      cases x.station? w <;> rfl
    rw [hdef, hdef, h.keeps p hp w]
  unfold State.ownerOf
  rw [hm, hway _ fun _ => rfl, hway _ fun _ => rfl]

theorem ownersMarked_of_entries {N : Nat → Occ → Prop} {touched : Nat → Prop}
    (h : EntriesMarked s t fun v => ∃ j o, s.occ? j = some o ∧ N j o ∧ s.ownerOf o.station j = some v)
    (hN : ∀ j o, s.occ? j = some o → (touched j ↔ N j o)) : Claims.OwnersMarked s t touched := by
  have hiff : ∀ v, (∃ i, touched i ∧ Claims.ScanOwner s v i) ↔
      ∃ j o, s.occ? j = some o ∧ N j o ∧ s.ownerOf o.station j = some v := by
    intro v
    simp only [scanOwner_iff]
    exact ⟨fun ⟨j, hj, o, ho, hv⟩ => ⟨j, o, ho, (hN j o ho).1 hj, hv⟩,
      fun ⟨j, o, ho, hn, hv⟩ => ⟨j, (hN j o ho).2 hn, o, ho, hv⟩⟩
  exact ⟨fun v e he => ⟨fun hv => h.on v e he ((hiff v).1 hv), fun hv => h.off v e he (mt (hiff v).2 hv)⟩, h.free⟩

/-- The marking speaks of the entries and of the pool alone. -/
theorem ownersMarked_congr {touched : Nat → Prop} {s' t' : State} (hst : s'.stations = s.stations) (hocc : s'.occs = s.occs)
    (ht : t'.stations = t.stations) (h : Claims.OwnersMarked s t touched) : Claims.OwnersMarked s' t' touched := by
  simp only [Claims.OwnersMarked, Claims.ScanOwner, State.matching, State.station?, State.occ?, hst, hocc, ht] at h ⊢
  exact h

/-! ### Marking the owner in the scan (R195, R26) -/

/-- The entries and the records of the pool agree with their check values; some may carry the damaged mark. -/
structure ScanReads (s : State) : Prop where
  part : s.part = .starting
  stations : ∀ v f, s.station? v = some f → f.sound = true
  occs : ∀ i o, s.occ? i = some o → o.sound = true

theorem markOwner_of_owner {n i w : Nat} (hs : ∀ v f, s.station? v = some f → f.sound = true)
    (h : s.ownerOf n i = some w) : s.markOwner n i = s.markChanged w := by
  simp [State.markOwner, checkStations_of_sound fun v _ => hs v, h]

theorem markOwner_of_none {n i : Nat} (hs : ∀ v f, s.station? v = some f → f.sound = true) (h : s.ownerOf n i = none) :
    s.markOwner n i = s := by
  simp [State.markOwner, checkStations_of_sound fun v _ => hs v, h]

theorem markOwner_marks (hs : ∀ v f, s.station? v = some f → f.sound = true) (n i : Nat) :
    EntriesMarked s (s.markOwner n i) fun v => s.ownerOf n i = some v := by
  cases ho : s.ownerOf n i with
  | none =>
    rw [markOwner_of_none hs ho]
    exact .of_stations rfl fun v hv => by cases hv
  | some w =>
    rw [markOwner_of_owner hs ho]
    exact (markChanged_marked (hs w)).congr fun v => by rw [Option.some.injEq, eq_comm]

theorem markChanged_scanStep (w : Nat) : ScanStep s (s.markChanged w) id := by
  unfold State.markChanged
  split
  · rename_i e he
    exact putChanged_scanStep he id
  · exact .refl s

theorem markOwner_scanStep (hs : ∀ v f, s.station? v = some f → f.sound = true) (n i : Nat) :
    ScanStep s (s.markOwner n i) id := by
  cases ho : s.ownerOf n i with
  | none =>
    rw [markOwner_of_none hs ho]
    exact .refl s
  | some w =>
    rw [markOwner_of_owner hs ho]
    exact markChanged_scanStep w

theorem markOwner_stationsScan (hs : ∀ v f, s.station? v = some f → f.sound = true) (n i : Nat) :
    StationsScan s (s.markOwner n i) := by
  cases ho : s.ownerOf n i with
  | none =>
    rw [markOwner_of_none hs ho]
    exact .refl s
  | some w =>
    rw [markOwner_of_owner hs ho]
    exact markChanged_stationsScan w

theorem markRecord_of_starting (h : s.part = .starting) (n i : Nat) : s.markRecord n i = s.markOwner n i := if_pos h

/-! ### Records written by the scan -/

/-- What is written keeps the station, the mark and the check value of a record, and a second write changes nothing. -/
structure Settles (p : Occ → Bool) (W : Occ → Occ) : Prop where
  station : ∀ o, (W o).station = o.station
  damaged : ∀ o, (W o).damaged = o.damaged
  sound : ∀ o, (W o).sound = o.sound
  again : ∀ o, p (W o) = true → W (W o) = W o

/-- What the writes of the records of `M` leave of the record `j`: those that `p` picks are written as `W` says. -/
def writtenIn (M : List Nat) (p : Occ → Bool) (W : Occ → Occ) (j : Nat) (o : Occ) : Occ :=
  if j ∈ M ∧ p o = true then W o else o

/-- `t` follows `s` in the scan, with each record of `M` that `p` picks written as `W` says and its owner marked changed. -/
structure Writes (s t : State) (M : List Nat) (p : Occ → Bool) (W : Occ → Occ) : Prop where
  step : ScanStep s t id
  loops : t.loops = s.loops
  events : t.events = s.events
  occ : ∀ j, t.occ? j = (s.occ? j).map (writtenIn M p W j)
  marked : EntriesMarked s t fun v => ∃ j o, s.occ? j = some o ∧ (j ∈ M ∧ p o = true) ∧ s.ownerOf o.station j = some v

variable {M M' : List Nat} {p : Occ → Bool} {W : Occ → Occ}

theorem writtenIn_of_not {j : Nat} {o : Occ} (h : ¬(j ∈ M ∧ p o = true)) : writtenIn M p W j o = o := if_neg h

theorem writtenIn_keeps {β : Type} (g : Occ → β) (hg : ∀ o, g (W o) = g o) (j : Nat) (o : Occ) :
    g (writtenIn M p W j o) = g o := by
  unfold writtenIn
  split
  · exact hg o
  · rfl

theorem writtenIn_writtenIn (hW : Settles p W) (j : Nat) (o : Occ) :
    writtenIn M' p W j (writtenIn M p W j o) = writtenIn (M ++ M') p W j o := by
  by_cases h : j ∈ M ∧ p o = true
  · have hboth : j ∈ M ++ M' ∧ p o = true := ⟨List.mem_append_left _ h.1, h.2⟩
    have hfirst : writtenIn M p W j o = W o := if_pos h
    have hwhole : writtenIn (M ++ M') p W j o = W o := if_pos hboth
    rw [hfirst, hwhole, writtenIn]
    split
    · rename_i h'
      exact hW.again o h'.2
    · rfl
  · have hiff : j ∈ M ++ M' ∧ p o = true ↔ j ∈ M' ∧ p o = true := by
      rw [List.mem_append]
      exact ⟨fun ⟨hj, hp⟩ => ⟨hj.resolve_left fun hM => h ⟨hM, hp⟩, hp⟩, fun ⟨hj, hp⟩ => ⟨.inr hj, hp⟩⟩
    rw [writtenIn_of_not h]
    simp only [writtenIn, hiff]

theorem EntriesMarked.sound {P : Nat → Prop} (h : EntriesMarked s t P) (hs : ∀ v f, s.station? v = some f → f.sound = true) :
    ∀ v f, t.station? v = some f → f.sound = true := by
  intro v f hf
  have hk := h.keeps Station.sound (fun _ => rfl) v
  rw [hf] at hk
  obtain ⟨e, he, heq⟩ := Option.map_eq_some_iff.1 hk.symm
  exact heq.symm.trans (hs v e he)

theorem Writes.reads (h : Writes s t M p W) (hW : ∀ o, (W o).sound = o.sound) (hs : ScanReads s) : ScanReads t := by
  refine ⟨h.step.part.trans hs.part, h.marked.sound hs.stations, fun i o ho => ?_⟩
  rw [h.occ] at ho
  obtain ⟨q, hq, rfl⟩ := Option.map_eq_some_iff.1 ho
  exact (writtenIn_keeps Occ.sound hW i q).trans (hs.occs i q hq)

/-- A step that writes none of the records that it takes. -/
theorem Writes.of_none (hstep : ScanStep s t id) (htables : Claims.TablesKept s t) (hevents : t.events = s.events)
    (h : ∀ j o, s.occ? j = some o → ¬(j ∈ M ∧ p o = true)) : Writes s t M p W := by
  obtain ⟨hst, hocc, hloop⟩ := htables
  refine ⟨hstep, hloop, hevents, fun j => ?_, .of_stations hst fun v => ?_⟩
  · rw [State.occ?, hocc, ← State.occ?]
    cases ho : s.occ? j with
    | none => rfl
    | some o => rw [Option.map_some, writtenIn_of_not (h j o ho)]
  · rintro ⟨j, o, ho, hn, -⟩
    exact h j o ho hn

/-- The owners of records that a second step writes, by the state before the first. -/
theorem Writes.marked_back (h : Writes s t M p W) (hst : ∀ o, (W o).station = o.station) {N N' : Nat → Occ → Prop}
    (hN : ∀ j o, s.occ? j = some o → (N' j (writtenIn M p W j o) ↔ N j o)) (v : Nat) :
    (∃ j o, t.occ? j = some o ∧ N' j o ∧ t.ownerOf o.station j = some v) ↔
      ∃ j o, s.occ? j = some o ∧ N j o ∧ s.ownerOf o.station j = some v := by
  constructor
  · rintro ⟨j, q, hq, hn, hv⟩
    rw [h.occ] at hq
    obtain ⟨o, ho, rfl⟩ := Option.map_eq_some_iff.1 hq
    rw [h.marked.ownerOf, writtenIn_keeps Occ.station hst] at hv
    exact ⟨j, o, ho, (hN j o ho).1 hn, hv⟩
  · rintro ⟨j, o, ho, hn, hv⟩
    refine ⟨j, writtenIn M p W j o, by rw [h.occ, ho]; rfl, (hN j o ho).2 hn, ?_⟩
    rw [h.marked.ownerOf, writtenIn_keeps Occ.station hst]
    exact hv

theorem Writes.trans (h : Writes s t M p W) (k : Writes t u M' p W) (hW : Settles p W) : Writes s u (M ++ M') p W := by
  refine ⟨h.step.trans k.step, k.loops.trans h.loops, k.events.trans h.events, fun j => ?_, ?_⟩
  · rw [k.occ, h.occ, Option.map_map]
    exact Option.map_congr fun o _ => writtenIn_writtenIn hW j o
  · refine (h.marked.trans k.marked).congr fun v => ?_
    have hback := h.marked_back hW.station (N := fun j o => j ∈ M' ∧ p (writtenIn M p W j o) = true)
      (N' := fun j o => j ∈ M' ∧ p o = true) (fun _ _ _ => Iff.rfl) v
    rw [hback]
    constructor
    · rintro (⟨j, o, ho, hn, hv⟩ | ⟨j, o, ho, hn, hv⟩)
      · exact ⟨j, o, ho, ⟨List.mem_append_left _ hn.1, hn.2⟩, hv⟩
      · refine ⟨j, o, ho, ⟨List.mem_append_right _ hn.1, ?_⟩, hv⟩
        by_cases hM : j ∈ M ∧ p o = true
        · exact hM.2
        · rw [writtenIn_of_not hM] at hn
          exact hn.2
    · rintro ⟨j, o, ho, ⟨hj, hp⟩, hv⟩
      by_cases hM : j ∈ M
      · exact .inl ⟨j, o, ho, ⟨hM, hp⟩, hv⟩
      · refine .inr ⟨j, o, ho, ⟨(List.mem_append.1 hj).resolve_left hM, ?_⟩, hv⟩
        rw [writtenIn_of_not fun h => hM h.1]
        exact hp

/-- One record is written and its owner marked; the window's copy of its membership may have been written before (log 28). -/
theorem putMark_writes {i : Nat} {o : Occ} {x : Option Window} (hs : ScanReads s) (ho : s.occ? i = some o) (hp : p o = true)
    (hW : Settles p W) (ht : t = { s with window := x }) :
    Writes s ((t.putOcc i (W o)).markOwner o.station i) [i] p W := by
  have hframe : ScanStep s t id := by
    rw [ht]
    exact ⟨rfl, rfl, rfl, .of_tables ⟨rfl, rfl, rfl⟩, .of_scan rfl⟩
  have hocc : ∀ j, (t.putOcc i (W o)).occ? j = (s.occ? j).map (writtenIn [i] p W j) := by
    intro j
    rw [occ?_putOcc, ht]
    by_cases hj : j = i
    · rw [if_pos hj, hj, ho, Option.map_some, writtenIn, if_pos ⟨List.mem_cons_self, hp⟩]
      have hsound : (W o).sound = true := (hW.sound o).trans (hs.occs i o ho)
      rw [← hsound]
    · rw [if_neg hj]
      cases hjo : s.occ? j with
      | none => exact hjo
      | some q =>
        rw [Option.map_some, writtenIn_of_not fun h => hj (List.mem_singleton.1 h.1)]
        exact hjo
  have hsound : ∀ v f, (t.putOcc i (W o)).station? v = some f → f.sound = true := by
    rw [ht]
    exact hs.stations
  have hto : t.occ? i = some o := by
    rw [ht]
    exact ho
  have hput : ScanStep s (t.putOcc i (W o)) id :=
    hframe.trans (putOcc_scanStep hto fun hd => (hW.damaged o).symm.trans hd)
  have hmark := markOwner_marks hsound o.station i
  obtain ⟨y, z, heq, -⟩ := markOwner_stationsScan hsound o.station i
  have hstep := hput.trans (markOwner_scanStep hsound o.station i)
  refine ⟨hstep, ?_, ?_, fun j => Eq.trans ?_ (hocc j), ?_⟩
  · rw [heq, ht]
    rfl
  · rw [heq, ht]
    rfl
  · rw [heq]
    rfl
  · subst ht
    refine EntriesMarked.congr (P := fun v => s.ownerOf o.station i = some v) ⟨hmark.on, hmark.off, hmark.free⟩ fun v => ?_
    constructor
    · exact fun hv => ⟨i, o, ho, ⟨List.mem_cons_self, hp⟩, hv⟩
    · rintro ⟨j, q, hq, ⟨hj, -⟩, hv⟩
      obtain rfl := List.mem_singleton.1 hj
      obtain rfl := Option.some.inj (ho.symm.trans hq)
      exact hv

/-- Several records, one after another; `π` gives the state of what is carried along. -/
theorem writes_foldl {α : Type} {π : α → State} {f : α → Nat → α} {Inv : State → Prop} (hW : Settles p W)
    (hinv : ∀ s t M, Inv s → Writes s t M p W → Inv t) (hf : ∀ a i, Inv (π a) → Writes (π a) (π (f a i)) [i] p W)
    (M : List Nat) (a : α) (ha : Inv (π a)) : Writes (π a) (π (M.foldl f a)) M p W := by
  induction M generalizing a with
  | nil => exact .of_none (.refl _) ⟨rfl, rfl, rfl⟩ rfl fun j o _ h => List.not_mem_nil h.1
  | cons i M ih => exact (hf a i ha).trans (ih (f a i) (hinv _ _ _ ha (hf a i ha))) hW

theorem Writes.ownersMarked (h : Writes s t M p W) {touched : Nat → Prop}
    (htouched : ∀ j o, s.occ? j = some o → (touched j ↔ j ∈ M ∧ p o = true)) : Claims.OwnersMarked s t touched :=
  ownersMarked_of_entries h.marked htouched

end Sys2Proof.Machine
end

