-- ==== Sys2Proof/Proofs/ServiceControl/ScanFrees.lean ====
section
/-! SUPPORT. What a record freed by the scan leaves of the lists (R31, R196; log 15), where the entries and the loops agree with
their check values and some may carry the damaged mark. -/

namespace Sys2Proof.Machine

open Sys2Proof

variable {s t u : State}

/-! ### Member lists (R31, log 15) -/

/-- A loop whose list loses indices, unless it is damaged. -/
def membersLess (is : List Nat) (r : Loop) : Loop :=
  if r.damaged then r else { r with members := r.members.filter (· ∉ is) }

theorem membersLess_keeps (is : List Nat) (r : Loop) :
    (membersLess is r).sound = r.sound ∧ (membersLess is r).damaged = r.damaged := by
  unfold membersLess
  split <;> exact ⟨rfl, rfl⟩

theorem membersLess_of_damaged {is : List Nat} {r : Loop} (h : r.damaged = true) : membersLess is r = r := if_pos h

theorem membersLess_of_undamaged {is : List Nat} {r : Loop} (h : r.damaged = false) :
    membersLess is r = { r with members := r.members.filter (· ∉ is) } := if_neg (by simp [h])

theorem membersLess_of_not_member {is : List Nat} {r : Loop} (h : ∀ i ∈ is, i ∉ r.members) : membersLess is r = r := by
  have hself : r.members.filter (· ∉ is) = r.members :=
    List.filter_eq_self.2 fun j hj => by simpa using fun hi : j ∈ is => h j hi hj
  unfold membersLess
  split
  · rfl
  · rw [hself]

theorem membersLess_membersLess (is js : List Nat) (r : Loop) :
    membersLess js (membersLess is r) = membersLess (is ++ js) r := by
  cases hd : r.damaged with
  | true => rw [membersLess_of_damaged hd, membersLess_of_damaged hd, membersLess_of_damaged hd]
  | false =>
    rw [membersLess_of_undamaged ((membersLess_keeps is r).2.trans hd), membersLess_of_undamaged hd,
      membersLess_of_undamaged hd]
    simp [List.filter_filter, Bool.and_comm]

theorem membersLess_idem (i : Nat) (r : Loop) : membersLess [i] (membersLess [i] r) = membersLess [i] r := by
  rw [membersLess_membersLess]
  simp [membersLess]

/-- Every loop agrees with its check value; some may carry the damaged mark. -/
def LoopsSound (s : State) : Prop := ∀ l r, s.loop? l = some r → r.sound = true

/-- `t` follows `s` in the scan with its entries and its records. -/
structure ListsStep (s t : State) : Prop where
  step : ScanStep s t id
  stations : t.stations = s.stations
  occs : t.occs = s.occs

theorem ListsStep.refl (s : State) : ListsStep s s := ⟨.refl s, rfl, rfl⟩

theorem ListsStep.trans (h : ListsStep s t) (k : ListsStep t u) : ListsStep s u :=
  ⟨h.step.trans k.step, k.stations.trans h.stations, k.occs.trans h.occs⟩

/-- The list of a damaged loop is read and not written. -/
theorem unmember_of_damaged {i l : Nat} {r : Loop} (hr : s.loop? l = some r) (hd : r.damaged = true) (hm : i ∈ r.members) :
    State.unmember i s l = (s.setLoop l r).raise .memoryError := by
  have hsame : { r with damaged := true } = r := by rw [← hd]
  have hread : s.checkLoop l = (s.setLoop l r).raise .memoryError := by
    rw [checkLoop_raises hr (.inl hd), hsame]
  have hloop : ((s.setLoop l r).raise .memoryError).loop? l = some r := by
    rw [loop?_raise, loop?_setLoop, if_pos rfl]
  simp [State.unmember, hr, hm, hread, hloop, hd]

theorem unmember_lists {i l : Nat} (hl : LoopsSound s) : ListsStep s (State.unmember i s l) ∧ ∀ k,
    (State.unmember i s l).loop? k = if k = l then (s.loop? k).map (membersLess [i]) else s.loop? k := by
  by_cases hm : ∃ r, s.loop? l = some r ∧ i ∈ r.members
  · obtain ⟨r, hr, hm⟩ := hm
    cases hd : r.damaged with
    | true =>
      rw [unmember_of_damaged hr hd hm]
      refine ⟨⟨.of_tableStep ((setLoop_tableStep s l r).trans (raise_tableStep _ _))
        ((setLoop_within hr id).trans (.of_tables ⟨rfl, rfl, rfl⟩)) (.of_scan rfl), rfl, rfl⟩, fun k => ?_⟩
      rw [loop?_raise, loop?_setLoop]
      by_cases hk : k = l
      · rw [if_pos hk, if_pos hk, hk, hr, Option.map_some, membersLess_of_damaged hd]
      · rw [if_neg hk, if_neg hk]
    | false =>
      have hsound := hl l r hr
      have hless : membersLess [i] r = { memberless i r with sound := true } := by
        rw [membersLess_of_undamaged hd, ← hsound]
        simp [memberless]
      rw [unmember_of_member hr ⟨hsound, hd⟩ hm]
      refine ⟨⟨putLoop_scanStep hr id, rfl, rfl⟩, fun k => ?_⟩
      rw [loop?_putLoop]
      by_cases hk : k = l
      · rw [if_pos hk, if_pos hk, hk, hr, Option.map_some, hless]
      · rw [if_neg hk, if_neg hk]
  · rw [unmember_of_not_member fun r hr h => hm ⟨r, hr, h⟩]
    refine ⟨.refl s, fun k => ?_⟩
    by_cases hk : k = l
    · subst hk
      rw [if_pos rfl]
      cases hr : s.loop? k with
      | none => rfl
      | some r => rw [Option.map_some, membersLess_of_not_member (by simpa using fun h => hm ⟨r, hr, h⟩)]
    · rw [if_neg hk]

theorem loopsSound_of_membersLess {ls is : List Nat} (hl : LoopsSound s)
    (ht : ∀ k, t.loop? k = if k ∈ ls then (s.loop? k).map (membersLess is) else s.loop? k) : LoopsSound t := by
  intro k r hr
  rw [ht] at hr
  split at hr
  · obtain ⟨x, hx, rfl⟩ := Option.map_eq_some_iff.1 hr
    exact (membersLess_keeps is x).1.trans (hl k x hx)
  · exact hl k r hr

theorem foldl_unmember_lists {i : Nat} (ls : List Nat) (hl : LoopsSound s) :
    ListsStep s (ls.foldl (State.unmember i) s) ∧ ∀ k,
      (ls.foldl (State.unmember i) s).loop? k = if k ∈ ls then (s.loop? k).map (membersLess [i]) else s.loop? k := by
  induction ls generalizing s with
  | nil => exact ⟨.refl s, fun k => rfl⟩
  | cons l ls ih =>
    obtain ⟨hstep, hst⟩ := unmember_lists (i := i) (l := l) hl
    obtain ⟨hsteps, hrest⟩ := ih (loopsSound_of_membersLess (ls := [l]) (is := [i]) hl (by simpa using hst))
    refine ⟨hstep.trans hsteps, fun k => ?_⟩
    rw [List.foldl_cons, hrest, hst]
    by_cases hk : k = l <;> by_cases hm : k ∈ ls <;> cases s.loop? k <;> simp [hk, hm, membersLess_idem]

/-! ### Station lists (R31) -/

theorem unlist_scanStep {i w : Nat} (hs : ∀ e, s.station? w = some e → e.sound = true) :
    ScanStep s (State.unlist i s w) id := by
  cases he : s.station? w with
  | none =>
    rw [unlist_of_none he]
    exact .refl s
  | some e =>
    rw [unlist_of_sound he (hs e he)]
    split
    · exact putChanged_scanStep he id
    · exact .refl s

theorem foldl_unlist_scanStep {i : Nat} (ws : List Nat) (hs : WaysRead s ws) :
    ScanStep s (ws.foldl (State.unlist i) s) id := by
  induction ws generalizing s with
  | nil => exact .refl s
  | cons w ws ih =>
    have hw := hs w List.mem_cons_self
    have hread : WaysRead (State.unlist i s w) ws :=
      waysRead_of_unlisted (vs := [w]) (is := [i]) (fun v hv => hs v (List.mem_cons_of_mem _ hv))
        (by simpa using station?_unlist hw)
    exact (unlist_scanStep hw).trans (ih hread)

/-! ### Records freed (R31, R196) -/

theorem mem_allWays_of_lt {w : Nat} (h : w < 256) : w ∈ allWays := List.mem_range.2 h

/-- `t` follows `s` in the scan with the records of `is` FREE and off the lists. -/
structure FreedIn (s t : State) (is : List Nat) : Prop where
  step : ScanStep s t id
  occ : ∀ j, t.occ? j = if j ∈ is then none else s.occ? j
  station : ∀ v, t.station? v = if v ∈ allWays then (s.station? v).map (unlisted is) else s.station? v
  loop : ∀ k, t.loop? k = (s.loop? k).map (membersLess is)

theorem freeOcc_freedIn (i : Nat) (hs : WaysRead s allWays) (hl : LoopsSound s) : FreedIn s (s.freeOcc allWays i) [i] := by
  obtain ⟨⟨x, y, hxy, -⟩, hst⟩ := foldl_unlist (i := i) allWays hs
  have hstep := foldl_unlist_scanStep (i := i) allWays hs
  have hloops : ∀ k, (allWays.foldl (State.unlist i) s).loop? k = s.loop? k := fun k => by rw [hxy]; rfl
  have heq : s.freeOcc allWays i = (let a := allWays.foldl (State.unlist i) s
    let b := (slotKeys a.loops).foldl (State.unmember i) a
    { b with occs := slotErase s.occs i }) := by
      rw [State.freeOcc, foldl_occs (unmember_occs i), foldl_occs (unlist_occs i)]
  generalize allWays.foldl (State.unlist i) s = a at hxy hst hstep hloops heq
  obtain ⟨hsteps, hloop⟩ := foldl_unmember_lists (i := i) (slotKeys a.loops) (s := a) fun l r hr => hl l r (hloops l ▸ hr)
  have hocc := occ?_freeOcc (s := s) allWays i
  rw [heq] at hocc ⊢
  dsimp only at hocc ⊢
  generalize (slotKeys a.loops).foldl (State.unmember i) a = b at hsteps hloop hocc ⊢
  have hboccs : b.occs = s.occs := hsteps.occs.trans (by rw [hxy])
  have herase : ScanStep b { b with occs := slotErase b.occs i } id :=
    ⟨rfl, rfl, rfl, eraseOcc_within i, .of_scan rfl⟩
  rw [hboccs] at herase
  refine ⟨(hstep.trans hsteps.step).trans herase, fun j => ?_, fun v => ?_, fun k => ?_⟩
  · rw [hocc]
    simp
  · rw [← hst]
    show slotGet b.stations v = slotGet a.stations v
    rw [hsteps.stations]
  · refine (hloop k).trans ?_
    rw [hloops]
    split
    · rfl
    · rename_i hkey
      rw [← hloops, State.loop?, slotGet_eq_none hkey]
      rfl

theorem FreedIn.nil (s : State) : FreedIn s s [] := by
  refine ⟨.refl s, fun j => rfl, fun v => ?_, fun k => ?_⟩
  · cases s.station? v <;> simp [unlisted_nil]
  · cases s.loop? k with
    | none => rfl
    | some r => rw [Option.map_some, membersLess_of_not_member fun i hi => absurd hi List.not_mem_nil]

theorem FreedIn.trans {is js : List Nat} (h : FreedIn s t is) (k : FreedIn t u js) : FreedIn s u (is ++ js) := by
  refine ⟨h.step.trans k.step, fun j => ?_, fun v => ?_, fun l => ?_⟩
  · rw [k.occ, h.occ]
    by_cases hi : j ∈ is <;> by_cases hj : j ∈ js <;> simp [hi, hj]
  · rw [k.station, h.station]
    by_cases hv : v ∈ allWays <;> cases s.station? v <;> simp [hv, unlisted_unlisted]
  · rw [k.loop, h.loop]
    cases s.loop? l <;> simp [membersLess_membersLess]

theorem foldl_freeOcc_freedIn (is : List Nat) (hs : WaysRead s allWays) (hl : LoopsSound s) :
    FreedIn s (is.foldl (fun s i => s.freeOcc allWays i) s) is := by
  induction is generalizing s with
  | nil => exact .nil s
  | cons i is ih =>
    have h := freeOcc_freedIn i hs hl
    have hloop : ∀ k, (s.freeOcc allWays i).loop? k =
        if k ∈ slotKeys s.loops then (s.loop? k).map (membersLess [i]) else s.loop? k := by
      intro k
      rw [h.loop]
      split
      · rfl
      · rename_i hkey
        rw [State.loop?, slotGet_eq_none hkey]
        rfl
    rw [List.foldl_cons]
    exact h.trans (ih (waysRead_of_unlisted hs h.station) (loopsSound_of_membersLess hl hloop))

/-- A freeing speaks of the tables alone, and of the freed records no more than that they are FREE. -/
theorem freed_congr {is : List Nat} {u' : State} (hst : ∀ v, t.station? v = s.station? v) (hl : ∀ l, t.loop? l = s.loop? l)
    (hocc : ∀ j, j ∉ is → t.occ? j = s.occ? j) (h : Claims.Freed t u is) (hu : Claims.TablesKept u u') :
    Claims.Freed s u' is := by
  obtain ⟨hust, huocc, huloop⟩ := hu
  unfold Claims.Freed at h ⊢
  simp only [State.station?, State.occ?, State.loop?, hust, huocc, huloop] at h hst hl hocc ⊢
  simp only [hst, hl] at h
  refine ⟨fun i => (h.1 i).trans ?_, h.2⟩
  split
  · rfl
  · rename_i hi
    exact hocc i hi

/-- What the claims say of records freed. -/
theorem FreedIn.freed {is : List Nat} (h : FreedIn s t is) : Claims.Freed s t is := by
  refine ⟨h.occ, fun w e hw he => ?_, fun w hw => ?_, fun l r hr => ?_, fun l hl => ?_⟩
  · rw [h.station, if_pos (mem_allWays_of_lt hw), he, Option.map_some, unlisted_eq_ite]
  · rw [h.station, hw]
    exact ite_self _
  · rw [h.loop, hr]
    rfl
  · rw [h.loop, hl]
    rfl

end Sys2Proof.Machine
end

