-- ==== Sys2Proof/Proofs/ServiceControl/ScanEarly.lean ====
section
/-! SUPPORT. The first two passes of the scan (R196): twins become SUSPECT, damaged records are freed and damaged entries
counted. -/

namespace Sys2Proof.Machine

open Sys2Proof

variable {s t u : State}

/-! ### A step of the first two passes -/

/-- What a step that marks nothing newly leaves: its findings, and the scan moved on. -/
theorem scanPass_earlyStep {c : Scan} {n k size : Nat} {act : Nat → State → State} {f : ScanCounts → ScanCounts}
    (hc : Claims.Scans s c n k) (hk : k < size) (h : ScanStep s (act k s) f) :
    scanPass n size (fun s k => earlyStep act s k) 1 s = (act k s).advanced size ∧
      ∃ d, ((act k s).advanced size).scan = some d ∧ d.tally = f c.tally := by
  rw [scanPass_one _ hc hk, earlyStep_of_within h.marks]
  obtain ⟨-, -, hscan, -⟩ := hc
  exact ⟨rfl, (h.report.trans (advanced_reports size)).exists_scan hscan⟩

/-! ### Pass 1: twins (R196) -/

/-- R196: an ACTIVE way whose number another way of its set carries. -/
def State.isTwin (s : State) (w : Nat) : Bool :=
  s.wayIs (fun e => (s.matching e.number).any (· ≠ w) && e.state ≠ .suspect) w

theorem isTwin_iff {w : Nat} : s.isTwin w = true ↔
    ∃ e, s.station? w = some e ∧ e.state = .active ∧ ∃ v ∈ s.matching e.number, v ≠ w := by
  have hstate : ∀ e : Station, e.state ≠ .suspect ↔ e.state = .active := fun e => by cases e.state <;> simp
  simp only [State.isTwin, wayIs_iff, Bool.and_eq_true, decide_eq_true_eq, hstate, List.any_eq_true]
  exact exists_congr fun e => and_congr_right fun _ => and_comm

/-- R196: the entry of a twin as the scan leaves it. -/
def suspectTwinned (e : Station) : Station := { e with state := .suspect, changed := true }

/-- R198: one more way that became SUSPECT. -/
def countSuspect (c : ScanCounts) : ScanCounts := { c with suspectWays := addHeld c.suspectWays 1 }

theorem countSuspect_iterate (n : Nat) {c : ScanCounts} (h : c.suspectWays ≤ 65535) :
    (countSuspect^[n] c).suspectWays = Claims.counted c.suspectWays n := by
  induction n with
  | zero => simp [Claims.counted, h]
  | succ n ih =>
    rw [Function.iterate_succ_apply', countSuspect, ih]
    simp only [Claims.counted, addHeld]
    omega

/-- `t` follows `s` in the scan with the ways of `ws` SUSPECT. -/
structure Suspected (s t : State) (ws : List Nat) : Prop where
  step : ScanStep s t countSuspect^[ws.length]
  occs : t.occs = s.occs
  loops : t.loops = s.loops
  station : ∀ v, t.station? v = if v ∈ ws then (s.station? v).map suspectTwinned else s.station? v

theorem Suspected.refl (s : State) : Suspected s s [] := ⟨.refl s, rfl, rfl, fun _ => rfl⟩

theorem Suspected.trans {ws vs : List Nat} (h : Suspected s t ws) (k : Suspected t u vs) : Suspected s u (ws ++ vs) := by
  refine ⟨⟨k.step.part.trans h.step.part, k.step.resetHeld.trans h.step.resetHeld, k.step.clock.trans h.step.clock,
    h.step.marks.trans k.step.marks, ?_⟩, k.occs.trans h.occs, k.loops.trans h.loops, fun v => ?_⟩
  · have hreport := h.step.report.trans k.step.report
    rw [List.length_append, Nat.add_comm, Function.iterate_add]
    exact hreport
  · rw [k.station, h.station]
    by_cases hw : v ∈ ws <;> by_cases hv : v ∈ vs <;> cases s.station? v <;> simp [hw, hv, suspectTwinned]

theorem suspectTwin_suspected {w : Nat} (hs : ∀ e, s.station? w = some e → e.sound = true) :
    Suspected s (s.suspectTwin w) ([w].filter s.isTwin) := by
  cases he : s.station? w with
  | none =>
    have hnot : s.isTwin w = false := wayIs_eq_false_iff.2 fun e h => by simp [he] at h
    simp only [State.suspectTwin, he, List.filter_cons, hnot]
    exact .refl s
  | some e =>
    have htwin : s.isTwin w = ((s.matching e.number).any (· ≠ w) && e.state ≠ .suspect) := by
      simp [State.isTwin, State.wayIs, he]
    simp only [State.suspectTwin, he, List.filter_cons, htwin]
    split
    · have hput : ScanStep s (s.putChanged w { e with state := .suspect }) id := putChanged_scanStep he id
      refine ⟨hput.count (g := countSuspect) fun _ => rfl, ?_, ?_, fun v => ?_⟩
      · obtain ⟨x, y, h, -⟩ := putChanged_stationsScan (s := s) w { e with state := .suspect }
        rw [State.count_occs, h]
      · obtain ⟨x, y, h, -⟩ := putChanged_stationsScan (s := s) w { e with state := .suspect }
        rw [State.count_loops, h]
      · have hput := station?_putChanged (s := s) w v { e with state := .suspect }
        refine Eq.trans hput ?_
        by_cases hv : v = w <;> simp [hv, he, suspectTwinned, hs e he]
    · exact .refl s

theorem Suspected.isTwin {ws : List Nat} (h : Suspected s t ws) {v : Nat} (hv : v ∉ ws) : t.isTwin v = s.isTwin v := by
  have hst : t.station? v = s.station? v := (h.station v).trans (if_neg hv)
  have hm : ∀ n, t.matching n = s.matching n := fun n => matching_congr fun w _ => by
    rw [h.station]
    by_cases hw : w ∈ ws <;> cases s.station? w <;> simp [hw, suspectTwinned]
  simp only [State.isTwin, State.wayIs, hst, hm]

theorem Suspected.sound {ws : List Nat} (h : Suspected s t ws) (hs : ∀ v f, s.station? v = some f → f.sound = true) :
    ∀ v f, t.station? v = some f → f.sound = true := by
  intro v f hf
  rw [h.station] at hf
  split at hf
  · obtain ⟨e, he, rfl⟩ := Option.map_eq_some_iff.1 hf
    exact hs v e he
  · exact hs v f hf

theorem foldl_suspectTwin (ws : List Nat) (hn : ws.Nodup) (hs : ∀ v f, s.station? v = some f → f.sound = true) :
    Suspected s (ws.foldl State.suspectTwin s) (ws.filter s.isTwin) := by
  induction ws generalizing s with
  | nil => exact .refl s
  | cons w ws ih =>
    obtain ⟨hw, hn⟩ := List.nodup_cons.1 hn
    have hone := suspectTwin_suspected (hs w)
    have hrest := hone.trans (ih hn (hone.sound hs))
    have hsame : ws.filter (s.suspectTwin w).isTwin = ws.filter s.isTwin := List.filter_congr fun v hv => by
      refine hone.isTwin fun h => hw ?_
      rw [← List.mem_singleton.1 (List.mem_of_mem_filter h)]
      exact hv
    rw [hsame, ← List.filter_append] at hrest
    exact hrest

theorem waysOfSet_nodup (k : Nat) : (waysOfSet k).Nodup := (waysOfSet_rising k).imp fun h => Nat.ne_of_lt h

theorem suspectTwins_suspected (k : Nat) (hs : ∀ v f, s.station? v = some f → f.sound = true) :
    Suspected s (suspectTwins k s) ((waysOfSet k).filter s.isTwin) := by
  rw [suspectTwins, checkStations_of_sound fun v _ => hs v]
  exact foldl_suspectTwin _ (waysOfSet_nodup k) hs

theorem exec_scanDuplicates (k : Nat) (s : State) : exec (.scanDuplicates k) s =
    .next (scanPass 1 64 (fun s k => earlyStep suspectTwins s k) k s) := rfl

theorem scanSuspects_claim : Claims.ScanSuspects := by
  intro s c k hc hread hk hcount
  have hsuspected := suspectTwins_suspected k fun v f hf => hread.1 _ (mem_of_slotGet hf)
  obtain ⟨heq, d, hd, htally⟩ := scanPass_earlyStep hc hk hsuspected.step
  rw [exec_scanDuplicates, heq]
  generalize suspectTwins k s = t at hsuspected hd ⊢
  refine ⟨_, d, (waysOfSet k).filter s.isTwin, rfl, hd, hsuspected.occs, hsuspected.loops, (waysOfSet_nodup k).filter _, fun w => ?_, ?_,
    fun w e he => ?_, fun w hw => ?_⟩
  · rw [List.mem_filter, mem_waysOfSet, isTwin_iff]
  · rw [counts_of_tally htally]
    exact countSuspect_iterate _ hcount
  · refine (hsuspected.station w).trans ?_
    rw [he]
    by_cases hw : w ∈ (waysOfSet k).filter s.isTwin
    · rw [if_pos hw, if_pos hw]
      rfl
    · rw [if_neg hw, if_neg hw]
  · refine (hsuspected.station w).trans ?_
    rw [hw]
    exact ite_self _

/-! ### Pass 2: damaged occupations (R196) -/

theorem exec_scanDamage (k : Nat) (s : State) : exec (.scanDamage k) s =
    .next (scanPass 2 784 (fun s k => earlyStep findDamage s k) k s) := rfl

/-- A step of the first two passes that finds nothing. -/
theorem scanPass_idle {c : Scan} {n k size : Nat} {act : Nat → State → State} (hc : Claims.Scans s c n k) (hk : k < size)
    (h : act k s = s) : scanPass n size (fun s k => earlyStep act s k) 1 s = s.advanced size ∧
      ∃ d, (s.advanced size).scan = some d ∧ d.counts = c.counts := by
  have hnone : ScanStep s (act k s) id := by
    rw [h]
    exact .refl s
  have hstep := (scanPass_earlyStep hc hk hnone).1
  rw [h] at hstep
  obtain ⟨-, -, hscan, -⟩ := hc
  exact ⟨hstep, advanced_scan hscan⟩

theorem checkOcc_marked {i k : Nat} (h : i ∈ (s.checkOcc k).marked.occs) : i = k ∨ i ∈ s.marked.occs := by
  obtain ⟨o, ho, hd⟩ := mem_marked_occs.1 h
  unfold State.checkOcc at ho
  split at ho
  · split at ho
    · exact .inr (mem_marked_occs.2 ⟨o, ho, hd⟩)
    · rcases mem_of_mem_slotSet ho with h | h
      · exact .inl (Prod.mk.inj h).1
      · exact .inr (mem_marked_occs.2 ⟨o, h, hd⟩)
  · exact .inr (mem_marked_occs.2 ⟨o, ho, hd⟩)

/-- A read of an occupation changes the pool and the pending events alone. -/
theorem checkOcc_frame (k : Nat) : ∃ a ev, s.checkOcc k = { s with occs := a, events := ev } := by
  unfold State.checkOcc
  split
  · split
    · exact ⟨_, _, rfl⟩
    · exact ⟨_, _, rfl⟩
  · exact ⟨_, _, rfl⟩

theorem not_marked_of_free_occ {k : Nat} (h : s.occ? k = none) : k ∉ s.marked.occs := by
  intro hk
  obtain ⟨o, ho, -⟩ := mem_marked_occs.1 hk
  have hsome := slotGet_isSome_of_mem_slotKeys (List.mem_map_of_mem (f := (·.1)) ho)
  rw [State.occ?] at h
  simp [h] at hsome

/-- A record that is freed in the step that reads it leaves no mark. -/
theorem checkOcc_freedIn {k : Nat} (h : FreedIn (s.checkOcc k) t [k]) : ScanStep s t id := by
  obtain ⟨⟨hpart, hheld, hclock, ⟨hoccs, hloops, hways⟩, hreport⟩, hocc, -, -⟩ := h
  have hfree : k ∉ t.marked.occs := not_marked_of_free_occ (by rw [hocc, if_pos List.mem_cons_self])
  have hmarks : t.marked.occs ⊆ s.marked.occs := fun i hi =>
    (checkOcc_marked (hoccs hi)).resolve_left fun hik => hfree (hik ▸ hi)
  obtain ⟨a, ev, hframe⟩ := checkOcc_frame (s := s) k
  rw [hframe] at hpart hheld hclock hloops hways hreport
  exact ⟨hpart, hheld, hclock, ⟨hmarks, hloops, hways⟩, hreport⟩

theorem scanFreesOccupation_claim : Claims.ScanFreesOccupation := by
  intro s c k o hc hk ho hst hoccs hloops
  have hheld : s.resetHeld = false := hc.2.1
  have hfind : findDamage k s = (s.checkOcc k).freeDamagedOcc k := if_pos hk
  rw [exec_scanDamage]
  by_cases hf : o.damaged = true ∨ o.sound = false
  · obtain ⟨⟨a, hframe⟩, hocc⟩ := checkOcc_of_failing hheld ho hf
    have hread : WaysRead (s.checkOcc k) allWays := fun v _ f hv => hst _ (mem_of_slotGet (by rw [hframe] at hv; exact hv))
    have hsound : LoopsSound (s.checkOcc k) := fun l r hr => hloops _ (mem_of_slotGet (by rw [hframe] at hr; exact hr))
    have hfreed := freeOcc_freedIn k hread hsound
    have hact : findDamage k s = ((s.checkOcc k).freeOcc allWays k).count
        fun c => { c with damagedOccupations := addHeld c.damagedOccupations 1 } := by
      have hk : (s.checkOcc k).occ? k = some { o with damaged := true } := (hocc k).trans (if_pos rfl)
      simp [hfind, State.freeDamagedOcc, hk]
    have hstep := (checkOcc_freedIn hfreed).count
      (g := fun c => { c with damagedOccupations := addHeld c.damagedOccupations 1 }) fun _ => rfl
    rw [← hact] at hstep
    obtain ⟨heq, d, hd, htally⟩ := scanPass_earlyStep hc (show k < 784 by omega) hstep
    rw [heq]
    rw [hact] at hd ⊢
    generalize (s.checkOcc k).freeOcc allWays k = t at hfreed hd ⊢
    refine ⟨_, d, rfl, hd, fun _ => ⟨?_, by rw [counts_of_tally htally]; rfl⟩, fun h1 h2 => ?_⟩
    · refine freed_congr (fun v => by rw [hframe]; rfl) (fun l => by rw [hframe]; rfl) (fun j hj => ?_) hfreed.freed
        ⟨rfl, rfl, rfl⟩
      rw [hocc, if_neg (by simpa using hj)]
    · simp [h1, h2] at hf
  · obtain ⟨hd, hs⟩ := not_or.1 hf
    have hs : o.sound = true := by simpa using hs
    have hd : o.damaged = false := by simpa using hd
    have hidle : findDamage k s = s := by
      simp [hfind, checkOcc_of_found ho hs, State.freeDamagedOcc, ho, hd]
    obtain ⟨heq, d, hscan, hcounts⟩ := scanPass_idle hc (show k < 784 by omega) hidle
    rw [heq]
    exact ⟨_, d, rfl, hscan, fun h => absurd h hf, fun _ _ => ⟨⟨rfl, rfl, rfl⟩, hcounts⟩⟩

end Sys2Proof.Machine
end

