-- ==== Sys2Proof/Proofs/ServiceControl/ScanDamage.lean ====
section
/-! SUPPORT. The second pass of the scan, loops and stations (R128, R196): the records that a damaged loop's gather finds lose the
fields that name it, and a damaged entry is counted once. -/

namespace Sys2Proof.Machine

open Sys2Proof

variable {s t u : State}

/-! ### A gather in the scan (R128, R196) -/

/-- R128, R196: what is left of a record gathered in the scan. -/
def scanGathered (l : Nat) (o : Occ) : Occ := unnamed l (if o.memberOf = some l then gatheredDrift true o else o)

theorem scanGathered_fields (l : Nat) (o : Occ) : scanGathered l o = { o with
    memberOf := if o.memberOf = some l then none else o.memberOf
    opens := if o.opens = some l then none else o.opens
    drift := if o.memberOf = some l ∧ o.damaged = false then none else o.drift
    flags := if o.memberOf = some l ∧ o.damaged = false then { o.flags with driftHigh := false, noDrift := false }
      else o.flags } := by
  unfold scanGathered unnamed gatheredDrift
  by_cases hm : o.memberOf = some l
  · by_cases hd : o.damaged = true <;> simp [hm, hd, withoutDrift, clearDriftFlags]
  · simp [hm]

theorem scanGathered_settles (l : Nat) : Settles (fun _ => true) (scanGathered l) := by
  refine ⟨fun o => ?_, fun o => ?_, fun o => ?_, fun o _ => ?_⟩
  · rw [scanGathered_fields]
  · rw [scanGathered_fields]
  · rw [scanGathered_fields]
  · have hm : (scanGathered l o).memberOf ≠ some l := by
      rw [scanGathered_fields]
      dsimp only
      split
      · simp
      · assumption
    have ho : (scanGathered l o).opens ≠ some l := by
      rw [scanGathered_fields]
      dsimp only
      split
      · simp
      · assumption
    generalize scanGathered l o = q at hm ho
    rw [scanGathered_fields]
    simp [hm, ho]

theorem ungather_writes (hs : ScanReads s) (l i : Nat) :
    Writes s (State.ungather l s i) [i] (fun _ => true) (scanGathered l) := by
  cases ho : s.occ? i with
  | none =>
    have hu : State.ungather l s i = s := by simp [State.ungather, ho]
    rw [hu]
    refine .of_none (.refl s) ⟨rfl, rfl, rfl⟩ rfl fun j o hj h => ?_
    rw [List.mem_singleton.1 h.1, ho] at hj
    cases hj
  | some o =>
    have hframe : ∃ x t, State.ungather l s i = (t.putOcc i (scanGathered l o)).markOwner o.station i ∧
        t = { s with window := x } := by
      by_cases hm : o.memberOf = some l
      · refine ⟨_, s.unwindow i, ?_, rfl⟩
        have hpart : ((s.unwindow i).putOcc i (scanGathered l o)).part = .starting := hs.part
        rw [← markRecord_of_starting hpart]
        simp [State.ungather, ho, hm, scanGathered, hs.part]
      · refine ⟨s.window, s, ?_, rfl⟩
        have hpart : (s.putOcc i (scanGathered l o)).part = .starting := hs.part
        rw [← markRecord_of_starting hpart]
        simp [State.ungather, ho, hm, scanGathered]
    obtain ⟨x, t, hu, ht⟩ := hframe
    rw [hu]
    exact putMark_writes hs ho rfl (scanGathered_settles l) ht

theorem voidDamaged_writes (hs : ScanReads s) (l : Nat) : ∃ t, s.voidDamaged l = t.freeLoop l ∧
    Writes s t (s.naming l) (fun _ => true) (scanGathered l) := by
  have hpool : s.checkPool = s := checkOccs_of_sound fun j _ o hj => hs.occs j o hj
  refine ⟨(s.naming l).foldl (State.ungather l) s, by rw [State.voidDamaged, hpool], ?_⟩
  exact writes_foldl (π := id) (Inv := ScanReads) (scanGathered_settles l)
    (fun s t M h hw => hw.reads (scanGathered_settles l).sound h) (fun a i h => ungather_writes h l i) _ s hs

/-! ### Damaged loops (R196) -/

theorem checkLoop_marked {k l : Nat} (h : k ∈ (s.checkLoop l).marked.loops) : k = l ∨ k ∈ s.marked.loops := by
  obtain ⟨r, hr, hd⟩ := mem_marked_loops.1 h
  unfold State.checkLoop at hr
  split at hr
  · split at hr
    · exact .inr (mem_marked_loops.2 ⟨r, hr, hd⟩)
    · rcases mem_of_mem_slotSet hr with h | h
      · exact .inl (Prod.mk.inj h).1
      · exact .inr (mem_marked_loops.2 ⟨r, h, hd⟩)
  · exact .inr (mem_marked_loops.2 ⟨r, hr, hd⟩)

theorem not_marked_of_free_loop {l : Nat} (h : s.loop? l = none) : l ∉ s.marked.loops := by
  intro hl
  obtain ⟨r, hr, -⟩ := mem_marked_loops.1 hl
  have hsome := slotGet_isSome_of_mem_slotKeys (List.mem_map_of_mem (f := (·.1)) hr)
  rw [State.loop?] at h
  simp [h] at hsome

/-- A loop that is freed in the step that reads it leaves no mark. -/
theorem checkLoop_freed {l : Nat} (hframe : ∃ x ev, s.checkLoop l = { s with loops := x, events := ev })
    (h : ScanStep (s.checkLoop l) t id) (hfree : t.loop? l = none) : ScanStep s t id := by
  obtain ⟨hpart, hheld, hclock, ⟨hoccs, hloops, hways⟩, hreport⟩ := h
  have hmarks : t.marked.loops ⊆ s.marked.loops := fun i hi =>
    (checkLoop_marked (hloops hi)).resolve_left fun hil => not_marked_of_free_loop hfree (hil ▸ hi)
  obtain ⟨x, ev, hframe⟩ := hframe
  rw [hframe] at hpart hheld hclock hoccs hways hreport
  exact ⟨hpart, hheld, hclock, ⟨hoccs, hmarks, hways⟩, hreport⟩

/-- R198: one more damaged loop. -/
def countLoop (c : ScanCounts) : ScanCounts := { c with damagedLoops := addHeld c.damagedLoops 1 }

theorem findDamage_loop (s : State) {l : Nat} (hl : l < 16) :
    findDamage (512 + l) s = (s.checkLoop l).freeDamagedLoop l := by
  have h1 : ¬512 + l < 512 := by omega
  have h2 : 512 + l < 528 := by omega
  simp only [findDamage, h1, h2, if_false, if_true, Nat.add_sub_cancel_left]

/-- R196: the step of a damaged loop: a gather on what its read leaves, and the loop FREE. -/
theorem findDamage_of_failing_loop {l : Nat} {r : Loop} (hl : l < 16) (hr : s.loop? l = some r)
    (hf : r.damaged = true ∨ r.sound = false) (hs : ScanReads s) : ∃ t,
      findDamage (512 + l) s = (t.freeLoop l).count countLoop ∧
      Writes (s.checkLoop l) t (s.naming l) (fun _ => true) (scanGathered l) ∧ ScanStep s (t.freeLoop l) id := by
  have hread := checkLoop_raises hr hf
  have hreads : ScanReads (s.checkLoop l) := by
    rw [hread]
    exact ⟨hs.part, hs.stations, hs.occs⟩
  have hloop : (s.checkLoop l).loop? l = some { r with damaged := true } := by
    rw [hread, loop?_raise, loop?_setLoop, if_pos rfl]
  have hnaming : (s.checkLoop l).naming l = s.naming l := by
    rw [hread]
    rfl
  obtain ⟨t, ht, hw⟩ := voidDamaged_writes hreads l
  rw [hnaming] at hw
  have hfree : ScanStep t (t.freeLoop l) id :=
    .of_tableStep (freeLoop_tableStep t l) (freeLoop_within l) (.of_scan rfl)
  refine ⟨t, ?_, hw, checkLoop_freed ⟨_, _, hread⟩ (hw.step.trans hfree) ?_⟩
  · rw [findDamage_loop s hl, State.freeDamagedLoop, hloop, ← ht]
    rfl
  · rw [loop?_freeLoop, if_pos rfl]

theorem scanFreesLoop_claim : Claims.ScanFreesLoop := by
  intro s c l r hc hl hr hst hoccs hloops hwf
  have hs : ScanReads s := ⟨hc.1, fun v f hf => hst _ (mem_of_slotGet hf), fun i o ho => hoccs _ (mem_of_slotGet ho)⟩
  rw [exec_scanDamage]
  by_cases hf : r.damaged = true ∨ r.sound = false
  · obtain ⟨t, hact, hw, hstep⟩ := findDamage_of_failing_loop hl hr hf hs
    have hread := checkLoop_raises hr hf
    generalize s.checkLoop l = u at hread hw
    have hust : u.stations = s.stations := by rw [hread]; rfl
    have huocc : u.occs = s.occs := by rw [hread]; rfl
    have huloop : ∀ k, k ≠ l → u.loop? k = s.loop? k := fun k hk => by
      rw [hread, loop?_raise, loop?_setLoop, if_neg hk]
    have hwritten : ∀ i, t.occ? i = (s.occ? i).map (writtenIn (s.naming l) (fun _ => true) (scanGathered l) i) := fun i => by
      rw [hw.occ, State.occ?, huocc, ← State.occ?]
    have hstep := hstep.count (g := countLoop) fun _ => rfl
    rw [← hact] at hstep
    obtain ⟨heq, d, hd, htally⟩ := scanPass_earlyStep hc (show 512 + l < 784 by omega) hstep
    rw [heq]
    rw [hact] at hd ⊢
    refine ⟨_, d, rfl, hd, fun h1 h2 => by simp [h1, h2] at hf, fun _ => ⟨(loop?_freeLoop l l).trans (if_pos rfl),
      fun k hk => ?_, by rw [counts_of_tally htally]; rfl, ?_, fun i hi => ?_, fun i o ho => ?_⟩⟩
    · refine ((loop?_freeLoop l k).trans (if_neg hk)).trans (Eq.trans ?_ (huloop k hk))
      rw [State.loop?, hw.loops, ← State.loop?]
    · refine ownersMarked_congr hust.symm huocc.symm rfl (hw.ownersMarked fun j o ho => ?_)
      rw [mem_naming, State.occ?, ← huocc, ← State.occ?]
      exact (and_iff_left rfl).symm
    · refine (hwritten i).trans ?_
      rw [hi]
      rfl
    · refine ⟨_, (hwritten i).trans (by rw [ho]; rfl), ?_⟩
      by_cases hn : i ∈ s.naming l
      · rw [writtenIn, if_pos ⟨hn, rfl⟩, scanGathered_fields]
        refine ⟨rfl, fun h1 h2 => ?_, fun h => ?_⟩
        · simp [h1, h2]
        · have hnot : ¬(o.memberOf = some l ∧ o.damaged = false) := fun hb => by
            rcases h with h | h
            · exact h hb.1
            · exact absurd h (by simp [hb.2])
          simp only [if_neg hnot, and_self]
      · rw [writtenIn_of_not fun h => hn h.1]
        have hnot : ¬Names l o := fun h => hn (mem_naming.2 ⟨o, ho, h⟩)
        rw [Names, not_or] at hnot
        exact ⟨by rw [if_neg hnot.1, if_neg hnot.2], fun h => absurd h hnot.1, fun _ => ⟨rfl, rfl⟩⟩
  · obtain ⟨hd, hsound⟩ := not_or.1 hf
    have hsound : r.sound = true := by simpa using hsound
    have hd : r.damaged = false := by simpa using hd
    have hidle : findDamage (512 + l) s = s := by
      simp [findDamage_loop s hl, checkLoop_of_found hr hd hsound, State.freeDamagedLoop, hr, hd]
    obtain ⟨heq, d, hscan, hcounts⟩ := scanPass_idle hc (show 512 + l < 784 by omega) hidle
    rw [heq]
    exact ⟨_, d, rfl, hscan, fun _ _ => ⟨⟨rfl, rfl, rfl⟩, hcounts⟩, fun h => absurd h hf⟩

/-! ### Damaged stations (R196) -/

theorem findDamage_station (s : State) (w : Nat) :
    findDamage (528 + w) s = (s.checkStation w).findDamagedStation w := by
  have h1 : ¬528 + w < 512 := by omega
  have h2 : ¬528 + w < 528 := by omega
  simp only [findDamage, h1, h2, if_false, Nat.add_sub_cancel_left]

theorem findStation_of_found {c : Scan} {w : Nat} (h : w ∈ c.found) : c.findStation w = c := by
  simp [Scan.findStation, h]

theorem findStation_of_new {c : Scan} {w : Nat} (h : w ∉ c.found) : c.findStation w = { c with
    found := w :: c.found, counts := { c.counts with damagedStations := addHeld c.counts.damagedStations 1 } } := by
  simp [Scan.findStation, h]

theorem mem_found_findStation (c : Scan) (w : Nat) : w ∈ (c.findStation w).found := by
  unfold Scan.findStation
  split
  · rename_i h
    exact List.contains_iff_mem.1 h
  · exact List.mem_cons_self

/-- An entry found damaged once is not counted again. -/
theorem findDamagedStation_again (w : Nat) (s : State) :
    (s.findDamagedStation w).findDamagedStation w = s.findDamagedStation w := by
  have hagain : ∀ c : Scan, (c.findStation w).findStation w = c.findStation w := fun c =>
    findStation_of_found (mem_found_findStation c w)
  by_cases hd : s.wayIs (·.damaged) w = true
  · have hfind : s.findDamagedStation w = { s with scan := s.scan.map fun c => c.findStation w } := if_pos hd
    have hd' : ({ s with scan := s.scan.map fun c => c.findStation w } : State).wayIs (·.damaged) w = true := hd
    rw [hfind, State.findDamagedStation, if_pos hd']
    simp [Option.map_map, Function.comp_def, hagain]
  · have hfind : s.findDamagedStation w = s := if_neg hd
    rw [hfind, hfind]

theorem checkStation_marked {v w : Nat} (h : v ∈ (s.checkStation w).marked.ways) : v = w ∨ v ∈ s.marked.ways := by
  obtain ⟨e, he, hd⟩ := mem_marked_ways.1 h
  unfold State.checkStation at he
  split at he
  · split at he
    · exact .inr (mem_marked_ways.2 ⟨e, he, hd⟩)
    · rcases mem_of_mem_slotSet he with h | h
      · exact .inl (Prod.mk.inj h).1
      · exact .inr (mem_marked_ways.2 ⟨e, h, hd⟩)
  · exact .inr (mem_marked_ways.2 ⟨e, he, hd⟩)

/-- A read of an entry changes the entries and the pending events alone. -/
theorem checkStation_frame (w : Nat) : ∃ x ev, s.checkStation w = { s with stations := x, events := ev } := by
  unfold State.checkStation
  split
  · split
    · exact ⟨_, _, rfl⟩
    · exact ⟨_, _, rfl⟩
  · exact ⟨_, _, rfl⟩

/-- The step of one entry: its read, and the entry counted where it carries the mark. -/
theorem earlyStep_station (s : State) (w : Nat) :
    earlyStep findDamage s (528 + w) = (s.checkStation w).findDamagedStation w := by
  obtain ⟨x, ev, hframe⟩ := checkStation_frame (s := s) w
  have htables := (findDamagedStation_renoted (s := s.checkStation w) w).tables
  obtain ⟨hst, hocc, hloop⟩ := htables
  have hways : ∀ v ∈ ((s.checkStation w).findDamagedStation w).marked.ways, v = w ∨ v ∈ s.marked.ways := fun v hv =>
    checkStation_marked (by rw [mem_marked_ways] at hv ⊢; rw [hst] at hv; exact hv)
  have hoccs : ((s.checkStation w).findDamagedStation w).marked.occs = s.marked.occs := by
    rw [State.marked, hocc, hframe]
    rfl
  have hloops : ((s.checkStation w).findDamagedStation w).marked.loops = s.marked.loops := by
    rw [State.marked, hloop, hframe]
    rfl
  have hagain := findDamagedStation_again w (s.checkStation w)
  rw [earlyStep, findDamage_station]
  generalize (s.checkStation w).findDamagedStation w = t at hways hoccs hloops hagain
  have honce : t.sweepOnce s.marked = t := by
    simp only [State.sweepOnce, hoccs, hloops, filter_not_contains (List.Subset.refl _), List.foldl_nil]
  rw [State.sweep, honce, honce]
  refine foldl_of_fixed_mem fun v hv => ?_
  obtain ⟨hv, hnot⟩ := List.mem_filter.1 hv
  rcases hways v hv with rfl | h
  · exact hagain
  · simp [h] at hnot

theorem scanCountsStation_claim : Claims.ScanCountsStation := by
  intro s c w e hc hw he
  have hheld : s.resetHeld = false := hc.2.1
  have hscan : s.scan = some c := hc.2.2.1
  rw [exec_scanDamage, scanPass_one _ hc (show 528 + w < 784 by omega), earlyStep_station]
  by_cases hf : e.damaged = true ∨ e.sound = false
  · obtain ⟨⟨x, hframe⟩, hst⟩ := checkStation_of_failing hheld he hf
    have hway : (s.checkStation w).wayIs (·.damaged) w = true := wayIs_iff.2 ⟨_, (hst w).trans (if_pos rfl), rfl⟩
    have hfind : (s.checkStation w).findDamagedStation w =
        { s.checkStation w with scan := s.scan.map fun c => c.findStation w } := by
      rw [State.findDamagedStation, if_pos hway, hframe]
    have hmark : (e.damaged || !e.sound) = true := by simpa using hf
    rw [hfind, hscan, hmark]
    generalize s.checkStation w = u at hframe hst
    refine ⟨_, (c.findStation w).advance 784 1, rfl, rfl, ?_, ?_, (hst w).trans (if_pos rfl),
      fun v hv => (hst v).trans (if_neg hv), ?_⟩
    · rw [hframe]
      rfl
    · rw [hframe]
      rfl
    · rw [advance_counts]
      by_cases hfound : w ∈ c.found
      · rw [findStation_of_found hfound, if_neg fun h => h.2 hfound]
      · rw [findStation_of_new hfound, if_pos ⟨hf, hfound⟩]
        rfl
  · obtain ⟨hd, hsound⟩ := not_or.1 hf
    have hsound : e.sound = true := by simpa using hsound
    have hd : e.damaged = false := by simpa using hd
    have hread : s.checkStation w = s := checkStation_of_sound fun f hf => by
      obtain rfl := Option.some.inj (he.symm.trans hf)
      exact hsound
    have hway : ¬s.wayIs (·.damaged) w = true := fun h => by
      obtain ⟨f, hf, hfd⟩ := wayIs_iff.1 h
      obtain rfl := Option.some.inj (he.symm.trans hf)
      simp [hd] at hfd
    rw [hread, State.findDamagedStation, if_neg hway]
    obtain ⟨d, hdscan, hcounts⟩ := advanced_scan (size := 784) hscan
    refine ⟨_, d, rfl, hdscan, rfl, rfl, he.trans ?_, fun v _ => rfl, hcounts.trans ?_⟩
    · have hsame : (e.damaged || !e.sound) = e.damaged := by simp [hsound]
      rw [hsame]
    · rw [if_neg fun h => hf h.1]

end Sys2Proof.Machine
end

