-- ==== Sys2Proof/Proofs/ServiceControl/ScanReferences.lean ====
section
/-! SUPPORT. The third pass of the scan (R196): station lists and member lists lose what they may not name, unlisted records are
freed, and stray loop fields cleared. -/

namespace Sys2Proof.Machine

open Sys2Proof

variable {s t u : State}

/-! ### A step of the last six passes on swept memory -/

theorem swept_unmarked (h : Claims.Swept s) : Unmarked s := by
  obtain ⟨-, hoccs, hloops⟩ := h
  exact unmarked_of_records hoccs hloops

theorem swept_reads (hp : s.part = .starting) (h : Claims.Swept s) : ScanReads s := by
  obtain ⟨⟨hst, hoccs, -⟩, -⟩ := h
  exact ⟨hp, fun v f hf => hst _ (mem_of_slotGet hf), fun i o ho => hoccs _ (mem_of_slotGet ho)⟩

theorem swept_occs (h : Claims.Swept s) : OccsRead s := by
  obtain ⟨⟨-, hsound, -⟩, hundamaged, -⟩ := h
  exact fun i o ho => ⟨hsound _ (mem_of_slotGet ho), hundamaged _ (mem_of_slotGet ho)⟩

theorem swept_loops (h : Claims.Swept s) : LoopsRead s := by
  obtain ⟨⟨-, -, hsound⟩, -, hundamaged⟩ := h
  exact fun l r hr => ⟨hsound _ (mem_of_slotGet hr), hundamaged _ (mem_of_slotGet hr)⟩

theorem swept_checkStations (h : Claims.Swept s) (ws : List Nat) : s.checkStations ws = s := by
  obtain ⟨⟨hst, -⟩, -⟩ := h
  exact checkStations_of_sound fun v _ f hf => hst _ (mem_of_slotGet hf)

theorem swept_checkOcc (h : Claims.Swept s) (i : Nat) : s.checkOcc i = s :=
  checkOcc_of_sound fun o ho => (swept_occs h i o ho).1

theorem swept_checkOccs (h : Claims.Swept s) (is : List Nat) : s.checkOccs is = s :=
  checkOccs_of_sound fun i _ o ho => (swept_occs h i o ho).1

theorem swept_checkLoop (h : Claims.Swept s) (l : Nat) : s.checkLoop l = s := checkLoop_of_sound (swept_loops h l)

theorem swept_checkField (h : Claims.Swept s) (l : Option Nat) : checkField s l = s := by
  cases l with
  | none => rfl
  | some l => exact swept_checkLoop h l

/-- Where the reads change nothing, the findings are those of the state itself, but for its report. -/
theorem scanPass_swept {c : Scan} {n k j size : Nat} {unit : State → Nat → State} {reads act : Nat → State → State}
    {f : ScanCounts → ScanCounts} (hc : Claims.Scans s c n k) (hk : k < size) (hunit : unit s k = scanStep reads act s j)
    (h : Claims.Swept s) (hread : reads j s = s)
    (hact : ∀ y, ScanStep { s with scan := y } (act j { s with scan := y }) f) :
    ∃ y d, (scanPass n size unit 1 s).scan = some d ∧ d.tally = f c.tally ∧
      Claims.TablesKept (act j { s with scan := y }) (scanPass n size unit 1 s) ∧
      (scanPass n size unit 1 s).events = (act j { s with scan := y }).events := by
  have hreport : Reports s (reads j s) id := .of_scan (by rw [hread])
  obtain ⟨t, d, ⟨⟨y, rfl⟩, -⟩, hd⟩ := scanPass_scanStep hc hk hunit hreport (by rw [hread]; exact swept_unmarked h)
    (fun t ht => by
      rw [hread] at ht
      obtain ⟨⟨y, rfl⟩, -⟩ := ht
      exact hact y)
  rw [hread] at hd
  exact ⟨y, d, hd⟩

theorem exec_scanReferences (k : Nat) (s : State) : exec (.scanReferences k) s =
    .next (scanPass 3 1552 referencesUnit k s) := rfl

/-! ### Lists rewritten (R196, R197) -/

/-- An entry with a new list, unless it is damaged or the list is the one it has. -/
def relisted (e : Station) (new : List Nat) : Station :=
  if e.damaged ∨ new = e.list then e else { e with list := new, changed := true }

/-- The way with a new list for its entry, which the report counts by `g`. -/
def State.relist (s : State) (w : Nat) (e : Station) (new : List Nat) (g : ScanCounts → ScanCounts) : State :=
  if e.damaged ∨ new = e.list then s else (s.putChanged w { e with list := new }).count g

/-- What a new list counts. -/
def relistCount (e : Station) (new : List Nat) (g : ScanCounts → ScanCounts) : ScanCounts → ScanCounts :=
  if e.damaged ∨ new = e.list then id else g

theorem relist_scanStep {w : Nat} {e : Station} (new : List Nat) {g : ScanCounts → ScanCounts} (he : s.station? w = some e)
    (hg : ∀ c, { g c with stations := 0, damagedStations := 0 } = g { c with stations := 0, damagedStations := 0 }) :
    ScanStep s (s.relist w e new g) (relistCount e new g) := by
  unfold State.relist relistCount
  split
  · exact .refl s
  · have hput : ScanStep s (s.putChanged w { e with list := new }) id := putChanged_scanStep he id
    exact hput.count hg

theorem relist_tables {w : Nat} {e : Station} (new : List Nat) (g : ScanCounts → ScanCounts) (he : s.station? w = some e)
    (hs : e.sound = true) : (s.relist w e new g).occs = s.occs ∧ (s.relist w e new g).loops = s.loops ∧
      ∀ v, (s.relist w e new g).station? v = if v = w then some (relisted e new) else s.station? v := by
  unfold State.relist relisted
  split
  · refine ⟨rfl, rfl, fun v => ?_⟩
    by_cases hv : v = w
    · rw [if_pos hv, hv, he]
    · rw [if_neg hv]
  · obtain ⟨x, y, hframe, -⟩ := putChanged_stationsScan (s := s) w { e with list := new }
    refine ⟨by rw [State.count_occs, hframe], by rw [State.count_loops, hframe], fun v => ?_⟩
    refine (station?_putChanged w v { e with list := new }).trans ?_
    rw [hs]

theorem relisted_fields (e : Station) (new : List Nat) : relisted e new = { e with
    list := (relisted e new).list, changed := if (relisted e new).list = e.list then e.changed else true } := by
  unfold relisted
  by_cases h : e.damaged = true ∨ new = e.list
  · simp only [if_pos h, if_true]
  · simp only [if_neg h, if_neg (not_or.1 h).2]

/-! ### Station lists (R196) -/

theorem readList_swept (h : Claims.Swept s) (w : Nat) : readList w s = s := by
  simp only [readList, swept_checkStations h, swept_checkOccs h]

theorem pruneList_eq {w : Nat} {e : Station} (he : s.station? w = some e) : pruneList w s =
    s.relist w e (e.list.filter (s.listable w e.number))
      (countReferences (e.list.length - (e.list.filter (s.listable w e.number)).length)) := by
  simp [pruneList, he, State.relist]

theorem soundList_iff {v i : Nat} :
    i ∉ s.soundList v ↔ ∀ g, s.station? v = some g → g.damaged = false → i ∉ g.list := by
  unfold State.soundList
  cases hg : s.station? v with
  | none => simp
  | some g => cases hd : g.damaged <;> simp [hd]

theorem listable_iff {w n i : Nat} : s.listable w n i = true ↔ (∃ o, s.occ? i = some o ∧ o.station = n) ∧
    ∀ v g, v < w → v / 4 = w / 4 → s.station? v = some g → g.damaged = false → i ∉ g.list := by
  have hocc : (match s.occ? i with | some o => decide (o.station = n) | none => false) = true ↔
      ∃ o, s.occ? i = some o ∧ o.station = n := by
    cases s.occ? i <;> simp
  have hways : ((waysOfSet (w / 4)).all fun v => decide (v ≥ w) || !(s.soundList v).contains i) = true ↔
      ∀ v g, v < w → v / 4 = w / 4 → s.station? v = some g → g.damaged = false → i ∉ g.list := by
    simp only [List.all_eq_true, Bool.or_eq_true, decide_eq_true_eq, Bool.not_eq_true', ← Bool.not_eq_true,
      List.contains_iff_mem, soundList_iff, mem_waysOfSet]
    exact ⟨fun h v g hlt hset => (h v hset).resolve_left (by omega) g, fun h v hset =>
      (Nat.lt_or_ge v w).symm.imp_right fun hlt g => h v g hlt hset⟩
  rw [← hways, ← hocc, ← Bool.and_eq_true]
  rfl

theorem counted_zero {n : Nat} (h : n ≤ 65535) : Claims.counted n 0 = n := by
  simp [Claims.counted, h]

theorem scanPrunesList_claim : Claims.ScanPrunesList := by
  intro s c w e hc h hw he hcount
  have hunit : referencesUnit s w = scanStep readList pruneList s w := if_pos hw
  have hsound : e.sound = true := (swept_reads hc.1 h).stations w e he
  have hkept : (e.list.filter (s.listable w e.number)).Sublist e.list := List.filter_sublist
  generalize hnew : e.list.filter (s.listable w e.number) = new at hkept
  have hact : ∀ y, pruneList w { s with scan := y } = State.relist { s with scan := y } w e new
      (countReferences (e.list.length - new.length)) := fun y => by
    rw [pruneList_eq (s := { s with scan := y }) he, ← hnew]
    rfl
  obtain ⟨y, d, hd, htally, ⟨htst, htocc, htloop⟩, -⟩ := scanPass_swept (c := c) hc (show w < 1552 by omega) hunit h
    (readList_swept h w) (fun y => by
      rw [hact y]
      exact relist_scanStep (s := { s with scan := y }) new he fun _ => rfl)
  obtain ⟨hocc, hloop, hst⟩ := relist_tables (s := { s with scan := y }) new
    (countReferences (e.list.length - new.length)) he hsound
  rw [hact y] at htst htocc htloop
  rw [exec_scanReferences]
  have hst' : ∀ v, (scanPass 3 1552 referencesUnit 1 s).station? v = if v = w then some (relisted e new) else s.station? v :=
    fun v => by
      rw [State.station?, htst]
      exact hst v
  refine ⟨_, d, relisted e new, rfl, hd, htocc.trans hocc, htloop.trans hloop, (hst' w).trans (if_pos rfl),
    fun v hv => (hst' v).trans (if_neg hv), relisted_fields e new, ?_, ?_, fun i hi hundamaged => ?_, fun hdamaged => ?_⟩
  · unfold relisted
    split
    · exact .refl _
    · exact hkept
  · rw [counts_of_tally htally]
    unfold relisted relistCount
    split
    · rw [Nat.sub_self, counted_zero hcount]
      rfl
    · rfl
  · rw [← listable_iff]
    have hmem : i ∈ new ↔ s.listable w e.number i = true := by
      rw [← hnew, List.mem_filter, and_iff_right hi]
    rw [← hmem]
    unfold relisted
    split
    · rename_i hsame
      rw [hsame.resolve_left (by simp [hundamaged])]
    · rfl
  · exact if_pos (.inl hdamaged)

/-! ### Unlisted records (R196) -/

theorem readOwner_swept (h : Claims.Swept s) (i : Nat) : readOwner i s = s := by
  unfold readOwner
  rw [swept_checkOcc h]
  dsimp only
  split
  · exact swept_checkStations h _
  · rfl

theorem isListed_iff {i n : Nat} : s.isListed i n = true ↔
    ∃ w ∈ s.matching n, ∃ e, s.station? w = some e ∧ (e.damaged = true ∨ i ∈ e.list) := by
  rw [State.isListed, List.any_eq_true]
  refine exists_congr fun w => and_congr_right fun _ => ?_
  cases s.station? w <;> simp

theorem swept_waysRead (h : Claims.Swept s) : WaysRead s allWays := by
  obtain ⟨⟨hst, -⟩, -⟩ := h
  exact fun v _ f hf => hst _ (mem_of_slotGet hf)

theorem scanFreesUnlisted_claim : Claims.ScanFreesUnlisted := by
  intro s c i o hc h hi ho listed
  have hunit : referencesUnit s (256 + i) = scanStep readOwner freeUnlisted s i := by
    have h1 : ¬256 + i < 256 := by omega
    have h2 : 256 + i < 768 := by omega
    simp only [referencesUnit, h1, h2, if_false, if_true, Nat.add_sub_cancel_left]
  have hlisted : s.isListed i o.station = true ↔ listed := isListed_iff
  have hsize : 256 + i < 1552 := by omega
  rw [exec_scanReferences]
  by_cases hl : listed
  · have hact : ∀ y, freeUnlisted i { s with scan := y } = { s with scan := y } := fun y => by
      have ho' : ({ s with scan := y } : State).occ? i = some o := ho
      have hl' : ({ s with scan := y } : State).isListed i o.station = true := hlisted.2 hl
      simp [freeUnlisted, ho', hl']
    obtain ⟨y, d, hd, htally, htables, -⟩ := scanPass_swept (c := c) hc hsize hunit h (readOwner_swept h i)
      (fun y => by
        rw [hact y]
        exact .refl _)
    rw [hact y] at htables
    exact ⟨_, d, rfl, hd, fun hn => absurd hl hn, fun _ => ⟨htables, by rw [counts_of_tally htally]; rfl,
      by rw [counts_of_tally htally]; rfl⟩⟩
  · have hfreed := fun y => freeOcc_freedIn (s := { s with scan := y }) i (swept_waysRead h) fun l r hr =>
      (swept_loops h l r hr).1
    have hact : ∀ y, freeUnlisted i { s with scan := y } =
        (State.freeOcc { s with scan := y } allWays i).count (countUnlisted 1) := fun y => by
      have ho' : ({ s with scan := y } : State).occ? i = some o := ho
      have hl' : ¬({ s with scan := y } : State).isListed i o.station = true := mt hlisted.1 hl
      simp [freeUnlisted, ho', hl']
    obtain ⟨y, d, hd, htally, htables, -⟩ := scanPass_swept (c := c) hc hsize hunit h (readOwner_swept h i)
      (fun y => by
        rw [hact y]
        exact (hfreed y).step.count fun _ => rfl)
    have hfreed := hfreed y
    rw [hact y] at htables
    generalize State.freeOcc { s with scan := y } allWays i = t at hfreed htables
    refine ⟨_, d, rfl, hd, fun _ => ⟨?_, by rw [counts_of_tally htally]; rfl, by rw [counts_of_tally htally]; rfl⟩,
      fun hn => absurd hn hl⟩
    exact freed_congr (fun _ => rfl) (fun _ => rfl) (fun _ _ => rfl) hfreed.freed htables

end Sys2Proof.Machine
end

