-- ==== Sys2Proof/Proofs/ServiceControl/ScanFields.lean ====
section
/-! SUPPORT. The third pass of the scan, member lists and loop fields (R196), and the fourth (R196): records left in a window. -/

namespace Sys2Proof.Machine

open Sys2Proof

variable {s t u : State}

/-! ### Member lists (R196) -/

theorem readMembers_swept (h : Claims.Swept s) (l : Nat) : readMembers l s = s := by
  unfold readMembers
  rw [swept_checkLoop h]
  dsimp only
  split
  · split
    · rfl
    · exact swept_checkOccs h _
  · rfl

theorem isMemberOf_iff {l i : Nat} : s.isMemberOf l i = true ↔ ∃ o, s.occ? i = some o ∧ o.memberOf = some l := by
  unfold State.isMemberOf
  cases s.occ? i <;> simp

/-- What a member list that keeps `kept` counts. -/
def memberCount (r : Loop) (kept : List Nat) : ScanCounts → ScanCounts :=
  if kept = r.members then id else countReferences (r.members.length - kept.length)

theorem pruneMembers_step {l : Nat} {r : Loop} {kept : List Nat} (hr : s.loop? l = some r) (hsound : r.sound = true)
    (hkept : r.members.filter (s.isMemberOf l) = kept) :
    ScanStep s (pruneMembers l s) (memberCount r kept) ∧ (pruneMembers l s).stations = s.stations ∧
      (pruneMembers l s).occs = s.occs ∧
      ∀ k, (pruneMembers l s).loop? k = if k = l then some { r with members := kept } else s.loop? k := by
  subst hkept
  simp only [pruneMembers, hr, memberCount]
  split
  · rename_i hsame
    refine ⟨.refl s, rfl, rfl, fun k => ?_⟩
    by_cases hk : k = l
    · rw [if_pos hk, hk, hr, hsame]
    · rw [if_neg hk]
  · refine ⟨?_, rfl, rfl, fun k => ?_⟩
    · have hput : ScanStep s (s.putLoop l { r with members := r.members.filter (s.isMemberOf l) }) id :=
        putLoop_scanStep hr id
      exact hput.count fun _ => rfl
    · refine (loop?_putLoop l k { r with members := r.members.filter (s.isMemberOf l) }).trans ?_
      rw [hsound]

theorem scanPrunesMembers_claim : Claims.ScanPrunesMembers := by
  intro s c l r hc h hl hr hcount
  have hunit : referencesUnit s (1024 + l) = scanStep readMembers pruneMembers s l := by
    have h1 : ¬1024 + l < 256 := by omega
    have h2 : ¬1024 + l < 768 := by omega
    have h3 : ¬1024 + l < 1024 := by omega
    have h4 : 1024 + l < 1040 := by omega
    simp only [referencesUnit, h1, h2, h3, h4, if_false, if_true, Nat.add_sub_cancel_left]
  have hsub : (r.members.filter (s.isMemberOf l)).Sublist r.members := List.filter_sublist
  have hmem : ∀ i ∈ r.members, (i ∈ r.members.filter (s.isMemberOf l) ↔ ∃ o, s.occ? i = some o ∧ o.memberOf = some l) :=
    fun i hi => by rw [List.mem_filter, and_iff_right hi, isMemberOf_iff]
  generalize hkept : r.members.filter (s.isMemberOf l) = kept at hsub hmem
  have hact := fun y => pruneMembers_step (s := { s with scan := y }) hr (swept_loops h l r hr).1 hkept
  obtain ⟨y, d, hd, htally, ⟨htst, htocc, htloop⟩, -⟩ := scanPass_swept (c := c) hc (show 1024 + l < 1552 by omega) hunit h
    (readMembers_swept h l) fun y => (hact y).1
  obtain ⟨-, hst, hocc, hloop⟩ := hact y
  have hloop' : ∀ k, (scanPass 3 1552 referencesUnit 1 s).loop? k =
      if k = l then some { r with members := kept } else s.loop? k := fun k => by
    rw [State.loop?, htloop]
    exact hloop k
  rw [exec_scanReferences]
  refine ⟨_, d, kept, rfl, hd, htst.trans hst, htocc.trans hocc, (hloop' l).trans (if_pos rfl),
    fun k hk => (hloop' k).trans (if_neg hk), hsub, hmem, ?_⟩
  rw [counts_of_tally htally]
  unfold memberCount
  split
  · rename_i hsame
    rw [hsame, Nat.sub_self, counted_zero hcount]
    rfl
  · rfl

/-! ### Loop fields (R196) -/

theorem readFields_swept (h : Claims.Swept s) (i : Nat) : readFields i s = s := by
  unfold readFields
  rw [swept_checkOcc h]
  dsimp only
  split
  · rw [swept_checkField h, swept_checkField h]
  · rfl

theorem strayMember_iff {i : Nat} {o : Occ} :
    s.strayMember i o = true ↔ ∃ l, o.memberOf = some l ∧ ∀ r, s.loop? l = some r → i ∉ r.members := by
  unfold State.strayMember
  cases o.memberOf with
  | none => simp
  | some l => cases hr : s.loop? l <;> simp [hr]

theorem strayOpens_iff {i : Nat} {o : Occ} :
    s.strayOpens i o = true ↔ ∃ l, o.opens = some l ∧ ∀ r, s.loop? l = some r → r.openEnd ≠ i := by
  unfold State.strayOpens
  cases o.opens with
  | none => simp
  | some l => cases hr : s.loop? l <;> simp [hr]

/-- R196: a record with its stray loop fields cleared, the member-of field where `m` and the opens-loop field where `p`. -/
def fieldsCleared (m p : Bool) (o : Occ) : Occ :=
  let o' := if m then { dropDrift o with memberOf := none } else o
  if p then { o' with opens := none } else o'

theorem fieldsCleared_fields (m p : Bool) (o : Occ) : fieldsCleared m p o = { o with
    memberOf := if m then none else o.memberOf
    opens := if p then none else o.opens
    drift := if m = true ∧ o.state ≠ .final then none else o.drift
    flags := if m = true ∧ o.state ≠ .final then { o.flags with driftHigh := false, noDrift := false } else o.flags } := by
  unfold fieldsCleared dropDrift
  cases m with
  | false => cases p <;> simp
  | true => cases p <;> by_cases hf : o.state = .final <;> simp [hf, withoutDrift, clearDriftFlags]

theorem fieldsCleared_settles (m p : Bool) : Settles (fun _ => true) (fieldsCleared m p) := by
  refine ⟨fun o => ?_, fun o => ?_, fun o => ?_, fun o _ => ?_⟩
  · rw [fieldsCleared_fields]
  · rw [fieldsCleared_fields]
  · rw [fieldsCleared_fields]
  · simp only [fieldsCleared_fields]
    cases m <;> cases p <;> by_cases hf : o.state = .final <;> simp [hf]

/-- What the cleared fields count. -/
def fieldCount (m p : Bool) : ScanCounts → ScanCounts :=
  if m || p then countReferences ((if m then 1 else 0) + (if p then 1 else 0)) else id

theorem clearFields_writes {i : Nat} {o : Occ} (hs : ScanReads s) (ho : s.occ? i = some o) :
    ∃ t, Writes s t (if s.strayMember i o || s.strayOpens i o then [i] else []) (fun _ => true)
      (fieldsCleared (s.strayMember i o) (s.strayOpens i o)) ∧ Claims.TablesKept t (clearFields i s) ∧
      ScanStep s (clearFields i s) (fieldCount (s.strayMember i o) (s.strayOpens i o)) ∧
      (s.strayMember i o = false → s.strayOpens i o = false → t = s) := by
  simp only [clearFields, ho, fieldCount]
  generalize s.strayMember i o = m
  generalize s.strayOpens i o = p
  split
  · rename_i hmp
    have hw := putMark_writes (W := fieldsCleared m p) hs ho rfl (fieldsCleared_settles m p) (t := s) (x := s.window) rfl
    exact ⟨_, hw, ⟨rfl, rfl, rfl⟩, hw.step.count fun _ => rfl, fun hm hp => by simp [hm, hp] at hmp⟩
  · exact ⟨s, .of_none (.refl s) ⟨rfl, rfl, rfl⟩ rfl (fun j o _ h => List.not_mem_nil h.1), ⟨rfl, rfl, rfl⟩, .refl s,
      fun _ _ => rfl⟩

theorem scanClearsFields_claim : Claims.ScanClearsFields := by
  intro s c i o hc h hi ho hcount m p
  have hunit : referencesUnit s (1040 + i) = scanStep readFields clearFields s i := by
    have h1 : ¬1040 + i < 256 := by omega
    have h2 : ¬1040 + i < 768 := by omega
    have h3 : ¬1040 + i < 1024 := by omega
    have h4 : ¬1040 + i < 1040 := by omega
    simp only [referencesUnit, h1, h2, h3, h4, if_false, Nat.add_sub_cancel_left]
  have hm : s.strayMember i o = true ↔ m := strayMember_iff
  have hp : s.strayOpens i o = true ↔ p := strayOpens_iff
  have hreads := swept_reads hc.1 h
  have hact := fun y => clearFields_writes (s := { s with scan := y }) ⟨hreads.part, hreads.stations, hreads.occs⟩ ho
  have hm' : ∀ y, ({ s with scan := y } : State).strayMember i o = s.strayMember i o := fun _ => rfl
  have hp' : ∀ y, ({ s with scan := y } : State).strayOpens i o = s.strayOpens i o := fun _ => rfl
  simp only [hm', hp'] at hact
  generalize s.strayMember i o = mb at hm hact
  generalize s.strayOpens i o = pb at hp hact
  obtain ⟨y, d, hd, htally, ⟨htst, htocc, htloop⟩, -⟩ := scanPass_swept (c := c) hc (show 1040 + i < 1552 by omega) hunit h
    (readFields_swept h i) fun y => by
      obtain ⟨t, -, -, hstep, -⟩ := hact y
      exact hstep
  obtain ⟨t, hw, ⟨hst, hocc, hloop⟩, -, hsame⟩ := hact y
  have hwritten : ∀ j, (scanPass 3 1552 referencesUnit 1 s).occ? j = (s.occ? j).map
      (writtenIn (if mb || pb then [i] else []) (fun _ => true) (fieldsCleared mb pb) j) := fun j => by
    rw [State.occ?, htocc, hocc]
    exact hw.occ j
  have hq : writtenIn (if mb || pb then [i] else []) (fun _ => true) (fieldsCleared mb pb) i o = fieldsCleared mb pb o := by
    cases mb <;> cases pb <;> simp [writtenIn, fieldsCleared]
  rw [exec_scanReferences]
  refine ⟨_, d, fieldsCleared mb pb o, rfl, hd, htloop.trans (hloop.trans hw.loops), ?_, fun j hj => ?_, ?_, ?_, ?_⟩
  · refine ownersMarked_congr (s := { s with scan := y }) rfl rfl (htst.trans hst) (hw.ownersMarked fun j q hq => ?_)
    rw [← hm, ← hp]
    cases mb <;> cases pb <;> simp
  · rw [hwritten]
    cases hj' : s.occ? j with
    | none => rfl
    | some q =>
      rw [Option.map_some, writtenIn_of_not fun hn => hj ?_]
      cases mb <;> cases pb <;> simpa using hn.1
  · rw [hwritten, ho, Option.map_some, hq]
  · rw [fieldsCleared_fields]
  · rw [← hm, ← hp, fieldsCleared_fields, counts_of_tally htally]
    refine ⟨fun hm => if_pos hm, fun hm => if_neg hm, fun hp => if_pos hp, fun hp => if_neg hp, fun hm hf => ?_, fun hn => ?_,
      fun hm hp => ?_, fun hm hp => ?_, fun hmp => ?_, fun hm hp => ?_⟩
    · simp [hm, hf]
    · have hnot : ¬(mb = true ∧ o.state ≠ .final) := fun hb => hn.elim (fun hm => hm hb.1) hb.2
      simp only [if_neg hnot, and_self]
    · rw [htst, hst, hsame (by simpa using hm) (by simpa using hp)]
    · simp only [fieldCount, hm, hp]
      rfl
    · obtain ⟨hm, hp⟩ | ⟨hm, hp⟩ := hmp
      · simp only [Bool.not_eq_true] at hp
        simp only [fieldCount, hm, hp]
        rfl
      · simp only [Bool.not_eq_true] at hm
        simp only [fieldCount, hm, hp]
        rfl
    · simp only [Bool.not_eq_true] at hm hp
      simp only [fieldCount, hm, hp]
      rfl

/-! ### Pass 4: windows (R196) -/

theorem exec_scanWindows (k : Nat) (s : State) : exec (.scanWindows k) s =
    .next (scanPass 4 512 windowsUnit k s) := rfl

theorem scanFreesWindow_claim : Claims.ScanFreesWindow := by
  intro s c k hc h hk
  have hunit : windowsUnit s k = scanStep (fun i s => s.checkOcc i) freeWindow s k := rfl
  rw [exec_scanWindows]
  by_cases hw : ∃ o, s.occ? k = some o ∧ (o.state = .settling ∨ o.state = .collecting)
  · obtain ⟨o, ho, hstate⟩ := hw
    have hfreed := fun y => freeOcc_freedIn (s := { s with scan := y }) k (swept_waysRead h) fun l r hr =>
      (swept_loops h l r hr).1
    have hact : ∀ y, freeWindow k { s with scan := y } = (State.freeOcc { s with scan := y } allWays k).count
        fun c => { c with windows := addHeld c.windows 1 } := fun y => by
      have ho' : ({ s with scan := y } : State).occ? k = some o := ho
      simp [freeWindow, ho', (inWindow_iff o).2 hstate]
    obtain ⟨y, d, hd, htally, htables, -⟩ := scanPass_swept (c := c) hc hk hunit h (swept_checkOcc h k)
      (fun y => by
        rw [hact y]
        exact (hfreed y).step.count fun _ => rfl)
    have hfreed := hfreed y
    rw [hact y] at htables
    generalize State.freeOcc { s with scan := y } allWays k = t at hfreed htables
    refine ⟨_, d, rfl, hd, fun _ => ⟨?_, by rw [counts_of_tally htally]; rfl⟩, fun hn => ?_⟩
    · exact freed_congr (fun _ => rfl) (fun _ => rfl) (fun _ _ => rfl) hfreed.freed htables
    · obtain ⟨h1, h2⟩ := hn o ho
      exact (hstate.elim h1 h2).elim
  · have hact : ∀ y, freeWindow k { s with scan := y } = { s with scan := y } := fun y => by
      have hocc : ({ s with scan := y } : State).occ? k = s.occ? k := rfl
      cases ho : s.occ? k with
      | none => simp [freeWindow, hocc, ho]
      | some o =>
        have hn : ¬inWindow o = true := fun hin => hw ⟨o, ho, (inWindow_iff o).1 hin⟩
        simp [freeWindow, hocc, ho, hn]
    obtain ⟨y, d, hd, htally, htables, -⟩ := scanPass_swept (c := c) hc hk hunit h (swept_checkOcc h k)
      (fun y => by
        rw [hact y]
        exact .refl _)
    rw [hact y] at htables
    exact ⟨_, d, rfl, hd, fun hn => absurd hn hw, fun _ => ⟨htables, by rw [counts_of_tally htally]; rfl⟩⟩

end Sys2Proof.Machine
end

