-- ==== Sys2Proof/Proofs/ServiceControl/ScanOrder.lean ====
section
/-! SUPPORT. Lists put in order of their records' epochs (R196, R197): the list of a damaged station, rewritten in the third pass,
and the undamaged lists of the fifth. -/

namespace Sys2Proof.Machine

open Sys2Proof

variable {s t u : State}

/-! ### The order (log 34) -/

variable {key : Nat → Nat}

theorem insertByKey_perm (i : Nat) (l : List Nat) : (insertByKey key i l).Perm (i :: l) := by
  induction l with
  | nil => exact .refl _
  | cons j l ih =>
    unfold insertByKey
    split
    · exact (List.Perm.cons j ih).trans (List.Perm.swap i j l)
    · exact .refl _

/-- A record goes behind every one whose key is not above its own. -/
theorem insertByKey_of_le {i : Nat} {l : List Nat} (h : ∀ j ∈ l, key j ≤ key i) : insertByKey key i l = l ++ [i] := by
  induction l with
  | nil => rfl
  | cons j l ih =>
    rw [insertByKey, if_pos (h j List.mem_cons_self), ih fun k hk => h k (List.mem_cons_of_mem _ hk), List.cons_append]

theorem insertByKey_pairwise {R : Nat → Nat → Prop} {i : Nat} {l : List Nat} (hl : l.Pairwise R)
    (hle : ∀ j ∈ l, key j ≤ key i → R j i) (hlt : ∀ j ∈ l, key i < key j → R i j)
    (hkey : l.Pairwise fun j k => key j ≤ key k) : (insertByKey key i l).Pairwise R := by
  induction l with
  | nil => exact List.pairwise_singleton R i
  | cons j l ih =>
    obtain ⟨hj, hl'⟩ := List.pairwise_cons.1 hl
    obtain ⟨hjkey, hkey'⟩ := List.pairwise_cons.1 hkey
    unfold insertByKey
    split
    · rename_i hle'
      refine List.pairwise_cons.2 ⟨fun k hk => ?_, ih hl' (fun k hk => hle k (List.mem_cons_of_mem _ hk))
        (fun k hk => hlt k (List.mem_cons_of_mem _ hk)) hkey'⟩
      rcases List.mem_cons.1 ((insertByKey_perm i l).mem_iff.1 hk) with rfl | hk
      · exact hle j List.mem_cons_self hle'
      · exact hj k hk
    · rename_i hgt
      refine List.pairwise_cons.2 ⟨fun k hk => ?_, hl⟩
      rcases List.mem_cons.1 hk with rfl | hk
      · exact hlt k List.mem_cons_self (Nat.lt_of_not_le hgt)
      · exact hlt k (List.mem_cons_of_mem _ hk) (Nat.lt_of_lt_of_le (Nat.lt_of_not_le hgt) (hjkey k hk))

theorem insertByKey_sorted {i : Nat} {l : List Nat} (hl : l.Pairwise fun j k => key j ≤ key k) :
    (insertByKey key i l).Pairwise fun j k => key j ≤ key k :=
  insertByKey_pairwise hl (fun _ _ h => h) (fun _ _ h => Nat.le_of_lt h) hl

/-- Of the records of one key, the one put in comes last. -/
theorem insertByKey_filter (i n : Nat) {l : List Nat} (hl : l.Pairwise fun j k => key j ≤ key k) :
    (insertByKey key i l).filter (fun j => key j = n) = (l ++ [i]).filter fun j => key j = n := by
  induction l with
  | nil => rfl
  | cons j l ih =>
    obtain ⟨hj, hl'⟩ := List.pairwise_cons.1 hl
    unfold insertByKey
    split
    · rw [List.cons_append, List.filter_cons, List.filter_cons, ih hl']
    · rename_i hgt
      have hhigher : ∀ k ∈ j :: l, key i < key k := fun k hk => by
        rcases List.mem_cons.1 hk with rfl | hk
        · omega
        · have := hj k hk
          omega
      by_cases hi : key i = n
      · have hnone : (j :: l).filter (fun k => key k = n) = [] := List.filter_eq_nil_iff.2 fun k hk => by
          have := hhigher k hk
          simp only [decide_eq_true_eq]
          omega
        rw [List.filter_append, List.filter_cons, hnone]
        simp [hi]
      · rw [List.filter_append, List.filter_cons]
        simp [hi]

/-- The records of a list, put one after another into a list in order. -/
def sortInto (key : Nat → Nat) (acc l : List Nat) : List Nat := l.foldl (fun acc i => insertByKey key i acc) acc

theorem sortByKey_eq (l : List Nat) : sortByKey key l = sortInto key [] l := rfl

theorem sortInto_perm (acc l : List Nat) : (sortInto key acc l).Perm (acc ++ l) := by
  induction l generalizing acc with
  | nil => simp [sortInto]
  | cons i l ih =>
    refine (ih (insertByKey key i acc)).trans ?_
    exact ((insertByKey_perm i acc).append_right l).trans List.perm_middle.symm

theorem sortInto_sorted {acc : List Nat} (l : List Nat) (h : acc.Pairwise fun j k => key j ≤ key k) :
    (sortInto key acc l).Pairwise fun j k => key j ≤ key k := by
  induction l generalizing acc with
  | nil => exact h
  | cons i l ih => exact ih (insertByKey_sorted h)

theorem sortInto_filter {acc : List Nat} (l : List Nat) (n : Nat) (h : acc.Pairwise fun j k => key j ≤ key k) :
    (sortInto key acc l).filter (fun j => key j = n) = (acc ++ l).filter fun j => key j = n := by
  induction l generalizing acc with
  | nil => simp [sortInto]
  | cons i l ih =>
    refine (ih (insertByKey_sorted h)).trans ?_
    rw [List.filter_append, insertByKey_filter i n h, ← List.filter_append, List.append_assoc]
    rfl

theorem sortInto_of_sorted {acc l : List Nat} (h : (acc ++ l).Pairwise fun j k => key j ≤ key k) :
    sortInto key acc l = acc ++ l := by
  induction l generalizing acc with
  | nil => simp [sortInto]
  | cons i l ih =>
    have hle : ∀ j ∈ acc, key j ≤ key i := fun j hj => (List.pairwise_append.1 h).2.2 j hj i List.mem_cons_self
    have hmove : acc ++ i :: l = (acc ++ [i]) ++ l := by simp
    rw [hmove] at h ⊢
    have hstep : sortInto key acc (i :: l) = sortInto key (insertByKey key i acc) l := rfl
    rw [hstep, insertByKey_of_le hle, ih h]

/-- Records that come in ascending order of their indices are put in order of key and, where keys are equal, of index. -/
theorem sortInto_ascending {acc l : List Nat} (hacc : acc.Pairwise fun i j => key i < key j ∨ key i = key j ∧ i < j)
    (hl : l.Pairwise (· < ·)) (hlt : ∀ i ∈ acc, ∀ j ∈ l, i < j) :
    (sortInto key acc l).Pairwise fun i j => key i < key j ∨ key i = key j ∧ i < j := by
  induction l generalizing acc with
  | nil => exact hacc
  | cons i l ih =>
    obtain ⟨hi, hl'⟩ := List.pairwise_cons.1 hl
    have hkey : acc.Pairwise fun j k => key j ≤ key k := hacc.imp fun h => by omega
    refine ih (insertByKey_pairwise hacc (fun j hj hle => ?_) (fun j _ h => .inl h) hkey) hl' fun j hj k hk => ?_
    · have := hlt j hj i List.mem_cons_self
      omega
    · rcases List.mem_cons.1 ((insertByKey_perm i acc).mem_iff.1 hj) with rfl | hj
      · exact hi k hk
      · exact hlt j hj k (List.mem_cons_of_mem _ hk)

theorem sortByKey_perm (l : List Nat) : (sortByKey key l).Perm l := sortInto_perm [] l

theorem sortByKey_sorted (l : List Nat) : (sortByKey key l).Pairwise fun j k => key j ≤ key k :=
  sortInto_sorted l List.Pairwise.nil

theorem sortByKey_eq_self_iff (l : List Nat) : sortByKey key l = l ↔ l.Pairwise fun j k => key j ≤ key k :=
  ⟨fun h => h ▸ sortByKey_sorted l, fun h => sortInto_of_sorted (acc := []) h⟩

/-! ### Pass 5: order (R197) -/

theorem sortList_eq {w : Nat} {e : Station} (he : s.station? w = some e) : sortList w s =
    s.relist w e (sortByKey s.orderKey e.list) fun c => { c with reordered := addHeld c.reordered 1 } := by
  simp [sortList, he, State.relist]

theorem exec_scanOrder (k : Nat) (s : State) : exec (.scanOrder k) s =
    .next (scanPass 5 256 orderUnit k s) := rfl

theorem scanOrders_claim : Claims.ScanOrders := by
  intro s c w e hc h hw he ordered
  have hunit : orderUnit s w = scanStep readList sortList s w := rfl
  have hsound : e.sound = true := (swept_reads hc.1 h).stations w e he
  have hordered : sortByKey s.orderKey e.list = e.list ↔ ordered := sortByKey_eq_self_iff e.list
  have hact : ∀ y, sortList w { s with scan := y } = State.relist { s with scan := y } w e (sortByKey s.orderKey e.list)
      fun c => { c with reordered := addHeld c.reordered 1 } := fun y => sortList_eq (s := { s with scan := y }) he
  have hperm : (sortByKey s.orderKey e.list).Perm e.list := sortByKey_perm e.list
  have hsorted := sortByKey_sorted (key := s.orderKey) e.list
  have hfilter : ∀ k, (sortByKey s.orderKey e.list).filter (fun i => s.orderKey i = k) =
      e.list.filter fun i => s.orderKey i = k := fun k => sortInto_filter (acc := []) e.list k List.Pairwise.nil
  generalize sortByKey s.orderKey e.list = new at hordered hact hperm hsorted hfilter
  obtain ⟨y, d, hd, htally, ⟨htst, htocc, htloop⟩, -⟩ := scanPass_swept (c := c) hc hw hunit h (readList_swept h w) (fun y => by
    rw [hact y]
    exact relist_scanStep (s := { s with scan := y }) new he fun _ => rfl)
  obtain ⟨hocc, hloop, hst⟩ := relist_tables (s := { s with scan := y }) new
    (fun c => { c with reordered := addHeld c.reordered 1 }) he hsound
  rw [hact y] at htst htocc htloop
  have hst' : ∀ v, (scanPass 5 256 orderUnit 1 s).station? v = if v = w then some (relisted e new) else s.station? v :=
    fun v => by
      rw [State.station?, htst]
      exact hst v
  rw [exec_scanOrder]
  refine ⟨_, d, relisted e new, rfl, hd, htocc.trans hocc, htloop.trans hloop, (hst' w).trans (if_pos rfl),
    fun v hv => (hst' v).trans (if_neg hv), fun hkept => ?_, fun hundamaged hnot => ?_⟩
  · have hsame : e.damaged = true ∨ new = e.list := hkept.imp_right hordered.2
    rw [counts_of_tally htally, relisted, relistCount, if_pos hsame, if_pos hsame]
    exact ⟨rfl, rfl⟩
  · have hnew : ¬(e.damaged = true ∨ new = e.list) := by
      rw [not_or, hordered]
      exact ⟨by simp [hundamaged], hnot⟩
    rw [counts_of_tally htally, relisted, relistCount, if_neg hnew, if_neg hnew]
    exact ⟨rfl, hperm, hsorted, hfilter, rfl⟩

end Sys2Proof.Machine
end

