-- ==== Sys2Proof/Proofs/ServiceControl/ScanRewrites.lean ====
section
/-! SUPPORT. The third pass of the scan, damaged stations (R24, R196, R204): the list rewritten from the records gathered for the
entry, and the records beyond the eighth freed. -/

namespace Sys2Proof.Machine

open Sys2Proof

variable {s t u : State}

/-! ### The reads (log 61) -/

/-- Reads of entries that agree with their check values or carry the mark already change no entry. -/
theorem checkStations_of_marked (ws : List Nat)
    (h : ∀ v f, s.station? v = some f → f.sound = true ∨ f.damaged = true) :
    ∃ x ev, s.checkStations ws = { s with stations := x, events := ev } ∧ ∀ v, slotGet x v = s.station? v := by
  induction ws generalizing s with
  | nil => exact ⟨s.stations, s.events, rfl, fun _ => rfl⟩
  | cons w ws ih =>
    obtain ⟨x, ev, hframe⟩ := checkStation_frame (s := s) w
    have hsame : ∀ v, (s.checkStation w).station? v = s.station? v := by
      intro v
      cases he : s.station? w with
      | none => rw [checkStation_of_sound fun f hf => by simp [he] at hf]
      | some e =>
        by_cases hs : e.sound = true
        · rw [checkStation_of_sound fun f hf => (Option.some.inj (he.symm.trans hf)) ▸ hs]
        · have hd := (h w e he).resolve_left hs
          have hmarked : { e with damaged := true } = e := by rw [← hd]
          rw [checkStation_of_unsound he (by simpa using hs), station?_raise, station?_setStation, hmarked]
          by_cases hv : v = w
          · rw [if_pos hv, hv, he]
          · rw [if_neg hv]
    obtain ⟨x', ev', hframe', hsame'⟩ := ih fun v f hf => h v f ((hsame v).symm.trans hf)
    refine ⟨x', ev', ?_, fun v => (hsame' v).trans (hsame v)⟩
    have hcons : s.checkStations (w :: ws) = (s.checkStation w).checkStations ws := rfl
    rw [hcons, hframe', hframe]

theorem readGathered_of_undamaged {w : Nat} {e : Station} (he : s.station? w = some e) (hs : e.sound = true)
    (hd : e.damaged = false) : readGathered w s = s := by
  have hread : s.checkStation w = s := checkStation_of_sound fun f hf => (Option.some.inj (he.symm.trans hf)) ▸ hs
  simp [readGathered, hread, he, hd]

/-- R196, log 29: the entry carries its mark when the reads are over. -/
theorem readGathered_of_failing (hr : s.resetHeld = false) {w : Nat} {e : Station} (he : s.station? w = some e)
    (hf : e.damaged = true ∨ e.sound = false) (hst : ∀ v f, v ≠ w → s.station? v = some f → f.sound = true)
    (hocc : ∀ i o, s.occ? i = some o → o.sound = true) :
    ∃ x ev, readGathered w s = { s with stations := x, events := ev } ∧
      ∀ v, slotGet x v = if v = w then some { e with damaged := true } else s.station? v := by
  obtain ⟨⟨x, hframe⟩, hread⟩ := checkStation_of_failing hr he hf
  have hmarked : ∀ v f, (s.checkStation w).station? v = some f → f.sound = true ∨ f.damaged = true := by
    intro v f hv
    rw [hread] at hv
    split at hv
    · obtain rfl := Option.some.inj hv
      exact .inr rfl
    · rename_i hne
      exact .inl (hst v f hne hv)
  obtain ⟨x', ev', hframe', hsame⟩ := checkStations_of_marked (waysOf e.number) hmarked
  have hpool : ((s.checkStation w).checkStations (waysOf e.number)).checkPool =
      (s.checkStation w).checkStations (waysOf e.number) := by
    refine checkOccs_of_sound fun i _ o ho => hocc i o ?_
    rw [hframe', hframe] at ho
    exact ho
  have hway : (s.checkStation w).station? w = some { e with damaged := true } := (hread w).trans (if_pos rfl)
  refine ⟨x', ev', ?_, fun v => (hsame v).trans (hread v)⟩
  simp only [readGathered, hway, if_true, hpool]
  rw [hframe', hframe]

/-! ### The records gathered (R24) -/

theorem mem_gatheredFor {w n i : Nat} : i ∈ s.gatheredFor w n ↔ (∃ o, s.occ? i = some o ∧ o.station = n) ∧
    ∀ v ∈ s.matching n, ∀ g, s.station? v = some g → (g.damaged = false ∨ v < w) → i ∉ g.list := by
  have hocc : (match s.occ? i with | some o => decide (o.station = n) | none => false) = true ↔
      ∃ o, s.occ? i = some o ∧ o.station = n := by
    cases s.occ? i <;> simp
  have hway : ∀ v, (match s.station? v with
      | some g => (!g.damaged || decide (v < w)) && g.list.contains i
      | none => false) = false ↔ ∀ g, s.station? v = some g → (g.damaged = false ∨ v < w) → i ∉ g.list := by
    intro v
    cases s.station? v with
    | none => simp
    | some g =>
      simp only [Bool.and_eq_false_iff, Bool.or_eq_false_iff, Bool.not_eq_false', decide_eq_false_iff_not,
        List.contains_eq_mem, Option.some.injEq, forall_eq']
      cases g.damaged <;> simp [imp_iff_not_or]
  have hlists : ((s.matching n).any fun v => match s.station? v with
      | some g => (!g.damaged || decide (v < w)) && g.list.contains i
      | none => false) = false ↔
      ∀ v ∈ s.matching n, ∀ g, s.station? v = some g → (g.damaged = false ∨ v < w) → i ∉ g.list := by
    simp only [List.any_eq_false, Bool.not_eq_true, hway]
  have hkey : (∃ o, s.occ? i = some o ∧ o.station = n) → i ∈ slotKeys s.occs := fun ⟨o, ho, _⟩ =>
    mem_slotKeys_of_slotGet ho
  rw [← hlists, ← hocc, State.gatheredFor, List.mem_filter, Bool.and_eq_true, Bool.not_eq_true']
  refine ⟨fun h => h.2, fun h => ⟨hkey (hocc.1 h.1), h⟩⟩

/-- R196: the records gathered for an entry of `s` that the reads of the scan have left damaged. -/
theorem mem_gatheredFor_read {w i : Nat} {e : Station} (he : s.station? w = some e)
    (ht : ∀ v, t.station? v = if v = w then some { e with damaged := true } else s.station? v) (hocc : t.occs = s.occs) :
    i ∈ t.gatheredFor w e.number ↔ ∃ o, s.occ? i = some o ∧ o.station = e.number ∧ ∀ v ∈ s.matching e.number, v ≠ w → ∀ g,
      s.station? v = some g → (g.damaged = false ∨ v < w) → i ∉ g.list := by
  have hmatching : t.matching e.number = s.matching e.number := matching_congr fun v _ => by
    rw [ht]
    by_cases hv : v = w
    · rw [if_pos hv, hv, he]
      rfl
    · rw [if_neg hv]
  have hocc' : t.occ? i = s.occ? i := by rw [State.occ?, hocc, ← State.occ?]
  rw [mem_gatheredFor, hmatching, hocc']
  constructor
  · rintro ⟨⟨o, ho, hn⟩, hall⟩
    exact ⟨o, ho, hn, fun v hv hne g hg => hall v hv g (by rw [ht, if_neg hne]; exact hg)⟩
  · rintro ⟨o, ho, hn, hall⟩
    refine ⟨⟨o, ho, hn⟩, fun v hv g hg hlow => ?_⟩
    rw [ht] at hg
    split at hg
    · rename_i hvw
      obtain rfl := Option.some.inj hg
      simp [hvw] at hlow
    · rename_i hne
      exact hall v hv hne g hg hlow

/-! ### The list rewritten (R196, R204) -/

/-- R196: a damaged entry with the first eight of the records gathered for it. -/
def rewrittenEntry (e : Station) (all : List Nat) : Station := { e with
  sound := true, list := all.take 8, changed := if all.take 8 = e.list ∧ all.length ≤ 8 then e.changed else true }

/-- R196: the way with its rewritten list, its check value formed anew. -/
def State.listRewritten (s : State) (w : Nat) (e : Station) (all : List Nat) : State :=
  if all.take 8 = e.list ∧ all.drop 8 = [] then s.putStation w e else s.putChanged w { e with list := all.take 8 }

theorem listRewritten_scanStep {w : Nat} {e : Station} (all : List Nat) (he : s.station? w = some e) :
    ScanStep s (s.listRewritten w e all) id := by
  unfold State.listRewritten
  split
  · exact .of_tableStep (putStation_tableStep s w e) (setStation_within he id) (.of_scan rfl)
  · exact putChanged_scanStep he id

/-- `t` has the tables of `s`, but for the entry of one way. -/
structure EntryWritten (s t : State) (w : Nat) (e : Station) : Prop where
  occs : t.occs = s.occs
  loops : t.loops = s.loops
  station : ∀ v, t.station? v = if v = w then some e else s.station? v

theorem listRewritten_written {w : Nat} {e : Station} (all : List Nat) :
    EntryWritten s (s.listRewritten w e all) w (rewrittenEntry e all) := by
  have hdrop : all.drop 8 = [] ↔ all.length ≤ 8 := List.drop_eq_nil_iff
  simp only [State.listRewritten, rewrittenEntry, hdrop]
  split
  · rename_i hsame
    refine ⟨rfl, rfl, fun v => ?_⟩
    rw [station?_putStation, hsame.1]
  · obtain ⟨x, y, hframe, -⟩ := putChanged_stationsScan (s := s) w { e with list := all.take 8 }
    exact ⟨by rw [hframe], by rw [hframe], fun v => station?_putChanged w v _⟩

theorem rewriteList_eq {w : Nat} {e : Station} {all : List Nat} (he : s.station? w = some e) (hd : e.damaged = true)
    (hall : sortByKey s.orderKey (s.gatheredFor w e.number) = all) : rewriteList w s =
    ((all.drop 8).foldl (fun s i => s.freeOcc allWays i) ((s.listRewritten w e all).count
      (countReferences (e.list.filter fun i => !all.contains i).length))).count (countUnlisted (all.drop 8).length) := by
  simp only [rewriteList, he, if_pos hd, hall]
  rfl

/-- What the rewriting of a damaged entry's list counts. -/
def rewriteCount (e : Station) (all : List Nat) (c : ScanCounts) : ScanCounts :=
  countUnlisted (all.drop 8).length (countReferences (e.list.filter fun i => !all.contains i).length c)

/-- What the rewriting of a damaged entry's list leaves: the entry written, and then the records beyond the eighth freed. -/
theorem rewriteList_spec {w : Nat} {e : Station} {all : List Nat} (he : s.station? w = some e) (hd : e.damaged = true)
    (hall : sortByKey s.orderKey (s.gatheredFor w e.number) = all)
    (hst : ∀ v f, v ≠ w → s.station? v = some f → f.sound = true) (hl : LoopsSound s) :
    ∃ t u, EntryWritten s t w (rewrittenEntry e all) ∧ FreedIn t u (all.drop 8) ∧
      Claims.TablesKept u (rewriteList w s) ∧ ScanStep s (rewriteList w s) (rewriteCount e all) := by
  obtain ⟨hoccs, hloops, hstation⟩ := listRewritten_written (s := s) (w := w) (e := e) all
  have hstep := (listRewritten_scanStep all he).count
    (g := countReferences (e.list.filter fun i => !all.contains i).length) fun _ => rfl
  rw [rewriteList_eq he hd hall]
  generalize s.listRewritten w e all = a at hoccs hloops hstation hstep
  have hwritten : EntryWritten s (a.count (countReferences (e.list.filter fun i => !all.contains i).length)) w
      (rewrittenEntry e all) := ⟨hoccs, hloops, hstation⟩
  generalize a.count (countReferences (e.list.filter fun i => !all.contains i).length) = t at hstep hwritten
  have hread : WaysRead t allWays := fun v _ f hf => by
    rw [hwritten.station] at hf
    split at hf
    · obtain rfl := Option.some.inj hf
      rfl
    · rename_i hne
      exact hst v f hne hf
  have hfreed := foldl_freeOcc_freedIn (all.drop 8) hread fun l r hr =>
    hl l r (by rw [State.loop?, ← hwritten.loops]; exact hr)
  exact ⟨t, _, hwritten, hfreed, ⟨rfl, rfl, rfl⟩, (hstep.trans hfreed.step).count fun _ => rfl⟩

theorem unlisted_rewrittenEntry {e : Station} {all : List Nat} (hn : all.Nodup) :
    unlisted (all.drop 8) (rewrittenEntry e all) = rewrittenEntry e all := by
  rw [unlisted_eq_ite, if_neg]
  rintro ⟨i, hdrop, htake⟩
  have hsplit : (all.take 8 ++ all.drop 8).Nodup := by
    rw [List.take_append_drop]
    exact hn
  exact List.disjoint_of_nodup_append hsplit htake hdrop

theorem occs_ascending (h : s.recordsWf = true) : (slotKeys s.occs).Pairwise (· < ·) := by
  simp only [State.recordsWf, Bool.and_eq_true] at h
  obtain ⟨⟨⟨⟨-, hwf⟩, -⟩, -⟩, -⟩ := h
  exact ((slotWf_iff _ _).1 hwf).1

/-- The gathered records in order of epoch, and of index where epochs are equal, each once. -/
theorem sorted_gatheredFor {key : Nat → Nat} (h : (slotKeys s.occs).Pairwise (· < ·)) (w n : Nat) :
    (sortByKey key (s.gatheredFor w n)).Nodup ∧
    (sortByKey key (s.gatheredFor w n)).Pairwise (fun i j => key i < key j ∨ key i = key j ∧ i < j) ∧
    ∀ i, i ∈ sortByKey key (s.gatheredFor w n) ↔ i ∈ s.gatheredFor w n := by
  have hascending : (s.gatheredFor w n).Pairwise (· < ·) := h.filter _
  refine ⟨(sortByKey_perm _).nodup_iff.2 (hascending.imp fun h => Nat.ne_of_lt h), ?_, fun i => (sortByKey_perm _).mem_iff⟩
  exact sortInto_ascending List.Pairwise.nil hascending fun i hi => absurd hi List.not_mem_nil

theorem referencesUnit_rewrites (s : State) {w : Nat} (hw : w < 256) :
    referencesUnit s (768 + w) = scanStep readGathered rewriteList s w := by
  have h1 : ¬768 + w < 256 := by omega
  have h2 : ¬768 + w < 768 := by omega
  have h3 : 768 + w < 1024 := by omega
  simp only [referencesUnit, h1, h2, h3, if_false, if_true, Nat.add_sub_cancel_left]

theorem scanRewritesList_claim : Claims.ScanRewritesList := by
  intro s c w e hc hst hoccs hloops hwf hw he _ _
  have hunmarked : Unmarked s := unmarked_of_records (fun q hq => (hoccs q hq).2) fun q hq => (hloops q hq).2
  have hothers : ∀ v f, v ≠ w → s.station? v = some f → f.sound = true := fun v f hv hf => hst _ (mem_of_slotGet hf) hv
  have hunit := referencesUnit_rewrites s hw
  have hsize : 768 + w < 1552 := by omega
  rw [exec_scanReferences]
  by_cases hf : e.damaged = true ∨ e.sound = false
  · obtain ⟨x, ev, hread, hx⟩ := readGathered_of_failing hc.2.1 he hf hothers fun i o ho => (hoccs _ (mem_of_slotGet ho)).1
    have hsorted := sorted_gatheredFor (s := { s with stations := x, events := ev }) (key := s.orderKey)
      (occs_ascending hwf) w e.number
    have hgathered : ∀ i, i ∈ ({ s with stations := x, events := ev } : State).gatheredFor w e.number ↔ _ := fun i =>
      mem_gatheredFor_read he hx rfl
    simp only [hgathered] at hsorted
    generalize hall : sortByKey s.orderKey (({ s with stations := x, events := ev } : State).gatheredFor w e.number) = all
      at hsorted
    obtain ⟨hnodup, hpairwise, hmem⟩ := hsorted
    have hact := fun y => rewriteList_spec (s := { s with stations := x, events := ev, scan := y }) ((hx w).trans (if_pos rfl))
      rfl hall (fun v f hv hvf => hothers v f hv ((hx v).symm.trans hvf |> (if_neg hv).symm.trans))
      fun l r hr => (hloops _ (mem_of_slotGet hr)).1
    obtain ⟨t, d, ⟨⟨y, ht⟩, -⟩, hdscan, htally, htables, -⟩ := scanPass_scanStep (act := rewriteList) hc hsize hunit
      (.of_scan (by rw [hread])) (by rw [hread]; exact hunmarked) (fun t ht => by
        rw [hread] at ht
        obtain ⟨⟨y, rfl⟩, -⟩ := ht
        obtain ⟨-, -, -, -, -, hstep⟩ := hact y
        exact hstep)
    rw [hread] at ht
    rw [ht] at htables
    obtain ⟨a, u, hwritten, hfreed, hkept, -⟩ := hact y
    have htables : Claims.TablesKept u (scanPass 3 1552 referencesUnit 1 s) :=
      ⟨htables.1.trans hkept.1, htables.2.1.trans hkept.2.1, htables.2.2.trans hkept.2.2⟩
    have hnot : ¬(e.damaged = false ∧ e.sound = true) := fun ⟨h1, h2⟩ => hf.elim (by simp [h1]) (by simp [h2])
    have hst : ∀ v, (scanPass 3 1552 referencesUnit 1 s).station? v = u.station? v := fun v => by
      rw [State.station?, htables.1]
      rfl
    have hocc : ∀ i, (scanPass 3 1552 referencesUnit 1 s).occ? i = u.occ? i := fun i => by
      rw [State.occ?, htables.2.1]
      rfl
    have hloop : ∀ l, (scanPass 3 1552 referencesUnit 1 s).loop? l = (s.loop? l).map (membersLess (all.drop 8)) := fun l => by
      rw [State.loop?, htables.2.2]
      refine (hfreed.loop l).trans ?_
      rw [State.loop?, hwritten.loops]
      rfl
    refine ⟨_, d, rfl, hdscan, fun h1 h2 => absurd ⟨h1, h2⟩ hnot, fun _ => ⟨all, hnodup, hmem, hpairwise, ?_, ?_, ?_, fun i => ?_,
      fun l r hr => ?_, fun l hl => ?_, fun v g hv hv' hg => ?_, fun v hv => ?_⟩⟩
    · rw [hst, hfreed.station, if_pos (mem_allWays_of_lt hw), hwritten.station, if_pos rfl, Option.map_some,
        unlisted_rewrittenEntry hnodup]
      rfl
    · have hfilter : e.list.filter (fun i => !all.contains i) = e.list.filter (· ∉ all) :=
        List.filter_congr fun i _ => by simp
      rw [counts_of_tally htally, ← hfilter]
      rfl
    · rw [counts_of_tally htally, ← List.length_drop]
      rfl
    · rw [hocc, hfreed.occ, State.occ?, hwritten.occs]
      rfl
    · rw [hloop, hr, Option.map_some, membersLess_of_undamaged (hloops _ (mem_of_slotGet hr)).2]
    · rw [hloop, hl]
      rfl
    · rw [hst, hfreed.station, if_pos (mem_allWays_of_lt hv'), hwritten.station, if_neg hv]
      refine (congrArg (Option.map _) (((hx v).trans (if_neg hv)).trans hg)).trans ?_
      rw [Option.map_some, unlisted_eq_ite]
    · have hne : v ≠ w := fun hvw => by
        rw [hvw, he] at hv
        cases hv
      have hnone : u.station? v = none := by
        have ha : a.station? v = none := by
          rw [hwritten.station, if_neg hne]
          exact ((hx v).trans (if_neg hne)).trans hv
        rw [hfreed.station, ha]
        exact ite_self _
      exact (hst v).trans hnone
  · obtain ⟨hd, hsound⟩ := not_or.1 hf
    have hsound : e.sound = true := by simpa using hsound
    have hd : e.damaged = false := by simpa using hd
    have hread := readGathered_of_undamaged he hsound hd
    have hact : ∀ y, rewriteList w { s with scan := y } = { s with scan := y } := fun y => by
      have he' : ({ s with scan := y } : State).station? w = some e := he
      simp [rewriteList, he', hd]
    obtain ⟨t, d, ⟨⟨y, ht⟩, -⟩, hdscan, htally, htables, -⟩ := scanPass_scanStep (f := id) (act := rewriteList) hc hsize hunit
      (.of_scan (by rw [hread])) (by rw [hread]; exact hunmarked) (fun t ht => by
        obtain ⟨⟨y, rfl⟩, -⟩ := ht
        rw [hread, hact y]
        exact .refl _)
    rw [hread] at ht
    rw [ht, hact y] at htables
    exact ⟨_, d, rfl, hdscan, fun _ _ => ⟨htables, by rw [counts_of_tally htally]; rfl, by rw [counts_of_tally htally]; rfl⟩,
      fun h => absurd h hf⟩

end Sys2Proof.Machine
end

