-- ==== Sys2Proof/Proofs/ServiceControl/ScanLoops.lean ====
section
/-! SUPPORT. The last three passes of the scan (R197): loops without an anchor are voided, interrupted closes undone, and stray
drift parts removed. -/

namespace Sys2Proof.Machine

open Sys2Proof

variable {s t u : State}

/-! ### Records written where the pool is undamaged -/

variable {M : List Nat} {p : Occ → Bool} {W : Occ → Occ}

theorem Writes.occsRead (h : Writes s t M p W) (hW : Settles p W) (ho : OccsRead s) : OccsRead t := by
  intro j q hq
  rw [h.occ] at hq
  obtain ⟨o, hj, rfl⟩ := Option.map_eq_some_iff.1 hq
  obtain ⟨hsound, hd⟩ := ho j o hj
  exact ⟨(writtenIn_keeps Occ.sound hW.sound j o).trans hsound, (writtenIn_keeps Occ.damaged hW.damaged j o).trans hd⟩

/-- The entries agree with their check values, and the records of the pool are intact, in the scan. -/
structure PoolIntact (s : State) : Prop where
  reads : ScanReads s
  occs : OccsRead s

theorem swept_poolIntact (hp : s.part = .starting) (h : Claims.Swept s) (y : Option Scan) :
    PoolIntact { s with scan := y } := by
  obtain ⟨hpart, hst, hocc⟩ := swept_reads hp h
  exact ⟨⟨hpart, hst, hocc⟩, swept_occs h⟩

theorem PoolIntact.of_writes (hs : PoolIntact s) (h : Writes s t M p W) (hW : Settles p W) : PoolIntact t :=
  ⟨h.reads hW.sound hs.reads, h.occsRead hW hs.occs⟩

theorem PoolIntact.checkOcc (hs : PoolIntact s) (i : Nat) : s.checkOcc i = s :=
  checkOcc_of_sound fun o ho => (hs.occs i o ho).1

/-! ### Pass 6: what a void writes (R127) -/

/-- R127: a member of a voided loop. -/
def unjoined (o : Occ) : Occ := { dropDrift o with memberOf := none }

theorem unjoined_settles : Settles (fun _ => true) unjoined := by
  refine ⟨fun o => ?_, fun o => ?_, fun o => ?_, fun o _ => ?_⟩
  · rw [unjoined, dropDrift_fields]
  · rw [unjoined, dropDrift_fields]
  · rw [unjoined, dropDrift_fields]
  · by_cases hf : o.state = .final <;> simp [unjoined, dropDrift, withoutDrift, clearDriftFlags, hf]

theorem voidMember_writes (hs : PoolIntact s) (i : Nat) : Writes s (s.voidMember i) [i] (fun _ => true) unjoined := by
  have hocc : (s.unwindow i).occ? i = s.occ? i := rfl
  simp only [State.voidMember, hs.checkOcc, hocc]
  cases ho : s.occ? i with
  | none =>
    refine .of_none ⟨rfl, rfl, rfl, .of_tables ⟨rfl, rfl, rfl⟩, .of_scan rfl⟩ ⟨rfl, rfl, rfl⟩ rfl fun j o hj hn => ?_
    rw [List.mem_singleton.1 hn.1, ho] at hj
    cases hj
  | some o =>
    simp only [(hs.occs i o ho).2, Bool.false_eq_true, if_false]
    have hput : Writes s (((s.unwindow i).putOcc i (unjoined o)).markOwner o.station i) [i] (fun _ => true) unjoined :=
      putMark_writes hs.reads ho rfl unjoined_settles rfl
    exact hput

theorem voidMembers_writes (hs : PoolIntact s) (M : List Nat) :
    Writes s (M.foldl State.voidMember s) M (fun _ => true) unjoined :=
  writes_foldl (π := id) unjoined_settles (fun _ _ _ hs h => hs.of_writes h unjoined_settles)
    (fun _ i hs => voidMember_writes hs i) M s hs

/-- The record opens the loop. -/
def opensLoop (l : Nat) (o : Occ) : Bool := decide (o.opens = some l)

/-- R127: the open endpoint of a voided loop. -/
def unopened (o : Occ) : Occ := { o with opens := none }

theorem unopened_settles (l : Nat) : Settles (opensLoop l) unopened := ⟨fun _ => rfl, fun _ => rfl, fun _ => rfl, fun _ _ => rfl⟩

theorem voidOpenEnd_writes (hs : PoolIntact s) (l i : Nat) : Writes s (s.voidOpenEnd l i) [i] (opensLoop l) unopened := by
  simp only [State.voidOpenEnd, hs.checkOcc]
  cases ho : s.occ? i with
  | none =>
    refine .of_none (.refl s) ⟨rfl, rfl, rfl⟩ rfl fun j o hj hn => ?_
    rw [List.mem_singleton.1 hn.1, ho] at hj
    cases hj
  | some o =>
    by_cases hl : o.opens = some l
    · have hundamaged : ¬o.damaged = true := by simp [(hs.occs i o ho).2]
      simp only [if_pos hl, if_neg hundamaged]
      have hput : Writes s ((s.putOcc i (unopened o)).markOwner o.station i) [i] (opensLoop l) unopened :=
        putMark_writes (x := s.window) hs.reads ho (decide_eq_true hl) (unopened_settles l) rfl
      exact hput
    · simp only [if_neg hl]
      refine .of_none (.refl s) ⟨rfl, rfl, rfl⟩ rfl fun j q hj hn => hl ?_
      rw [List.mem_singleton.1 hn.1, ho] at hj
      obtain rfl := Option.some.inj hj
      exact of_decide_eq_true hn.2

theorem written_voidedOcc (l e j : Nat) (M : List Nat) (o : Occ) :
    writtenIn [e] (opensLoop l) unopened j (writtenIn M (fun _ => true) unjoined j o) = voidedOcc M [(l, e)] j o := by
  rw [voidedOcc_fields]
  have hmember : writtenIn M (fun _ => true) unjoined j o = { o with
      memberOf := if j ∈ M then none else o.memberOf
      drift := if j ∈ M ∧ o.state ≠ .final then none else o.drift
      flags := if j ∈ M ∧ o.state ≠ .final then { o.flags with driftHigh := false, noDrift := false } else o.flags } := by
    by_cases hM : j ∈ M
    · by_cases hf : o.state = .final <;> simp [writtenIn, unjoined, dropDrift, withoutDrift, clearDriftFlags, hM, hf]
    · simp [writtenIn, hM]
  rw [hmember]
  by_cases he : j = e <;> by_cases hl : o.opens = some l <;> simp [writtenIn, opensLoop, unopened, he, hl]

/-- R127: the records that a void touches. -/
def Voids (l : Nat) (r : Loop) (j : Nat) (o : Occ) : Prop := j ∈ r.members ∨ j = r.openEnd ∧ o.opens = some l

/-- What the voiding of a sound loop leaves in the scan. -/
structure VoidedIn (s t : State) (l : Nat) (r : Loop) : Prop where
  step : ScanStep s t id
  occ : ∀ j, t.occ? j = (s.occ? j).map (voidedOcc r.members [(l, r.openEnd)] j)
  loop : ∀ k, t.loop? k = if k = l then none else s.loop? k
  marked : EntriesMarked s t fun v => ∃ j o, s.occ? j = some o ∧ Voids l r j o ∧ s.ownerOf o.station j = some v

theorem voidSound_voidedIn (hs : PoolIntact s) {l : Nat} {r : Loop} (hr : s.loop? l = some r) :
    VoidedIn s (s.voidSound l) l r := by
  have hmembers := voidMembers_writes hs r.members
  have hend := voidOpenEnd_writes (hs.of_writes hmembers unjoined_settles) l r.openEnd
  simp only [State.voidSound, hr]
  generalize r.members.foldl State.voidMember s = a at hmembers hend
  generalize a.voidOpenEnd l r.openEnd = b at hend
  have hfree : ScanStep b (b.freeLoop l) id := .of_tableStep (freeLoop_tableStep b l) (freeLoop_within l) (.of_scan rfl)
  refine ⟨(hmembers.step.trans hend.step).trans hfree, fun j => ?_, fun k => ?_, ?_⟩
  · refine (hend.occ j).trans ?_
    rw [hmembers.occ, Option.map_map]
    exact Option.map_congr fun o _ => written_voidedOcc l r.openEnd j r.members o
  · rw [loop?_freeLoop, State.loop?, hend.loops, hmembers.loops, ← State.loop?]
  · have hopens : ∀ j o, (writtenIn r.members (fun _ => true) unjoined j o).opens = o.opens :=
      writtenIn_keeps Occ.opens fun o => by rw [unjoined, dropDrift_fields]
    have hback := hmembers.marked_back unjoined_settles.station (N := fun j o => j = r.openEnd ∧ o.opens = some l)
      (N' := fun j o => j ∈ [r.openEnd] ∧ opensLoop l o = true)
      (fun j o _ => by rw [List.mem_singleton, opensLoop, decide_eq_true_iff, hopens])
    have hboth : EntriesMarked s b fun v => ∃ j o, s.occ? j = some o ∧ Voids l r j o ∧ s.ownerOf o.station j = some v := by
      refine (hmembers.marked.trans hend.marked).congr fun v => ?_
      rw [hback]
      constructor
      · rintro (⟨j, o, ho, ⟨hj, -⟩, hv⟩ | ⟨j, o, ho, hj, hv⟩)
        · exact ⟨j, o, ho, .inl hj, hv⟩
        · exact ⟨j, o, ho, .inr hj, hv⟩
      · rintro ⟨j, o, ho, hj | hj, hv⟩
        · exact .inl ⟨j, o, ho, ⟨hj, rfl⟩, hv⟩
        · exact .inr ⟨j, o, ho, hj, hv⟩
    exact ⟨hboth.on, hboth.off, hboth.free⟩

/-! ### Pass 6: loops without an anchor (R197) -/

theorem readAnchor_swept (h : Claims.Swept s) (l : Nat) : readAnchor l s = s := by
  unfold readAnchor
  simp only [swept_checkLoop h, swept_checkOcc h]
  split
  · split
    · rfl
    · split <;> rfl
  · rfl

theorem anchorStands_iff {l : Nat} {r : Loop} :
    s.anchorStands l r = true ↔ ∃ o, s.occ? r.openEnd = some o ∧ o.opens = some l := by
  unfold State.anchorStands
  cases s.occ? r.openEnd <;> simp

theorem closingStands_iff {r : Loop} : s.closingStands r = true ↔
    ∃ j, r.closing = some j ∧ j ∈ r.members ∧ (r.mode = some .drift → s.orderKey r.openEnd < s.orderKey j) := by
  unfold State.closingStands
  cases r.closing with
  | none => simp
  | some j => simp [imp_iff_not_or]

theorem exec_scanUnanchoredLoops (k : Nat) (s : State) : exec (.scanUnanchoredLoops k) s =
    .next (scanPass 6 16 unanchoredUnit k s) := rfl

theorem scanVoids_claim : Claims.ScanVoids := by
  intro s c l r hc h hl hr stands
  have hunit : unanchoredUnit s l = scanStep readAnchor voidUnanchored s l := rfl
  have hstands : (s.anchorStands l r && (decide (r.state ≠ .closed) || s.closingStands r)) = true ↔ stands := by
    rw [Bool.and_eq_true, anchorStands_iff, Bool.or_eq_true, decide_eq_true_iff, closingStands_iff]
    exact and_congr_right fun _ => imp_iff_not_or.symm
  have hact : ∀ y, voidUnanchored l { s with scan := y } =
      if s.anchorStands l r && (decide (r.state ≠ .closed) || s.closingStands r) then { s with scan := y } else
        (State.voidSound { s with scan := y } l).count fun c => { c with voided := addHeld c.voided 1 } := fun y => by
    have hr' : ({ s with scan := y } : State).loop? l = some r := hr
    simp only [voidUnanchored, hr']
    rfl
  rw [exec_scanUnanchoredLoops]
  by_cases hst : stands
  · simp only [if_pos (hstands.2 hst)] at hact
    obtain ⟨y, d, hd, htally, htables, -⟩ := scanPass_swept (c := c) hc hl hunit h (readAnchor_swept h l) fun y => by
      rw [hact y]
      exact .refl _
    rw [hact y] at htables
    exact ⟨_, d, rfl, hd, fun _ => ⟨htables, by rw [counts_of_tally htally]; rfl⟩, fun hn => absurd hst hn⟩
  · simp only [if_neg (mt hstands.1 hst)] at hact
    have hvoided := fun y => voidSound_voidedIn (swept_poolIntact hc.1 h y) (l := l) (r := r) hr
    obtain ⟨y, d, hd, htally, htables, -⟩ := scanPass_swept (c := c) hc hl hunit h (readAnchor_swept h l) fun y => by
      rw [hact y]
      exact (hvoided y).step.count fun _ => rfl
    rw [hact y] at htables
    obtain ⟨-, hocc, hloop, hmarked⟩ := hvoided y
    generalize State.voidSound { s with scan := y } l = a at hocc hloop hmarked htables
    obtain ⟨htst, htocc, htloop⟩ := htables
    have hocc' : ∀ i, (scanPass 6 16 unanchoredUnit 1 s).occ? i =
        (s.occ? i).map (voidedOcc r.members [(l, r.openEnd)] i) := fun i => by
      rw [State.occ?, htocc]
      exact hocc i
    have hloop' : ∀ k, (scanPass 6 16 unanchoredUnit 1 s).loop? k = if k = l then none else s.loop? k := fun k => by
      rw [State.loop?, htloop]
      exact hloop k
    refine ⟨_, d, rfl, hd, fun hn => absurd hn hst, fun _ => ⟨(hloop' l).trans (if_pos rfl),
      fun k hk => (hloop' k).trans (if_neg hk), by rw [counts_of_tally htally]; rfl, ?_, fun i hi => ?_, fun i o ho => ?_⟩⟩
    · refine ownersMarked_congr (s := { s with scan := y }) (t := a) rfl rfl htst (ownersMarked_of_entries hmarked fun j o ho => ?_)
      refine or_congr_right (and_congr_right fun _ => ⟨?_, fun hopens => ⟨o, ho, hopens⟩⟩)
      rintro ⟨q, hq, hopens⟩
      obtain rfl := Option.some.inj (ho.symm.trans hq)
      exact hopens
    · rw [hocc', hi]
      rfl
    · refine ⟨_, (hocc' i).trans (congrArg (Option.map _) ho), ?_⟩
      rw [voidedOcc_fields]
      refine ⟨rfl, fun hi hf => ?_, fun hn => ?_⟩
      · simp only [if_pos (And.intro hi hf), and_self]
      · have hnot : ¬(i ∈ r.members ∧ o.state ≠ .final) := fun hb => hn.elim (fun hi => hi hb.1) hb.2
        simp only [if_neg hnot, and_self]

/-! ### Pass 7: what an undoing writes (R123) -/

/-- The record loses its drift part where a close is undone. -/
def losesDrift (o : Occ) : Bool := o.drift.isSome && decide (o.state ≠ .final)

theorem losesDrift_iff {o : Occ} : losesDrift o = true ↔ LosesDrift o := by
  rw [losesDrift, Bool.and_eq_true, decide_eq_true_iff, LosesDrift]

theorem withoutDrift_settles (p : Occ → Bool) : Settles p withoutDrift :=
  ⟨fun _ => rfl, fun _ => rfl, fun _ => rfl, fun _ _ => rfl⟩

theorem undoMember_eq_undoAt (ho : OccsRead s) (l : Nat) (is : List Nat) (i : Nat) :
    undoMember l (s, is) i = undoAt (s, is) i := by
  have hread : s.checkOcc i = s := checkOcc_of_sound fun o h => (ho i o h).1
  cases hi : s.occ? i with
  | none => simp [undoMember, undoAt, hread, hi]
  | some o => simp [undoMember, undoAt, hread, hi, (ho i o hi).2]

theorem undoMember_writes (hs : PoolIntact s) (l : Nat) (is : List Nat) (i : Nat) :
    Writes s (undoMember l (s, is) i).1 [i] losesDrift withoutDrift := by
  have hnone : (∀ o, s.occ? i = some o → ¬LosesDrift o) → Writes s s [i] losesDrift withoutDrift := fun hl =>
    .of_none (.refl s) ⟨rfl, rfl, rfl⟩ rfl fun j o hj hn =>
      hl o (List.mem_singleton.1 hn.1 ▸ hj) (losesDrift_iff.1 hn.2)
  rw [undoMember_eq_undoAt hs.occs]
  cases ho : s.occ? i with
  | none =>
    rw [undoAt_of_free ho]
    exact hnone fun o hi => by simp [ho] at hi
  | some o =>
    have hd := (hs.occs i o ho).2
    by_cases hl : LosesDrift o
    · rw [undoAt_of_loses ho hd hl]
      dsimp only
      rw [markRecord_of_starting (s := s.putOcc i (withoutDrift o)) hs.reads.part]
      exact putMark_writes (x := s.window) hs.reads ho (losesDrift_iff.2 hl) (withoutDrift_settles _) rfl
    · rw [undoAt_of_kept ho hd hl]
      refine hnone fun q hq => ?_
      obtain rfl := Option.some.inj (ho.symm.trans hq)
      exact hl

theorem undoMembers_writes (hs : PoolIntact s) (l : Nat) (M is : List Nat) :
    Writes s (M.foldl (undoMember l) (s, is)).1 M losesDrift withoutDrift :=
  writes_foldl (π := Prod.fst) (withoutDrift_settles _) (fun _ _ _ hs h => hs.of_writes h (withoutDrift_settles _))
    (fun a i hs => undoMember_writes hs l a.2 i) M (s, is) hs

/-! ### Pass 7: interrupted closes (R197) -/

theorem reopen_scanStep (l : Nat) : ScanStep s (s.reopen l) id := by
  unfold State.reopen
  split
  · rename_i r hr
    have hput : ∀ x : Loop, x.damaged = r.damaged → ScanStep s (s.putLoop l x) id := fun x hx =>
      putLoop_scanStep hr fun hd => hx.symm.trans hd
    have hraise : ∀ t : State, ScanStep t (t.raise .loopExpired) id := fun t =>
      .of_tableStep (raise_tableStep t _) (.of_tables ⟨rfl, rfl, rfl⟩) (.of_scan rfl)
    dsimp only
    split
    · refine (hput _ ?_).trans (hraise _)
      rfl
    · refine hput _ ?_
      rfl
  · exact .refl s

/-- R197: the loop whose interrupted close is undone. -/
def interruptedLoop (r : Loop) (epoch : Nat) : Loop := { reopened r epoch with interrupted := true }

/-- What the undoing of an interrupted close leaves. -/
structure InterruptedIn (s t : State) (l : Nat) (r : Loop) : Prop where
  step : ScanStep s t id
  stations : ∃ a, Writes s a r.members losesDrift withoutDrift ∧ t.stations = a.stations ∧ t.occs = a.occs
  loop : ∀ k, t.loop? k = if k = l then some (interruptedLoop r s.epoch) else s.loop? k
  events : t.events.pending = if s.epoch < r.deadline then s.events.pending else s.events.pending ||| 0x0400

theorem undoClose_interruptedIn (hs : PoolIntact s) (hheld : s.resetHeld = false) {l : Nat} {r : Loop}
    (hr : s.loop? l = some r) (hsound : r.sound = true) (hd : r.damaged = false) (hc : r.state = .closing) :
    InterruptedIn s ((s.undoClose l).1.noteInterrupted l) l r := by
  have hw := undoMembers_writes hs l r.members []
  have hundo : (s.undoClose l).1 = (r.members.foldl (undoMember l) (s, [])).1.reopen l := by
    simp [State.undoClose, checkLoop_of_found hr hd hsound, hr, hd, hc]
  rw [hundo]
  generalize (r.members.foldl (undoMember l) (s, [])).1 = a at hw
  have hloops : ∀ k, a.loop? k = s.loop? k := fun k => by rw [State.loop?, hw.loops, ← State.loop?]
  have hepoch : a.epoch = s.epoch := by rw [State.epoch, hw.step.clock, ← State.epoch]
  obtain ⟨hframe, hloop, hevents⟩ := reopen_spec (hw.step.resetHeld.trans hheld) ((hloops l).trans hr) hsound
  have hreopen := reopen_scanStep (s := a) l
  rw [hepoch] at hloop hevents
  generalize a.reopen l = b at hframe hloop hevents hreopen
  have hb : b.loop? l = some (reopened r s.epoch) := (hloop l).trans (if_pos rfl)
  have hnote : b.noteInterrupted l = b.putLoop l (interruptedLoop r s.epoch) := by
    rw [State.noteInterrupted, hb]
    rfl
  have hput : ScanStep b (b.putLoop l (interruptedLoop r s.epoch)) id := putLoop_scanStep hb id
  rw [hnote]
  refine ⟨(hw.step.trans hreopen).trans hput, ⟨a, hw, ?_, ?_⟩, fun k => ?_, ?_⟩
  · show b.stations = a.stations
    rw [hframe]
  · show b.occs = a.occs
    rw [hframe]
  · rw [loop?_putLoop, hloop, hloops]
    by_cases hk : k = l
    · have hkeeps : (interruptedLoop r s.epoch).sound = true := hsound
      rw [if_pos hk, if_pos hk, ← hkeeps]
    · rw [if_neg hk, if_neg hk, if_neg hk]
  · show b.events.pending = _
    rw [hevents, hw.events]
    split <;> rfl

theorem exec_scanInterruptedCloses (k : Nat) (s : State) : exec (.scanInterruptedCloses k) s =
    .next (scanPass 7 16 interruptedUnit k s) := rfl

theorem scanUndoes_claim : Claims.ScanUndoes := by
  intro s c l r hc h hl hr
  have hunit : interruptedUnit s l = scanStep (fun l s => s.checkLoop l) undoInterrupted s l := rfl
  have hact : ∀ y, undoInterrupted l { s with scan := y } = if r.state = .closing then
      ((State.undoClose { s with scan := y } l).1.noteInterrupted l).count fun c => { c with undone := addHeld c.undone 1 }
      else { s with scan := y } := fun y => by
    have hr' : ({ s with scan := y } : State).loop? l = some r := hr
    simp only [undoInterrupted, hr']
  rw [exec_scanInterruptedCloses]
  by_cases hclosing : r.state = .closing
  · simp only [if_pos hclosing] at hact
    obtain ⟨hsound, hdamaged⟩ := swept_loops h l r hr
    have hundone := fun y => undoClose_interruptedIn (swept_poolIntact hc.1 h y) hc.2.1 hr hsound hdamaged hclosing
    obtain ⟨y, d, hd, htally, htables, htevents⟩ := scanPass_swept (c := c) hc hl hunit h (swept_checkLoop h l) fun y => by
      rw [hact y]
      exact (hundone y).step.count fun _ => rfl
    rw [hact y] at htables htevents
    obtain ⟨-, ⟨a, hw, hst, hocc⟩, hloop, hevents⟩ := hundone y
    generalize (State.undoClose { s with scan := y } l).1.noteInterrupted l = b at hst hocc hloop hevents htables htevents
    obtain ⟨htst, htocc, htloop⟩ := htables
    have hocc' : ∀ i, (scanPass 7 16 interruptedUnit 1 s).occ? i =
        (s.occ? i).map (writtenIn r.members losesDrift withoutDrift i) := fun i => by
      rw [State.occ?, htocc]
      refine Eq.trans (congrArg (slotGet · i) hocc) (hw.occ i)
    have hloop' : ∀ k, (scanPass 7 16 interruptedUnit 1 s).loop? k =
        if k = l then some (interruptedLoop r s.epoch) else s.loop? k := fun k => by
      rw [State.loop?, htloop]
      exact hloop k
    have hloses : ∀ i o, s.occ? i = some o → (Claims.Loses s r i ↔ i ∈ r.members ∧ losesDrift o = true) := fun i o ho => by
      rw [losesDrift_iff]
      refine and_congr_right fun _ => ⟨?_, fun hl => ⟨o, ho, hl⟩⟩
      rintro ⟨q, hq, hl⟩
      obtain rfl := Option.some.inj (ho.symm.trans hq)
      exact hl
    refine ⟨_, d, rfl, hd, fun hn => absurd hclosing hn, fun _ => ⟨(hloop' l).trans (if_pos rfl),
      fun k hk => (hloop' k).trans (if_neg hk), by rw [counts_of_tally htally]; rfl, ?_, ?_, fun i hi => ?_,
      fun i o ho => ⟨fun hi => ?_, fun hi => ?_⟩⟩⟩
    · exact ownersMarked_congr (s := { s with scan := y }) rfl rfl (htst.trans hst) (hw.ownersMarked hloses)
    · rw [htevents]
      exact hevents
    · rw [hocc', hi]
      rfl
    · rw [hocc', ho, Option.map_some, writtenIn, if_pos ((hloses i o ho).1 hi)]
      rfl
    · rw [hocc', ho, Option.map_some, writtenIn_of_not (mt (hloses i o ho).2 hi)]
  · simp only [if_neg hclosing] at hact
    obtain ⟨y, d, hd, htally, htables, -⟩ := scanPass_swept (c := c) hc hl hunit h (swept_checkLoop h l) fun y => by
      rw [hact y]
      exact .refl _
    rw [hact y] at htables
    exact ⟨_, d, rfl, hd, fun _ => ⟨htables, by rw [counts_of_tally htally]; rfl⟩, fun hn => absurd hn hclosing⟩

/-! ### Pass 8: stray drift parts (R197) -/

theorem readDrift_swept (h : Claims.Swept s) (i : Nat) : readDrift i s = s := by
  unfold readDrift
  simp only [swept_checkOcc h, swept_checkField h]
  split
  · split <;> rfl
  · rfl

theorem driftStands_iff {i : Nat} {o : Occ} : s.driftStands i o = true ↔ o.state = .final ∨
    ∃ l r, o.memberOf = some l ∧ s.loop? l = some r ∧ r.state = .closed ∧ i ∈ r.members := by
  rw [State.driftStands, Bool.or_eq_true, decide_eq_true_iff]
  refine or_congr_right ?_
  cases o.memberOf with
  | none => simp
  | some l => cases hr : s.loop? l <;> simp [hr]

theorem exec_scanStrayDrift (k : Nat) (s : State) : exec (.scanStrayDrift k) s =
    .next (scanPass 8 512 strayUnit k s) := rfl

theorem scanRemovesDrift_claim : Claims.ScanRemovesDrift := by
  intro s c i o hc h hi ho stray
  have hunit : strayUnit s i = scanStep readDrift removeStray s i := rfl
  have hstray : (o.drift.isSome && !s.driftStands i o) = true ↔ stray := by
    rw [Bool.and_eq_true, Bool.not_eq_true', ← Bool.not_eq_true, driftStands_iff, not_or]
  have hact : ∀ y, removeStray i { s with scan := y } = if o.drift.isSome && !s.driftStands i o then
      ((State.putOcc { s with scan := y } i (withoutDrift o)).markOwner o.station i).count
        fun c => { c with drifts := addHeld c.drifts 1 }
      else { s with scan := y } := fun y => by
    have ho' : ({ s with scan := y } : State).occ? i = some o := ho
    simp only [removeStray, ho']
    rfl
  rw [exec_scanStrayDrift]
  by_cases hs : stray
  · simp only [if_pos (hstray.2 hs)] at hact
    have hw := fun y => putMark_writes (p := fun _ => true) (x := s.window) (swept_poolIntact hc.1 h y).reads ho rfl
      (withoutDrift_settles _) rfl
    obtain ⟨y, d, hd, htally, htables, -⟩ := scanPass_swept (c := c) hc hi hunit h (readDrift_swept h i) fun y => by
      rw [hact y]
      exact (hw y).step.count fun _ => rfl
    have hw := hw y
    rw [hact y] at htables
    generalize (State.putOcc { s with scan := y } i (withoutDrift o)).markOwner o.station i = a at hw htables
    obtain ⟨htst, htocc, htloop⟩ := htables
    have hocc : ∀ j, (scanPass 8 512 strayUnit 1 s).occ? j =
        (s.occ? j).map (writtenIn [i] (fun _ => true) withoutDrift j) := fun j => by
      rw [State.occ?, htocc]
      exact hw.occ j
    refine ⟨_, d, rfl, hd, htloop.trans hw.loops, fun j hj => ?_, ?_, fun _ => ⟨?_, by rw [counts_of_tally htally]; rfl⟩,
      fun hn => absurd hs hn⟩
    · rw [hocc]
      cases s.occ? j with
      | none => rfl
      | some q => rw [Option.map_some, writtenIn_of_not fun hn => hj (List.mem_singleton.1 hn.1)]
    · refine ownersMarked_congr (s := { s with scan := y }) rfl rfl htst (hw.ownersMarked fun j q hq => ?_)
      rw [List.mem_singleton]
      exact ⟨fun hj => ⟨hj.1, rfl⟩, fun hj => ⟨hj.1, hs⟩⟩
    · rw [hocc, ho, Option.map_some, writtenIn, if_pos ⟨List.mem_cons_self, rfl⟩]
      rfl
  · simp only [if_neg (mt hstray.1 hs)] at hact
    obtain ⟨y, d, hd, htally, htables, -⟩ := scanPass_swept (c := c) hc hi hunit h (readDrift_swept h i) fun y => by
      rw [hact y]
      exact .refl _
    rw [hact y] at htables
    obtain ⟨htst, htocc, htloop⟩ := htables
    refine ⟨_, d, rfl, hd, htloop, fun j _ => by rw [State.occ?, htocc]; rfl, ?_, fun hn => absurd hn hs,
      fun _ => ⟨⟨htst, htocc, htloop⟩, by rw [counts_of_tally htally]; rfl⟩⟩
    exact ownersMarked_of_entries (N := fun _ _ => False) (.of_stations htst fun v ⟨_, _, _, hn, _⟩ => hn) fun j q _ =>
      ⟨fun hj => hs hj.2, False.elim⟩

/-! ### The findings of the scan (R196, R197) -/

theorem scanRemoves_claim : Claims.ScanRemoves :=
  ⟨scanSuspects_claim, scanFreesOccupation_claim, scanFreesLoop_claim, scanCountsStation_claim, scanPrunesList_claim,
    scanFreesUnlisted_claim, scanRewritesList_claim, scanPrunesMembers_claim, scanClearsFields_claim, scanFreesWindow_claim⟩

theorem scanRestores_claim : Claims.ScanRestores :=
  ⟨scanOrders_claim, scanVoids_claim, scanUndoes_claim, scanRemovesDrift_claim⟩

/-- Settles O59, pass by pass: one step's findings are read off the state that its reads leave, and what a step writes beside
the records that it names is the report and the marks of their owners. -/
theorem scanFindings : Obligations.ScanFindings := ⟨scanRemoves_claim, scanRestores_claim⟩

end Sys2Proof.Machine
end

