-- ==== Sys2Proof/Proofs/HostLink/Commands.lean ====
section
/-! SUPPORT. The step on a queue with a command at its front, the invariants right after reset, and the commands as the link
takes, refuses and answers them (R183 to R186). -/

namespace Sys2Proof.Machine

open Sys2Proof

variable {s : State}

/-! ### The step and the reset -/

/-- Settles O1: the step's own equation for a queue that is not empty. -/
theorem stepTakesFront : Obligations.StepTakesFront := by
  intro c rest s h
  simp only [step, h]

/-- Settles O5: every table is empty after reset, and the other parts are closed terms. -/
theorem invariantsAtReset : Obligations.InvariantsAtReset :=
  ⟨by decide, by decide, by decide, by decide, by decide, by decide, by decide, by decide, by decide⟩

/-! ### A period that ends with a command's frame (R184, R185) -/

theorem Link.closePeriod_of_command (l : Link) {mosi rest : List Byte} {c : Byte} {i : Instr}
    (hbytes : commandBytes mosi = some (c, rest)) (hparse : parseFrame c rest = .command i) :
    l.closePeriod mosi = if l.executing.isSome then
        { period := none, held := none, fetching := false, executing := l.executing, waiting := some i, discard := true }
      else
        { period := none, held := none, fetching := false, executing := some i, waiting := l.waiting, discard := false } := by
  obtain ⟨period, held, fetching, executing, waiting, discard⟩ := l
  simp only [Link.closePeriod, hbytes, hparse]
  cases executing <;> rfl

/-- Settles O16: the frame reads back as its command, which the link then takes or makes wait. -/
theorem commandTaken : Obligations.CommandTaken := by
  intro s i code payload extra p hframe hwf hlen hodd hperiod htaken
  obtain ⟨c, rest, hbytes, hparse⟩ := frameReadsBack i code payload extra hframe hwf hlen hodd
  have hexec : exec (.chipSelectClose (i.frameBytes ++ extra)) s =
      .next (s.chipSelectClose (i.frameBytes ++ extra)) := rfl
  rw [hexec, State.chipSelectClose, hperiod]
  simp only [htaken, Bool.false_eq_true, if_false, s.link.closePeriod_of_command hbytes hparse]

/-! ### The link and its commands (R183, R185, R186) -/

theorem linkTakes_of_stopped (i : Instr) (h : s.linkStopped = true) : s.linkTakes i = false := by
  rcases Bool.or_eq_true_iff.1 h with hr | hp
  · simp [State.linkTakes, hr]
  · simp [State.linkTakes, of_decide_eq_true hp]

/-- Every command that has a frame comes by the host link. -/
theorem access_of_frame {i : Instr} (h : i.frame.isSome = true) : ∃ a, access i = some a := by
  rw [← Option.isSome_iff_exists]
  cases i <;> simp_all [Instr.frame, access]

theorem exec_of_access {i : Instr} {a : Access} (h : access i = some a) (s : State) :
    ∃ body, exec i s = hostCommand i a body s := by
  cases i <;> cases h <;> exact ⟨_, rfl⟩

theorem stoppedLinkIgnores_claim : Claims.StoppedLinkIgnores := by
  intro i s hframe hstop
  obtain ⟨a, haccess⟩ := access_of_frame hframe
  obtain ⟨body, hexec⟩ := exec_of_access haccess s
  rw [hexec, hostCommand_of_ignored a body (linkTakes_of_stopped i hstop)]

theorem notInService_claim : Claims.NotInService := by
  intro i a s haccess htakes hpart
  obtain ⟨body, hexec⟩ := exec_of_access haccess s
  rw [hexec, hostCommand_of_not_taken body htakes hpart]

theorem responseHeld_claim : Claims.ResponseHeld := by
  intro s st p
  constructor <;> intro h <;> simp [State.respond, Link.complete, h]

/-- Settles O18: a stopped link ignores, a part state that does not take a command refuses it, and a response is held or
dropped by its discard mark. -/
theorem linkAnswers : Obligations.LinkAnswers := ⟨stoppedLinkIgnores_claim, notInService_claim, responseHeld_claim⟩

end Sys2Proof.Machine
end

