-- ==== Sys2Proof/Proofs/EarthTide/Writes.lean ====
section
/-! SUPPORT. WRITE CONSTITUENT, WRITE SITE and CLEAR SITE (R93 to R96): what each accepts, and the one entry that it writes. -/

namespace Sys2Proof.Machine

open Sys2Proof

variable {s : State} {k : Nat}

/-! ### Reads after writes of the tide tables -/

theorem constituent_setConstituent_self (c : Constituent) (h : k < 12) : (s.setConstituent k c).constituent k = c := by
  simp [State.constituent, State.setConstituent, h]

theorem constituent_setConstituent_of_ne {j : Nat} (c : Constituent) (h : j ≠ k) :
    (s.setConstituent k c).constituent j = s.constituent j := by
  simp [State.constituent, State.setConstituent, Vector.getElem?_setIfInBounds_ne h.symm]

theorem site_setSite_self (c : Site) (h : k < 8) : (s.setSite k c).site k = c := by
  simp [State.site, State.setSite, h]

theorem site_setSite_of_ne {j : Nat} (c : Site) (h : j ≠ k) : (s.setSite k c).site j = s.site j := by
  simp [State.site, State.setSite, Vector.getElem?_setIfInBounds_ne h.symm]

/-- R96: a map of the whole table, read at one site. -/
theorem site_map (f : Site → Site) {m : Nat} (hm : m < 8) :
    (({ s with sites := s.sites.map f } : State)).site m = f (s.site m) := by
  simp [State.site, hm]

theorem sites_toList (s : State) : s.sites.toList = (List.range 8).map s.site := by
  refine List.ext_getElem (by simp) fun m hm _ => ?_
  have hm : m < 8 := by simpa using hm
  simp [State.site, hm]

/-! ### WRITE CONSTITUENT (R93) -/

/-- R93: the tables after an accepted WRITE CONSTITUENT. -/
def State.constituentWritten (s : State) (k : Nat) (c : Constituent) : State :=
  { s.setConstituent k c with sites := s.sites.map Site.advance }

theorem yesNo_of_lt_two {e : Nat} (h : e < 2) : yesNo e = some (decide (e = 1)) := by
  interval_cases e <;> rfl

theorem yesNo_of_two_le {e : Nat} (h : 2 ≤ e) : yesNo e = none := by
  obtain ⟨n, rfl⟩ := Nat.exists_eq_add_of_le h
  rw [Nat.add_comm]
  rfl

/-- R93: the ranges that WRITE CONSTITUENT refuses. -/
def badConstituent (k speed phase : Nat) : Bool :=
  !(k < Config.constituents) || !(1 ≤ speed && speed ≤ 16777215) || !(phase ≤ 65535)

theorem writeConstituentBody_of_lt {e speed phase : Nat} (he : e < 2) :
    writeConstituentBody k e speed phase s =
      if badConstituent k speed phase then s.refuse .badValue
      else (s.constituentWritten k (writtenConstituent (decide (e = 1)) speed phase)).respond .ok
        ((List.range 8).flatMap fun m => u16 (((s.site m).revision + 1) % 65536)) := by
  simp only [writeConstituentBody, yesNo_of_lt_two he]
  rw [← badConstituent]
  split
  · rfl
  · have hbytes : (s.sites.map Site.advance).toList.flatMap (fun c => u16 c.revision) =
        (List.range 8).flatMap fun m => u16 (((s.site m).revision + 1) % 65536) := by
      rw [Vector.toList_map, sites_toList, List.map_map, List.flatMap_map]
      rfl
    exact congrArg _ hbytes

theorem writeConstituent_claim : Claims.WriteConstituent := by
  intro s k e speed phase hserves
  have hexec := hostCommand_of_serves (writeConstituentBody k e speed phase) hserves
  refine ⟨fun hk he h1 h2 h3 => ⟨_, hexec, ?_⟩, fun h => hexec.trans (congrArg _ ?_)⟩
  · have hin : badConstituent k speed phase = false := by
      simp [badConstituent, Config.constituents, hk, h1, h2, h3]
    rw [writeConstituentBody_of_lt he, if_neg (by simp [hin])]
    refine ⟨rfl, rfl, constituent_setConstituent_self (s := s) _ hk,
      fun j hj => constituent_setConstituent_of_ne (s := s) _ hj, fun m hm => site_map (s := s) Site.advance hm⟩
  · rcases Nat.lt_or_ge e 2 with he | he
    · have hbad : badConstituent k speed phase = true := by
        simp only [badConstituent, Config.constituents, Bool.or_eq_true, Bool.not_eq_true', Bool.and_eq_false_iff,
          decide_eq_false_iff_not]
        rcases h with h | h | h | h | h
        · exact .inl (.inl (decide_eq_false (Nat.not_lt.2 h)))
        all_goals omega
      rw [writeConstituentBody_of_lt he, if_pos hbad]
    · simp only [writeConstituentBody, yesNo_of_two_le he]

/-! ### WRITE SITE and CLEAR SITE (R94, R95) -/

theorem pairsInRange_iff (ps : List (Nat × Nat)) : pairsInRange ps = true ↔ ∀ p ∈ ps, p.1 ≤ 2000 ∧ p.2 ≤ 65535 := by
  simp [pairsInRange]

theorem writeSiteBody_of_length {ps : List (Nat × Nat)} (h : ps.length = 12) :
    writeSiteBody k ps s = if !(k < Config.sites) || !pairsInRange ps then s.refuse .badValue
      else (s.setSite k (writtenSite ps (s.site k))).respond .ok (u8 k ++ u16 (((s.site k).revision + 1) % 65536)) := by
  rw [writeSiteBody, if_neg (not_not.2 h)]
  rfl

theorem writeSite_claim (s : State) (k : Nat) (ps : List (Nat × Nat)) (h : s.serves (.writeSite k ps) .readyRestore = true)
    (hlen : ps.length = 12) :
    (k < 8 → (∀ p ∈ ps, p.1 ≤ 2000 ∧ p.2 ≤ 65535) → ∃ t, exec (.writeSite k ps) s = .next t ∧
      t = { s with sites := t.sites, link := t.link } ∧
      t.link = (s.respond .ok (u8 k ++ u16 (((s.site k).revision + 1) % 65536))).link ∧
      t.site k = { set := true, revision := ((s.site k).revision + 1) % 65536, pairs := ps, damaged := false,
                   sound := true } ∧ ∀ j, j ≠ k → t.site j = s.site j) ∧
    (8 ≤ k ∨ (∃ p ∈ ps, 2000 < p.1 ∨ 65535 < p.2) → exec (.writeSite k ps) s = .next (s.refuse .badValue)) := by
  have hexec := hostCommand_of_serves (writeSiteBody k ps) h
  rw [writeSiteBody_of_length hlen] at hexec
  refine ⟨fun hk hps => ?_, fun hbad => ?_⟩
  · rw [if_neg (by simp [Config.sites, hk, (pairsInRange_iff ps).2 hps])] at hexec
    exact ⟨_, hexec, rfl, rfl, site_setSite_self (s := s) _ hk, fun j hj => site_setSite_of_ne (s := s) _ hj⟩
  · rw [if_pos] at hexec
    · exact hexec
    · rcases hbad with hk | ⟨p, hp, hout⟩
      · rw [decide_eq_false (p := k < Config.sites) (Nat.not_lt.2 hk)]
        rfl
      · have hno : ¬pairsInRange ps = true := fun hin => by
          have := (pairsInRange_iff ps).1 hin p hp
          omega
        simp [Bool.eq_false_iff.2 hno]

theorem clearSite_claim (s : State) (k : Nat) (h : s.serves (.clearSite k) .ready = true) :
    (k < 8 → ∃ t, exec (.clearSite k) s = .next t ∧ t = { s with sites := t.sites, link := t.link } ∧
      t.link = (s.respond .ok (u16 (((s.site k).revision + 1) % 65536))).link ∧
      t.site k = { set := false, revision := ((s.site k).revision + 1) % 65536, pairs := List.replicate 12 (0, 0),
                   damaged := false, sound := true } ∧ ∀ j, j ≠ k → t.site j = s.site j) ∧
    (8 ≤ k → exec (.clearSite k) s = .next (s.refuse .badValue)) := by
  have hexec := hostCommand_of_serves (clearSiteBody k) h
  rw [clearSiteBody] at hexec
  refine ⟨fun hk => ?_, fun hk => ?_⟩
  · rw [if_neg (by simp [Config.sites, hk])] at hexec
    exact ⟨_, hexec, rfl, rfl, site_setSite_self (s := s) _ hk, fun j hj => site_setSite_of_ne (s := s) _ hj⟩
  · rwa [decide_eq_false (p := k < Config.sites) (Nat.not_lt.2 hk)] at hexec

/-- Settles O26: each accepted write replaces its own entry, and a field out of range refuses it. -/
theorem tideWrites : Obligations.TideWrites :=
  ⟨writeConstituent_claim, fun s k ps => ⟨writeSite_claim s k ps, clearSite_claim s k⟩⟩

end Sys2Proof.Machine
end

