-- ==== Sys2Proof/Proofs/Sensors/ChannelGates.lean ====
section
/-! SUPPORT. A gate of a period channel that starts, and one that is abandoned (R57 to R59). -/

namespace Sys2Proof.Machine

open Sys2Proof

variable {s : State} {ch : Channel}

theorem groupLength_eq (c : ConstNums) (ch : Channel) :
    groupLength c ch = (if ch = .temperature then c.tempGate else c.tiltGate).toNat := by
  rcases ch with (_ | _) | _ <;> rfl

theorem risingEdge_of_first (hm : s.mainRuns = true) (hs : s.constants.sound = true) (hd : s.constants.damaged = false)
    (hoff : (s.front.chan ch).state ≠ .off) (hg : (s.front.chan ch).gate = none) :
    s.risingEdge ch =
      s.setFront (s.front.setChan ch ((s.front.chan ch).start (groupLength s.constants.nums ch))) := by
  have hread : s.checkConstants false = s := by simp [State.checkConstants, hs, hd]
  simp [State.risingEdge, hm, hoff, hg, hread, State.firstLength, hd]

theorem gateStarts_claim : Claims.GateStarts := by
  intro s ch hm hs hd
  refine ⟨fun hoff hg => ⟨_, congrArg Host.Outcome.next (risingEdge_of_first hm hs hd hoff hg), rfl, fun c hc => ?_, ?_⟩,
    fun hoff => congrArg Host.Outcome.next ?_⟩
  · rw [State.setFront_front, chan_setChan, if_neg hc]
  · rw [State.setFront_front, chan_setChan, if_pos rfl, ← groupLength_eq]
    rfl
  · simp [State.risingEdge, hoff]

/-- R58: at most three abandons, so the third is the one that faults. -/
theorem Chan.abandon_eq {c : Chan} (hoff : c.state ≠ .off) : c.abandon =
    { state := if 2 ≤ c.abandons then .fault else c.state, gate := none, periods := 0, abandons := min (c.abandons + 1) 3 } := by
  simp [Chan.abandon, hoff]

theorem Chan.faults_iff {c : Chan} (hoff : c.state ≠ .off) :
    c.faults = true ↔ 2 ≤ c.abandons ∧ c.state ≠ .fault := by
  cases h : c.state <;> simp_all [Chan.faults]

theorem abandons_claim : Claims.Abandons := by
  intro s ch hm hoff _
  have hexec : exec (.abandon ch) s = .next (s.abandonGate ch) := rfl
  have hgate : s.abandonGate ch =
      if (s.front.chan ch).faults then (s.setFront (s.front.setChan ch (s.front.chan ch).abandon)).raise .sensorFault
      else s.setFront (s.front.setChan ch (s.front.chan ch).abandon) := by
    simp [State.abandonGate, hm, hoff]
  have hfront : (s.abandonGate ch).front = s.front.setChan ch (s.front.chan ch).abandon := by
    rw [hgate]
    split <;> rfl
  have hr : s.resetHeld = false := by
    simp only [State.mainRuns, Bool.and_eq_true] at hm
    simpa using hm.1
  refine ⟨_, hexec, ?_, fun c hc => ?_, ?_, ?_⟩
  · rw [hgate]
    split <;> rfl
  · rw [hfront, chan_setChan, if_neg hc]
  · rw [hfront, chan_setChan, if_pos rfl, Chan.abandon_eq hoff]
  · rw [hgate]
    by_cases hf : (s.front.chan ch).faults = true
    · rw [if_pos hf, if_pos ((Chan.faults_iff hoff).1 hf)]
      simp [Events.raise, hr, Event.mask, Event.bit]
    · rw [if_neg hf, if_neg (mt (Chan.faults_iff hoff).2 hf)]
      rfl

/-- Settles O41: a first edge takes its group's length, and an abandon its three effects. -/
theorem channelGates : Obligations.ChannelGates := ⟨gateStarts_claim, abandons_claim⟩

end Sys2Proof.Machine
end

