-- ==== Sys2Proof/Proofs/Engine/Jobs.lean ====
section
/-! SUPPORT. Jobs as SUBMIT JOB places them (R136, R137), and their completions (R122, R139 to R141). -/

namespace Sys2Proof.Machine

open Sys2Proof

variable {s : State} {f : Flight}

/-! ### SUBMIT JOB (R136, R137) -/

theorem submittedKind_eq_some {kind target : Nat} {k : JobKind}
    (h : kind = 0 ∧ target < 512 ∧ k = .reduce target ∨ kind = 2 ∧ target < 8 ∧ k = .retide target ∨
      kind = 3 ∧ target = 0 ∧ k = .recalc) : submittedKind kind target = some k := by
  rcases h with ⟨rfl, ht, rfl⟩ | ⟨rfl, ht, rfl⟩ | ⟨rfl, rfl, rfl⟩
  · exact if_pos ht
  · exact if_pos ht
  · rfl

theorem submittedKind_eq_none {kind target : Nat}
    (h : kind = 1 ∨ 4 ≤ kind ∨ kind = 0 ∧ 512 ≤ target ∨ kind = 2 ∧ 8 ≤ target ∨ kind = 3 ∧ target ≠ 0) :
    submittedKind kind target = none := by
  rcases h with rfl | h | ⟨rfl, ht⟩ | ⟨rfl, ht⟩ | ⟨rfl, ht⟩
  · rfl
  · obtain ⟨n, rfl⟩ := Nat.exists_eq_add_of_le h
    rw [Nat.add_comm]
    rfl
  · exact if_neg (Nat.not_lt.2 ht)
  · exact if_neg (Nat.not_lt.2 ht)
  · exact if_neg ht

/-- R136: the checks of a job whose kind and target are known, in their order, and its placing. -/
theorem submitJobBody_eq {kind target tag : Nat} {k : JobKind} (hk : submittedKind kind target = some k) (ht : tag < 256)
    (s : State) : submitJobBody kind target tag s =
      if s.engine.state = .halted then s.refuse .engineHalted
      else if s.engine.full then s.refuse .queueFull
      else ({ s with engine := s.engine.place (Job.mk k .host tag) } : State).respond .ok (u8 s.engine.position) := by
  simp [submitJobBody, hk, ht]

/-- Settles O49: the code names the job, and the engine's state and its queue say where it goes. -/
theorem submitJob : Obligations.SubmitJob := by
  intro s kind target tag hserves ht
  have hexec := hostCommand_of_serves (submitJobBody kind target tag) hserves
  refine ⟨fun k hk => ?_, fun hbad => hexec.trans (congrArg _ ?_)⟩
  · have hfull : ∀ {n}, n = s.engine.queue.length → (s.engine.full = true ↔ 4 ≤ n) := by
      rintro _ rfl
      simp [Engine.full, Config.queueLimit]
    rw [submitJobBody_eq (submittedKind_eq_some hk) ht] at hexec
    refine ⟨fun hh => ?_, fun hh hq => ?_, fun hw hq => ?_, fun hi hq => ?_⟩
    · rwa [if_pos hh] at hexec
    · rwa [if_neg hh, if_pos ((hfull rfl).2 hq)] at hexec
    · rw [if_neg (by simp [hw]), if_neg (mt (hfull rfl).1 (Nat.not_le.2 hq))] at hexec
      refine hexec.trans ?_
      simp [Engine.place, Engine.position, hw, Engine.enqueue]
    · rw [if_neg (by simp [hi]), if_neg (mt (hfull rfl).1 (Nat.not_le.2 hq))] at hexec
      refine hexec.trans ?_
      simp only [Engine.place, Engine.position, hi, if_true, Engine.take]
      rfl
  · simp only [submitJobBody, submittedKind_eq_none hbad]

/-! ### Completions (R122, R139 to R141) -/

/-- R139: what a completion does: the last-job result, JOB_DONE, and the next job or IDLE. -/
structure JobCompleted (s t : State) (f : Flight) (res : JobResult) : Prop where
  frame : t = { s with engine := t.engine, events := t.events }
  last : t.engine.last = some { job := f.job, result := res, count := f.written.length, epoch := s.epoch }
  idle : s.engine.queue = [] → t.engine = { s.engine with state := .idle, flight := none, last := t.engine.last } ∧
    t.events = { s.events with pending := s.events.pending ||| 0x00A0 }
  next : ∀ j rest, s.engine.queue = j :: rest →
    t.engine = { s.engine with flight := some (Claims.begun j), queue := rest, last := t.engine.last } ∧
    t.events = { s.events with pending := s.events.pending ||| (if rest = [] then 0x0060 else 0x0020) }

theorem completeJob_spec (s : State) (f : Flight) (res : JobResult) (hr : s.resetHeld = false) :
    JobCompleted s (s.completeJob f res) f res := by
  have hraise : ∀ (ev : Events) e, ev.raise s.resetHeld e = { ev with pending := ev.pending ||| e.mask } := by
    intro ev e
    simp [Events.raise, hr]
  cases hq : s.engine.queue with
  | nil =>
    have ht : s.completeJob f res = { s with
        engine := { s.engine with state := .idle, flight := none,
                                  last := some { job := f.job, result := res, count := f.written.length, epoch := s.epoch } }
        events := (s.events.raise s.resetHeld .jobDone).raise s.resetHeld .engineIdle } := by
      simp [State.completeJob, hq, State.raise]
    rw [ht]
    refine ⟨rfl, rfl, fun _ => ⟨rfl, ?_⟩, fun j rest h => absurd (hq.symm.trans h) (by simp)⟩
    simp [hraise, Event.mask, Event.bit, BitVec.or_assoc]
  | cons j rest =>
    have ht : s.completeJob f res = { s with
        engine := { s.engine with flight := some (startFlight j), queue := rest,
                                  last := some { job := f.job, result := res, count := f.written.length, epoch := s.epoch } }
        events := if rest = [] then (s.events.raise s.resetHeld .jobDone).raise s.resetHeld .queueDrained
          else s.events.raise s.resetHeld .jobDone } := by
      simp only [State.completeJob, State.raise_engine, hq]
      split <;> rfl
    rw [ht]
    refine ⟨rfl, rfl, fun h => absurd (hq.symm.trans h) (by simp), fun j' rest' h => ?_⟩
    obtain ⟨rfl, rfl⟩ := List.cons.inj (hq.symm.trans h)
    refine ⟨rfl, ?_⟩
    split <;> simp [hraise, Event.mask, Event.bit, BitVec.or_assoc]

theorem jobCompletion_claim : Claims.JobCompletion := by
  intro s f res hw hf he hr
  have hexec : exec .jobCompletion s = .next (s.completeJob f res) := by
    show Host.Outcome.next s.jobCompletion = _
    simp only [State.jobCompletion, hw, hf, he]
  obtain ⟨hframe, hlast, hidle, hnext⟩ := completeJob_spec s f res hr
  exact ⟨_, hexec, hframe, hlast, hidle, hnext⟩

theorem closeCompletion_claim : Claims.CloseCompletion := by
  intro s f l r d hw hf hk hp he hd hl hc hr
  have hexec : exec .closeCompletion s =
      .next ((s.putLoop l { storeDrift r d with state := .closed }).completeJob f .done) := by
    show Host.Outcome.next s.closeCompletion = _
    simp only [State.closeCompletion, hw, hf, hk, hp, he, hd, hl, hc, if_true]
  obtain ⟨hframe, hlast, hidle, hnext⟩ :=
    completeJob_spec (s.putLoop l { storeDrift r d with state := .closed }) f .done hr
  refine ⟨_, hexec, ?_, ?_, fun k hk => ?_, hlast, hidle, hnext⟩
  · rw [hframe]
    rfl
  · rw [hframe]
    exact slotGet_slotSet_self _ _ _
  · rw [hframe]
    exact slotGet_slotSet_of_ne _ _ hk

/-- Settles O51: both completions end the job in the same way, the CLOSE with its loop written first. -/
theorem completions : Obligations.Completions := ⟨closeCompletion_claim, jobCompletion_claim⟩

end Sys2Proof.Machine
end

