-- ==== Sys2Proof/Proofs/Invariants/Laws.lean ====
section
/-! SUPPORT. The invariants of the tables with their clauses named, and what the plain writes of a table keep of them
(R1, R3 to R5, R29, R75, R108, R126, R188). -/

namespace Sys2Proof.Machine

open Sys2Proof

variable {s t : State}

/-! ### Places of a table -/

theorem mem_of_mem_slotErase {α : Type} {x : Slots α} {k : Nat} {p : Nat × α} (h : p ∈ slotErase x k) :
    p ∈ x ∧ p.1 ≠ k := by
  simpa [slotErase] using h

theorem mem_of_mem_slotSet_erase {α : Type} {x : Slots α} {k : Nat} {v : α} {p : Nat × α} (h : p ∈ slotSet x k v) :
    p = (k, v) ∨ p ∈ x ∧ p.1 ≠ k := (mem_slotInsert.1 h).imp_right mem_of_mem_slotErase

theorem key_lt_of_mem {α : Type} {size : Nat} {x : Slots α} {p : Nat × α} (h : slotWf size x = true) (hp : p ∈ x) :
    p.1 < size := ((slotWf_iff size x).1 h).2 p.1 (List.mem_map.2 ⟨p, hp, rfl⟩)

/-- In a table of canonical form a pair is what a read of its key finds. -/
theorem slotGet_of_mem {α : Type} {size : Nat} {x : Slots α} {p : Nat × α} (h : slotWf size x = true) (hp : p ∈ x) :
    slotGet x p.1 = some p.2 := by
  have hkeys := ((slotWf_iff size x).1 h).1
  clear h
  induction x with
  | nil => simp at hp
  | cons q x ih =>
    obtain ⟨k, v⟩ := q
    have hcons : slotKeys ((k, v) :: x) = k :: slotKeys x := rfl
    rw [hcons, List.pairwise_cons] at hkeys
    rw [slotGet_cons]
    rcases List.mem_cons.1 hp with rfl | hp
    · exact if_pos rfl
    · rw [if_neg (hkeys.1 p.1 (List.mem_map.2 ⟨p, hp, rfl⟩)).ne]
      exact ih hp hkeys.2

theorem key_lt_of_slotGet {α : Type} {size k : Nat} {x : Slots α} {v : α} (h : slotWf size x = true)
    (hk : slotGet x k = some v) : k < size := key_lt_of_mem h (mem_of_slotGet hk)

/-! ### The station table (R1, R3 to R5) -/

/-- R4, R5: the station table's clauses; `w` is a way of which the recency order need not know yet. -/
structure StationsLawBut (w : Nat) (s : State) : Prop where
  slots : slotWf Config.ways s.stations = true
  entries : ∀ p ∈ s.stations, stationWf p.1 p.2 = true
  sets : slotWf Config.sets s.recency = true
  orders : ∀ p ∈ s.recency, distinct p.2 = true ∧ ∀ v ∈ p.2, v / 4 = p.1 ∧ (s.station? v).isSome = true
  touched : ∀ p ∈ s.stations, p.1 ≠ w → p.1 ∈ s.order (p.1 / 4)

/-- No way is 256 or above, so of that way the order need not know. -/
theorem stationsWf_iff : s.stationsWf = true ↔ StationsLawBut Config.ways s := by
  simp only [State.stationsWf, Bool.and_eq_true, List.all_eq_true, decide_eq_true_eq, List.contains_iff_mem]
  constructor
  · rintro ⟨⟨⟨⟨h1, h2⟩, h3⟩, h4⟩, h5⟩
    exact ⟨h1, h2, h3, h4, fun p hp _ => h5 p hp⟩
  · rintro ⟨h1, h2, h3, h4, h5⟩
    exact ⟨⟨⟨⟨h1, h2⟩, h3⟩, h4⟩, fun p hp => h5 p hp (key_lt_of_mem h1 hp).ne⟩

theorem stationWf_of_station? (h : s.stationsWf = true) {w : Nat} {e : Station} (he : s.station? w = some e) :
    w < Config.ways ∧ stationWf w e = true :=
  ⟨key_lt_of_slotGet (stationsWf_iff.1 h).slots he, (stationsWf_iff.1 h).entries _ (mem_of_slotGet he)⟩

/-- A way of the table takes an entry that may stand there; its recency is not yet asked for. -/
theorem StationsLawBut.setStation {v w : Nat} (h : StationsLawBut v s) (hw : w < Config.ways) {e : Station}
    (he : stationWf w e = true) (hv : w = v ∨ w ∈ s.order (w / 4)) : StationsLawBut v (s.setStation w e) where
  slots := slotWf_slotSet h.slots hw e
  entries p hp := by
    rcases mem_of_mem_slotSet hp with rfl | hp
    · exact he
    · exact h.entries p hp
  sets := h.sets
  orders p hp := by
    obtain ⟨hd, hall⟩ := h.orders p hp
    refine ⟨hd, fun u hu => ⟨(hall u hu).1, ?_⟩⟩
    rw [station?_setStation]
    split
    · rfl
    · exact (hall u hu).2
  touched p hp hne := by
    rcases mem_of_mem_slotSet hp with rfl | hp
    · exact hv.resolve_left hne
    · exact h.touched p hp hne

/-- R5: the recency order of one set, whether the table holds one or not. -/
theorem StationsLawBut.order {w : Nat} (h : StationsLawBut w s) (k : Nat) :
    (s.order k).Nodup ∧ ∀ v ∈ s.order k, v / 4 = k ∧ (s.station? v).isSome = true := by
  unfold State.order
  cases hg : slotGet s.recency k with
  | none => simp
  | some l => exact ⟨(distinct_iff l).1 (h.orders _ (mem_of_slotGet hg)).1, (h.orders _ (mem_of_slotGet hg)).2⟩

/-- R5: a touch gives its way the most recent place of its set. -/
theorem StationsLawBut.touch {w : Nat} (h : StationsLawBut w s) (hw : w < Config.ways) (hsome : (s.station? w).isSome = true) :
    (s.touch w).stationsWf = true := by
  obtain ⟨hdistinct, hold⟩ := h.order (w / 4)
  have hrec : (s.touch w).recency = slotSet s.recency (w / 4) (w :: (s.order (w / 4)).filter (· ≠ w)) := by
    rw [State.touch, State.setOrder, if_neg (List.cons_ne_nil _ _)]
  refine stationsWf_iff.2 ⟨h.slots, h.entries, ?_, fun p hp => ?_, fun p hp _ => ?_⟩
  · rw [hrec]
    refine slotWf_slotSet h.sets ?_ _
    simp only [Config.ways, Config.sets] at hw ⊢
    omega
  · rw [hrec] at hp
    rcases mem_of_mem_slotSet hp with rfl | hp
    · refine ⟨?_, fun v hv => ?_⟩
      · rw [distinct_iff, List.nodup_cons]
        exact ⟨by simp, hdistinct.filter _⟩
      · rcases List.mem_cons.1 hv with rfl | hv
        · exact ⟨rfl, hsome⟩
        · exact hold v (List.mem_of_mem_filter hv)
    · exact h.orders p hp
  · rw [State.touch, order_setOrder]
    split
    · next hset =>
      by_cases hpw : p.1 = w
      · simp [hpw]
      · have := h.touched p hp hpw
        rw [hset] at this
        simp [this, hpw]
    · next hset => exact h.touched p hp fun e => hset (by rw [e])

/-- What is asked of every way is asked of every way but one. -/
theorem StationsLawBut.of_wf (h : s.stationsWf = true) (w : Nat) : StationsLawBut w s := by
  obtain ⟨h1, h2, h3, h4, h5⟩ := stationsWf_iff.1 h
  exact ⟨h1, h2, h3, h4, fun p hp _ => h5 p hp (key_lt_of_mem h1 hp).ne⟩

theorem mem_order_of_station? (h : s.stationsWf = true) {w : Nat} {e : Station} (he : s.station? w = some e) :
    w ∈ s.order (w / 4) :=
  (stationsWf_iff.1 h).touched _ (mem_of_slotGet he) (stationWf_of_station? h he).1.ne

theorem stationsWf_setStation (h : s.stationsWf = true) {w : Nat} {e : Station} (hsome : (s.station? w).isSome = true)
    (he : stationWf w e = true) : (s.setStation w e).stationsWf = true := by
  obtain ⟨e', he'⟩ := Option.isSome_iff_exists.1 hsome
  exact stationsWf_iff.2 ((stationsWf_iff.1 h).setStation (stationWf_of_station? h he').1 he
    (.inr (mem_order_of_station? h he')))

theorem stationsWf_touch (h : s.stationsWf = true) {w : Nat} (hsome : (s.station? w).isSome = true) :
    (s.touch w).stationsWf = true := by
  obtain ⟨e, he⟩ := Option.isSome_iff_exists.1 hsome
  exact (StationsLawBut.of_wf h w).touch (stationWf_of_station? h he).1 hsome

/-- R14, R200: a new entry in its way, which takes the most recent place. -/
theorem stationsWf_install (h : s.stationsWf = true) {w : Nat} {e : Station} (hw : w < Config.ways)
    (he : stationWf w e = true) : ((s.putStation w e).touch w).stationsWf = true := by
  refine ((StationsLawBut.of_wf h w).setStation hw ?_ (.inl rfl)).touch hw ?_
  · exact he
  · simp

/-- R23: an entry that becomes FREE leaves the recency order with its way. -/
theorem stationsWf_freeEntry (h : s.stationsWf = true) (w : Nat) : (s.freeEntry w).stationsWf = true := by
  obtain ⟨h1, h2, h3, h4, h5⟩ := stationsWf_iff.1 h
  have horder : ∀ k, (s.freeEntry w).order k = if k = w / 4 then (s.order (w / 4)).filter (· ≠ w) else s.order k :=
    fun k => order_leaveOrder w k
  have hrec : slotWf Config.sets (s.freeEntry w).recency = true ∧
      ∀ p ∈ (s.freeEntry w).recency, p = (w / 4, (s.order (w / 4)).filter (· ≠ w)) ∨ p ∈ s.recency ∧ p.1 ≠ w / 4 := by
    have hr : (s.freeEntry w).recency = if (s.order (w / 4)).filter (· ≠ w) = [] then slotErase s.recency (w / 4)
      else slotSet s.recency (w / 4) ((s.order (w / 4)).filter (· ≠ w)) := rfl
    rw [hr]
    split
    · exact ⟨slotWf_slotErase h3 _, fun p hp => .inr (mem_of_mem_slotErase hp)⟩
    · next hl =>
      obtain ⟨l, hget⟩ : ∃ l, slotGet s.recency (w / 4) = some l := by
        rw [← Option.ne_none_iff_exists']
        intro hnone
        simp [State.order, hnone] at hl
      exact ⟨slotWf_slotSet h3 (key_lt_of_slotGet h3 hget) _, fun p hp =>
        mem_of_mem_slotSet_erase hp⟩
  have hleft : ∀ v, v ≠ w → (s.freeEntry w).station? v = s.station? v := fun v hv => by rw [station?_freeEntry, if_neg hv]
  refine stationsWf_iff.2 ⟨slotWf_slotErase h1 w, fun p hp => h2 p (mem_of_mem_slotErase hp).1, hrec.1, fun p hp => ?_,
    fun p hp _ => ?_⟩
  · rcases hrec.2 p hp with rfl | ⟨hp, hne⟩
    · obtain ⟨hd, hall⟩ := (stationsWf_iff.1 h).order (w / 4)
      refine ⟨(distinct_iff _).2 (hd.filter _), fun v hv => ?_⟩
      obtain ⟨hv, hvw⟩ := List.mem_filter.1 hv
      rw [hleft v (of_decide_eq_true hvw)]
      exact hall v hv
    · obtain ⟨hd, hall⟩ := h4 p hp
      refine ⟨hd, fun v hv => ?_⟩
      obtain ⟨hset, hsome⟩ := hall v hv
      rw [hleft v fun e => hne (by rw [← hset, e])]
      exact ⟨hset, hsome⟩
  · obtain ⟨hp, hpw⟩ := mem_of_mem_slotErase hp
    have hin := h5 p hp (key_lt_of_mem h1 hp).ne
    rw [horder]
    split
    · next hset => exact List.mem_filter.2 ⟨hset ▸ hin, decide_eq_true hpw⟩
    · exact hin

/-! ### The loop table (R108, R110) -/

theorem loopsWf_iff : s.loopsWf = true ↔ slotWf Config.loops s.loops = true ∧ ∀ p ∈ s.loops, loopWf p.2 = true := by
  simp only [State.loopsWf, Bool.and_eq_true, List.all_eq_true]

theorem loopWf_of_loop? (h : s.loopsWf = true) {l : Nat} {r : Loop} (hr : s.loop? l = some r) :
    l < Config.loops ∧ loopWf r = true :=
  ⟨key_lt_of_slotGet (loopsWf_iff.1 h).1 hr, (loopsWf_iff.1 h).2 _ (mem_of_slotGet hr)⟩

theorem loopsWf_setLoop (h : s.loopsWf = true) {l : Nat} {r : Loop} (hl : l < Config.loops) (hr : loopWf r = true) :
    (s.setLoop l r).loopsWf = true := by
  refine loopsWf_iff.2 ⟨slotWf_slotSet (loopsWf_iff.1 h).1 hl r, fun p hp => ?_⟩
  rcases mem_of_mem_slotSet hp with rfl | hp
  · exact hr
  · exact (loopsWf_iff.1 h).2 p hp

theorem loopsWf_freeLoop (h : s.loopsWf = true) (l : Nat) : (s.freeLoop l).loopsWf = true :=
  loopsWf_iff.2 ⟨slotWf_slotErase (loopsWf_iff.1 h).1 l, fun p hp => (loopsWf_iff.1 h).2 p (mem_of_mem_slotErase hp).1⟩

/-! ### The event block (R188) -/

theorem eventsWf_iff : s.eventsWf = true ↔ s.events.pending &&& 0xC000 = 0 ∧ s.events.enabled &&& 0xC000 = 0 := by
  simp only [State.eventsWf, Bool.and_eq_true, decide_eq_true_eq]

theorem Event.mask_named (e : Event) : e.mask &&& 0xC000 = 0 := by
  cases e <;> rfl

theorem eventsWf_raise (h : s.eventsWf = true) (e : Event) : (s.raise e).eventsWf = true := by
  obtain ⟨hp, he⟩ := eventsWf_iff.1 h
  refine eventsWf_iff.2 ?_
  rw [State.raise_events, Events.raise]
  split
  · exact ⟨hp, he⟩
  · refine ⟨?_, he⟩
    rw [BitVec.and_comm, BitVec.and_or_distrib_left, BitVec.and_comm _ e.mask, e.mask_named, BitVec.and_comm, hp]
    rfl

/-! ### Stored ranges (R74, R75, R80) -/

/-- R75, R126: the results group and the drift part of one record. -/
def occInRange (o : Occ) : Bool := optAll resultsInRange o.results && optAll driftInRange o.drift

structure ResultsLaw (s : State) : Prop where
  constants : s.constantsWf = true
  sites : s.sitesWf = true
  stations : s.stationsWf = true
  flight : optAll (fun f : Flight => optAll calcWf f.drift) s.engine.flight = true
  pool : ∀ p ∈ s.occs, occInRange p.2 = true

theorem resultsWf_iff : s.resultsWf = true ↔ ResultsLaw s := by
  simp only [State.resultsWf, Bool.and_eq_true, List.all_eq_true]
  constructor
  · rintro ⟨⟨⟨⟨h1, h2⟩, h3⟩, h4⟩, h5⟩
    exact ⟨h1, h2, h3, h4, fun p hp => Bool.and_eq_true_iff.2 (h5 p hp)⟩
  · rintro ⟨h1, h2, h3, h4, h5⟩
    exact ⟨⟨⟨⟨h1, h2⟩, h3⟩, h4⟩, fun p hp => Bool.and_eq_true_iff.1 (h5 p hp)⟩

theorem occInRange_of_occ? (h : s.resultsWf = true) {i : Nat} {o : Occ} (ho : s.occ? i = some o) :
    occInRange o = true := (resultsWf_iff.1 h).pool _ (mem_of_slotGet ho)

/-! ### The occupation pool, and the windows on it (R29, R36, R195) -/

/-- R29, R75, R126: the groups of a record, by its state. -/
structure OccLaw (o : Occ) : Prop where
  inside : inWindow o = true → o.reading = none ∧ o.results = none
  outside : inWindow o = false → o.reading.isSome = true
  pending : o.state = .pending → o.results = none
  reduced : o.state = .reduced ∨ o.state = .final → o.results.isSome = true
  drift : o.drift.isSome = true → o.results.isSome = true

theorem occWf_iff {o : Occ} : occWf o = true ↔ OccLaw o := by
  have hdrift : (o.drift.isNone = true ∨ o.results.isSome = true) ↔ (o.drift.isSome = true → o.results.isSome = true) := by
    cases o.drift <;> simp
  have hgroups : (if inWindow o then o.reading.isNone && o.results.isNone else o.reading.isSome) = true ↔
      (inWindow o = true → o.reading = none ∧ o.results = none) ∧ (inWindow o = false → o.reading.isSome = true) := by
    cases inWindow o <;> simp
  simp only [occWf, Bool.and_eq_true, Bool.or_eq_true, Bool.not_eq_true', hgroups, hdrift]
  constructor
  · rintro ⟨⟨⟨⟨h1, h2⟩, h3⟩, h4⟩, h5⟩
    refine ⟨h1, h2, fun hp => ?_, fun hr => ?_, h5⟩
    · simpa [hp] using h3
    · exact h4.resolve_left (by rcases hr with hr | hr <;> simp [hr])
  · rintro ⟨h1, h2, h3, h4, h5⟩
    refine ⟨⟨⟨⟨h1, h2⟩, ?_⟩, ?_⟩, h5⟩
    · by_cases hp : o.state = .pending
      · simp [h3 hp]
      · simp [hp]
    · by_cases hr : o.state = .reduced ∨ o.state = .final
      · exact .inr (h4 hr)
      · exact .inl (by simpa using hr)

/-- R126: a record with a drift part has results, and none with results is in its window. -/
theorem OccLaw.not_inWindow_of_drift {o : Occ} (h : OccLaw o) (hd : o.drift.isSome = true) : inWindow o = false := by
  rw [← Bool.not_eq_true]
  intro hin
  have := h.drift hd
  rw [(h.inside hin).2] at this
  cases this

/-- The record at an index is SETTLING or COLLECTING. -/
def State.opensAt (s : State) (i : Nat) : Prop := ∃ o, s.occ? i = some o ∧ inWindow o = true

/-- R198: where the scan stands; its counts and the ways that it has marked or found are no part of it. -/
def Scan.stand (c : Scan) : ScanOrigin × Nat × Option Nat × Nat := (c.origin, c.pass, c.ended, c.cursor)

/-- R195: a scan is in progress. -/
def State.scanning (s : State) : Bool :=
  match s.scan with
  | some c => c.ended.isNone
  | none => false

structure RecordsLaw (s : State) : Prop where
  window : ∀ w, s.window = some w → w.wf = true ∧ s.inService = true ∧ s.opensAt w.occ
  engine : s.engine.state = .idle ∨ s.inService = true
  scan : decide (s.part = .starting) = s.scanning
  slots : slotWf Config.poolSize s.occs = true
  groups : ∀ p ∈ s.occs, occWf p.2 = true
  windows : ∀ i, s.opensAt i → s.mayBeOpen i = true

theorem windowLinked_iff : s.windowLinked = true ↔ ∀ w, s.window = some w → s.opensAt w.occ := by
  unfold State.windowLinked State.opensAt
  cases s.window with
  | none => simp
  | some w => cases h : s.occ? w.occ <;> simp [h]

theorem controlWf_iff : s.controlWf = true ↔ (∀ w, s.window = some w → w.wf = true ∧ s.inService = true) ∧
    (s.engine.state = .idle ∨ s.inService = true) ∧ decide (s.part = .starting) = s.scanning := by
  simp only [State.controlWf, State.scanning, Bool.and_eq_true, Bool.or_eq_true, decide_eq_true_eq]
  cases s.window <;> cases s.scan <;> simp [optAll, and_assoc]

theorem recordsWf_iff : s.recordsWf = true ↔ RecordsLaw s := by
  simp only [State.recordsWf, Bool.and_eq_true, List.all_eq_true, Bool.or_eq_true, Bool.not_eq_true', windowLinked_iff,
    controlWf_iff]
  constructor
  · rintro ⟨⟨⟨⟨⟨hw, he, hs⟩, h2⟩, h3⟩, h4⟩, h5⟩
    refine ⟨fun w h => ⟨(hw w h).1, (hw w h).2, h4 w h⟩, he, hs, h2, h3, fun i ⟨o, ho, hin⟩ => ?_⟩
    exact (h5 _ (mem_of_slotGet ho)).resolve_left (by simp [hin])
  · rintro ⟨hw, he, hs, h2, h3, h5⟩
    refine ⟨⟨⟨⟨⟨fun w h => ⟨(hw w h).1, (hw w h).2.1⟩, he, hs⟩, h2⟩, h3⟩, fun w h => (hw w h).2.2⟩, fun p hp => ?_⟩
    by_cases hin : inWindow p.2 = true
    · exact .inr (h5 p.1 ⟨p.2, slotGet_of_mem h2 hp, hin⟩)
    · exact .inl (Bool.eq_false_iff.2 hin)

theorem occWf_of_occ? (h : s.recordsWf = true) {i : Nat} {o : Occ} (ho : s.occ? i = some o) :
    i < Config.poolSize ∧ occWf o = true :=
  ⟨key_lt_of_slotGet (recordsWf_iff.1 h).slots ho, (recordsWf_iff.1 h).groups _ (mem_of_slotGet ho)⟩

/-- A window that differs in its membership alone has the same record, and its request and counts. -/
theorem TableStep.window_eq_some (h : TableStep s t) {w : Window} (hw : t.window = some w) :
    ∃ v, s.window = some v ∧ v.occ = w.occ ∧ v.wf = w.wf := by
  have hmap := h.window
  rw [hw] at hmap
  cases hs : s.window with
  | none => simp [hs] at hmap
  | some v =>
    rw [hs] at hmap
    have hcore : ({ w with memberOf := none } : Window) = { v with memberOf := none } := Option.some.inj hmap
    have hocc := congrArg Window.occ hcore
    have hwf := congrArg Window.wf hcore
    exact ⟨v, rfl, hocc.symm, hwf.symm⟩

theorem TableStep.isWindow_eq (h : TableStep s t) (i : Nat) : t.isWindow i = s.isWindow i := by
  cases hw : t.window with
  | none =>
    have := h.window_isSome
    rw [hw] at this
    simp [State.isWindow, hw, Option.isSome_eq_false_iff.1 this.symm |> Option.isNone_iff_eq_none.1]
  | some w =>
    obtain ⟨v, hv, hocc, -⟩ := h.window_eq_some hw
    simp [State.isWindow, hw, hv, hocc]

theorem TableStep.inService_eq (h : TableStep s t) : t.inService = s.inService := by
  rw [State.inService, h.part, h.resetHeld]
  rfl

theorem scanning_of_stand (h : t.scan.map Scan.stand = s.scan.map Scan.stand) : t.scanning = s.scanning := by
  have : ∀ u : State, u.scanning = (match u.scan.map Scan.stand with | some c => c.2.2.1.isNone | none => false) := by
    intro u
    unfold State.scanning
    cases u.scan <;> rfl
  rw [this, this, h]

theorem scanClears_of_stand (h : t.scan.map Scan.stand = s.scan.map Scan.stand) (i : Nat) :
    t.scanClears i = s.scanClears i := by
  have : ∀ u : State, u.scanClears i = (match u.scan.map Scan.stand with
      | some c => decide (5 ≤ c.2.1) || (c.2.1 = 4 && decide (i < c.2.2.2)) | none => false) := by
    intro u
    unfold State.scanClears
    cases u.scan <;> rfl
  rw [this, this, h]

/-- A step on the tables that opens no record and leaves the window's record open keeps the pool's laws. -/
theorem RecordsLaw.of_pool (h : RecordsLaw s) (table : TableStep s t)
    (scan : t.scan.map Scan.stand = s.scan.map Scan.stand) (slots : slotWf Config.poolSize t.occs = true)
    (groups : ∀ p ∈ t.occs, occWf p.2 = true) (opens : ∀ i, t.opensAt i → s.opensAt i)
    (stays : ∀ i, s.isWindow i = true → s.opensAt i → t.opensAt i) : RecordsLaw t where
  window w hw := by
    obtain ⟨v, hv, hocc, hwf⟩ := table.window_eq_some hw
    obtain ⟨h1, h2, h3⟩ := h.window v hv
    exact ⟨hwf ▸ h1, table.inService_eq ▸ h2, hocc ▸ stays _ (by simp [State.isWindow, hv]) h3⟩
  engine := by
    rw [table.engine, table.inService_eq]
    exact h.engine
  scan := by
    rw [table.part, scanning_of_stand scan]
    exact h.scan
  slots := slots
  groups := groups
  windows i hi := by
    have := h.windows i (opens i hi)
    rw [State.mayBeOpen] at this ⊢
    rw [table.part, table.resetHeld, table.isWindow_eq, scanClears_of_stand scan]
    exact this

/-- No window is open in STARTING. -/
theorem RecordsLaw.no_window_in_starting (h : RecordsLaw s) (hp : s.part = .starting) : s.window = none := by
  cases hw : s.window with
  | none => rfl
  | some w =>
    have := (h.window w hw).2.1
    simp [State.inService, hp] at this

end Sys2Proof.Machine
end

