-- ==== Sys2Proof/Proofs/Invariants/TableKeeps.lean ====
section
/-! SUPPORT. What the operations on the tables keep: every invariant of a table, the recency orders, the contents of the
constants, the sites and the constituents, and where the scan stands. First the plain writes, then the operations that
several commands share. -/

namespace Sys2Proof.Machine

open Sys2Proof

variable {s t u : State}

/-! ### The contents of the constants and of the tide tables (R96, R107, R173) -/

/-- The constants, the sites and the constituents are as they were, but for their marks and check values. -/
structure SameContents (s t : State) : Prop where
  constants : t.constants = { s.constants with damaged := t.constants.damaged, sound := t.constants.sound }
  sites : ∀ k, t.site k = { s.site k with damaged := (t.site k).damaged, sound := (t.site k).sound }
  constituents : ∀ k, t.constituent k =
    { s.constituent k with damaged := (t.constituent k).damaged, sound := (t.constituent k).sound }

namespace SameContents

theorem of_eq (h1 : t.constants = s.constants) (h2 : t.sites = s.sites) (h3 : t.constituents = s.constituents) :
    SameContents s t := by
  refine ⟨by rw [h1], fun k => ?_, fun k => ?_⟩
  · rw [State.site, State.site, h2]
  · rw [State.constituent, State.constituent, h3]

theorem refl (s : State) : SameContents s s := of_eq rfl rfl rfl

theorem trans (h : SameContents s t) (k : SameContents t u) : SameContents s u where
  constants := by rw [k.constants, h.constants]
  sites j := by rw [k.sites j, h.sites j]
  constituents j := by rw [k.constituents j, h.constituents j]

theorem constantsWf (h : SameContents s t) (hs : s.constantsWf = true) : t.constantsWf = true := by
  rw [State.constantsWf, h.constants]
  exact hs

end SameContents

/-! ### Records of the pool that a write replaces -/

/-- A record may be replaced by another: the groups of its state, whether its window is open, and the ranges of its
results and its drift part. -/
structure OccKeeps (s : State) (o o' : Occ) : Prop where
  groups : occWf o = true → occWf o' = true
  opens : inWindow o' = true → inWindow o = true
  stays : occWf o = true → inWindow o = true → inWindow o' = true
  ranges : s.resultsWf = true → occInRange o = true → occInRange o' = true

/-- A record that differs in what no law speaks of. -/
theorem OccKeeps.of_eq {o o' : Occ} (hst : o'.state = o.state) (hm : o'.reading = o.reading) (hr : o'.results = o.results)
    (hd : o'.drift = o.drift) : OccKeeps s o o' := by
  have hw : inWindow o' = inWindow o := by simp only [inWindow, hst]
  refine ⟨fun h => ?_, fun h => hw ▸ h, fun _ h => hw ▸ h, fun _ h => ?_⟩
  · rw [occWf] at h ⊢
    rwa [hw, hst, hm, hr, hd]
  · rw [occInRange] at h ⊢
    rwa [hr, hd]

theorem OccKeeps.trans {o o' o'' : Occ} (h : OccKeeps s o o') (k : OccKeeps s o' o'') : OccKeeps s o o'' :=
  ⟨k.groups ∘ h.groups, h.opens ∘ k.opens, fun hw ho => k.stays (h.groups hw) (h.stays hw ho),
    fun hs ho => k.ranges hs (h.ranges hs ho)⟩

theorem withoutDrift_keeps (o : Occ) : OccKeeps s o (withoutDrift o) := by
  refine ⟨fun h => ?_, id, fun _ => id, fun _ h => ?_⟩
  · simp only [occWf, Bool.and_eq_true] at h ⊢
    exact ⟨h.1, rfl⟩
  · simp only [occInRange, Bool.and_eq_true] at h ⊢
    exact ⟨h.1, rfl⟩

theorem dropDrift_keeps (o : Occ) : OccKeeps s o (dropDrift o) := by
  unfold dropDrift
  split
  · exact .of_eq rfl rfl rfl rfl
  · exact withoutDrift_keeps o

/-- A loop may be replaced by another: the fields of its state, whether it is CLOSED, and no new member. -/
structure LoopKeeps (r r' : Loop) : Prop where
  wf : loopWf r = true → loopWf r' = true
  closed : r'.state = .closed → r.state = .closed
  members : r'.members.length ≤ r.members.length

theorem LoopKeeps.refl (r : Loop) : LoopKeeps r r := ⟨id, id, le_rfl⟩

theorem LoopKeeps.trans {r r' r'' : Loop} (h : LoopKeeps r r') (k : LoopKeeps r' r'') : LoopKeeps r r'' :=
  ⟨k.wf ∘ h.wf, h.closed ∘ k.closed, k.members.trans h.members⟩

/-- R29: the pool in its canonical form, each record with the groups of its state. -/
def PoolLaw (s : State) : Prop := slotWf Config.poolSize s.occs = true ∧ ∀ p ∈ s.occs, occWf p.2 = true

/-! ### The relation -/

/-- `t` is `s` after work on the tables that opens no window and closes no loop. -/
structure TableKeeps (s t : State) : Prop where
  table : TableStep s t
  contents : SameContents s t
  recency : t.recency = s.recency
  constants : t.constants = s.constants
  scan : t.scan.map Scan.stand = s.scan.map Scan.stand
  events : s.eventsWf = true → t.eventsWf = true
  stations : s.stationsWf = true → t.stationsWf = true
  loops : s.loopsWf = true → t.loopsWf = true
  pool : PoolLaw s → PoolLaw t
  records : s.recordsWf = true → t.recordsWf = true
  results : s.resultsWf = true → t.resultsWf = true
  opens : ∀ i, t.opensAt i → s.opensAt i
  loopFrom : ∀ l r', t.loop? l = some r' → ∃ r, s.loop? l = some r ∧ LoopKeeps r r'

theorem loopFrom_of_eq (h : t.loops = s.loops) :
    ∀ l r', t.loop? l = some r' → ∃ r, s.loop? l = some r ∧ LoopKeeps r r' := fun l r' hr =>
  ⟨r', by rwa [State.loop?, ← h], .refl r'⟩

namespace TableKeeps

theorem refl (s : State) : TableKeeps s s :=
  ⟨.refl s, .refl s, rfl, rfl, rfl, id, id, id, id, id, id, fun _ => id, loopFrom_of_eq rfl⟩

theorem trans (h : TableKeeps s t) (k : TableKeeps t u) : TableKeeps s u where
  table := h.table.trans k.table
  contents := h.contents.trans k.contents
  recency := k.recency.trans h.recency
  constants := k.constants.trans h.constants
  scan := k.scan.trans h.scan
  events := k.events ∘ h.events
  stations := k.stations ∘ h.stations
  loops := k.loops ∘ h.loops
  pool := k.pool ∘ h.pool
  records := k.records ∘ h.records
  results := k.results ∘ h.results
  opens i := h.opens i ∘ k.opens i
  loopFrom l r'' hr := by
    obtain ⟨r', hr', hk⟩ := k.loopFrom l r'' hr
    obtain ⟨r, hr, hh⟩ := h.loopFrom l r' hr'
    exact ⟨r, hr, hh.trans hk⟩

/-- Several operations, one after another. -/
theorem foldl {β : Type} {f : State → β → State} (hf : ∀ s b, TableKeeps s (f s b)) (l : List β) (s : State) :
    TableKeeps s (l.foldl f s) := by
  induction l generalizing s with
  | nil => exact refl s
  | cons b l ih => exact (hf s b).trans (ih _)

/-- The same where every operation asks for a condition that each of them keeps. -/
theorem foldl_of {β : Type} {f : State → β → State} {P : State → Prop} (hP : ∀ {s t}, TableKeeps s t → P s → P t)
    (hf : ∀ s b, P s → TableKeeps s (f s b)) (l : List β) (s : State) (hs : P s) : TableKeeps s (l.foldl f s) := by
  induction l generalizing s with
  | nil => exact refl s
  | cons b l ih => exact (hf s b hs).trans (ih _ (hP (hf s b hs) hs))

/-- The same with a value carried beside the state. -/
theorem foldl_fst {β γ : Type} {f : State × γ → β → State × γ} (hf : ∀ a b, TableKeeps a.1 (f a b).1) (l : List β)
    (a : State × γ) : TableKeeps a.1 (l.foldl f a).1 := by
  induction l generalizing a with
  | nil => exact refl _
  | cons b l ih => exact (hf a b).trans (ih _)

end TableKeeps

/-! ### Plain writes -/

variable (s)

theorem raise_keeps (e : Event) : TableKeeps s (s.raise e) :=
  ⟨raise_tableStep s e, .of_eq rfl rfl rfl, rfl, rfl, rfl, fun h => eventsWf_raise h e, id, id, id, id, id, fun _ => id,
    loopFrom_of_eq rfl⟩

variable {s} in
theorem TableKeeps.raise {e : Event} (h : TableKeeps s t) : TableKeeps s (t.raise e) := h.trans (raise_keeps t e)

variable {s} in
theorem setStation_keeps {w : Nat} {e e' : Station} (he : s.station? w = some e)
    (h : stationWf w e = true → stationWf w e' = true) : TableKeeps s (s.setStation w e') := by
  have hst : s.stationsWf = true → (s.setStation w e').stationsWf = true := fun hs =>
    stationsWf_setStation hs (by simp [he]) (h (stationWf_of_station? hs he).2)
  refine ⟨setStation_tableStep s w e', .of_eq rfl rfl rfl, rfl, rfl, rfl, id, hst, id, id, id, fun hr => ?_, fun _ => id,
    loopFrom_of_eq rfl⟩
  obtain ⟨h1, h2, h3, h4, h5⟩ := resultsWf_iff.1 hr
  exact resultsWf_iff.2 ⟨h1, h2, hst h3, h4, h5⟩

variable {s} in
theorem putStation_keeps {w : Nat} {e e' : Station} (he : s.station? w = some e)
    (h : stationWf w e = true → stationWf w e' = true) : TableKeeps s (s.putStation w e') := setStation_keeps he h

variable {s} in
theorem setOcc_keeps {i : Nat} {o o' : Occ} (ho : s.occ? i = some o) (h : OccKeeps s o o') :
    TableKeeps s (s.setOcc i o') := by
  have hmem : (i, o) ∈ s.occs := mem_of_slotGet ho
  have hopens : ∀ j, (s.setOcc i o').opensAt j → s.opensAt j := by
    rintro j ⟨p, hp, hin⟩
    rw [occ?_setOcc] at hp
    split at hp
    · next e =>
      obtain rfl := Option.some.inj hp
      exact ⟨o, e ▸ ho, h.opens hin⟩
    · exact ⟨p, hp, hin⟩
  have hpool : PoolLaw s → PoolLaw (s.setOcc i o') := fun ⟨hslots, hgroups⟩ => by
    refine ⟨slotWf_slotSet hslots (key_lt_of_slotGet hslots ho) o', fun p hmem' => ?_⟩
    rcases mem_of_mem_slotSet hmem' with rfl | hmem'
    · exact h.groups (hgroups _ hmem)
    · exact hgroups p hmem'
  refine ⟨setOcc_tableStep s i o', .of_eq rfl rfl rfl, rfl, rfl, rfl, id, id, id, hpool, fun hs => ?_, fun hs => ?_, hopens,
    loopFrom_of_eq rfl⟩
  · have hlaw := recordsWf_iff.1 hs
    obtain ⟨hslots, hgroups⟩ := hpool ⟨hlaw.slots, hlaw.groups⟩
    refine recordsWf_iff.2 (hlaw.of_pool (setOcc_tableStep s i o') rfl hslots hgroups hopens fun j _ hj => ?_)
    · obtain ⟨p, hp, hin⟩ := hj
      by_cases hji : j = i
      · subst hji
        obtain rfl := Option.some.inj (hp.symm.trans ho)
        exact ⟨o', by simp, h.stays (hlaw.groups _ hmem) hin⟩
      · exact ⟨p, by simpa [hji] using hp, hin⟩
  · obtain ⟨h1, h2, h3, h4, h5⟩ := resultsWf_iff.1 hs
    refine resultsWf_iff.2 ⟨h1, h2, h3, h4, fun p hp => ?_⟩
    rcases mem_of_mem_slotSet hp with rfl | hp
    · exact h.ranges hs (h5 _ hmem)
    · exact h5 p hp

variable {s} in
theorem putOcc_keeps {i : Nat} {o o' : Occ} (ho : s.occ? i = some o) (h : OccKeeps s o o') :
    TableKeeps s (s.putOcc i o') := setOcc_keeps ho (h.trans (.of_eq rfl rfl rfl rfl))

/-- A record that may become FREE: in the scan any, and otherwise none whose window is open. -/
def State.mayFree (s : State) (i : Nat) : Prop := s.part = .starting ∨ s.isWindow i = false ∨ ¬s.opensAt i

variable {s} in
theorem TableKeeps.mayFree (h : TableKeeps s t) {i : Nat} (hi : s.mayFree i) : t.mayFree i := by
  rcases hi with hp | hw | ho
  · exact .inl (h.table.part.trans hp)
  · exact .inr (.inl ((h.table.isWindow_eq i).trans hw))
  · exact .inr (.inr fun hi => ho (h.opens i hi))

variable {s} in
theorem RecordsLaw.not_window_of_mayFree (h : RecordsLaw s) {i : Nat} (hi : s.mayFree i) : s.isWindow i = false := by
  rcases hi with hp | hw | ho
  · simp [State.isWindow, h.no_window_in_starting hp]
  · exact hw
  · unfold State.isWindow
    cases hw : s.window with
    | none => rfl
    | some w => exact decide_eq_false fun e => ho (e ▸ (h.window w hw).2.2)

theorem eraseOcc_keeps (i : Nat) (h : s.mayFree i) : TableKeeps s { s with occs := slotErase s.occs i } := by
  have htable : TableStep s { s with occs := slotErase s.occs i } := by constructor <;> rfl
  have hleft : ∀ j, j ≠ i → ({ s with occs := slotErase s.occs i } : State).occ? j = s.occ? j :=
    fun j hj => slotGet_slotErase_of_ne _ hj
  have hopens : ∀ j, ({ s with occs := slotErase s.occs i } : State).opensAt j → s.opensAt j := by
    rintro j ⟨o, ho, hin⟩
    have hne : j ≠ i := by
      rintro rfl
      simp [State.occ?] at ho
    exact ⟨o, (hleft j hne).symm.trans ho, hin⟩
  refine ⟨htable, .of_eq rfl rfl rfl, rfl, rfl, rfl, id, id, id, fun hp => ⟨slotWf_slotErase hp.1 i, fun p hmem =>
    hp.2 p (mem_of_mem_slotErase hmem).1⟩, fun hs => ?_, fun hs => ?_, hopens, loopFrom_of_eq rfl⟩
  · have hlaw := recordsWf_iff.1 hs
    refine recordsWf_iff.2 (hlaw.of_pool htable rfl (slotWf_slotErase hlaw.slots i)
      (fun p hp => hlaw.groups p (mem_of_mem_slotErase hp).1) hopens fun j hj ⟨o, ho, hin⟩ => ⟨o, ?_, hin⟩)
    have hne : j ≠ i := fun e => by
      rw [e, hlaw.not_window_of_mayFree h] at hj
      cases hj
    exact (hleft j hne).trans ho
  · obtain ⟨h1, h2, h3, h4, h5⟩ := resultsWf_iff.1 hs
    exact resultsWf_iff.2 ⟨h1, h2, h3, h4, fun p hp => h5 p (mem_of_mem_slotErase hp).1⟩

variable {s} in
theorem setLoop_keeps {l : Nat} {r r' : Loop} (hr : s.loop? l = some r) (h : LoopKeeps r r') :
    TableKeeps s (s.setLoop l r') := by
  refine ⟨setLoop_tableStep s l r', .of_eq rfl rfl rfl, rfl, rfl, rfl, id, id, fun hs => ?_, id, id, id, fun _ => id,
    fun j p hp => ?_⟩
  · exact loopsWf_setLoop hs (loopWf_of_loop? hs hr).1 (h.wf (loopWf_of_loop? hs hr).2)
  · rw [loop?_setLoop] at hp
    split at hp
    · next e =>
      obtain rfl := Option.some.inj hp
      exact ⟨r, e ▸ hr, h⟩
    · exact ⟨p, hp, .refl p⟩

variable {s} in
theorem putLoop_keeps {l : Nat} {r r' : Loop} (hr : s.loop? l = some r) (h : LoopKeeps r r') :
    TableKeeps s (s.putLoop l r') := setLoop_keeps hr (h.trans ⟨fun h => h, id, le_rfl⟩)

theorem freeLoop_keeps (l : Nat) : TableKeeps s (s.freeLoop l) :=
  ⟨freeLoop_tableStep s l, .of_eq rfl rfl rfl, rfl, rfl, rfl, id, id, fun hs => loopsWf_freeLoop hs l, id, id, id, fun _ => id,
    fun j p hp => ⟨p, by
      rw [loop?_freeLoop] at hp
      split at hp
      · cases hp
      · exact hp, .refl p⟩⟩

theorem expiryDue_keeps (l : List Nat) : TableKeeps s { s with expiryDue := l } :=
  ⟨by constructor <;> rfl, .of_eq rfl rfl rfl, rfl, rfl, rfl, id, id, id, id, id, id, fun _ => id,
    loopFrom_of_eq rfl⟩

theorem unwindow_keeps (i : Nat) : TableKeeps s (s.unwindow i) := by
  refine ⟨unwindow_tableStep s i, .of_eq rfl rfl rfl, rfl, rfl, rfl, id, id, id, id, fun hs => ?_, id, fun _ => id,
    loopFrom_of_eq rfl⟩
  have hlaw := recordsWf_iff.1 hs
  exact recordsWf_iff.2 (hlaw.of_pool (unwindow_tableStep s i) rfl hlaw.slots hlaw.groups (fun _ => id)
    fun _ _ => id)

/-- The report counts and notes; where the scan stands does not change. -/
theorem mapScan_keeps {f : Scan → Scan} (hf : ∀ c, (f c).stand = c.stand) :
    TableKeeps s { s with scan := s.scan.map f } := by
  have htable : TableStep s { s with scan := s.scan.map f } := by constructor <;> rfl
  have hscan : (s.scan.map f).map Scan.stand = s.scan.map Scan.stand := by
    cases s.scan <;> simp [hf]
  refine ⟨htable, .of_eq rfl rfl rfl, rfl, rfl, hscan, id, id, id, id, fun hs => ?_, id, fun _ => id,
    loopFrom_of_eq rfl⟩
  have hlaw := recordsWf_iff.1 hs
  exact recordsWf_iff.2 (hlaw.of_pool htable hscan hlaw.slots hlaw.groups (fun _ => id) fun _ _ => id)

theorem count_keeps (f : ScanCounts → ScanCounts) : TableKeeps s (s.count f) := mapScan_keeps s fun _ => rfl

/-! ### Tide tables -/

theorem mem_or_eq_of_mem_setIfInBounds {α : Type} {n k : Nat} {v : Vector α n} {a b : α} (h : a ∈ v.setIfInBounds k b) :
    a ∈ v ∨ a = b := by
  rw [← Vector.mem_toArray_iff, Vector.toArray_setIfInBounds] at h
  exact (Array.mem_or_eq_of_mem_setIfInBounds h).imp_left (Vector.mem_toArray_iff _ _).1

theorem siteWf_site (h : s.sitesWf = true) (k : Nat) : siteWf (s.site k) = true := by
  simp only [State.sitesWf, Bool.and_eq_true, List.all_eq_true] at h
  unfold State.site
  cases hk : s.sites[k]? with
  | none => decide
  | some c => exact h.2 c (by simpa using Vector.mem_of_getElem? hk)

theorem constituentWf_constituent (h : s.sitesWf = true) (k : Nat) : constituentWf (s.constituent k) = true := by
  simp only [State.sitesWf, Bool.and_eq_true, List.all_eq_true] at h
  unfold State.constituent
  cases hk : s.constituents[k]? with
  | none => decide
  | some c => exact h.1 c (by simpa using Vector.mem_of_getElem? hk)

variable {s} in
theorem sitesWf_setSite (h : s.sitesWf = true) (k : Nat) {c : Site} (hc : siteWf c = true) :
    (s.setSite k c).sitesWf = true := by
  simp only [State.sitesWf, Bool.and_eq_true, List.all_eq_true, Vector.mem_toList_iff] at h ⊢
  refine ⟨h.1, fun d hd => ?_⟩
  rcases mem_or_eq_of_mem_setIfInBounds hd with hd | rfl
  · exact h.2 d hd
  · exact hc

variable {s} in
theorem sitesWf_setConstituent (h : s.sitesWf = true) (k : Nat) {c : Constituent} (hc : constituentWf c = true) :
    (s.setConstituent k c).sitesWf = true := by
  simp only [State.sitesWf, Bool.and_eq_true, List.all_eq_true, Vector.mem_toList_iff] at h ⊢
  refine ⟨fun d hd => ?_, h.2⟩
  rcases mem_or_eq_of_mem_setIfInBounds hd with hd | rfl
  · exact h.1 d hd
  · exact hc

variable {s} in
theorem resultsWf_of_sites (h : s.resultsWf = true) (hs : t.sitesWf = true) (hc : t.constants = s.constants)
    (hst : t.stations = s.stations) (hr : t.recency = s.recency) (he : t.engine = s.engine) (ho : t.occs = s.occs) :
    t.resultsWf = true := by
  obtain ⟨h1, h2, h3, h4, h5⟩ := resultsWf_iff.1 h
  refine resultsWf_iff.2 ⟨?_, hs, ?_, he ▸ h4, ho ▸ h5⟩
  · rwa [State.constantsWf, hc]
  · have horder : ∀ k, t.order k = s.order k := fun k => by rw [State.order, State.order, hr]
    simpa only [State.stationsWf, State.station?, horder, hst, hr] using h3

theorem setSite_keeps (k : Nat) (b b' : Bool) : TableKeeps s (s.setSite k { s.site k with damaged := b, sound := b' }) := by
  refine ⟨setSite_tableStep s k _, ⟨rfl, fun j => ?_, fun _ => rfl⟩, rfl, rfl, rfl, id, id, id, id, id, fun hs => ?_, fun _ => id,
    loopFrom_of_eq rfl⟩
  · by_cases hj : j = k
    · subst hj
      by_cases hk : j < 8
      · rw [site_setSite_self _ hk]
      · simp [State.site, State.setSite, hk]
    · rw [site_setSite_of_ne _ hj]
  · exact resultsWf_of_sites hs (sitesWf_setSite (resultsWf_iff.1 hs).sites k
      (siteWf_site s (resultsWf_iff.1 hs).sites k)) rfl rfl rfl rfl rfl

theorem setConstituent_keeps (k : Nat) (b b' : Bool) :
    TableKeeps s (s.setConstituent k { s.constituent k with damaged := b, sound := b' }) := by
  refine ⟨setConstituent_tableStep s k _, ⟨rfl, fun _ => rfl, fun j => ?_⟩, rfl, rfl, rfl, id, id, id, id, id, fun hs => ?_,
    fun _ => id, loopFrom_of_eq rfl⟩
  · by_cases hj : j = k
    · subst hj
      by_cases hk : j < 12
      · rw [constituent_setConstituent_self _ hk]
      · simp [State.constituent, State.setConstituent, hk]
    · rw [constituent_setConstituent_of_ne _ hj]
  · exact resultsWf_of_sites hs (sitesWf_setConstituent (resultsWf_iff.1 hs).sites k
      (constituentWf_constituent s (resultsWf_iff.1 hs).sites k)) rfl rfl rfl rfl rfl

end Sys2Proof.Machine
end

