-- ==== Sys2Proof/Proofs/Invariants/SharedOperations.lean ====
section
/-! SUPPORT. The operations that several commands share keep the laws of the tables: the memory check, the lookups and marks,
the freeing of records, the voiding of loops, the undoing of a close, and the due loops (R2, R6, R26, R31, R114, R123, R127,
R128). -/

namespace Sys2Proof.Machine

open Sys2Proof

variable (s : State)

/-! ### The memory check (R2, R32, R92, R111, R204) -/

theorem checkStation_keeps (w : Nat) : TableKeeps s (s.checkStation w) := by
  unfold State.checkStation
  split
  · next e he =>
    split
    · exact .refl s
    · exact .raise (setStation_keeps he fun h => h)
  · exact .refl s

theorem checkOcc_keeps (i : Nat) : TableKeeps s (s.checkOcc i) := by
  unfold State.checkOcc
  split
  · next o ho =>
    split
    · exact .refl s
    · exact .raise (setOcc_keeps ho (.of_eq rfl rfl rfl rfl))
  · exact .refl s

theorem checkLoop_keeps (l : Nat) : TableKeeps s (s.checkLoop l) := by
  unfold State.checkLoop
  split
  · next r hr =>
    split
    · exact .refl s
    · exact .raise (setLoop_keeps hr ⟨fun h => h, id, le_rfl⟩)
  · exact .refl s

theorem checkConstituent_keeps (k : Nat) : TableKeeps s (s.checkConstituent k) := by
  unfold State.checkConstituent
  dsimp only
  split
  · exact .refl s
  · exact .raise (setConstituent_keeps s k _ _)

theorem checkSite_keeps (k : Nat) : TableKeeps s (s.checkSite k) := by
  unfold State.checkSite
  dsimp only
  split
  · exact .refl s
  · exact .raise (setSite_keeps s k _ _)

theorem checkStations_keeps (ws : List Nat) : TableKeeps s (s.checkStations ws) := .foldl checkStation_keeps ws s

theorem checkOccs_keeps (is : List Nat) : TableKeeps s (s.checkOccs is) := .foldl checkOcc_keeps is s

theorem checkPool_keeps : TableKeeps s s.checkPool := checkOccs_keeps s _

theorem checkNaming_keeps (is : List Nat) : TableKeeps s (s.checkNaming is) := by
  unfold State.checkNaming
  split
  · exact checkOccs_keeps s is
  · exact .refl s

theorem checkLoops_keeps : TableKeeps s s.checkLoops := .foldl checkLoop_keeps _ s

/-! ### Lookups and marks (R6, R8, R26) -/

theorem suspect_keeps (w : Nat) : TableKeeps s (s.suspect w) := by
  unfold State.suspect
  split
  · next e he =>
    split
    · exact .refl s
    · exact putStation_keeps he fun h => h
  · exact .refl s

theorem activate_keeps (w : Nat) : TableKeeps s (s.activate w) := by
  unfold State.activate
  split
  · next e he =>
    split
    · exact .refl s
    · exact putStation_keeps he fun h => h
  · exact .refl s

theorem keyedLookup_keeps (n : Nat) : TableKeeps s (s.keyedLookup n).1 := by
  have h := checkStations_keeps s (waysOf n)
  unfold State.keyedLookup
  dsimp only
  split
  · exact h
  · split
    · split
      · exact h
      · exact h.trans (activate_keeps _ _)
    · exact h
  · exact h.trans (.foldl suspect_keeps _ _)

theorem internalLookup_keeps (n : Nat) : TableKeeps s (s.internalLookup n).1 := checkStations_keeps s (waysOf n)

theorem Scan.stand_mark (c : Scan) (w : Nat) : (c.mark w).stand = c.stand := by
  unfold Scan.mark
  split <;> rfl

theorem noteMark_keeps (w : Nat) : TableKeeps s (s.noteMark w) := by
  unfold State.noteMark
  split
  · exact mapScan_keeps s fun c => c.stand_mark w
  · exact .refl s

variable {s} in
theorem putChanged_keeps {w : Nat} {e e' : Station} (he : s.station? w = some e)
    (h : stationWf w e = true → stationWf w e' = true) : TableKeeps s (s.putChanged w e') :=
  .trans (putStation_keeps (e' := { e' with changed := true }) he h) (noteMark_keeps _ w)

theorem markChanged_keeps (w : Nat) : TableKeeps s (s.markChanged w) := by
  unfold State.markChanged
  split
  · next e he => exact putChanged_keeps he id
  · exact .refl s

theorem markOwner_keeps (n i : Nat) : TableKeeps s (s.markOwner n i) := by
  have h := checkStations_keeps s (waysOf n)
  unfold State.markOwner
  dsimp only
  split
  · exact h.trans (markChanged_keeps _ _)
  · exact h

theorem markRecord_keeps (n i : Nat) : TableKeeps s (s.markRecord n i) := by
  have h := internalLookup_keeps s n
  unfold State.markRecord
  split
  · exact markOwner_keeps s n i
  · split
    · next e =>
      rw [e] at h
      exact h.trans (markChanged_keeps _ _)
    · next e =>
      rw [e] at h
      exact h

/-! ### Freeing (R31) -/

/-- A shorter list is a list of at most 8. -/
theorem stationWf_of_length_le {w : Nat} {e : Station} {l : List Nat} (h : stationWf w e = true)
    (hl : l.length ≤ e.list.length) : stationWf w { e with list := l } = true := by
  simp only [stationWf, Bool.and_eq_true, decide_eq_true_eq] at h ⊢
  exact ⟨h.1, hl.trans h.2⟩

/-- A loop may lose members. -/
theorem LoopKeeps.of_members {r : Loop} {l : List Nat} (hl : l.length ≤ r.members.length) :
    LoopKeeps r { r with members := l } := by
  refine ⟨fun h => ?_, id, hl⟩
  simp only [loopWf, Bool.and_eq_true, decide_eq_true_eq] at h ⊢
  obtain ⟨⟨⟨⟨⟨⟨h1, h2⟩, h3⟩, h4⟩, h5⟩, h6⟩, h7⟩ := h
  exact ⟨⟨⟨⟨⟨⟨hl.trans h1, h2⟩, h3⟩, h4⟩, h5⟩, h6⟩, h7⟩

theorem unlist_keeps (i w : Nat) : TableKeeps s (State.unlist i s w) := by
  have h := checkStation_keeps s w
  unfold State.unlist
  dsimp only
  split
  · next e he =>
    split
    · exact h.trans (putChanged_keeps he fun k => stationWf_of_length_le k (List.length_filter_le _ _))
    · exact h
  · exact h

theorem unmember_keeps (i l : Nat) : TableKeeps s (State.unmember i s l) := by
  unfold State.unmember
  split
  · split
    · have h := checkLoop_keeps s l
      dsimp only
      split
      · next r hr =>
        split
        · exact h
        · exact h.trans (putLoop_keeps hr (.of_members (List.length_filter_le _ _)))
      · exact h
    · exact .refl s
  · exact .refl s

/-- R31: the record leaves the lists of the given ways and of the loops. -/
def State.unlisted (s : State) (ways : List Nat) (i : Nat) : State :=
  let s := ways.foldl (State.unlist i) s
  (slotKeys s.loops).foldl (State.unmember i) s

theorem freeOcc_eq (ws : List Nat) (i : Nat) :
    s.freeOcc ws i = { s.unlisted ws i with occs := slotErase (s.unlisted ws i).occs i } := rfl

theorem unlisted_keeps (ws : List Nat) (i : Nat) : TableKeeps s (s.unlisted ws i) :=
  (TableKeeps.foldl (fun s w => unlist_keeps s i w) ws s).trans (.foldl (fun s l => unmember_keeps s i l) _ _)

variable {s} in
theorem freeOcc_keeps (ws : List Nat) {i : Nat} (h : s.mayFree i) : TableKeeps s (s.freeOcc ws i) := by
  have hk := unlisted_keeps s ws i
  exact hk.trans (eraseOcc_keeps _ i (hk.mayFree h))

/-! ### Voiding (R127, R128) -/

theorem voidMember_keeps (i : Nat) : TableKeeps s (s.voidMember i) := by
  have h := (checkOcc_keeps s i).trans (unwindow_keeps _ i)
  unfold State.voidMember
  dsimp only
  split
  · next o ho =>
    have hput := h.trans (putOcc_keeps (o' := { dropDrift o with memberOf := none }) ho
      ((dropDrift_keeps o).trans (.of_eq rfl rfl rfl rfl)))
    split
    · exact hput
    · exact hput.trans (markOwner_keeps _ _ _)
  · exact h

theorem voidOpenEnd_keeps (l i : Nat) : TableKeeps s (s.voidOpenEnd l i) := by
  have h := checkOcc_keeps s i
  unfold State.voidOpenEnd
  dsimp only
  split
  · next o ho =>
    split
    · have hput := h.trans (putOcc_keeps (o' := { o with opens := none }) ho (.of_eq rfl rfl rfl rfl))
      split
      · exact hput
      · exact hput.trans (markOwner_keeps _ _ _)
    · exact h
  · exact h

theorem voidSound_keeps (l : Nat) : TableKeeps s (s.voidSound l) := by
  unfold State.voidSound
  split
  · exact ((TableKeeps.foldl voidMember_keeps _ _).trans (voidOpenEnd_keeps _ _ _)).trans (freeLoop_keeps _ _)
  · exact .refl s

theorem gatheredDrift_keeps {s : State} (b : Bool) (o : Occ) : OccKeeps s o (gatheredDrift b o) := by
  unfold gatheredDrift
  split
  · exact .of_eq rfl rfl rfl rfl
  split
  · exact withoutDrift_keeps o
  · exact dropDrift_keeps o

theorem ungather_keeps (l i : Nat) : TableKeeps s (State.ungather l s i) := by
  unfold State.ungather
  split
  · next o ho =>
    dsimp only
    refine TableKeeps.trans ?_ (markRecord_keeps _ _ _)
    split
    · exact (unwindow_keeps s i).trans (putOcc_keeps ho ((gatheredDrift_keeps _ o).trans (.of_eq rfl rfl rfl rfl)))
    · exact putOcc_keeps ho (.of_eq rfl rfl rfl rfl)
  · exact .refl s

theorem voidDamaged_keeps (l : Nat) : TableKeeps s (s.voidDamaged l) :=
  ((checkPool_keeps s).trans (.foldl (fun s i => ungather_keeps s l i) _ _)).trans (freeLoop_keeps _ _)

/-! ### Undoing a close (R123, R151) -/

theorem undone_keeps {s : State} {o o' : Occ} (h : undone o = some o') : OccKeeps s o o' := by
  unfold undone at h
  split at h
  · obtain rfl := Option.some.inj h
    exact (dropDrift_keeps o).trans (.of_eq rfl rfl rfl rfl)
  split at h
  · obtain rfl := Option.some.inj h
    exact withoutDrift_keeps o
  · cases h

theorem undoRecord_keeps {a : State × List Nat} {i : Nat} {o : Occ} (ho : a.1.occ? i = some o) :
    TableKeeps a.1 (undoRecord a i o).1 := by
  unfold undoRecord
  split
  · next o' ho' =>
    have hput := putOcc_keeps ho (undone_keeps ho')
    dsimp only
    split
    · exact hput.trans (unwindow_keeps _ _)
    · exact hput.trans (markRecord_keeps _ _ _)
  · exact .refl _

theorem dropMember_keeps (l i : Nat) : TableKeeps s (s.dropMember l i) := by
  unfold State.dropMember
  split
  · next r hr => exact putLoop_keeps hr (.of_members (List.length_filter_le _ _))
  · exact .refl s

theorem undoMember_keeps (l : Nat) (a : State × List Nat) (i : Nat) : TableKeeps a.1 (undoMember l a i).1 := by
  have h := checkOcc_keeps a.1 i
  unfold undoMember
  dsimp only
  split
  · next o ho =>
    have k := h.trans (undoRecord_keeps (a := (a.1.checkOcc i, a.2)) ho)
    split
    · exact k.trans (dropMember_keeps _ _ _)
    · exact k
  · exact h

theorem undoGathered_keeps (l : Nat) (a : State × List Nat) (i : Nat) : TableKeeps a.1 (undoGathered l a i).1 := by
  unfold undoGathered
  split
  · next o ho =>
    split
    · exact undoRecord_keeps ho
    · exact .refl _
  · exact .refl _

/-- R109, R123: a loop that is not CLOSED has no ΔV and no rate, so it may be OPEN or EXPIRED again. -/
theorem LoopKeeps.of_reopen {r : Loop} {st : LoopState} (h : r.state ≠ .closed) (hst : st = .expired ∨ st = .opened) :
    LoopKeeps r { r with state := st, closing := none, mode := none, driftHigh := false } := by
  obtain ⟨hopen, hnot⟩ : closeState st = false ∧ st ≠ .closed := by
    rcases hst with rfl | rfl <;> exact ⟨rfl, nofun⟩
  refine ⟨fun hr => ?_, fun hc => absurd hc hnot, le_rfl⟩
  simp only [loopWf, Bool.and_eq_true, decide_eq_true_eq, decide_eq_false h] at hr ⊢
  obtain ⟨⟨⟨⟨⟨⟨h1, -⟩, -⟩, h4⟩, h5⟩, h6⟩, h7⟩ := hr
  exact ⟨⟨⟨⟨⟨⟨h1, hopen.symm⟩, hopen.symm⟩, h4.trans (decide_eq_false hnot).symm⟩,
    h5.trans (decide_eq_false hnot).symm⟩, h6⟩, h7⟩

theorem reopen_keeps {s : State} {l : Nat} (h : ∀ r, s.loop? l = some r → r.state ≠ .closed) :
    TableKeeps s (s.reopen l) := by
  unfold State.reopen
  split
  · next r hr =>
    dsimp only
    split
    · exact .raise (putLoop_keeps hr (.of_reopen (h r hr) (.inl rfl)))
    · exact putLoop_keeps hr (.of_reopen (h r hr) (.inr rfl))
  · exact .refl s

/-- R123: a loop found CLOSING is not CLOSED once its members are undone. -/
theorem undoClose_keeps (l : Nat) : TableKeeps s (s.undoClose l).1 := by
  have h := checkLoop_keeps s l
  unfold State.undoClose
  dsimp only
  split
  · next r hr =>
    split
    · exact (h.trans (checkPool_keeps _)).trans (.foldl_fst (undoGathered_keeps l) _ (_, _))
    split
    · next hst =>
      have hfold : TableKeeps (s.checkLoop l) (r.members.foldl (undoMember l) (s.checkLoop l, [])).1 :=
        .foldl_fst (undoMember_keeps l) _ (_, _)
      refine (h.trans hfold).trans (reopen_keeps fun r' hr' hc => ?_)
      obtain ⟨r₀, hr₀, hk⟩ := hfold.loopFrom l r' hr'
      obtain rfl := Option.some.inj (hr.symm.trans hr₀)
      have := hk.closed hc
      rw [hst] at this
      cases this
    · exact h
  · exact h

/-! ### Windows and expiry -/

theorem setUnqueued_keeps (i : Nat) : TableKeeps s (s.setUnqueued i) := by
  unfold State.setUnqueued
  split
  · next o ho => exact putOcc_keeps ho (.of_eq rfl rfl rfl rfl)
  · exact .refl s

/-- R114: a loop in OPEN may be EXPIRED. -/
theorem LoopKeeps.of_expired {r : Loop} (h : r.state = .opened) : LoopKeeps r { r with state := .expired } := by
  refine ⟨fun hr => ?_, nofun, le_rfl⟩
  rw [loopWf, h] at hr
  exact hr

theorem opened_of_expiring {s : State} {l : Nat} {r : Loop} (hr : s.loop? l = some r) (h : s.expiring l = true) :
    r.state = .opened := by
  rw [State.expiring, hr] at h
  simp only [Bool.and_eq_true, decide_eq_true_eq] at h
  exact h.1.1

theorem takeExpiry_keeps (l : Nat) : TableKeeps s (s.takeExpiry l) := by
  have h := (expiryDue_keeps s (s.expiryDue.filter (· ≠ l))).trans (checkLoop_keeps _ l)
  unfold State.takeExpiry
  split
  · dsimp only
    split
    · next r hr =>
      split
      · next hdue => exact h.trans (.raise (putLoop_keeps hr (.of_expired (opened_of_expiring hr hdue))))
      · exact h
    · exact h
  · exact .refl s

theorem expiryCheck_keeps : TableKeeps s s.expiryCheck :=
  (TableKeeps.foldl checkLoop_keeps s.openLoops s).trans (expiryDue_keeps _ _)

/-! ### Released members (R129) -/

theorem releasedOcc_keeps {s : State} (o : Occ) : OccKeeps s o (releasedOcc o) := by
  by_cases hd : o.drift.isSome
  · have hst : (releasedOcc o).state = .final := by simp [releasedOcc, hd]
    have hout : inWindow (releasedOcc o) = false := by simp [inWindow, hst]
    refine ⟨fun h => ?_, fun h => ?_, fun h hin => ?_, fun _ h => h⟩
    · have hlaw := occWf_iff.1 h
      refine occWf_iff.2 ⟨fun h => ?_, fun _ => hlaw.outside (hlaw.not_inWindow_of_drift hd), fun h => ?_,
        fun _ => hlaw.drift hd, hlaw.drift⟩
      · rw [hout] at h
        cases h
      · rw [hst] at h
        cases h
    · rw [hout] at h
      cases h
    · rw [(occWf_iff.1 h).not_inWindow_of_drift hd] at hin
      cases hin
  · have hst : (releasedOcc o).state = o.state := by simp [releasedOcc, hd]
    exact .of_eq hst rfl rfl rfl

theorem releaseMember_keeps (a : State × Nat) (i : Nat) : TableKeeps a.1 (releaseMember a i).1 := by
  have h := checkOcc_keeps a.1 i
  unfold releaseMember
  dsimp only
  split
  · next o ho =>
    split
    · exact h.trans (putOcc_keeps (o' := { withoutDrift o with memberOf := none }) ho
        ((withoutDrift_keeps o).trans (.of_eq rfl rfl rfl rfl)))
    · exact (h.trans (putOcc_keeps ho (releasedOcc_keeps o))).trans (markOwner_keeps _ _ _)
  · exact h

end Sys2Proof.Machine
end

