-- ==== Sys2Proof/Proofs/Invariants/Ranges.lean ====
section
/-! SUPPORT. What a reduction and a drift step write lies within the stored ranges (R74 to R83, R102, R119 to R121). -/

namespace Sys2Proof.Machine

open Sys2Proof

variable {s t : State}

/-! ### Held values (R74, R78, R80, R81) -/

theorem validGravity_saturate (z : Int) : validGravity (saturate z) = true :=
  inRange_clampTo (by decide) z

theorem inRange_within {lo hi : Int} (h : lo ≤ hi) (free : Int → Int) (z : Int) :
    inRange lo hi (within lo hi free z) = true := by
  unfold within
  split
  · next hz => exact hz
  · exact inRange_clampTo h _

theorem withinNoise_le (k : Nat) : withinNoise k ≤ Config.noiseBound := by
  unfold withinNoise
  split
  · next hk => exact hk
  · exact Nat.min_le_left _ _

theorem noiseOf_inRange (c : ConstNums) (m : Sums) : optAll (· ≤ 134217727) (noiseOf c m) = true := by
  unfold noiseOf
  split
  · rfl
  · rw [optAll, decide_eq_true_iff]
    exact withinNoise_le _

theorem tempCorrection_inRange (c : ConstNums) (m : Sums) : inRange (-3276700) 3276700 (tempCorrection c m) = true := by
  unfold tempCorrection
  split
  · exact inRange_within (by decide) _ _
  · rfl

/-! ### The tide answer (R99, R102) -/

/-- R91: twelve amplitudes of at most 2,000. -/
theorem amplitudeSum_le {c : Site} (h : siteWf c = true) : amplitudeSum c ≤ 24000 := by
  simp only [siteWf, pairsInRange, Bool.and_eq_true, decide_eq_true_eq, List.all_eq_true] at h
  obtain ⟨⟨-, hlength⟩, hpairs⟩ := h
  have hsum := List.sum_le_card_nsmul (c.pairs.map Prod.fst) 2000 fun a ha => by
    obtain ⟨p, hp, rfl⟩ := List.mem_map.1 ha
    exact (hpairs p hp).1
  rw [amplitudeSum_eq_sum]
  simpa [hlength] using hsum

theorem tideAnswer_natAbs_le {c : Site} {epoch : Nat} {tide : Option Int} (hc : siteWf c = true)
    (h : tideAnswer s c epoch = .ok tide) (v : Int) (hv : tide = some v) : v.natAbs ≤ 24000 := by
  unfold tideAnswer at h
  split at h
  · obtain ⟨-, -, h⟩ := bind_eq_ok.1 h
    obtain rfl := Except.ok.inj h
    obtain rfl := Option.some.inj hv
    exact (tideValue_natAbs_le _ _ _).trans (amplitudeSum_le hc)
  · obtain rfl := Except.ok.inj h
    cases hv

/-! ### What a reduction writes (R75, R84 to R86) -/

theorem tideCorrection_inRange {tide : Option Int} (h : ∀ v, tide = some v → v.natAbs ≤ 24000) :
    inRange (-24000) 24000 (tideCorrection tide) = true := by
  rw [inRange_iff]
  cases tide with
  | none => decide
  | some v =>
    have := h v rfl
    simp only [tideCorrection]
    omega

theorem resultsInRange_resultsOf {c : Constants} {m : Sums} {tide : Option Int} {k rev : Nat} (hc : c.revision < 65536)
    (hk : k < 8) (hrev : rev < 65536) (ht : ∀ v, tide = some v → v.natAbs ≤ 24000) :
    resultsInRange (resultsOf c m tide k rev) = true := by
  simp only [resultsInRange, resultsOf, Bool.and_eq_true]
  exact ⟨⟨⟨⟨⟨⟨⟨⟨validGravity_saturate _, noiseOf_inRange _ _⟩, inRange_within (by decide) _ _⟩,
    tempCorrection_inRange _ _⟩, tideCorrection_inRange ht⟩, validGravity_saturate _⟩, decide_eq_true (Nat.lt_succ_iff.1 hc)⟩,
    decide_eq_true hk⟩, decide_eq_true (Nat.lt_succ_iff.1 hrev)⟩

theorem driftInRange_redrift {v : Int} {d : DriftPart} (h : driftInRange d = true) :
    driftInRange (redrift v d) = true := by
  simp only [driftInRange, Bool.and_eq_true] at h ⊢
  obtain ⟨⟨⟨⟨h1, -⟩, h3⟩, h4⟩, h5⟩ := h
  exact ⟨⟨⟨⟨h1, validGravity_saturate _⟩, h3⟩, h4⟩, h5⟩

/-- R84 to R86: a record out of its window may be reduced. -/
theorem reducedOcc_keeps {o : Occ} {c : Constants} {m : Sums} {tide : Option Int} {k rev : Nat}
    (hm : o.reading.isSome = true)
    (hr : s.resultsWf = true → resultsInRange (resultsOf c m tide k rev) = true) :
    OccKeeps s o (reducedOcc o c m tide k rev) := by
  have hst : (reducedOcc o c m tide k rev).state = if o.state = .pending then .reduced else o.state := rfl
  have hin : inWindow (reducedOcc o c m tide k rev) = inWindow o := by
    simp only [inWindow, hst]
    split
    · next h => simp [h]
    · rfl
  refine ⟨fun h => ?_, fun h => hin ▸ h, fun _ h => hin ▸ h, fun hs h => ?_⟩
  · have hout : inWindow o = false := by
      rw [← Bool.not_eq_true]
      intro h'
      rw [((occWf_iff.1 h).inside h').1] at hm
      cases hm
    refine occWf_iff.2 ⟨fun h' => ?_, fun _ => hm, fun h' => ?_, fun _ => rfl, fun _ => rfl⟩
    · rw [hin, hout] at h'
      cases h'
    · rw [hst] at h'
      split at h'
      · cases h'
      · contradiction
  · simp only [occInRange, Bool.and_eq_true] at h ⊢
    refine ⟨hr hs, ?_⟩
    show optAll driftInRange (o.drift.map (redrift _)) = true
    cases hd : o.drift with
    | none => rfl
    | some d =>
      rw [hd] at h
      exact driftInRange_redrift h.2

/-! ### What a drift step writes (R119 to R122, R126) -/

theorem driftInRange_driftPartOf {d : DriftCalc} (h : calcWf d = true) (v : Int) (t : Nat) :
    driftInRange (driftPartOf d v t) = true := by
  simp only [calcWf, driftInRange, driftPartOf, Bool.and_eq_true] at h ⊢
  exact ⟨⟨⟨⟨validGravity_saturate _, validGravity_saturate _⟩, h.1⟩, h.2⟩, validGravity_saturate _⟩

/-- R121: a REDUCED record may take a drift part. -/
theorem driftedOcc_keeps {o : Occ} {d : DriftCalc} (ho : o.state = .reduced) (hd : s.resultsWf = true → calcWf d = true)
    (v : Int) (t : Nat) : OccKeeps s o (driftedOcc o d v t) := by
  refine ⟨fun h => ?_, id, fun _ => id, fun hs h => ?_⟩
  · have hlaw := occWf_iff.1 h
    exact occWf_iff.2 ⟨hlaw.inside, hlaw.outside, hlaw.pending, hlaw.reduced, fun _ => hlaw.reduced (.inl ho)⟩
  · simp only [occInRange, Bool.and_eq_true] at h ⊢
    exact ⟨h.1, driftInRange_driftPartOf (hd hs) v t⟩

theorem validGravity_endValue (hs : s.resultsWf = true) {i : Nat} {o : Occ} (ho : s.occ? i = some o) :
    validGravity (endValue i o) = true := by
  have h := occInRange_of_occ? hs ho
  unfold endValue
  cases hr : o.results with
  | none => exact validGravity_saturate _
  | some r =>
    simp only [occInRange, hr, optAll, resultsInRange, Bool.and_eq_true] at h
    exact h.1.1.1.1.2

/-- R122, R131: the stored ΔV and rate of a loop that is CLOSED, or becomes so. -/
theorem loopWf_storeDrift {r : Loop} (h : loopWf r = true) (hc : closeState r.state = true) (d : DriftCalc) :
    loopWf { storeDrift r d with state := .closed } = true := by
  simp only [loopWf, storeDrift, Bool.and_eq_true, hc] at h ⊢
  obtain ⟨⟨⟨⟨⟨⟨h1, h2⟩, h3⟩, -⟩, -⟩, -⟩, -⟩ := h
  exact ⟨⟨⟨⟨⟨⟨h1, h2⟩, h3⟩, rfl⟩, rfl⟩, validGravity_saturate _⟩, validGravity_saturate _⟩

end Sys2Proof.Machine
end

