-- ==== Sys2Proof/Proofs/Invariants/EngineReads.lean ====
section
/-! SUPPORT. The reads and the reductions of the engine keep the laws of the tables (R8, R85, R87, R119 to R121). -/

namespace Sys2Proof.Machine

open Sys2Proof

variable {s t u : State} {f g : Flight}

/-! ### Reads that go on -/

/-- The reads of the engine that go on raise events, and change nothing else. -/
structure RaisesOnly (s t : State) : Prop where
  keeps : TableKeeps s t
  rest : t = { s with events := t.events }

theorem RaisesOnly.refl (s : State) : RaisesOnly s s := ⟨.refl s, rfl⟩

theorem RaisesOnly.trans (h : RaisesOnly s t) (k : RaisesOnly t u) : RaisesOnly s u :=
  ⟨h.keeps.trans k.keeps, k.rest.trans (by rw [h.rest])⟩

theorem raise_raisesOnly (s : State) (e : Event) : RaisesOnly s (s.raise e) := ⟨raise_keeps s e, rfl⟩

theorem RaisesOnly.occ?_eq (h : RaisesOnly s t) (i : Nat) : t.occ? i = s.occ? i := by
  rw [h.rest]
  rfl

theorem RaisesOnly.loop?_eq (h : RaisesOnly s t) (l : Nat) : t.loop? l = s.loop? l := by
  rw [h.rest]
  rfl

theorem readWays_raisesOnly {ws : List Nat} (h : readWays ws s = .ok t) : RaisesOnly s t := by
  induction ws generalizing s with
  | nil =>
    obtain rfl := Except.ok.inj h
    exact .refl s
  | cons w ws ih =>
    unfold readWays at h
    split at h
    · split at h
      · exact ih h
      split at h
      · exact (raise_raisesOnly s _).trans (ih h)
      · cases h
    · exact ih h

theorem engineLookup_raisesOnly {n : Nat} {r : State × Option Nat} (h : engineLookup s n = .ok r) :
    RaisesOnly s r.1 := by
  obtain ⟨u, hu, h⟩ := bind_eq_ok.1 h
  obtain rfl := Except.ok.inj h
  exact readWays_raisesOnly hu

theorem closedLoopsOf_raisesOnly {i : Nat} {ls : List Nat} {r : State × List Nat} (h : closedLoopsOf i ls s = .ok r) :
    RaisesOnly s r.1 := by
  induction ls generalizing s r with
  | nil =>
    obtain rfl := Except.ok.inj h
    exact .refl s
  | cons l ls ih =>
    unfold closedLoopsOf at h
    split at h
    · split at h
      · exact (raise_raisesOnly s _).trans (ih h)
      split at h
      · obtain ⟨⟨v, found⟩, hv, h⟩ := bind_eq_ok.1 h
        obtain rfl := Except.ok.inj h
        have hv' := ih hv
        exact hv'
      · cases h
    · exact ih h

theorem referenceOf_raisesOnly {n : Nat} {r : State × Option Nat} (h : referenceOf s n = .ok r) : RaisesOnly s r.1 := by
  obtain ⟨⟨v, way⟩, hl, h⟩ := bind_eq_ok.1 h
  obtain rfl := Except.ok.inj h
  have hv := engineLookup_raisesOnly hl
  exact hv

theorem engineMarks_raisesOnly {o : Occ} {r : Results} {x : State × Option (Bool × Bool)}
    (h : engineMarks s o r = .ok x) : RaisesOnly s x.1 := by
  obtain ⟨⟨v, way⟩, hl, h⟩ := bind_eq_ok.1 h
  have hv := engineLookup_raisesOnly hl
  dsimp only at h
  split at h
  · simp only [bind_eq_ok, Except.ok.injEq] at h
    obtain ⟨site, -, c, -, rfl⟩ := h
    exact hv
  · obtain rfl := Except.ok.inj h
    exact hv

/-! ### What a read that goes on finds -/

theorem needOcc_eq_some {i : Nat} {o : Occ} (h : needOcc s i = .ok (some o)) : s.occ? i = some o := by
  unfold needOcc at h
  split at h
  · next o' ho =>
    split at h
    · obtain rfl := Option.some.inj (Except.ok.inj h)
      exact ho
    · cases h
  · cases Except.ok.inj h

theorem needLoop_eq_some {l : Nat} {r : Loop} (h : needLoop s l = .ok (some r)) : s.loop? l = some r := by
  unfold needLoop at h
  split at h
  · next r' hr =>
    split at h
    · obtain rfl := Option.some.inj (Except.ok.inj h)
      exact hr
    · cases h
  · cases Except.ok.inj h

theorem needConstants_eq_ok {c : Constants} (h : needConstants s = .ok c) : c = s.constants := by
  unfold needConstants at h
  split at h
  · exact (Except.ok.inj h).symm
  · cases h

theorem needSite_eq_ok {k : Nat} {c : Site} (h : needSite s k = .ok c) : c = s.site k := by
  unfold needSite at h
  dsimp only at h
  split at h
  · exact (Except.ok.inj h).symm
  · cases h

/-! ### One reduction (R76, R85) -/

theorem revision_lt_of_constantsWf (h : s.constantsWf = true) : s.constants.revision < 65536 := by
  simp only [State.constantsWf, Bool.and_eq_true, decide_eq_true_eq] at h
  exact h.2

theorem revision_lt_of_siteWf {c : Site} (h : siteWf c = true) : c.revision < 65536 := by
  simp only [siteWf, Bool.and_eq_true, decide_eq_true_eq] at h
  exact h.1.1

theorem site_lt_of_stationWf {w : Nat} {e : Station} (h : stationWf w e = true) : e.site < 8 := by
  simp only [stationWf, Bool.and_eq_true, decide_eq_true_eq] at h
  exact h.1.1.1.2

theorem reference_of_stationWf {w : Nat} {e : Station} (h : stationWf w e = true) : optAll validReference e.reference = true := by
  simp only [stationWf, Bool.and_eq_true, decide_eq_true_eq] at h
  exact h.1.1.2

/-- R85: the results of a reduction lie within their ranges, where the constants, the sites and the stations do. -/
theorem resultsInRange_of_reads (hs : s.resultsWf = true) {w epoch : Nat} {e : Station} {m : Sums} {tide : Option Int}
    (he : s.station? w = some e) (ht : tideAnswer s (s.site e.site) epoch = .ok tide) :
    resultsInRange (resultsOf s.constants m tide e.site (s.site e.site).revision) = true := by
  have hlaw := resultsWf_iff.1 hs
  have hsite := siteWf_site s hlaw.sites e.site
  exact resultsInRange_resultsOf (revision_lt_of_constantsWf hlaw.constants)
    (site_lt_of_stationWf (stationWf_of_station? hlaw.stations he).2) (revision_lt_of_siteWf hsite)
    (tideAnswer_natAbs_le hsite ht)

theorem StationsScan.occ?_eq (h : StationsScan s t) (i : Nat) : t.occ? i = s.occ? i := by
  obtain ⟨x, y, rfl, -⟩ := h
  rfl

theorem StationsScan.loop?_eq (h : StationsScan s t) (l : Nat) : t.loop? l = s.loop? l := by
  obtain ⟨x, y, rfl, -⟩ := h
  rfl

/-- R85: what a reduction that goes on does: it writes the record, with its state, or raises events alone. -/
theorem reduceRecord_cases {i : Nat} {o : Occ} {r : State × Bool} (h : reduceRecord s i o = .ok r) :
    (∃ u c w m tide k rev, RaisesOnly s u ∧ o.reading.isSome = true ∧
      (u.resultsWf = true → resultsInRange (resultsOf c m tide k rev) = true) ∧
      r = ((u.putOcc i (reducedOcc o c m tide k rev)).markChanged w, true)) ∨
    RaisesOnly s r.1 ∧ r.2 = false := by
  simp only [reduceRecord, bind_eq_ok] at h
  obtain ⟨-, -, c, hc, ⟨u, way⟩, hl, h⟩ := h
  have hu : RaisesOnly s u := engineLookup_raisesOnly hl
  split at h
  · next w e m hw hm =>
    simp only [bind_eq_ok, Except.ok.injEq] at h
    obtain ⟨site, hsite, tide, htide, rfl⟩ := h
    obtain ⟨v, -, hv⟩ := Option.bind_eq_some_iff.1 hw
    obtain ⟨e', he, hpair⟩ := Option.map_eq_some_iff.1 hv
    obtain ⟨rfl, rfl⟩ := Prod.mk.inj hpair
    obtain rfl := needSite_eq_ok hsite
    have hconst : c = u.constants := (needConstants_eq_ok hc).trans hu.keeps.constants.symm
    subst hconst
    exact .inl ⟨u, _, _, _, _, _, _, hu, by simp [hm], fun hs => resultsInRange_of_reads hs he htide, rfl⟩
  · obtain rfl := Except.ok.inj h
    exact .inr ⟨hu, rfl⟩

theorem reduceRecord_keeps {i : Nat} {o : Occ} {r : State × Bool} (ho : s.occ? i = some o)
    (h : reduceRecord s i o = .ok r) : TableKeeps s r.1 := by
  rcases reduceRecord_cases h with ⟨u, c, w, m, tide, k, rev, hu, hm, hres, rfl⟩ | ⟨hu, -⟩
  · exact (hu.keeps.trans (putOcc_keeps ((hu.occ?_eq i).trans ho) (reducedOcc_keeps hm hres))).trans
      (markChanged_keeps _ _)
  · exact hu.keeps

/-- R84: a PENDING record that is reduced is REDUCED. -/
theorem state_of_reduceRecord {i : Nat} {o p : Occ} {r : State × Bool} (h : reduceRecord s i o = .ok r)
    (hmade : r.2 = true) (ho : o.state = .pending) (hp : r.1.occ? i = some p) : p.state = .reduced := by
  rcases reduceRecord_cases h with ⟨u, c, w, m, tide, k, rev, -, -, -, rfl⟩ | ⟨-, hnot⟩
  · rw [(markChanged_stationsScan w).occ?_eq] at hp
    obtain rfl := Option.some.inj (hp.symm.trans ((occ?_putOcc _ i _).trans (if_pos rfl)))
    exact if_pos ho
  · rw [hmade] at hnot
    cases hnot

/-! ### The figures of a loop (R119, R120) -/

theorem referenceOf_valid {n : Nat} {r : State × Option Nat} (h : referenceOf s n = .ok r) (hs : s.stationsWf = true) :
    optAll validReference r.2 = true := by
  obtain ⟨⟨v, way⟩, hl, h⟩ := bind_eq_ok.1 h
  obtain rfl := Except.ok.inj h
  have hv : RaisesOnly s v := engineLookup_raisesOnly hl
  cases hw : way.bind v.station? with
  | none => simp [optAll]
  | some e =>
    obtain ⟨w, -, he⟩ := Option.bind_eq_some_iff.1 hw
    simpa [hw] using reference_of_stationWf (stationWf_of_station? (hv.keeps.stations hs) he).2

/-- The end of a ΔV step: the constants are read unless a tie is missing. -/
theorem driftEnd_cases {P : DriftCalc → Prop} {missing : Bool} {F : Constants → DriftCalc} {x : State × Option DriftCalc}
    (hF : ∀ c, P (F c))
    (h : (if missing = true then .ok (s, none) else needConstants s >>= fun c => .ok (s, some (F c))) = .ok x) :
    x.1 = s ∧ ∀ d, x.2 = some d → P d := by
  split at h
  · obtain rfl := Except.ok.inj h
    exact ⟨rfl, nofun⟩
  · obtain ⟨c, -, h⟩ := bind_eq_ok.1 h
    obtain rfl := Except.ok.inj h
    exact ⟨rfl, fun d hd => Option.some.inj hd ▸ hF c⟩

theorem calcWf_driftCalc (hs : s.resultsWf = true) {mode : CloseMode} {i j : Nat} {o p : Occ} {ro rc : Option Nat}
    {limit : Int} (ho : s.occ? i = some o) (hro : optAll validReference ro = true) :
    calcWf (driftCalc mode i j o p ro rc limit) = true :=
  Bool.and_eq_true_iff.2 ⟨validGravity_endValue hs ho, hro⟩

/-- R119: the ΔV step of a loop raises events alone, and its figures come from a stored value and a stored reference. -/
theorem deltaV_spec {r : Loop} {x : State × Option DriftCalc} (h : deltaV s r = .ok x) :
    RaisesOnly s x.1 ∧ ∀ d, x.2 = some d → s.resultsWf = true → calcWf d = true := by
  obtain ⟨o, hneed, h⟩ := bind_eq_ok.1 h
  dsimp only at h
  split at h
  all_goals
    obtain ⟨p, -, h⟩ := bind_eq_ok.1 h
    split at h
    · obtain ⟨⟨v, ro⟩, hro, h⟩ := bind_eq_ok.1 h
      have hv : RaisesOnly s v := referenceOf_raisesOnly hro
      have hvalid := fun hs : s.resultsWf = true => referenceOf_valid hro (resultsWf_iff.1 hs).stations
      dsimp only at h
      split at h
      · obtain ⟨⟨w, rc⟩, hrc, h⟩ := bind_eq_ok.1 h
        have hw : RaisesOnly v w := referenceOf_raisesOnly hrc
        obtain ⟨hx, hd⟩ := driftEnd_cases (P := fun d => s.resultsWf = true → calcWf d = true)
          (fun c hs => calcWf_driftCalc hs (needOcc_eq_some hneed) (hvalid hs)) h
        exact ⟨hx ▸ hv.trans hw, hd⟩
      · obtain ⟨hx, hd⟩ := driftEnd_cases (P := fun d => s.resultsWf = true → calcWf d = true)
          (fun c hs => calcWf_driftCalc hs (needOcc_eq_some hneed) (hvalid hs)) h
        exact ⟨hx ▸ hv, hd⟩
    · obtain rfl := Except.ok.inj h
      exact ⟨.refl s, nofun⟩

end Sys2Proof.Machine
end

