-- ==== Sys2Proof/Proofs/Invariants/EngineBodies.lean ====
section
/-! SUPPORT. A step of the job in flight keeps the laws of the tables and of its own progress, whether it goes on or halts
(R118 to R123, R131, R138, R141 to R148). -/

namespace Sys2Proof.Machine

open Sys2Proof

variable {s t u : State} {f g h : Flight}

/-! ### The progress of a job (R119, R141) -/

/-- R119, R141: a progress that marks no index twice and holds figures within their ranges goes on so. -/
structure FlightKeeps (s : State) (f g : Flight) : Prop where
  written : distinct f.written = true → distinct g.written = true
  drift : s.resultsWf = true → optAll calcWf f.drift = true → optAll calcWf g.drift = true

namespace FlightKeeps

theorem refl (s : State) (f : Flight) : FlightKeeps s f f := ⟨id, fun _ => id⟩

/-- A progress that differs in what no law speaks of. -/
theorem of_eq (hw : g.written = f.written) (hd : g.drift = f.drift) : FlightKeeps s f g :=
  ⟨fun h => hw ▸ h, fun _ h => hd ▸ h⟩

theorem trans (hk : FlightKeeps s f g) (k : FlightKeeps s g h) : FlightKeeps s f h :=
  ⟨k.written ∘ hk.written, fun hs hf => k.drift hs (hk.drift hs hf)⟩

theorem settle_written (f : Flight) : f.settle.written = f.written := by
  unfold Flight.settle
  split
  · rfl
  split
  · rfl
  · split <;> rfl
  · split <;> rfl
  · rfl

theorem settle_drift (f : Flight) : f.settle.drift = f.drift := by
  unfold Flight.settle
  split
  · rfl
  split
  · rfl
  · split <;> rfl
  · split <;> rfl
  · rfl

theorem goTo (hk : FlightKeeps s f g) (p : Place) : FlightKeeps s f (g.goTo p) :=
  hk.trans (.of_eq (settle_written _) (settle_drift _))

theorem endWith (hk : FlightKeeps s f g) (r : JobResult) : FlightKeeps s f (g.endWith r) := hk.trans (.of_eq rfl rfl)

theorem pop (hk : FlightKeeps s f g) : FlightKeeps s f g.pop :=
  hk.trans ⟨fun h => (settle_written _).symm ▸ h, fun _ _ => (settle_drift _).symm ▸ rfl⟩

theorem mark (hk : FlightKeeps s f g) (i : Nat) : FlightKeeps s f (g.mark i) := by
  refine hk.trans ?_
  unfold Flight.mark
  split
  · exact .refl s g
  · next hi =>
    refine ⟨fun h => ?_, fun _ => id⟩
    simpa [distinct, h] using hi

theorem marks (hk : FlightKeeps s f g) (is : List Nat) : FlightKeeps s f (g.marks is) := by
  unfold Flight.marks
  induction is generalizing g with
  | nil => exact hk
  | cons i is ih => exact ih (hk.mark i)

/-- R119, R131: the figures of a ΔV step are taken over. -/
theorem of_drift {d : DriftCalc} (hw : g.written = f.written) (hg : g.drift = some d)
    (hd : s.resultsWf = true → calcWf d = true) : FlightKeeps s f g :=
  ⟨fun h => hw ▸ h, fun hs _ => by rw [hg]; exact hd hs⟩

end FlightKeeps

/-! ### What a step answers (R138, R148) -/

/-- A step of the job in flight from the state `s` and the progress `f` keeps the laws, in going on and in halting. -/
def StepKeeps (s : State) (f : Flight) : StepResult → Prop
  | .ok (t, g) => TableKeeps s t ∧ FlightKeeps s f g
  | .error (_, g) => FlightKeeps s f g

namespace StepKeeps

theorem ok (ht : TableKeeps s t) (hg : FlightKeeps s f g) : StepKeeps s f (.ok (t, g)) := ⟨ht, hg⟩

theorem same (hg : FlightKeeps s f g) : StepKeeps s f (.ok (s, g)) := ⟨.refl s, hg⟩

theorem bind {α : Type} {x : Except RecordId α} {k : α → StepResult} (hg : FlightKeeps s f g)
    (hk : ∀ a, x = .ok a → StepKeeps s f (k a)) : StepKeeps s f (halting g x >>= k) := by
  cases x with
  | ok a => exact hk a rfl
  | error r => exact hg

theorem halting {x : Except RecordId (State × Flight)} (hg : FlightKeeps s f g)
    (hk : ∀ t g, x = .ok (t, g) → TableKeeps s t ∧ FlightKeeps s f g) : StepKeeps s f (halting g x) := by
  cases x with
  | ok a => exact hk _ _ rfl
  | error r => exact hg

end StepKeeps

theorem undoUnusable_stepKeeps (ht : TableKeeps s t) (hg : FlightKeeps s f g) (l : Nat) :
    StepKeeps s f (.ok (undoUnusable t g l)) :=
  ⟨ht.trans (undoClose_keeps t l), (hg.marks _).endWith _⟩

theorem reduceAndFind_keeps {i : Nat} {o : Occ} {r : State × Flight × Bool} (ho : s.occ? i = some o)
    (h : reduceAndFind s f i o = .ok r) : TableKeeps s r.1 ∧ FlightKeeps s f r.2.1 := by
  simp only [reduceAndFind, bind_eq_ok] at h
  obtain ⟨⟨u, made⟩, hr, h⟩ := h
  have hu : TableKeeps s u := reduceRecord_keeps ho hr
  cases made with
  | true =>
    simp only [if_true, bind_eq_ok, Except.ok.injEq] at h
    obtain ⟨⟨v, ls⟩, hc, rfl⟩ := h
    exact ⟨hu.trans (closedLoopsOf_raisesOnly hc).keeps, ((FlightKeeps.refl s f).mark i).trans (.of_eq rfl rfl)⟩
  | false =>
    obtain rfl := Except.ok.inj h
    exact ⟨hu, .refl s f⟩

theorem reduceBody_stepKeeps (s : State) (f : Flight) : StepKeeps s f (reduceBody s f) := by
  have hf := FlightKeeps.refl s f
  unfold reduceBody
  split
  · split
    · exact .same (hf.endWith _)
    next o ho =>
    split
    · exact .same (hf.endWith _)
    refine .halting hf fun t g h => ?_
    obtain ⟨-, -, h⟩ := bind_eq_ok.1 h
    split at h
    · obtain ⟨rfl, rfl⟩ := ok_injEq_pair.1 h
      exact ⟨.refl _, hf.endWith _⟩
    · obtain ⟨⟨u, f', made⟩, hr, h⟩ := bind_eq_ok.1 h
      obtain ⟨rfl, rfl⟩ := ok_injEq_pair.1 h
      obtain ⟨hu, hf'⟩ := reduceAndFind_keeps ho hr
      refine ⟨hu, ?_⟩
      split
      · exact hf'.goTo _
      · exact hf'.endWith _
  · exact .same hf

/-! ### CLOSE (R118 to R123) -/

theorem onClosing_stepKeeps {body : Nat → Loop → StepResult}
    (hbody : ∀ l r, s.loop? l = some r → r.state = .closing → StepKeeps s f (body l r)) :
    StepKeeps s f (onClosing s f body) := by
  have hf := FlightKeeps.refl s f
  unfold onClosing
  split
  · refine .bind hf fun x hx => ?_
    split
    · next r =>
      split
      · next hst => exact hbody _ _ (needLoop_eq_some hx) hst
      · exact .same (hf.endWith _)
    · exact .same (hf.endWith _)
  · exact .same hf

/-- R118: the endpoints that the job reads are records of the pool. -/
theorem readEndpoints_eq_ok {r : Loop} {o p : Option Occ} (h : readEndpoints s r = .ok (o, p)) :
    (∀ x, o = some x → s.occ? r.openEnd = some x) ∧ ∀ j x, r.closing = some j → p = some x → s.occ? j = some x := by
  obtain ⟨o', ho, h⟩ := bind_eq_ok.1 h
  dsimp only at h
  split at h
  · next j hj =>
    obtain ⟨p', hp, h⟩ := bind_eq_ok.1 h
    obtain ⟨rfl, rfl⟩ := ok_injEq_pair.1 h
    refine ⟨fun x hx => needOcc_eq_some (hx ▸ ho), fun j' x hj' hx => ?_⟩
    obtain rfl := Option.some.inj (hj.symm.trans hj')
    exact needOcc_eq_some (hx ▸ hp)
  · next hnone =>
    obtain ⟨p', hp, h⟩ := bind_eq_ok.1 h
    obtain ⟨rfl, rfl⟩ := ok_injEq_pair.1 h
    refine ⟨fun x hx => needOcc_eq_some (hx ▸ ho), fun j' x hj' _ => ?_⟩
    rw [hnone] at hj'
    cases hj'

theorem loopCheckBody_stepKeeps (s : State) (f : Flight) : StepKeeps s f (loopCheckBody s f) := by
  have hf := FlightKeeps.refl s f
  refine onClosing_stepKeeps fun l r _ _ => .bind hf fun x _ => ?_
  split
  · exact .same (hf.goTo _)
  · exact undoUnusable_stepKeeps (.refl s) hf l

theorem inlineOne_stepKeeps {l i : Nat} {o : Occ} (ho : s.occ? i = some o) (next : Place) :
    StepKeeps s f (inlineOne s f l i o next) := by
  have hf := FlightKeeps.refl s f
  refine .bind hf fun (u, made) hx => ?_
  have hu : TableKeeps s u := reduceRecord_keeps ho hx
  cases made with
  | true => exact .ok hu ((hf.mark i).goTo next)
  | false => exact undoUnusable_stepKeeps hu hf l

theorem inlineBody_stepKeeps (s : State) (f : Flight) : StepKeeps s f (inlineBody s f) := by
  have hf := FlightKeeps.refl s f
  refine onClosing_stepKeeps fun l r _ _ => .bind hf fun x hx => ?_
  split
  · next o p j hj =>
    obtain ⟨hopen, hclosing⟩ := readEndpoints_eq_ok hx
    split
    · exact inlineOne_stepKeeps (hopen o rfl) _
    · exact inlineOne_stepKeeps (hclosing j p hj rfl) _
  · exact undoUnusable_stepKeeps (.refl s) hf l

/-- R120: the DRIFT_HIGH flag is no matter of a law. -/
theorem noteRate_keeps {l : Nat} {r : Loop} (hr : s.loop? l = some r) (d : DriftCalc) :
    TableKeeps s (s.noteRate l r d) := by
  have hput : TableKeeps s (s.putLoop l { r with driftHigh := d.high }) := putLoop_keeps hr ⟨id, id, le_rfl⟩
  unfold State.noteRate
  dsimp only
  split
  · exact hput.raise
  · exact hput

theorem deltaVBody_stepKeeps (s : State) (f : Flight) : StepKeeps s f (deltaVBody s f) := by
  have hf := FlightKeeps.refl s f
  refine onClosing_stepKeeps fun l r hr _ => .bind hf fun x hx => ?_
  obtain ⟨hu, hd⟩ := deltaV_spec hx
  dsimp only
  split
  · next d hxd =>
    refine .ok (hu.keeps.trans (noteRate_keeps ((hu.loop?_eq l).trans hr) d)) ?_
    exact (FlightKeeps.of_drift (f := f) (g := { f with drift := some d }) rfl rfl (hd d hxd)).goTo _
  · exact undoUnusable_stepKeeps hu.keeps hf l

/-! ### Members (R121, R131) -/

theorem markMember_keeps {n : Nat} (h : markMember s n = .ok t) : TableKeeps s t ∧ ∀ l, t.loop? l = s.loop? l := by
  obtain ⟨⟨u, way⟩, hl, h⟩ := bind_eq_ok.1 h
  have hu : RaisesOnly s u := engineLookup_raisesOnly hl
  dsimp only at h
  split at h
  · next w =>
    obtain rfl := Except.ok.inj h
    exact ⟨hu.keeps.trans (markChanged_keeps u w), fun l => ((markChanged_stationsScan w).loop?_eq l).trans (hu.loop?_eq l)⟩
  · obtain rfl := Except.ok.inj h
    exact ⟨hu.keeps, hu.loop?_eq⟩

/-- R121: a REDUCED member takes its drift part. -/
theorem writeDrift_keeps {i : Nat} {o : Occ} {d : DriftCalc} (ho : s.occ? i = some o) (hst : o.state = .reduced)
    (hd : s.resultsWf = true → calcWf d = true) (h : writeDrift s i o d = .ok t) :
    TableKeeps s t ∧ ∀ l, t.loop? l = s.loop? l := by
  obtain ⟨ht, hloop⟩ := markMember_keeps h
  exact ⟨(putOcc_keeps ho (driftedOcc_keeps hst hd _ _)).trans ht, hloop⟩

theorem calcWf_of_flight {d : DriftCalc} (hs : s.resultsWf = true) (hf : s.engine.flight = some f)
    (hd : f.drift = some d) : calcWf d = true := by
  have h := (resultsWf_iff.1 hs).flight
  rw [hf] at h
  simpa [optAll, hd] using h

theorem state_of_not_keepsDrift {o : Occ} (h : keepsDrift o = false) (hp : o.state ≠ .pending) : o.state = .reduced := by
  cases hst : o.state <;> simp_all [keepsDrift]

/-- R121: what a member step does once the member is reduced, or needs no reduction. -/
theorem writeMember_stepKeeps {l i : Nat} {d : DriftCalc} {next : Place} {p : State × Bool} (hp : TableKeeps s p.1)
    (hst : p.2 = true → ∀ o, p.1.occ? i = some o → o.state = .reduced) (hd : p.1.resultsWf = true → calcWf d = true) :
    StepKeeps s f (writeMember f l i d next p) := by
  have hf := FlightKeeps.refl s f
  unfold writeMember
  split
  · next hmade =>
    split
    · next o ho =>
      refine .bind hf fun u hu => ?_
      exact .ok (hp.trans (writeDrift_keeps ho (hst hmade o ho) hd hu).1) ((hf.mark i).goTo next)
    · exact .ok hp (hf.goTo next)
  · exact undoUnusable_stepKeeps hp hf l

theorem closeMember_stepKeeps {l i : Nat} {o : Occ} {d : DriftCalc} {next : Place} (hflight : s.engine.flight = some f)
    (hd : f.drift = some d) (ho : s.occ? i = some o) : StepKeeps s f (closeMember s f l i o d next) := by
  have hf := FlightKeeps.refl s f
  rw [closeMember_eq]
  split
  · exact .same (hf.goTo next)
  next hkeeps =>
  split
  · next hpending =>
    refine .bind hf fun p hp => ?_
    have hu := reduceRecord_keeps ho hp
    refine writeMember_stepKeeps hu (fun hmade q hq => state_of_reduceRecord hp hmade hpending hq) fun hs => ?_
    exact calcWf_of_flight hs (hu.table.engine ▸ hflight) hd
  · next hpending =>
    refine writeMember_stepKeeps (l := l) (p := (s, true)) (.refl s) (fun _ q hq => ?_) fun hs => calcWf_of_flight hs hflight hd
    obtain rfl := Option.some.inj (ho.symm.trans hq)
    exact state_of_not_keepsDrift (Bool.eq_false_iff.2 hkeeps) hpending

theorem memberBody_stepKeeps (hflight : s.engine.flight = some f) : StepKeeps s f (memberBody s f) := by
  have hf := FlightKeeps.refl s f
  refine onClosing_stepKeeps fun l r _ _ => ?_
  split
  · next walked d _ hd =>
    split
    · refine .bind hf fun x hx => ?_
      split
      · exact closeMember_stepKeeps hflight hd (needOcc_eq_some hx)
      · exact .same (hf.goTo _)
    · exact .same (hf.goTo _)
  · exact .same hf

/-! ### Recomputation (R131) -/

theorem onClosed_stepKeeps {body : Nat → Loop → StepResult}
    (hbody : ∀ l r, s.loop? l = some r → r.state = .closed → StepKeeps s f (body l r)) :
    StepKeeps s f (onClosed s f body) := by
  have hf := FlightKeeps.refl s f
  unfold onClosed
  split
  · refine .bind hf fun x hx => ?_
    split
    · next r =>
      split
      · next hst => exact hbody _ _ (needLoop_eq_some hx) hst
      · exact .same hf.pop
    · exact .same hf.pop
  · exact .same hf

/-- R131: a CLOSED loop stores a new ΔV and rate. -/
theorem LoopKeeps.of_storeDrift {r : Loop} (h : r.state = .closed) (d : DriftCalc) : LoopKeeps r (storeDrift r d) := by
  refine ⟨fun hr => ?_, id, le_rfl⟩
  have hwf := loopWf_storeDrift hr (by rw [h]; rfl) d
  rwa [← h] at hwf

theorem finishRecompute_stepKeeps {l : Nat} {r : Loop} (ht : TableKeeps s t) (hg : FlightKeeps s f g)
    (hr : t.loop? l = some r) (hst : r.state = .closed) (d : DriftCalc) :
    StepKeeps s f (.ok (finishRecompute t g l d)) := by
  refine ⟨?_, hg.pop⟩
  simp only [hr]
  exact ht.trans (putLoop_keeps hr (.of_storeDrift hst d))

theorem nextRecompute_stepKeeps {l : Nat} {r r' : Loop} {d : DriftCalc} (ht : TableKeeps s t) (hg : FlightKeeps s f g)
    (hr : t.loop? l = some r) (hst : r.state = .closed) (hd : s.resultsWf = true → calcWf d = true) (walked : List Nat) :
    StepKeeps s f (.ok (nextRecompute t g l r' d walked)) := by
  unfold nextRecompute
  split
  · exact .ok ht (hg.trans (.of_drift rfl rfl hd))
  · exact finishRecompute_stepKeeps ht hg hr hst d

theorem recomputeDeltaVBody_stepKeeps (s : State) (f : Flight) : StepKeeps s f (recomputeDeltaVBody s f) := by
  have hf := FlightKeeps.refl s f
  refine onClosed_stepKeeps fun l r hr hst => .bind hf fun (u, d) hx => ?_
  obtain ⟨hu, hd⟩ := deltaV_spec hx
  cases d with
  | some d =>
    have hru : u.loop? l = some r := (hu.loop?_eq l).trans hr
    have hnote : (u.noteRate l r d).loop? l = some { r with driftHigh := d.high, sound := true } := by
      unfold State.noteRate
      dsimp only
      split <;> simp [State.putLoop]
    exact nextRecompute_stepKeeps (hu.keeps.trans (noteRate_keeps hru d)) hf hnote hst (hd d rfl) []
  | none => exact .ok hu.keeps (.pop (g := { f with unusable := true }) (.of_eq rfl rfl))

theorem recomputeMemberBody_stepKeeps (hflight : s.engine.flight = some f) :
    StepKeeps s f (recomputeMemberBody s f) := by
  have hf := FlightKeeps.refl s f
  refine onClosed_stepKeeps fun l r hr hst => ?_
  split
  · next walked d _ hd =>
    have hcalc : s.resultsWf = true → calcWf d = true := fun hs => calcWf_of_flight hs hflight hd
    split
    · refine .bind hf fun x hx => ?_
      split
      · next o =>
        split
        · exact nextRecompute_stepKeeps (.refl s) hf hr hst hcalc _
        · next hkeeps =>
          refine .bind hf fun u hu => ?_
          have hstate : o.state = .reduced := by
            simp only [Bool.or_eq_true, decide_eq_true_eq, not_or] at hkeeps
            exact state_of_not_keepsDrift (Bool.eq_false_iff.2 hkeeps.1) hkeeps.2
          obtain ⟨ht, hloop⟩ := writeDrift_keeps (needOcc_eq_some hx) hstate hcalc hu
          exact nextRecompute_stepKeeps ht (hf.mark _) ((hloop l).trans hr) hst hcalc _
      · exact nextRecompute_stepKeeps (.refl s) hf hr hst hcalc _
    · exact finishRecompute_stepKeeps (.refl s) hf hr hst d
  · exact .same hf

/-! ### The walks (R143 to R145) -/

theorem wayBody_stepKeeps (s : State) (f : Flight) : StepKeeps s f (wayBody s f) := by
  have hf := FlightKeeps.refl s f
  unfold wayBody
  split
  · split
    · exact .same (hf.goTo _)
    split
    · exact .same (hf.goTo _)
    split
    · exact hf
    · refine .halting hf fun t g h => ?_
      obtain ⟨⟨u, way⟩, hl, h⟩ := bind_eq_ok.1 h
      obtain ⟨rfl, rfl⟩ := ok_injEq_pair.1 h
      have hu : RaisesOnly s u := engineLookup_raisesOnly hl
      exact ⟨hu.keeps, hf.goTo _⟩
  · exact .same hf

/-- A visit of a walk that reduces the record. -/
theorem reduceVisit_keeps {i : Nat} {o : Occ} {u : State} {p : State × Flight} (hu : RaisesOnly s u) (ho : s.occ? i = some o)
    (h : (do let (s, f, _) ← reduceAndFind u f i o; .ok (s, f)) = (.ok p : Except RecordId (State × Flight))) :
    TableKeeps s p.1 ∧ FlightKeeps s f p.2 := by
  obtain ⟨⟨v, f', made⟩, hr, h⟩ := bind_eq_ok.1 h
  obtain rfl := Except.ok.inj h
  obtain ⟨hv, hf'⟩ := reduceAndFind_keeps ((hu.occ?_eq i).trans ho) hr
  exact ⟨hu.keeps.trans hv, hf'.written, fun hs => hf'.drift (hu.keeps.results hs)⟩

theorem retideVisit_keeps {i : Nat} {p : State × Flight} (h : retideVisit s f i = .ok p) :
    TableKeeps s p.1 ∧ FlightKeeps s f p.2 := by
  unfold retideVisit at h
  split at h
  · obtain rfl := Except.ok.inj h
    exact ⟨.refl s, .refl s f⟩
  next o ho =>
  split at h
  · obtain rfl := Except.ok.inj h
    exact ⟨.refl s, .refl s f⟩
  obtain ⟨-, -, h⟩ := bind_eq_ok.1 h
  split at h
  · obtain ⟨⟨u, marks⟩, hm, h⟩ := bind_eq_ok.1 h
    have hu : RaisesOnly s u := engineMarks_raisesOnly hm
    dsimp only at h
    split at h
    · obtain rfl := Except.ok.inj h
      exact ⟨hu.keeps, .refl s f⟩
    · exact reduceVisit_keeps hu ho h
  · obtain rfl := Except.ok.inj h
    exact ⟨.refl s, .refl s f⟩

theorem occupationBody_stepKeeps (s : State) (f : Flight) : StepKeeps s f (occupationBody s f) := by
  have hf := FlightKeeps.refl s f
  unfold occupationBody
  split
  · split
    · exact .same (hf.goTo _)
    split
    · refine .ok ?_ (hf.goTo _)
      split
      · exact .refl s
      · exact raise_keeps s _
    split
    · exact hf
    split
    · split
      · refine .halting (hf.goTo _) fun t g h => ?_
        obtain ⟨ht, hg⟩ := retideVisit_keeps h
        exact ⟨ht, (hf.goTo _).trans hg⟩
      · exact .same (hf.goTo _)
    · exact .same (hf.goTo _)
  · exact .same hf

theorem recalcVisit_keeps {i : Nat} {p : State × Flight} (h : recalcVisit s f i = .ok p) :
    TableKeeps s p.1 ∧ FlightKeeps s f p.2 := by
  unfold recalcVisit at h
  split at h
  · obtain rfl := Except.ok.inj h
    exact ⟨.refl s, .refl s f⟩
  next o ho =>
  split at h
  · obtain rfl := Except.ok.inj h
    exact ⟨.refl s, .refl s f⟩
  split at h
  · obtain ⟨-, -, h⟩ := bind_eq_ok.1 h
    obtain ⟨⟨u, marks⟩, hm, h⟩ := bind_eq_ok.1 h
    have hu : RaisesOnly s u := engineMarks_raisesOnly hm
    dsimp only at h
    split at h
    · exact reduceVisit_keeps hu ho h
    · obtain rfl := Except.ok.inj h
      exact ⟨hu.keeps, .refl s f⟩
  · obtain rfl := Except.ok.inj h
    exact ⟨.refl s, .refl s f⟩

theorem recalcBody_stepKeeps (s : State) (f : Flight) : StepKeeps s f (recalcBody s f) := by
  have hf := FlightKeeps.refl s f
  unfold recalcBody
  split
  · refine .bind hf fun p hp => ?_
    obtain ⟨ht, hg⟩ := recalcVisit_keeps hp
    exact .ok ht (hg.goTo _)
  · exact .same hf

end Sys2Proof.Machine
end

