-- ==== Sys2Proof/Proofs/Invariants/ScanKeeps.lean ====
section
/-! SUPPORT. The steps of the consistency scan keep the laws of the tables (R195 to R197). -/

namespace Sys2Proof.Machine

open Sys2Proof

variable {s t u : State}

/-- An operation of the scan on one set, way, record or loop keeps the laws. In STARTING any record may be freed. -/
def ScanKeeps (act : Nat → State → State) : Prop := ∀ k s, s.part = .starting → TableKeeps s (act k s)

theorem TableKeeps.starting (h : TableKeeps s t) (hp : s.part = .starting) : t.part = .starting := h.table.part.trans hp

theorem freeOcc_starting {ws : List Nat} (hp : s.part = .starting) (i : Nat) : TableKeeps s (s.freeOcc ws i) :=
  freeOcc_keeps ws (.inl hp)

/-- The finding of an operation is counted. -/
theorem TableKeeps.count (h : TableKeeps s t) (f : ScanCounts → ScanCounts) : TableKeeps s (t.count f) :=
  h.trans (count_keeps t f)

/-! ### What every access handles (R195) -/

theorem Scan.stand_findStation (c : Scan) (w : Nat) : (c.findStation w).stand = c.stand := by
  unfold Scan.findStation
  split <;> rfl

theorem findDamagedStation_keeps (s : State) (w : Nat) : TableKeeps s (s.findDamagedStation w) := by
  unfold State.findDamagedStation
  split
  · exact mapScan_keeps s fun c => c.stand_findStation w
  · exact .refl s

theorem freeDamagedOcc_keeps : ScanKeeps fun i s => s.freeDamagedOcc i := by
  intro i s hp
  dsimp only [State.freeDamagedOcc]
  split
  · split
    · exact (freeOcc_starting hp i).count _
    · exact .refl s
  · exact .refl s

theorem freeDamagedLoop_keeps (s : State) (l : Nat) : TableKeeps s (s.freeDamagedLoop l) := by
  unfold State.freeDamagedLoop
  split
  · split
    · exact (voidDamaged_keeps s l).count _
    · exact .refl s
  · exact .refl s

theorem sweepOnce_keeps (wait : Marked) (hp : s.part = .starting) : TableKeeps s (s.sweepOnce wait) :=
  (TableKeeps.foldl_of TableKeeps.starting (fun s i hp => freeDamagedOcc_keeps i s hp) _ s hp).trans
    (.foldl freeDamagedLoop_keeps _ _)

theorem sweep_keeps (wait : Marked) (hp : s.part = .starting) : TableKeeps s (s.sweep wait) := by
  have h1 := sweepOnce_keeps wait hp
  have h2 := h1.trans (sweepOnce_keeps wait (h1.starting hp))
  exact h2.trans (.foldl findDamagedStation_keeps _ _)

theorem earlyStep_keeps {act : Nat → State → State} (h : ScanKeeps act) (hp : s.part = .starting) (k : Nat) :
    TableKeeps s (earlyStep act s k) :=
  (h k s hp).trans (sweep_keeps _ ((h k s hp).starting hp))

theorem scanStep_keeps {reads act : Nat → State → State} (hr : ScanKeeps reads) (ha : ScanKeeps act)
    (hp : s.part = .starting) (k : Nat) : TableKeeps s (scanStep reads act s k) := by
  have h1 := hr k s hp
  have h2 := h1.trans (sweep_keeps {} (h1.starting hp))
  have h3 := h2.trans (ha k _ (h2.starting hp))
  exact h3.trans (sweep_keeps {} (h3.starting hp))

/-! ### The first two passes -/

theorem suspectTwin_keeps (s : State) (w : Nat) : TableKeeps s (s.suspectTwin w) := by
  unfold State.suspectTwin
  split
  · next e he =>
    split
    · exact (putChanged_keeps (e' := { e with state := .suspect }) he fun h => h).count _
    · exact .refl s
  · exact .refl s

theorem suspectTwins_keeps : ScanKeeps suspectTwins := fun set s _ =>
  (checkStations_keeps s (waysOfSet set)).trans (.foldl suspectTwin_keeps _ _)

theorem findDamage_keeps : ScanKeeps findDamage := by
  intro k s hp
  unfold findDamage
  split
  · exact (checkOcc_keeps s k).trans (freeDamagedOcc_keeps k _ ((checkOcc_keeps s k).starting hp))
  split
  · exact (checkLoop_keeps s _).trans (freeDamagedLoop_keeps _ _)
  · exact (checkStation_keeps s _).trans (findDamagedStation_keeps _ _)

/-! ### References -/

theorem readList_keeps : ScanKeeps readList := fun w s _ =>
  (checkStations_keeps s (waysOfSet (w / 4))).trans (checkOccs_keeps _ _)

theorem pruneList_keeps : ScanKeeps pruneList := by
  intro w s _
  unfold pruneList
  split
  · next e he =>
    dsimp only
    split
    · exact .refl s
    · exact (putChanged_keeps (e' := { e with list := e.list.filter (s.listable w e.number) }) he fun h =>
        stationWf_of_length_le h (List.length_filter_le _ _)).count _
  · exact .refl s

theorem readOwner_keeps : ScanKeeps readOwner := by
  intro i s _
  have h := checkOcc_keeps s i
  unfold readOwner
  dsimp only
  split
  · exact h.trans (checkStations_keeps _ _)
  · exact h

theorem freeUnlisted_keeps : ScanKeeps freeUnlisted := by
  intro i s hp
  unfold freeUnlisted
  split
  · split
    · exact .refl s
    · exact (freeOcc_starting hp i).count _
  · exact .refl s

theorem readGathered_keeps : ScanKeeps readGathered := by
  intro w s _
  have h := checkStation_keeps s w
  unfold readGathered
  dsimp only
  split
  · split
    · exact (h.trans (checkStations_keeps _ _)).trans (checkPool_keeps _)
    · exact h
  · exact h

/-- R196: a rewritten list holds at most 8. -/
theorem stationWf_take {w : Nat} {e : Station} (h : stationWf w e = true) (l : List Nat) :
    stationWf w { e with list := l.take Config.listLimit } = true := by
  simp only [stationWf, Bool.and_eq_true, decide_eq_true_eq] at h ⊢
  exact ⟨h.1, List.length_take_le _ _⟩

theorem rewriteList_keeps : ScanKeeps rewriteList := by
  intro w s hp
  unfold rewriteList
  split
  · next e he =>
    split
    · dsimp only
      generalize sortByKey s.orderKey (s.gatheredFor w e.number) = all
      have hput : TableKeeps s (if all.take Config.listLimit = e.list ∧ all.drop Config.listLimit = [] then s.putStation w e
          else s.putChanged w { e with list := all.take Config.listLimit }) := by
        split
        · exact putStation_keeps he id
        · exact putChanged_keeps he fun h => stationWf_take h all
      have hcount := hput.count (countReferences (e.list.filter fun i => !all.contains i).length)
      exact (hcount.trans (.foldl_of TableKeeps.starting (fun s i hp => freeOcc_starting hp i) _ _ (hcount.starting hp))).count _
    · exact .refl s
  · exact .refl s

theorem readMembers_keeps : ScanKeeps readMembers := by
  intro l s _
  have h := checkLoop_keeps s l
  unfold readMembers
  dsimp only
  split
  · split
    · exact h
    · exact h.trans (checkOccs_keeps _ _)
  · exact h

theorem pruneMembers_keeps : ScanKeeps pruneMembers := by
  intro l s _
  unfold pruneMembers
  split
  · next r hr =>
    dsimp only
    split
    · exact .refl s
    · exact (putLoop_keeps hr (.of_members (List.length_filter_le _ _))).count _
  · exact .refl s

theorem checkField_keeps (s : State) (l : Option Nat) : TableKeeps s (checkField s l) := by
  cases l with
  | none => exact .refl s
  | some l => exact checkLoop_keeps s l

theorem readFields_keeps : ScanKeeps readFields := by
  intro i s _
  have h := checkOcc_keeps s i
  unfold readFields
  dsimp only
  split
  · exact (h.trans (checkField_keeps _ _)).trans (checkField_keeps _ _)
  · exact h

/-- R196: what is left of a record whose stray fields are cleared. -/
theorem strayFields_keeps (o : Occ) (m p : Bool) : OccKeeps s o
    (let o' := if m then { dropDrift o with memberOf := none } else o
     if p then { o' with opens := none } else o') := by
  have hm : OccKeeps s o (if m then { dropDrift o with memberOf := none } else o) := by
    split
    · exact (dropDrift_keeps o).trans (.of_eq rfl rfl rfl rfl)
    · exact .of_eq rfl rfl rfl rfl
  dsimp only
  split
  · exact hm.trans (.of_eq rfl rfl rfl rfl)
  · exact hm

theorem clearFields_keeps : ScanKeeps clearFields := by
  intro i s _
  unfold clearFields
  split
  · next o ho =>
    dsimp only
    split
    · exact ((putOcc_keeps ho (strayFields_keeps o _ _)).trans (markOwner_keeps _ _ _)).count _
    · exact .refl s
  · exact .refl s

theorem referencesUnit_keeps (hp : s.part = .starting) (k : Nat) : TableKeeps s (referencesUnit s k) := by
  unfold referencesUnit
  split
  · exact scanStep_keeps readList_keeps pruneList_keeps hp _
  split
  · exact scanStep_keeps readOwner_keeps freeUnlisted_keeps hp _
  split
  · exact scanStep_keeps readGathered_keeps rewriteList_keeps hp _
  split
  · exact scanStep_keeps readMembers_keeps pruneMembers_keeps hp _
  · exact scanStep_keeps readFields_keeps clearFields_keeps hp _

/-! ### The later passes -/

theorem scan_checkOcc_keeps : ScanKeeps fun i s => s.checkOcc i := fun i s _ => checkOcc_keeps s i

theorem scan_checkLoop_keeps : ScanKeeps fun l s => s.checkLoop l := fun l s _ => checkLoop_keeps s l

theorem freeWindow_keeps : ScanKeeps freeWindow := by
  intro i s hp
  unfold freeWindow
  split
  · split
    · exact (freeOcc_starting hp i).count _
    · exact .refl s
  · exact .refl s

theorem sortList_keeps : ScanKeeps sortList := by
  intro w s _
  unfold sortList
  split
  · next e he =>
    dsimp only
    split
    · exact .refl s
    · exact (putChanged_keeps (e' := { e with list := sortByKey s.orderKey e.list }) he fun h =>
        stationWf_of_length_le h (sortByKey_perm _).length_eq.le).count _
  · exact .refl s

theorem readAnchor_keeps : ScanKeeps readAnchor := by
  intro l s _
  have h := checkLoop_keeps s l
  unfold readAnchor
  dsimp only
  split
  · next r _ =>
    split
    · exact h
    · have hopen := h.trans (checkOcc_keeps _ r.openEnd)
      split
      · exact hopen.trans (checkOcc_keeps _ _)
      · exact hopen
  · exact h

theorem voidUnanchored_keeps : ScanKeeps voidUnanchored := by
  intro l s _
  unfold voidUnanchored
  split
  · split
    · exact .refl s
    · exact (voidSound_keeps s l).count _
  · exact .refl s

theorem noteInterrupted_keeps (s : State) (l : Nat) : TableKeeps s (s.noteInterrupted l) := by
  unfold State.noteInterrupted
  split
  · next r hr => exact putLoop_keeps hr ⟨id, id, le_rfl⟩
  · exact .refl s

theorem undoInterrupted_keeps : ScanKeeps undoInterrupted := by
  intro l s _
  unfold undoInterrupted
  split
  · split
    · exact ((undoClose_keeps s l).trans (noteInterrupted_keeps _ l)).count _
    · exact .refl s
  · exact .refl s

theorem readDrift_keeps : ScanKeeps readDrift := by
  intro i s _
  have h := checkOcc_keeps s i
  unfold readDrift
  dsimp only
  split
  · split
    · exact h.trans (checkField_keeps _ _)
    · exact h
  · exact h

theorem removeStray_keeps : ScanKeeps removeStray := by
  intro i s _
  unfold removeStray
  split
  · next o ho =>
    split
    · exact ((putOcc_keeps ho (withoutDrift_keeps o)).trans (markOwner_keeps _ _ _)).count _
    · exact .refl s
  · exact .refl s

/-! ### Whole passes -/

/-- Several steps of a pass. -/
theorem units_keeps {unit : State → Nat → State} (h : ∀ s k, s.part = .starting → TableKeeps s (unit s k)) (ks : List Nat)
    (hp : s.part = .starting) : TableKeeps s (ks.foldl unit s) := .foldl_of TableKeeps.starting h ks s hp

theorem occ?_count (s : State) (f : ScanCounts → ScanCounts) (i : Nat) : (s.count f).occ? i = s.occ? i := rfl

theorem not_opensAt_freeWindow (s : State) (k : Nat) : ¬(freeWindow k s).opensAt k := by
  rintro ⟨o, ho, hin⟩
  unfold freeWindow at ho
  split at ho
  · next p hp =>
    split at ho
    · rw [occ?_count, occ?_freeOcc, if_pos rfl] at ho
      cases ho
    · next hout =>
      obtain rfl := Option.some.inj (hp.symm.trans ho)
      exact hout hin
  · next hp => cases hp.symm.trans ho

theorem windowsUnit_eq (s : State) (k : Nat) :
    windowsUnit s k = (freeWindow k ((s.checkOcc k).sweep {})).sweep {} := rfl

/-- R196: the step of the fourth pass leaves its record in no window. -/
theorem not_opensAt_windowsUnit (hp : s.part = .starting) (k : Nat) : ¬(windowsUnit s k).opensAt k := by
  have hread := checkOcc_keeps s k
  have hstart := (sweep_keeps {} (hread.starting hp)).starting (hread.starting hp)
  rw [windowsUnit_eq]
  generalize (s.checkOcc k).sweep {} = v at hstart
  have hfree := freeWindow_keeps k v hstart
  exact fun h => not_opensAt_freeWindow v k ((sweep_keeps {} (hfree.starting hstart)).opens k h)

theorem not_opensAt_windowsUnits {ks : List Nat} (hp : s.part = .starting) {k : Nat} (hk : k ∈ ks) :
    ¬(ks.foldl windowsUnit s).opensAt k := by
  have hunit : ∀ s k, s.part = .starting → TableKeeps s (windowsUnit s k) := fun s k hp =>
    scanStep_keeps scan_checkOcc_keeps freeWindow_keeps hp k
  induction ks generalizing s with
  | nil => cases hk
  | cons j ks ih =>
    have hj := hunit s j hp
    rw [List.foldl_cons]
    rcases List.mem_cons.1 hk with rfl | hk
    · exact fun h => not_opensAt_windowsUnit hp k ((units_keeps hunit ks (hj.starting hp)).opens k h)
    · exact ih (hj.starting hp) hk

end Sys2Proof.Machine
end

