-- ==== Sys2Proof/Proofs/Invariants/Lawful.lean ====
section
/-! SUPPORT. What a command keeps: the queue behind it and every invariant; and the contents of the constants and of the
tide tables, where it is none of their writes. The plain writes of the state, each with what it asks. -/

namespace Sys2Proof.Machine

open Sys2Proof

variable {s t u : State}

/-- The queue of commands stays, and each invariant of a block holds after if it held before. -/
structure Lawful (s t : State) : Prop where
  pending : t.pending = s.pending
  events : s.eventsWf = true → t.eventsWf = true
  engine : s.engineWf = true → t.engineWf = true
  clock : s.clockWf = true → t.clockWf = true
  front : s.frontWf = true → t.frontWf = true
  stations : s.stationsWf = true → t.stationsWf = true
  loops : s.loopsWf = true → t.loopsWf = true
  records : s.recordsWf = true → t.recordsWf = true
  results : s.resultsWf = true → t.resultsWf = true

theorem Lawful.refl (s : State) : Lawful s s := ⟨rfl, id, id, id, id, id, id, id, id⟩

theorem Lawful.trans (h : Lawful s t) (k : Lawful t u) : Lawful s u where
  pending := k.pending.trans h.pending
  events := k.events ∘ h.events
  engine := k.engine ∘ h.engine
  clock := k.clock ∘ h.clock
  front := k.front ∘ h.front
  stations := k.stations ∘ h.stations
  loops := k.loops ∘ h.loops
  records := k.records ∘ h.records
  results := k.results ∘ h.results

/-- The same, and the constants, the sites and the constituents keep their contents. -/
structure Keeps (s t : State) : Prop extends Lawful s t where
  contents : SameContents s t

namespace Keeps

theorem refl (s : State) : Keeps s s := ⟨.refl s, .refl s⟩

theorem trans (h : Keeps s t) (k : Keeps t u) : Keeps s u :=
  ⟨h.toLawful.trans k.toLawful, h.contents.trans k.contents⟩

end Keeps

/-! ### The front end's invariant, by its clauses -/

/-- R67, R69: what the gravity sample input holds while LIVE. -/
def GsiLive.wf (g : GsiLive) : Bool := decide (g.silence ≤ Config.silenceLimit) && decide (g.expected < 16)

/-- R55, R57, R62, R63, R67, R69: the front end's own clauses, the constants apart. -/
structure FrontLaw (f : FrontEnd) : Prop where
  x : f.x.wf = true
  y : f.y.wf = true
  t : f.t.wf = true
  heldX : optAll validTilt f.heldX = true
  heldY : optAll validTilt f.heldY = true
  heldT : optAll validTemp f.heldT = true
  lag : optAll validTemp f.lag = true
  live : optAll GsiLive.wf f.live = true

theorem frontWf_iff : s.frontWf = true ↔ s.constantsWf = true ∧ FrontLaw s.front := by
  have hlive : optAll (fun g => decide (g.silence ≤ Config.silenceLimit) && decide (g.expected < 16)) s.front.live =
      optAll GsiLive.wf s.front.live := rfl
  simp only [State.frontWf, Bool.and_eq_true, hlive]
  constructor
  · rintro ⟨⟨⟨⟨⟨⟨⟨⟨h1, h2⟩, h3⟩, h4⟩, h5⟩, h6⟩, h7⟩, h8⟩, h9⟩
    exact ⟨h1, h2, h3, h4, h5, h6, h7, h8, h9⟩
  · rintro ⟨h1, h2, h3, h4, h5, h6, h7, h8, h9⟩
    exact ⟨⟨⟨⟨⟨⟨⟨⟨h1, h2⟩, h3⟩, h4⟩, h5⟩, h6⟩, h7⟩, h8⟩, h9⟩

/-- The front end's invariant speaks of the front end and of the constants' contents. -/
theorem frontWf_of_eq (h : s.frontWf = true) (hc : t.constantsWf = true) (hf : t.front = s.front) : t.frontWf = true :=
  frontWf_iff.2 ⟨hc, hf ▸ (frontWf_iff.1 h).2⟩

theorem TableKeeps.toKeeps (h : TableKeeps s t) : Keeps s t where
  pending := h.table.pending
  events := h.events
  engine hs := by rwa [State.engineWf, h.table.engine]
  clock hs := by rwa [State.clockWf, h.table.clock]
  front hs := frontWf_of_eq hs (h.contents.constantsWf (frontWf_iff.1 hs).1) h.table.front
  stations := h.stations
  loops := h.loops
  records := h.records
  results := h.results
  contents := h.contents

theorem Keeps.table (h : Keeps s t) (k : TableKeeps t u) : Keeps s u := h.trans k.toKeeps

/-! ### What no law reads -/

variable (s)

theorem link_keeps (l : Link) : Keeps s { s with link := l } :=
  ⟨⟨rfl, id, id, id, id, id, id, id, id⟩, .of_eq rfl rfl rfl⟩

theorem respond_keeps (st : Status) (b : List Byte) : Keeps s (s.respond st b) := link_keeps s _

theorem refuse_keeps (st : Status) : Keeps s (s.refuse st) := link_keeps s _

theorem badLength_keeps (i : Instr) : Keeps s (s.badLength i) := link_keeps s _

theorem snapshot_keeps (p : Option Snapshot) : Keeps s { s with snapshot := p } :=
  ⟨⟨rfl, id, id, id, id, id, id, id, id⟩, .of_eq rfl rfl rfl⟩

theorem lastWindow_keeps (w : Option LastWindow) : Keeps s { s with lastWindow := w } :=
  ⟨⟨rfl, id, id, id, id, id, id, id, id⟩, .of_eq rfl rfl rfl⟩

theorem clamp_keeps (b : Bool) : Keeps s { s with clamp := b } :=
  ⟨⟨rfl, id, id, id, id, id, id, id, id⟩, .of_eq rfl rfl rfl⟩

theorem late_keeps (w : Option Nat) : Keeps s { s with late := w } :=
  ⟨⟨rfl, id, id, id, id, id, id, id, id⟩, .of_eq rfl rfl rfl⟩

theorem idles_keeps (n : Nat) : Keeps s { s with idles := n } :=
  ⟨⟨rfl, id, id, id, id, id, id, id, id⟩, .of_eq rfl rfl rfl⟩

variable {s}

theorem Keeps.respond (h : Keeps s t) (st : Status) (b : List Byte) : Keeps s (t.respond st b) :=
  h.trans (respond_keeps t st b)

theorem Keeps.refuse (h : Keeps s t) (st : Status) : Keeps s (t.refuse st) := h.trans (refuse_keeps t st)

theorem TableKeeps.respond (h : TableKeeps s t) (st : Status) (b : List Byte) : Keeps s (t.respond st b) :=
  h.toKeeps.respond st b

theorem TableKeeps.refuse (h : TableKeeps s t) (st : Status) : Keeps s (t.refuse st) := h.toKeeps.refuse st

theorem Keeps.raise (h : Keeps s t) (e : Event) : Keeps s (t.raise e) := h.table (raise_keeps t e)

/-! ### The constants' marks (R170, R204) -/

/-- The marks of the constants are written; their contents stay. -/
theorem setMarks_keeps (s : State) (b b' : Bool) : Keeps s (s.setConstants { s.constants with damaged := b, sound := b' }) := by
  refine ⟨⟨rfl, id, id, id, id, id, id, id, fun h => ?_⟩, rfl, fun _ => rfl, fun _ => rfl⟩
  obtain ⟨h1, h2, h3, h4, h5⟩ := resultsWf_iff.1 h
  exact resultsWf_iff.2 ⟨h1, h2, h3, h4, h5⟩

theorem checkConstants_keeps (s : State) (again : Bool) : Keeps s (s.checkConstants again) := by
  unfold State.checkConstants
  split
  · split
    · exact (raise_keeps s _).toKeeps
    · exact .refl s
  split
  · exact .refl s
  · exact (setMarks_keeps s true s.constants.sound).raise _

theorem failRecord_keeps (s : State) (r : RecordId) : Keeps s (s.failRecord r) := by
  cases r with
  | station w =>
    simp only [State.failRecord]
    split
    · next e he => exact (TableKeeps.raise (setStation_keeps (e' := { e with damaged := true }) he fun h => h)).toKeeps
    · exact .refl s
  | occupation i =>
    simp only [State.failRecord]
    split
    · next o ho =>
      exact (TableKeeps.raise (setOcc_keeps (o' := { o with damaged := true }) ho (.of_eq rfl rfl rfl rfl))).toKeeps
    · exact .refl s
  | loop l =>
    simp only [State.failRecord]
    split
    · next r hr =>
      exact (TableKeeps.raise (setLoop_keeps (r' := { r with damaged := true }) hr ⟨fun h => h, id, le_rfl⟩)).toKeeps
    · exact .refl s
  | constants => exact (setMarks_keeps s true s.constants.sound).raise _
  | constituent k => exact (TableKeeps.raise (setConstituent_keeps s k true (s.constituent k).sound)).toKeeps
  | site k => exact (TableKeeps.raise (setSite_keeps s k true (s.site k).sound)).toKeeps

theorem upsetRecord_keeps (s : State) (r : RecordId) : Keeps s (s.upsetRecord r) := by
  cases r with
  | station w =>
    simp only [State.upsetRecord]
    split
    · next e he => exact (setStation_keeps (e' := { e with sound := false }) he fun h => h).toKeeps
    · exact .refl s
  | occupation i =>
    simp only [State.upsetRecord]
    split
    · next o ho => exact (setOcc_keeps (o' := { o with sound := false }) ho (.of_eq rfl rfl rfl rfl)).toKeeps
    · exact .refl s
  | loop l =>
    simp only [State.upsetRecord]
    split
    · next r hr => exact (setLoop_keeps (r' := { r with sound := false }) hr ⟨fun h => h, id, le_rfl⟩).toKeeps
    · exact .refl s
  | constants => exact setMarks_keeps s s.constants.damaged false
  | constituent k => exact (setConstituent_keeps s k (s.constituent k).damaged false).toKeeps
  | site k => exact (setSite_keeps s k (s.site k).damaged false).toKeeps

theorem readOut_keeps (s : State) (w : Nat) : Keeps s (s.readOut w) := by
  unfold State.readOut
  split
  · exact ((late_keeps s none).trans (upsetRecord_keeps _ _)).table (checkStation_keeps _ w)
  · exact (checkStation_keeps s w).toKeeps

/-! ### The station table (R5, R14, R23) -/

/-- Another station table and another order of its sets, where their law holds. -/
theorem stations_keeps {x : Slots Station} {y : Slots (List Nat)}
    (h : s.stationsWf = true → ({ s with stations := x, recency := y } : State).stationsWf = true) :
    Keeps s { s with stations := x, recency := y } := by
  refine ⟨⟨rfl, id, id, id, id, h, id, id, fun hr => ?_⟩, .of_eq rfl rfl rfl⟩
  obtain ⟨h1, h2, h3, h4, h5⟩ := resultsWf_iff.1 hr
  exact resultsWf_iff.2 ⟨h1, h2, h h3, h4, h5⟩

theorem touch_keeps {w : Nat} (hsome : (s.station? w).isSome = true) : Keeps s (s.touch w) :=
  stations_keeps (x := s.stations) fun h => stationsWf_touch h hsome

theorem freeEntry_keeps (s : State) (w : Nat) : Keeps s (s.freeEntry w) :=
  stations_keeps fun h => stationsWf_freeEntry h w

/-! ### The loop table -/

/-- R113, R117, R122, R202: a loop is written, where it has the fields of its state. -/
theorem putLoop_lawful {l : Nat} {r : Loop} (h : s.loopsWf = true → l < Config.loops ∧ loopWf r = true) :
    Keeps s (s.putLoop l r) :=
  ⟨⟨rfl, id, id, id, id, id, fun hs => loopsWf_setLoop hs (h hs).1 (h hs).2, id, id⟩, .of_eq rfl rfl rfl⟩

/-! ### The engine (R135, R141, R148) -/

/-- Another engine: its parts agree, it has work in READY alone, and its job's figures lie in their ranges. -/
theorem Keeps.setEngine (h : Keeps s t) {e : Engine} (hw : t.engine.wf = true → e.wf = true)
    (hs : s.recordsWf = true → e.state = .idle ∨ t.inService = true)
    (hd : s.resultsWf = true → t.resultsWf = true → optAll (fun f : Flight => optAll calcWf f.drift) e.flight = true) :
    Keeps s { t with engine := e } := by
  refine ⟨⟨h.pending, h.events, fun he => hw (h.engine he), h.clock, h.front, h.stations, h.loops, fun hr => ?_,
    fun hr => ?_⟩, h.contents.trans (.of_eq rfl rfl rfl)⟩
  · obtain ⟨h1, -, h3, h4, h5, h6⟩ := recordsWf_iff.1 (h.records hr)
    exact recordsWf_iff.2 ⟨h1, hs hr, h3, h4, h5, h6⟩
  · obtain ⟨h1, h2, h3, -, h5⟩ := resultsWf_iff.1 (h.results hr)
    exact resultsWf_iff.2 ⟨h1, h2, h3, hd hr (h.results hr), h5⟩

/-! ### The front end and the clock -/

theorem setFront_keeps {f : FrontEnd} (h : s.constantsWf = true → FrontLaw s.front → FrontLaw f) :
    Keeps s { s with front := f } := by
  refine ⟨⟨rfl, id, id, id, fun hs => ?_, id, id, id, id⟩, .of_eq rfl rfl rfl⟩
  obtain ⟨hc, hf⟩ := frontWf_iff.1 hs
  exact frontWf_iff.2 ⟨hc, h hc hf⟩

theorem setClock_keeps {c : Clock} (h : s.clock.wf = true → c.wf = true) : Keeps s { s with clock := c } :=
  ⟨⟨rfl, id, id, h, id, id, id, id, id⟩, .of_eq rfl rfl rfl⟩

/-! ### The pool and the window (R29, R36) -/

/-- Another pool, where its laws hold. -/
theorem occs_keeps {x : Slots Occ} (hr : s.recordsWf = true → ({ s with occs := x } : State).recordsWf = true)
    (ho : (∀ p ∈ s.occs, occInRange p.2 = true) → ∀ p ∈ x, occInRange p.2 = true) : Keeps s { s with occs := x } := by
  refine ⟨⟨rfl, id, id, id, id, id, id, hr, fun hs => ?_⟩, .of_eq rfl rfl rfl⟩
  obtain ⟨h1, h2, h3, h4, h5⟩ := resultsWf_iff.1 hs
  exact resultsWf_iff.2 ⟨h1, h2, h3, h4, ho h5⟩

/-- The counts, sums and marks of the open window. -/
theorem updateWindow_keeps {w w' : Window} (hs : s.window = some w) (hocc : w'.occ = w.occ) (hwf : w.wf = true → w'.wf = true) :
    Keeps s { s with window := some w' } := by
  refine ⟨⟨rfl, id, id, id, id, id, id, fun hr => ?_, id⟩, .of_eq rfl rfl rfl⟩
  obtain ⟨h1, h2, h3, h4, h5, h6⟩ := recordsWf_iff.1 hr
  obtain ⟨hw, hin, hopen⟩ := h1 w hs
  have hiswindow : ∀ i, ({ s with window := some w' } : State).isWindow i = s.isWindow i := fun i => by
    simp only [State.isWindow, hs, hocc]
  refine recordsWf_iff.2 ⟨fun v hv => ?_, h2, h3, h4, h5, fun i hi => ?_⟩
  · obtain rfl := Option.some.inj hv
    exact ⟨hwf hw, hin, hocc ▸ hopen⟩
  · have := h6 i hi
    rw [State.mayBeOpen] at this ⊢
    rwa [hiswindow]

end Sys2Proof.Machine
end

