-- ==== Sys2Proof/Proofs/Invariants/ScanPasses.lean ====
section
/-! SUPPORT. The passes of the scan and its end: their progress, and the invariants that they keep (R195, R196, R198). -/

namespace Sys2Proof.Machine

open Sys2Proof

variable {s t u : State}

/-! ### The progress of a pass (R195) -/

theorem inPass_iff {n : Nat} : s.inPass n = true ↔
    s.part = .starting ∧ s.resetHeld = false ∧ ∃ c, s.scan = some c ∧ c.pass = n ∧ c.ended = none := by
  unfold State.inPass
  cases s.scan <;> simp [and_assoc]

/-- R195: where the scan stands after more steps of a pass, the count taken beyond its end or not. -/
theorem stand_advance (c : Scan) (size k : Nat) : (c.advance size (min k (size - c.cursor))).stand =
    if c.cursor + k < size then (c.origin, c.pass, c.ended, c.cursor + k) else (c.origin, c.pass + 1, c.ended, 0) := by
  unfold Scan.advance
  by_cases h : c.cursor + k < size
  · have hk : min k (size - c.cursor) = k := by omega
    rw [hk, if_pos h, if_pos h]
    rfl
  · rw [if_neg (by omega), if_neg h]
    rfl

theorem stand_congr {c d : Scan} (h : d.stand = c.stand) (size k : Nat) : (d.advance size k).stand = (c.advance size k).stand := by
  obtain ⟨ho, hp, he, hc⟩ : d.origin = c.origin ∧ d.pass = c.pass ∧ d.ended = c.ended ∧ d.cursor = c.cursor := by
    simpa [Scan.stand] using h
  unfold Scan.advance
  rw [hc]
  split <;> simp [Scan.stand, ho, hp, he]

/-- R195: the steps of a pass, and where it stands after them. -/
theorem scanPass_spec {c : Scan} {n size : Nat} {unit : State → Nat → State}
    (hunit : ∀ s k, s.part = .starting → TableKeeps s (unit s k)) (hp : s.part = .starting) (hheld : s.resetHeld = false)
    (hc : s.scan = some c) (hpass : c.pass = n) (hended : c.ended = none) (steps : Nat) :
    ∃ d, TableKeeps s ((List.range' c.cursor (min steps (size - c.cursor))).foldl unit s) ∧
      scanPass n size unit steps s =
        { (List.range' c.cursor (min steps (size - c.cursor))).foldl unit s with scan := some d } ∧
      d.stand = if c.cursor + steps < size then (c.origin, c.pass, c.ended, c.cursor + steps)
        else (c.origin, c.pass + 1, c.ended, 0) := by
  have hin : s.inPass n = true := inPass_iff.2 ⟨hp, hheld, c, hc, hpass, hended⟩
  have hcursor : s.cursor = c.cursor := by simp [State.cursor, hc]
  have hkeeps := units_keeps hunit (List.range' c.cursor (min steps (size - c.cursor))) hp
  have hstand := hkeeps.scan
  rw [hc, Option.map_some] at hstand
  obtain ⟨e, he, hes⟩ := Option.map_eq_some_iff.1 hstand
  refine ⟨e.advance size (min steps (size - c.cursor)), hkeeps, ?_, (stand_congr hes _ _).trans (stand_advance c size steps)⟩
  rw [scanPass, if_pos hin, hcursor]
  dsimp only
  rw [he, Option.map_some]

/-! ### The invariants -/

/-- R195, R196: the report of a scan in progress moves on where no record is open that it says to be freed. -/
theorem setScan_keeps {c d : Scan} (hs : s.scan = some c) (hended : d.ended = c.ended)
    (hclear : s.recordsWf = true → s.part = .starting ∧ ∀ i, s.opensAt i → (5 ≤ d.pass ∨ d.pass = 4 ∧ i < d.cursor) → False) :
    Keeps s { s with scan := some d } := by
  refine ⟨⟨rfl, id, id, id, id, id, id, fun hr => ?_, id⟩, .of_eq rfl rfl rfl⟩
  obtain ⟨hp, hnone⟩ := hclear hr
  obtain ⟨h1, h2, h3, h4, h5, h6⟩ := recordsWf_iff.1 hr
  refine recordsWf_iff.2 ⟨h1, h2, h3.trans ?_, h4, h5, fun i hi => ?_⟩
  · simp [State.scanning, hs, hended]
  · have := hnone i hi
    simp only [State.mayBeOpen, hp, State.scanClears, Bool.or_eq_true, Bool.not_eq_true', Bool.or_eq_false_iff,
      Bool.and_eq_false_iff, decide_eq_false_iff_not]
    refine .inr ⟨fun h => this (.inl h), ?_⟩
    by_cases hd : d.pass = 4
    · exact .inr fun h => this (.inr ⟨hd, h⟩)
    · exact .inl hd

theorem index_lt_of_opensAt (h : s.recordsWf = true) {i : Nat} (hi : s.opensAt i) : i < Config.poolSize := by
  obtain ⟨o, ho, -⟩ := hi
  exact (occWf_of_occ? h ho).1

/-- R196: what the scan says of the windows that it has freed. -/
theorem not_scanClears_of_opensAt {c : Scan} (h : s.recordsWf = true) (hp : s.part = .starting) (hheld : s.resetHeld = false)
    (hc : s.scan = some c) {i : Nat} (hi : s.opensAt i) : ¬(5 ≤ c.pass ∨ c.pass = 4 ∧ i < c.cursor) := by
  have := (recordsWf_iff.1 h).windows i hi
  simp only [State.mayBeOpen, hp, hheld, State.scanClears, hc, Bool.false_or, Bool.not_eq_true', Bool.or_eq_false_iff,
    Bool.and_eq_false_iff, decide_eq_false_iff_not] at this
  rintro (h5 | ⟨h4, hlt⟩)
  · exact this.1 h5
  · exact this.2.elim (fun h => h h4) fun h => h hlt

/-- A pass of the scan keeps every invariant: the fourth alone says of records that it has freed them. -/
theorem scanPass_keeps {n size : Nat} {unit : State → Nat → State}
    (hunit : ∀ s k, s.part = .starting → TableKeeps s (unit s k)) (hwindows : n = 4 → size = 512 ∧ unit = windowsUnit)
    (steps : Nat) : Keeps s (scanPass n size unit steps s) := by
  by_cases hin : s.inPass n = true
  swap
  · rw [scanPass, if_neg hin]
    exact .refl s
  obtain ⟨hp, hheld, c, hc, hpass, hended⟩ := inPass_iff.1 hin
  obtain ⟨d, hkeeps, heq, hstand⟩ := scanPass_spec (size := size) hunit hp hheld hc hpass hended steps
  rw [heq]
  generalize hks : List.range' c.cursor (min steps (size - c.cursor)) = ks at hkeeps
  have hscan := hkeeps.scan
  rw [hc, Option.map_some] at hscan
  obtain ⟨e, he, hes⟩ := Option.map_eq_some_iff.1 hscan
  have heended : e.ended = c.ended := by
    simp only [Scan.stand, Prod.mk.injEq] at hes
    exact hes.2.2.1
  have hdended : d.ended = c.ended := by
    simp only [Scan.stand] at hstand
    split at hstand <;> simp only [Prod.mk.injEq] at hstand <;> exact hstand.2.2.1
  have hback : ∀ hr : (ks.foldl unit s).recordsWf = true, ∀ i, (ks.foldl unit s).opensAt i →
      ¬(5 ≤ c.pass ∨ c.pass = 4 ∧ i < c.cursor) := fun hr i hi => by
    have h := not_scanClears_of_opensAt hr (hkeeps.starting hp) (hkeeps.table.resetHeld.trans hheld) he hi
    simp only [Scan.stand, Prod.mk.injEq] at hes
    rwa [hes.2.1, hes.2.2.2] at h
  refine hkeeps.toKeeps.trans (setScan_keeps he (hdended.trans heended.symm) fun hr => ⟨hkeeps.starting hp, fun i hi hfreed => ?_⟩)
  have hnot := hback hr i hi
  by_cases h4 : n = 4
  · obtain ⟨rfl, rfl⟩ := hwindows h4
    have hlt : i < 512 := index_lt_of_opensAt hr hi
    have hout : i ∉ ks := fun hmem => not_opensAt_windowsUnits hp hmem hi
    rw [← hks, List.mem_range'_1] at hout
    simp only [Scan.stand] at hstand
    split at hstand <;> simp only [Prod.mk.injEq] at hstand <;> omega
  · simp only [Scan.stand] at hstand
    split at hstand <;> simp only [Prod.mk.injEq] at hstand <;> omega

/-! ### The eight passes, and the end -/

theorem duplicatesUnit_keeps (s : State) (k : Nat) (hp : s.part = .starting) : TableKeeps s (duplicatesUnit s k) :=
  earlyStep_keeps suspectTwins_keeps hp k

theorem damageUnit_keeps (s : State) (k : Nat) (hp : s.part = .starting) : TableKeeps s (damageUnit s k) :=
  earlyStep_keeps findDamage_keeps hp k

theorem windowsUnit_keeps (s : State) (k : Nat) (hp : s.part = .starting) : TableKeeps s (windowsUnit s k) :=
  scanStep_keeps scan_checkOcc_keeps freeWindow_keeps hp k

theorem orderUnit_keeps (s : State) (k : Nat) (hp : s.part = .starting) : TableKeeps s (orderUnit s k) :=
  scanStep_keeps readList_keeps sortList_keeps hp k

theorem unanchoredUnit_keeps (s : State) (k : Nat) (hp : s.part = .starting) : TableKeeps s (unanchoredUnit s k) :=
  scanStep_keeps readAnchor_keeps voidUnanchored_keeps hp k

theorem interruptedUnit_keeps (s : State) (k : Nat) (hp : s.part = .starting) : TableKeeps s (interruptedUnit s k) :=
  scanStep_keeps scan_checkLoop_keeps undoInterrupted_keeps hp k

theorem strayUnit_keeps (s : State) (k : Nat) (hp : s.part = .starting) : TableKeeps s (strayUnit s k) :=
  scanStep_keeps readDrift_keeps removeStray_keeps hp k

/-- R195: with the scan at its end no record is in a window, and READY may begin. -/
theorem scanDone_keeps (s : State) : Keeps s s.scanDone := by
  unfold State.scanDone
  split
  · next hin =>
    obtain ⟨hp, hheld, c, hc, hpass, hended⟩ := inPass_iff.1 hin
    suffices h : Keeps s { s with part := .ready, scan := s.scan.map fun c => { c with ended := some s.epoch } } from
      h.raise _
    refine ⟨⟨rfl, id, id, id, id, id, id, fun hr => ?_, id⟩, .of_eq rfl rfl rfl⟩
    have hlaw := recordsWf_iff.1 hr
    have hnone : s.window = none := hlaw.no_window_in_starting hp
    have hidle : s.engine.state = .idle := hlaw.engine.resolve_right (by simp [State.inService, hp])
    refine recordsWf_iff.2 ⟨fun w hw => ?_, .inl hidle, ?_, hlaw.slots, hlaw.groups, fun i hi => ?_⟩
    · cases hnone.symm.trans hw
    · simp [State.scanning, hc]
    · exact absurd (.inl (by omega)) (not_scanClears_of_opensAt hr hp hheld hc hi)
  · exact .refl s

end Sys2Proof.Machine
end

