-- ==== Sys2Proof/Proofs/ServiceControl/ScanRuns.lean ====
section
/-! OBLIGATION O60. The progress and the end of the scan (R195, R198). -/

namespace Sys2Proof.Machine

open Sys2Proof

variable {s t : State}

/-- R195: a pass takes its steps, and nothing but the tables, the events and the report changes. -/
theorem scanPass_advances {c : Scan} {n size : Nat} {unit : State → Nat → State} {row : Instr} {k : Nat}
    (hrow : exec row s = .next (scanPass n size unit k s))
    (hunit : ∀ s k, s.part = .starting → TableKeeps s (unit s k)) (hp : s.part = .starting) (hheld : s.resetHeld = false)
    (hc : s.scan = some c) (hpass : c.pass = n) (hended : c.ended = none) (hw : s.window = none) :
    ∃ t d, exec row s = .next t ∧ t.scan = some d ∧ t.part = .starting ∧ d.origin = c.origin ∧ d.ended = none ∧
      t.clock = s.clock ∧ t.recency = s.recency ∧ t.engine = s.engine ∧ t.window = none ∧ t.constants = s.constants ∧
      t.link = s.link ∧ t.front = s.front ∧
      (if c.cursor + k < size then d.pass = n ∧ d.cursor = c.cursor + k else d.pass = n + 1 ∧ d.cursor = 0) := by
  obtain ⟨d, hkeeps, heq, hstand⟩ := scanPass_spec (size := size) hunit hp hheld hc hpass hended k
  generalize (List.range' c.cursor (min k (size - c.cursor))).foldl unit s = u at hkeeps heq
  have hwindow : u.window = none := by
    simpa [hw] using hkeeps.table.window_isSome
  obtain ⟨horigin, hdended, hplace⟩ : d.origin = c.origin ∧ d.ended = none ∧
      (if c.cursor + k < size then d.pass = n ∧ d.cursor = c.cursor + k else d.pass = n + 1 ∧ d.cursor = 0) := by
    unfold Scan.stand at hstand
    split <;> simp_all
  rw [hrow, heq]
  exact ⟨_, d, rfl, rfl, hkeeps.starting hp, horigin, hdended, hkeeps.table.clock, hkeeps.recency, hkeeps.table.engine,
    hwindow, hkeeps.constants, hkeeps.table.link, hkeeps.table.front, hplace⟩

theorem scanAdvances_claim : Claims.ScanAdvances := by
  intro s c k n size row hp hheld hc hpass hended hw hrow
  have run : ∀ {unit : State → Nat → State}, exec row s = .next (scanPass n size unit k s) →
      (∀ s k, s.part = .starting → TableKeeps s (unit s k)) → _ := fun hrow hunit =>
    scanPass_advances hrow hunit hp hheld hc hpass hended hw
  simp only [List.mem_cons, Prod.mk.injEq, List.not_mem_nil, or_false] at hrow
  rcases hrow with ⟨rfl, rfl, rfl⟩ | ⟨rfl, rfl, rfl⟩ | ⟨rfl, rfl, rfl⟩ | ⟨rfl, rfl, rfl⟩ | ⟨rfl, rfl, rfl⟩ |
    ⟨rfl, rfl, rfl⟩ | ⟨rfl, rfl, rfl⟩ | ⟨rfl, rfl, rfl⟩
  · exact run rfl duplicatesUnit_keeps
  · exact run rfl damageUnit_keeps
  · exact run rfl fun s k hp => referencesUnit_keeps hp k
  · exact run rfl windowsUnit_keeps
  · exact run rfl orderUnit_keeps
  · exact run rfl unanchoredUnit_keeps
  · exact run rfl interruptedUnit_keeps
  · exact run rfl strayUnit_keeps

theorem scanDone_claim : Claims.ScanDone := by
  intro s c hp hheld hc hpass hended
  have hin : s.inPass 9 = true := inPass_iff.2 ⟨hp, hheld, c, hc, hpass, hended⟩
  have hexec : exec .scanDone s = .next s.scanDone := rfl
  have hmask : Event.scanDone.mask = 0x1000 := rfl
  rw [hexec, State.scanDone, if_pos hin]
  simp [State.raise, Events.raise, hheld, hc, hmask]

/-- Settles O60: a pass is a fold of steps on the tables, which leaves where the scan stands to the advance after it. -/
theorem scanRuns : Obligations.ScanRuns := ⟨scanAdvances_claim, scanDone_claim⟩

end Sys2Proof.Machine
end

