-- ==== Sys2Proof/Proofs/Invariants/Windows.lean ====
section
/-! SUPPORT. The operations of the reading window and the placing of jobs keep every invariant (R35 to R50, R135 to R137). -/

namespace Sys2Proof.Machine

open Sys2Proof

variable {s t u : State}

/-! ### The engine's parts (R135, R141, R148) -/

/-- R135, R141, R148: the engine is IDLE with nothing, or has a job in flight, and a fault context exactly in HALTED. -/
theorem Engine.wf_iff {e : Engine} : e.wf = true ↔ e.queue.length ≤ Config.queueLimit ∧
    ((e.state = .idle ∧ e.flight = none ∧ e.queue = [] ∧ e.fault = none) ∨
      ∃ f, e.flight = some f ∧ distinct f.written = true ∧
        (e.state = .working ∧ e.fault = none ∨ e.state = .halted ∧ ∃ c, e.fault = some c ∧ c.flight = f)) := by
  obtain ⟨st, flight, queue, last, fault⟩ := e
  cases st <;> cases flight <;> cases fault <;> simp [Engine.wf, and_comm]

theorem distinct_startFlight (j : Job) : distinct (startFlight j).written = true := rfl

/-- R137: an IDLE engine takes a job. -/
theorem Engine.wf_take {e : Engine} (h : e.wf = true) (hi : e.state = .idle) (j : Job) : (e.take j).wf = true := by
  obtain ⟨hq, h⟩ := Engine.wf_iff.1 h
  obtain ⟨-, -, -, hfault⟩ := h.resolve_right (by simp [hi])
  exact Engine.wf_iff.2 ⟨hq, .inr ⟨_, rfl, rfl, .inl ⟨rfl, hfault⟩⟩⟩

/-- R137: an engine at work takes one more job into a queue that is not full. -/
theorem Engine.wf_enqueue {e : Engine} (h : e.wf = true) (hi : e.state ≠ .idle) (hfull : e.full = false) (j : Job) :
    (e.enqueue j).wf = true := by
  obtain ⟨hq, h⟩ := Engine.wf_iff.1 h
  rw [Engine.full, decide_eq_false_iff_not, not_le] at hfull
  refine Engine.wf_iff.2 ⟨?_, .inr (h.resolve_left fun h => hi h.1)⟩
  simpa [Engine.enqueue] using hfull

theorem Engine.wf_place {e : Engine} (h : e.wf = true) (hfull : e.state ≠ .idle → e.full = false) (j : Job) :
    (e.place j).wf = true := by
  unfold Engine.place
  split
  · next hi => exact Engine.wf_take h hi j
  · next hi => exact Engine.wf_enqueue h hi (hfull hi) j

theorem calc_place {e : Engine} (h : optAll (fun f : Flight => optAll calcWf f.drift) e.flight = true) (j : Job) :
    optAll (fun f : Flight => optAll calcWf f.drift) (e.place j).flight = true := by
  unfold Engine.place
  split
  · rfl
  · exact h

/-- R137: a job is placed in READY with an engine whose queue has room. -/
theorem Keeps.place (h : Keeps s t) (hin : s.recordsWf = true → t.inService = true)
    (hfull : t.engine.state ≠ .idle → t.engine.full = false) (j : Job) :
    Keeps s { t with engine := t.engine.place j } :=
  h.setEngine (fun hw => Engine.wf_place hw hfull j) (fun hr => .inr (hin hr)) fun _ hr =>
    calc_place (resultsWf_iff.1 hr).flight j

/-! ### The end of a window (R47 to R49) -/

theorem State.isWindow_of_eq {w : Window} (h : s.window = some w) (i : Nat) : s.isWindow i = decide (w.occ = i) := by
  rw [State.isWindow, h]

/-- R36: without its window, the part has open records only where it had them outside the window. -/
theorem RecordsLaw.drop_window (h : RecordsLaw s) (hp : t.part = s.part) (hheld : t.resetHeld = s.resetHeld)
    (he : t.engine = s.engine) (hscan : t.scan.map Scan.stand = s.scan.map Scan.stand) (hw : t.window = none)
    (pool : PoolLaw t) (opens : ∀ i, t.opensAt i → s.opensAt i ∧ s.isWindow i = false) : RecordsLaw t where
  window w hw' := by cases hw.symm.trans hw'
  engine := by
    rw [he, State.inService, hp, hheld]
    exact h.engine
  scan := by
    rw [hp, scanning_of_stand hscan]
    exact h.scan
  slots := pool.1
  groups := pool.2
  windows i hi := by
    obtain ⟨hs, hnot⟩ := opens i hi
    have := h.windows i hs
    rw [State.mayBeOpen, hnot] at this
    rw [State.mayBeOpen, hp, hheld, scanClears_of_stand hscan, State.isWindow, hw]
    exact this

/-- R49: the record of the window becomes FREE with the window. -/
theorem dropRecord_keeps {i : Nat} (hw : s.isWindow i = true) :
    Keeps s { s with occs := slotErase s.occs i, window := none } := by
  refine ⟨⟨rfl, id, id, id, id, id, id, fun hr => ?_, fun hr => ?_⟩, .of_eq rfl rfl rfl⟩
  · have hlaw := recordsWf_iff.1 hr
    refine recordsWf_iff.2 (hlaw.drop_window rfl rfl rfl rfl rfl ⟨slotWf_slotErase hlaw.slots i, fun p hp =>
      hlaw.groups p (mem_of_mem_slotErase hp).1⟩ fun j hj => ?_)
    obtain ⟨o, ho, hin⟩ := hj
    have hne : j ≠ i := by
      rintro rfl
      simp [State.occ?] at ho
    refine ⟨⟨o, (slotGet_slotErase_of_ne _ hne).symm.trans ho, hin⟩, ?_⟩
    cases hwin : s.window with
    | none => simp [State.isWindow, hwin]
    | some w =>
      rw [State.isWindow_of_eq hwin, decide_eq_true_eq] at hw
      rw [State.isWindow_of_eq hwin, decide_eq_false_iff_not]
      exact fun h => hne (h.symm.trans hw)
  · obtain ⟨h1, h2, h3, h4, h5⟩ := resultsWf_iff.1 hr
    exact resultsWf_iff.2 ⟨h1, h2, h3, h4, fun p hp => h5 p (mem_of_mem_slotErase hp).1⟩

theorem removeWindow_keeps {w : Window} (hw : s.isWindow w.occ = true) (ways : List Nat) (cause : WindowCause) :
    Keeps s (s.removeWindow w ways cause) := by
  have hu := unlisted_keeps s ways w.occ
  have hdrop := dropRecord_keeps ((hu.table.isWindow_eq w.occ).trans hw)
  exact ((hu.toKeeps.trans hdrop).trans (lastWindow_keeps _ _)).raise _

/-! ### The record's place in its list (R3, R47) -/

theorem insertAfterLast_length (p : Nat → Bool) (i : Nat) (l : List Nat) :
    (insertAfterLast p i l).length = l.length + 1 := by
  have htail : ((l.reverse.takeWhile fun j => !p j).reverse).length ≤ l.length := by
    simpa using (List.takeWhile_prefix (l := l.reverse) (fun j => !p j)).length_le
  simp only [insertAfterLast, List.length_append, List.length_take, List.length_cons]
  omega

/-- R3: the place of a listed record makes its list no longer. -/
theorem placeByEpoch_length_le {i : Nat} {l : List Nat} (h : i ∈ l) (p : Nat → Bool) :
    (placeByEpoch p i l).length ≤ l.length := by
  unfold placeByEpoch
  dsimp only
  split
  · exact le_rfl
  · have hsum := congrArg List.length (List.takeWhile_append_dropWhile (p := (· ≠ i)) (l := l))
    have hrest : 1 ≤ (l.dropWhile (· ≠ i)).length := by
      rw [Nat.one_le_iff_ne_zero, ne_eq, List.length_eq_zero_iff, List.dropWhile_eq_nil_iff]
      exact fun hall => by simpa using hall i h
    rw [List.length_append] at hsum
    rw [List.length_append, insertAfterLast_length, List.length_drop]
    omega

theorem checkOccs_station? (s : State) (is : List Nat) (w : Nat) : (s.checkOccs is).station? w = s.station? w := by
  unfold State.checkOccs
  induction is generalizing s with
  | nil => rfl
  | cons i is ih =>
    rw [List.foldl_cons, ih]
    obtain ⟨a, ev, h⟩ := checkOcc_frame (s := s) i
    rw [h]
    rfl

/-- Log 16: an owner that is not damaged lists the record. -/
theorem mem_list_of_ownerOf {n i w : Nat} {e : Station} (h : s.ownerOf n i = some w) (he : s.station? w = some e)
    (hd : e.damaged = false) : i ∈ e.list := by
  rcases ownerOf_eq_some.1 h with h | ⟨-, h⟩
  all_goals
    obtain ⟨e', he', hp⟩ := wayIs_iff.1 (List.find?_some h)
    obtain rfl := Option.some.inj (he.symm.trans he')
  · simpa [hd] using hp
  · rw [hd] at hp
    cases hp

theorem placeInList_keeps (s : State) (n i epoch : Nat) : TableKeeps s (s.placeInList n i epoch) := by
  have h := checkStations_keeps s (waysOf n)
  unfold State.placeInList
  dsimp only
  split
  · next w hw =>
    split
    · next e he =>
      split
      · exact h
      · next hd =>
        have hlist := mem_list_of_ownerOf hw he (Bool.eq_false_iff.2 hd)
        refine (h.trans (checkOccs_keeps _ _)).trans (putChanged_keeps ((checkOccs_station? _ _ w).trans he) fun hwf => ?_)
        exact stationWf_of_length_le hwf (placeByEpoch_length_le hlist _)
    · exact h
  · exact h

/-! ### The close (R47, R48) -/

/-- R47: the record of a closed window, which has no results yet. -/
theorem occWf_closedOcc {o : Occ} (h : occWf o = true) (hin : inWindow o = true) (w : Window) (silence : Bool) (start rev : Nat) :
    occWf (closedOcc o w silence start rev) = true := by
  have hlaw := occWf_iff.1 h
  have hnone := (hlaw.inside hin).2
  exact occWf_iff.2 ⟨nofun, fun _ => rfl, fun _ => hnone, fun h => h.elim nofun nofun, hlaw.drift⟩

/-- R47: the record of the window is written as closed, work on the tables follows, and the window goes. -/
theorem closeRecord_keeps {w : Window} {x : Slots Occ} (hw : s.window = some w)
    (hpool : s.recordsWf = true → PoolLaw { s with occs := x } ∧
      ∀ i, ({ s with occs := x } : State).opensAt i → s.opensAt i ∧ w.occ ≠ i)
    (hres : (∀ p ∈ s.occs, occInRange p.2 = true) → ∀ p ∈ x, occInRange p.2 = true)
    (k : TableKeeps { s with occs := x } t) : Keeps s { t with window := none } := by
  have hk := k.toKeeps
  refine ⟨⟨hk.pending, hk.events, hk.engine, hk.clock, hk.front, hk.stations, hk.loops, fun hr => ?_, fun hr => ?_⟩,
    .trans (t := { s with occs := x }) (.of_eq rfl rfl rfl) (hk.contents.trans (.of_eq rfl rfl rfl))⟩
  · obtain ⟨hlaw, hopens⟩ := hpool hr
    refine recordsWf_iff.2 ((recordsWf_iff.1 hr).drop_window k.table.part k.table.resetHeld k.table.engine k.scan rfl
      (k.pool hlaw) fun i hi => ?_)
    obtain ⟨hs, hne⟩ := hopens i (k.opens i hi)
    exact ⟨hs, (State.isWindow_of_eq hw i).trans (decide_eq_false hne)⟩
  · obtain ⟨h1, h2, h3, h4, h5⟩ := resultsWf_iff.1 hr
    exact k.results (resultsWf_iff.2 ⟨h1, h2, h3, h4, hres h5⟩)

/-- R47: a closed record takes the place of the window's, which is open. -/
theorem replaceRecord_keeps {w : Window} {o c : Occ} (hw : s.window = some w) (ho : s.occ? w.occ = some o)
    (hwf : occWf o = true → inWindow o = true → occWf c = true) (hout : inWindow c = false)
    (hres : occInRange o = true → occInRange c = true) (k : TableKeeps (s.setOcc w.occ c) t) :
    Keeps s { t with window := none } := by
  have hgroups : s.recordsWf = true → ∀ p ∈ slotSet s.occs w.occ c, occWf p.2 = true := fun hr p hp => by
    rcases mem_of_mem_slotSet hp with rfl | hp
    · obtain ⟨o', ho', hin⟩ := ((recordsWf_iff.1 hr).window w hw).2.2
      obtain rfl := Option.some.inj (ho.symm.trans ho')
      exact hwf (occWf_of_occ? hr ho).2 hin
    · exact (recordsWf_iff.1 hr).groups p hp
  have hopens : ∀ j, (s.setOcc w.occ c).opensAt j → s.opensAt j ∧ w.occ ≠ j := by
    rintro j ⟨q, hq, hin⟩
    rw [occ?_setOcc] at hq
    split at hq
    · obtain rfl := Option.some.inj hq
      cases hout.symm.trans hin
    · next hne => exact ⟨⟨q, hq, hin⟩, fun e => hne e.symm⟩
  refine closeRecord_keeps hw (fun hr => ⟨⟨?_, hgroups hr⟩, hopens⟩) (fun hall p hp => ?_) k
  · exact slotWf_slotSet (recordsWf_iff.1 hr).slots (occWf_of_occ? hr ho).1 c
  · rcases mem_of_mem_slotSet hp with rfl | hp
    · exact hres (hall (w.occ, o) (mem_of_slotGet ho))
    · exact hall p hp

theorem writeClose_keeps {w : Window} (hw : s.window = some w) (start rev : Nat) (cause : WindowCause) :
    Keeps s (s.writeClose w start rev cause) := by
  unfold State.writeClose
  cases ho : s.occ? w.occ with
  | none =>
    have hvoid : s.recordsWf = true → False := fun hr => by
      obtain ⟨o, ho', -⟩ := ((recordsWf_iff.1 hr).window w hw).2.2
      cases ho.symm.trans ho'
    exact ((closeRecord_keeps (x := s.occs) hw (fun hr => (hvoid hr).elim) id (placeInList_keeps s _ _ _)).trans
      (lastWindow_keeps _ _)).raise _
  | some o =>
    have hplace := placeInList_keeps (s.putOcc w.occ (closedOcc o w (cause = WindowCause.silence) start rev)) w.station w.occ
      (closeEpoch start w.sums.sumT w.sums.n)
    rw [State.putOcc] at hplace
    refine ((replaceRecord_keeps hw ho ?_ ?_ ?_ hplace).trans (lastWindow_keeps _ _)).raise _
    · exact fun h hin => occWf_closedOcc h hin w (cause = WindowCause.silence) start rev
    · rfl
    · exact fun h => h

theorem writeClose_inService (s : State) (w : Window) (start rev : Nat) (cause : WindowCause) :
    (s.writeClose w start rev cause).inService = s.inService := by
  unfold State.writeClose
  dsimp only
  split
  · exact (placeInList_tableStep _ _ _ _).inService_eq
  · exact (placeInList_tableStep s _ _ _).inService_eq

/-- R48: what becomes of the automatic submission at the end of a close. -/
theorem Keeps.submitAutomatic (h : Keeps s t) (hin : s.recordsWf = true → t.inService = true) (i : Nat) :
    Keeps s (t.submitAutomatic i) := by
  unfold State.submitAutomatic
  split
  · exact (h.table (setUnqueued_keeps t i)).raise _
  · next hsub =>
    refine h.place hin (fun hidle => ?_) _
    unfold Engine.submission at hsub
    rw [Bool.eq_false_iff]
    intro hfull
    cases hst : t.engine.state <;> simp_all

theorem closeWindow_keeps {w : Window} (hw : s.window = some w) (start rev : Nat) (cause : WindowCause) :
    Keeps s (s.closeWindow w start rev cause) := by
  unfold State.closeWindow
  split
  · exact removeWindow_keeps ((State.isWindow_of_eq hw _).trans (decide_eq_true rfl)) _ _
  · refine (writeClose_keeps hw start rev cause).submitAutomatic (fun hr => ?_) _
    exact (writeClose_inService s w start rev cause).trans ((recordsWf_iff.1 hr).window w hw).2.1

/-! ### Entering COLLECTING (R38) -/

theorem collect_wf {w : Window} (h : w.wf = true) (epoch rev : Nat) (f : FrontEnd) : (w.collect epoch rev f).wf = true := by
  simp only [Window.wf, Window.collect, Bool.and_eq_true] at h ⊢
  exact ⟨h.1, decide_eq_true (Nat.zero_le _)⟩

/-- R38: the window's record is COLLECTING with it. -/
theorem setCollecting_keeps {w : Window} (hw : s.window = some w) : Keeps s (s.setOccState w.occ .collecting) := by
  unfold State.setOccState
  split
  · next o ho =>
    by_cases hin : inWindow o = true
    · refine (putOcc_keeps (o' := { o with state := .collecting }) ho ⟨fun h => ?_, fun _ => hin, fun _ _ => rfl,
        fun _ h => h⟩).toKeeps
      have hlaw := occWf_iff.1 h
      exact occWf_iff.2 ⟨fun _ => hlaw.inside hin, nofun, nofun, fun h => h.elim nofun nofun, hlaw.drift⟩
    · refine occs_keeps (fun hr => absurd ?_ hin) fun hall p hp => ?_
      · obtain ⟨o', ho', hin'⟩ := ((recordsWf_iff.1 hr).window w hw).2.2
        obtain rfl := Option.some.inj (ho.symm.trans ho')
        exact hin'
      · rcases mem_of_mem_slotSet hp with rfl | hp
        · have h := hall (w.occ, o) (mem_of_slotGet ho)
          exact h
        · exact hall p hp
  · exact .refl s

theorem setOccState_window (s : State) (i : Nat) (st : OccState) : (s.setOccState i st).window = s.window := by
  unfold State.setOccState
  split <;> rfl

theorem enterCollecting_keeps {w : Window} (hw : s.window = some w) : Keeps s (s.enterCollecting w) := by
  have hwc : (s.checkConstants false).window = some w := by
    rw [checkConstants_frame]
    exact hw
  have hset := (checkConstants_keeps s false).trans (setCollecting_keeps hwc)
  exact hset.trans (updateWindow_keeps ((setOccState_window _ _ _).trans hwc) rfl fun h => collect_wf h _ _ _)

/-! ### Counts that complete (R37, R44, R46, R69) -/

theorem takeSettle_keeps (s : State) : Keeps s s.takeSettle := by
  unfold State.takeSettle
  split
  · next w hw =>
    split
    · exact enterCollecting_keeps hw
    · exact .refl s
  · exact .refl s

theorem takeElapsed_keeps (s : State) : Keeps s s.takeElapsed := by
  unfold State.takeElapsed
  split
  · next w hw =>
    split
    · split
      · exact closeWindow_keeps hw _ _ _
      · exact .refl s
    · exact .refl s
  · exact .refl s

theorem silenceWindow_keeps (s : State) : Keeps s s.silenceWindow := by
  unfold State.silenceWindow
  split
  · next w hw =>
    split
    · exact closeWindow_keeps hw _ _ _
    · exact .refl s
  · exact .refl s

theorem takeSilence_keeps (s : State) : Keeps s s.takeSilence := by
  unfold State.takeSilence
  split
  · split
    · refine Keeps.trans (setFront_keeps fun _ h => ?_) (silenceWindow_keeps _)
      exact ⟨h.x, h.y, h.t, h.heldX, h.heldY, h.heldT, h.lag, rfl⟩
    · exact .refl s
  · exact .refl s

end Sys2Proof.Machine
end

