-- ==== Sys2Proof/Proofs/Invariants/Ticks.lean ====
section
/-! SUPPORT. What is due, one tick, and the base period keep every invariant (R114, R176 to R178). -/

namespace Sys2Proof.Machine

open Sys2Proof

variable {s t u : State}

/-! ### The clock's own law (R176, R178) -/

theorem Clock.wf_iff {c : Clock} : c.wf = true ↔ c.seconds ≤ 4294967295 ∧ c.ticks < 1024 ∧
    c.held = decide (c.seconds = 4294967295) ∧ (-2048 ≤ c.trim ∧ c.trim ≤ 2048) ∧ c.slew < 64 ∧ (c.trim ≠ 0 ∨ c.slew = 0) ∧
      optAll (· ≤ 1) c.left = true := by
  simp only [Clock.wf, Bool.and_eq_true, Bool.or_eq_true, decide_eq_true_eq, inRange, and_assoc, ne_eq]
  rfl

/-- R176: a clock that does not stand at its top value goes on by one tick. -/
theorem Clock.wf_tick {c : Clock} (h : c.wf = true) (hheld : c.held = false) : c.tick.wf = true := by
  obtain ⟨hsec, hticks, htop, htrim, hslew, hzero, hleft⟩ := Clock.wf_iff.1 h
  have hne : c.seconds ≠ 4294967295 := of_decide_eq_false (htop.symm.trans hheld)
  refine Clock.wf_iff.2 ⟨?_, clock_tick_ticks_lt hticks, clock_tick_heldAtTop htop, ?_, ?_, ?_, ?_⟩
  · unfold Clock.tick
    split <;> dsimp only <;> omega
  · rwa [clock_tick_trim]
  · rwa [clock_tick_slew]
  · rwa [clock_tick_trim, clock_tick_slew]
  · rwa [clock_tick_left]

/-- R178: a slew works off one tick of the remainder. -/
theorem Clock.wf_workOff {c : Clock} (h : c.wf = true) {left : Option Nat} (hleft : optAll (· ≤ 1) left = true) :
    ({ c.workOff with left := left } : Clock).wf = true := by
  obtain ⟨hsec, hticks, htop, htrim, -⟩ := Clock.wf_iff.1 h
  refine Clock.wf_iff.2 ⟨hsec, hticks, htop, ?_, Nat.zero_lt_succ _, .inr rfl, hleft⟩
  simp only [Clock.workOff]
  split <;> omega

theorem Clock.wf_count {c : Clock} (h : c.wf = true) (hslews : c.slews = false) : c.count.wf = true := by
  unfold Clock.count
  split
  · exact h
  · next htrim =>
    obtain ⟨hsec, hticks, htop, hrange, -, -, hleft⟩ := Clock.wf_iff.1 h
    have : ¬(c.trim ≠ 0 ∧ 63 ≤ c.slew) := fun hs => by simp [clock_slews_iff.2 hs] at hslews
    exact Clock.wf_iff.2 ⟨hsec, hticks, htop, hrange, by dsimp only; omega, .inl htrim, hleft⟩

theorem Clock.wf_delivered {c : Clock} (h : c.wf = true) : ({ c with left := none } : Clock).wf = true := by
  obtain ⟨hsec, hticks, htop, htrim, hslew, hzero, -⟩ := Clock.wf_iff.1 h
  exact Clock.wf_iff.2 ⟨hsec, hticks, htop, htrim, hslew, hzero, rfl⟩

/-! ### What is due (log 5) -/

theorem takeDue_keeps (s : State) : Keeps s s.takeDue :=
  (((takeSettle_keeps s).trans (takeElapsed_keeps _)).trans (takeSilence_keeps _)).table
    (.foldl takeExpiry_keeps _ _)

/-- No window stands whose elapsed count is complete. -/
def State.Unripe (s : State) : Prop := ∀ w, s.window = some w → w.complete = false

theorem TableStep.unripe (h : TableStep s t) (hs : s.Unripe) : t.Unripe := fun w hw => by
  have hmap := h.window
  rw [hw] at hmap
  cases hv : s.window with
  | none => simp [hv] at hmap
  | some v =>
    rw [hv] at hmap
    have hcore : ({ w with memberOf := none } : Window) = { v with memberOf := none } := Option.some.inj hmap
    have hcomplete := congrArg Window.complete hcore
    exact hcomplete.trans (hs v hv)

theorem unripe_of_none (h : s.window = none) : s.Unripe := fun _ hw => nomatch h.symm.trans hw

theorem submitAutomatic_window_none (h : s.window = none) (i : Nat) : (s.submitAutomatic i).window = none := by
  unfold State.submitAutomatic
  split
  · have hsome := (setUnqueued_tableStep s i).window_isSome
    rw [h] at hsome
    exact Option.isNone_iff_eq_none.1 (Option.isSome_eq_false_iff.1 hsome)
  · exact h

theorem closeWindow_window (s : State) (w : Window) (start rev : Nat) (cause : WindowCause) :
    (s.closeWindow w start rev cause).window = none := by
  unfold State.closeWindow
  split
  · rfl
  · exact submitAutomatic_window_none rfl _

theorem takeElapsed_unripe (s : State) : s.takeElapsed.Unripe := by
  unfold State.takeElapsed
  split
  · next w hw =>
    split
    · next start el rev hphase =>
      split
      · exact unripe_of_none (closeWindow_window s _ _ _ _)
      · next hlt =>
        rintro v hv
        obtain rfl := Option.some.inj (hw.symm.trans hv)
        simpa [Window.complete, hphase] using hlt
    · next c hphase =>
      rintro v hv
      obtain rfl := Option.some.inj (hw.symm.trans hv)
      simp [Window.complete, hphase]
  · next hw => exact unripe_of_none hw

theorem silenceWindow_unripe (h : s.Unripe) : s.silenceWindow.Unripe := by
  unfold State.silenceWindow
  split
  · split
    · exact unripe_of_none (closeWindow_window s _ _ _ _)
    · exact h
  · exact h

theorem takeSilence_unripe (h : s.Unripe) : s.takeSilence.Unripe := by
  unfold State.takeSilence
  split
  · split
    · exact silenceWindow_unripe h
    · exact h
  · exact h

theorem takeDue_unripe (s : State) : s.takeDue.Unripe :=
  (TableStep.foldl takeExpiry_tableStep _ _).unripe (takeSilence_unripe (takeElapsed_unripe _))

/-- R69: while the front end runs, the silence count is below its limit. -/
def State.Heard (s : State) : Prop := s.mainRuns = true → ∀ g, s.front.live = some g → g.silence < Config.silenceLimit

theorem takeSilence_heard (s : State) : s.takeSilence.Heard := by
  unfold State.takeSilence
  split
  · next g hg =>
    split
    · intro _ v hv
      rw [silenceWindow_front] at hv
      cases hv
    · next hquiet =>
      rintro hm v hv
      obtain rfl := Option.some.inj (hg.symm.trans hv)
      exact not_le.1 fun h => hquiet ⟨hm, h⟩
  · next hg =>
    rintro - v hv
    cases hg.symm.trans hv

theorem TableStep.mainRuns_eq (h : TableStep s t) : t.mainRuns = s.mainRuns := by
  rw [State.mainRuns, h.part, h.resetHeld]
  rfl

theorem TableStep.heard (h : TableStep s t) (hs : s.Heard) : t.Heard := by
  rw [State.Heard, h.mainRuns_eq, h.front]
  exact hs

theorem takeDue_heard (s : State) : s.takeDue.Heard :=
  (TableStep.foldl takeExpiry_tableStep _ _).heard (takeSilence_heard _)

/-! ### One tick (R37, R38, R69, R176) -/

/-- The open window, if any, with other counts. -/
theorem mapWindow_keeps {f : Window → Window} (hocc : ∀ w, (f w).occ = w.occ)
    (hwf : ∀ w, s.window = some w → w.wf = true → (f w).wf = true) : Keeps s { s with window := s.window.map f } := by
  cases hw : s.window with
  | none =>
    have hsame : ({ s with window := Option.map f none } : State) = s := by rw [Option.map_none, ← hw]
    rw [hsame]
    exact .refl s
  | some w => exact updateWindow_keeps hw (hocc w) (hwf w hw)

theorem Window.tick_occ (w : Window) (clamp : Bool) : (w.tick clamp).occ = w.occ := by
  unfold Window.tick
  split
  · rfl
  · split <;> rfl

theorem Window.wf_iff {w : Window} : w.wf = true ↔ (w.settle ≤ 300 ∧ 10 ≤ w.duration ∧ w.duration ≤ 600) ∧
    match w.phase with
    | .settling c => c ≤ w.settle * 1024
    | .collecting _ elapsed _ => elapsed ≤ w.duration * 1024 := by
  unfold Window.wf
  cases w.phase <;> simp only [Bool.and_eq_true, decide_eq_true_eq, and_assoc] <;> rfl

theorem Window.wf_tick {w : Window} (h : w.wf = true) (hdue : w.complete = false) (clamp : Bool) :
    (w.tick clamp).wf = true := by
  obtain ⟨hreq, hcount⟩ := Window.wf_iff.1 h
  unfold Window.tick
  split
  · exact h
  · split
    · next c hphase =>
      rw [hphase] at hcount
      exact Window.wf_iff.2 ⟨hreq, (Nat.sub_le c 1).trans hcount⟩
    · next st el rev hphase =>
      simp only [Window.complete, hphase, ge_iff_le, decide_eq_false_iff_not, not_le] at hdue
      exact Window.wf_iff.2 ⟨hreq, hdue⟩

theorem frontLaw_tick {f : FrontEnd} (h : FrontLaw f) (hheard : ∀ g, f.live = some g → g.silence < Config.silenceLimit) :
    FrontLaw f.tick := by
  refine ⟨h.x, h.y, h.t, h.heldX, h.heldY, h.heldT, h.lag, ?_⟩
  have hlive := h.live
  cases hg : f.live with
  | none => simp [FrontEnd.tick, hg, optAll]
  | some g =>
    rw [hg] at hlive
    simp only [optAll, GsiLive.wf, Bool.and_eq_true, decide_eq_true_eq] at hlive
    simp only [FrontEnd.tick, hg, Option.map_some, optAll, GsiLive.wf, Bool.and_eq_true, decide_eq_true_eq]
    exact ⟨hheard g hg, hlive.2⟩

/-- A tick of the window and of the front end, with what was due taken. -/
theorem counted_keeps (hw : s.Unripe) (hf : s.Heard) {c : Clock} (hc : s.clock.wf = true → c.wf = true) :
    Keeps s { s with
      clock := c
      window := s.window.map fun w : Window => w.tick s.clamp
      front := if s.mainRuns then s.front.tick else s.front } := by
  have hwindow := mapWindow_keeps (s := s) (fun w => w.tick_occ s.clamp) fun w hs h => Window.wf_tick h (hw w hs) s.clamp
  refine (hwindow.trans (setClock_keeps (c := c) hc)).trans
    (setFront_keeps (f := if s.mainRuns then s.front.tick else s.front) fun _ h => ?_)
  split
  · next hm => exact frontLaw_tick h (hf hm)
  · exact h

theorem tick_keeps (h : s.clock.held = false) : Keeps s s.tick := by
  refine ((takeDue_keeps s).trans (counted_keeps (takeDue_unripe s) (takeDue_heard s) fun hc => ?_)).table
    (expiryCheck_keeps _)
  exact Clock.wf_tick hc ((congrArg Clock.held (takeDue_clock s)).trans h)

/-! ### The base period (R176, R178) -/

theorem slew_keeps (h : s.clock.held = false) : Keeps s s.slew := by
  unfold State.slew
  split
  · dsimp only
    split
    · exact tick_keeps h
    · exact (tick_keeps h).trans (setClock_keeps fun hc => Clock.wf_workOff hc rfl)
  · exact setClock_keeps fun hc => Clock.wf_workOff hc rfl

theorem finishSlew_keeps (h : s.clock.left.isSome = true → s.clock.held = false) : Keeps s s.finishSlew := by
  unfold State.finishSlew
  split
  · exact setClock_keeps Clock.wf_delivered
  · next hleft =>
    have hheld := h (by rw [hleft]; rfl)
    exact (setClock_keeps Clock.wf_delivered).trans (tick_keeps (s := s.setClock { s.clock with left := none }) hheld)
  · exact .refl s

/-- R178: a forward slew that leaves a second tick has not reached the top value. -/
theorem not_held_of_slewed {c : Clock} (hheld : c.held = false) (hleft : c.left = none)
    (h : c.slewed.left.isSome = true) : c.slewed.held = false := by
  unfold Clock.slewed at h ⊢
  split at h
  · split at h
    · rw [clock_tick_left, hleft] at h
      cases h
    · next htrim htop =>
      rw [if_pos htrim, if_neg htop]
      exact Bool.eq_false_iff.2 htop
  · next htrim =>
    rw [if_neg htrim]
    exact hheld

theorem basePeriod_keeps (s : State) : Keeps s s.basePeriod := by
  unfold State.basePeriod
  split
  · exact (takeDue_keeps s).table (expiryCheck_keeps _)
  next hheld =>
  have hheld := Bool.eq_false_iff.2 hheld
  split
  · exact finishSlew_keeps fun _ => hheld
  next hleft =>
  split
  · refine (slew_keeps hheld).trans (finishSlew_keeps ?_)
    rw [slew_clock]
    exact not_held_of_slewed hheld (by simpa using hleft)
  · next hslews =>
    refine (setClock_keeps fun hc => Clock.wf_count hc (Bool.eq_false_iff.2 hslews)).trans
      (tick_keeps (s := s.setClock s.clock.count) ?_)
    simp only [State.setClock_clock, Clock.count]
    split <;> exact hheld

theorem slewComplete_keeps (s : State) : Keeps s s.slewComplete := by
  unfold State.slewComplete
  split
  · next h =>
    simp only [Bool.and_eq_true, Bool.not_eq_true'] at h
    exact slew_keeps h.1.1
  · exact .refl s

/-! ### The clock's commands (R177 to R179) -/

theorem setClockBody_keeps (seconds ticks : Nat) (s : State) : Keeps s (setClockBody seconds ticks s) := by
  unfold setClockBody
  split
  · exact refuse_keeps s _
  next hrange =>
  split
  · exact refuse_keeps s _
  · refine (setClock_keeps fun _ => ?_).respond _ _
    simp only [Bool.not_eq_true, Bool.or_eq_false_iff, Bool.not_eq_false', decide_eq_true_eq] at hrange
    exact Clock.wf_iff.2 ⟨hrange.1, hrange.2, rfl, ⟨by simp [Clock.setTo], by simp [Clock.setTo]⟩, Nat.zero_lt_succ _, .inr rfl,
      rfl⟩

theorem trimClockBody_keeps (trim : Int) (s : State) : Keeps s (trimClockBody trim s) := by
  unfold trimClockBody
  split
  · exact refuse_keeps s _
  next hrange =>
  split
  · exact refuse_keeps s _
  · refine (setClock_keeps fun hc => ?_).respond _ _
    obtain ⟨hsec, hticks, htop, -, -, -, hleft⟩ := Clock.wf_iff.1 hc
    simp only [inRange, Bool.not_eq_true', Bool.not_eq_false, Bool.and_eq_true, decide_eq_true_eq] at hrange
    exact Clock.wf_iff.2 ⟨hsec, hticks, htop, hrange, Nat.zero_lt_succ _, .inr rfl, hleft⟩

end Sys2Proof.Machine
end

