-- ==== Sys2Proof/Proofs/Invariants/Sensors.lean ====
section
/-! SUPPORT. The sensor inputs keep every invariant (R39 to R42, R55 to R69), and so does an idle step. -/

namespace Sys2Proof.Machine

open Sys2Proof

variable {s t u : State}

/-! ### Ranges that the front end takes from the constants (R169) -/

theorem gate_ranges (h : s.constantsWf = true) : (16 ≤ s.constants.nums.tiltGate ∧ s.constants.nums.tiltGate ≤ 4096) ∧
    (16 ≤ s.constants.nums.tempGate ∧ s.constants.nums.tempGate ≤ 4096) ∧
      (1 ≤ s.constants.nums.lagFactor ∧ s.constants.nums.lagFactor ≤ 256) := by
  have hnums : numsInRange s.constants.nums = true := ((Bool.and_eq_true _ _).mp h).1
  simp only [numsInRange, numsList, constRanges, List.zip_cons_cons, List.zip_nil_left, List.all_cons, List.all_nil,
    inRange, Bool.and_eq_true, decide_eq_true_eq] at hnums
  omega

/-- R57, R169: the length of a gate. -/
def gateLength (n : Nat) : Prop := 16 ≤ n ∧ n ≤ 4096

theorem gateLength_group (h : s.constantsWf = true) (ch : Channel) : gateLength (groupLength s.constants.nums ch) := by
  have := gate_ranges h
  unfold gateLength
  cases ch <;> simp only [groupLength] <;> omega

theorem gateLength_unread (ch : Channel) : gateLength (unreadLength ch) := by
  have := Nat.mod_lt (Config.unreadGateLength (channelNumber ch)) (y := 4081) (by decide)
  unfold gateLength unreadLength
  omega

/-! ### The channels (R55 to R59) -/

/-- R55, R57: what a channel's state says of its gate and abandons. -/
def Chan.stateWf (c : Chan) : Prop :=
  match c.state with
  | .off => c.gate = none ∧ c.abandons = 0
  | .seeking => c.gate = none ∧ c.abandons < 3
  | .counting => c.abandons < 3
  | .fault => c.abandons = 3

theorem Chan.wf_iff {c : Chan} : c.wf = true ↔ c.periods < Config.abandonCount ∧ c.abandons ≤ 3 ∧
    (∀ g, c.gate = some g → gateLength g.length ∧ g.edges < g.length) ∧ c.stateWf := by
  obtain ⟨st, gate, periods, abandons⟩ := c
  cases st <;> cases gate <;>
    simp [Chan.wf, Chan.stateWf, gateLength, and_assoc]

theorem zero_lt_abandonCount : 0 < Config.abandonCount := by decide

theorem Chan.wf_edge {c : Chan} {g : Gate} (h : c.wf = true) (hg : c.gate = some g) : (c.edge g).wf = true := by
  obtain ⟨hp, ha, hgate, hstate⟩ := Chan.wf_iff.1 h
  unfold Chan.edge
  split
  · next hlt =>
    refine Chan.wf_iff.2 ⟨hp, ha, fun v hv => ?_, ?_⟩
    · obtain rfl := Option.some.inj hv
      exact ⟨(hgate g hg).1, hlt⟩
    · unfold Chan.stateWf at hstate ⊢
      cases hst : c.state <;> simp_all
  · exact h

theorem Chan.wf_start {c : Chan} {n : Nat} (h : c.wf = true) (hoff : c.state ≠ .off) (hn : gateLength n) :
    (c.start n).wf = true := by
  obtain ⟨-, ha, -, hstate⟩ := Chan.wf_iff.1 h
  refine Chan.wf_iff.2 ⟨zero_lt_abandonCount, ha, fun v hv => ?_, ?_⟩
  · obtain rfl := Option.some.inj hv
    exact ⟨hn, Nat.lt_of_lt_of_le (Nat.zero_lt_succ 15) hn.1⟩
  · unfold Chan.stateWf at hstate ⊢
    cases hst : c.state <;> simp_all [Chan.start]

theorem Chan.wf_complete (c : Chan) {n : Nat} (hn : gateLength n) : (c.complete n).wf = true := by
  refine Chan.wf_iff.2 ⟨zero_lt_abandonCount, Nat.zero_le _, fun v hv => ?_, Nat.zero_lt_succ _⟩
  obtain rfl := Option.some.inj hv
  exact ⟨hn, Nat.lt_of_lt_of_le (Nat.zero_lt_succ 15) hn.1⟩

theorem Chan.wf_abandon {c : Chan} (h : c.wf = true) (hoff : c.state ≠ .off) : c.abandon.wf = true := by
  obtain ⟨-, ha, -, hstate⟩ := Chan.wf_iff.1 h
  refine Chan.wf_iff.2 ⟨zero_lt_abandonCount, Nat.min_le_right _ _, nofun, ?_⟩
  unfold Chan.stateWf at hstate ⊢
  by_cases h3 : c.abandons + 1 ≥ 3
  · have h2 : 2 ≤ c.abandons := Nat.le_of_succ_le_succ h3
    simp [Chan.abandon, h2, hoff]
  · have h2 : ¬2 ≤ c.abandons := fun h => h3 (Nat.succ_le_succ h)
    cases hst : c.state <;> simp_all [Chan.abandon, if_neg h2] <;> omega

theorem Chan.wf_drop {c : Chan} (h : c.wf = true) : c.drop.wf = true := by
  obtain ⟨hp, ha, -, hstate⟩ := Chan.wf_iff.1 h
  refine Chan.wf_iff.2 ⟨hp, ha, nofun, ?_⟩
  unfold Chan.stateWf at hstate ⊢
  cases hst : c.state <;> simp_all [Chan.drop]

theorem Chan.wf_count {c : Chan} (h : c.wf = true) : c.count.wf = true := by
  unfold Chan.count
  split
  · exact h
  next hoff =>
  split
  · next hlt =>
    obtain ⟨-, ha, hgate, hstate⟩ := Chan.wf_iff.1 h
    exact Chan.wf_iff.2 ⟨hlt, ha, hgate, hstate⟩
  · exact Chan.wf_abandon h hoff

theorem Chan.wf_enable {c : Chan} (h : c.wf = true) (old new : Bool) : (c.enable old new).wf = true := by
  unfold Chan.enable
  split
  · exact h
  · split <;> rfl

namespace FrontLaw

variable {f : FrontEnd}

theorem chan (h : FrontLaw f) (ch : Channel) : (f.chan ch).wf = true := by
  rcases ch with (_ | _) | _
  · exact h.x
  · exact h.y
  · exact h.t

theorem setChan (h : FrontLaw f) (ch : Channel) {c : Chan} (hc : c.wf = true) : FrontLaw (f.setChan ch c) := by
  rcases ch with (_ | _) | _
  · exact { h with x := hc }
  · exact { h with y := hc }
  · exact { h with t := hc }

theorem holdTilt (h : FrontLaw f) (a : Axis) {v : Int} (hv : validTilt v = true) : FrontLaw (f.holdTilt a v) := by
  cases a
  · exact { h with heldX := hv }
  · exact { h with heldY := hv }

theorem started (x y t : Bool) : FrontLaw (startedFrontEnd x y t) := by
  have hwf : ∀ b : Bool, (if b = true then seekingChan else offChan).wf = true := by decide
  exact ⟨hwf x, hwf y, hwf t, rfl, rfl, rfl, rfl, rfl⟩

theorem stop (h : FrontLaw f) : FrontLaw f.stop :=
  { h with x := Chan.wf_drop h.x, y := Chan.wf_drop h.y, t := Chan.wf_drop h.t }

theorem enables (h : FrontLaw f) (old new : Constants) : FrontLaw (f.enables old new) :=
  { h with x := Chan.wf_enable h.x _ _, y := Chan.wf_enable h.y _ _, t := Chan.wf_enable h.t _ _ }

end FrontLaw

/-! ### Gates (R57 to R59) -/

theorem gateLength_first (h : s.constantsWf = true) (ch : Channel) : gateLength (s.firstLength ch) := by
  unfold State.firstLength
  split
  · exact gateLength_unread ch
  · exact gateLength_group h ch

theorem risingEdge_keeps (ch : Channel) (s : State) : Keeps s (State.risingEdge ch s) := by
  unfold State.risingEdge
  dsimp only
  split
  · exact .refl s
  next hoff =>
  simp only [Bool.or_eq_true, decide_eq_true_eq, not_or] at hoff
  split
  · next g hg => exact setFront_keeps fun _ hf => hf.setChan ch (Chan.wf_edge (hf.chan ch) hg)
  · have hfront := (checkConstants_tableStep s false).front
    refine (checkConstants_keeps s false).trans (setFront_keeps fun hc hf => ?_)
    rw [hfront] at hf ⊢
    exact hf.setChan ch (Chan.wf_start (hf.chan ch) hoff.2 (gateLength_first hc ch))

theorem gateLength_next (hc : s.constantsWf = true) {g : Gate} (hg : gateLength g.length) (ch : Channel) :
    gateLength (s.nextLength ch g) := by
  unfold State.nextLength
  split
  · exact hg
  · exact gateLength_group hc ch

theorem completeGate_keeps {ch : Channel} {g : Gate} (hg : (s.front.chan ch).gate = some g) :
    Keeps s (s.completeGate ch g) := by
  have hfront := (checkConstants_tableStep s false).front
  refine (checkConstants_keeps s false).trans (setFront_keeps fun hc hf => ?_)
  rw [hfront] at hf ⊢
  exact hf.setChan ch (Chan.wf_complete _ (gateLength_next hc ((Chan.wf_iff.1 (hf.chan ch)).2.2.1 g hg).1 ch))

theorem gate_of_completing {ch : Channel} {periods p : Nat} {g : Gate} (h : s.completing ch periods = some (g, p)) :
    (s.front.chan ch).gate = some g := by
  unfold State.completing at h
  dsimp only at h
  split at h
  · cases hg : (s.front.chan ch).gate with
    | none => simp [hg] at h
    | some v =>
      rw [hg] at h
      exact congrArg (fun q : Option (Gate × Nat) => q.map Prod.fst) h
  · cases h

theorem abandonGate_keeps (ch : Channel) (s : State) : Keeps s (State.abandonGate ch s) := by
  unfold State.abandonGate
  dsimp only
  split
  · exact .refl s
  next hoff =>
  simp only [Bool.or_eq_true, decide_eq_true_eq, not_or] at hoff
  have h : Keeps s (s.setFront (s.front.setChan ch (s.front.chan ch).abandon)) :=
    setFront_keeps fun _ hf => hf.setChan ch (Chan.wf_abandon (hf.chan ch) hoff.2)
  split
  · exact h.raise _
  · exact h

/-! ### What the window takes from the inputs (R39 to R42) -/

theorem toCollecting_keeps {f : Window → State} (h : ∀ w, s.window = some w → Keeps s (f w)) : Keeps s (s.toCollecting f) := by
  unfold State.toCollecting
  split
  · next w hw =>
    split
    · exact h w hw
    · exact .refl s
  · exact .refl s

/-- The window takes marks and sums, after an event that it raises at most once. -/
theorem markWindow_keeps {w w' : Window} (hw : s.window = some w) (hocc : w'.occ = w.occ) (hwf : w'.wf = w.wf) (b : Bool)
    (e : Event) : Keeps s { (if b then s else s.raise e) with window := some w' } := by
  split
  · exact updateWindow_keeps hw hocc fun h => hwf.trans h
  · exact (raise_keeps s e).toKeeps.trans (updateWindow_keeps (s := s.raise e) hw hocc fun h => hwf.trans h)

theorem tiltToWindow_keeps {w : Window} (hw : s.window = some w) (a : Axis) (v : Int) (range : Bool) :
    Keeps s (s.tiltToWindow a v range w) := by
  unfold State.tiltToWindow
  split
  · exact updateWindow_keeps hw rfl id
  dsimp only
  split
  · exact updateWindow_keeps hw rfl id
  split
  · exact (raise_keeps s .tiltLimit).toKeeps.trans
      (removeWindow_keeps (s := s.raise .tiltLimit)
        (w := { w with sums := (w.sums.lastTilt a v).addTilt a v, tiltRange := w.tiltRange || range })
        ((State.isWindow_of_eq (s := s.raise .tiltLimit) hw _).trans (decide_eq_true rfl)) _ _)
  · refine markWindow_keeps hw ?_ ?_ w.tiltRaised _
    · rfl
    · rfl

theorem validTilt_tiltValue (c : ConstNums) (a : Axis) (p : Nat) : validTilt (tiltValue c a p).1 = true :=
  inRange_clampTo (by decide) _

theorem deliverTilt_keeps (s : State) (a : Axis) (p : Nat) : Keeps s (s.deliverTilt a p) := by
  unfold State.deliverTilt
  have hv := validTilt_tiltValue s.constants.nums a p
  exact .trans (setFront_keeps fun _ hf => hf.holdTilt a hv) (toCollecting_keeps fun w hw => tiltToWindow_keeps hw a _ _)

theorem tiltGate_keeps (a : Axis) (periods : Nat) (s : State) : Keeps s (State.tiltGate a periods s) := by
  unfold State.tiltGate
  split
  · next g p hgate =>
    have h := completeGate_keeps (gate_of_completing hgate)
    dsimp only
    split
    · exact h
    · exact h.trans (deliverTilt_keeps _ a p)
  · exact .refl s

theorem validTemp_tempValue (c : ConstNums) (p : Nat) : validTemp (tempValue c p) = true :=
  inRange_clampTo (by decide) _

/-- R62: the lag value stays between its old value and the temperature. -/
theorem validTemp_nextLag {c : ConstNums} (hc : 1 ≤ c.lagFactor ∧ c.lagFactor ≤ 256) {lag : Option Int} {v : Int}
    (hlag : optAll validTemp lag = true) (hv : validTemp v = true) : validTemp (nextLag c lag v) = true := by
  cases lag with
  | none => exact hv
  | some old =>
    have hbetween := nextLag_between c old v hc.1 hc.2
    simp only [optAll, validTemp, inRange, Bool.and_eq_true, decide_eq_true_eq] at hlag hv ⊢
    omega

theorem tempToWindow_keeps {w : Window} (hw : s.window = some w) (v l : Int) : Keeps s (s.tempToWindow v l w) :=
  updateWindow_keeps hw rfl id

theorem deliverTemp_keeps (s : State) (p : Nat) : Keeps s (s.deliverTemp p) := by
  unfold State.deliverTemp
  have hv := validTemp_tempValue s.constants.nums p
  refine .trans (setFront_keeps fun hc hf => ?_) (toCollecting_keeps fun w hw => tempToWindow_keeps hw _ _)
  exact { hf with heldT := hv, lag := validTemp_nextLag (gate_ranges hc).2.2 hf.lag hv }

theorem tempGate_keeps (periods : Nat) (s : State) : Keeps s (State.tempGate periods s) := by
  unfold State.tempGate
  split
  · next g p hgate =>
    have h := completeGate_keeps (gate_of_completing hgate)
    dsimp only
    split
    · exact h
    · exact h.trans (deliverTemp_keeps _ p)
  · exact .refl s

/-! ### Frames (R39, R65 to R68) -/

theorem receiving_keeps (s : State) (b : Bool) : Keeps s (s.setFront { s.front with receiving := b }) :=
  setFront_keeps fun _ hf => { hf with }

theorem breakToWindow_keeps {w : Window} (hw : s.window = some w) (n : Nat) : Keeps s (s.breakToWindow n w) := by
  unfold State.breakToWindow
  refine markWindow_keeps hw ?_ ?_ w.breakRaised _
  · rfl
  · rfl

theorem Window.addFrame_occ (w : Window) (clamp overload : Bool) (x : Int) (offset : Nat) :
    (w.addFrame clamp overload x offset).occ = w.occ := by
  unfold Window.addFrame
  split
  · rfl
  · split <;> rfl

theorem Window.addFrame_wf (w : Window) (clamp overload : Bool) (x : Int) (offset : Nat) :
    (w.addFrame clamp overload x offset).wf = w.wf := by
  unfold Window.addFrame
  split
  · rfl
  · split <;> rfl

theorem frameToWindow_keeps (s : State) (word : BitVec 32) : Keeps s (s.frameToWindow word) := by
  unfold State.frameToWindow
  split
  · next w hw =>
    split
    · exact updateWindow_keeps hw (w.addFrame_occ _ _ _ _) fun h => (w.addFrame_wf _ _ _ _).trans h
    · exact .refl s
  · exact .refl s

/-- R67: the next frame is due with the next number, and the silence count starts again. -/
theorem landed_keeps (s : State) (seq : Nat) : Keeps s (s.setFront { s.front with
    live := some { silence := 0, expected := (seq + 1) % 16 }, receiving := false }) := by
  refine setFront_keeps fun _ hf => { hf with live := ?_ }
  have : (seq + 1) % 16 < 16 := Nat.mod_lt _ (by decide)
  simpa [optAll, GsiLive.wf] using this

theorem frame_keeps (word : BitVec 32) (s : State) : Keeps s (State.frame word s) := by
  unfold State.frame
  split
  · exact .refl s
  dsimp only
  refine Keeps.trans (Keeps.trans ?_ (landed_keeps _ _)) (frameToWindow_keeps _ word)
  split
  · exact .refl s
  · exact toCollecting_keeps fun w hw => breakToWindow_keeps hw _

theorem frameStart_keeps (s : State) : Keeps s (if s.mainRuns then s.setFront { s.front with receiving := true } else s) := by
  split
  · exact receiving_keeps s true
  · exact .refl s

/-! ### The clamp line (R37, R38) -/

theorem Window.reload_occ (w : Window) : w.reload.occ = w.occ := by
  unfold Window.reload
  split <;> rfl

theorem Window.wf_reload {w : Window} (h : w.wf = true) : w.reload.wf = true := by
  obtain ⟨hreq, -⟩ := Window.wf_iff.1 h
  unfold Window.reload
  split
  · exact Window.wf_iff.2 ⟨hreq, le_rfl⟩
  · exact h

theorem clampAsserted_keeps (s : State) : Keeps s { s with clamp := true, window := s.window.map Window.reload } :=
  (mapWindow_keeps Window.reload_occ fun _ _ => Window.wf_reload).trans (clamp_keeps _ true)

/-! ### An idle step (log 1, log 2) -/

theorem period_keeps (s : State) (ch : Channel) : Keeps s (s.period ch) := by
  unfold State.period
  dsimp only
  split
  · exact .refl s
  split
  · next hlt =>
    refine setFront_keeps fun _ hf => hf.setChan ch ?_
    obtain ⟨-, ha, hgate, hstate⟩ := Chan.wf_iff.1 (hf.chan ch)
    exact Chan.wf_iff.2 ⟨hlt, ha, hgate, hstate⟩
  · exact abandonGate_keeps ch s

theorem periods_keeps (s : State) : Keeps s s.periods :=
  ((period_keeps s _).trans (period_keeps _ _)).trans (period_keeps _ _)

theorem upsetNow_keeps (s : State) : Keeps s s.upsetNow := by
  unfold State.upsetNow
  dsimp only
  split
  · exact (late_keeps s _).trans (upsetRecord_keeps _ _)
  · exact late_keeps s _

theorem idle_keeps (s : State) : Keeps s s.idle :=
  ((periods_keeps s).trans (upsetNow_keeps _)).trans (idles_keeps _ _)

end Sys2Proof.Machine
end

