-- ==== Sys2Proof/Proofs/Invariants/Engine.lean ====
section
/-! SUPPORT. The engine's steps, its completions and its commands keep every invariant (R118 to R123, R131, R136 to R153). -/

namespace Sys2Proof.Machine

open Sys2Proof

variable {s t u : State} {f g : Flight}

/-! ### Steps (R138, R148) -/

theorem inService_of_work (hr : s.recordsWf = true) (h : s.engine.state ≠ .idle) : s.inService = true :=
  (recordsWf_iff.1 hr).engine.resolve_left h

/-- An engine at work or halted marks no index of its job twice. -/
theorem Engine.wf_flight {e : Engine} (h : e.wf = true) (hf : e.flight = some f) :
    e.queue.length ≤ Config.queueLimit ∧ distinct f.written = true := by
  obtain ⟨hq, ⟨-, hnone, -⟩ | ⟨g, hg, hw, -⟩⟩ := Engine.wf_iff.1 h
  · cases hnone.symm.trans hf
  · obtain rfl := Option.some.inj (hg.symm.trans hf)
    exact ⟨hq, hw⟩

theorem Engine.fault_of_working {e : Engine} (h : e.wf = true) (hst : e.state = .working) : e.fault = none := by
  obtain ⟨-, ⟨hidle, -⟩ | ⟨g, -, -, ⟨-, hfault⟩ | ⟨hhalted, -⟩⟩⟩ := Engine.wf_iff.1 h
  · cases hidle.symm.trans hst
  · exact hfault
  · cases hhalted.symm.trans hst

/-- R138: the job in flight goes on. -/
theorem setFlight_keeps (hst : s.engine.state = .working) (hf : s.engine.flight = some f) (ht : TableKeeps s t)
    (hg : FlightKeeps s f g) : Keeps s (t.setFlight g) := by
  refine ht.toKeeps.setEngine (fun hw => ?_) (fun hr => .inr ?_) fun hr _ => ?_
  · rw [ht.table.engine] at hw ⊢
    obtain ⟨hq, hwritten⟩ := Engine.wf_flight hw hf
    have hfault := Engine.fault_of_working hw hst
    exact Engine.wf_iff.2 ⟨hq, .inr ⟨g, rfl, hg.written hwritten, .inl ⟨hst, hfault⟩⟩⟩
  · exact ht.table.inService_eq.trans (inService_of_work hr (by rw [hst]; nofun))
  · have hd := (resultsWf_iff.1 hr).flight
    rw [hf] at hd
    exact hg.drift hr hd

/-- R148: the halt keeps the job in flight with its progress, in the fault context too. -/
theorem halt_keeps (hst : s.engine.state = .working) (hf : s.engine.flight = some f) (failed : RecordId)
    (hg : FlightKeeps s f g) : Keeps s (s.halt failed g) := by
  have htable := failRecord_tableStep (s := s) failed
  refine Keeps.raise ((failRecord_keeps s failed).setEngine (fun hw => ?_) (fun hr => .inr ?_) fun hr _ => ?_) _
  · rw [htable.engine] at hw ⊢
    obtain ⟨hq, hwritten⟩ := Engine.wf_flight hw hf
    exact Engine.wf_iff.2 ⟨hq, .inr ⟨g, rfl, hg.written hwritten, .inr ⟨rfl, _, rfl, rfl⟩⟩⟩
  · exact htable.inService_eq.trans (inService_of_work hr (by rw [hst]; nofun))
  · have hd := (resultsWf_iff.1 hr).flight
    rw [hf] at hd
    exact hg.drift hr hd

theorem engineStep_keeps {body : State → Flight → StepResult} (due : Flight → Bool)
    (hbody : ∀ s f, s.engine.flight = some f → StepKeeps s f (body s f)) (s : State) :
    Keeps s (State.engineStep due body s) := by
  unfold State.engineStep
  split
  · next f hst hf =>
    split
    · have h := hbody s f hf
      split
      · next t g hres =>
        rw [hres] at h
        exact setFlight_keeps hst hf h.1 h.2
      · next r g hres =>
        rw [hres] at h
        exact halt_keeps hst hf r h
    · exact .refl s
  · exact .refl s

/-! ### Completions (R122, R139) -/

/-- R139: the oldest waiting job is taken, or the engine becomes IDLE. -/
theorem completeJob_keeps (hst : s.engine.state = .working) (hf : s.engine.flight = some f) (r : JobResult) :
    Keeps s (s.completeJob f r) := by
  have hraise : Keeps s (s.raise .jobDone) := (raise_keeps s _).toKeeps
  have hin : s.recordsWf = true → (s.raise .jobDone).inService = true := fun hr =>
    inService_of_work (s := s) hr (by rw [hst]; nofun)
  unfold State.completeJob
  dsimp only
  split
  · next j rest hq =>
    have hq : s.engine.queue = j :: rest := hq
    have h : Keeps s { s.raise .jobDone with engine := { s.engine with
        flight := some (startFlight j)
        queue := rest
        last := some { job := f.job, result := r, count := f.written.length, epoch := s.epoch } } } := by
      refine hraise.setEngine (fun hw => ?_) (fun hr => .inr (hin hr)) fun _ _ => rfl
      have hw : s.engine.wf = true := hw
      have hlen := (Engine.wf_flight hw hf).1
      have hfault := Engine.fault_of_working hw hst
      rw [hq, List.length_cons] at hlen
      exact Engine.wf_iff.2 ⟨Nat.le_of_succ_le hlen, .inr ⟨_, rfl, distinct_startFlight j, .inl ⟨hst, hfault⟩⟩⟩
    split
    · exact h.raise _
    · exact h
  · next hq =>
    have hq : s.engine.queue = [] := hq
    refine Keeps.raise (hraise.setEngine (fun hw => ?_) (fun _ => .inl rfl) fun _ _ => rfl) _
    have hw : s.engine.wf = true := hw
    have hlen := (Engine.wf_flight hw hf).1
    have hfault := Engine.fault_of_working hw hst
    exact Engine.wf_iff.2 ⟨hlen, .inl ⟨rfl, rfl, hq, hfault⟩⟩

/-- R122: the loop that a CLOSE closes. -/
theorem closedLoop_keeps {l : Nat} {r : Loop} (hr : s.loop? l = some r) (hst : r.state = .closing) (d : DriftCalc) :
    Keeps s (s.putLoop l { storeDrift r d with state := .closed }) := by
  refine putLoop_lawful fun hs => ?_
  obtain ⟨hl, hwf⟩ := loopWf_of_loop? hs hr
  exact ⟨hl, loopWf_storeDrift hwf (by rw [hst]; rfl) d⟩

theorem closeCompletion_keeps (s : State) : Keeps s s.closeCompletion := by
  unfold State.closeCompletion
  split
  · next f hst hf =>
    split
    · next l d _ _ _ _ =>
      dsimp only
      split
      · next r hr =>
        split
        · next hclosing => exact (closedLoop_keeps hr hclosing d).trans (completeJob_keeps (s := s.putLoop l _) hst hf _)
        · exact completeJob_keeps hst hf _
      · exact completeJob_keeps hst hf _
    · exact .refl s
  · exact .refl s

theorem jobCompletion_keeps (s : State) : Keeps s s.jobCompletion := by
  unfold State.jobCompletion
  split
  · next f hst hf =>
    split
    · exact completeJob_keeps hst hf _
    · exact .refl s
  · exact .refl s

/-! ### The engine's commands (R136, R150 to R153) -/

theorem submitJobBody_keeps (hin : s.inService = true) (kind target tag : Nat) :
    Keeps s (submitJobBody kind target tag s) := by
  unfold submitJobBody
  split
  · exact refuse_keeps s _
  split
  · exact refuse_keeps s _
  split
  · exact refuse_keeps s _
  split
  · exact refuse_keeps s _
  · next hfull => exact ((Keeps.refl s).place (fun _ => hin) (fun _ => Bool.eq_false_iff.2 hfull) _).respond _ _

theorem restartRetryBody_keeps (action : Nat) (s : State) : Keeps s (restartRetryBody action s) := by
  unfold restartRetryBody
  split
  · exact refuse_keeps s _
  split
  · exact refuse_keeps s _
  next hst =>
  have hst : s.engine.state = .halted := not_not.1 hst
  split
  · next f hf =>
    refine Keeps.respond ((Keeps.refl s).setEngine (fun hw => ?_) (fun hr => .inr ?_) fun _ _ => rfl) _ _
    · exact Engine.wf_iff.2 ⟨(Engine.wf_flight hw hf).1, .inr ⟨_, rfl, rfl, .inl ⟨rfl, rfl⟩⟩⟩
    · exact inService_of_work hr (by rw [hst]; nofun)
  · exact refuse_keeps s _

theorem dropJob_keeps (s : State) (f : Flight) : TableKeeps s (s.dropJob f) := by
  unfold State.dropJob
  split
  · exact undoClose_keeps s _
  · exact .refl s

theorem Engine.wf_afterDrop {e : Engine} (h : e.wf = true) : e.afterDrop.wf = true := by
  have hq := (Engine.wf_iff.1 h).1
  unfold Engine.afterDrop
  split
  · next j rest hqueue =>
    rw [hqueue, List.length_cons] at hq
    exact Engine.wf_iff.2 ⟨Nat.le_of_succ_le hq, .inr ⟨_, rfl, distinct_startFlight j, .inl ⟨rfl, rfl⟩⟩⟩
  · next hqueue => exact Engine.wf_iff.2 ⟨hq, .inl ⟨rfl, rfl, hqueue, rfl⟩⟩

theorem calc_afterDrop (e : Engine) : optAll (fun f : Flight => optAll calcWf f.drift) e.afterDrop.flight = true := by
  unfold Engine.afterDrop
  split <;> rfl

theorem restartDiscardBody_keeps (s : State) : Keeps s (restartDiscardBody s) := by
  unfold restartDiscardBody
  split
  · exact refuse_keeps s _
  next hst =>
  have hst : s.engine.state = .halted := not_not.1 hst
  split
  · next f _ =>
    have hdrop := dropJob_keeps s f
    refine Keeps.respond (hdrop.toKeeps.setEngine Engine.wf_afterDrop (fun hr => .inr ?_) fun _ _ => calc_afterDrop _) _ _
    exact hdrop.table.inService_eq.trans (inService_of_work hr (by rw [hst]; nofun))
  · exact refuse_keeps s _

end Sys2Proof.Machine
end

