-- ==== Sys2Proof/Proofs/Invariants/LoopCommands.lean ====
section
/-! SUPPORT. The loop commands keep every invariant (R112 to R132). -/

namespace Sys2Proof.Machine

open Sys2Proof

variable {s t u : State}

/-! ### Reads and writes between the steps of a command -/

theorem checkStations_occ? (s : State) (ws : List Nat) (i : Nat) : (s.checkStations ws).occ? i = s.occ? i := by
  unfold State.checkStations
  induction ws generalizing s with
  | nil => rfl
  | cons w ws ih =>
    rw [List.foldl_cons, ih]
    obtain ⟨x, ev, h⟩ := checkStation_frame (s := s) w
    rw [h]
    rfl

theorem lookupEntry_fst (s : State) (n : Nat) : (s.lookupEntry n).1 = s.checkStations (waysOf n) := by
  unfold State.lookupEntry State.internalLookup
  split
  · next h => exact (congrArg Prod.fst h).symm
  · next h => exact (congrArg Prod.fst h).symm

theorem lookupEntry_keeps (s : State) (n : Nat) : TableKeeps s (s.lookupEntry n).1 := by
  rw [lookupEntry_fst]
  exact checkStations_keeps s _

theorem checkConstants_occ? (s : State) (again : Bool) (i : Nat) : (s.checkConstants again).occ? i = s.occ? i := by
  unfold State.checkConstants
  split
  · split <;> rfl
  · split <;> rfl

theorem Keeps.putLoop (h : Keeps s t) {l : Nat} {r : Loop}
    (hr : s.loopsWf = true → l < Config.loops ∧ loopWf r = true) : Keeps s (t.putLoop l r) where
  pending := h.pending
  events := h.events
  engine := h.engine
  clock := h.clock
  front := h.front
  stations := h.stations
  loops hs := loopsWf_setLoop (h.loops hs) (hr hs).1 (hr hs).2
  records := h.records
  results := h.results
  contents := h.contents.trans (.of_eq rfl rfl rfl)

/-! ### OPEN LOOP (R112, R113) -/

theorem loopWf_newLoop (i epoch hours : Nat) : loopWf (newLoop i epoch hours) = true := rfl

theorem openNow_keeps {l i : Nat} {o : Occ} (hl : l < Config.loops) (ho : s.occ? i = some o) :
    Keeps s (s.openNow l i o) := by
  have hcheck := checkConstants_keeps s true
  unfold State.openNow
  dsimp only
  split
  · exact hcheck.refuse _
  · refine ((hcheck.putLoop fun _ => ⟨hl, loopWf_newLoop _ _ _⟩).table (putOcc_keeps (o := o) (o' := { o with opens := some l }) ?_
      (.of_eq rfl rfl rfl rfl))).respond _ _
    exact (checkConstants_occ? s true i).trans ho

theorem openOn_keeps {l i : Nat} {o : Occ} (hl : l < Config.loops) (ho : s.occ? i = some o) :
    Keeps s (s.openOn l i o) := by
  have hlookup := lookupEntry_keeps s o.station
  unfold State.openOn
  dsimp only
  split
  · exact hlookup.refuse _
  split
  · exact hlookup.refuse _
  split
  · exact hlookup.refuse _
  · refine hlookup.toKeeps.trans (openNow_keeps hl ?_)
    rw [lookupEntry_fst, checkStations_occ?]
    exact ho

theorem openLoopBody_keeps (l i : Nat) (s : State) : Keeps s (openLoopBody l i s) := by
  have hloop := checkLoop_keeps s l
  have hocc := hloop.trans (checkOcc_keeps _ i)
  unfold openLoopBody
  split
  · exact refuse_keeps s _
  next hrange =>
  simp only [Bool.not_eq_true, Bool.or_eq_false_iff, Bool.not_eq_false', decide_eq_true_eq] at hrange
  split
  · exact refuse_keeps s _
  dsimp only
  split
  · exact hloop.refuse _
  split
  · exact hocc.refuse _
  · next o ho =>
    split
    · exact hocc.refuse _
    · exact hocc.toKeeps.trans (openOn_keeps hrange.1 ho)

/-! ### CLOSE LOOP (R116, R117) -/

theorem closeTie_keeps (s : State) (o p : Occ) (station : Option Station) : TableKeeps s (s.closeTie o p station).1 := by
  have hlookup := lookupEntry_keeps s p.station
  unfold State.closeTie
  split
  · exact .refl s
  dsimp only
  split
  · exact hlookup
  · exact hlookup

theorem closeDrift_keeps (s : State) (r : Loop) (o : Occ) (epoch : Nat) (station : Option Station) :
    TableKeeps s (s.closeDrift r o epoch station).1 := by
  have hcheck := checkOcc_keeps s r.openEnd
  unfold State.closeDrift
  dsimp only
  split
  · exact hcheck
  split
  · exact hcheck
  split
  · split
    · exact hcheck.trans (closeTie_keeps _ _ _ _)
    · exact hcheck
  · exact hcheck

theorem closeChecks_keeps (s : State) (i : Nat) (r : Loop) (o : Occ) (mode : CloseMode) :
    TableKeeps s (s.closeChecks i r o mode).1 := by
  have hlookup := lookupEntry_keeps s o.station
  have hothers := hlookup.trans (checkOccs_keeps _ (r.members.filter (· ≠ i)))
  unfold State.closeChecks
  split
  · exact .refl s
  split
  · exact .refl s
  split
  · exact .refl s
  dsimp only
  split
  · exact hlookup
  split
  · exact hothers
  split
  · exact hothers
  split
  · exact hothers
  · exact hothers.trans (closeDrift_keeps _ _ _ _ _)

/-- R110, R117: an OPEN or EXPIRED loop becomes CLOSING. -/
theorem loopWf_closing {r : Loop} {i : Nat} {m mode : CloseMode} (h : loopWf r = true) (hst : closeRefusal m r.state = none) :
    loopWf { r with state := .closing, closing := some i, mode := some mode } = true := by
  have hopen : closeState r.state = false ∧ r.state ≠ .closed := by
    cases hs : r.state <;> simp_all [closeRefusal, closeState]
  simp only [loopWf, Bool.and_eq_true, hopen.1, hopen.2, decide_eq_true_eq, decide_false] at h ⊢
  obtain ⟨⟨⟨⟨⟨⟨h1, -⟩, -⟩, h4⟩, h5⟩, h6⟩, h7⟩ := h
  exact ⟨⟨⟨⟨⟨⟨h1, rfl⟩, rfl⟩, h4⟩, h5⟩, h6⟩, h7⟩

theorem closeQueue_keeps {l i : Nat} {r : Loop} {mode : CloseMode} (h : TableKeeps s t) (hin : s.inService = true)
    (hr : s.loopsWf = true → l < Config.loops ∧
      loopWf { r with state := .closing, closing := some i, mode := some mode } = true) (tag : Nat) :
    Keeps s (t.closeQueue l i r mode tag) := by
  unfold State.closeQueue
  split
  · exact h.refuse _
  split
  · exact h.refuse _
  · next hfull =>
    refine ((h.toKeeps.putLoop hr).place (fun _ => ?_) (fun _ => Bool.eq_false_iff.2 hfull) _).respond _ _
    exact h.table.inService_eq.trans hin

theorem closeOn_keeps {l i : Nat} {r : Loop} {mode : CloseMode} (h : TableKeeps s t) (hin : s.inService = true)
    (hr : s.loopsWf = true → l < Config.loops ∧
      loopWf { r with state := .closing, closing := some i, mode := some mode } = true) (tag : Nat) :
    Keeps s (t.closeOn l i r mode tag) := by
  have hocc := h.trans (checkOcc_keeps t i)
  unfold State.closeOn
  dsimp only
  split
  · exact hocc.refuse _
  · next o _ =>
    have hchecks := hocc.trans (closeChecks_keeps _ i r o mode)
    split
    · exact hocc.refuse _
    split
    · exact hchecks.refuse _
    · exact closeQueue_keeps hchecks hin hr tag

theorem closeLoopBody_keeps (hin : s.inService = true) (l i mode tag : Nat) : Keeps s (closeLoopBody l i mode tag s) := by
  have hloop := checkLoop_keeps s l
  unfold closeLoopBody
  split
  · exact refuse_keeps s _
  split
  · exact refuse_keeps s _
  dsimp only
  split
  · exact hloop.refuse _
  · next r hr =>
    split
    · exact hloop.refuse _
    split
    · exact hloop.refuse _
    · next hst =>
      refine closeOn_keeps hloop hin (fun hs => ?_) tag
      obtain ⟨hl, hwf⟩ := loopWf_of_loop? (hloop.loops hs) hr
      exact ⟨hl, loopWf_closing hwf hst⟩

/-! ### VOID, RELEASE and READ LOOP (R127 to R129, R132) -/

theorem voidDamagedNow_keeps (s : State) (l : Nat) : Keeps s (s.voidDamagedNow l) := by
  unfold State.voidDamagedNow
  split
  · exact refuse_keeps s _
  · exact (voidDamaged_keeps s l).respond _ _

theorem voidLoopBody_keeps (l : Nat) (s : State) : Keeps s (voidLoopBody l s) := by
  have hloop := checkLoop_keeps s l
  unfold voidLoopBody
  split
  · exact refuse_keeps s _
  dsimp only
  split
  · exact hloop.refuse _
  split
  · exact hloop.toKeeps.trans (voidDamagedNow_keeps _ l)
  split
  · exact hloop.refuse _
  · exact (hloop.trans (voidSound_keeps _ l)).respond _ _

theorem release_keeps (s : State) (l : Nat) (r : Loop) : Keeps s (s.release l r) := by
  have hmembers : TableKeeps s (r.members.foldl releaseMember (s, 0)).1 :=
    .foldl_fst releaseMember_keeps r.members (s, 0)
  exact ((hmembers.trans (voidOpenEnd_keeps _ l r.openEnd)).trans (freeLoop_keeps _ l)).respond _ _

theorem releaseLoopBody_keeps (l : Nat) (s : State) : Keeps s (releaseLoopBody l s) := by
  have hloop := checkLoop_keeps s l
  unfold releaseLoopBody
  split
  · exact refuse_keeps s _
  dsimp only
  split
  · exact hloop.refuse _
  split
  · exact hloop.refuse _
  split
  · exact hloop.refuse _
  split
  · exact hloop.refuse _
  · exact hloop.toKeeps.trans (release_keeps _ l _)

theorem readLoopBody_keeps (l : Nat) (s : State) : Keeps s (readLoopBody l s) := by
  have hloop := checkLoop_keeps s l
  unfold readLoopBody
  split
  · exact refuse_keeps s _
  dsimp only
  split
  · exact hloop.respond _ _
  · next r _ =>
    have hocc := hloop.trans (checkOcc_keeps _ r.openEnd)
    split
    · exact hloop.refuse _
    split
    · split
      · exact hocc.refuse _
      · exact hocc.respond _ _
    · exact hocc.respond _ _

end Sys2Proof.Machine
end

