-- ==== Sys2Proof/Proofs/Invariants/StationCommands.lean ====
section
/-! SUPPORT. The station commands and LOAD STATION keep every invariant (R10 to R24, R200). -/

namespace Sys2Proof.Machine

open Sys2Proof

variable {s t u : State}

/-! ### Lookups and entries (R6, R14) -/

theorem Keeps.install (h : Keeps s t) {w : Nat} {e : Station}
    (hw : s.stationsWf = true → w < Config.ways ∧ stationWf w e = true) : Keeps s ((t.putStation w e).touch w) := by
  have hst : s.stationsWf = true → ((t.putStation w e).touch w).stationsWf = true := fun hs =>
    stationsWf_install (h.stations hs) (hw hs).1 (hw hs).2
  refine ⟨⟨h.pending, h.events, h.engine, h.clock, h.front, hst, h.loops, h.records, fun hr => ?_⟩,
    h.contents.trans (.of_eq rfl rfl rfl)⟩
  obtain ⟨h1, h2, -, h4, h5⟩ := resultsWf_iff.1 (h.results hr)
  exact resultsWf_iff.2 ⟨h1, h2, hst (resultsWf_iff.1 hr).stations, h4, h5⟩

theorem activate_station?_isSome {w : Nat} (h : (s.station? w).isSome = true) : ((s.activate w).station? w).isSome = true := by
  unfold State.activate
  split
  · split
    · exact h
    · simp [State.putStation]
  · exact h

/-- R6: the way of a keyed lookup's one match carries an entry. -/
theorem station?_isSome_of_found {n w : Nat} (h : s.keyedLookup n = (t, .found w)) : (t.station? w).isSome = true := by
  unfold State.keyedLookup at h
  dsimp only at h
  split at h
  · cases h
  · split at h
    · next v e he =>
      split at h
      · cases h
      · obtain ⟨rfl, hv⟩ := Prod.mk.inj h
        obtain rfl := Lookup.found.inj hv
        exact activate_station?_isSome (by rw [he]; rfl)
    · cases h
  · cases h

theorem keyedLookup_keeps_of_eq {n : Nat} {out : Lookup} (h : s.keyedLookup n = (t, out)) : TableKeeps s t := by
  have hk := keyedLookup_keeps s n
  rwa [h] at hk

/-- R4, R14: a FREE way of a number's set. -/
theorem stationWf_of_lowestFree {n w : Nat} {e : Station} (hfree : lowestFree s.stations (waysOf n) = some w)
    (he : stationWf (n % 64 * 4) e = true) : w < Config.ways ∧ stationWf w e = true := by
  have hset : w / 4 = n % 64 := mem_waysOfSet.1 (List.mem_of_find?_eq_some hfree)
  have hlt : n % 64 < 64 := Nat.mod_lt _ (by decide)
  refine ⟨by simp only [Config.ways]; omega, ?_⟩
  simp only [stationWf, hset, Nat.mul_div_cancel _ (Nat.zero_lt_succ 3)] at he ⊢
  exact he

/-! ### Freeing a way (R22 to R24) -/

theorem freeAll_keeps (ws is : List Nat) (h : ∀ i ∈ is, s.mayFree i) :
    TableKeeps s (is.foldl (fun s i => s.freeOcc ws i) s) := by
  induction is generalizing s with
  | nil => exact .refl s
  | cons i is ih =>
    have hfree := freeOcc_keeps ws (h i List.mem_cons_self)
    exact hfree.trans (ih fun j hj => hfree.mayFree (h j (List.mem_cons_of_mem _ hj)))

theorem freeWay_keeps {w : Nat} {e : Station} (h : ∀ i ∈ s.occsOfWay w e, s.mayFree i) :
    Keeps s (s.freeWay w e).1 :=
  (freeEntry_keeps s w).table (freeAll_keeps (s := s.freeEntry w) _ _ fun i hi => h i (List.mem_of_mem_filter hi))

/-! ### OPEN STATION (R10 to R14) -/

theorem readCandidate_keeps (s : State) (w : Nat) : TableKeeps s (s.readCandidate w) := by
  unfold State.readCandidate
  split
  · split
    · exact (checkOccs_keeps s _).trans (checkLoops_keeps _)
    · exact .refl s
  · exact .refl s

/-- R12: a settled occupation is not in its window. -/
theorem not_opensAt_of_settled {i : Nat} (h : s.occSettled i = true) : ¬s.opensAt i := by
  rintro ⟨o, ho, hin⟩
  simp only [State.occSettled, ho, Bool.and_eq_true, Bool.or_eq_true, decide_eq_true_eq] at h
  simp only [inWindow, Bool.or_eq_true, decide_eq_true_eq] at hin
  obtain ⟨⟨⟨hst, -⟩, -⟩, -⟩ := h
  rcases hst with hst | hst <;> rcases hin with hin | hin <;> cases hst.symm.trans hin

theorem mayFree_of_isVictim {w : Nat} {e : Station} (h : s.isVictim w = true) (he : s.station? w = some e) :
    ∀ i ∈ s.occsOfWay w e, s.mayFree i := by
  simp only [State.isVictim, he, candidate, Bool.and_eq_true, Bool.not_eq_true'] at h
  obtain ⟨⟨⟨⟨-, hd⟩, -⟩, -⟩, hall⟩ := h
  intro i hi
  rw [State.occsOfWay, hd] at hi
  exact .inr (.inr (not_opensAt_of_settled (List.all_eq_true.1 hall i hi)))

/-- R5, R11: a victim of a set is one of its ways. -/
theorem way_of_victim {k v : Nat} (hs : s.stationsWf = true) (h : s.victim k = some v) : v < Config.ways ∧ v / 4 = k := by
  have hmem : v ∈ s.order k := List.mem_reverse.1 (List.mem_of_find?_eq_some h)
  obtain ⟨hset, hsome⟩ := ((stationsWf_iff.1 hs).order k).2 v hmem
  obtain ⟨e, he⟩ := Option.isSome_iff_exists.1 hsome
  exact ⟨(stationWf_of_station? hs he).1, hset⟩

theorem placeEntry_keeps {e : Station} (he : stationWf (e.number % 64 * 4) e = true) : Keeps s (s.placeEntry e) := by
  have hread : TableKeeps s ((waysOfSet (e.number % 64)).foldl State.readCandidate s) := .foldl readCandidate_keeps _ s
  unfold State.placeEntry
  dsimp only
  split
  · next w hw => exact ((Keeps.refl s).install fun _ => stationWf_of_lowestFree hw he).respond _ _
  · split
    · next v hv =>
      split
      · next old hold =>
        have hfree := freeWay_keeps (mayFree_of_isVictim (List.find?_some hv) hold)
        refine ((hread.toKeeps.trans hfree).install fun hs => ?_).respond _ _
        obtain ⟨hlt, hset⟩ := way_of_victim (hread.stations hs) hv
        refine ⟨hlt, ?_⟩
        simp only [stationWf, hset, Nat.mul_div_cancel _ (Nat.zero_lt_succ 3)] at he ⊢
        exact he
      · exact hread.refuse _
    · exact hread.refuse _

/-- R14, R15: a FIELD station has no reference. -/
theorem fieldRule_iff {role : Role} {v : Option Nat} :
    (!(decide (role = .field) && v.isSome)) = true ↔ ¬(role = .field ∧ v.isSome = true) := by
  rw [Bool.not_eq_true', ← Bool.not_eq_true, Bool.and_eq_true, decide_eq_true_eq]

theorem stationWf_newEntry {r : OpenStationReq} {role : Role} {pinned : Bool} (hn : validNumber r.number = true)
    (hs : r.site < 8) (hr : optAll validReference r.reference = true)
    (hrole : ¬(role = .field ∧ r.reference.isSome = true)) :
    stationWf (r.number % 64 * 4) (newEntry r role pinned) = true := by
  have hset : r.number % 64 * 4 / 4 = r.number % 64 := Nat.mul_div_cancel _ (Nat.zero_lt_succ 3)
  simp only [stationWf, newEntry, hn, hset, hs, hr, List.length_nil, Nat.zero_le, decide_true, Bool.and_true, Bool.true_and]
  exact fieldRule_iff.2 hrole

theorem openStationBody_keeps (r : OpenStationReq) (s : State) : Keeps s (openStationBody r s) := by
  unfold openStationBody
  split
  · exact refuse_keeps s _
  next hnumber =>
  split
  · next role pinned _ _ =>
    split
    · exact refuse_keeps s _
    next hrange =>
    split
    · exact refuse_keeps s _
    next hrole =>
    split
    · next t hl =>
      refine (keyedLookup_keeps_of_eq hl).toKeeps.trans (placeEntry_keeps ?_)
      simp only [Bool.not_eq_true, Bool.or_eq_false_iff, Bool.not_eq_false'] at hrange hnumber
      exact stationWf_newEntry hnumber (of_decide_eq_true hrange.1) hrange.2 hrole
    · next hl => exact (keyedLookup_keeps_of_eq hl).refuse _
    · next hl => exact (keyedLookup_keeps_of_eq hl).refuse _
  · exact refuse_keeps s _

/-! ### EDIT STATION (R15 to R17) -/

/-- R15: an edit with each field in its range, which names no reference for a FIELD station. -/
theorem stationWf_edited {r : EditStationReq} {w : Nat} {e : Station} (h : stationWf w e = true) (hr : editInRange r = true)
    (hrole : ¬((edited r e).role = .field ∧ (edited r e).reference.isSome = true)) : stationWf w (edited r e) = true := by
  simp only [stationWf, Bool.and_eq_true] at h ⊢
  simp only [editInRange, Bool.and_eq_true] at hr
  obtain ⟨⟨⟨⟨⟨hnumber, hset⟩, hsite⟩, href⟩, -⟩, hlist⟩ := h
  obtain ⟨⟨⟨-, hrsite⟩, -⟩, hrref⟩ := hr
  refine ⟨⟨⟨⟨⟨hnumber, hset⟩, ?_⟩, ?_⟩, ?_⟩, hlist⟩
  · cases hs : r.site with
    | none => simpa [edited, hs] using hsite
    | some k => simpa [edited, hs, optAll] using hrsite
  · cases ha : r.reference with
    | none => simpa [edited, editReference, ha] using href
    | some a =>
      cases a with
      | set v => simpa [edited, editReference, ha, optAll] using hrref
      | clear => simp [edited, editReference, ha, optAll]
      | unnamed v => simp [ha] at hrref
  · exact fieldRule_iff.2 hrole

theorem checkLoop_station? (s : State) (l w : Nat) : (s.checkLoop l).station? w = s.station? w := by
  unfold State.checkLoop
  split
  · split <;> rfl
  · rfl

theorem checkLoops_station? (s : State) (w : Nat) : s.checkLoops.station? w = s.station? w := by
  unfold State.checkLoops
  induction slotKeys s.loops generalizing s with
  | nil => rfl
  | cons l ls ih => rw [List.foldl_cons, ih, checkLoop_station?]

theorem checkNaming_station? (s : State) (is : List Nat) (w : Nat) : (s.checkNaming is).station? w = s.station? w := by
  unfold State.checkNaming
  split
  · exact checkOccs_station? s is w
  · rfl

theorem putChanged_station?_isSome (s : State) (w : Nat) (e : Station) : ((s.putChanged w e).station? w).isSome = true := by
  unfold State.putChanged State.noteMark
  split <;> simp [State.putStation, State.station?, State.setStation]

theorem putChanged_touch_keeps {w : Nat} {e e' : Station} (he : s.station? w = some e)
    (h : stationWf w e = true → stationWf w e' = true) : Keeps s ((s.putChanged w e').touch w) :=
  (putChanged_keeps he h).toKeeps.trans (touch_keeps (putChanged_station?_isSome s w e'))

/-- R15, R16: an edit is judged and written. -/
theorem judgeEdit_keeps {w : Nat} {e e' : Station} (h : TableKeeps s t) (he : t.station? w = some e)
    (hwf : stationWf w e = true → stationWf w e' = true) (p : Prop) [Decidable p] (b : List Byte) :
    Keeps s (if p then t.refuse .inUse else ((t.putChanged w e').touch w).respond .ok b) := by
  split
  · exact h.refuse _
  · exact (h.toKeeps.trans (putChanged_touch_keeps he hwf)).respond _ _

theorem editStationBody_keeps (r : EditStationReq) (s : State) : Keeps s (editStationBody r s) := by
  unfold editStationBody
  split
  · exact refuse_keeps s _
  split
  · exact refuse_keeps s _
  next hrange =>
  split
  · next t w hl =>
    have hk := keyedLookup_keeps_of_eq hl
    split
    · next e he =>
      dsimp only
      split
      · exact hk.refuse _
      next hrole =>
      have hwf : stationWf w e = true → stationWf w (edited r e) = true := fun h =>
        stationWf_edited h (by simpa using hrange) hrole
      split
      · refine judgeEdit_keeps ((hk.trans (checkLoops_keeps t)).trans (checkNaming_keeps _ e.list)) ?_ hwf _ _
        rw [checkNaming_station?, checkLoops_station?]
        exact he
      · exact judgeEdit_keeps hk he hwf _ _
    · exact hk.refuse _
  · next hl => exact (keyedLookup_keeps_of_eq hl).refuse _

/-! ### FIND, READ and RETIRE (R18 to R24) -/

theorem findStationBody_keeps (n : Nat) (s : State) : Keeps s (findStationBody n s) := by
  unfold findStationBody
  split
  · exact refuse_keeps s _
  split
  · next hl =>
    exact ((keyedLookup_keeps_of_eq hl).toKeeps.trans (touch_keeps (station?_isSome_of_found hl))).respond _ _
  · next hl => exact (keyedLookup_keeps_of_eq hl).refuse _

/-- R19, R162: a station found by its key is touched, and its entry is read again. -/
theorem touchRead_keeps {n w : Nat} (hl : s.keyedLookup n = (t, .found w)) : Keeps s ((t.touch w).readOut w) :=
  ((keyedLookup_keeps_of_eq hl).toKeeps.trans (touch_keeps (station?_isSome_of_found hl))).trans (readOut_keeps _ w)

theorem readStationBody_keeps (n : Nat) (s : State) : Keeps s (readStationBody n s) := by
  unfold readStationBody
  split
  · exact refuse_keeps s _
  split
  · next hl =>
    have hk := touchRead_keeps hl
    dsimp only
    split
    · split
      · exact hk.refuse _
      · exact hk.respond _ _
    · exact hk.refuse _
  · next hl => exact (keyedLookup_keeps_of_eq hl).refuse _

theorem readSlotBody_keeps (set way : Nat) (s : State) : Keeps s (readSlotBody set way s) := by
  have hcheck := checkStation_keeps s (set * 4 + way)
  unfold readSlotBody
  split
  · exact refuse_keeps s _
  dsimp only
  split
  · exact hcheck.respond _ _
  split
  · exact hcheck.refuse _
  · exact hcheck.respond _ _

theorem readWay_keeps (s : State) (w : Nat) (e : Station) : TableKeeps s (s.readWay w e) := by
  unfold State.readWay
  split
  · exact (checkStations_keeps s _).trans (checkPool_keeps _)
  · exact checkNaming_keeps s _

/-- R22: an entry out of use has no occupation in its window. -/
theorem mayFree_of_not_inUse {w : Nat} {e : Station} (h : s.wayInUse w e = false) : ∀ i ∈ s.occsOfWay w e, s.mayFree i := by
  intro i hi
  have hfree := List.any_eq_false.1 h i hi
  simp only [State.occInUse, Bool.or_eq_true, not_or, Bool.not_eq_true] at hfree
  exact .inr (.inl hfree.1.1)

theorem retire_keeps (s : State) (w : Nat) (answer : Station → Nat → List Byte) : Keeps s (s.retire w answer) := by
  unfold State.retire
  split
  · next e _ =>
    have hread := (checkLoops_keeps s).trans (readWay_keeps _ w e)
    dsimp only
    split
    · exact hread.refuse _
    · next huse =>
      exact (hread.toKeeps.trans (freeWay_keeps (mayFree_of_not_inUse (Bool.eq_false_iff.2 huse)))).respond _ _
  · exact refuse_keeps s _

theorem retireStationBody_keeps (n : Nat) (s : State) : Keeps s (retireStationBody n s) := by
  unfold retireStationBody
  split
  · exact refuse_keeps s _
  dsimp only
  split
  · next hl => exact (keyedLookup_keeps_of_eq hl).toKeeps.trans (retire_keeps _ _ _)
  · next hl => exact (keyedLookup_keeps_of_eq hl).toKeeps.trans (retire_keeps _ _ _)
  · next hl => exact (keyedLookup_keeps_of_eq hl).refuse _

theorem retireSlotBody_keeps (set way : Nat) (s : State) : Keeps s (retireSlotBody set way s) := by
  unfold retireSlotBody
  split
  · exact refuse_keeps s _
  · exact (checkStation_keeps s _).toKeeps.trans (retire_keeps _ _ _)

/-! ### LOAD STATION (R200) -/

theorem stationWf_loadedStation {r : LoadStationReq} (hl : ¬r.list.length > Config.listLimit)
    (hn : validNumber r.number = true) (h : loadStationInRange r = true) :
    stationWf (r.number % 64 * 4) (loadedStation r) = true := by
  have hset : r.number % 64 * 4 / 4 = r.number % 64 := Nat.mul_div_cancel _ (Nat.zero_lt_succ 3)
  simp only [loadStationInRange, Bool.and_eq_true] at h
  obtain ⟨⟨⟨⟨⟨⟨⟨hrole, hsite⟩, href⟩, -⟩, -⟩, -⟩, -⟩, hfield⟩ := h
  obtain ⟨role, hrole⟩ := Option.isSome_iff_exists.1 hrole
  simp only [hrole, Option.some.injEq] at hfield
  simp only [stationWf, loadedStation, hset, hrole, Option.getD_some, hn, hsite, href, hfield, Bool.and_eq_true,
    decide_true, Bool.and_true, decide_eq_true_eq, true_and]
  exact not_lt.1 hl

theorem loadStationBody_keeps (r : LoadStationReq) (s : State) : Keeps s (loadStationBody r s) := by
  unfold loadStationBody
  split
  · exact badLength_keeps s _
  next hlist =>
  split
  · exact refuse_keeps s _
  next hnumber =>
  split
  · exact refuse_keeps s _
  next hrange =>
  simp only [Bool.not_eq_true, Bool.not_eq_false'] at hnumber hrange
  split
  · next w hw =>
    refine ((Keeps.refl s).install fun _ => stationWf_of_lowestFree hw ?_).respond _ _
    exact stationWf_loadedStation hlist hnumber hrange
  · exact refuse_keeps s _

end Sys2Proof.Machine
end

