-- ==== Sys2Proof/Proofs/Invariants/BeginReading.lean ====
section
/-! SUPPORT. BEGIN READING keeps every invariant (R33 to R36). -/

namespace Sys2Proof.Machine

open Sys2Proof

variable {s t u : State}

/-! ### The list that a reclaim shortens (R31, R33) -/

theorem checkStation_list {v w : Nat} {e' : Station} (h : (s.checkStation v).station? w = some e') :
    ∃ e, s.station? w = some e ∧ e'.list = e.list := by
  unfold State.checkStation at h
  split at h
  · next f hf =>
    split at h
    · exact ⟨e', h, rfl⟩
    · replace h : (s.setStation v { f with damaged := true }).station? w = some e' := h
      rw [station?_setStation] at h
      split at h
      · next hwv =>
        obtain rfl := Option.some.inj h
        exact ⟨f, hwv ▸ hf, rfl⟩
      · exact ⟨e', h, rfl⟩
  · exact ⟨e', h, rfl⟩

/-- R31: one station list loses a record. -/
theorem unlist_list {i v w : Nat} {e' : Station} (h : (State.unlist i s v).station? w = some e') :
    ∃ e, s.station? w = some e ∧ e'.list = if w = v then e.list.filter (· ≠ i) else e.list := by
  unfold State.unlist at h
  dsimp only at h
  split at h
  · next f hf =>
    split at h
    · rw [station?_putChanged] at h
      split at h
      · next hwv =>
        obtain rfl := Option.some.inj h
        obtain ⟨e, he, hlist⟩ := checkStation_list (hwv ▸ hf)
        exact ⟨e, he, by rw [if_pos hwv, ← hlist]⟩
      · next hwv =>
        obtain ⟨e, he, hlist⟩ := checkStation_list h
        exact ⟨e, he, by rw [if_neg hwv, hlist]⟩
    · next hnot =>
      obtain ⟨e, he, hlist⟩ := checkStation_list h
      refine ⟨e, he, ?_⟩
      split
      · next hwv =>
        obtain rfl := Option.some.inj ((hwv ▸ h).symm.trans hf)
        rw [← hlist, List.filter_eq_self.2]
        intro j hj
        exact decide_eq_true fun hji => hnot (List.contains_iff_mem.2 (hji ▸ hj))
      · exact hlist
  · next hnone =>
    obtain ⟨e, he, hlist⟩ := checkStation_list h
    refine ⟨e, he, ?_⟩
    exact hlist.trans (if_neg fun hwv => nomatch (hwv ▸ h).symm.trans hnone).symm

theorem unlistAll_list {i w : Nat} {e' : Station} (ws : List Nat) (h : (ws.foldl (State.unlist i) s).station? w = some e') :
    ∃ e, s.station? w = some e ∧ e'.list = if w ∈ ws then e.list.filter (· ≠ i) else e.list := by
  induction ws generalizing s with
  | nil => exact ⟨e', h, by simp⟩
  | cons v vs ih =>
    obtain ⟨f, hf, hlist⟩ := ih h
    obtain ⟨e, he, hl⟩ := unlist_list hf
    refine ⟨e, he, ?_⟩
    rw [hlist, hl]
    by_cases hv : w = v <;> by_cases hvs : w ∈ vs <;> simp [hv, hvs, List.filter_filter]

theorem unmember_station? (s : State) (i l w : Nat) : (State.unmember i s l).station? w = s.station? w := by
  unfold State.unmember
  split
  · split
    · dsimp only
      split
      · split
        · exact checkLoop_station? s l w
        · exact checkLoop_station? s l w
      · exact checkLoop_station? s l w
    · rfl
  · rfl

theorem unmemberAll_station? (s : State) (i w : Nat) (ls : List Nat) :
    (ls.foldl (State.unmember i) s).station? w = s.station? w := by
  induction ls generalizing s with
  | nil => rfl
  | cons l ls ih => rw [List.foldl_cons, ih, unmember_station?]

theorem freeOcc_list {ws : List Nat} {i w : Nat} {e' : Station} (hw : w ∈ ws) (h : (s.freeOcc ws i).station? w = some e') :
    ∃ e, s.station? w = some e ∧ e'.list = e.list.filter (· ≠ i) := by
  replace h : ((slotKeys (ws.foldl (State.unlist i) s).loops).foldl (State.unmember i) (ws.foldl (State.unlist i) s)).station? w =
      some e' := h
  rw [unmemberAll_station?] at h
  obtain ⟨e, he, hlist⟩ := unlistAll_list ws h
  exact ⟨e, he, by rw [hlist, if_pos hw]⟩

/-- R33: with its head gone, a list of at most 8 has room. -/
theorem room_of_filter_head {l rest : List Nat} {head : Nat} (hl : l = head :: rest) (hlen : l.length ≤ Config.listLimit) :
    (l.filter (· ≠ head)).length < Config.listLimit := by
  subst hl
  rw [List.filter_cons_of_neg (by simp)]
  exact Nat.lt_of_le_of_lt (List.length_filter_le _ _) hlen

theorem mem_waysOf_of_found {n w : Nat} (h : s.keyedLookup n = (t, .found w)) : w ∈ waysOf n := by
  unfold State.keyedLookup at h
  dsimp only at h
  split at h
  · cases h
  · next v hv =>
    split at h
    · split at h
      · cases h
      · obtain rfl := Lookup.found.inj (Prod.mk.inj h).2
        exact List.mem_of_mem_filter (List.mem_of_mem_head? (by rw [State.matching] at hv; rw [hv]; rfl))
    · cases h
  · cases h

/-! ### The new record and its window (R35, R36) -/

/-- R36: with no window open, a record is put in its window. -/
theorem openRecord_keeps {i : Nat} {o : Occ} {w : Window} (hin : s.inService = true) (hnone : s.window = none)
    (hi : i < Config.poolSize) (ho : occWf o = true) (hopen : inWindow o = true) (hrange : occInRange o = true) (hocc : w.occ = i)
    (hw : w.wf = true) : Keeps s { s with occs := slotSet s.occs i o, window := some w } := by
  refine ⟨⟨rfl, id, id, id, id, id, id, fun hr => ?_, fun hr => ?_⟩, .of_eq rfl rfl rfl⟩
  · have hlaw := recordsWf_iff.1 hr
    have hready : s.part = .ready ∧ s.resetHeld = false := by
      simpa [State.inService] using hin
    have hread : ∀ j, slotGet (slotSet s.occs i o) j = if j = i then some o else s.occ? j := fun j => occ?_setOcc (s := s) i j o
    refine recordsWf_iff.2 ⟨fun v hv => ?_, hlaw.engine, hlaw.scan, slotWf_slotSet hlaw.slots hi o, fun p hp => ?_, fun j hj => ?_⟩
    · obtain rfl := Option.some.inj hv
      exact ⟨hw, hin, o, (hread _).trans (if_pos hocc), hopen⟩
    · rcases mem_of_mem_slotSet hp with rfl | hp
      · exact ho
      · exact hlaw.groups p hp
    · obtain ⟨p, hp, hpin⟩ := hj
      replace hp : slotGet (slotSet s.occs i o) j = some p := hp
      rw [hread] at hp
      split at hp
      · next hji => simp [State.mayBeOpen, hready.1, State.isWindow, hocc, hji]
      · have := hlaw.windows j ⟨p, hp, hpin⟩
        simp [State.mayBeOpen, hready.1, hready.2, State.isWindow, hnone] at this
  · obtain ⟨h1, h2, h3, h4, h5⟩ := resultsWf_iff.1 hr
    refine resultsWf_iff.2 ⟨h1, h2, h3, h4, fun p hp => ?_⟩
    rcases mem_of_mem_slotSet hp with rfl | hp
    · exact hrange
    · exact h5 p hp

theorem checkConstants_window (s : State) (v : Option Window) :
    ({ s with window := v } : State).checkConstants false = { s.checkConstants false with window := v } := by
  by_cases hd : s.constants.damaged = true
  · simp [State.checkConstants, hd]
  · by_cases hs : s.constants.sound = true
    · simp [State.checkConstants, hd, hs]
    · simp only [State.checkConstants, if_neg hd, if_neg hs]
      rfl

theorem setOccState_window_comm (s : State) (v : Option Window) (i : Nat) (st : OccState) :
    ({ s with window := v } : State).setOccState i st = { s.setOccState i st with window := v } := by
  unfold State.setOccState
  rw [show ({ s with window := v } : State).occ? i = s.occ? i from rfl]
  split <;> rfl

/-- R38: COLLECTING is entered the same whether the window has been stored in SETTLING before. -/
theorem enterCollecting_window (s : State) (w : Window) (v : Option Window) :
    ({ s with window := v } : State).enterCollecting w = s.enterCollecting w := by
  unfold State.enterCollecting
  rw [checkConstants_window]
  dsimp only
  rw [setOccState_window_comm]
  rfl

theorem inWindow_newOcc (r : BeginReadingReq) (abort : Bool) : inWindow (newOcc r abort) = true := by
  unfold newOcc inWindow
  by_cases h : r.settle = 0 <;> simp [h]

theorem occWf_newOcc (r : BeginReadingReq) (abort : Bool) : occWf (newOcc r abort) = true := by
  have hin := inWindow_newOcc r abort
  refine occWf_iff.2 ⟨fun _ => ⟨rfl, rfl⟩, fun hout => (nomatch hin.symm.trans hout), fun _ => rfl, fun h => ?_, nofun⟩
  simp only [inWindow, Bool.or_eq_true, decide_eq_true_eq] at hin
  rcases hin with hin | hin <;> rcases h with h | h <;> cases hin.symm.trans h

theorem wf_newWindow {r : BeginReadingReq} (h : beginInRange r = true) (i : Nat) (abort : Bool) :
    (newWindow r i abort).wf = true := by
  simp only [beginInRange, Bool.and_eq_true, decide_eq_true_eq] at h
  obtain ⟨⟨⟨⟨hlo, hhi⟩, hsettle⟩, -⟩, -⟩ := h
  exact Window.wf_iff.2 ⟨⟨hsettle, hlo, hhi⟩, le_rfl⟩

theorem openWindow_keeps {r : BeginReadingReq} {i : Nat} (abort : Bool) (hin : s.inService = true) (hnone : s.window = none)
    (hi : i < Config.poolSize) (hr : beginInRange r = true) :
    Keeps s ((s.putOcc i (newOcc r abort)).openWindow r i abort) := by
  have hopen := openRecord_keeps (o := newOcc r abort) (w := newWindow r i abort) hin hnone hi (occWf_newOcc r abort)
    (inWindow_newOcc r abort) rfl rfl (wf_newWindow hr i abort)
  unfold State.openWindow
  dsimp only
  split
  · rw [← enterCollecting_window _ _ (some (newWindow r i abort))]
    exact hopen.trans (enterCollecting_keeps rfl)
  · exact hopen

/-! ### The lists of the station and of the loop (R35) -/

theorem stationWf_join {w i : Nat} {e : Station} (h : stationWf w e = true) (hroom : e.list.length < Config.listLimit) :
    stationWf w { e with list := e.list ++ [i] } = true := by
  simp only [stationWf, Bool.and_eq_true, decide_eq_true_eq, List.length_append, List.length_singleton] at h ⊢
  exact ⟨h.1, hroom⟩

theorem loopWf_join {x : Loop} {i : Nat} (h : loopWf x = true) (hroom : x.members.length < Config.memberLimit) :
    loopWf { x with members := x.members ++ [i] } = true := by
  simp only [loopWf, Bool.and_eq_true, decide_eq_true_eq, List.length_append, List.length_singleton] at h ⊢
  obtain ⟨⟨⟨⟨⟨⟨-, h2⟩, h3⟩, h4⟩, h5⟩, h6⟩, h7⟩ := h
  exact ⟨⟨⟨⟨⟨⟨hroom, h2⟩, h3⟩, h4⟩, h5⟩, h6⟩, h7⟩

/-- An entry of the table is written, where the law of entries holds of it as the access began. -/
theorem Keeps.putStation (h : Keeps s t) {w : Nat} {e : Station} (hsome : (t.station? w).isSome = true)
    (hw : s.stationsWf = true → stationWf w e = true) : Keeps s (t.putStation w e) := by
  have hst : s.stationsWf = true → (t.putStation w e).stationsWf = true := fun hs =>
    stationsWf_setStation (h.stations hs) hsome (hw hs)
  refine ⟨⟨h.pending, h.events, h.engine, h.clock, h.front, hst, h.loops, h.records, fun hr => ?_⟩,
    h.contents.trans (.of_eq rfl rfl rfl)⟩
  obtain ⟨h1, h2, -, h4, h5⟩ := resultsWf_iff.1 (h.results hr)
  exact resultsWf_iff.2 ⟨h1, h2, hst (resultsWf_iff.1 hr).stations, h4, h5⟩

/-- R34, steps 7 and 8: the station's list and the member list have room for one more. -/
structure HasRoom (s t : State) (r : BeginReadingReq) (way : Nat) : Prop where
  station : s.stationsWf = true → ∀ e, t.station? way = some e → e.list.length < Config.listLimit
  loop : ∀ l x, r.loop = some l → t.loop? l = some x → x.members.length < Config.memberLimit

/-- R35: the record joins its station's list. -/
def State.joinStation (s : State) (way i : Nat) : State :=
  match s.station? way with
  | some e => (s.putChanged way { e with list := e.list ++ [i] }).touch way
  | none => s

/-- R35: the record joins the member list of the loop named. -/
def State.joinLoop (s : State) (r : BeginReadingReq) (i : Nat) : State :=
  match r.loop.bind fun l => (s.loop? l).map fun x => (l, x) with
  | some (l, x) => s.putLoop l { x with members := x.members ++ [i] }
  | none => s

theorem joinLists_eq (s : State) (r : BeginReadingReq) (way i : Nat) :
    s.joinLists r way i = (s.joinStation way i).joinLoop r i := rfl

theorem joinStation_keeps {r : BeginReadingReq} {way : Nat} (h : TableKeeps s t) (hp : t.part = .ready)
    (hroom : HasRoom s t r way) (i : Nat) : Keeps s (t.joinStation way i) := by
  unfold State.joinStation
  split
  · next e he =>
    have hput : Keeps s (t.putChanged way { e with list := e.list ++ [i] }) := by
      rw [putChanged_of_ready hp]
      refine h.toKeeps.putStation (by rw [he]; rfl) fun hs => ?_
      exact stationWf_join (stationWf_of_station? (h.stations hs) he).2 (hroom.station hs e he)
    exact hput.trans (touch_keeps (putChanged_station?_isSome t way _))
  · exact h.toKeeps

theorem joinStation_eq (hp : s.part = .ready) (way i : Nat) : ∃ x y, s.joinStation way i = { s with stations := x, recency := y } := by
  unfold State.joinStation
  split
  · rw [putChanged_of_ready hp]
    exact ⟨_, _, rfl⟩
  · exact ⟨_, _, rfl⟩

theorem joinLoop_keeps {r : BeginReadingReq} (h : Keeps s t)
    (hroom : ∀ l x, r.loop = some l → t.loop? l = some x → x.members.length < Config.memberLimit) (i : Nat) :
    Keeps s (t.joinLoop r i) := by
  unfold State.joinLoop
  split
  · next l x hx =>
    simp only [Option.bind_eq_some_iff, Option.map_eq_some_iff, Prod.mk.injEq] at hx
    obtain ⟨k, hk, y, hy, rfl, rfl⟩ := hx
    refine h.putLoop fun hs => ?_
    obtain ⟨hl, hwf⟩ := loopWf_of_loop? (h.loops hs) hy
    exact ⟨hl, loopWf_join hwf (hroom k y hk hy)⟩
  · exact h

theorem joinLoop_eq (s : State) (r : BeginReadingReq) (i : Nat) : ∃ x, s.joinLoop r i = { s with loops := x } := by
  unfold State.joinLoop
  split
  · exact ⟨_, rfl⟩
  · exact ⟨_, rfl⟩

theorem joinLists_keeps {r : BeginReadingReq} {way : Nat} (h : TableKeeps s t) (hp : t.part = .ready)
    (hroom : HasRoom s t r way) (i : Nat) : Keeps s (t.joinLists r way i) := by
  obtain ⟨x, y, heq⟩ := joinStation_eq hp way i
  refine joinLoop_keeps (joinStation_keeps h hp hroom i) (fun l z hl hz => hroom.loop l z hl ?_) i
  rw [heq] at hz
  exact hz

theorem joinLists_eq_of_ready (hp : s.part = .ready) (r : BeginReadingReq) (way i : Nat) :
    ∃ x y z, s.joinLists r way i = { s with stations := x, recency := y, loops := z } := by
  obtain ⟨x, y, hst⟩ := joinStation_eq hp way i
  obtain ⟨z, hl⟩ := joinLoop_eq (s.joinStation way i) r i
  exact ⟨x, y, z, by rw [joinLists_eq, hl, hst]⟩

/-- R35: the lists are joined the same whether the record has been written before. -/
theorem joinLists_putOcc (hp : s.part = .ready) (r : BeginReadingReq) (way i : Nat) (o : Occ) :
    (s.putOcc i o).joinLists r way i = (s.joinLists r way i).putOcc i o := by
  have hstation : (s.putOcc i o).joinStation way i = (s.joinStation way i).putOcc i o := by
    unfold State.joinStation
    rw [show (s.putOcc i o).station? way = s.station? way from rfl]
    split
    · rw [putChanged_of_ready hp, putChanged_of_ready (s := s.putOcc i o) hp]
      rfl
    · rfl
  rw [joinLists_eq, joinLists_eq, hstation]
  unfold State.joinLoop
  rw [show ((s.joinStation way i).putOcc i o).loop? = (s.joinStation way i).loop? from rfl]
  split
  · rfl
  · rfl

/-! ### The command (R34, R35) -/

theorem begin_keeps {r : BeginReadingReq} {way i : Nat} (h : TableKeeps s t) (hin : s.inService = true)
    (hnone : s.window = none) (hr : beginInRange r = true) (hroom : HasRoom s t r way)
    (hi : lowestFree t.occs (List.range Config.poolSize) = some i) (abort : Bool) (reclaimed : Option Nat) :
    Keeps s (t.begin r abort way i reclaimed) := by
  have hint : t.inService = true := h.table.inService_eq.trans hin
  have hp : t.part = .ready := by
    simp only [State.inService, Bool.and_eq_true, decide_eq_true_eq] at hint
    exact hint.1
  have hwindow : t.window = none := by
    have hsome := h.table.window_isSome
    rw [hnone] at hsome
    exact Option.isNone_iff_eq_none.1 (Option.isSome_eq_false_iff.1 hsome)
  obtain ⟨x, y, z, heq⟩ := joinLists_eq_of_ready hp r way i
  unfold State.begin
  rw [joinLists_putOcc hp]
  refine ((joinLists_keeps h hp hroom i).trans (openWindow_keeps abort ?_ ?_ (List.mem_range.1 (lowestFree_spec hi).1) hr)).respond
    _ _
  · rw [heq]
    exact hint
  · rw [heq]
    exact hwindow

theorem checkOcc_station? (s : State) (i w : Nat) : (s.checkOcc i).station? w = s.station? w := checkOccs_station? s [i] w

/-- R33: a record that can be reclaimed is FINAL, and so not in its window. -/
theorem mayFree_of_reclaimable {e : Station} {head : Nat} (h : s.reclaimable e head = true) : s.mayFree head := by
  refine .inr (.inr ?_)
  rintro ⟨o, ho, hin⟩
  simp only [State.reclaimable, ho, Bool.and_eq_true, decide_eq_true_eq] at h
  obtain ⟨⟨⟨⟨hst, -⟩, -⟩, -⟩, -⟩ := h
  rw [inWindow, hst] at hin
  cases hin

/-- R34, step 8: the room of the loop's list, with the writes of the tables since. -/
theorem room_of_tableKeeps {r : BeginReadingReq} (h : TableKeeps s t)
    (hroom : ∀ l x, r.loop = some l → s.loop? l = some x → x.members.length < Config.memberLimit) :
    ∀ l x, r.loop = some l → t.loop? l = some x → x.members.length < Config.memberLimit := fun l x hl hx => by
  obtain ⟨y, hy, hle⟩ := h.loopFrom l x hx
  exact Nat.lt_of_le_of_lt hle.members (hroom l y hl hy)

theorem beginAt_keeps {r : BeginReadingReq} {way : Nat} {e : Station} (h : TableKeeps s t) (hin : s.inService = true)
    (hnone : s.window = none) (hr : beginInRange r = true) (hway : way ∈ waysOf r.number) (he : t.station? way = some e)
    (hroom : ∀ l x, r.loop = some l → t.loop? l = some x → x.members.length < Config.memberLimit) (abort : Bool) :
    Keeps s (t.beginAt r abort way e) := by
  unfold State.beginAt
  split
  · next hlen =>
    split
    · next i hi =>
      refine begin_keeps h hin hnone hr ⟨fun _ e' he' => ?_, hroom⟩ hi abort _
      obtain rfl := Option.some.inj (he.symm.trans he')
      exact hlen
    · exact h.refuse _
  split
  · exact h.refuse _
  · next head rest hlist =>
    have hread := (checkOcc_keeps t head).trans (checkLoops_keeps _)
    dsimp only
    split
    · next hrec =>
      have hfree := hread.trans (freeOcc_keeps (waysOf r.number) (mayFree_of_reclaimable hrec))
      split
      · next i hi =>
        refine begin_keeps (h.trans hfree) hin hnone hr ⟨fun hs e' he' => ?_, room_of_tableKeeps hfree hroom⟩ hi abort _
        obtain ⟨f, hf, hl⟩ := freeOcc_list hway he'
        rw [checkLoops_station?, checkOcc_station?] at hf
        obtain rfl := Option.some.inj (he.symm.trans hf)
        have hwf := (stationWf_of_station? (h.stations hs) he).2
        simp only [stationWf, Bool.and_eq_true, decide_eq_true_eq] at hwf
        rw [hl]
        exact room_of_filter_head hlist hwf.2
      · exact (h.trans hfree).refuse _
    · exact (h.trans hread).refuse _

theorem checkNamed_keeps (s : State) (l : Option Nat) : TableKeeps s (s.checkNamed l) := by
  cases l with
  | none => exact .refl s
  | some l => exact checkLoop_keeps s l

/-- R34, step 7: a loop that can take a member has room. -/
theorem room_of_joins {x : Loop} (h : joinRefusal (some x) = none) : x.members.length < Config.memberLimit := by
  unfold joinRefusal at h
  dsimp only at h
  split at h
  · cases h
  split at h
  · split at h
    · assumption
    · cases h
  · cases h
  · cases h
  · cases h

theorem beginReadingBody_keeps (hin : s.inService = true) (r : BeginReadingReq) : Keeps s (beginReadingBody r s) := by
  unfold beginReadingBody
  split
  · exact refuse_keeps s _
  split
  · exact refuse_keeps s _
  next hr =>
  split
  · exact refuse_keeps s _
  split
  · exact refuse_keeps s _
  next hnone =>
  split
  · next t w hl =>
    have hk := (keyedLookup_keeps_of_eq hl).trans (checkNamed_keeps t r.loop)
    dsimp only
    split
    · exact hk.refuse _
    next hjoin =>
    split
    · next e he =>
      refine beginAt_keeps hk hin (by simpa using hnone) (by simpa using hr) (mem_waysOf_of_found hl) he
        (fun l x hloop hx => room_of_joins ?_) _
      rw [hloop] at hjoin
      rw [← hx]
      simpa [hloop] using hjoin
    · exact hk.refuse _
  · next hl => exact (keyedLookup_keeps_of_eq hl).refuse _

end Sys2Proof.Machine
end

