-- ==== Sys2Proof/Proofs/Invariants/ReadingCommands.lean ====
section
/-! SUPPORT. The other reading commands and the reporting commands keep every invariant (R45, R50 to R53, R156 to R164). -/

namespace Sys2Proof.Machine

open Sys2Proof

variable {s t u : State}

/-! ### The ends of a reading (R45, R50, R51) -/

theorem endReadingBody_keeps (s : State) : Keeps s (endReadingBody s) := by
  unfold endReadingBody
  split
  · next w hw =>
    split
    · exact (closeWindow_keeps hw _ _ _).respond _ _
    · exact refuse_keeps s _
  · exact refuse_keeps s _

theorem abortReadingBody_keeps (s : State) : Keeps s (abortReadingBody s) := by
  unfold abortReadingBody
  split
  · next w hw =>
    exact (removeWindow_keeps ((State.isWindow_of_eq hw _).trans (decide_eq_true rfl)) _ _).respond _ _
  · exact refuse_keeps s _

theorem discardDamaged_keeps (s : State) (i : Nat) : Keeps s (s.discardDamaged i) := by
  have hvoid : TableKeeps s ((s.anchored i).foldl State.voidSound s) := .foldl voidSound_keeps _ s
  unfold State.discardDamaged
  dsimp only
  split
  · next w hw =>
    split
    · exact hvoid.toKeeps.trans (removeWindow_keeps ((State.isWindow_of_eq hw _).trans (decide_eq_true rfl)) _ _)
    · next hne =>
      exact (hvoid.trans (freeOcc_keeps _ (.inr (.inl ((State.isWindow_of_eq hw i).trans (decide_eq_false hne)))))).toKeeps
  · next hw => exact (hvoid.trans (freeOcc_keeps _ (.inr (.inl (by rw [State.isWindow, hw]))))).toKeeps

theorem checkLoop_occ? (s : State) (l i : Nat) : (s.checkLoop l).occ? i = s.occ? i := by
  unfold State.checkLoop
  split
  · split <;> rfl
  · rfl

theorem checkLoops_occ? (s : State) (i : Nat) : s.checkLoops.occ? i = s.occ? i := by
  unfold State.checkLoops
  induction slotKeys s.loops generalizing s with
  | nil => rfl
  | cons l ls ih => rw [List.foldl_cons, ih, checkLoop_occ?]

/-- R51: a record that is not in use is not in its window. -/
theorem mayFree_of_not_discardInUse {i : Nat} {o : Occ} (ho : s.occ? i = some o) (h : s.discardInUse i o = false) :
    s.mayFree i := by
  refine .inr (.inr ?_)
  rintro ⟨p, hp, hin⟩
  obtain rfl := Option.some.inj (ho.symm.trans hp)
  simp only [State.discardInUse, Bool.or_eq_false_iff] at h
  simp [inWindow, h.1.1.1, h.1.1.2] at hin

theorem discardOccupationBody_keeps (i : Nat) (s : State) : Keeps s (discardOccupationBody i s) := by
  have hread := (checkOcc_keeps s i).trans (checkLoops_keeps _)
  unfold discardOccupationBody
  split
  · exact refuse_keeps s _
  split
  · exact refuse_keeps s _
  · next o ho =>
    dsimp only
    split
    · split
      · exact hread.refuse _
      · exact (hread.toKeeps.trans (discardDamaged_keeps _ i)).respond _ _
    split
    · exact hread.refuse _
    · next huse =>
      refine (hread.trans (freeOcc_keeps _ (mayFree_of_not_discardInUse (o := o) ?_ (Bool.eq_false_iff.2 huse)))).respond _ _
      rw [checkLoops_occ?]
      exact ho

/-! ### The stale marks (R103 to R105) -/

theorem tideMark_keeps (s : State) (e : Option Station) (r : Results) : TableKeeps s (s.tideMark e r).1 := by
  unfold State.tideMark
  split
  · exact checkSite_keeps s _
  · exact .refl s

theorem staleMarks_keeps (s : State) (e : Option Station) (o : Occ) : Keeps s (s.staleMarks e o).1 := by
  unfold State.staleMarks
  split
  · exact (tideMark_keeps s e _).toKeeps.trans (checkConstants_keeps _ false)
  · exact .refl s

theorem lookupMarks_keeps (s : State) (o : Occ) : Keeps s (s.lookupMarks o).1 := by
  have hk := internalLookup_keeps s o.station
  unfold State.lookupMarks
  split
  · split
    · next hl =>
      rw [hl] at hk
      exact hk.toKeeps.trans (staleMarks_keeps _ _ o)
    · next hl =>
      rw [hl] at hk
      exact hk.toKeeps.trans (staleMarks_keeps _ _ o)
  · exact .refl s

theorem readOccupationBody_keeps (i : Nat) (s : State) : Keeps s (readOccupationBody i s) := by
  have hread := checkOcc_keeps s i
  unfold readOccupationBody
  split
  · exact refuse_keeps s _
  dsimp only
  split
  · exact hread.respond _ _
  split
  · exact hread.refuse _
  · exact (hread.toKeeps.trans (lookupMarks_keeps _ _)).respond _ _

/-! ### EXPORT STATION (R162) -/

theorem Keeps.foldl_fst {β γ : Type} {f : State × γ → β → State × γ} (hf : ∀ a b, Keeps a.1 (f a b).1) (l : List β)
    (a : State × γ) : Keeps a.1 (l.foldl f a).1 := by
  induction l generalizing a with
  | nil => exact .refl _
  | cons b l ih => exact (hf a b).trans (ih (f a b))

theorem exportPart_keeps (e : Station) (a : State × List OccPart) (i : Nat) : Keeps a.1 (exportPart e a i).1 := by
  have hread := checkOcc_keeps a.1 i
  unfold exportPart
  dsimp only
  split
  · exact hread.toKeeps
  split
  · exact hread.toKeeps
  · exact hread.toKeeps.trans (staleMarks_keeps _ _ _)

theorem checkConstants_stations (s : State) (again : Bool) : (s.checkConstants again).stations = s.stations := by
  unfold State.checkConstants
  split
  · split <;> rfl
  · split <;> rfl

theorem tideMark_stations (s : State) (e : Option Station) (r : Results) : (s.tideMark e r).1.stations = s.stations := by
  unfold State.tideMark
  split
  · simp only [State.checkSite]
    split <;> rfl
  · rfl

theorem staleMarks_stations (s : State) (e : Option Station) (o : Occ) : (s.staleMarks e o).1.stations = s.stations := by
  unfold State.staleMarks
  split
  · exact (checkConstants_stations _ false).trans (tideMark_stations s e _)
  · rfl

theorem checkOcc_stations (s : State) (i : Nat) : (s.checkOcc i).stations = s.stations := by
  obtain ⟨a, ev, h⟩ := checkOcc_frame (s := s) i
  rw [h]

theorem exportPart_stations (e : Station) (a : State × List OccPart) (i : Nat) :
    (exportPart e a i).1.stations = a.1.stations := by
  have hread := checkOcc_stations a.1 i
  unfold exportPart
  dsimp only
  split
  · exact hread
  split
  · exact hread
  · exact (staleMarks_stations _ _ _).trans hread

theorem exportParts_stations (e : Station) (is : List Nat) (a : State × List OccPart) :
    (is.foldl (exportPart e) a).1.stations = a.1.stations := by
  induction is generalizing a with
  | nil => rfl
  | cons i is ih => rw [List.foldl_cons, ih, exportPart_stations]

theorem exportNow_keeps {w : Nat} {e : Station} (he : s.station? w = some e) : Keeps s (s.exportNow w e) := by
  have hparts : Keeps s (e.list.foldl (exportPart e) (s, [])).1 := .foldl_fst (exportPart_keeps e) e.list (s, [])
  have hsnap := hparts.trans (snapshot_keeps _
    (some { station := stationPart w e s.epoch, parts := (e.list.foldl (exportPart e) (s, [])).2 }))
  refine (hsnap.putStation ?_ fun hs => ?_).respond _ _
  · change (slotGet (e.list.foldl (exportPart e) (s, [])).1.stations w).isSome = true
    rw [exportParts_stations]
    exact Option.isSome_iff_exists.2 ⟨e, he⟩
  · exact (stationWf_of_station? hs he).2

theorem exportStationBody_keeps (n : Nat) (s : State) : Keeps s (exportStationBody n s) := by
  unfold exportStationBody
  split
  · exact refuse_keeps s _
  split
  · next t w hl =>
    have hk := touchRead_keeps hl
    dsimp only
    split
    · next e he =>
      have hcheck := hk.trans (checkConstants_keeps _ true)
      split
      · exact hk.refuse _
      split
      · exact hcheck.refuse _
      · refine hcheck.trans (exportNow_keeps ?_)
        rw [State.station?, checkConstants_stations]
        exact he
    · exact hk.refuse _
  · next hl => exact (keyedLookup_keeps_of_eq hl).refuse _

/-! ### NEXT CHANGED and READ EXPORT PART (R161, R164) -/

theorem nextChangedBody_keeps (key : Option Nat) (s : State) : Keeps s (nextChangedBody key s) := by
  unfold nextChangedBody
  split
  · exact refuse_keeps s _
  · exact (checkStations_keeps s _).respond _ _

theorem readExportPartBody_keeps (k : Nat) (s : State) : Keeps s (readExportPartBody k s) := by
  unfold readExportPartBody
  split
  · exact respond_keeps s _ _
  · exact refuse_keeps s _

end Sys2Proof.Machine
end

