-- ==== Sys2Proof/Proofs/Invariants/Service.lean ====
section
/-! SUPPORT. Power, the reset line, RESET, standby, wake and the restore commands keep every invariant (R193 to R205). -/

namespace Sys2Proof.Machine

open Sys2Proof

variable {s t u : State}

/-! ### Power and reset (R193, R194) -/

theorem powerOn_lawful (s : State) : Lawful s s.powerOn := by
  obtain ⟨hevents, hengine, hclock, -, hfront, hstations, hloops, -, hresults⟩ := invariantsAtReset
  exact ⟨rfl, fun _ => hevents, fun _ => hengine, fun _ => hclock, fun _ => hfront, fun _ => hstations, fun _ => hloops,
    fun _ => rfl, fun _ => hresults⟩

theorem mayBeOpen_of_held (h : s.resetHeld = true) (i : Nat) : s.mayBeOpen i = true := by
  unfold State.mayBeOpen
  rw [h]
  cases s.part <;> rfl

/-- R195: a scan that has just begun has passed no record. -/
theorem mayBeOpen_of_new_scan {c : Scan} (hp : s.part = .starting) (hc : s.scan = some c) (hpass : c.pass = 1) (i : Nat) :
    s.mayBeOpen i = true := by
  simp [State.mayBeOpen, hp, State.scanClears, hc, hpass]

/-- R36: with no window open and the engine IDLE, the part may be in any state that suits the scan and the open records. -/
theorem recordsLaw_of_quiet (hw : t.window = none) (he : t.engine.state = .idle)
    (hscan : decide (t.part = .starting) = t.scanning) (pool : PoolLaw t) (hopen : ∀ i, t.opensAt i → t.mayBeOpen i = true) :
    RecordsLaw t where
  window _ hw' := nomatch hw.symm.trans hw'
  engine := .inl he
  scan := hscan
  slots := pool.1
  groups := pool.2
  windows := hopen

theorem RecordsLaw.pool (h : RecordsLaw s) : PoolLaw s := ⟨h.slots, h.groups⟩

/-- R194: the main domain set as at power-on, with a part state, a report and events. -/
def State.restarted (s : State) (f : FrontEnd) (l : Link) (p : PartState) (c : Option Scan) (held : Bool) : State :=
  { s with
    front := f, link := l, window := none, lastWindow := none, engine := idleEngine, snapshot := none, part := p, scan := c,
    events := clearEvents, resetHeld := held }

theorem eventsWf_of_cleared (h : s.events = clearEvents) : s.eventsWf = true :=
  eventsWf_iff.2 (by rw [h]; exact ⟨BitVec.zero_and, BitVec.zero_and⟩)

theorem restarted_keeps {f : FrontEnd} {p : PartState} {c : Option Scan} {held : Bool} (hf : FrontLaw f) (l : Link)
    (hscan : s.recordsWf = true → decide (p = .starting) = (s.restarted f l p c held).scanning)
    (hopen : ∀ i, (s.restarted f l p c held).mayBeOpen i = true) : Keeps s (s.restarted f l p c held) := by
  refine ⟨⟨rfl, fun _ => eventsWf_of_cleared rfl, fun _ => rfl, id, fun hs => ?_, id, id, fun hr => ?_, fun hr => ?_⟩, .of_eq rfl rfl rfl⟩
  · exact frontWf_iff.2 ⟨(frontWf_iff.1 hs).1, hf⟩
  · exact recordsWf_iff.2 (recordsLaw_of_quiet rfl rfl (hscan hr) (recordsWf_iff.1 hr).pool fun i _ => hopen i)
  · obtain ⟨h1, h2, h3, -, h5⟩ := resultsWf_iff.1 hr
    exact resultsWf_iff.2 ⟨h1, h2, h3, rfl, h5⟩

theorem holdReset_eq (s : State) : s.holdReset =
    s.restarted s.setStart.front s.link.cleared.ignorePeriod s.part s.scan true := rfl

theorem holdReset_keeps (s : State) : Keeps s s.holdReset := by
  rw [holdReset_eq]
  exact restarted_keeps (.started _ _ _) _ (fun hr => (recordsWf_iff.1 hr).scan) (mayBeOpen_of_held rfl)

/-- R198: the report of a scan as it begins. -/
def newScan (o : ScanOrigin) : Scan :=
  { origin := o, pass := 1, ended := none, counts := {}, cursor := 0, marked := [], found := [] }

theorem resetNow_eq_restarted (s : State) : s.resetNow = (s.checkConstants false).restarted (s.checkConstants false).setStart.front
    (s.checkConstants false).link.cleared .starting (some (newScan .reset)) false := rfl

theorem resetNow_keeps (s : State) : Keeps s s.resetNow := by
  rw [resetNow_eq_restarted]
  exact (checkConstants_keeps s false).trans (restarted_keeps (.started _ _ _) _ (fun _ => rfl) (mayBeOpen_of_new_scan rfl rfl rfl))

/-! ### Changes of the part state (R195, R199, R203, R205) -/

theorem enterPart_keeps {p : PartState} {c : Option Scan}
    (hquiet : s.recordsWf = true → s.window = none ∧ s.engine.state = .idle)
    (hscan : s.recordsWf = true → decide (p = .starting) = ({ s with part := p, scan := c } : State).scanning)
    (hopen : s.recordsWf = true → ∀ i, s.opensAt i → ({ s with part := p, scan := c } : State).mayBeOpen i = true) :
    Keeps s { s with part := p, scan := c } := by
  refine ⟨⟨rfl, id, id, id, id, id, id, fun hr => ?_, id⟩, .of_eq rfl rfl rfl⟩
  obtain ⟨hw, he⟩ := hquiet hr
  exact recordsWf_iff.2 (recordsLaw_of_quiet hw he (hscan hr) (recordsWf_iff.1 hr).pool (hopen hr))

theorem inService_iff : s.inService = true ↔ s.part = .ready ∧ s.resetHeld = false := by
  simp [State.inService]

/-- R192: outside READY no window is open and the engine is IDLE. -/
theorem quiet_of_not_ready (hp : s.part ≠ .ready) (hr : s.recordsWf = true) : s.window = none ∧ s.engine.state = .idle := by
  have hlaw := recordsWf_iff.1 hr
  have hout : ¬s.inService = true := fun h => hp (inService_iff.1 h).1
  refine ⟨?_, hlaw.engine.resolve_right hout⟩
  cases hw : s.window with
  | none => rfl
  | some w => exact absurd (hlaw.window w hw).2.1 hout

/-- R195: outside STARTING no scan is in progress. -/
theorem scanning_of_not_starting (hp : s.part ≠ .starting) (hr : s.recordsWf = true) : s.scanning = false :=
  (recordsWf_iff.1 hr).scan.symm.trans (decide_eq_false hp)

/-- R72: the front end stops. -/
theorem stopFront_keeps (s : State) : Keeps s { s with front := s.front.stop } := setFront_keeps fun _ h => h.stop

theorem standbyBody_keeps (hin : s.inService = true) : Keeps s (standbyBody s) := by
  obtain ⟨hp, hheld⟩ := inService_iff.1 hin
  unfold standbyBody
  split
  · next hquiet =>
    simp only [State.quiet, Bool.and_eq_true, decide_eq_true_eq, Option.isNone_iff_eq_none] at hquiet
    have henter : Keeps s { s with part := .standby, scan := s.scan } := by
      refine enterPart_keeps (fun _ => hquiet.1) (fun hr => ?_) fun hr i hi => ?_
      · exact (scanning_of_not_starting (by rw [hp]; nofun) hr).symm
      · have := (recordsWf_iff.1 hr).windows i hi
        rw [State.mayBeOpen, hp] at this
        exact this
    exact (henter.trans (stopFront_keeps _)).trans (link_keeps _ _)
  · exact refuse_keeps s _

theorem setStart_keeps (s : State) : Keeps s s.setStart := setFront_keeps fun _ _ => .started _ _ _

theorem startFront_keeps (s : State) : Keeps s s.startFront := (checkConstants_keeps s false).trans (setStart_keeps _)

theorem startFront_part (s : State) : s.startFront.part = s.part := (checkConstants_tableStep s false).part

theorem wake_keeps (s : State) : Keeps s s.wake := by
  unfold State.wake
  split
  · next hp =>
    have hpart : s.startFront.part = .standby := (startFront_part s).trans hp.1
    have henter : Keeps s.startFront { s.startFront with part := .ready, scan := s.startFront.scan } := by
      refine enterPart_keeps (quiet_of_not_ready (by rw [hpart]; nofun)) (fun hr => ?_) fun hr i hi => ?_
      · exact (scanning_of_not_starting (by rw [hpart]; nofun) hr).symm
      · have := (recordsWf_iff.1 hr).windows i hi
        rw [State.mayBeOpen, hpart] at this
        exact this
    exact ((startFront_keeps s).trans henter).trans (link_keeps _ _)
  · exact .refl s

/-! ### Restore (R199, R203) -/

theorem beginRestoreBody_keeps (hin : s.inService = true) : Keeps s (beginRestoreBody s) := by
  obtain ⟨hp, -⟩ := inService_iff.1 hin
  unfold beginRestoreBody
  split
  · next hclear =>
    simp only [State.cleared, Bool.and_eq_true, decide_eq_true_eq, Option.isNone_iff_eq_none, List.isEmpty_iff] at hclear
    obtain ⟨⟨⟨⟨-, hoccs⟩, -⟩, hengine⟩, hwindow⟩ := hclear
    have henter : Keeps s { s with part := .restore, scan := s.scan } := by
      refine enterPart_keeps (fun _ => ⟨hwindow, hengine⟩) (fun hr => ?_) fun _ i hi => ?_
      · exact (scanning_of_not_starting (by rw [hp]; nofun) hr).symm
      · obtain ⟨o, ho, -⟩ := hi
        rw [State.occ?, hoccs] at ho
        cases ho
    exact henter.respond _ _
  · exact refuse_keeps s _

theorem dropLast_keeps (s : State) : Keeps s s.dropLast :=
  (lastWindow_keeps s none).setEngine id (fun hr => (recordsWf_iff.1 hr).engine) fun hr _ => (resultsWf_iff.1 hr).flight

theorem endRestoreBody_keeps (hp : s.part = .restore) : Keeps s (endRestoreBody s) := by
  have hdrop := (dropLast_keeps s).respond .ok []
  refine hdrop.trans (enterPart_keeps (quiet_of_not_ready ?_) (fun _ => rfl) fun _ => ?_)
  · exact fun h => nomatch hp.symm.trans h
  · exact fun i _ => mayBeOpen_of_new_scan rfl rfl rfl i

/-- R203: every way, record and loop becomes FREE. -/
def State.emptied (s : State) : State := { s with stations := [], recency := [], occs := [], loops := [], expiryDue := [] }

theorem not_opensAt_emptied (s : State) (i : Nat) : ¬s.emptied.opensAt i := by
  rintro ⟨o, ho, -⟩
  cases ho

theorem emptied_keeps (hnone : s.recordsWf = true → s.window = none) : Keeps s s.emptied := by
  refine ⟨⟨rfl, id, id, id, id, fun _ => rfl, fun _ => rfl, fun hr => ?_, fun hr => ?_⟩, .of_eq rfl rfl rfl⟩
  · have hlaw := recordsWf_iff.1 hr
    exact recordsWf_iff.2
      { window := fun w hw => (nomatch (hnone hr).symm.trans hw)
        engine := hlaw.engine
        scan := hlaw.scan
        slots := rfl
        groups := fun p hp => (nomatch hp)
        windows := fun i hi => absurd hi (not_opensAt_emptied s i) }
  · obtain ⟨h1, h2, -, h4, -⟩ := resultsWf_iff.1 hr
    exact resultsWf_iff.2 ⟨h1, h2, rfl, h4, fun p hp => (nomatch hp)⟩

theorem abortRestoreBody_keeps (hp : s.part = .restore) : Keeps s (abortRestoreBody s) := by
  have hnot : s.part ≠ .ready := by rw [hp]; nofun
  have hclear := (dropLast_keeps s).trans (emptied_keeps fun hr => (quiet_of_not_ready hnot hr).1)
  refine (hclear.trans (enterPart_keeps (p := .ready) (c := s.scan) (quiet_of_not_ready hnot) (fun hr => ?_) ?_)).respond _ _
  · have hnot : s.dropLast.emptied.part ≠ .starting := fun h => nomatch hp.symm.trans h
    exact (scanning_of_not_starting hnot hr).symm
  · exact fun _ i hi => absurd hi (not_opensAt_emptied _ i)

/-! ### LOAD OCCUPATION and LOAD LOOP (R201, R202) -/

theorem not_inWindow_loadedOcc {n : Nat} {st : OccState} (hst : loadedOccState n = some st) (r : LoadOccupationReq) :
    inWindow (loadedOcc st r) = false := by
  unfold loadedOccState at hst
  split at hst <;> cases hst <;> rfl

/-- R29, R201: the groups of a loaded record agree with its state. -/
theorem occWf_loadedOcc {n : Nat} {st : OccState} {r : LoadOccupationReq} (hst : loadedOccState n = some st)
    (hg : groupsAgree st r.results.isSome r.drift.isSome = true) : occWf (loadedOcc st r) = true := by
  have hout := not_inWindow_loadedOcc hst r
  simp only [groupsAgree, Bool.and_eq_true, Bool.or_eq_true, Bool.not_eq_true'] at hg
  obtain ⟨hstate, hdrift⟩ := hg
  refine occWf_iff.2 ⟨fun hin => (nomatch hout.symm.trans hin), fun _ => rfl, fun hp => ?_, fun hp => ?_, fun hd => ?_⟩
  · replace hp : st = .pending := hp
    subst hp
    simp only [Bool.and_eq_true, Bool.not_eq_true'] at hstate
    simpa [loadedOcc] using hstate.1
  · replace hp : st = .reduced ∨ st = .final := hp
    rcases hp with rfl | rfl
    · exact hstate
    · simp only [Bool.and_eq_true] at hstate
      exact hstate.1
  · exact hdrift.resolve_right fun h => nomatch h.symm.trans hd

theorem occInRange_loadedOcc {st : OccState} {r : LoadOccupationReq} (h : loadOccInRange r = true) :
    occInRange (loadedOcc st r) = true := by
  simp only [loadOccInRange, Bool.and_eq_true] at h
  obtain ⟨⟨-, hresults⟩, hdrift⟩ := h
  simp only [occInRange, loadedOcc, hresults, hdrift, Bool.and_self]

/-- R201: with no window open, a record that is out of its window is written. -/
theorem loadRecord_keeps {i : Nat} {o : Occ} (hnone : s.recordsWf = true → s.window = none) (hi : i < Config.poolSize)
    (ho : occWf o = true) (hout : inWindow o = false) (hrange : occInRange o = true) : Keeps s (s.putOcc i o) := by
  refine occs_keeps (fun hr => ?_) fun hall p hp => ?_
  · have hlaw := recordsWf_iff.1 hr
    refine recordsWf_iff.2 ⟨fun w hw => (nomatch (hnone hr).symm.trans hw), hlaw.engine, hlaw.scan,
      slotWf_slotSet hlaw.slots hi _, fun p hp => ?_, fun j hj => ?_⟩
    · rcases mem_of_mem_slotSet hp with rfl | hp
      · exact ho
      · exact hlaw.groups p hp
    · obtain ⟨q, hq, hin⟩ := hj
      replace hq : (s.putOcc i o).occ? j = some q := hq
      rw [State.putOcc, occ?_setOcc] at hq
      split at hq
      · obtain rfl := Option.some.inj hq
        cases hout.symm.trans hin
      · exact hlaw.windows j ⟨q, hq, hin⟩
  · rcases mem_of_mem_slotSet hp with rfl | hp
    · exact hrange
    · exact hall p hp

theorem loadOccupationBody_keeps (hp : s.part = .restore) (i : Nat) (r : LoadOccupationReq) :
    Keeps s (loadOccupationBody i r s) := by
  have hnot : s.part ≠ .ready := by rw [hp]; nofun
  unfold loadOccupationBody
  split
  · exact refuse_keeps s _
  split
  · exact refuse_keeps s _
  next hi =>
  split
  · exact refuse_keeps s _
  split
  · exact refuse_keeps s _
  next st hst =>
  split
  · exact refuse_keeps s _
  · next hfields =>
    simp only [Bool.or_eq_true, Bool.not_eq_true', not_or, Bool.not_eq_false] at hfields
    exact (loadRecord_keeps (fun hr => (quiet_of_not_ready hnot hr).1) (by simpa using hi) (occWf_loadedOcc hst hfields.2)
      (not_inWindow_loadedOcc hst r) (occInRange_loadedOcc hfields.1)).respond _ _

theorem hasClosing_eq (st : LoopState) : hasClosing st = closeState st := by
  cases st <;> rfl

theorem loopWf_loadedLoop {st : LoopState} {r : LoadLoopReq} (hlen : ¬r.members.length > Config.memberLimit)
    (h : loadLoopInRange st r = true) : loopWf (loadedLoop st r) = true := by
  simp only [loadLoopInRange, Bool.and_eq_true, decide_eq_true_eq, hasClosing_eq] at h
  obtain ⟨⟨⟨⟨⟨⟨⟨⟨⟨-, hmode⟩, hdv⟩, hrate⟩, -⟩, -⟩, hc⟩, hm⟩, hd⟩, hr⟩ := h
  have hbind : (r.mode.bind modeOf).isSome = r.mode.isSome := by
    cases hr : r.mode with
    | none => rfl
    | some m =>
      rw [hr] at hmode
      exact hmode
  simp only [loopWf, loadedLoop, Bool.and_eq_true, hbind]
  exact ⟨⟨⟨⟨⟨⟨decide_eq_true (not_lt.1 hlen), decide_eq_true hc⟩, decide_eq_true hm⟩, decide_eq_true hd⟩, decide_eq_true hr⟩,
    hdv⟩, hrate⟩

theorem loadLoopBody_keeps (r : LoadLoopReq) (s : State) : Keeps s (loadLoopBody r s) := by
  unfold loadLoopBody
  split
  · exact badLength_keeps s _
  next hlen =>
  split
  · exact refuse_keeps s _
  next hl =>
  split
  · exact refuse_keeps s _
  split
  · exact refuse_keeps s _
  split
  · exact refuse_keeps s _
  · next hfields =>
    exact (putLoop_lawful fun _ => ⟨by simpa using hl, loopWf_loadedLoop hlen (by simpa using hfields)⟩).respond _ _

end Sys2Proof.Machine
end

