-- ==== Sys2Proof/Proofs/Invariants/TableCommands.lean ====
section
/-! SUPPORT. The commands of the tide tables and of the constants, the link's own events and the event commands keep every
invariant (R93 to R97, R171 to R174, R182 to R189). -/

namespace Sys2Proof.Machine

open Sys2Proof

variable {s t u : State}

/-! ### Tide tables (R93 to R97) -/

theorem nextRevision_lt (n : Nat) : nextRevision n < 65536 := Nat.mod_lt _ (by decide)

theorem tide_lawful {x : Vector Constituent Config.constituents} {y : Vector Site Config.sites}
    (h : s.sitesWf = true → ({ s with constituents := x, sites := y } : State).sitesWf = true) :
    Lawful s { s with constituents := x, sites := y } :=
  ⟨rfl, id, id, id, id, id, id, id, fun hr => resultsWf_of_sites hr (h (resultsWf_iff.1 hr).sites) rfl rfl rfl rfl rfl⟩

/-- A tide table is written: the laws hold on, and the constants stay as they stand. -/
structure TideWrite (s t : State) : Prop extends Lawful s t where
  constants : t.constants = s.constants

theorem TideWrite.refuse (s : State) (st : Status) : TideWrite s (s.refuse st) := ⟨(refuse_keeps s st).toLawful, rfl⟩

theorem TideWrite.respond (h : TideWrite s t) (st : Status) (b : List Byte) : TideWrite s (t.respond st b) :=
  ⟨h.toLawful.trans (respond_keeps t st b).toLawful, h.constants⟩

/-- R93, R96: a constituent is written and every site's revision advances. -/
theorem sitesWf_writeConstituent (h : s.sitesWf = true) (k : Nat) {c : Constituent} (hc : constituentWf c = true) :
    ({ s.setConstituent k c with sites := s.sites.map Site.advance } : State).sitesWf = true := by
  have hset := sitesWf_setConstituent h k hc
  simp only [State.sitesWf, Bool.and_eq_true, List.all_eq_true, Vector.mem_toList_iff, Vector.mem_map] at hset h ⊢
  refine ⟨hset.1, ?_⟩
  rintro _ ⟨d, hd, rfl⟩
  have hwf := h.2 d hd
  simp only [siteWf, Site.advance, Bool.and_eq_true] at hwf ⊢
  exact ⟨⟨decide_eq_true (nextRevision_lt _), hwf.1.2⟩, hwf.2⟩

theorem writeConstituent_lawful (k : Nat) {c : Constituent} (hc : constituentWf c = true) :
    Lawful s { s.setConstituent k c with sites := s.sites.map Site.advance } :=
  tide_lawful (x := s.constituents.setIfInBounds k c) fun hs => sitesWf_writeConstituent hs k hc

theorem writeConstituentBody_tideWrite (k enabled speed phase : Nat) (s : State) :
    TideWrite s (writeConstituentBody k enabled speed phase s) := by
  unfold writeConstituentBody
  split
  · exact .refuse s _
  next en _ =>
  split
  · exact .refuse s _
  next hrange =>
  refine TideWrite.respond (t := { s.setConstituent k (writtenConstituent en speed phase) with
    sites := s.sites.map Site.advance }) ⟨writeConstituent_lawful k ?_, rfl⟩ _ _
  simp only [Bool.or_eq_true, Bool.not_eq_true', not_or, Bool.not_eq_false, Bool.and_eq_true] at hrange
  simp only [constituentWf, writtenConstituent, Bool.and_eq_true]
  exact ⟨hrange.1.2, hrange.2⟩

theorem writeSiteBody_tideWrite (k : Nat) (pairs : List (Nat × Nat)) (s : State) : TideWrite s (writeSiteBody k pairs s) := by
  unfold writeSiteBody
  split
  · exact ⟨(badLength_keeps s _).toLawful, rfl⟩
  next hlen =>
  split
  · exact .refuse s _
  next hrange =>
  refine TideWrite.respond ⟨tide_lawful fun hs => sitesWf_setSite hs k ?_, rfl⟩ _ _
  simp only [Bool.or_eq_true, Bool.not_eq_true', not_or, Bool.not_eq_false] at hrange
  simp only [siteWf, writtenSite, Bool.and_eq_true]
  exact ⟨⟨decide_eq_true (nextRevision_lt _), decide_eq_true (not_not.1 hlen)⟩, hrange.2⟩

theorem siteWf_clearedSite (c : Site) : siteWf (clearedSite c) = true := by
  have hpairs : decide (zeroPairs.length = 12) = true ∧ pairsInRange zeroPairs = true := by decide
  simp only [siteWf, clearedSite, clearSite, Bool.and_eq_true]
  exact ⟨⟨decide_eq_true (nextRevision_lt _), hpairs.1⟩, hpairs.2⟩

theorem clearSiteBody_tideWrite (k : Nat) (s : State) : TideWrite s (clearSiteBody k s) := by
  unfold clearSiteBody
  split
  · exact .refuse s _
  · exact TideWrite.respond ⟨tide_lawful fun hs => sitesWf_setSite hs k (siteWf_clearedSite _), rfl⟩ _ _

theorem readSiteBody_keeps (k : Nat) (s : State) : Keeps s (readSiteBody k s) := by
  have hsite := checkSite_keeps s k
  have hall : TableKeeps s (s.checkSite k).checkConstituents := hsite.trans (.foldl checkConstituent_keeps _ _)
  unfold readSiteBody
  split
  · exact refuse_keeps s _
  dsimp only
  split
  · exact hsite.refuse _
  · exact hall.respond _ _

/-! ### Constants (R171 to R174) -/

/-- The constants are written: the laws hold on, and the tide tables stay as they stand. -/
structure ConstantsWrite (s t : State) : Prop extends Lawful s t where
  sites : t.sites = s.sites
  constituents : t.constituents = s.constituents

theorem setConstants_lawful {c : Constants} (h : ({ s with constants := c } : State).constantsWf = true) :
    Lawful s { s with constants := c } := by
  refine ⟨rfl, id, id, id, fun hs => ?_, id, id, id, fun hr => ?_⟩
  · exact frontWf_of_eq hs h rfl
  · obtain ⟨-, h2, h3, h4, h5⟩ := resultsWf_iff.1 hr
    exact resultsWf_iff.2 ⟨h, h2, h3, h4, h5⟩

theorem Window.constantsWritten_occ (w : Window) : w.constantsWritten.occ = w.occ := by
  unfold Window.constantsWritten
  split <;> rfl

theorem Window.constantsWritten_wf (w : Window) : w.constantsWritten.wf = w.wf := by
  unfold Window.constantsWritten
  split <;> rfl

theorem writeConstants_lawful (r : WriteConstantsReq) {c : Constants}
    (h : ({ s with constants := c } : State).constantsWf = true) : Lawful s (s.writeConstants r c) := by
  have hfront : Keeps { s with constants := c } { s with constants := c, front := s.front.enables s.constants c } :=
    setFront_keeps fun _ hf => hf.enables s.constants c
  have hwindow := mapWindow_keeps (s := { s with constants := c, front := s.front.enables s.constants c })
    Window.constantsWritten_occ fun w _ hw => (w.constantsWritten_wf).trans hw
  exact (setConstants_lawful h).trans ((hfront.trans hwindow).respond _ _).toLawful

theorem writeConstantsBody_write (r : WriteConstantsReq) (s : State) : ConstantsWrite s (writeConstantsBody r s) := by
  unfold writeConstantsBody
  split
  · refine ⟨writeConstants_lawful r ?_, rfl, rfl⟩
    simp only [State.constantsWf, installedConstants, numsInRange_installedNums, Bool.true_and]
    exact decide_eq_true (nextRevision_lt _)
  · exact ⟨(refuse_keeps s _).toLawful, rfl, rfl⟩

theorem readConstantsBody_keeps (s : State) : Keeps s (readConstantsBody s) := by
  have hcheck := checkConstants_keeps s true
  unfold readConstantsBody
  dsimp only
  split
  · exact hcheck.refuse _
  · exact hcheck.respond _ _

/-! ### The link's events and the event commands (R184 to R189) -/

theorem chipSelectOpen_keeps (s : State) : Keeps s s.chipSelectOpen := by
  unfold State.chipSelectOpen
  split
  · exact .refl s
  · exact link_keeps s _

theorem chipSelectClose_keeps (mosi : List Byte) (s : State) : Keeps s (State.chipSelectClose mosi s) := by
  unfold State.chipSelectClose
  split
  · exact .refl s
  · exact link_keeps s _

/-- R188: other masks, with the bits that name no event clear. -/
theorem setEvents_keeps {ev : Events} (h : s.eventsWf = true → ({ s with events := ev } : State).eventsWf = true) :
    Keeps s { s with events := ev } :=
  ⟨⟨rfl, h, id, id, id, id, id, id, id⟩, .of_eq rfl rfl rfl⟩

theorem maskCommand_keeps {m : BitVec 16} {f : Events → Events}
    (h : m &&& 0xC000 = 0 → s.eventsWf = true → ({ s with events := f s.events } : State).eventsWf = true) :
    Keeps s (maskCommand m f s) := by
  unfold maskCommand
  split
  · exact refuse_keeps s _
  · next hm => exact (setEvents_keeps (h (by simpa [badMask] using hm))).respond _ _

theorem clearEvents_keeps (m : BitVec 16) (s : State) : Keeps s (maskCommand m (Events.clear m) s) :=
  maskCommand_keeps fun _ hs => by
    obtain ⟨hp, he⟩ := eventsWf_iff.1 hs
    refine eventsWf_iff.2 ⟨?_, he⟩
    change s.events.pending &&& ~~~m &&& 0xC000 = 0
    rw [BitVec.and_assoc, BitVec.and_comm (~~~m), ← BitVec.and_assoc, hp]
    exact BitVec.zero_and

theorem setEventsMask_keeps (m : BitVec 16) (s : State) : Keeps s (maskCommand m (Events.set m) s) :=
  maskCommand_keeps fun hm hs => by
    obtain ⟨hp, he⟩ := eventsWf_iff.1 hs
    refine eventsWf_iff.2 ⟨?_, he⟩
    change (s.events.pending ||| m) &&& 0xC000 = 0
    rw [BitVec.and_comm, BitVec.and_or_distrib_left, BitVec.and_comm _ s.events.pending, BitVec.and_comm _ m, hp, hm]
    rfl

theorem enableEvents_keeps (m : BitVec 16) (s : State) : Keeps s (maskCommand m (Events.enable m) s) :=
  maskCommand_keeps fun hm hs => eventsWf_iff.2 ⟨(eventsWf_iff.1 hs).1, hm⟩

end Sys2Proof.Machine
end

