-- ==== Sys2Proof/Proofs/Invariants/Commands.lean ====
section
/-! SUPPORT. Every command keeps every invariant and the queue behind it, and none but the writes of their tables changes the
contents of the constants, the sites and the constituents. The lemmas of each block are cited here, one to a command. -/

namespace Sys2Proof.Machine

open Sys2Proof

variable {s t : State} {i : Instr} {a : Access} {body : State → State}

/-! ### Rows of the two kinds (R183 to R186) -/

theorem block_keeps (h : blockEvent body s = .next t) (hb : Keeps s (body s)) : Keeps s t := by
  obtain rfl := Host.Outcome.next.inj h
  exact hb

/-- A host command that is not run leaves the state, or answers NOT_IN_SERVICE. -/
theorem host_cases (h : hostCommand i a body s = .next t) :
    t = s ∨ t = s.refuse .notInService ∨ s.serves i a = true ∧ t = body s := by
  have ht := (Host.Outcome.next.inj h).symm
  split at ht
  · next hlink =>
    split at ht
    · next htaken => exact .inr (.inr ⟨(Bool.and_eq_true _ _).mpr ⟨hlink, htaken⟩, ht⟩)
    · exact .inr (.inl ht)
  · exact .inl ht

theorem host_keeps (h : hostCommand i a body s = .next t) (hb : s.serves i a = true → Keeps s (body s)) : Keeps s t := by
  obtain rfl | rfl | ⟨hs, rfl⟩ := host_cases h
  · exact .refl _
  · exact refuse_keeps s _
  · exact hb hs

theorem inService_of_serves (h : s.serves i .ready = true) : s.inService = true :=
  inService_iff.2 ⟨part_of_serves_ready h, resetHeld_of_serves h⟩

theorem part_of_serves_restore (h : s.serves i .restore = true) : s.part = .restore := by
  have htaken := ((Bool.and_eq_true _ _).mp h).2
  cases hp : s.part <;> simp_all [Access.taken]

/-- Every pass but the fourth. -/
theorem otherPass_keeps {n size : Nat} {unit : State → Nat → State}
    (hunit : ∀ s k, s.part = .starting → TableKeeps s (unit s k)) (hn : n ≠ 4) (steps : Nat) :
    Keeps s (scanPass n size unit steps s) := scanPass_keeps hunit (fun h => absurd h hn) steps

/-! ### The commands -/

/-- The commands that write the constants, a site or a constituent. -/
def writesContents : Instr → Bool
  | .powerOn => true
  | .writeConstituent _ _ _ _ => true
  | .writeSite _ _ => true
  | .clearSite _ => true
  | .writeConstants _ => true
  | _ => false

theorem exec_keeps {c : Instr} (hc : writesContents c ≠ true) (h : exec c s = .next t) : Keeps s t := by
  cases c with
  | powerOn => exact absurd rfl hc
  | resetLineAsserted => exact block_keeps h (holdReset_keeps s)
  | resetLineReleased => exact block_keeps h (resetNow_keeps s)
  | wake => exact block_keeps h (wake_keeps s)
  | chipSelectOpen => exact block_keeps h (chipSelectOpen_keeps s)
  | chipSelectClose mosi => exact block_keeps h (chipSelectClose_keeps mosi s)
  | openStation r => exact host_keeps h fun _ => openStationBody_keeps r s
  | editStation r => exact host_keeps h fun _ => editStationBody_keeps r s
  | findStation n => exact host_keeps h fun _ => findStationBody_keeps n s
  | readStation n => exact host_keeps h fun _ => readStationBody_keeps n s
  | readSlot set way => exact host_keeps h fun _ => readSlotBody_keeps set way s
  | retireStation n => exact host_keeps h fun _ => retireStationBody_keeps n s
  | retireSlot set way => exact host_keeps h fun _ => retireSlotBody_keeps set way s
  | beginReading r => exact host_keeps h fun hs => beginReadingBody_keeps (inService_of_serves hs) r
  | clampAsserted =>
    exact block_keeps (body := fun s => { s with clamp := true, window := s.window.map Window.reload }) h
      (clampAsserted_keeps s)
  | clampReleased => exact block_keeps (body := fun s => { s with clamp := false }) h (clamp_keeps s false)
  | basePeriodEnd => exact block_keeps h (basePeriod_keeps s)
  | slewCountComplete => exact block_keeps h (slewComplete_keeps s)
  | settleCountZero => exact block_keeps h (takeSettle_keeps s)
  | elapsedCountComplete => exact block_keeps h (takeElapsed_keeps s)
  | endReading => exact host_keeps h fun _ => endReadingBody_keeps s
  | abortReading => exact host_keeps h fun _ => abortReadingBody_keeps s
  | discardOccupation i => exact host_keeps h fun _ => discardOccupationBody_keeps i s
  | readWindow => exact host_keeps h fun _ => respond_keeps s _ _
  | readOccupation i => exact host_keeps h fun _ => readOccupationBody_keeps i s
  | gateStart ch => exact block_keeps h (risingEdge_keeps ch s)
  | tiltGateComplete a p => exact block_keeps h (tiltGate_keeps a p s)
  | temperatureGateComplete p => exact block_keeps h (tempGate_keeps p s)
  | abandon ch => exact block_keeps h (abandonGate_keeps ch s)
  | gsiFrame word => exact block_keeps h (frame_keeps word s)
  | shortFrame => exact block_keeps (body := fun s => s.setFront { s.front with receiving := false }) h (receiving_keeps s false)
  | silenceCountComplete => exact block_keeps h (takeSilence_keeps s)
  | openLoop l i => exact host_keeps h fun _ => openLoopBody_keeps l i s
  | loopExpired l => exact block_keeps h ((takeExpiry_keeps s l).toKeeps)
  | closeLoop l i m g => exact host_keeps h fun hs => closeLoopBody_keeps (inService_of_serves hs) l i m g
  | voidLoop l => exact host_keeps h fun _ => voidLoopBody_keeps l s
  | releaseLoop l => exact host_keeps h fun _ => releaseLoopBody_keeps l s
  | readLoop l => exact host_keeps h fun _ => readLoopBody_keeps l s
  | writeConstituent k e v p => exact absurd rfl hc
  | writeSite k ps => exact absurd rfl hc
  | clearSite k => exact absurd rfl hc
  | readSite k => exact host_keeps h fun _ => readSiteBody_keeps k s
  | writeConstants r => exact absurd rfl hc
  | readConstants => exact host_keeps h fun _ => readConstantsBody_keeps s
  | setClock a b => exact host_keeps h fun _ => setClockBody_keeps a b s
  | trimClock a => exact host_keeps h fun _ => trimClockBody_keeps a s
  | readClock => exact host_keeps h fun _ => respond_keeps s _ _
  | submitJob k g m => exact host_keeps h fun hs => submitJobBody_keeps (inService_of_serves hs) k g m
  | reduceStep => exact block_keeps h (engineStep_keeps atReduce (fun s f _ => reduceBody_stepKeeps s f) s)
  | closeLoopCheck => exact block_keeps h (engineStep_keeps atLoopCheck (fun s f _ => loopCheckBody_stepKeeps s f) s)
  | inlineReduction => exact block_keeps h (engineStep_keeps atInline (fun s f _ => inlineBody_stepKeeps s f) s)
  | deltaVStep => exact block_keeps h (engineStep_keeps atDeltaV (fun s f _ => deltaVBody_stepKeeps s f) s)
  | memberStep => exact block_keeps h (engineStep_keeps atMember (fun _ _ hf => memberBody_stepKeeps hf) s)
  | closeCompletion => exact block_keeps h (closeCompletion_keeps s)
  | recomputeDeltaVStep =>
    exact block_keeps h
      (engineStep_keeps atRecomputeDeltaV (fun s f _ => recomputeDeltaVBody_stepKeeps s f) s)
  | recomputeMemberStep =>
    exact block_keeps h
      (engineStep_keeps atRecomputeMember (fun _ _ hf => recomputeMemberBody_stepKeeps hf) s)
  | retideWayStep => exact block_keeps h (engineStep_keeps atWay (fun s f _ => wayBody_stepKeeps s f) s)
  | retideOccupationStep => exact block_keeps h (engineStep_keeps atOccupation (fun s f _ => occupationBody_stepKeeps s f) s)
  | recalcStep => exact block_keeps h (engineStep_keeps atIndex (fun s f _ => recalcBody_stepKeeps s f) s)
  | jobCompletion => exact block_keeps h (jobCompletion_keeps s)
  | readQueue => exact host_keeps h fun _ => respond_keeps s _ _
  | restartEngineRetry a => exact host_keeps h fun _ => restartRetryBody_keeps a s
  | restartEngineDiscard => exact host_keeps h fun _ => restartDiscardBody_keeps s
  | readFault => exact host_keeps h fun _ => respond_keeps s _ _
  | nextChanged k => exact host_keeps h fun _ => nextChangedBody_keeps k s
  | exportStation n => exact host_keeps h fun _ => exportStationBody_keeps n s
  | readExportPart k => exact host_keeps h fun _ => readExportPartBody_keeps k s
  | readEvents => exact host_keeps h fun _ => respond_keeps s _ _
  | clearEvents m => exact host_keeps h fun _ => clearEvents_keeps m s
  | setEvents m => exact host_keeps h fun _ => setEventsMask_keeps m s
  | enableEvents m => exact host_keeps h fun _ => enableEvents_keeps m s
  | identify => exact host_keeps h fun _ => respond_keeps s _ _
  | beginRestore => exact host_keeps h fun hs => beginRestoreBody_keeps (inService_of_serves hs)
  | loadStation r => exact host_keeps h fun _ => loadStationBody_keeps r s
  | loadOccupation i r => exact host_keeps h fun hs => loadOccupationBody_keeps (part_of_serves_restore hs) i r
  | loadLoop r => exact host_keeps h fun _ => loadLoopBody_keeps r s
  | endRestore => exact host_keeps h fun hs => endRestoreBody_keeps (part_of_serves_restore hs)
  | abortRestore => exact host_keeps h fun hs => abortRestoreBody_keeps (part_of_serves_restore hs)
  | readScanReport => exact host_keeps h fun _ => respond_keeps s _ _
  | standby => exact host_keeps h fun hs => standbyBody_keeps (inService_of_serves hs)
  | reset => exact host_keeps h fun _ => resetNow_keeps s
  | scanDuplicates n => exact block_keeps h (otherPass_keeps duplicatesUnit_keeps (by decide) n)
  | scanDamage n => exact block_keeps h (otherPass_keeps damageUnit_keeps (by decide) n)
  | scanReferences n => exact block_keeps h (otherPass_keeps (fun s k hp => referencesUnit_keeps hp k) (by decide) n)
  | scanWindows n => exact block_keeps h (scanPass_keeps windowsUnit_keeps (fun _ => ⟨rfl, rfl⟩) n)
  | scanOrder n => exact block_keeps h (otherPass_keeps orderUnit_keeps (by decide) n)
  | scanUnanchoredLoops n => exact block_keeps h (otherPass_keeps unanchoredUnit_keeps (by decide) n)
  | scanInterruptedCloses n => exact block_keeps h (otherPass_keeps interruptedUnit_keeps (by decide) n)
  | scanStrayDrift n => exact block_keeps h (otherPass_keeps strayUnit_keeps (by decide) n)
  | scanDone => exact block_keeps h (scanDone_keeps s)
  | gsiFrmAsserted => exact block_keeps h (frameStart_keeps s)

theorem tideWrite_of_host (h : hostCommand i a body s = .next t) (hb : TideWrite s (body s)) : TideWrite s t := by
  obtain rfl | rfl | ⟨-, rfl⟩ := host_cases h
  · exact ⟨.refl _, rfl⟩
  · exact .refuse s _
  · exact hb

theorem exec_writeConstituent_tideWrite {k e v p : Nat} (h : exec (.writeConstituent k e v p) s = .next t) : TideWrite s t :=
  tideWrite_of_host h (writeConstituentBody_tideWrite k e v p s)

theorem exec_writeSite_tideWrite {k : Nat} {ps : List (Nat × Nat)} (h : exec (.writeSite k ps) s = .next t) : TideWrite s t :=
  tideWrite_of_host h (writeSiteBody_tideWrite k ps s)

theorem exec_clearSite_tideWrite {k : Nat} (h : exec (.clearSite k) s = .next t) : TideWrite s t :=
  tideWrite_of_host h (clearSiteBody_tideWrite k s)

theorem exec_writeConstants_write {r : WriteConstantsReq} (h : exec (.writeConstants r) s = .next t) : ConstantsWrite s t := by
  obtain rfl | rfl | ⟨-, rfl⟩ := host_cases h
  · exact ⟨.refl _, rfl, rfl⟩
  · exact ⟨(refuse_keeps s _).toLawful, rfl, rfl⟩
  · exact writeConstantsBody_write r s

theorem exec_powerOn_lawful (h : exec .powerOn s = .next t) : Lawful s t := by
  obtain rfl := Host.Outcome.next.inj h
  exact powerOn_lawful s

theorem exec_lawful {c : Instr} (h : exec c s = .next t) : Lawful s t := by
  by_cases hc : writesContents c = true
  · unfold writesContents at hc
    split at hc
    · exact exec_powerOn_lawful h
    · exact (exec_writeConstituent_tideWrite h).toLawful
    · exact (exec_writeSite_tideWrite h).toLawful
    · exact (exec_clearSite_tideWrite h).toLawful
    · exact (exec_writeConstants_write h).toLawful
    · cases hc
  · exact (exec_keeps hc h).toLawful

end Sys2Proof.Machine
end

