-- ==== Sys2Proof/Proofs/Invariants/Settled.lean ====
section
/-! SUPPORT. The invariants of the blocks through a step, the queue behind a command, and what changes the constants and the
tide tables. -/

namespace Sys2Proof.Machine

open Sys2Proof

variable {s t : State}

/-! ### The step -/

/-- A step keeps every law of the state that it takes its command from, whose queue it leaves. -/
theorem step_lawful (h : step s = .next t) : Lawful { s with pending := t.pending } t := by
  unfold step at h
  split at h
  · obtain rfl := Host.Outcome.next.inj h
    have hk := (idle_keeps s).toLawful
    rw [hk.pending]
    exact hk
  · have hk := exec_lawful h
    rw [hk.pending]
    exact hk

/-! ### The invariants -/

/-- Settles O6: every row writes the masks from their old bits, from named events, or from a mask that names none but events. -/
theorem eventsKept : Obligations.EventsKept := fun _ _ hs h => (step_lawful h).events hs

/-- Settles O7: a job is placed where there is room, goes on, halts with its own progress as the fault, or completes. -/
theorem engineKept : Obligations.EngineKept := fun _ _ hs h => (step_lawful h).engine hs

/-- Settles O8: a tick is delivered to a clock that is not held alone, and a slew works off what the trim has. -/
theorem clockKept : Obligations.ClockKept := fun _ _ hs h => (step_lawful h).clock hs

/-- Settles O9: the gates take their lengths from constants in range, and the silence count is taken before a tick. -/
theorem frontKept : Obligations.FrontKept := fun _ _ hs h => (step_lawful h).front hs

/-- Settles O10: an entry is written in its own way, its list grows only where it has room, and a freed way leaves its order. -/
theorem stationsKept : Obligations.StationsKept := fun _ _ hs h => (step_lawful h).stations hs

/-- Settles O11: each write of a loop keeps its state's fields, and the three that change its state give it the new one's. -/
theorem loopsKept : Obligations.LoopsKept := fun _ _ hs h => (step_lawful h).loops hs

/-- Settles O12: a record enters its window with the window, leaves it with the window, and the scan frees those left over. -/
theorem recordsKept : Obligations.RecordsKept := fun _ _ hs h => (step_lawful h).records hs

/-- Settles O13: a results group is written from a reduction of ranges in range, and a drift part saturated. -/
theorem resultsKept : Obligations.ResultsKept := fun _ _ hs h => (step_lawful h).results hs

/-! ### The queue and the written tables -/

/-- Settles O3: the queue is one of the laws that every command keeps. -/
theorem queueKept : Obligations.QueueKept := fun _ _ _ h => (exec_lawful h).pending

/-- The same constants, their marks apart. -/
theorem constants_fields {b b' : Bool} (h : t.constants = { s.constants with damaged := b, sound := b' }) :
    t.constants.nums = s.constants.nums ∧ t.constants.mode = s.constants.mode ∧
      t.constants.enableX = s.constants.enableX ∧ t.constants.enableY = s.constants.enableY ∧
        t.constants.enableT = s.constants.enableT ∧ t.constants.revision = s.constants.revision := by
  rw [h]
  exact ⟨rfl, rfl, rfl, rfl, rfl, rfl⟩

theorem constantsWrittenOnlyByWrite_claim : Claims.ConstantsWrittenOnlyByWrite := by
  intro c s t h hwrite hpower
  by_cases hc : writesContents c = true
  · unfold writesContents at hc
    split at hc
    · exact absurd rfl hpower
    · exact constants_fields (exec_writeConstituent_tideWrite h).constants
    · exact constants_fields (exec_writeSite_tideWrite h).constants
    · exact constants_fields (exec_clearSite_tideWrite h).constants
    · exact absurd rfl (hwrite _)
    · cases hc
  · exact constants_fields (exec_keeps hc h).contents.constants

/-- The same site and constituent, their marks apart. -/
theorem tide_fields (hsites : ∀ k, t.site k = { s.site k with damaged := (t.site k).damaged, sound := (t.site k).sound })
    (hconstituents : ∀ k, t.constituent k =
      { s.constituent k with damaged := (t.constituent k).damaged, sound := (t.constituent k).sound }) (k : Nat) :
    (t.site k).revision = (s.site k).revision ∧ (t.site k).set = (s.site k).set ∧
      (t.site k).pairs = (s.site k).pairs ∧ (t.constituent k).enabled = (s.constituent k).enabled ∧
        (t.constituent k).speed = (s.constituent k).speed ∧ (t.constituent k).phase = (s.constituent k).phase := by
  rw [hsites k, hconstituents k]
  exact ⟨rfl, rfl, rfl, rfl, rfl, rfl⟩

theorem tideWrittenOnlyByWrites_claim : Claims.TideWrittenOnlyByWrites := by
  intro c s t h hconstituent hsite hclear hpower
  by_cases hc : writesContents c = true
  · unfold writesContents at hc
    split at hc
    · exact absurd rfl hpower
    · exact absurd rfl (hconstituent _ _ _ _)
    · exact absurd rfl (hsite _ _)
    · exact absurd rfl (hclear _)
    · have hw := exec_writeConstants_write h
      refine tide_fields (fun k => ?_) fun k => ?_
      · rw [State.site, State.site, hw.sites]
      · rw [State.constituent, State.constituent, hw.constituents]
    · cases hc
  · have hk := (exec_keeps hc h).contents
    exact tide_fields hk.sites hk.constituents

/-- Settles O14: what every other command keeps of the tables that these write. -/
theorem writtenOnlyByWrites : Obligations.WrittenOnlyByWrites :=
  ⟨constantsWrittenOnlyByWrite_claim, tideWrittenOnlyByWrites_claim⟩

end Sys2Proof.Machine
end
